-- ==== Sys2Proof/Word.lean ====
section
/-! DEFINITION. The word types of the Heroon AX-256 and reading a bit range high:low of a number (R8). -/

namespace Sys2Proof

/-- One byte of memory (R8). -/
abbrev Byte := BitVec 8
/-- A general register, an address or a special register of 64 bits (R41, R43). -/
abbrev Word := BitVec 64

/-- Bits `hi:lo` of a record or an element read as one number, bit 0 the least significant (R8). -/
def bits (x hi lo : Nat) : Nat := (x >>> lo) % 2 ^ (hi + 1 - lo)

/-- Bit `k` of a number. -/
def bit (x k : Nat) : Bool := x.testBit k

/-- A number as 0 or 1. -/
def b2n (b : Bool) : Nat := if b then 1 else 0

/-- The number `x` of `w` bits read as two's complement. -/
def toSigned (w x : Nat) : Int :=
  if x % 2 ^ w < 2 ^ (w - 1) then ((x % 2 ^ w : Nat) : Int) else ((x % 2 ^ w : Nat) : Int) - 2 ^ w

/-- The low `w` bits of an integer, as a number. -/
def lowBits (w : Nat) (x : Int) : Nat := (x % (2 ^ w : Int)).toNat

/-- Replace the bits `hi:lo` of `x` by the low bits of `v`. -/
def setBits (x hi lo v : Nat) : Nat :=
  (x >>> (hi + 1)) <<< (hi + 1) + (v % 2 ^ (hi + 1 - lo)) <<< lo + x % 2 ^ lo

/-- The first index below `n` that meets `p`, counting up from `i`. -/
def findFrom (p : Nat → Bool) : Nat → Nat → Option Nat
  | 0, _ => none
  | n + 1, i => if p i then some i else findFrom p n (i + 1)

/-- The indices `a, a+1, …, b-1`. -/
def upTo (a b : Nat) : List Nat := (List.range (b - a)).map (a + ·)

/-- Ceiling of a division; 0 when the divisor is 0. -/
def ceilDiv (a b : Nat) : Nat := if b = 0 then 0 else (a + b - 1) / b

end Sys2Proof
end

