-- ==== Sys2Proof/Syntax.lean ====
section
/-! DEFINITION. The whole table of operations and events: one constructor for each row of the opcode table.
A row that is an instruction word carries the word's fields (R90); a row that is a step of another agent carries
the values that reach it from outside. -/

namespace Sys2Proof

/-- The fields of an instruction word other than OP (R90). -/
structure Fields where
  d : BitVec 6 := 0
  a : BitVec 6 := 0
  b : BitVec 6 := 0
  c : BitVec 6 := 0
  e : BitVec 6 := 0
  gs : BitVec 4 := 0
  gm : BitVec 4 := 0
  rk : BitVec 3 := 0
  fmt : BitVec 5 := 0
  rnd : BitVec 3 := 0
  fsi : Bool := false
  fso : Bool := false
  sat : Bool := false
  hint : BitVec 4 := 0
  sched : BitVec 8 := 0
  fn : BitVec 8 := 0
  imm : BitVec 48 := 0
  deriving DecidableEq, Repr, Inhabited

/-- An endpoint of the Ultra Ethernet attachment: fabric address, UET job and process (R425). -/
structure Endpoint where
  addr : BitVec 128 := 0
  job : BitVec 24 := 0
  pid : BitVec 12 := 0
  deriving DecidableEq, Repr, Inhabited

/-- A COMMAND message: who sent it, the header's DIE, VDID and host tag (R416), and the 64-byte payload (R425). -/
structure Cmd where
  sender : Endpoint := {}
  port : BitVec 3 := 0
  die : BitVec 2 := 0
  vdid : BitVec 4 := 0
  tag : BitVec 64 := 0
  payload : BitVec 512 := 0
  sa : Nat := 0        -- the security association over which it arrived (R414, R425)
  deriving DecidableEq, Repr, Inhabited

/-- A host or peer message that is not a COMMAND: header fields of R416 and payload bytes. -/
structure Msg where
  sender : Endpoint := {}
  header : BitVec 256 := 0
  port : BitVec 3 := 0
  payload : List Byte := []
  sa : Nat := 0        -- the security association over which it arrived (R414)
  deriving DecidableEq, Repr, Inhabited

/-- One element of a Caravan train as it arrives (R299, R321). -/
structure CaravanElem where
  vd : BitVec 4
  train : Nat          -- names the train among those arriving
  bitAddr : Nat        -- DADDR × 8 + e × z
  size : Nat           -- element size in bits
  value : Nat
  taint : Bool
  poison : Bool
  agent : Nat          -- numbers the sending strand among those of other devices (R288)
  deriving DecidableEq, Repr, Inhabited

/-- The tail of a Caravan train (R299, R321). -/
structure CaravanTail where
  vd : BitVec 4
  train : Nat
  count : Nat
  asig : Word
  sid : Option Nat     -- the sending strand when the train comes from this device
  agent : Nat          -- numbers the sending strand among those of other devices
  rel : List (Nat × Nat)  -- what happens before its release at fabric scope (R288, R299)
  inner : List (List (Nat × Nat)) := []  -- the sender's releases at narrower scopes, which its own device's strands read (R288)
  deriving DecidableEq, Repr, Inhabited

/-- The kinds of home action a peer may send (R305). -/
inductive PeerKind where
  | lda | amo | amof | sig
  deriving DecidableEq, Repr, Inhabited

/-- A task's fold into a Manifest record on another device (R391, R394): what the task adds to TBASE for its logical
index, its phase, the taint and poison of its stores, and whether it records. Its digest is the action's operand b. -/
structure FoldMsg where
  offset : Nat
  phase : BitVec 32
  taint : Bool
  poison : Bool
  record : Bool
  deriving DecidableEq, Repr, Inhabited

/-- What a Steward asks of a Manifest record on another device (R392, R393): to compare M with EXPECT, to set STATUS, or to set M
and NTASK to 0. -/
inductive ManifestAct where
  | compare
  | status (n : BitVec 3)
  | clear
  deriving DecidableEq, Repr, Inhabited

/-- A home action arriving from another device (R305): the instruction's fields of R308-R311 and its operands. -/
structure PeerAction where
  vd : BitVec 4
  peer : BitVec 15
  kind : PeerKind
  fn : BitVec 8
  addr : Word
  b : Word
  c : Word
  bTaint : Bool
  bPoison : Bool
  trap : Bool          -- the sender's virtual device has the POISON trap enabled (R306)
  tnt : Bool := false  -- the sender's word traps on a tainted source (R99, R100)
  fabric : Bool        -- the action releases at fabric scope, the one that devices share (R288)
  agent : Nat          -- numbers the sending strand among those of other devices
  rel : List (Nat × Nat)  -- what happens before its releases at fabric scope
  inner : List (List (Nat × Nat)) := []  -- its releases at narrower scopes, which its own device's strands read (R288)
  fold : Option FoldMsg := none  -- the action is a fold, whatever `kind` says
  manifest : Option ManifestAct := none  -- the action is a Steward's on a Manifest record, whatever else is said
  deriving DecidableEq, Repr, Inhabited

/-- A COPY element access arriving from another device (R318): a read of, or a write to, `size` bits. -/
structure PeerAccess where
  vd : BitVec 4
  peer : BitVec 15
  isWrite : Bool
  bitAddr : Nat
  size : Nat
  value : Nat
  taint : Bool
  poison : Bool
  agent : Nat          -- numbers the sending strand among those of other devices (R288)
  deriving DecidableEq, Repr, Inhabited

/-- A fill that arrives at its cache (R268-R273): its place in the list of fills on their way, and whether an eviction meets
it in the same cycle. -/
structure FillReq where
  index : Nat
  evicting : Bool
  deriving DecidableEq, Repr, Inhabited

/-- What an uncorrectable error covers (R275, R429). -/
inductive ErrTarget where
  | granules (first count : Nat)
  | generalReg (sid reg : Nat)
  | arrayRow (sid reg row : Nat)
  | tileRow (sid tile row : Nat)
  | tlbEntry (index : Nat)
  | planeColumn (lid die cluster slot column : Nat)
  | gateLine (port vd expert granule : Nat)
  | firmware
  deriving DecidableEq, Repr, Inhabited

/-- An access of a plug-in on a Steward processor (R422): its address, and the permissions it needs: read, write,
execute in bits 0 to 2. -/
structure PluginAccess where
  addr : Word
  perm : BitVec 3
  deriving DecidableEq, Repr, Inhabited

/-- One byte read at a peer, as it comes back to a COPY or a collective: byte, taint, poison. -/
abbrev PeerByte := Byte × Bool × Bool

/-- How a piece of engine work ends, as far as other devices decide it (R317, R321). -/
inductive EngineEnd where
  | done (flags : Nat)  -- every access and acknowledgement came back; flags of a combination on a peer
  | peerFault (elements : List Nat)  -- the elements that faulted at a peer: finish with ERR
  deriving DecidableEq, Repr, Inhabited

/-- A contribution of a member on another device to a collective (R322, R323). -/
structure Contribution where
  member : Nat
  nmem : Nat
  cbcast : Bool
  opCode : Nat        -- FN of the CRED, or the root index of a CBCAST
  rnd : Nat           -- rounding code of the member's CRED
  fmt : Nat
  level : Nat
  node : Nat
  values : List Nat
  taints : List Bool
  poisons : List Bool
  sid : Option Nat    -- the member strand when it is on this device
  deriving DecidableEq, Repr, Inhabited

/-- The operations and events of the opcode table, one constructor for each row. -/
inductive Instr where
  -- scalar, OP 0x01-0x3F (R105)
  | add (f : Fields) | sub (f : Fields) | addi (f : Fields) | mul (f : Fields) | mulh (f : Fields)
  | mulhn (f : Fields) | div (f : Fields) | divn (f : Fields) | rem (f : Fields) | remn (f : Fields)
  | and (f : Fields) | or (f : Fields) | xor (f : Fields) | andn (f : Fields) | shl (f : Fields)
  | shr (f : Fields) | shra (f : Fields) | rotl (f : Fields) | clz (f : Fields) | ctz (f : Fields)
  | popc (f : Fields) | clmul (f : Fields) | min (f : Fields) | max (f : Fields) | minn (f : Fields)
  | maxn (f : Fields) | sel (f : Fields) | cmp (f : Fields) | cmpi (f : Fields) | qop (f : Fields)
  | li (f : Fields) | lih (f : Fields) | ld (f : Fields) | st (f : Fields)
  | fadd (f : Fields) | fsub (f : Fields) | fmul (f : Fields) | ffma (f : Fields) | fdiv (f : Fields)
  | fsqrt (f : Fields) | fmin (f : Fields) | fmax (f : Fields) | fcmp (f : Fields) | fcvt (f : Fields)
  | br (f : Fields) | jmp (f : Fields) | jmpi (f : Fields) | call (f : Fields) | ret (f : Fields)
  | gets (f : Fields) | sets (f : Fields) | trap (f : Fields) | yield (f : Fields) | halt (f : Fields)
  | nop (f : Fields) | brk (f : Fields)
  -- the queue's own steps (R13, R14, R44)
  | enqueue (op : BitVec 8) (f : Fields) | queueOrderedAccess
  -- elementwise, OP 0x40-0x6F (R106)
  | setl (f : Fields) | setlWake
  | vldTid (f : Fields) | vldPtr (f : Fields) | vstTid (f : Fields) | vstPtr (f : Fields)
  | vbc (f : Fields) | vmov (f : Fields) | viota (f : Fields)
  | vadd (f : Fields) | vsub (f : Fields) | vmul (f : Fields) | vfma (f : Fields) | vdiv (f : Fields)
  | vsqrt (f : Fields) | vmin (f : Fields) | vmax (f : Fields) | vabs (f : Fields) | vneg (f : Fields)
  | vand (f : Fields) | vor (f : Fields) | vxor (f : Fields) | vnot (f : Fields)
  | vshl (f : Fields) | vshr (f : Fields) | vcmp (f : Fields) | vsel (f : Fields)
  | vcvt (f : Fields) | vqnt (f : Fields) | vdqn (f : Fields) | vsfu (f : Fields) | vrcr (f : Fields)
  | mand (f : Fields) | mor (f : Fields) | mxor (f : Fields) | mnot (f : Fields)
  | mpop (f : Fields) | mfirst (f : Fields) | mset (f : Fields)
  | vext (f : Fields) | vins (f : Fields) | shtag (f : Fields) | shget (f : Fields)
  -- structural, OP 0x70-0x8F (R107)
  | red (f : Fields) | scan (f : Fields) | grade (f : Fields) | rot (f : Fields) | rev (f : Fields)
  | take (f : Fields) | drop (f : Fields) | reshape (f : Fields) | cat (f : Fields) | outer (f : Fields)
  | transp (f : Fields) | compress (f : Fields) | expand (f : Fields) | gath (f : Fields)
  | scat (f : Fields) | scata (f : Fields) | idxof (f : Fields) | repl (f : Fields)
  -- synchronisation, memory and engines, OP 0x90-0xAF (R108)
  | pb (f : Fields) | fence (f : Fields) | lda (f : Fields) | amo (f : Fields) | amof (f : Fields)
  | sig (f : Fields) | waits (f : Fields) | waitsWake | waitsTimeout
  | waitv (f : Fields) | waitvWake | waitvTimeout
  | barr (f : Fields) | barrierComplete (lid scope inst : Nat)
  | claim (f : Fields) | publ (f : Fields) | copy (f : Fields) | pref (f : Fields) | send (f : Fields)
  | cred (f : Fields) | cbcast (f : Fields) | tdef (f : Fields) | tset (f : Fields) | tget (f : Fields)
  | mirr (f : Fields) | xcan (f : Fields) | taint (f : Fields)
  -- matrix engine and Scout, OP 0xB0-0xBF (R109)
  | matt (f : Fields) | mdet (f : Fields) | pload (f : Fields) | ploadx (f : Fields)
  | mms (f : Fields) | mmr (f : Fields) | matrixOpFinish (sid k : Nat) (merge : Bool)
  | zrd (f : Fields) | zwr (f : Fields) | zclr (f : Fields) | scout (f : Fields) | check (f : Fields)
  | drarm (f : Fields)
  -- splicing, faults, scheduling (R352-R381)
  | spliceMove (f : Fields)
  | scalarFaultReport | arrayFaultReport | watchdog
  | launchAccept (vd : BitVec 4) (die : BitVec 2) (queue : BitVec 4)
  | launchPlacement (die : BitVec 2)
  | preemptSave (sid : Nat) | strandResume (sid : Nat) | strandFinish (sid : Nat)
  | serialReexecution (vd : BitVec 4)
  | cancelResolve (k : Nat) | agingStep (lid : Nat)
  -- engines, peers (R299, R305, R315-R324)
  | engineFinish (sid k : Nat) (how : EngineEnd) (data : List PeerByte)
  | caravanElement (p : CaravanElem) | caravanTail (p : CaravanTail)
  | credCombine (vd : BitVec 4) (gid seq : Nat) (remote : List Contribution)
  | cbcastDeliver (vd : BitVec 4) (gid seq : Nat) (remote : List Contribution)
  | peerHomeAction (p : PeerAction)
  -- translation, caches, errors, repair (R257-R276, R422-R430)
  | walkComplete (die : BitVec 2) (cluster : BitVec 4)
  | tlbInvalidate (vd : BitVec 4) (va : Word)
  | cacheFill (p : FillReq)
  | planeParityRefetch (lid die cluster slot column : Nat)
  | uncorrectableError (t : ErrTarget) | correctedError (die : BitVec 2) (unit : Nat)
  | fieldRepair (die : BitVec 2) (unit : Nat)
  | priv (vd : Option (BitVec 4)) (level need : BitVec 2) (access : Option PluginAccess) | firmwareLoss
  -- host messages and routing (R401-R421)
  | write (m : Msg) | read (m : Msg) | kick (m : Msg) | token (m : Msg) | close (m : Msg)
  | batchClose (port : BitVec 3) (vd : BitVec 4)
  | droverSpawn (die : BitVec 2) | droverCombine (die : BitVec 2) (k : Nat)
  | noticeSend (vd : BitVec 4) (die : BitVec 2) (queue : BitVec 4)
  -- windows and power (R396, R397, R423, R431-R433)
  | tollWindow (die : BitVec 2) | slewWindow | clusterEnable | powerUpReset
  | restartStagger (vd : BitVec 4) (job : BitVec 32) (t : BitVec 16)
  | staggerExpire (vd : BitVec 4) (job : BitVec 32) (die : BitVec 2)
  -- commands 0x01-0x10 (R424, R425)
  | createVd (m : Cmd) | destroyVd (m : Cmd) | lock (m : Cmd) | start (m : Cmd) | unlock (m : Cmd)
  | setToll (m : Cmd) | setWayRange (m : Cmd) | setFaultPolicy (m : Cmd) | setPeerTable (m : Cmd)
  | loadRoutingContext (m : Cmd) | setFaultQueue (m : Cmd) | readCounters (m : Cmd)
  | attestationReport (m : Cmd) | cancelCommand (m : Cmd) | transferOwnership (m : Cmd)
  | setSlope (m : Cmd) | boot (m : Cmd) | resume (m : Cmd)
  -- the last rows of the table
  | planeLoadFinish (sid k : Nat) | copyPeerAccess (p : PeerAccess)
  deriving DecidableEq, Repr, Inhabited

end Sys2Proof
end

