-- ==== Sys2Proof/WellFormed.lean ====
section
/-! DEFINITION. Which words are instructions (R92-R111): the slot classes, FN values, mode fields, hints, SCHED bits
and immediates of every opcode, and the well-formedness of a row's constructor. -/

namespace Sys2Proof

/-- Slot classes of R92. -/
inductive Cls where
  | no | g | q | v | m | z | t
  deriving DecidableEq, Repr

/-- The legal numbers of a slot class (R92). -/
def Cls.ok : Cls → Nat → Bool
  | .no, n => n == 0
  | .g, n => n < 32
  | .q, n => n < 8
  | .v, n => n < 32
  | .m, n => n < 8
  | .z, n => n < 16
  | .t, _ => true

/-- Format classes F, I, N, B, K of R189. -/
def Fmt.isF (c : Nat) : Bool := c ≤ 4
def Fmt.isI (c : Nat) : Bool := (5 ≤ c && c ≤ 8) || c == 21
def Fmt.isN (c : Nat) : Bool := (9 ≤ c && c ≤ 12) || c == 22
def Fmt.isB (c : Nat) : Bool := c == 13
def Fmt.isK (c : Nat) : Bool := 14 ≤ c && c ≤ 20
def Fmt.isFIN (c : Nat) : Bool := Fmt.isF c || Fmt.isI c || Fmt.isN c
def Fmt.isINB (c : Nat) : Bool := Fmt.isI c || Fmt.isN c || Fmt.isB c
def Fmt.isFINB (c : Nat) : Bool := Fmt.isFIN c || Fmt.isB c
def Fmt.isAny (c : Nat) : Bool := c ≤ 22

/-- Size of an element in bits (R66); for a block format the mantissa only. -/
def Fmt.size (c : Nat) : Nat :=
  match c with
  | 0 | 7 | 11 => 32
  | 1 | 2 | 6 | 10 => 16
  | 3 | 4 | 5 | 9 => 8
  | 8 | 12 => 64
  | 13 => 1
  | 21 | 22 => 4
  | _ => c - 12

/-- What an opcode accepts (R105-R109, R189, R227, R301, R336). -/
structure OpSpec where
  d : Cls := .no
  a : Cls := .no
  b : Cls := .no
  c : Cls := .no
  e : Cls := .no
  fnOk : Bool := false
  immOk : Bool := false
  mask : Bool := false
  rk : Bool := false
  fmtOk : Bool := false
  /-- RND codes 0-4 and 6 are accepted. -/
  rnd : Bool := false
  /-- RND code 5 (sr) is accepted too. -/
  rndSr : Bool := false
  fsi : Bool := false
  fso : Bool := false
  sat : Bool := false
  hint : Bool := false
  /-- Further decode rules of the instruction's description. -/
  extra : Bool := true
  deriving Repr

/-- The kind bit `k` of FN chooses between two classes (R93). -/
def kindCls (fn k : Nat) (set clear : Cls) : Cls := if bit fn k then set else clear

/-- One SETL pointer slot and its unit modifier (R194). -/
def setlSlotOk (imm fn s : Nat) : Bool :=
  let size := bits imm (8 * s + 7) (8 * s + 5)
  let reg := bits imm (8 * s + 4) (8 * s)
  let m := bits fn (2 * s + 1) (2 * s)
  m != 3 && (m == 0 || (5 ≤ size && reg != 0)) && (reg != 0 || size == 0)

/-- The axis permutation field of TRANSP and of a transposing COPY (R249): no field is 6 or 7. -/
def permOk (imm : Nat) : Bool :=
  imm < 2 ^ 18 && (List.range 6).all fun j => bits imm (3 * j + 2) (3 * j) < 6

/-- The FN values of FCVT (R170). -/
def fcvtFns : List Nat := [0x01, 0x02, 0x07, 0x08, 0x0B, 0x0C, 0x81, 0x82, 0x87, 0x88, 0x8B, 0x8C]

/-- Scalar opcodes (R105). -/
def scalarSpec (op : Nat) (f : Fields) : Option OpSpec :=
  let fn := f.fn.toNat
  let imm := f.imm.toNat
  let p (s : OpSpec) : Option OpSpec :=
    some { s with fmtOk := f.fmt == 0 }
  let ggg : OpSpec := { d := .g, a := .g, b := .g, fnOk := fn == 0, immOk := imm == 0 }
  let gg : OpSpec := { d := .g, a := .g, fnOk := fn == 0, immOk := imm == 0 }
  let flt : OpSpec := { ggg with rnd := true, fsi := true, fso := true }
  let none5 : OpSpec := { fnOk := fn == 0, immOk := imm == 0 }
  if op == 0x03 then p { gg with immOk := true }
  else if 0x01 ≤ op && op ≤ 0x12 then p ggg
  else if 0x13 ≤ op && op ≤ 0x15 then p gg
  else if 0x16 ≤ op && op ≤ 0x1A then p ggg
  else if op == 0x1B then p { d := .g, a := .q, b := .g, c := .g, fnOk := fn == 0, immOk := imm == 0 }
  else if op == 0x1C then p { d := .q, a := .g, b := .g, fnOk := fn ≤ 9, immOk := imm == 0 }
  else if op == 0x1D then p { d := .q, a := .g, fnOk := fn ≤ 9, immOk := true }
  else if op == 0x1E then p { d := .q, a := .q, b := .q, fnOk := fn ≤ 15, immOk := imm == 0 }
  else if op == 0x21 then p { d := .g, fnOk := fn == 0, immOk := true }
  else if op == 0x22 then p { gg with immOk := imm < 2 ^ 16 }
  else if op == 0x23 then p { gg with fnOk := fn ≤ 6, immOk := true, hint := true }
  else if op == 0x24 then p { gg with fnOk := fn ≤ 3, immOk := true, hint := true }
  else if 0x25 ≤ op && op ≤ 0x27 then p flt
  else if op == 0x28 then p { flt with c := .g }
  else if op == 0x29 then p flt
  else if op == 0x2A then p { gg with rnd := true, fsi := true, fso := true }
  else if op == 0x2B || op == 0x2C then p flt
  else if op == 0x2D then p { flt with d := .q, fnOk := fn ≤ 6 }
  else if op == 0x2E then
    p { gg with fnOk := fcvtFns.contains fn, rnd := true, fsi := true, fso := true, sat := true }
  else if op == 0x30 || op == 0x33 then p { none5 with immOk := imm < 2 ^ 32 }
  else if op == 0x31 then p { none5 with immOk := imm % 16 == 0 }
  else if op == 0x32 then p { none5 with a := .g }
  else if op == 0x34 then p none5
  else if op == 0x38 then p { d := .g, fnOk := fn ≤ 0x1E, immOk := imm == 0 }
  else if op == 0x39 then p { a := .g, fnOk := fn ≤ 0x1E, immOk := imm == 0 }
  else if op == 0x3A || op == 0x3E then p { none5 with immOk := imm < 2 ^ 16 }
  else if 0x3B ≤ op && op ≤ 0x3D then p none5
  else none

/-- Elementwise opcodes (R106, R189). -/
def elementSpec (op : Nat) (f : Fields) : Option OpSpec :=
  let fn := f.fn.toNat
  let imm := f.imm.toNat
  let fmt := f.fmt.toNat
  let isF := Fmt.isF fmt
  let k (j : Nat) : Cls := kindCls fn j .g .v
  let arith : OpSpec :=
    { d := .v, a := k 0, b := k 1, fnOk := fn ≤ 3, immOk := imm == 0, mask := true, rk := true,
      fmtOk := Fmt.isFIN fmt, rnd := isF, rndSr := isF, fsi := isF, fso := isF, sat := true }
  let one : OpSpec :=
    { d := .v, a := .v, fnOk := fn == 0, immOk := imm == 0, mask := true, rk := true }
  let logic : OpSpec :=
    { d := .v, a := k 0, b := k 1, fnOk := fn ≤ 3, immOk := imm == 0, mask := true, rk := true,
      fmtOk := Fmt.isFINB fmt }
  let mem : OpSpec :=
    let isK := Fmt.isK fmt
    { d := .v, a := kindCls fn 0 .g .t, b := .g, c := kindCls fn 0 .no .g,
      e := if isK then .v else .no, fnOk := fn ≤ 1,
      immOk := if fn == 1 then imm < 8 && (imm == 0 || Fmt.size fmt < 8) else imm == 0,
      mask := true, fmtOk := Fmt.isAny fmt, hint := true, extra := !isK || f.d != f.e }
  let msk (s : OpSpec) : OpSpec := { s with fmtOk := fmt == 0, immOk := imm == 0 }
  if op == 0x40 then
    some { d := .g, a := .g, b := .g, c := .g, fnOk := true, immOk := true, fmtOk := fmt == 0,
           extra := (List.range 4).all (setlSlotOk imm fn) }
  else if op == 0x41 || op == 0x42 then some mem
  else if op == 0x43 then
    some { d := .v, a := .g, fnOk := fn == 0, immOk := imm == 0, mask := true, fmtOk := Fmt.isFINB fmt }
  else if op == 0x44 then some { one with fmtOk := Fmt.isAny fmt }
  else if op == 0x45 then
    some { d := .v, fnOk := fn == 0, immOk := imm == 0, mask := true,
           fmtOk := Fmt.isI fmt || Fmt.isN fmt || fmt == 0, rnd := isF, rndSr := isF, sat := !isF }
  else if 0x46 ≤ op && op ≤ 0x48 then some arith
  else if op == 0x49 then some { arith with c := k 2, fnOk := fn ≤ 7 }
  else if op == 0x4A then some arith
  else if op == 0x4B then
    some { one with fmtOk := isF, rnd := true, rndSr := true, fsi := true, fso := true, sat := true }
  else if op == 0x4C || op == 0x4D then some arith
  else if op == 0x4E || op == 0x4F then
    some { one with fmtOk := isF || Fmt.isI fmt, fsi := isF, fso := isF, sat := !isF }
  else if 0x50 ≤ op && op ≤ 0x52 then some logic
  else if op == 0x53 then some { one with fmtOk := Fmt.isFINB fmt }
  else if op == 0x54 then some { logic with fmtOk := Fmt.isI fmt || Fmt.isN fmt }
  else if op == 0x55 then
    some { logic with fmtOk := Fmt.isI fmt || Fmt.isN fmt, fnOk := fn ≤ 3 || (8 ≤ fn && fn ≤ 11) }
  else if op == 0x56 then
    some { logic with
           d := .m, fmtOk := Fmt.isFIN fmt, fsi := isF,
           fnOk := bits fn 3 2 == 0 && (bits fn 7 4 ≤ 5 || (bits fn 7 4 == 6 && isF)) }
  else if op == 0x57 then
    some { d := .v, a := .m, b := k 1, c := k 2, fnOk := fn ≤ 6 && fn % 2 == 0, immOk := imm == 0,
           mask := true, rk := true, fmtOk := Fmt.isAny fmt }
  else if op == 0x58 then
    some { one with
           fnOk := Fmt.isFINB fn, fmtOk := Fmt.isFINB fmt, rnd := isF || Fmt.isF fn,
           rndSr := isF || Fmt.isF fn, fsi := Fmt.isF fn, fso := isF, sat := true }
  else if op == 0x59 then
    some { d := .v, a := .v, b := .v, fnOk := Fmt.isFIN fn, immOk := imm == 0, mask := true,
           fmtOk := Fmt.isK fmt, rnd := true, rndSr := true, fsi := Fmt.isF fn, sat := true,
           extra := f.d != f.b }
  else if op == 0x5A then
    some { d := .v, a := .v, b := .v, fnOk := Fmt.isK fn, immOk := imm == 0, mask := true,
           fmtOk := Fmt.isFINB fmt, rnd := Fmt.isFIN fmt, rndSr := Fmt.isFIN fmt, fso := isF, sat := true }
  else if op == 0x5B then
    some { one with
           fnOk := fn ≤ 9, fmtOk := fmt ≤ 2, rnd := true, rndSr := true, fsi := true,
           fso := true, sat := true }
  else if op == 0x5C then
    some { arith with a := .v, b := .v, fnOk := fn == 0 }
  else if 0x5D ≤ op && op ≤ 0x5F then some (msk { d := .m, a := .m, b := .m, fnOk := fn == 0 })
  else if op == 0x60 then some (msk { d := .m, a := .m, fnOk := fn == 0 })
  else if op == 0x61 || op == 0x62 then some (msk { d := .g, a := .m, fnOk := fn == 0 })
  else if op == 0x63 then some (msk { d := .m, a := .g, b := .g, fnOk := fn ≤ 1 })
  else if op == 0x64 then
    some { d := .g, a := .v, b := .g, fnOk := fn == 0, immOk := imm == 0, fmtOk := Fmt.isAny fmt }
  else if op == 0x65 then
    some { d := .v, a := .g, b := .g, fnOk := fn == 0, immOk := imm == 0, fmtOk := Fmt.isAny fmt }
  else if op == 0x66 then
    some { d := kindCls fn 0 .m .v, a := .g, b := .g, c := .g, e := .g, fnOk := fn ≤ 1, immOk := imm ≤ 4,
           fmtOk := if fn == 1 then fmt == 0 else Fmt.isAny fmt,
           extra := (1 ≤ imm || f.a == 0) && (2 ≤ imm || f.b == 0) && (3 ≤ imm || f.c == 0) &&
             (4 ≤ imm || f.e == 0) }
  else if op == 0x67 then
    some (msk { d := .g, a := kindCls fn 0 .m .v, fnOk := bits fn 3 1 == 0 && bits fn 7 4 ≤ 5 })
  else none

/-- Structural opcodes (R107, R227). -/
def structuralSpec (op : Nat) (f : Fields) : Option OpSpec :=
  let fn := f.fn.toNat
  let imm := f.imm.toNat
  let fmt := f.fmt.toNat
  let isF := Fmt.isF fmt
  let kd : Cls := kindCls fn 0 .t .v
  let ka : Cls := kindCls fn 1 .t .v
  let kb : Cls := kindCls fn 2 .t .v
  let base : OpSpec :=
    { d := kd, a := ka, immOk := imm == 0, mask := true, rk := true, hint := bits fn 2 0 != 0 }
  let num (s : OpSpec) : OpSpec :=
    { s with fmtOk := Fmt.isFIN fmt, rnd := isF, rndSr := isF, fsi := isF, fso := isF, sat := true }
  let logic (s : OpSpec) : OpSpec := { s with fmtOk := Fmt.isINB fmt }
  let mv (s : OpSpec) : OpSpec := { s with fmtOk := Fmt.isFINB fmt }
  if op == 0x70 then
    let s := { base with fnOk := bits fn 2 2 == 0 && bits fn 5 3 ≤ 6 && bits fn 7 6 ≤ 2 }
    some (if bits fn 5 3 ≤ 3 then num s else logic s)
  else if op == 0x71 then
    let s := { base with fnOk := bits fn 2 2 == 0 && bits fn 5 3 ≤ 6 && bits fn 7 7 == 0 }
    some (if bits fn 5 3 ≤ 3 then num s else logic s)
  else if op == 0x72 then
    some { base with
           d := .v, fnOk := bits fn 7 4 == 0 && bits fn 2 2 == 0 && bits fn 0 0 == 0,
           fmtOk := Fmt.isFIN fmt, fsi := isF }
  else if op == 0x73 || op == 0x75 || op == 0x76 then some (mv { base with b := .g, fnOk := fn ≤ 3 })
  else if op == 0x74 then some (mv { base with fnOk := fn ≤ 3 })
  else if op == 0x77 then some (mv { base with d := .v, b := .v, fnOk := fn == 0 || fn == 2 })
  else if op == 0x78 then some (mv { base with b := kb, fnOk := fn ≤ 7 })
  else if op == 0x79 then
    let o := bits fn 6 3
    let s := { base with d := .v, b := kb, fnOk := bits fn 7 7 == 0 && bits fn 0 0 == 0 && o ≤ 11 }
    some (if o ≤ 5 then num s else if o ≤ 8 then logic s
          else { s with fmtOk := Fmt.isFINB fmt, fsi := isF })
  else if op == 0x7A then some (mv { base with fnOk := fn ≤ 3, immOk := permOk imm })
  else if op == 0x7B then some (mv { base with b := .m, e := .g, fnOk := fn ≤ 3 })
  else if op == 0x7C then some (mv { base with b := .m, fnOk := fn ≤ 3 })
  else if op == 0x7D then some (mv { base with d := .v, b := .v, fnOk := fn == 0 || fn == 2 })
  else if op == 0x7E then some (mv { base with a := .v, b := .v, fnOk := fn ≤ 1 })
  else if op == 0x7F then
    let s := { base with
           a := .v, b := .v,
               fnOk := bits fn 2 1 == 0 && bits fn 5 3 ≤ 3 && bits fn 7 6 == 0 }
    some (if bits fn 5 3 ≤ 2 then num s else logic s)
  else if op == 0x80 then
    some { base with d := .v, b := .v, fnOk := fn == 0 || fn == 2, fmtOk := Fmt.isFINB fmt, fsi := isF }
  else if op == 0x81 then some (mv { base with b := .v, fnOk := fn ≤ 3 })
  else none

/-- Synchronisation, memory and engine opcodes (R108, R301, R302). -/
def syncSpec (op : Nat) (f : Fields) : Option OpSpec :=
  let fn := f.fn.toNat
  let imm := f.imm.toNat
  let fmt := f.fmt.toNat
  let p (s : OpSpec) : OpSpec := { s with immOk := imm == 0, fmtOk := fmt == 0 }
  if op == 0x90 then some (p { fnOk := bits fn 7 5 == 0 && bits fn 2 0 ≤ 4 && bits fn 4 3 != 0 })
  else if op == 0x91 then some (p { fnOk := fn ≤ 3 })
  else if op == 0x92 then
    some { d := .g, a := .g, fnOk := [0x00, 0x04, 0x10, 0x14].contains fn, immOk := imm ≤ 4,
           fmtOk := fmt == 0, hint := true }
  else if op == 0x93 then
    some { d := .g, a := .g, b := .g, c := if bits fn 7 5 == 7 then .g else .no,
           fnOk := bits fn 1 0 == 0, immOk := imm ≤ 4, fmtOk := fmt == 0, hint := true }
  else if op == 0x94 then
    some { d := .g, a := .g, b := .g, fnOk := [0x00, 0x08, 0x10, 0x18].contains fn, immOk := imm ≤ 4,
           fmtOk := fmt == 0, hint := true }
  else if op == 0x95 then
    some { p { a := .g, b := .g, fnOk := bits fn 7 4 == 0 && bits fn 2 0 ≤ 4 } with hint := true }
  else if op == 0x96 then some (p { d := .q, a := .g, b := .g, c := .g, fnOk := fn ≤ 4 })
  else if op == 0x97 then some { p { d := .m, a := .v, b := .v, c := .g, fnOk := fn ≤ 4 } with mask := true }
  else if op == 0x98 then some (p { fnOk := fn ≤ 3 })
  else if op == 0x99 then some (p { d := .g, a := .g, b := .g, fnOk := fn == 0 })
  else if op == 0x9A then some (p { a := .g, b := .g, fnOk := fn ≤ 4 })
  else if op == 0x9B then
    some { d := .g, a := kindCls fn 0 .v .t, b := .t, fnOk := fn ≤ 3,
           immOk := if bit fn 1 then permOk imm else imm == 0,
           fmtOk := if bit fn 0 then Fmt.isFINB fmt else Fmt.isAny fmt, hint := true }
  else if op == 0x9C then some { p { a := .t, b := .g, c := .g, fnOk := fn ≤ 1 } with hint := true }
  else if op == 0x9D then
    some { d := .g, a := .t, b := .v, fnOk := fn == 0, immOk := imm == 0, fmtOk := Fmt.isFINB fmt,
           hint := true }
  else if op == 0x9E then
    some { d := .g, a := .t, b := .t, c := .g, fnOk := [0x00, 0x08, 0x10, 0x40, 0x48, 0x50].contains fn,
           immOk := imm == 0, fmtOk := [0, 1, 2, 7, 8, 11, 12].contains fmt, rnd := Fmt.isF fmt,
           hint := true }
  else if op == 0x9F then
    some { d := .g, a := .t, b := .g, c := .g, fnOk := fn == 0, immOk := imm == 0,
           fmtOk := Fmt.isFINB fmt, hint := true }
  else if op == 0xA0 then some (p { d := .t, a := .g, fnOk := fn == 0 })
  else if op == 0xA1 then some (p { d := .t, a := .g, fnOk := fn ≤ 0x17 })
  else if op == 0xA2 then some (p { d := .g, a := .t, fnOk := fn ≤ 0x17 })
  else if op == 0xA3 then
    some (p { d := .v, a := if fn == 0 then .v else .no, fnOk := fn ≤ 1 })
  else if op == 0xA4 then some (p { fnOk := fn ≤ 4 })
  else if op == 0xA5 then
    let cls : Cls := match bits fn 2 1 with
      | 0 => .g
      | 1 => .v
      | 2 => .m
      | _ => .z
    some (p { d := if bit fn 0 then .no else .q, a := cls, fnOk := fn ≤ 7 })
  else none

/-- Matrix engine and Scout opcodes (R109, R336, R342). -/
def matrixSpec (op : Nat) (f : Fields) : Option OpSpec :=
  let fn := f.fn.toNat
  let imm := f.imm.toNat
  let fmt := f.fmt.toNat
  let isF := Fmt.isF fmt
  let p (s : OpSpec) : OpSpec := { s with fnOk := fn == 0, immOk := imm == 0, fmtOk := fmt == 0 }
  let pl (s : OpSpec) : OpSpec :=
    { s with fnOk := Fmt.isK fn, immOk := imm == 0, fmtOk := fmt == 0, hint := true }
  if op == 0xB0 then some (p { a := .g })
  else if op == 0xB1 then some (p {})
  else if op == 0xB2 then some (pl { a := .t, b := .g })
  else if op == 0xB3 then some (pl { a := .t, b := .g, c := .v })
  else if op == 0xB4 || op == 0xB5 then
    some { p { d := .z, a := .v, b := .v, c := .g } with
           rnd := true, rndSr := true, immOk := imm < 2 ^ 24 && bits imm 15 10 == 0 && bits imm 7 7 == 0 }
  else if op == 0xB6 then
    some { p { d := .v, a := .z, b := .g } with
           fmtOk := Fmt.isFIN fmt, rnd := true, rndSr := true, fso := isF, sat := true }
  else if op == 0xB7 then
    some { p { d := .z, a := .v, b := .g } with fmtOk := Fmt.isFIN fmt, rnd := true, rndSr := true, fsi := isF }
  else if op == 0xB8 then some (p { d := .z })
  else if op == 0xB9 then some (p { d := .v, a := .v, e := .g })
  else if op == 0xBA then
    some { p { d := .z, a := .v, b := .v, c := .g } with rnd := true, rndSr := true, hint := true }
  else if op == 0xBB then some (p { a := .g })
  else none

/-- What the opcode accepts, none for OP 0x00, a reserved opcode or 0xC0-0xFF (R104). -/
def opSpec (op : BitVec 8) (f : Fields) : Option OpSpec :=
  let n := op.toNat
  if n < 0x40 then scalarSpec n f
  else if n < 0x70 then elementSpec n f
  else if n < 0x90 then structuralSpec n f
  else if n < 0xB0 then syncSpec n f
  else matrixSpec n f

/-- Scalar class: OP 0x01-0x3F (R104). -/
def isScalarOp (op : BitVec 8) : Bool := op.toNat < 0x40

/-- Why a word is not an instruction (R110). Every reason is the fault ILLEGAL. -/
inductive DecodeError where
  /-- fewer than 16 bytes were given -/
  | shortWord
  /-- OP 0x00, a reserved opcode, or 0xC0-0xFF -/
  | reservedOpcode
  | unassignedFn
  | slotClass
  | maskField
  | rankField
  | formatField
  | roundingField
  | flushField
  | saturateField
  | hintField
  | schedField
  | immediateField
  /-- a decode rule of the instruction's own description -/
  | instructionRule
  deriving DecidableEq, Repr

/-- The first reason, in the order of R110's list, why the fields of opcode `op` are not an instruction. -/
def legalityError (op : BitVec 8) (f : Fields) : Option DecodeError :=
  match opSpec op f with
  | none => some .reservedOpcode
  | some s =>
    let rnd := f.rnd.toNat
    if !s.fnOk then some .unassignedFn
    else if !(s.d.ok f.d.toNat && s.a.ok f.a.toNat && s.b.ok f.b.toNat && s.c.ok f.c.toNat &&
        s.e.ok f.e.toNat) then some .slotClass
    else if !(s.mask || f.gm == 0) then some .maskField
    else if !(s.rk || f.rk == 0) then some .rankField
    else if !(s.fmtOk && f.fmt.toNat ≤ 22) then some .formatField
    else if !(rnd == 0 || (s.rnd && rnd != 7 && (rnd != 5 || s.rndSr))) then some .roundingField
    else if (f.fsi && !s.fsi) || (f.fso && !s.fso) then some .flushField
    else if f.sat && !s.sat then some .saturateField
    else if !(f.hint == 0 || (s.hint && f.hint.toNat ≤ 4)) then some .hintField
    else if !(f.sched.toNat % 4 == 0 && (!isScalarOp op || bits f.sched.toNat 6 4 == 0)) then some .schedField
    else if !s.immOk then some .immediateField
    else if !s.extra then some .instructionRule
    else none

/-- Is the word an instruction (R110), but for the tile share, which depends on the strand's residency? -/
def legal (op : BitVec 8) (f : Fields) : Bool := (legalityError op f).isNone

/-- The opcode and fields of a row that is an instruction word; none for a row that is a step of another agent. -/
def Instr.word : Instr → Option (BitVec 8 × Fields)
  | .add f => some (0x01, f)
  | .sub f => some (0x02, f)
  | .addi f => some (0x03, f)
  | .mul f => some (0x04, f)
  | .mulh f => some (0x05, f)
  | .mulhn f => some (0x06, f)
  | .div f => some (0x07, f)
  | .divn f => some (0x08, f)
  | .rem f => some (0x09, f)
  | .remn f => some (0x0A, f)
  | .and f => some (0x0B, f)
  | .or f => some (0x0C, f)
  | .xor f => some (0x0D, f)
  | .andn f => some (0x0E, f)
  | .shl f => some (0x0F, f)
  | .shr f => some (0x10, f)
  | .shra f => some (0x11, f)
  | .rotl f => some (0x12, f)
  | .clz f => some (0x13, f)
  | .ctz f => some (0x14, f)
  | .popc f => some (0x15, f)
  | .clmul f => some (0x16, f)
  | .min f => some (0x17, f)
  | .max f => some (0x18, f)
  | .minn f => some (0x19, f)
  | .maxn f => some (0x1A, f)
  | .sel f => some (0x1B, f)
  | .cmp f => some (0x1C, f)
  | .cmpi f => some (0x1D, f)
  | .qop f => some (0x1E, f)
  | .li f => some (0x21, f)
  | .lih f => some (0x22, f)
  | .ld f => some (0x23, f)
  | .st f => some (0x24, f)
  | .fadd f => some (0x25, f)
  | .fsub f => some (0x26, f)
  | .fmul f => some (0x27, f)
  | .ffma f => some (0x28, f)
  | .fdiv f => some (0x29, f)
  | .fsqrt f => some (0x2A, f)
  | .fmin f => some (0x2B, f)
  | .fmax f => some (0x2C, f)
  | .fcmp f => some (0x2D, f)
  | .fcvt f => some (0x2E, f)
  | .br f => some (0x30, f)
  | .jmp f => some (0x31, f)
  | .jmpi f => some (0x32, f)
  | .call f => some (0x33, f)
  | .ret f => some (0x34, f)
  | .gets f => some (0x38, f)
  | .sets f => some (0x39, f)
  | .trap f => some (0x3A, f)
  | .yield f => some (0x3B, f)
  | .halt f => some (0x3C, f)
  | .nop f => some (0x3D, f)
  | .brk f => some (0x3E, f)
  | .setl f => some (0x40, f)
  | .vldTid f => some (0x41, f)
  | .vldPtr f => some (0x41, f)
  | .vstTid f => some (0x42, f)
  | .vstPtr f => some (0x42, f)
  | .vbc f => some (0x43, f)
  | .vmov f => some (0x44, f)
  | .viota f => some (0x45, f)
  | .vadd f => some (0x46, f)
  | .vsub f => some (0x47, f)
  | .vmul f => some (0x48, f)
  | .vfma f => some (0x49, f)
  | .vdiv f => some (0x4A, f)
  | .vsqrt f => some (0x4B, f)
  | .vmin f => some (0x4C, f)
  | .vmax f => some (0x4D, f)
  | .vabs f => some (0x4E, f)
  | .vneg f => some (0x4F, f)
  | .vand f => some (0x50, f)
  | .vor f => some (0x51, f)
  | .vxor f => some (0x52, f)
  | .vnot f => some (0x53, f)
  | .vshl f => some (0x54, f)
  | .vshr f => some (0x55, f)
  | .vcmp f => some (0x56, f)
  | .vsel f => some (0x57, f)
  | .vcvt f => some (0x58, f)
  | .vqnt f => some (0x59, f)
  | .vdqn f => some (0x5A, f)
  | .vsfu f => some (0x5B, f)
  | .vrcr f => some (0x5C, f)
  | .mand f => some (0x5D, f)
  | .mor f => some (0x5E, f)
  | .mxor f => some (0x5F, f)
  | .mnot f => some (0x60, f)
  | .mpop f => some (0x61, f)
  | .mfirst f => some (0x62, f)
  | .mset f => some (0x63, f)
  | .vext f => some (0x64, f)
  | .vins f => some (0x65, f)
  | .shtag f => some (0x66, f)
  | .shget f => some (0x67, f)
  | .red f => some (0x70, f)
  | .scan f => some (0x71, f)
  | .grade f => some (0x72, f)
  | .rot f => some (0x73, f)
  | .rev f => some (0x74, f)
  | .take f => some (0x75, f)
  | .drop f => some (0x76, f)
  | .reshape f => some (0x77, f)
  | .cat f => some (0x78, f)
  | .outer f => some (0x79, f)
  | .transp f => some (0x7A, f)
  | .compress f => some (0x7B, f)
  | .expand f => some (0x7C, f)
  | .gath f => some (0x7D, f)
  | .scat f => some (0x7E, f)
  | .scata f => some (0x7F, f)
  | .idxof f => some (0x80, f)
  | .repl f => some (0x81, f)
  | .pb f => some (0x90, f)
  | .fence f => some (0x91, f)
  | .lda f => some (0x92, f)
  | .amo f => some (0x93, f)
  | .amof f => some (0x94, f)
  | .sig f => some (0x95, f)
  | .waits f => some (0x96, f)
  | .waitv f => some (0x97, f)
  | .barr f => some (0x98, f)
  | .claim f => some (0x99, f)
  | .publ f => some (0x9A, f)
  | .copy f => some (0x9B, f)
  | .pref f => some (0x9C, f)
  | .send f => some (0x9D, f)
  | .cred f => some (0x9E, f)
  | .cbcast f => some (0x9F, f)
  | .tdef f => some (0xA0, f)
  | .tset f => some (0xA1, f)
  | .tget f => some (0xA2, f)
  | .mirr f => some (0xA3, f)
  | .xcan f => some (0xA4, f)
  | .taint f => some (0xA5, f)
  | .matt f => some (0xB0, f)
  | .mdet f => some (0xB1, f)
  | .pload f => some (0xB2, f)
  | .ploadx f => some (0xB3, f)
  | .mms f => some (0xB4, f)
  | .mmr f => some (0xB5, f)
  | .zrd f => some (0xB6, f)
  | .zwr f => some (0xB7, f)
  | .zclr f => some (0xB8, f)
  | .scout f => some (0xB9, f)
  | .check f => some (0xBA, f)
  | .drarm f => some (0xBB, f)
  | _ => none

/-- The FN value that tells the TID form from the pointer form of VLD and VST (R197). -/
def Instr.formOk : Instr → Bool
  | .vldTid f | .vstTid f => f.fn == 0
  | .vldPtr f | .vstPtr f => f.fn == 1
  | _ => true

/-- A well-formed row: a word that decode accepts in the row's own form; a step of another agent has no word. -/
def Instr.wellFormed (i : Instr) : Bool :=
  match i.word with
  | some (op, f) => legal op f && i.formOk
  | none => true

/-- A row that is an instruction word. -/
def Instr.isWord (i : Instr) : Bool := i.word.isSome

end Sys2Proof
end

