-- ==== Sys2Proof/Decode.lean ====
section
/-! DEFINITION. The decoder of the 128-bit word (R89-R91, R110), total on any bytes and rejecting by name, and
the encoder written from the same field table. -/

namespace Sys2Proof

/-- Opcode rows of R105. -/
def scalarRowsA : List (Nat × (Fields → Instr)) :=
  [(0x01, Instr.add), (0x02, Instr.sub), (0x03, Instr.addi), (0x04, Instr.mul), (0x05, Instr.mulh), (0x06, Instr.mulhn), (0x07, Instr.div), (0x08, Instr.divn), (0x09, Instr.rem), (0x0A, Instr.remn), (0x0B, Instr.and), (0x0C, Instr.or)]
def scalarRowsB : List (Nat × (Fields → Instr)) :=
  [(0x0D, Instr.xor), (0x0E, Instr.andn), (0x0F, Instr.shl), (0x10, Instr.shr), (0x11, Instr.shra), (0x12, Instr.rotl), (0x13, Instr.clz), (0x14, Instr.ctz), (0x15, Instr.popc), (0x16, Instr.clmul), (0x17, Instr.min), (0x18, Instr.max)]
def scalarRowsC : List (Nat × (Fields → Instr)) :=
  [(0x19, Instr.minn), (0x1A, Instr.maxn), (0x1B, Instr.sel), (0x1C, Instr.cmp), (0x1D, Instr.cmpi), (0x1E, Instr.qop), (0x21, Instr.li), (0x22, Instr.lih), (0x23, Instr.ld), (0x24, Instr.st), (0x25, Instr.fadd), (0x26, Instr.fsub)]
def scalarRowsD : List (Nat × (Fields → Instr)) :=
  [(0x27, Instr.fmul), (0x28, Instr.ffma), (0x29, Instr.fdiv), (0x2A, Instr.fsqrt), (0x2B, Instr.fmin), (0x2C, Instr.fmax), (0x2D, Instr.fcmp), (0x2E, Instr.fcvt), (0x30, Instr.br), (0x31, Instr.jmp), (0x32, Instr.jmpi), (0x33, Instr.call)]
def scalarRowsE : List (Nat × (Fields → Instr)) :=
  [(0x34, Instr.ret), (0x38, Instr.gets), (0x39, Instr.sets), (0x3A, Instr.trap), (0x3B, Instr.yield), (0x3C, Instr.halt), (0x3D, Instr.nop), (0x3E, Instr.brk)]
def scalarRows : List (Nat × (Fields → Instr)) := scalarRowsA ++ scalarRowsB ++ scalarRowsC ++ scalarRowsD ++ scalarRowsE

/-- Opcode rows of R106. -/
def elementRowsA : List (Nat × (Fields → Instr)) :=
  [(0x40, Instr.setl), (0x41, fun f => if f.fn == 0 then Instr.vldTid f else Instr.vldPtr f), (0x42, fun f => if f.fn == 0 then Instr.vstTid f else Instr.vstPtr f), (0x43, Instr.vbc), (0x44, Instr.vmov), (0x45, Instr.viota), (0x46, Instr.vadd), (0x47, Instr.vsub), (0x48, Instr.vmul), (0x49, Instr.vfma), (0x4A, Instr.vdiv), (0x4B, Instr.vsqrt)]
def elementRowsB : List (Nat × (Fields → Instr)) :=
  [(0x4C, Instr.vmin), (0x4D, Instr.vmax), (0x4E, Instr.vabs), (0x4F, Instr.vneg), (0x50, Instr.vand), (0x51, Instr.vor), (0x52, Instr.vxor), (0x53, Instr.vnot), (0x54, Instr.vshl), (0x55, Instr.vshr), (0x56, Instr.vcmp), (0x57, Instr.vsel)]
def elementRowsC : List (Nat × (Fields → Instr)) :=
  [(0x58, Instr.vcvt), (0x59, Instr.vqnt), (0x5A, Instr.vdqn), (0x5B, Instr.vsfu), (0x5C, Instr.vrcr), (0x5D, Instr.mand), (0x5E, Instr.mor), (0x5F, Instr.mxor), (0x60, Instr.mnot), (0x61, Instr.mpop), (0x62, Instr.mfirst), (0x63, Instr.mset)]
def elementRowsD : List (Nat × (Fields → Instr)) :=
  [(0x64, Instr.vext), (0x65, Instr.vins), (0x66, Instr.shtag), (0x67, Instr.shget)]
def elementRows : List (Nat × (Fields → Instr)) := elementRowsA ++ elementRowsB ++ elementRowsC ++ elementRowsD

/-- Opcode rows of R107. -/
def structuralRowsA : List (Nat × (Fields → Instr)) :=
  [(0x70, Instr.red), (0x71, Instr.scan), (0x72, Instr.grade), (0x73, Instr.rot), (0x74, Instr.rev), (0x75, Instr.take), (0x76, Instr.drop), (0x77, Instr.reshape), (0x78, Instr.cat), (0x79, Instr.outer), (0x7A, Instr.transp), (0x7B, Instr.compress)]
def structuralRowsB : List (Nat × (Fields → Instr)) :=
  [(0x7C, Instr.expand), (0x7D, Instr.gath), (0x7E, Instr.scat), (0x7F, Instr.scata), (0x80, Instr.idxof), (0x81, Instr.repl)]
def structuralRows : List (Nat × (Fields → Instr)) := structuralRowsA ++ structuralRowsB

/-- Opcode rows of R108. -/
def syncRowsA : List (Nat × (Fields → Instr)) :=
  [(0x90, Instr.pb), (0x91, Instr.fence), (0x92, Instr.lda), (0x93, Instr.amo), (0x94, Instr.amof), (0x95, Instr.sig), (0x96, Instr.waits), (0x97, Instr.waitv), (0x98, Instr.barr), (0x99, Instr.claim), (0x9A, Instr.publ), (0x9B, Instr.copy)]
def syncRowsB : List (Nat × (Fields → Instr)) :=
  [(0x9C, Instr.pref), (0x9D, Instr.send), (0x9E, Instr.cred), (0x9F, Instr.cbcast), (0xA0, Instr.tdef), (0xA1, Instr.tset), (0xA2, Instr.tget), (0xA3, Instr.mirr), (0xA4, Instr.xcan), (0xA5, Instr.taint)]
def syncRows : List (Nat × (Fields → Instr)) := syncRowsA ++ syncRowsB

/-- Opcode rows of R109. -/
def matrixRowsA : List (Nat × (Fields → Instr)) :=
  [(0xB0, Instr.matt), (0xB1, Instr.mdet), (0xB2, Instr.pload), (0xB3, Instr.ploadx), (0xB4, Instr.mms), (0xB5, Instr.mmr), (0xB6, Instr.zrd), (0xB7, Instr.zwr), (0xB8, Instr.zclr), (0xB9, Instr.scout), (0xBA, Instr.check), (0xBB, Instr.drarm)]
def matrixRows : List (Nat × (Fields → Instr)) := matrixRowsA
/-- All opcode rows. -/
def opRows : List (Nat × (Fields → Instr)) :=
  scalarRows ++ elementRows ++ structuralRows ++ syncRows ++ matrixRows

/-- The row of an opcode and its fields; VLD and VST are told apart by FN (R197). -/
def instrOf (op : BitVec 8) (f : Fields) : Option Instr :=
  (opRows.lookup op.toNat).map (· f)

/-- The opcode of a word (R90). -/
def opOf (w : BitVec 128) : BitVec 8 := w.extractLsb' 120 8

/-- The fields of a word (R90). -/
def fieldsOf (w : BitVec 128) : Fields where
  d := w.extractLsb' 114 6
  a := w.extractLsb' 108 6
  b := w.extractLsb' 102 6
  c := w.extractLsb' 96 6
  e := w.extractLsb' 90 6
  gs := w.extractLsb' 86 4
  gm := w.extractLsb' 82 4
  rk := w.extractLsb' 79 3
  fmt := w.extractLsb' 74 5
  rnd := w.extractLsb' 71 3
  fsi := w.getLsbD 70
  fso := w.getLsbD 69
  sat := w.getLsbD 68
  hint := w.extractLsb' 64 4
  sched := w.extractLsb' 56 8
  fn := w.extractLsb' 48 8
  imm := w.extractLsb' 0 48

/-- The word of an opcode and its fields (R90). -/
def packWord (op : BitVec 8) (f : Fields) : BitVec 128 :=
  op ++ f.d ++ f.a ++ f.b ++ f.c ++ f.e ++ f.gs ++ f.gm ++ f.rk ++ f.fmt ++ f.rnd ++
    BitVec.ofBool f.fsi ++ BitVec.ofBool f.fso ++ BitVec.ofBool f.sat ++ f.hint ++ f.sched ++ f.fn ++ f.imm

/-- Decode a word: its instruction, or the name of the reason it is none (R110). -/
def decodeWord (w : BitVec 128) : Except DecodeError Instr :=
  match legalityError (opOf w) (fieldsOf w) with
  | some e => .error e
  | none =>
    match instrOf (opOf w) (fieldsOf w) with
    | some i => .ok i
    | none => .error .reservedOpcode

/-- Sixteen bytes as a word: the byte at address a + k holds bits 8k+7 to 8k (R89). -/
def wordOfBytes (bs : List Byte) : BitVec 128 :=
  BitVec.ofNat 128 (bs.foldr (fun b n => b.toNat + 256 * n) 0)

/-- The sixteen bytes of a word, lowest address first (R89). -/
def bytesOfWord (w : BitVec 128) : List Byte :=
  (List.range 16).map fun k => w.extractLsb' (8 * k) 8

/-- Decode an instruction from the bytes at the program counter; the rest of the bytes comes back. -/
def decode (bs : List Byte) : Except DecodeError (Instr × List Byte) :=
  if bs.length < 16 then .error .shortWord
  else
    match decodeWord (wordOfBytes (bs.take 16)) with
    | .ok i => .ok (i, bs.drop 16)
    | .error e => .error e

/-- The word of a row that is an instruction; none for a step of another agent. -/
def encode (i : Instr) : Option (BitVec 128) :=
  i.word.map fun p => packWord p.1 p.2

/-- The instruction the decoder reads from a word whose bits are numbered as the opcode table numbers them.
A word here is 128 bits, little-endian in memory (R89), so the number is the word itself. -/
def decodeTableWord (_nbits w : Nat) : Option Instr :=
  match decode (bytesOfWord (BitVec.ofNat 128 w)) with
  | .ok (i, _) => some i
  | .error _ => none

end Sys2Proof
end

