-- ==== Sys2Proof/Config.lean ====
section
/-! DEFINITION. What an implementation fixes and the values the spec leaves open. A constant without a body is a free
value: nothing in Lean can evaluate it. -/

namespace Sys2Proof.Config

/-- Cycles that pass on a die during one step; the argument counts the steps (R2, R352). -/
opaque elapsed : Nat → Nat → Nat

/-- A free choice of an order; the argument is the free-value counter (R86, R254, R316). -/
opaque choice : Nat → Nat

/-- A free value: the bits of a poisoned accumulator row (R88), a random choice of a function the spec leaves open. -/
opaque freeValue : Nat → BitVec 64

/-- Free bits, as many as are asked for: buffer bits that a switch-out does not save (R51, R377). -/
opaque freeBits : Nat → Nat

/-- Where the KDESC and SPLMAP sections lie that a kernel record of a virtual device, at an address, was loaded with: offsets
of the splice map count from there, and the spec gives the device no register for it (R136, R138; log entry 94). -/
opaque objectBases : Nat → Nat → Nat × Nat

/-- The population of the LPDDR6 channels that the boot ROM finds (R257). -/
opaque farPopulation : Nat

/-- Far memory enabled at boot, in GiB: 0, 512 or 1,024 (R257). -/
def farGiB : Nat := if farPopulation % 3 = 0 then 0 else if farPopulation % 3 = 1 then 512 else 1024

/-- Does the image's ML-DSA-87 signature verify against the fused Karrex key (R423)? -/
opaque imageVerifies : List Byte → Bool

/-- The public identity key of the device (R428). -/
opaque identityKey : List Byte

/-- The ML-DSA-87 signature of a byte string by the identity key (R428). -/
opaque identitySign : List Byte → List Byte

/-- The bytes of the fused repair map, which the attestation report names (R428, R430). -/
opaque repairMap : List Byte

/-- What the repair map says: die, unit, and the spare core or engine that takes its place (R430). The spec gives no layout of
its bytes. -/
opaque repairEntries : List Byte → List (Nat × Nat × Nat)

/-- How many row, column or channel spares an SRAM or DRAM unit of a die has (R430). -/
opaque storageSpares : Nat → Nat → Nat

/-- Which controller of its die serves a line of memory (R395). -/
opaque controller : Nat → Nat

/-- By which of the eight ports a message leaves the device, and how many tokens of 32 bytes one to a peer takes: the argument is
its place among the messages that the device has sent (R395, R398; log entry 125). -/
opaque port : Nat → Nat
opaque peerTokens : Nat → Nat

/-- The correction threshold that the monitor sets for a unit of a die; the last argument counts the device's repairs, since the
monitor may set it anew (R430). -/
opaque correctionThreshold : Nat → Nat → Nat → Nat

/-- Estimated power of a window of die 0, in watts (R432). -/
opaque windowPower : Nat → Nat

end Sys2Proof.Config
end

