-- ==== Sys2Proof/Machine/Flags.lean ====
section
/-! DEFINITION. The bits of FLAGS (R46), held as a number whose bits 8:0 are the flags. Instructions only OR bits in. -/

namespace Sys2Proof.Machine

/-- A set of flags: bits 8:0 of FLAGS (R46). -/
abbrev Flags := Nat

def flNV : Flags := 1
def flDZ : Flags := 2
def flOF : Flags := 4
def flUF : Flags := 8
def flNX : Flags := 16
def flSAT : Flags := 32
def flOVF : Flags := 64
def flPSN : Flags := 128
def flTNT : Flags := 256

/-- A flag when its condition holds. -/
def flagIf (c : Bool) (f : Flags) : Flags := if c then f else 0

/-- The union of two sets of flags. -/
def orFlags (a b : Flags) : Flags := a ||| b

end Sys2Proof.Machine
end

