-- ==== Sys2Proof/Machine/Number.lean ====
section
/-! DEFINITION. Number formats, rounding, conversions and the arithmetic of one element (R66-R83, R167-R170, R87):
every element is a number whose bits are the element's bits. -/

namespace Sys2Proof.Machine

/-- Layout of a floating-point format (R68). -/
structure FParam where
  size : Nat
  frac : Nat
  bias : Nat
  /-- The format has infinities; e4m3 has none. -/
  hasInf : Bool
  deriving DecidableEq, Repr

/-- The five float formats, codes 0-4 (R68). -/
def fparam (fmt : Nat) : FParam :=
  match fmt with
  | 0 => ⟨32, 23, 127, true⟩
  | 1 => ⟨16, 7, 127, true⟩
  | 2 => ⟨16, 10, 15, true⟩
  | 3 => ⟨8, 3, 7, false⟩
  | _ => ⟨8, 2, 15, true⟩

def FParam.expBits (p : FParam) : Nat := p.size - 1 - p.frac
def FParam.emaxField (p : FParam) : Nat := 2 ^ p.expBits - 1
/-- Exponent of the smallest normal. -/
def FParam.emin (p : FParam) : Int := 1 - (p.bias : Int)
/-- Bits of the largest finite magnitude. -/
def FParam.maxFinite (p : FParam) : Nat :=
  if p.hasInf then (p.emaxField <<< p.frac) - 1 else (p.emaxField <<< p.frac) + 2 ^ p.frac - 2
def FParam.signBit (p : FParam) (neg : Bool) : Nat := if neg then 2 ^ (p.size - 1) else 0
/-- The canonical NaN (R68, R69). -/
def FParam.canonNaN (p : FParam) : Nat :=
  if p.hasInf then (p.emaxField <<< p.frac) + 2 ^ (p.frac - 1) else (p.emaxField <<< p.frac) + 2 ^ p.frac - 1
def FParam.infinity (p : FParam) (neg : Bool) : Nat := p.signBit neg + (p.emaxField <<< p.frac)

/-- A real value, an infinity or a NaN. A finite value is (−1)^neg × (m + δ) × 2^e with 0 ≤ δ < 1, and δ > 0
exactly when `sticky`. `wide` marks a quotient, root or special-function value (R76). -/
inductive Val where
  | nan (signalling : Bool)
  | inf (neg : Bool)
  | num (neg : Bool) (m : Nat) (e : Int) (sticky wide : Bool)
  deriving DecidableEq, Repr

/-- An exact finite value. -/
def Val.exact (neg : Bool) (m : Nat) (e : Int) : Val := .num neg m e false false

/-- Signed zero. -/
def Val.zero (neg : Bool) : Val := .exact neg 0 0

def Val.isNaN : Val → Bool
  | .nan _ => true
  | _ => false

def Val.isSNaN : Val → Bool
  | .nan s => s
  | _ => false

def Val.isZero : Val → Bool
  | .num _ m _ st _ => m == 0 && !st
  | _ => false

def Val.neg? : Val → Bool
  | .nan _ => false
  | .inf n => n
  | .num n _ _ _ _ => n

/-- Flip the sign. -/
def Val.negate : Val → Val
  | .nan s => .nan s
  | .inf n => .inf !n
  | .num n m e st w => .num (!n) m e st w

/-- The integer value of a number as a Val. -/
def Val.ofInt (x : Int) : Val := .exact (x < 0) x.natAbs 0

/-- Decode a float element (R68, R69). -/
def decodeFloat (p : FParam) (x : Nat) : Val :=
  let neg := bit x (p.size - 1)
  let e := bits x (p.size - 2) p.frac
  let f := x % 2 ^ p.frac
  if e == p.emaxField && p.hasInf then
    if f == 0 then .inf neg else .nan (!bit x (p.frac - 1))
  else if e == p.emaxField && f == 2 ^ p.frac - 1 then .nan false
  else if e == 0 then .exact neg f (p.emin - p.frac)
  else .exact neg (f + 2 ^ p.frac) ((e : Int) - p.bias - p.frac)

/-- Is a float element a non-zero subnormal? -/
def isSubnormal (p : FParam) (x : Nat) : Bool :=
  bits x (p.size - 2) p.frac == 0 && x % 2 ^ p.frac != 0

/-- FSI: a subnormal source is read as a zero of its own sign (R77). FSO of a minimum or maximum acts the same way:
R168 and R208 name NV and say that no other flag is raised (DEDUCED, log entry 27). -/
def flushIn (p : FParam) (fsi : Bool) (x : Nat) : Nat :=
  if fsi && isSubnormal p x then p.signBit (bit x (p.size - 1)) else x

/-- A resolved rounding mode, code 0-5, with the random word of R76 for sr. -/
structure Rnd where
  code : Nat
  word : Nat := 0
  deriving DecidableEq, Repr

def Rnd.rne : Rnd := { code := 0 }
def Rnd.rup : Rnd := { code := 2 }

/-- Number of trailing zero bits of a positive number. -/
def trailingZeros (n : Nat) : Nat := Nat.log2 (n ^^^ (n - 1))

/-- StochasticUp of R76 for the dropped field `rem` of `drop` bits. -/
def stochasticUp (word drop rem : Nat) (inf : Bool) : Bool :=
  let q := if inf then 32 else min 32 (drop - trailingZeros rem)
  let d := if q ≤ drop then rem >>> (drop - q) else rem <<< (q - drop)
  decide (2 ^ q ≤ d + word % 2 ^ q)

/-- The magnitude rounded to a multiple of 2^u (R74): the multiple, and whether it was inexact. -/
def roundAt (r : Rnd) (neg : Bool) (m : Nat) (e : Int) (sticky wide : Bool) (u : Int) : Nat × Bool :=
  if u ≤ e then (m <<< (e - u).toNat, sticky)
  else
    let drop := (u - e).toNat
    let n := m >>> drop
    let rem := m % 2 ^ drop
    let half := 2 ^ (drop - 1)
    let inexact := rem != 0 || sticky
    let up :=
      match r.code with
      | 0 => decide (half < rem) || (rem == half && (sticky || n % 2 == 1))
      | 1 => false
      | 2 => inexact && !neg
      | 3 => inexact && neg
      | 4 => decide (half ≤ rem)
      | _ => inexact && stochasticUp r.word drop rem (sticky || wide)
    (if up then n + 1 else n, inexact)

/-- A rounded element: its bits, the flags raised, and whether Overflowed returned an infinity or a NaN. -/
structure Rounded where
  bits : Nat
  flags : Flags := 0
  ovf : Bool := false
  deriving DecidableEq, Repr

/-- Overflowed of R74 for a float format; the flags are those of a finite source. -/
def overflowed (p : FParam) (neg : Bool) (code : Nat) : Nat × Bool :=
  let big := p.signBit neg + p.maxFinite
  let inf := if p.hasInf then p.infinity neg else p.canonNaN
  match code with
  | 1 => (big, false)
  | 2 => if neg then (big, false) else (inf, true)
  | 3 => if neg then (inf, true) else (big, false)
  | _ => (inf, true)

/-- Round(x, fmt, rnd) of R74 for a float format. -/
def roundFloat (p : FParam) (r : Rnd) (v : Val) : Rounded :=
  match v with
  | .nan _ => { bits := p.canonNaN }
  | .inf neg =>
    let o := overflowed p neg 0
    { bits := o.1, ovf := !p.hasInf }
  | .num neg m e st w =>
    if m == 0 && !st then { bits := p.signBit neg }
    else
      let t : Int := (Nat.log2 m : Int) + e
      let u : Int := max t p.emin - p.frac
      let a := roundAt r neg m e st w u
      let mag := ((u + p.frac + p.bias).toNat - 1) <<< p.frac + a.1
      let tiny := decide (t < p.emin) && a.2 &&
        (let b := roundAt r neg m e st w (t - p.frac)
         b.1 != 0 && !(decide (t = p.emin - 1) && b.1 == 2 ^ (p.frac + 1)))
      if p.maxFinite < mag then
        let o := overflowed p neg r.code
        { bits := o.1, flags := flOF ||| flNX, ovf := o.2 }
      else { bits := p.signBit neg + mag, flags := flagIf a.2 flNX ||| flagIf tiny flUF }

/-- FSO after Round (R77). -/
def finishFloat (p : FParam) (fso : Bool) (x : Rounded) : Nat × Flags :=
  if fso && isSubnormal p x.bits then
    (p.signBit (bit x.bits (p.size - 1)), x.flags ||| flUF ||| flNX)
  else (x.bits, x.flags)

/-- Round, FSO and SAT of a value into a float format. The sign of a saturated e4m3 result is that of the value. -/
def roundFull (p : FParam) (r : Rnd) (fso sat : Bool) (v : Val) : Nat × Flags :=
  let x := roundFloat p r v
  if sat && x.ovf then
    (p.signBit v.neg? + p.maxFinite, (x.flags &&& (511 - flOF)) ||| flSAT)
  else finishFloat p fso x

/-- Special cases and exact sum of two values (R167); `rdn` decides the sign of an exact zero sum. -/
def addVal (rdn : Bool) (a b : Val) : Val × Flags :=
  match a, b with
  | .nan _, _ => (.nan false, 0)
  | _, .nan _ => (.nan false, 0)
  | .inf x, .inf y => if x == y then (.inf x, 0) else (.nan false, flNV)
  | .inf x, _ => (.inf x, 0)
  | _, .inf y => (.inf y, 0)
  | .num x m e _ _, .num y n f _ _ =>
    let g := min e f
    let i : Int := (if x then -1 else 1) * ((m <<< (e - g).toNat : Nat) : Int) +
      (if y then -1 else 1) * ((n <<< (f - g).toNat : Nat) : Int)
    if i == 0 then
      (.zero (if m == 0 && n == 0 && x == y then x else rdn), 0)
    else (.exact (i < 0) i.natAbs g, 0)

/-- Exact product of two values (R167). -/
def mulVal (a b : Val) : Val × Flags :=
  match a, b with
  | .nan _, _ => (.nan false, 0)
  | _, .nan _ => (.nan false, 0)
  | .inf x, y => if y.isZero then (.nan false, flNV) else (.inf (x != y.neg?), 0)
  | x, .inf y => if x.isZero then (.nan false, flNV) else (.inf (x.neg? != y), 0)
  | .num x m e _ _, .num y n f _ _ => (.exact (x != y) (m * n) (e + f), 0)

/-- a × b + c, rounded once (R167): 0 × ∞ is invalid even when c is a quiet NaN. -/
def fmaVal (rdn : Bool) (a b c : Val) : Val × Flags :=
  if a.isNaN || b.isNaN then (.nan false, 0)
  else
    let p := mulVal a b
    if p.2 != 0 then p else addVal rdn p.1 c

/-- Quotient of two values to 100 significant bits with the remainder as sticky (R167). -/
def divVal (a b : Val) : Val × Flags :=
  match a, b with
  | .nan _, _ => (.nan false, 0)
  | _, .nan _ => (.nan false, 0)
  | .inf x, y => match y with
    | .inf _ => (.nan false, flNV)
    | _ => (.inf (x != y.neg?), 0)
  | x, .inf y => (.zero (x.neg? != y), 0)
  | .num x m e _ _, .num y n f _ _ =>
    if n == 0 then
      if m == 0 then (.nan false, flNV) else (.inf (x != y), flDZ)
    else if m == 0 then (.zero (x != y), 0)
    else
      let k := 100 + Nat.log2 n
      let q := (m <<< k) / n
      (.num (x != y) q (e - f - k) ((m <<< k) % n != 0) true, 0)

/-- Integer square root by binary digits, `fuel` digits. -/
def isqrt : Nat → Nat → Nat → Nat
  | 0, _, r => r
  | k + 1, n, r => isqrt k n (if (r + 2 ^ k) * (r + 2 ^ k) ≤ n then r + 2 ^ k else r)

/-- Square root of a value (R167). -/
def sqrtVal (a : Val) : Val × Flags :=
  match a with
  | .nan _ => (.nan false, 0)
  | .inf neg => if neg then (.nan false, flNV) else (.inf false, 0)
  | .num neg m e _ _ =>
    if m == 0 then (.zero neg, 0)
    else if neg then (.nan false, flNV)
    else
      let s := 200 + (if (e % 2 == 0) then 0 else 1)
      let n := m <<< s
      let r := isqrt (Nat.log2 n / 2 + 1) n 0
      (.num false r ((e - s) / 2) (r * r != n) true, 0)

/-- Order of two values that are not NaN: −1, 0 or 1; −0 equals +0. -/
def cmpVal (a b : Val) : Int :=
  match a, b with
  | .inf x, .inf y => if x == y then 0 else if x then -1 else 1
  | .inf x, _ => if x then -1 else 1
  | _, .inf y => if y then 1 else -1
  | .num x m e _ _, .num y n f _ _ =>
    let g := min e f
    let i : Int := (if x then -1 else 1) * ((m <<< (e - g).toNat : Nat) : Int)
    let j : Int := (if y then -1 else 1) * ((n <<< (f - g).toNat : Nat) : Int)
    if i < j then -1 else if i == j then 0 else 1
  | _, _ => 0

/-- FMIN and FMAX on elements already flushed (R168). -/
def minMaxFloat (p : FParam) (isMax : Bool) (x y : Nat) : Nat × Flags :=
  let a := decodeFloat p x
  let b := decodeFloat p y
  let fl := flagIf (a.isSNaN || b.isSNaN) flNV
  let r :=
    if a.isNaN && b.isNaN then p.canonNaN
    else if a.isNaN then y
    else if b.isNaN then x
    else
      let c := cmpVal a b
      let less := decide (c < 0) || (c == 0 && a.neg? && !b.neg?)
      if less != isMax then x else y
  (r, fl)

/-- The conditions of R169 and R209 on two float elements: result and flags. -/
def cmpFloat (p : FParam) (cond : Nat) (x y : Nat) : Bool × Flags :=
  let a := decodeFloat p x
  let b := decodeFloat p y
  let un := a.isNaN || b.isNaN
  let sn := a.isSNaN || b.isSNaN
  let c := cmpVal a b
  match cond with
  | 0 => (!un && c == 0, flagIf sn flNV)
  | 1 => (un || c != 0, flagIf sn flNV)
  | 2 => (!un && decide (c < 0), flagIf un flNV)
  | 3 => (!un && decide (c ≤ 0), flagIf un flNV)
  | 4 => (!un && decide (0 < c), flagIf un flNV)
  | 5 => (!un && decide (0 ≤ c), flagIf un flNV)
  | _ => (un, flagIf sn flNV)

/-- The integer that an element of an I, N or B format reads as (R67). -/
def intOf (fmt x : Nat) : Int :=
  let z := Fmt.size fmt
  if Fmt.isI fmt then toSigned z x else ((x % 2 ^ z : Nat) : Int)

/-- Bounds of an integer format. -/
def intMin (fmt : Nat) : Int := if Fmt.isI fmt then -(2 ^ (Fmt.size fmt - 1) : Int) else 0
def intMax (fmt : Nat) : Int :=
  if Fmt.isI fmt then (2 ^ (Fmt.size fmt - 1) : Int) - 1 else (2 ^ Fmt.size fmt : Int) - 1

/-- Clamp to the bounds of a format; the flag says that a bound replaced the value (R78). -/
def clampInt (fmt : Nat) (x : Int) : Nat × Bool :=
  if x < intMin fmt then (lowBits (Fmt.size fmt) (intMin fmt), true)
  else if intMax fmt < x then (lowBits (Fmt.size fmt) (intMax fmt), true)
  else (lowBits (Fmt.size fmt) x, false)

/-- Reduce an exact integer result (R79), or clamp it with SAT (R78). -/
def reduceInt (fmt : Nat) (sat : Bool) (x : Int) : Nat × Flags :=
  if sat then
    let c := clampInt fmt x
    (c.1, flagIf c.2 flSAT)
  else (lowBits (Fmt.size fmt) x, 0)

/-- Truncating division and remainder of R79. -/
def quotInt (a b : Int) : Int := Int.tdiv a b
def remInt (a b : Int) : Int := Int.tmod a b

/-- Conversion of a value into an integer format (R82). -/
def valToInt (fmt : Nat) (r : Rnd) (v : Val) : Nat × Flags :=
  match v with
  | .nan _ => (0, flNV)
  | .inf neg => (lowBits (Fmt.size fmt) (if neg then intMin fmt else intMax fmt), flNV)
  | .num neg m e st w =>
    let a := roundAt r neg m e st w 0
    let x : Int := if neg then -(a.1 : Int) else (a.1 : Int)
    let c := clampInt fmt x
    (c.1, flagIf c.2 flNV ||| flagIf a.2 flNX)

/-- The value of a kb mantissa under a scale byte (R70). -/
def kbVal (fmt m scale : Nat) : Val :=
  let p := Fmt.size fmt
  if scale % 256 == 255 then .nan false
  else
    let x := toSigned p m
    .exact (x < 0) x.natAbs (((scale % 256 : Nat) : Int) - 127 - ((p : Int) - 2))

/-- Does float format `d` hold every value of float format `s` (R82)? -/
def holdsAll (s d : Nat) : Bool :=
  (d == 0 && 1 ≤ s && s ≤ 4) || ((d == 1 || d == 2) && (s == 3 || s == 4))

/-- Conversion of one value into a format of class F, I, N or B (R82). -/
def convVal (dst : Nat) (r : Rnd) (fso sat : Bool) (v : Val) : Nat × Flags :=
  if Fmt.isF dst then
    let x := roundFull (fparam dst) r fso sat v
    (x.1, x.2 ||| flagIf v.isSNaN flNV)
  else if Fmt.isB dst then (b2n (!v.isZero), 0)
  else valToInt dst r v

/-- Conversion of a block value into a format (R213). With SAT the one value beyond f32 and bf16, −2^128, becomes the most
negative finite value and sets SAT in every rounding mode (R70); other values follow R82. -/
def convKb (dst : Nat) (r : Rnd) (fso sat : Bool) (v : Val) : Nat × Flags :=
  let x := convVal dst r fso sat v
  if sat && (dst == 0 || dst == 1) && x.2 &&& flOF != 0 then (x.1, (x.2 &&& (511 - flOF)) ||| flSAT) else x

/-- Conversion of an element between formats of class F, I, N and B (R82). -/
def convElem (src dst : Nat) (r : Rnd) (fsi fso sat : Bool) (x : Nat) : Nat × Flags :=
  if Fmt.isF src then
    let p := fparam src
    let v := decodeFloat p (flushIn p fsi x)
    if holdsAll src dst then
      ((roundFloat (fparam dst) .rne v).bits, flagIf v.isSNaN flNV)
    else convVal dst r fso sat v
  else if Fmt.isB src then convVal dst r fso sat (.ofInt ((x % 2 : Nat) : Int))
  else if Fmt.isF dst || Fmt.isB dst then convVal dst r fso sat (.ofInt (intOf src x))
  else if Fmt.size dst ≤ Fmt.size src then reduceInt dst sat (intOf src x)
  else (lowBits (Fmt.size dst) (intOf src x), 0)

/-- The exact operations of the arithmetic instructions (R167, R207). -/
inductive ArOp where
  | add | sub | mul | fma | div | sqrt | min | max | abs | neg
  deriving DecidableEq, Repr

/-- Mode fields of an arithmetic element: format, rounding, FSI, FSO, SAT. -/
structure Mode where
  fmt : Nat
  rnd : Rnd
  fsi : Bool := false
  fso : Bool := false
  sat : Bool := false
  deriving DecidableEq, Repr

/-- One float element of an arithmetic instruction (R167, R208). -/
def floatOp (o : ArOp) (md : Mode) (x y z : Nat) : Nat × Flags :=
  let p := fparam md.fmt
  let x := flushIn p md.fsi x
  let y := flushIn p md.fsi y
  let z := flushIn p md.fsi z
  let a := decodeFloat p x
  let b := decodeFloat p y
  let c := decodeFloat p z
  let rdn := md.rnd.code == 3
  let fin (v : Val × Flags) (sn : Bool) : Nat × Flags :=
    let q := roundFull p md.rnd md.fso md.sat v.1
    (q.1, q.2 ||| v.2 ||| flagIf sn flNV)
  let sn2 := a.isSNaN || b.isSNaN
  let mm (isMax : Bool) : Nat × Flags :=
    let m := minMaxFloat p isMax x y
    (flushIn p md.fso m.1, m.2)
  match o with
  | .add => fin (addVal rdn a b) sn2
  | .sub => fin (addVal rdn a b.negate) sn2
  | .mul => fin (mulVal a b) sn2
  | .fma => fin (fmaVal rdn a b c) (sn2 || c.isSNaN)
  | .div => fin (divVal a b) sn2
  | .sqrt => fin (sqrtVal a) a.isSNaN
  | .min => mm false
  | .max => mm true
  | .abs => fin (if a.neg? then a.negate else a, 0) a.isSNaN
  | .neg => fin (a.negate, 0) a.isSNaN

/-- One integer element of an arithmetic instruction (R79, R208). -/
def intOp (o : ArOp) (fmt : Nat) (sat : Bool) (x y z : Nat) : Nat × Flags :=
  let a := intOf fmt x
  let b := intOf fmt y
  let c := intOf fmt z
  match o with
  | .add => reduceInt fmt sat (a + b)
  | .sub => reduceInt fmt sat (a - b)
  | .mul => reduceInt fmt sat (a * b)
  | .fma => reduceInt fmt sat (a * b + c)
  | .div =>
    if b == 0 then (2 ^ Fmt.size fmt - 1, flDZ) else reduceInt fmt sat (quotInt a b)
  | .sqrt => (x, 0)
  | .min => (if a ≤ b then x else y, 0)
  | .max => (if a ≤ b then y else x, 0)
  | .abs => reduceInt fmt sat (if a < 0 then -a else a)
  | .neg => reduceInt fmt sat (-a)

/-- One element of an arithmetic instruction in its format (R208). -/
def arithElem (o : ArOp) (md : Mode) (x y z : Nat) : Nat × Flags :=
  if Fmt.isF md.fmt then floatOp o md x y z else intOp o md.fmt md.sat x y z

/-- The comparison of R209 on two elements. -/
def cmpElem (fmt cond : Nat) (fsi : Bool) (x y : Nat) : Bool × Flags :=
  if Fmt.isF fmt then
    let p := fparam fmt
    cmpFloat p cond (flushIn p fsi x) (flushIn p fsi y)
  else
    let a := intOf fmt x
    let b := intOf fmt y
    (match cond with
     | 0 => a == b
     | 1 => a != b
     | 2 => decide (a < b)
     | 3 => decide (a ≤ b)
     | 4 => decide (b < a)
     | 5 => decide (b ≤ a)
     | _ => false, 0)

/-- Mix64 (R75). -/
def mix64 (z : Nat) : Nat :=
  let z := z % 2 ^ 64
  let z := z ^^^ (z >>> 30)
  let z := (z * 0xBF58476D1CE4E5B9) % 2 ^ 64
  let z := z ^^^ (z >>> 27)
  let z := (z * 0x94D049BB133111EB) % 2 ^ 64
  z ^^^ (z >>> 31)

/-- The random word of element index `i` (R76). -/
def srWord (seed stripb i : Nat) : Nat :=
  mix64 (seed ^^^ ((stripb + i) % 2 ^ 64)) % 2 ^ 32

/-- A value with every operation of R83: quantise one block. `v` holds each element, none where it is inactive. -/
structure Block where
  scale : Nat
  mant : List Nat
  flags : Flags
  deriving DecidableEq, Repr

/-- Is |v| at least 2^k? Infinities count as 0 (R83). -/
def magAtLeast (k : Int) (v : Val) : Bool :=
  match v with
  | .num _ m e _ _ => m != 0 && decide (k ≤ (Nat.log2 m : Int) + e)
  | _ => false

/-- floor(log2 |v|) of a finite non-zero value. -/
def magLog (v : Val) : Option Int :=
  match v with
  | .num _ m e _ _ => if m == 0 then none else some ((Nat.log2 m : Int) + e)
  | _ => none

/-- BlockQ of R83. `rnds` gives each element's rounding. -/
def blockQ (fmt : Nat) (sat : Bool) (vs : List (Option Val)) (rnds : List Rnd) : Block :=
  let p := Fmt.size fmt
  let top : Nat := 2 ^ (p - 1) - 1
  let act := vs.filterMap id
  let isInf (v : Val) : Bool := match v with
    | .inf _ => true
    | _ => false
  let zeros := vs.map fun _ => 0
  if act.any Val.isNaN then
    { scale := 255, mant := zeros, flags := flagIf (act.any Val.isSNaN) flNV }
  else if act.any isInf && !sat then { scale := 255, mant := zeros, flags := flNV }
  else
    let lg := act.filterMap magLog
    let big := lg.foldl max (-128)
    let e0 : Nat := if big < -127 then 0 else min (big + 127).toNat 254
    let quant (e : Nat) : List (Bool × Nat × Bool × Bool) :=
      (vs.zip rnds).map fun q =>
        match q.1 with
        | some (.num neg m ex st w) =>
          let a := roundAt q.2 neg m ex st w ((e : Int) - 127 - ((p : Int) - 2))
          (neg, a.1, a.2, m != 0 && a.1 == 0)
        | _ => (false, 0, false, false)
    let big1 (l : List (Bool × Nat × Bool × Bool)) : Bool := l.any fun q => decide (top < q.2.1)
    let l0 := quant e0
    let l1 := if big1 l0 && e0 < 254 then quant (e0 + 1) else l0
    let e1 := if big1 l0 && e0 < 254 then e0 + 1 else e0
    let clamped := big1 l1
    let mant := (vs.zip l1).map fun q =>
      match q.1 with
      | some (.inf neg) => lowBits p (if neg then -(top : Int) else (top : Int))
      | _ => lowBits p (if q.2.1 then -((min q.2.2.1 top : Nat) : Int) else ((min q.2.2.1 top : Nat) : Int))
    { scale := e1, mant := mant,
      flags := flagIf (l1.any fun q => q.2.2.1) flNX ||| flagIf (l1.any fun q => q.2.2.2) flUF |||
        flagIf clamped ((if sat then flSAT else flOF) ||| flNX) ||| flagIf (act.any isInf) flSAT }

/-- One block pair of R87: the exact partial as (sum, exponent), none for a NaN block. -/
def blockPartial (pB : Nat) (ma mb : List Nat) (ea eb : Nat) : Option (Int × Int) :=
  if ea == 255 || eb == 255 then none
  else
    let s := (ma.zip mb).foldl (fun (acc : Int) q => acc + toSigned 8 q.1 * toSigned pB q.2) 0
    some (s, ((ea + eb : Nat) : Int) - 254 - 6 - ((pB : Int) - 2))

/-- Steps 2-6 of R87 on the block partials: s and the flags. -/
def innerProduct (r : Rnd) (parts : List (Option (Int × Int))) : Nat × Flags :=
  let f32 := fparam 0
  if parts.any Option.isNone then (f32.canonNaN, 0)
  else
    let ps := (parts.filterMap id).filter fun q => q.1 != 0
    let logs := ps.map fun q => (Nat.log2 q.1.natAbs : Int) + q.2
    match logs with
    | [] => (0, 0)
    | l :: ls =>
      let big := ls.foldl max l
      let u := big - 64
      let tr := ps.map fun q =>
        if u ≤ q.2 then (q.1 * (2 ^ (q.2 - u).toNat : Int), false)
        else
          let d := (u - q.2).toNat
          let n := (q.1.natAbs >>> d : Nat)
          (if q.1 < 0 then -(n : Int) else (n : Int), q.1.natAbs % 2 ^ d != 0)
      let t := tr.foldl (fun (acc : Int) q => acc + q.1) 0
      let s := tr.any fun q => q.2
      if t == 0 then (0, flagIf s flNX)
      else
        let v : Val := .exact (t < 0) (4 * t.natAbs + b2n s) (u - 2)
        let x := roundFull f32 r false false v
        (x.1, x.2)

end Sys2Proof.Machine
end

