-- ==== Sys2Proof/Machine/State.lean ====
section
/-! DEFINITION. The state of the device as plain data: every strand with all its registers, memory with its taint and
poison bits, and the records of the Dispatcher, the Steward, the engines, the ports, the Drover and the caches. -/

namespace Sys2Proof.Machine

/-! ### A strand's registers -/

/-- A general register with its taint and poison bits (R41, R42). -/
structure GReg where
  val : Word := 0
  taint : Bool := false
  poison : Bool := false
  deriving DecidableEq, Repr, Inhabited

/-- A predicate with its taint bit (R41, R42). -/
structure QReg where
  val : Bool := false
  taint : Bool := false
  deriving DecidableEq, Repr, Inhabited

/-- An array register: shape tag (R48), buffer bits, element size of its last write (R377), taint bit, and one
poison bit for each 256-byte row (R42). -/
structure VReg where
  shape : List Nat := [0]
  buf : Nat := 0
  wsize : Nat := 0
  taint : Bool := false
  poison : Nat := 0
  deriving DecidableEq, Repr, Inhabited

/-- An element mask: shape tag, one bit for each element, taint bit (R41, R48). -/
structure MReg where
  shape : List Nat := [0]
  buf : Nat := 0
  taint : Bool := false
  deriving DecidableEq, Repr, Inhabited

/-- An accumulator tile: element (r, c) at bits 32(256r + c) (R62), liveness, taint bit, a poison bit for each row. -/
structure Tile where
  buf : Nat := 0
  live : Bool := false
  taint : Bool := false
  poison : Nat := 0
  deriving DecidableEq, Repr, Inhabited

/-- A captured entry of the array queue (R14, R18). GVj of R18 is `gv[j]` with its taint and poison. -/
structure Entry where
  word : BitVec 128 := 0
  pc : Word := 0
  gv : Vector GReg 8 := Vector.replicate 8 {}
  qv : BitVec 8 := 0
  qt : BitVec 8 := 0
  amb : BitVec 3 := 0
  vcfg : BitVec 16 := 0
  rows : BitVec 16 := 0
  cols : BitVec 16 := 0
  grows : BitVec 16 := 0
  fthr : BitVec 48 := 0
  stripb : Word := 0
  seed : Word := 0
  /-- Stores that the scalar stream had made when the entry entered the queue: the ones a release of the entry covers
  (R281). It is the model's own and no part of the 1,024 bits. -/
  mark : Nat := 0
  deriving DecidableEq, Repr, Inhabited

/-- A fault on its way to its report (R17, R178, R179). -/
structure Pend where
  isArray : Bool := false
  cause : Nat := 0
  code : Nat := 0
  faddr : Word := 0
  fpc : Word := 0
  epc : Word := 0
  deriving DecidableEq, Repr, Inhabited

/-- A sleep of the head entry in SETL, WAITS, WAITV or BARR: the cycles of the strand's die already counted before
the last resumption, and the cycle at which counting began (R33-R37). -/
structure Sleep where
  before : Nat := 0
  since : Nat := 0
  deriving DecidableEq, Repr, Inhabited

/-- A plane slot of an engine (R334). Column n: planes as 256 mantissas of 8 bits, scales, flags. -/
structure PlaneSlot where
  valid : Bool := false
  pb : Nat := 0
  blk : Nat := 16
  n0 : Nat := 0
  k0 : Nat := 0
  image : BitVec 1024 := 0
  /-- Element (k, n) of 8 bits at bit 8 (256 n + k). -/
  planes : Nat := 0
  /-- Scale j of column n at bit 8 (16 n + j). -/
  scales : Nat := 0
  listed : Nat := 0
  taint : Nat := 0
  poison : Nat := 0
  deriving DecidableEq, Repr, Inhabited

/-- A part of the Scout predictor (R335, R340): the entry image it was loaded from, and its mantissas and scales. -/
structure Predictor where
  loaded : Bool := false
  blk : Nat := 16
  image : BitVec 1024 := 0
  mant : List Nat := []
  scale : List Nat := []
  deriving DecidableEq, Repr, Inhabited

/-- Work of an instruction that outlives its queue entry (R47, R298). -/
inductive WorkKind where
  | copy | send | cred | cbcast | pload | mms | check
  deriving DecidableEq, Repr, Inhabited

/-- A vector clock: for each agent, how many of its writes happen before; a key above 2^512 names an agent and the number of
the last write before a stretch of its writes (R288). -/
abbrev Clock := List (Nat × Nat)

/-- One piece of outstanding engine work, with the values it read at issue (R303, R317, R338). -/
structure Work where
  k : Nat := 0
  kind : WorkKind := .copy
  entry : Entry := {}
  imageA : BitVec 1024 := 0
  imageB : BitVec 1024 := 0
  reg : VReg := {}
  route : Word := 0
  /-- Elements performed, or for a SEND row and element, as DONE counts them (R316). -/
  done : Nat := 0
  paused : Bool := false
  /-- The releases that precede it in program order, for each scope the latest (R288). -/
  rel : List Clock := []
  /-- Elements sent to a peer: place as DONE counts it (R316), unit hash, taint and poison. They join the digest when the work
  ends, but those that faulted there (R317, R389). -/
  units : List (Nat × Nat × Bool × Bool) := []
  /-- Every element and tail has been performed or has left for a peer, whose acknowledgements are awaited (R295, R299). -/
  sent : Bool := false
  /-- An element of it faulted, so that it finishes with ERR; and one of the train that it is inside (R317, R321). -/
  failed : Bool := false
  rowFailed : Bool := false
  /-- Values read at issue, with taint and poison: elements, then scale bytes. -/
  vals : List (Nat × Bool × Bool) := []
  /-- Must a resumed COPY or SEND read its source again (R316)? -/
  reread : Bool := false
  /-- Line ranges that stay in the interlock table, and whether they are written (R283). -/
  ranges : List (Int × Int × Bool) := []
  /-- Owed accumulator writes in order: tile element index, and the f32 bits of s to add, or none to set +0
  (R87, R343, R348). -/
  owed : List (Nat × Option Nat) := []
  owedFlags : Nat := 0
  owedTaint : Bool := false
  /-- Tile rows that the operation poisons. -/
  owedRows : List Nat := []
  /-- A plane load on its way: its target word and what it writes (R335, R340). -/
  target : Word := 0
  slotLoad : PlaneSlot := {}
  partLoad : Predictor := {}
  /-- Bit n: column n of the slot has been written already (R340, R351). -/
  loaded : Nat := 0
  group : BitVec 256 := 0
  seq : Nat := 0
  /-- What the strand had acquired at issue: it happens before what the work writes (R288, R298). -/
  clock : Clock := []
  deriving DecidableEq, Repr, Inhabited

/-- Where a strand is resident: die, core of the die, slot of the core, residency of the core (R19). -/
structure Place where
  die : Nat := 0
  core : Nat := 0
  slot : Nat := 0
  res : Nat := 4
  deriving DecidableEq, Repr, Inhabited

/-- A strand's place in its life (R26, R353, R372). -/
inductive Status where
  | idle
  | running
  | halted
  | parked (byPolicy : Bool)
  | finished
  | cancelled
  deriving DecidableEq, Repr, Inhabited

/-- Releases of an agent that precede one of its home actions on a granule: where the strand was, or none for another
agent, and for each scope the clock of its latest release at that scope (R288). -/
structure Sync where
  granule : Nat := 0
  agent : Nat := 0
  place : Option Place := none
  rel : List Clock := []
  deriving DecidableEq, Repr, Inhabited

/-- A later state of a granule: its 256 bits, taint and poison after a write, and the write, as the agent that made
it and its number among that agent's writes (R279). -/
structure Version where
  bits : Nat := 0
  taint : Bool := false
  poison : Bool := false
  agent : Nat := 0
  n : Nat := 0
  deriving DecidableEq, Repr, Inhabited

/-- A granule that differs between a strand's snapshot and the present state (R287): its 256 bits, taint and poison in
the snapshot, and the states it has reached since, the oldest first. -/
structure Stale where
  granule : Nat := 0
  old : Nat := 0
  taint : Bool := false
  poison : Bool := false
  later : List Version := []
  deriving DecidableEq, Repr, Inhabited

/-- A granule whose newest states acquires do not take of their own accord: how many of them, and the states that the
granule has passed since the choice was made, from which a strand that starts may choose too (R287). -/
structure Lag where
  withheld : Nat := 0
  hist : Stale := {}
  deriving DecidableEq, Repr, Inhabited

/-- What the last TID-form VST of each identifier entry captured in this pass of a spliced body (R363). -/
structure SpliceStore where
  pc : Word := 0
  vreg : Nat := 0
  row0 : Word := 0
  col0 : Word := 0
  rows : BitVec 16 := 0
  cols : BitVec 16 := 0
  amb : BitVec 3 := 0
  deriving DecidableEq, Repr, Inhabited

/-- An array-class or engine access that the strand has made: the lines it reached, and what happens before an access that
layer 1 orders after it: its writes, and what was ordered before it (R283, R288). -/
structure Past where
  ranges : List (Int × Int × Bool) := []
  before : Clock := []
  /-- An engine access, for which FENCE es alone waits (R284). -/
  engine : Bool := false
  deriving DecidableEq, Repr, Inhabited

/-- The order that layer 1 gives among a strand's own accesses (R282-R284), as far as happens-before needs it (R288). -/
structure OwnOrder where
  /-- Accesses since the latest release at fabric scope, which precedes in its own right what the strand sends later. -/
  past : List Past := []
  /-- Writes of engine work that has finished, for which every later release waits (R298). -/
  worked : Clock := []
  /-- What FENCE as and es put before later scalar accesses, and what precedes the scalar accesses that were made. -/
  afterArray : Clock := []
  viaScalar : Clock := []
  /-- What FENCE sa put before later array-class accesses, and FENCE se before later engine accesses. -/
  beforeArray : Clock := []
  beforeEngine : Clock := []
  deriving DecidableEq, Repr, Inhabited

/-- A strand with all its state (R12, R41-R46, R180, R390). -/
structure Strand where
  sid : Nat := 0
  status : Status := .idle
  place : Place := {}
  pc : Word := 0
  g : Vector GReg 32 := Vector.replicate 32 {}
  q : Vector QReg 8 := Vector.replicate 8 {}
  v : Vector VReg 32 := Vector.replicate 32 {}
  m : Vector MReg 8 := Vector.replicate 8 {}
  z : Vector Tile 16 := Vector.replicate 16 {}
  t : Vector (BitVec 1024) 64 := Vector.replicate 64 0
  -- special registers (R43)
  rows : BitVec 16 := 0
  cols : BitVec 16 := 0
  stripb : Word := 0
  seed : Word := 0
  vcfg : BitVec 16 := 0
  amb : BitVec 3 := 0
  flags : BitVec 16 := 0
  prog : Word := 0
  slip : BitVec 7 := 64
  grant : BitVec 16 := 0
  scoutb : BitVec 32 := 0
  scoutm : BitVec 32 := 0
  scoutt : BitVec 32 := 0
  fthr : BitVec 48 := 262144
  phase : BitVec 32 := 0
  vdid : BitVec 4 := 0
  strand : BitVec 10 := 0
  nstrand : BitVec 11 := 0
  launch : BitVec 32 := 0
  targ : Vector Word 4 := Vector.replicate 4 0
  trapv : Word := 0
  epc : Word := 0
  fcause : BitVec 32 := 0
  faddr : Word := 0
  fpc : Word := 0
  fkern : BitVec 32 := 0
  hnd : Bool := false
  -- queue, faults, waits
  queue : List Entry := []
  /-- The head of the queue is the first entry of a reissued image, which alone reads PROG (R236, R349). -/
  reissued : Bool := false
  image : List Entry := []
  pend : Option Pend := none
  /-- A GETS or SETS of a queue-ordered register that waits for the queue (R44). -/
  blocked : Option (BitVec 128) := none
  sleep : Option Sleep := none
  /-- A home action on another device that waits for its response (R305). -/
  awaiting : Bool := false
  mirrors : List (Nat × Nat) := []
  work : List Work := []
  /-- The work, if any, that the strand's latest array instruction left when its entry retired (R99). -/
  lastWork : Option Nat := none
  /-- Strands of the core that the fetch arbiter serves once before this one, whose latest word had YLD (R99). -/
  after : List Nat := []
  /-- The strand has started: its identifier entries are copied when it starts, with its first fetch or earlier (R23, R130). -/
  begun : Bool := true
  /-- A Steward processor at level 0 or 1, which reaches memory by physical address (R422). -/
  physical : Bool := false
  /-- Cycle of the die at the last issue, from which the watchdog counts (R373); while the strand is parked, the count. A
  strand that resumes on a die whose counter stands lower counts from before 0. -/
  issued : Int := 0
  /-- The strand had halted when it was switched out. -/
  halted : Bool := false
  /-- Units of work after which the head entry stops at a stop point, for a pre-emption or a cancel (R218, R236, R349);
  none: it runs to its end. -/
  bound : Option Nat := none
  /-- A pre-emption request: the launch that wants the slot, or 0 for a repair (R374, R430). -/
  preempt : Option Nat := none
  /-- Where the strand stood when it was switched out, for the barrier it belongs to (R36). -/
  left : Option Place := none
  -- phase consistency: writes of the array sequencer, and stores of the scalar stream
  wseq : Nat := 0
  sseq : Nat := 0
  clock : Clock := []
  rel : Vector Clock 5 := Vector.replicate 5 []
  seen : List Sync := []
  stale : List Stale := []
  order : OwnOrder := {}
  -- Manifest and splicing
  fold : Word := 0
  foldTaint : Bool := false
  foldPoison : Bool := false
  /-- The fold of the consumer's stores in a spliced kernel (R391). -/
  fold2 : Word := 0
  fold2Taint : Bool := false
  fold2Poison : Bool := false
  spliced : List SpliceStore := []
  deriving DecidableEq, Repr, Inhabited

/-- A Steward processor (R3, R422): its privilege level, the tenant of a plug-in that runs on it, and the registers of the
scalar instructions. -/
structure StewardCpu where
  level : Nat := 0
  tenant : Nat := 0
  cpu : Strand := {}
  deriving DecidableEq, Repr, Inhabited

/-! ### The device's records -/

/-- States of a launch (R353). -/
inductive LaunchState where
  | refused | waiting | eligible | running | parked | done | cancelled
  deriving DecidableEq, Repr, Inhabited

/-- The producer that PROD resolves to (R33, R135). -/
inductive Producer where
  | none
  | dead
  | live (lid : Nat)
  deriving DecidableEq, Repr, Inhabited

/-- A fold into a Manifest record on another device: not sent, on its way, or answered with the CAUSE of a fault and the logical
index of the task (R391). -/
inductive FarFold where
  | none
  | sent
  | answered (fault : Option Nat) (index : Nat)
  deriving DecidableEq, Repr, Inhabited

/-- A launch that a Dispatcher has accepted (R25, R133, R353, R418). -/
structure Launch where
  lid : Nat := 0
  vd : Nat := 0
  die : Nat := 0
  /-- Queue 0-15 of the die, or 16 for a Drover task, which has none. -/
  queue : Nat := 0
  /-- Index of its launch slot in the ring (R417), and the kick that it came with (R418). -/
  slot : Nat := 0
  kick : Nat := 0
  header : BitVec 512 := 0
  record : BitVec 512 := 0
  state : LaunchState := .waiting
  /-- Cycle of entering ELIGIBLE or PARKED, and levels gained by aging (R354). -/
  since : Nat := 0
  aged : Nat := 0
  dep : Nat := 0
  strands : List Nat := []
  leftCount : Nat := 0
  /-- Its number in the order of placements, 0 before it. -/
  placed : Nat := 0
  /-- Slots that victims left for this pre-emptor: die, core, slot (R374, R380). -/
  held : List (Nat × Nat × Nat) := []
  /-- It runs again in a serial re-execution (R393). -/
  serial : Bool := false
  producer : Producer := .none
  /-- The spliced consumer that completes with this launch, or the producer that carries this one (R365). -/
  spliceWith : Option Nat := none
  spliceKernel : Option Nat := none
  status : Nat := 0
  fcause : BitVec 32 := 0
  notified : Bool := false
  /-- A Drover task: its batch, TARG0 to TARG3, and the token index of its tile base (R391, R409). -/
  drover : Option (Nat × Nat × Nat × Nat × Word × Nat) := none
  /-- Granules of memory as they stood when the launch began, where they have changed since (R112). -/
  oldText : List (Nat × Nat) := []
  /-- What its start synchronises with, and the releases of its completion (R26, R291). -/
  clock : Clock := []
  endClock : Clock := []
  foldTaint : Bool := false
  foldPoison : Bool := false
  fold : Word := 0
  farFold : FarFold := .none
  deriving DecidableEq, Repr, Inhabited

/-- Levels that complete (R25). -/
inductive Level where
  | launch | graph | phase | job
  deriving DecidableEq, Repr, Inhabited

/-- A completion counter of a graph, phase or job (R25, R30). `key2` is the job of a phase. -/
structure Counter where
  level : Level := .graph
  vd : Nat := 0
  die : Nat := 0
  key : Nat := 0
  key2 : Nat := 0
  start : Nat := 0
  left : Nat := 0
  /-- The launch that opened the counter, the first to name the level. -/
  born : Nat := 0
  /-- A cancel of the level has been accepted (R29). -/
  cancelled : Bool := false
  /-- The STATUS with which the level completes: 0 DONE, 1 CANCELLED, 2 FAULT (R28, R30, R393). -/
  status : Nat := 0
  completed : Bool := false
  /-- Cycles of the four dies at completion (R433). -/
  ended : List Nat := []
  /-- Releases of the members that finished (R291). -/
  clock : Clock := []
  deriving DecidableEq, Repr, Inhabited

/-- A cancel on its way to the home of its level's counter (R29). -/
structure Cancel where
  k : Nat := 0
  level : Level := .launch
  vd : Nat := 0
  die : Nat := 0
  key : Nat := 0
  key2 : Nat := 0
  /-- FCAUSE of a cancel that a fault ordered, and the launch that faulted (R372). -/
  fault : Option (BitVec 32 × Nat) := none
  deriving DecidableEq, Repr, Inhabited

/-- What a launch holds in the engine of one cluster (R332, R333). -/
structure Reservation where
  lid : Nat := 0
  die : Nat := 0
  cluster : Nat := 0
  groups : Nat := 0
  taken : Bool := false
  slots : List PlaneSlot := []
  part0 : Predictor := {}
  part1 : Predictor := {}
  deriving DecidableEq, Repr, Inhabited

/-- One word of a spliced kernel: the word, and the original PC and kernel (R362, R366). -/
structure SpliceWord where
  word : BitVec 128 := 0
  pc : Word := 0
  knum : BitVec 32 := 0
  consumer : Bool := false
  body : Bool := false
  /-- A matched load: the register it moves from, and the original PC of the store (R363). -/
  matched : Option (Nat × Word) := none
  /-- The joined SETL: the consumer's renamed destination register, which takes the same grant (R362). -/
  second : Option Nat := none
  deriving DecidableEq, Repr, Inhabited

/-- A spliced kernel in the splice store of a die (R366, R367). -/
structure SpliceKernel where
  die : Nat := 0
  number : Nat := 0
  lid : Nat := 0
  words : List SpliceWord := []
  /-- Where a renamed general register of the consumer lies, and what it holds as a strand starts: 1, 2 or 3 for that of its g1, g2 or
  g3, and 0 for any other, which holds 0 (R24, R361). -/
  args : List (Nat × Nat) := []
  /-- The consumer's bindings at its renamed slots (R361). -/
  binds : List (Nat × Word) := []
  deriving DecidableEq, Repr, Inhabited

/-- A barrier of a launch in one scope instance (R36). -/
structure Barrier where
  lid : Nat := 0
  scope : Nat := 0
  inst : Nat := 0
  arrived : List Nat := []
  syncs : List Sync := []
  /-- Strands that may depart since the barrier completed, and the releases of those that had arrived. -/
  leaving : List Nat := []
  left : List Sync := []
  deriving DecidableEq, Repr, Inhabited

/-- Interface states of a virtual device (R427). -/
inductive IFace where
  | unlocked | locked | run | error
  deriving DecidableEq, Repr, Inhabited

/-- A queue of a virtual device on a die (R417, R419, R421). -/
structure Queue where
  addr : Word := 0
  desc : BitVec 512 := 0
  head : BitVec 32 := 0
  ntail : BitVec 32 := 0
  lim : BitVec 32 := 0
  kick : Word := 0
  reserved : Nat := 0
  unannounced : Nat := 0
  firstCyc : Nat := 0
  /-- The number of the kick being accepted, and the TAILs of the kicks taken and not yet accepted whole, oldest first
  (R418, R419). -/
  kickId : Nat := 0
  tails : List (BitVec 32) := []
  deriving DecidableEq, Repr, Inhabited

/-- A memory protection region of a plug-in (R422): base, limit, and read, write and execute bits. -/
structure Region where
  base : Word := 0
  limit : Word := 0
  perm : BitVec 3 := 0
  deriving DecidableEq, Repr, Inhabited

/-- A virtual device (R395, R424-R427). -/
structure VDev where
  vdid : Nat := 0
  iface : IFace := .unlocked
  tenant : Endpoint := {}
  notice : Endpoint := {}
  nearGiB : Nat := 0
  farGiB : Nat := 0
  root : Nat := 0
  policy : Word := 0
  poisonTrap : Bool := false
  wd : Nat := 16384
  peers : List (BitVec 256) := []
  rank : Nat := 0
  faultDesc : Option Word := none
  refusals : BitVec 32 := 0
  lost : BitVec 32 := 0
  qtable : Word := 0
  queues : List Queue := List.replicate 64 {}
  /-- The tenant's plug-in: its 16 regions, and whether it has been stopped (R422). -/
  regions : Vector Region 16 := Vector.replicate 16 {}
  pluginStopped : Bool := false
  deriving DecidableEq, Repr, Inhabited

/-- The security association of a virtual device with a peer or host endpoint (R414). -/
structure Assoc where
  vd : Nat := 0
  peer : Endpoint := {}
  sa : Nat := 0
  deriving DecidableEq, Repr, Inhabited

/-- A Toll register of a resource instance with its bucket (R395-R397). -/
structure Toll where
  vd : Nat := 0
  res : Nat := 0
  die : Nat := 0
  inst : Nat := 0
  rate : Nat := 0
  depth : Nat := 0
  pending : Option (Nat × Nat) := none
  units : Nat := 0
  deriving DecidableEq, Repr, Inhabited

/-- A lend pool of a die for a resource instance, in 1/1,024 tokens (R397). -/
structure Pool where
  res : Nat := 0
  die : Nat := 0
  inst : Nat := 0
  units : Nat := 0
  deriving DecidableEq, Repr, Inhabited

/-- A routing context of a port for a virtual device (R401, R402). -/
structure RouteCtx where
  port : Nat := 0
  vd : Nat := 0
  record : BitVec 512 := 0
  image : BitVec 1024 := 0
  mant : List Nat := []
  scale : List Nat := []
  /-- Elements held as poisoned (R405). -/
  poison : List Bool := []
  batch : Option (BitVec 128) := none
  closing : Option Nat := none
  /-- Messages that the context has discarded (R402). -/
  discards : BitVec 32 := 0
  deriving DecidableEq, Repr, Inhabited

/-- A batch armed with or running at a die's Drover (R350, R409-R411). -/
structure Batch where
  k : Nat := 0
  die : Nat := 0
  vd : Nat := 0
  addr : Word := 0
  record : BitVec 512 := 0
  /-- The expert launch record, and for each task its expert, first bucket position, token count and the token index at
  that position (R409). -/
  kernel : BitVec 512 := 0
  plan : List (Nat × Nat × Nat × Nat) := []
  spawned : Bool := false
  /-- The bucket table as the Drover read it: header and expert entries (R403, R409). -/
  header : BitVec 512 := 0
  experts : List (BitVec 256) := []
  left : Nat := 0
  tasks : Nat := 0
  failed : Bool := false
  phase : BitVec 32 := 0
  job : Nat := 0
  clock : Clock := []
  deriving DecidableEq, Repr, Inhabited

/-- A page walk in flight or queued at a cluster's walker (R263). -/
structure Walk where
  die : Nat := 0
  cluster : Nat := 0
  vd : Nat := 0
  va : Word := 0
  /-- log2 of the size of its page, as the tables stood when it began. -/
  sizeLog : Nat := 16
  /-- The strands whose misses wait on the walk, at most 64. -/
  sids : List Nat := []
  inFlight : Bool := true
  /-- A miss beyond the 64 that may wait on its page's walk: it waits until that walk completes. -/
  late : Bool := false
  /-- The walk has failed: the accesses of the strands that waited on it are still to report the fault. -/
  failed : Bool := false
  deriving DecidableEq, Repr, Inhabited

/-- A TLB entry: a core's first-level TLB (some core) or a cluster's L2 TLB (R262). -/
structure TlbEntry where
  die : Nat := 0
  cluster : Nat := 0
  core : Option Nat := none
  vd : Nat := 0
  page : Nat := 0
  sizeLog : Nat := 16
  pa : Nat := 0
  perm : Nat := 0
  deriving DecidableEq, Repr, Inhabited

/-- A line of an L1 or an L2 slice (R266, R268). Bit i of `written` says that bit i of its 1,024 bits has been written and
not yet sent on: the line is dirty where any is set. -/
structure CacheLine where
  level2 : Bool := false
  die : Nat := 0
  unit : Nat := 0
  set : Nat := 0
  way : Nat := 0
  line : Nat := 0
  age : Nat := 0
  vd : Nat := 0
  written : Nat := 0
  deriving DecidableEq, Repr, Inhabited

/-- An access that has missed in a cache, and the line that comes for it: what its instruction, its tensor entry and its
captured registers say of placement (R97, R98, R202, R269). -/
structure Fill where
  level2 : Bool := false
  die : Nat := 0
  unit : Nat := 0
  line : Nat := 0
  vd : Nat := 0
  va : Nat := 0
  hint : Nat := 0
  retc : Bool := false
  /-- A VLD, which consults FTHR under HINT norm. -/
  arrayLoad : Bool := false
  /-- The footprint of a VLD in bits (R202). -/
  footprint : Nat := 0
  fthr : Nat := 0
  prefetch : Bool := false
  /-- Bits of the line that the access writes. -/
  written : Nat := 0
  deriving DecidableEq, Repr, Inhabited

/-- A write made in a step, from which the caches take the bits written (R266): its agent, granule and bits. -/
structure Stored where
  who : Nat := 0
  granule : Nat := 0
  mask : Nat := 0
  deriving DecidableEq, Repr, Inhabited

/-- A request that waits at the arbiter of a memory controller or a port: the virtual device that it is charged to, and the
tokens that it has still to take (R395, R398). -/
structure Due where
  vd : Nat := 0
  res : Nat := 2
  die : Nat := 0
  inst : Nat := 0
  left : Nat := 4
  /-- The line that it brings into the L2 of its home. -/
  fill : Option Nat := none
  /-- The message, by its place in the outbox, that leaves once the tokens are there. -/
  msg : Option Nat := none
  deriving DecidableEq, Repr, Inhabited

/-- A train arriving from a peer or from this device (R299). -/
structure Train where
  vd : Nat := 0
  train : Nat := 0
  performed : Nat := 0
  faulted : Bool := false
  deriving DecidableEq, Repr, Inhabited

/-- The response of a peer's home to a home action (R305). -/
structure Reply where
  sid : Nat := 0
  value : Word := 0
  taint : Bool := false
  poison : Bool := false
  /-- The flags of AMOF's addition (R80, R310). -/
  flags : Nat := 0
  /-- What happens before the releases at fabric scope that the action read at the peer's home (R288, R296). -/
  rel : Clock := []
  /-- The releases of strands of this device that it read there (R288). -/
  seen : List Sync := []
  /-- A fault at the target: its CAUSE (XLATE or PROT). -/
  fault : Option Nat := none
  deriving DecidableEq, Repr, Inhabited

/-- A collective whose members disagreed before all of them had joined: how many are still to come (R322). -/
structure FailedGroup where
  vd : Nat := 0
  gid : Nat := 0
  seq : Nat := 0
  left : Nat := 0
  deriving DecidableEq, Repr, Inhabited

/-- What leaves the device over a port. -/
inductive Out where
  /-- A message to a host endpoint: its 32-byte header and payload (R416). -/
  | host (dest : Endpoint) (header : BitVec 256) (payload : List Byte)
  /-- A home action on a peer (R305), with the sender's POISON trap (R306) and the TNT bit of its word
  (R100), and the releases that it carries (R288, R296). -/
  | action (vd : Nat) (sid : Nat) (peer : Nat) (kind : PeerKind) (fn : Nat) (addr b c : Word) (bTaint bPoison : Bool)
      (trap tnt : Bool) (sync : Sync)
  /-- A response to a peer's home action (R305): value, taint, poison, flags of the action, what happens before the
  releases at fabric scope that it read, the releases of strands of other devices among them, and the CAUSE of a fault. -/
  | reply (vd : Nat) (peer : Nat) (value : Word) (taint poison : Bool) (flags : Nat) (rel : Clock) (seen : List Sync)
      (fault : Option Nat)
  /-- An element write to a peer by COPY, SEND, CRED or CBCAST (R299, R318). -/
  | element (vd : Nat) (peer : Nat) (train : Nat) (bitAddr size value : Nat) (taint poison : Bool)
  /-- A task's fold into a Manifest record on a peer (R391, R394). -/
  | fold (vd : Nat) (lid : Nat) (peer : Nat) (addr digest : Word) (m : FoldMsg) (rel : Clock)
  /-- What the Steward asks of a Manifest record on a peer, for the checks of a job (R392, R393). -/
  | manifest (vd job : Nat) (peer : Nat) (addr : Word) (act : ManifestAct)
  /-- The tail of a train (R299). -/
  | tail (vd : Nat) (peer : Nat) (train : Nat) (count : Nat) (asig : Word) (sync : Sync)
  /-- The acknowledgement of a train's tail (R299). -/
  | trainAck (vd : Nat) (train : Nat) (err : Bool)
  /-- The result of a collective combined here, for a member on a peer (R323, R324). -/
  | result (vd gid seq member : Nat) (err : Bool) (flags : Nat) (values : List (Nat × Bool × Bool))
  /-- A contribution to a collective whose combining device is a peer (R323). -/
  | contribution (vd : Nat) (peer : Nat) (gid seq : Nat) (c : Contribution)
  deriving DecidableEq, Repr, Inhabited

/-- A hold of the next phase of a job by a Restart Stagger message (R433). -/
structure Hold where
  vd : Nat := 0
  job : Nat := 0
  die : Nat := 0
  /-- The phase that is held. -/
  phase : Nat := 0
  t : Nat := 0
  since : Nat := 0
  deriving DecidableEq, Repr, Inhabited

/-- A Manifest task that has committed in a phase whose check is due (R392). -/
structure Committed where
  vd : Nat := 0
  job : Nat := 0
  phase : Nat := 0
  lid : Nat := 0
  index : Nat := 0
  /-- Its launch names a Manifest record, and one that is checked. -/
  named : Bool := false
  madr : Word := 0
  check : Bool := false
  deriving DecidableEq, Repr, Inhabited

/-- How far the check of a phase has come: the comparisons of R392, the serial re-execution, the comparisons after it (R393). -/
inductive CheckStage where
  | first
  | rerun
  | last
  deriving DecidableEq, Repr, Inhabited

/-- The check of a phase that is not over, and its serial re-execution: the tasks still to run (R392, R393). -/
structure Serial where
  vd : Nat := 0
  job : Nat := 0
  phase : Nat := 0
  tasks : List Nat := []
  running : Option Nat := none
  /-- The records that did not match. -/
  records : List Word := []
  stage : CheckStage := .rerun
  /-- Records on peers that have not answered. -/
  waiting : List Word := []
  /-- Records whose first comparison came out equal. -/
  matched : List Word := []
  /-- A comparison after the re-execution came out unequal. -/
  failed : Bool := false
  deriving DecidableEq, Repr, Inhabited

/-- How far the firmware has come (R423). -/
inductive Firmware where
  | waiting
  | running
  deriving DecidableEq, Repr, Inhabited

/-- A unit of a die as the Steward counts it (R429, R430): its corrections, whether it is fenced off, the spare core or engine
that has taken its place, and for other units how many of its row, column or channel spares are in use. -/
structure UnitInfo where
  die : Nat := 0
  unit : Nat := 0
  count : BitVec 32 := 0
  fenced : Bool := false
  spare : Option Nat := none
  used : Nat := 0
  deriving DecidableEq, Repr, Inhabited

/-- The turns to come (the model's own, see the assumption log): which agent moves next. -/
inductive Turn where
  /-- The focused strand fetches and runs its next instruction, even while its queue holds entries. -/
  | fetch
  /-- The focused strand fetches an array-class word, which enters the queue and does not issue yet (R13, R16). -/
  | enter
  /-- The array sequencer serves the head of the focused strand's queue. -/
  | issue
  /-- The head of the queue, issued before a request to stop came, goes on for so many units to a stop point (R375). -/
  | part (units : Nat)
  /-- Another strand takes the focus. -/
  | focus (sid : Nat)
  /-- A placed strand starts (R22, R130). -/
  | start (sid : Nat)
  /-- A step of another agent: a row of the table that is not an instruction word. -/
  | event (i : Instr)
  /-- The engine performs so many more elements of an outstanding COPY or SEND, with bytes that came from a peer (R316), or
  writes the column of that number of an outstanding plane load (R340). -/
  | engine (sid k n : Nat) (data : List PeerByte)
  /-- A peer's response arrives. -/
  | reply (r : Reply)
  /-- The response to a fold into a peer's Manifest record: the launch, the CAUSE of a fault, and the logical index that TBASE
there gives the task (R391). -/
  | foldReply (lid : Nat) (fault : Option Nat) (index : Nat)
  /-- The response to a Steward's act on a peer's Manifest record, for a job's checks: did M equal EXPECT (R392, R393)? -/
  | manifestReply (vd job : Nat) (madr : Word) (equal : Bool)
  /-- So many of the newest states of a granule do not reach the snapshots of strands they do not happen before; 0 ends
  this (R287). -/
  | lag (granule withheld : Nat)
  /-- An access of a strand at an address misses in its TLBs, and arrives at its cluster's walker (R263). -/
  | tlbMiss (sid : Nat) (va : Word)
  /-- The Steward names the root of a virtual device's page table (R259). -/
  | pageRoot (vd root : Nat)
  /-- The Steward writes a page-table entry at a physical address (R259, R265). -/
  | pageEntry (pa : Nat) (value : Word)
  /-- The monitor sets a memory protection region of a tenant's plug-in (R422). -/
  | region (vd : Nat) (n : Nat) (r : Region)
  /-- The monitor lets a Steward processor run from an address at a level, for a tenant's plug-in at level 2 (R422). -/
  | stewardStart (n level tenant : Nat) (pc : Word)
  /-- A Steward processor executes its next scalar instruction (R422). -/
  | steward (n : Nat)
  /-- The transport sets up a security association; a virtual device and a peer have one (R414). -/
  | associate (a : Assoc)
  /-- A packet that asks a port for an unsupported option (R414). -/
  | badPacket (port : Nat)
  deriving DecidableEq, Repr, Inhabited

/-- The whole machine. -/
structure State where
  /-- The strand whose registers instructions act on. -/
  me : Strand := {}
  rest : List Strand := []
  -- memory (R257, R275)
  mem : List Host.Cell := []
  memTaint : List Nat := []
  memPoison : List Nat := []
  syncs : List Sync := []
  lag : List Lag := []
  /-- Writes and releases of the agents that are not strands, by agent number. -/
  agents : Clock := []
  -- time, boot, errors
  cyc : Vector Word 4 := Vector.replicate 4 0
  firmware : Firmware := .waiting
  imageLen : Nat := 0
  measure : BitVec 512 := 0
  owner : Endpoint := {}
  /-- The security association over which BOOT arrived, until the ownership is transferred (R425). -/
  ownerSa : Option Nat := none
  assocs : List Assoc := []
  /-- The four Steward processors of each die; agent numbers of their writes begin at 2^63 (R3, R422). -/
  stewards : Vector StewardCpu 16 := Vector.ofFn fun n => { cpu := { sid := 2 ^ 63 + n, place := { die := n / 4 } } }
  clusters : List (Nat × Nat) := []
  /-- Cycle of each die at which its clusters' turn began or its last cluster was enabled (R431). -/
  lastEnable : Vector Nat 4 := Vector.replicate 4 0
  units : List UnitInfo := []
  -- virtual devices
  vds : List VDev := []
  tolls : List Toll := []
  pools : List Pool := []
  /-- Requests that wait for tokens, in order of arrival (R398). -/
  dues : List Due := []
  /-- For each die the cycle at which the present window began, and the cycle up to which the buckets have gained (R397). -/
  windows : Vector (Nat × Nat) 4 := Vector.replicate 4 (0, 0)
  ways : List (Nat × Nat × BitVec 256) := []
  discards : Vector (BitVec 32) 8 := Vector.replicate 8 0
  -- work
  launches : List Launch := []
  counters : List Counter := []
  cancels : List Cancel := []
  committed : List Committed := []
  serials : List Serial := []
  holds : List Hold := []
  lastPlaced : Vector Nat 4 := Vector.replicate 4 15
  reservations : List Reservation := []
  splices : List SpliceKernel := []
  barriers : List Barrier := []
  -- engines, ports, Drover
  trains : List Train := []
  failedGroups : List FailedGroup := []
  outbox : List Out := []
  replies : List Reply := []
  routes : List RouteCtx := []
  batches : List Batch := []
  -- translation and caches
  walks : List Walk := []
  tlb : List TlbEntry := []
  /-- Virtual device and address of each access whose walk read a poisoned entry, of which the Steward was notified. -/
  poisonedWalks : List (Nat × Nat) := []
  lines : List CacheLine := []
  /-- Fills on their way to their caches, oldest first. -/
  fills : List Fill := []
  /-- The writes of the present step. -/
  stores : List Stored := []
  fused : List (Nat × Nat) := []
  dropped : List (Nat × Nat × BitVec 32) := []
  /-- Acts above a Steward processor's level, of which the monitor was told: the level of the processor, and the level that the
  act needs (R422). -/
  privs : List (Nat × Nat) := []
  -- power (R432)
  slope : BitVec 16 := 100
  power : Nat := 0
  /-- The cycle of die 0 at which its present window began (R432). -/
  slewAt : Nat := 0
  withheld : Nat := 0
  ballast : Nat := 0
  -- numbering: launches, strands, pieces of work
  nextId : Nat := 32
  -- the model's own
  agenda : List Turn := []
  free : Nat := 0
  deriving DecidableEq, Repr, Inhabited

/-- Why a step stops. -/
inductive Fault where
  /-- Raised by `step` alone, when the agenda gives the focus to a strand that does not exist. Safe: no hardware event
  is such a turn. -/
  | noSuchStrand (sid : Nat)
  deriving DecidableEq, Repr

/-- Why a step has no meaning. -/
inductive Refusal where
  /-- An arm of `exec` whose instruction has no meaning yet. Safe. -/
  | notModelled (mnemonic : String)
  /-- Raised by `step` alone, when the agenda lists an instruction word as the event of another agent. Safe. -/
  | wordIsNoEvent
  deriving DecidableEq, Repr

/-- The device right after reset (R423): the boot ROM waits for the firmware image; there is no virtual device and no
strand; memory lists nothing. -/
def State.reset : State := {}

end Sys2Proof.Machine
end

