-- ==== Sys2Proof/Machine/Memory.lean ====
section
/-! DEFINITION. Memory in one canonical form, granules with taint and poison (R275, R386), translation (R257-R261),
snapshots, releases and acquires (R277-R297), and the units of the Manifest (R389). -/

namespace Sys2Proof.Machine

/-! ### Bytes in canonical form -/

/-- What a byte that nothing has written reads as (DESIGN CHOICE, log entry 3). -/
def unlisted : Byte := 0

/-- Read one byte of physical memory. -/
def memGet (m : List Host.Cell) (a : Nat) : Byte :=
  match m with
  | [] => unlisted
  | (c, x) :: r => if c = a then x else memGet r a

/-- Write one byte of physical memory; an entry equal to `unlisted` is not kept. -/
def memSet (m : List Host.Cell) (a : Nat) (b : Byte) : List Host.Cell :=
  match m with
  | [] => if b = unlisted then [] else [(a, b)]
  | (c, x) :: r =>
    if c < a then (c, x) :: memSet r a b
    else if c = a then (if b = unlisted then r else (a, b) :: r)
    else if b = unlisted then (c, x) :: r
    else (a, b) :: (c, x) :: r

/-- Every address is at least `lo`, addresses rise, and no entry equals `unlisted`. -/
def memWfFrom (lo : Nat) : List Host.Cell → Bool
  | [] => true
  | (c, x) :: r => decide (lo ≤ c) && x != unlisted && memWfFrom (c + 1) r

/-- The canonical form of memory. -/
def Memory.wf (m : List Host.Cell) : Bool := memWfFrom 0 m

/-- A sorted list of granule numbers, as a set: the member is put in or taken out. -/
def setMember (l : List Nat) (g : Nat) (on : Bool) : List Nat :=
  match l with
  | [] => if on then [g] else []
  | c :: r =>
    if c < g then c :: setMember r g on
    else if c = g then (if on then c :: r else r)
    else if on then g :: c :: r else c :: r

/-- The number whose little-endian bytes are `n` bytes of memory from `a`. -/
def memRead (m : List Host.Cell) (a : Nat) : Nat → Nat
  | 0 => 0
  | n + 1 => (memGet m a).toNat + 256 * memRead m (a + 1) n

/-- Write the `n` low bytes of `x` from address `a`. -/
def memWrite (m : List Host.Cell) (a : Nat) : Nat → Nat → List Host.Cell
  | 0, _ => m
  | n + 1, x => memWrite (memSet m a (BitVec.ofNat 8 x)) (a + 1) n (x / 256)

/-- The 256 bits of a granule. -/
def granuleOf (m : List Host.Cell) (g : Nat) : Nat := memRead m (32 * g) 32

/-! ### Vector clocks (R288) -/

def clockGet (c : Clock) (a : Nat) : Nat := (c.lookup a).getD 0

def clockPut (c : Clock) (a n : Nat) : Clock :=
  match c with
  | [] => [(a, n)]
  | (b, k) :: r => if b == a then (a, max k n) :: r else (b, k) :: clockPut r a n

def clockJoin (c d : Clock) : Clock := d.foldl (fun acc p => clockPut acc p.1 p.2) c

/-- The clock of the writes `lo + 1` to `hi` of an agent. -/
def clockSpan (a lo hi : Nat) : Clock := if hi ≤ lo then [] else [(lo * 2 ^ 512 + a, hi)]

/-- Does the clock cover write number `p.2` of agent `p.1`? -/
def clockCovers (c : Clock) (p : Nat × Nat) : Bool :=
  c.any fun e => e.1 % 2 ^ 512 == p.1 && decide (e.1 / 2 ^ 512 < p.2) && decide (p.2 ≤ e.2)

/-- Agents that are not strands; strand identifiers begin at 32, and a strand is the agent of its own identifier for
what its array sequencer and its home actions write. -/
def agentHost (vd : Nat) : Nat := vd
def agentPort (port : Nat) : Nat := 16 + port
def agentDrover (die : Nat) : Nat := 24 + die
def agentSteward : Nat := 28
/-- The agent of the stores of a strand's scalar stream, which runs ahead of the array queue. -/
def agentScalar (sid : Nat) : Nat := 2 ^ 64 + 2 * sid
/-- A piece of engine work, which is the agent of what it writes: its elements come between the strand's other writes in no
order that program order gives (R288, R298). -/
def agentWork (k : Nat) : Nat := 2 ^ 128 + k
/-- A strand of another device, as the messages of that device number it. -/
def agentAway (n : Nat) : Nat := 2 ^ 64 + 2 * n + 1

/-- The narrowest scope that a strand shares with an agent that is no strand of this device: the device with its
ports, Drovers and Steward, the fabric with hosts and peers (R278). -/
def agentScope (who : Nat) : Nat := if 16 ≤ who ∧ who < 32 then 3 else 4

/-- The narrowest scope that two places share: 0 core, 1 cluster, 2 die, 3 device (R278). -/
def sharedScope (p q : Place) : Nat :=
  if p.die != q.die then 3
  else if p.core == q.core then 0
  else if p.core / 4 == q.core / 4 then 1
  else 2

/-- The number of the instance of a scope that a place lies in (R278). -/
def scopeInstance (scope : Nat) (p : Place) : Nat :=
  match scope with
  | 0 => 68 * p.die + p.core
  | 1 => 17 * p.die + p.core / 4
  | 2 => p.die
  | _ => 0

/-! ### Snapshots (R287) -/

/-- A granule reaches a further state. -/
def Stale.push (e : Stale) (v : Version) : Stale := { e with later := e.later ++ [v] }

/-- What a later acquire may do to a granule (R287): of the states reached since, it takes the newest but `withheld`,
and none before the last write that happens before it or that the strand made itself (R282), as `mine` says of an agent. None:
the newest of all, the present one. -/
def Stale.advance (e : Stale) (c : Clock) (mine : Nat → Bool) (withheld : Nat) : Option Stale :=
  let must := e.later.zipIdx.foldl (fun k v =>
    if clockCovers c (v.1.agent, v.1.n) || mine v.1.agent then v.2 + 1 else k) 0
  let k := max must (e.later.length - withheld)
  if e.later.length ≤ k then none
  else if k == 0 then some e
  else
    let v := e.later.getD (k - 1) {}
    some { e with old := v.bits, taint := v.taint, poison := v.poison, later := e.later.drop k }

/-- Another agent, or a home action, writes a granule, which held `old`: the strand's snapshot keeps that. -/
def Strand.noteWrite (st : Strand) (g old : Nat) (taint poison : Bool) (v : Version) : Strand :=
  if st.status == .idle then st
  else if st.stale.any (fun e => e.granule == g) then
    { st with stale := st.stale.map fun e => if e.granule == g then e.push v else e }
  else { st with stale := { granule := g, old := old, taint := taint, poison := poison, later := [v] } :: st.stale }

/-- The bits `mask` of `old` replaced by those of `data`. -/
def mergeBits (old mask data : Nat) : Nat := (old ^^^ (old &&& mask)) ||| (data &&& mask)

/-- All 256 bits of a granule. -/
def fullGranule : Nat := 2 ^ 256 - 1

/-- A write to one granule: the bits replaced, their new values, the taint and poison of the data. -/
structure GWrite where
  granule : Nat
  mask : Nat
  data : Nat
  taint : Bool
  poison : Bool
  deriving DecidableEq, Repr

/-- The bit that a granule's taint or poison takes from a write (R275, R386). -/
def mark (full new old : Bool) : Bool := if full then new else new || old

/-- The strand writes granule `w.granule` itself by a plain write, which takes it to the state `v`: its own snapshot
takes the bits (R282). -/
def Strand.ownWrite (st : Strand) (w : GWrite) (v : Version) : Strand :=
  { st with stale := st.stale.map fun e =>
      if e.granule == w.granule then
        { (e.push v) with
          old := mergeBits e.old w.mask w.data
          taint := mark (w.mask == fullGranule) w.taint e.taint
          poison := mark (w.mask == fullGranule) w.poison e.poison }
      else e }

/-- Put a granule's bits, taint and poison in place. -/
def State.putGranule (s : State) (w : GWrite) : State :=
  let old := granuleOf s.mem w.granule
  let full := w.mask == fullGranule
  { s with
    mem := memWrite s.mem (32 * w.granule) 32 (mergeBits old w.mask w.data)
    memTaint := setMember s.memTaint w.granule (mark full w.taint (s.memTaint.contains w.granule))
    memPoison := setMember s.memPoison w.granule (mark full w.poison (s.memPoison.contains w.granule)) }

/-- A launch keeps the granule as it stood when it began (R112). -/
def Launch.keepText (l : Launch) (g old : Nat) : Launch :=
  if (l.state == .running || l.state == .parked) && !l.oldText.any (fun p => p.1 == g) then
    { l with oldText := (g, old) :: l.oldText }
  else l

/-- Does an agent number stand for the strand: its array sequencer, its scalar stream, or its engine work? -/
def Strand.isAgent (st : Strand) (who : Nat) : Bool :=
  (who == st.sid || who == agentScalar st.sid || st.work.any fun w => agentWork w.k == who) && st.status != .idle

/-- Does the strand itself count the writes of an agent? -/
def Strand.counts (st : Strand) (who : Nat) : Bool := (who == st.sid || who == agentScalar st.sid) && st.status != .idle

/-- The number of the next write of an agent. -/
def State.nextWrite (s : State) (who : Nat) : Nat :=
  if !s.me.counts who then clockGet s.agents who + 1 else if who == s.me.sid then s.me.wseq + 1 else s.me.sseq + 1

/-- The write of number `n` of an agent is made. -/
def Strand.countWrite (st : Strand) (who n : Nat) : Strand :=
  if who == st.sid then { st with wseq := n } else { st with sseq := n }

/-- Agent `who` writes a granule (R279): the write takes its place in the granule order, and the caches will hear of it. `home` marks a home action,
whose strand gets nothing into its snapshot by it (R289). -/
def State.writeGranule (s : State) (who : Nat) (home : Bool) (w : GWrite) : State :=
  let g := w.granule
  let old := granuleOf s.mem g
  let t := s.memTaint.contains g
  let p := s.memPoison.contains g
  let mine := s.me.isAgent who
  let n := s.nextWrite who
  let s1 := s.putGranule w
  let v : Version :=
    { bits := granuleOf s1.mem g, taint := s1.memTaint.contains g, poison := s1.memPoison.contains g, agent := who, n := n }
  let me0 := if mine && !home then s.me.ownWrite w v else s.me.noteWrite g old t p v
  { s1 with
    me := if s.me.counts who then me0.countWrite who n else me0
    rest := s1.rest.map fun st => st.noteWrite g old t p v
    lag := s1.lag.map fun l => if l.hist.granule == g then { l with hist := l.hist.push v } else l
    stores := { who := who, granule := g, mask := w.mask } :: s1.stores
    agents := if s.me.counts who then s1.agents else clockPut s1.agents who n
    launches := s1.launches.map fun l => l.keepText g old }

/-- What the strand's snapshot, with its own writes, holds at a byte: byte, taint, poison (R287). -/
def State.viewByte (s : State) (a : Nat) : Nat × Bool × Bool :=
  match s.me.stale.find? (fun e => e.granule == a / 32) with
  | some e => ((e.old >>> (8 * (a % 32))) % 256, e.taint, e.poison)
  | none => ((memGet s.mem a).toNat, s.memTaint.contains (a / 32), s.memPoison.contains (a / 32))

/-- What a home action reads at a byte: the present state (R289). -/
def State.homeByte (s : State) (a : Nat) : Nat × Bool × Bool :=
  ((memGet s.mem a).toNat, s.memTaint.contains (a / 32), s.memPoison.contains (a / 32))

/-- What happens before the strand's present place in program order: what it has acquired, its own writes, of its
scalar stores the first `mark`, and the writes of its engine work that has finished. -/
def Strand.ownClock (st : Strand) (mark : Nat) : Clock :=
  clockPut (clockPut (clockJoin st.clock st.order.worked) st.sid st.wseq) (agentScalar st.sid) mark

/-- The scalar stores that precede the entry at the head of the queue in program order. -/
def Strand.headMark (st : Strand) : Nat := (st.queue.head?.map Entry.mark).getD st.sseq

/-- The focused strand releases at a scope, for the entry at the head of its queue (R281, R296). -/
def State.release (s : State) (scope : Nat) : State :=
  { s with me := { s.me with rel := s.me.rel.setIfInBounds scope (s.me.ownClock s.me.headMark) } }

/-- What an acquire at scope `S2` by a strand at `p` learns from the releases it has read (R288). -/
def syncClock (p : Place) (s2 : Nat) (m : Sync) : Clock :=
  let t := match m.place with
    | some q => sharedScope p q
    | none => agentScope m.agent
  (m.rel.zipIdx.filter fun r => decide (t ≤ r.2) && decide (t ≤ s2)).foldl
    (fun acc r => clockJoin acc r.1) []

/-- How many of a granule's newest states are withheld from acquires. -/
def withheldOf (lag : List Lag) (g : Nat) : Nat := ((lag.find? fun l => l.hist.granule == g).map Lag.withheld).getD 0

/-- The strand takes a new snapshot (R287): of every granule that moved on, a state at or after each write that happens
before it. -/
def Strand.renew (st : Strand) (lag : List Lag) : Strand :=
  { st with stale := st.stale.filterMap fun e => e.advance (st.ownClock st.sseq) st.isAgent (withheldOf lag e.granule) }

/-- The strand acquires at a scope (R281, R287): it learns what happens before, and takes a new snapshot. -/
def Strand.acquire (st : Strand) (lag : List Lag) (scope : Nat) : Strand :=
  { st with clock := st.seen.foldl (fun acc m => clockJoin acc (syncClock st.place scope m)) st.clock }.renew lag

def State.acquire (s : State) (scope : Nat) : State :=
  { s with me := s.me.acquire s.lag scope }

/-- The newest `withheld` states of a granule are kept from acquires that they do not happen before; 0 ends this. -/
def State.setLag (s : State) (g withheld : Nat) : State :=
  let others := s.lag.filter fun l => l.hist.granule != g
  if withheld == 0 then { s with lag := others }
  else
    let fresh : Stale :=
      { granule := g, old := granuleOf s.mem g, taint := s.memTaint.contains g, poison := s.memPoison.contains g }
    let hist := ((s.lag.find? fun l => l.hist.granule == g).map Lag.hist).getD fresh
    { s with lag := { withheld := withheld, hist := hist } :: others }

/-- A home action of the focused strand on granule `g` carries its earlier releases, and, when it returns, reads
those of the actions before it (R288). -/
def State.homeSync (s : State) (g : Nat) (returning : Bool) : State :=
  let seen := if returning then s.syncs.filter (fun m => m.granule == g) ++ s.me.seen else s.me.seen
  let mine : Sync := { granule := g, agent := s.me.sid, place := some s.me.place, rel := s.me.rel.toList }
  { s with
    me := { s.me with seen := seen }
    syncs := if mine.rel.all List.isEmpty then s.syncs else mine :: s.syncs }

/-- Releases at each scope: those at the scopes up to the device, and one at fabric scope. -/
def scopesOf (inner : List Clock) (fabric : Clock) : List Clock := (List.range 4).map (fun i => inner.getD i []) ++ [fabric]

/-- A home action of an agent that is not a strand of this device, with a release at fabric scope, on granule `g`: what
it releases is its own writes and what happens before them. `inner` are releases at narrower scopes, which only strands of
the sender's device can read. -/
def State.agentSync (s : State) (who g : Nat) (rel : Clock := []) (inner : List Clock := []) : State :=
  let c := clockPut rel who (clockGet s.agents who)
  { s with syncs := { granule := g, agent := who, place := none, rel := scopesOf inner c } :: s.syncs }

/-- A home action of such an agent without a release at fabric scope of its own carries its earlier ones (R288). -/
def State.carrySync (s : State) (who g : Nat) (rel : Clock) (inner : List Clock) : State :=
  if rel.isEmpty && inner.all List.isEmpty then s
  else { s with syncs := { granule := g, agent := who, place := none, rel := scopesOf inner rel } :: s.syncs }

/-- The releases of strands of other devices among those that a returning home action on granule `g` reads: a response takes them
back, and the strands of their own device learn what they cover (R288). -/
def State.awaySyncs (s : State) (g : Nat) : List Sync :=
  s.syncs.filter fun m => m.granule == g && m.place.isNone && !(m.rel.take 4).all List.isEmpty

/-- What happens before the releases at fabric scope that a returning home action on granule `g` by another device
reads (R288, R296). -/
def State.fabricRel (s : State) (g : Nat) : Clock :=
  (s.syncs.filter fun m => m.granule == g).foldl (fun acc m => clockJoin acc (m.rel.getD 4 [])) []

/-! ### Translation (R257-R261) -/

/-- Causes of faults (R368). -/
def cILLEGAL : Nat := 0x01
def cPRIV : Nat := 0x02
def cXLATE : Nat := 0x03
def cPROT : Nat := 0x04
def cAGREE : Nat := 0x05
def cCAPACITY : Nat := 0x06
def cOVERLAP : Nat := 0x07
def cTIDINV : Nat := 0x08
def cALIGN : Nat := 0x09
def cPOISON : Nat := 0x0A
def cTAINT : Nat := 0x0B
def cMANIFEST : Nat := 0x0C
def cWATCHDOG : Nat := 0x0D
def cGRANT : Nat := 0x0E
def cTRAP : Nat := 0x0F
def cBRK : Nat := 0x10

/-- A fault of an instruction: its cause, FADDR, and the CODE of a TRAP or BRK. -/
structure Flt where
  cause : Nat
  faddr : Word := 0
  code : Nat := 0
  deriving DecidableEq, Repr

/-- A value, or the fault that ends the instruction. -/
abbrev R (α : Type) := Except Flt α

def fail {α : Type} (cause : Nat) (faddr : Nat := 0) : R α :=
  .error { cause := cause, faddr := BitVec.ofNat 64 faddr }

/-- Continue only when the condition holds. -/
def require (c : Bool) (cause : Nat) (faddr : Nat := 0) : R Unit :=
  if c then .ok () else fail cause faddr

/-- The permission an access needs (R261). -/
inductive Access where
  | rd | wr | rw | ex
  deriving DecidableEq, Repr

/-- A page found by a walk: its physical base, log2 of its size, and the bits RD, WR, EX. -/
structure Leaf where
  base : Nat
  sizeLog : Nat
  rd : Bool
  wr : Bool
  ex : Bool
  deriving DecidableEq, Repr

def farBase : Nat := 0x1000000000000
def nearSize : Nat := 256 * 2 ^ 30

/-- A level of the walk: low bit of the index, bits of the index, log2 of the next node's size, may an entry be a
leaf, must it be one (R259, R260). -/
def walkLevels : List (Nat × Nat × Nat × Bool × Bool) :=
  [(48, 8, 12, false, false), (39, 9, 12, false, false), (30, 9, 12, true, false), (21, 9, 8, true, false),
   (16, 5, 0, true, true)]

/-- Walk the levels from a node (R261); none is XLATE. R261 names no node beyond the 256 GiB of near memory, to which a non-leaf
entry or a root may point: the walk ends there with XLATE (DESIGN CHOICE, log entry 109). -/
def walkFrom (s : State) (va : Nat) : List (Nat × Nat × Nat × Bool × Bool) → Nat → Option Leaf
  | [], _ => none
  | (lo, n, nextLog, mayLeaf, mustLeaf) :: rest, node =>
    let ea := node + 8 * (bits va (lo + n - 1) lo)
    let e := memRead s.mem ea 8
    let lf := bit e 1
    let off := (bits e 43 8) <<< 8
    if nearSize ≤ ea || s.memPoison.contains (ea / 32) then none
    else if !bit e 0 || bits e 63 44 != 0 || bits e 7 6 != 0 then none
    else if lf then
      let far := bit e 5
      if !mayLeaf || off % 2 ^ lo != 0 then none
      else if (if far then Config.farGiB * 2 ^ 30 else nearSize) < off + 2 ^ lo then none
      else some { base := (if far then farBase else 0) + off, sizeLog := lo, rd := bit e 2, wr := bit e 3,
                  ex := bit e 4 }
    else if mustLeaf || bits e 5 2 != 0 || off % 2 ^ nextLog != 0 then none
    else walkFrom s va rest off

/-- The virtual device with a VDID, if it has been created. -/
def State.vdev? (s : State) (vd : Nat) : Option VDev := s.vds.find? fun d => d.vdid == vd

/-- Walk for a virtual device (R259). -/
def State.walk (s : State) (vd va : Nat) : Option Leaf :=
  match s.vdev? vd with
  | none => none
  | some d => if 2 ^ 56 ≤ va then none else walkFrom s va walkLevels d.root

/-- Does a walk from a node end at a poisoned entry (R261)? -/
def walkPoisoned (s : State) (va : Nat) : List (Nat × Nat × Nat × Bool × Bool) → Nat → Bool
  | [], _ => false
  | (lo, n, nextLog, _, mustLeaf) :: rest, node =>
    let ea := node + 8 * (bits va (lo + n - 1) lo)
    let e := memRead s.mem ea 8
    let off := (bits e 43 8) <<< 8
    if nearSize ≤ ea then false
    else if s.memPoison.contains (ea / 32) then true
    else if !bit e 0 || bit e 1 || bits e 63 44 != 0 || bits e 7 2 != 0 || mustLeaf || off % 2 ^ nextLog != 0 then false
    else walkPoisoned s va rest off

/-- Does a failed walk wait for an access of a strand at an address to report its fault (R263)? -/
def Walk.fails (w : Walk) (sid vd va : Nat) : Bool :=
  w.failed && w.vd == vd && w.sids.contains sid && w.va.toNat >>> w.sizeLog == va >>> w.sizeLog

/-- Must an access of the focused strand report the fault of a walk on which it waited (R263)? -/
def State.missFailed (s : State) (vd va : Nat) : Bool :=
  vd == s.me.vdid.toNat && s.walks.any fun w => w.fails s.me.sid vd va

/-- What the Steward is notified of for an access at an address that did not translate: its walk reads a poisoned entry (R261).
Where the page of the address itself is there, the access ends in the next one, whose walk it is. A fabric address of the own rank
names an address of this device (R305). -/
def State.walkNote (s : State) (vd va : Nat) : List (Nat × Nat) :=
  match s.vdev? vd with
  | none => []
  | some d =>
    let a0 := if bit va 63 && bits va 62 48 == d.rank then bits va 47 0 else va
    let a := if (s.walk vd a0).isSome && !s.missFailed vd a0 then (a0 / 2 ^ 16 + 1) * 2 ^ 16 else a0
    if decide (a < 2 ^ 56) && walkPoisoned s a walkLevels d.root then [(vd, a)] else []

/-- The Steward is notified of a poisoned entry that a walk for an address reads (R261). -/
def State.noteWalk (s : State) (vd va : Nat) : State :=
  { s with poisonedWalks := s.poisonedWalks ++ s.walkNote vd va }

/-- The Steward is notified where a poisoned entry is why an access did not translate (R261). -/
def State.noteFlt (s : State) (vd : Nat) (x : Flt) : State := if x.cause == cXLATE then s.noteWalk vd x.faddr.toNat else s

/-- What the Steward is notified of for an access that ended with a fault. -/
def State.fltNote (s : State) (vd : Nat) (x : Flt) : List (Nat × Nat) := if x.cause == cXLATE then s.walkNote vd x.faddr.toNat else []

/-- The same where an access of `vd` at an address ended with a CAUSE. -/
def State.noteCause (s : State) (vd a c : Nat) : State := if c == cXLATE then s.noteWalk vd a else s

/-- The page of a TLB entry (R262): 64 KiB or larger, and aligned on 64 KiB (R261). -/
def TlbEntry.leaf (e : TlbEntry) : Leaf :=
  { base := e.pa >>> 16 <<< 16, sizeLog := max 16 e.sizeLog, rd := bit e.perm 0, wr := bit e.perm 1, ex := bit e.perm 2 }

/-- The page that a strand's TLBs hold for an address: its core's first, then its cluster's (R262). A Steward processor has
none. -/
def State.tlbLeaf? (s : State) (vd va : Nat) : Option Leaf :=
  let p := s.me.place
  let hit (core : Option Nat) (e : TlbEntry) : Bool :=
    e.die == p.die && e.cluster == p.core / 4 && e.core == core && e.vd == vd && va >>> e.sizeLog == e.page
  if vd == s.me.vdid.toNat && s.me.status != .idle && s.me.sid < 2 ^ 63 then
    ((s.tlb.find? (hit (some p.core))).or (s.tlb.find? (hit none))).map TlbEntry.leaf
  else none

/-- The strand has reported the fault of the walks on which its access waited: a later access looks again (R263). -/
def State.missReported (s : State) (va : Nat) : State :=
  { s with walks := (s.walks.map fun w =>
      if w.fails s.me.sid s.me.vdid.toNat va then { w with sids := w.sids.filter (· != s.me.sid) } else w).filter fun w => !(w.failed && w.sids.isEmpty) }

/-- A page of physical memory as a Steward processor at level 0 or 1 reaches it (R257, R422). -/
def physicalLeaf (pa : Nat) : Option Leaf :=
  if pa < nearSize || (farBase ≤ pa && pa < farBase + Config.farGiB * 2 ^ 30) then
    some { base := pa >>> 16 <<< 16, sizeLog := 16, rd := true, wr := true, ex := true }
  else none

/-- The page through which an access at an address goes. An access that waited on a walk that failed reports the fault (R263).
Until a page is invalidated each access uses, for itself, the mapping that a TLB holds or the one that the tables hold (R265):
`key` is the address of the access or of its element, so that one access uses one mapping. -/
def State.leaf? (s : State) (vd va key : Nat) : Option Leaf :=
  if s.me.physical && vd == s.me.vdid.toNat then physicalLeaf va
  else if s.missFailed vd va then none
  else
    match s.tlbLeaf? vd va with
    | some l => if Config.choice (s.free + 2 ^ 64 * key) % 2 = 0 then some l else s.walk vd va
    | none => s.walk vd va

def Leaf.permits (l : Leaf) : Access → Bool
  | .rd => l.rd
  | .wr => l.wr
  | .rw => l.rd && l.wr
  | .ex => l.ex

/-- Translate a virtual byte address of the access at `key`: the physical address, or the CAUSE of the fault (R261). -/
def State.translate (s : State) (vd : Nat) (acc : Access) (va : Nat) (key : Nat := va) : Except Nat Nat :=
  match s.leaf? vd va key with
  | none => .error cXLATE
  | some l => if l.permits acc then .ok (l.base + va % 2 ^ l.sizeLog) else .error cPROT

/-- Translate with FADDR the address itself. -/
def State.transAt (s : State) (vd : Nat) (acc : Access) (va : Nat) (key : Nat := va) : R Nat :=
  match s.translate vd acc va key with
  | .ok a => .ok a
  | .error c => fail c va

/-- The byte address, mod 2^64, that holds a bit address. -/
def byteOfBit (ba : Int) : Nat := lowBits 64 (ba / 8)

/-- The byte addresses that `size` bits at a bit address cover. -/
def bytesOfBits (ba : Int) (size : Nat) : List Nat :=
  (List.range (((ba % 8).toNat + size + 7) / 8)).map fun i => lowBits 64 (ba / 8 + i)

/-- Translate every byte of an element, as one access; the first byte that fails is FADDR. -/
def State.transBits (s : State) (vd : Nat) (acc : Access) (ba : Int) (size : Nat) : R (List Nat) :=
  (bytesOfBits ba size).mapM fun a => s.transAt vd acc a (byteOfBit ba)

/-! ### Element reads and write sets -/

/-- Assemble an element from its bytes: value, taint, poison. -/
def assemble (off size : Nat) (bs : List (Nat × Bool × Bool)) : Nat × Bool × Bool :=
  let x := bs.foldr (fun b n => b.1 + 256 * n) 0
  ((x >>> off) % 2 ^ size, bs.any (fun b => b.2.1), bs.any (fun b => b.2.2))

/-- A plain read of an element through the focused strand's snapshot (R282, R287). -/
def State.readElem (s : State) (vd : Nat) (ba : Int) (size : Nat) : R (Nat × Bool × Bool) := do
  let pas ← s.transBits vd .rd ba size
  return assemble (ba % 8).toNat size (pas.map s.viewByte)

/-- The present element whose bytes lie at physical addresses `pas`. -/
def State.readPhys (s : State) (pas : List Nat) (ba : Int) (size : Nat) : Nat × Bool × Bool :=
  assemble (ba % 8).toNat size (pas.map s.homeByte)

/-- A read of the present state, by a home action or an agent that is not a strand. -/
def State.readHome (s : State) (vd : Nat) (acc : Access) (ba : Int) (size : Nat) : R (Nat × Bool × Bool) := do
  let pas ← s.transBits vd acc ba size
  return s.readPhys pas ba size

/-- The Steward is notified where a poisoned page-table entry keeps a unit from a read: bytes at an address (R261). -/
def State.noteRead (s : State) (vd a n : Nat) : State :=
  match s.readHome vd .rd (8 * (a : Int)) (8 * n) with
  | .ok _ => s
  | .error x => s.noteFlt vd x

/-- The same for reads at several addresses. -/
def State.noteReads (s : State) (vd : Nat) (rs : List (Nat × Nat)) : State :=
  rs.foldl (fun (t : State) (r : Nat × Nat) => t.noteRead vd r.1 r.2) s

/-- Add bits of one granule to a write set; later writes to the same bits win. -/
def addGWrite (ws : List GWrite) (w : GWrite) : List GWrite :=
  match ws with
  | [] => [w]
  | x :: r =>
    if x.granule == w.granule then
      { granule := x.granule, mask := x.mask ||| w.mask, data := mergeBits x.data w.mask w.data,
        taint := x.taint || w.taint, poison := x.poison || w.poison } :: r
    else x :: addGWrite r w

/-- Add an element, whose bytes lie at physical addresses `pas`, to a write set. -/
def addElem (ws : List GWrite) (pas : List Nat) (off size value : Nat) (taint poison : Bool) : List GWrite :=
  let m := (2 ^ size - 1) <<< off
  let x := (value % 2 ^ size) <<< off
  pas.zipIdx.foldl (fun acc p =>
    let k := 8 * (p.1 % 32)
    addGWrite acc { granule := p.1 / 32, mask := ((m >>> (8 * p.2)) % 256) <<< k,
                    data := ((x >>> (8 * p.2)) % 256) <<< k, taint := taint, poison := poison }) ws

/-- Perform a write set as plain writes of an agent. -/
def State.writeAll (s : State) (who : Nat) (ws : List GWrite) : State :=
  ws.foldl (fun acc w => acc.writeGranule who false w) s

/-- Translate and plan the write of an element at a bit address. -/
def State.planWrite (s : State) (vd : Nat) (ws : List GWrite) (ba : Int) (size value : Nat)
    (taint poison : Bool) : R (List GWrite) := do
  let pas ← s.transBits vd .wr ba size
  return addElem ws pas (ba % 8).toNat size value taint poison

/-- A write of the Steward, which clears no taint (R387). -/
def State.keepTaint (s : State) (w : GWrite) : GWrite := { w with taint := w.taint || s.memTaint.contains w.granule }

/-- Write an element whose bytes lie at physical addresses `pas` as one step of agent `who` at their homes (R289). -/
def State.writePhys (s : State) (who : Nat) (pas : List Nat) (ba : Int) (size value : Nat) (taint poison : Bool) : State :=
  let ws := addElem [] pas (ba % 8).toNat size value taint poison
  (if who == agentSteward then ws.map s.keepTaint else ws).foldl (fun acc w => acc.writeGranule who true w) s

/-- Write an element at a home as one step of agent `who` (R289). -/
def State.writeHome (s : State) (vd who : Nat) (ba : Int) (size value : Nat) (taint poison : Bool) : R State := do
  let pas ← s.transBits vd .wr ba size
  return s.writePhys who pas ba size value taint poison

/-! ### Units of the Manifest (R389, R390) -/

/-- h(u) of a unit (R389). -/
def unitHash (a x c : Nat) : Nat := mix64 (a ^^^ mix64 (x ^^^ ((c % 256) <<< 56)))

/-- The unit of an element written at a bit address (R389). -/
def elemUnit (ba : Int) (size value : Nat) : Nat :=
  if size < 8 then unitHash (byteOfBit ba) (value ||| ((ba % 8).toNat <<< 8)) (0x80 + size)
  else unitHash (byteOfBit ba) value (size / 8)

/-- Fold a unit into the strand's digest (R390). `second` names the consumer's fold of a spliced kernel. -/
def Strand.foldUnit (st : Strand) (second : Bool) (h : Nat) (taint poison : Bool) : Strand :=
  if second then
    { st with fold2 := st.fold2 ^^^ BitVec.ofNat 64 h, fold2Taint := st.fold2Taint || taint,
              fold2Poison := st.fold2Poison || poison }
  else
    { st with fold := st.fold ^^^ BitVec.ofNat 64 h, foldTaint := st.foldTaint || taint,
              foldPoison := st.foldPoison || poison }

end Sys2Proof.Machine
end

