-- ==== Sys2Proof/Machine/Ops.lean ====
section
/-! DEFINITION. The named operations over registers and memory that the meanings share: register access with taint and
poison (R41, R42, R155, R156), special registers (R43-R46), capture and retirement of queue entries (R13-R18), and
taking a fault (R17, R178-R181, R370-R372). -/

namespace Sys2Proof.Machine

/-- What a step or a meaning answers. -/
abbrev Result := Host.Outcome State Fault Refusal

/-! ### Registers -/

/-- Read a general register; g0 reads 0, untainted and unpoisoned (R41, R155). -/
def Strand.getG (st : Strand) (n : Nat) : GReg := if n = 0 then {} else st.g[n]?.getD {}

/-- Read a predicate; q0 reads true and untainted (R41, R155). -/
def Strand.getQ (st : Strand) (n : Nat) : QReg := if n = 0 then { val := true } else st.q[n]?.getD {}

def Strand.getV (st : Strand) (n : Nat) : VReg := st.v[n]?.getD {}
def Strand.getM (st : Strand) (n : Nat) : MReg := st.m[n]?.getD {}
def Strand.getZ (st : Strand) (n : Nat) : Tile := st.z[n]?.getD {}
def Strand.getT (st : Strand) (n : Nat) : BitVec 1024 := st.t[n]?.getD 0

/-- OR flags into FLAGS; they are never cleared here (R46). -/
def Strand.raise (st : Strand) (f : Flags) : Strand := { st with flags := st.flags ||| BitVec.ofNat 16 (f % 512) }

/-- Write a general register: a write to g0 is discarded (R41); a tainted destination sets TNT (R155). -/
def Strand.setG (st : Strand) (n : Nat) (r : GReg) : Strand :=
  if n = 0 then st
  else { (st.raise (flagIf r.taint flTNT)) with g := st.g.setIfInBounds n r }

/-- Write a predicate: a write to q0 is discarded (R41); a tainted destination sets TNT (R155). -/
def Strand.setQ (st : Strand) (n : Nat) (r : QReg) : Strand :=
  if n = 0 then st
  else { (st.raise (flagIf r.taint flTNT)) with q := st.q.setIfInBounds n r }

/-- Write an array register; a mirror partner is not held apart (R61); a tainted destination sets TNT (R191). -/
def Strand.setV (st : Strand) (n : Nat) (r : VReg) : Strand :=
  { (st.raise (flagIf r.taint flTNT)) with v := st.v.setIfInBounds n r }

/-- Write a mask: a write to m0 is discarded (R41); a tainted destination sets TNT (R191). -/
def Strand.setM (st : Strand) (n : Nat) (r : MReg) : Strand :=
  if n = 0 then st
  else { (st.raise (flagIf r.taint flTNT)) with m := st.m.setIfInBounds n r }

def Strand.setZ (st : Strand) (n : Nat) (r : Tile) : Strand := { st with z := st.z.setIfInBounds n r }
def Strand.setT (st : Strand) (n : Nat) (r : BitVec 1024) : Strand := { st with t := st.t.setIfInBounds n r }

def State.raise (s : State) (f : Flags) : State := { s with me := s.me.raise f }
def State.setG (s : State) (n : Nat) (r : GReg) : State := { s with me := s.me.setG n r }
def State.setQ (s : State) (n : Nat) (r : QReg) : State := { s with me := s.me.setQ n r }
def State.setV (s : State) (n : Nat) (r : VReg) : State := { s with me := s.me.setV n r }
def State.setM (s : State) (n : Nat) (r : MReg) : State := { s with me := s.me.setM n r }
def State.setZ (s : State) (n : Nat) (r : Tile) : State := { s with me := s.me.setZ n r }
def State.setT (s : State) (n : Nat) (r : BitVec 1024) : State := { s with me := s.me.setT n r }

/-- GROWS of a residency (R19). -/
def growsOf (res : Nat) : Nat := if res = 1 then 192 else if res = 2 then 96 else 48

/-- Tiles of a strand at a residency (R19). -/
def tilesOf (res : Nat) : Nat := if res = 1 then 16 else if res = 2 then 8 else 4

def Strand.grows (st : Strand) : Nat := growsOf st.place.res

/-- The cycle counter of the die on which the strand is resident (R43, R352). -/
def State.cycleOf (s : State) (die : Nat) : Nat := (s.cyc[die]?.getD 0).toNat
def State.now (s : State) : Nat := s.cycleOf s.me.place.die

/-- The virtual device of the focused strand. -/
def State.vd (s : State) : Nat := s.me.vdid.toNat

/-- Is the POISON trap enabled for the strand's virtual device (R424)? -/
def State.poisonTrap (s : State) : Bool := ((s.vdev? s.vd).map VDev.poisonTrap).getD false

def State.setVdev (s : State) (d : VDev) : State :=
  { s with vds := s.vds.map fun x => if x.vdid == d.vdid then d else x }

def State.launch? (s : State) (lid : Nat) : Option Launch := s.launches.find? fun l => l.lid == lid

def State.setLaunch (s : State) (l : Launch) : State :=
  { s with launches := s.launches.map fun x => if x.lid == l.lid then l else x }

/-- The launch whose strand has the focus. -/
def State.myLaunch (s : State) : Launch := (s.launch? s.me.launch.toNat).getD {}

/-- Deterministic mode of a launch (R133). -/
def Launch.det (l : Launch) : Bool := bit l.record.toNat 433

/-- Let a step act with another strand in the focus, and give the focus back. -/
def State.asStrand (s : State) (sid : Nat) (g : State → State) : State :=
  if s.me.sid == sid then g s
  else
    match s.rest.find? fun x => x.sid == sid with
    | none => s
    | some st =>
      let t := g { s with me := st, rest := s.rest.map fun x => if x.sid == sid then s.me else x }
      let old := (t.rest.find? fun x => x.sid == s.me.sid).getD s.me
      { t with me := old, rest := t.rest.map fun x => if x.sid == s.me.sid then t.me else x }

/-- A field `hi:lo` of a record. -/
def fld {n : Nat} (r : BitVec n) (hi lo : Nat) : Nat := bits r.toNat hi lo

/-! ### Special registers (R43-R46) -/

/-- Is the register queue-ordered (R44)? -/
def queueOrdered (n : Nat) : Bool := [0x07, 0x08, 0x0A, 0x0B, 0x0C, 0x0D, 0x0E].contains n

/-- May SETS write the register (R43)? -/
def writableSpecial (n : Nat) : Bool :=
  [0x00, 0x01, 0x03, 0x04, 0x05, 0x06, 0x07, 0x08, 0x0B, 0x0C, 0x0D, 0x0E, 0x19, 0x1A, 0x1B, 0x1C, 0x1D,
   0x1E].contains n

/-- GETS: the register zero-extended (R43). -/
def State.readSpecial (s : State) (n : Nat) : Word :=
  let m := s.me
  match n with
  | 0x00 => m.rows.setWidth 64
  | 0x01 => m.cols.setWidth 64
  | 0x02 => BitVec.ofNat 64 m.grows
  | 0x03 => m.stripb
  | 0x04 => m.seed
  | 0x05 => m.vcfg.setWidth 64
  | 0x06 => m.amb.setWidth 64
  | 0x07 => m.flags.setWidth 64
  | 0x08 => m.prog
  | 0x09 => m.slip.setWidth 64
  | 0x0A => m.grant.setWidth 64
  | 0x0B => m.scoutb.setWidth 64
  | 0x0C => m.scoutm.setWidth 64
  | 0x0D => m.scoutt.setWidth 64
  | 0x0E => m.fthr.setWidth 64
  | 0x0F => m.phase.setWidth 64
  | 0x10 => m.vdid.setWidth 64
  | 0x11 => m.strand.setWidth 64
  | 0x12 => m.nstrand.setWidth 64
  | 0x13 => m.launch.setWidth 64
  | 0x14 => m.targ[0]?.getD 0
  | 0x15 => m.targ[1]?.getD 0
  | 0x16 => m.targ[2]?.getD 0
  | 0x17 => m.targ[3]?.getD 0
  | 0x18 => s.cyc[m.place.die]?.getD 0
  | 0x19 => m.trapv
  | 0x1A => m.epc
  | 0x1B => m.fcause.setWidth 64
  | 0x1C => m.faddr
  | 0x1D => m.fpc
  | 0x1E => m.fkern.setWidth 64
  | _ => 0

/-- A VCFG value that R45 accepts from SETS. -/
def vcfgOk (v : Nat) : Bool := decide (bits v 8 6 ≤ 5) && decide (bits v 4 0 ≤ 22)

/-- A whole VCFG from memory: bits 15:9 must be zero as well (R45). -/
def vcfgMemOk (v : Nat) : Bool := vcfgOk v && bits v 15 9 == 0

/-- SETS: the low bits of the value; ROWS takes min(GROWS, value) (R43). -/
def Strand.writeSpecial (m : Strand) (n : Nat) (v : Word) : Strand :=
  match n with
  | 0x00 => { m with rows := BitVec.ofNat 16 (min v.toNat m.grows) }
  | 0x01 => { m with cols := v.setWidth 16 }
  | 0x03 => { m with stripb := v }
  | 0x04 => { m with seed := v }
  | 0x05 => { m with vcfg := BitVec.ofNat 16 (v.toNat % 512) }
  | 0x06 => { m with amb := v.setWidth 3 }
  | 0x07 => { m with flags := BitVec.ofNat 16 (v.toNat % 512) }
  | 0x08 => { m with prog := v }
  | 0x0B => { m with scoutb := v.setWidth 32 }
  | 0x0C => { m with scoutm := v.setWidth 32 }
  | 0x0D => { m with scoutt := v.setWidth 32 }
  | 0x0E => { m with fthr := v.setWidth 48 }
  | 0x19 => { m with trapv := v }
  | 0x1A => { m with epc := v }
  | 0x1B => { m with fcause := v.setWidth 32 }
  | 0x1C => { m with faddr := v }
  | 0x1D => { m with fpc := v }
  | 0x1E => { m with fkern := v.setWidth 32 }
  | _ => m

/-! ### Messages to hosts (R416) -/

/-- The 32-byte header of a message from the device. -/
def msgHeader (kind die vd queue len : Nat) (argA : Nat) (argB : Nat := 0) : BitVec 256 :=
  BitVec.ofNat 256 (kind % 256 + (die % 4) <<< 10 + (vd % 16) <<< 12 + (queue % 32) <<< 16 +
    (len % 2 ^ 32) <<< 32 + (argA % 2 ^ 64) <<< 64 + (argB % 2 ^ 128) <<< 128)

def State.send (s : State) (o : Out) : State := { s with outbox := s.outbox ++ [o] }

/-- What a message from a peer does: nothing before the firmware runs, when the ports take only WRITE and COMMAND (R423). -/
def State.ifOpen (s : State) (r : Result) : Result := if s.firmware == .running then r else .next s

/-- A NOTICE to the endpoint that LOCK named (R415, R421). -/
def State.sendNotice (s : State) (d : VDev) (die queue tail : Nat) : State :=
  s.send (.host d.notice (msgHeader 0x82 die d.vdid queue 0 tail) [])

/-- A cancel of a level goes to the home of its counter (R28, R29). -/
def State.requestCancel (s : State) (c : Cancel) : State :=
  { s with cancels := s.cancels ++ [{ c with k := s.nextId }], nextId := s.nextId + 1 }

/-- The interface of a virtual device enters ERROR (R427). The Steward then cancels its jobs, which it can leave ERROR only
without (DESIGN CHOICE, log entry 98). -/
def State.ifaceError (s : State) (vd : Nat) : State :=
  match s.vdev? vd with
  | some d =>
    let jobs := s.counters.filter fun c => c.vd == vd && c.level == .job && !c.cancelled
    jobs.foldl (fun t c => t.requestCancel { level := .job, vd := vd, die := c.die, key := c.key }) (s.setVdev { d with iface := .error })
  | none => s

/-! ### The splice map (R366) -/

/-- The word of a spliced kernel at a splice address, if the address is one of this launch's kernel. -/
def State.spliceWord? (s : State) (lid : Nat) (pc : Word) : Option SpliceWord :=
  if !bit pc.toNat 63 then none
  else
    match s.splices.find? fun k => k.lid == lid && k.number == fld pc 62 56 with
    | some k => k.words[fld pc 55 4]?
    | none => none

/-- The original PC of a word (R366). -/
def State.originalPc (s : State) (pc : Word) : Word :=
  match s.spliceWord? s.me.launch.toNat pc with
  | some w => w.pc
  | none => pc

/-- KNUM of the kernel record that a launch record names, 0 where it cannot be read (R132). R132 and R179 do not say when
KNUM is read: the record's bytes are read as they stand at the fault (DESIGN CHOICE, log entry 87). -/
def State.knumOf (s : State) (vd : Nat) (record : BitVec 512) : BitVec 32 :=
  match s.readHome vd .rd (8 * (fld record 127 64 + 28)) 32 with
  | .ok x => BitVec.ofNat 32 x.1
  | .error _ => 0

/-- The Steward is notified where a poisoned page-table entry keeps the device from KNUM (R261). -/
def State.noteKnum (s : State) (vd : Nat) (record : BitVec 512) : State := s.noteRead vd (fld record 127 64 + 28) 4

/-- The originating kernel of a word (R179, R366). -/
def State.kernelOf (s : State) (pc : Word) : BitVec 32 :=
  match s.spliceWord? s.me.launch.toNat pc with
  | some w => w.knum
  | none => s.knumOf s.vd s.myLaunch.record

/-- The same for the kernel of a word. -/
def State.noteKernel (s : State) (pc : Word) : State :=
  if (s.spliceWord? s.me.launch.toNat pc).isSome then s else s.noteKnum s.vd s.myLaunch.record

/-- Does the word at `pc` come from the consumer of a spliced pair (R391)? -/
def State.isConsumer (s : State) (pc : Word) : Bool :=
  match s.spliceWord? s.me.launch.toNat pc with
  | some w => w.consumer
  | none => false

/-! ### Loads and stores of the scalar stream (R165, R166) -/

/-- A scalar load of `size` bytes: value, taint, poison. -/
def State.loadBytes (s : State) (va size : Nat) : R (Nat × Bool × Bool) :=
  s.readElem s.vd (8 * (va : Int)) (8 * size)

/-- A scalar store of `size` bytes by the word at the PC; it is a committed store (R389). -/
def State.storeBytes (s : State) (va size value : Nat) (taint poison : Bool) : R State := do
  let ws ← s.planWrite s.vd [] (8 * (va : Int)) (8 * size) value taint poison
  let s1 := s.writeAll (agentScalar s.me.sid) ws
  return { s1 with me := s1.me.foldUnit (s.isConsumer s.me.pc) (unitHash va (value % 2 ^ (8 * size)) size)
                     taint poison }

/-! ### Call frames and array-state words (R174-R177) -/

/-- The array-state word as the scalar stream sees the registers (R175). -/
def Strand.arrayState (m : Strand) (trap : Bool) : Nat :=
  m.rows.toNat <<< 48 + m.cols.toNat <<< 32 + m.vcfg.toNat <<< 16 + m.amb.toNat <<< 13 + b2n trap

/-- Push a frame with a return address (R176, R181): both words are stored, or neither. Taint and poison of g31 pass
to the stored return address. -/
def State.pushFrame (s : State) (ra : Word) (trap : Bool) : R State := do
  let sp := s.me.getG 31
  let f := sp.val - 16
  require (f.toNat % 16 == 0) cALIGN f.toNat
  require (decide (f.toNat < 2 ^ 56)) cXLATE f.toNat
  let w := s.me.arrayState trap
  let lo ← s.planWrite s.vd [] (8 * (f.toNat : Int)) 64 ra.toNat sp.taint sp.poison
  let hi ← s.planWrite s.vd [] (8 * ((f.toNat + 8 : Nat) : Int)) 64 w false false
  let t := (s.writeAll (agentScalar s.me.sid) lo).writeAll (agentScalar s.me.sid) hi
  let c := s.isConsumer s.me.pc
  let m := (t.me.foldUnit c (unitHash f.toNat ra.toNat 8) sp.taint sp.poison).foldUnit c
    (unitHash (f.toNat + 8) w 8) false false
  return { t with me := m.setG 31 { sp with val := f } }

/-! ### Taking a fault (R17, R178-R181, R369-R372) -/

/-- Phase number and job identifier of a launch (R418). -/
def Launch.phase (l : Launch) : Nat := fld l.header 415 384
def Launch.job (l : Launch) : Nat := fld l.header 383 352

/-- The key of a launch's graph: GRAPH, or the launch itself where GRAPH is 0 (R418). -/
def Launch.graph (l : Launch) : Nat × Nat :=
  if fld l.header 447 416 == 0 then (l.lid, 1) else (fld l.header 447 416, 0)

/-- The key of the level that contains a launch: launch identifier, graph, phase (with its job), job (R25, R418). -/
def cancelOf (l : Launch) (level : Level) (die : Nat) : Cancel :=
  match level with
  | .launch => { level := level, vd := l.vd, die := die, key := l.lid }
  | .graph => { level := level, vd := l.vd, die := die, key := l.graph.1, key2 := l.graph.2 }
  | .phase => { level := level, vd := l.vd, die := die, key := l.phase, key2 := l.job }
  | .job => { level := level, vd := l.vd, die := die, key := l.job }

/-- ENGW of a launch (R133). -/
def Launch.engw (l : Launch) : Nat := fld l.record 425 423

/-- A RUNNING launch becomes PARKED when its first strand parks, and ages from PRIO (R353, R354). -/
def Launch.park (l : Launch) (now : Nat) : Launch :=
  if l.state == .running then { l with state := .parked, since := now, aged := 0 } else l

/-- The fault record of 64 bytes (R370). -/
def faultRecord (cyc epc fpc faddr : Word) (fkern : BitVec 32) (launch fcause : BitVec 32) (strand : Nat)
    (vd die : Nat) (hnd : Bool) : Nat :=
  cyc.toNat <<< 448 + epc.toNat <<< 384 + fpc.toNat <<< 320 + faddr.toNat <<< 256 + fkern.toNat <<< 224 +
    launch.toNat <<< 192 + fcause.toNat <<< 160 + (strand % 1024) <<< 150 + (vd % 16) <<< 146 +
    (die % 4) <<< 144 + b2n hnd

/-- LOST gains 1 and saturates (R371). -/
def VDev.loseRecord (d : VDev) : VDev := { d with lost := if d.lost == BitVec.allOnes 32 then d.lost else d.lost + 1 }

/-- The Steward writes a fault record to its ring, whose pages need RD and WR (R371). -/
def State.ringWrite (s : State) (vd addr record : Nat) : R State := do
  let _ ← s.transBits vd .rw (8 * (addr : Int)) 512
  s.writeHome vd agentSteward (8 * (addr : Int)) 512 record false false

/-- The Steward writes a record to the fault queue and sends its NOTICE (R371). -/
def State.queueRecord (s : State) (vd die record : Nat) : State :=
  match s.vdev? vd with
  | none => s
  | some d =>
    match d.faultDesc with
    | none => s.setVdev d.loseRecord
    | some da =>
      match s.readHome vd .rw (8 * (da.toNat : Int)) 512 with
      | .error x => (s.noteFlt vd x).ifaceError vd
      | .ok desc =>
        let x := desc.1
        let ring := bits x 511 448
        let tail := bits x 447 416
        let head := bits x 415 384
        let log := bits x 259 256
        if (tail + 2 ^ 32 - head) % 2 ^ 32 == 2 ^ log then
          let lost := min (bits x 383 352 + 1) (2 ^ 32 - 1)
          match s.writeHome vd agentSteward (8 * ((da.toNat + 44 : Nat) : Int)) 32 lost false false with
          | .error x => (s.noteFlt vd x).ifaceError vd
          | .ok s1 => s1.setVdev { d with lost := BitVec.ofNat 32 lost }
        else
          match s.ringWrite vd (ring + 64 * (tail % 2 ^ log)) record with
          | .error x => (s.noteFlt vd x).ifaceError vd
          | .ok s1 =>
            match s1.writeHome vd agentSteward (8 * ((da.toNat + 52 : Nat) : Int)) 32 ((tail + 1) % 2 ^ 32) false false with
            | .error x => (s.noteFlt vd x).ifaceError vd
            | .ok s2 => s2.sendNotice d die 16 ((tail + 1) % 2 ^ 32)

/-- FCAUSE of a fault (R178). -/
def fcauseOf (cause code : Nat) : BitVec 32 := BitVec.ofNat 32 (cause % 2 ^ 16 + (code % 2 ^ 16) <<< 16)

/-- The action that the fault policy holds for a CAUSE: 0 cancel the launch, 1 park, 2 cancel the graph, 3 cancel the
job (R424). BRK parks where no debugger is attached (R183, R372); no rule says how one is attached, and none ever is (DESIGN CHOICE,
log entry 129). -/
def policyOf (d : Option VDev) (cause : Nat) : Nat :=
  if cause == cBRK then 1
  else bits ((d.map VDev.policy).getD 0).toNat (2 * cause + 1) (2 * cause)

/-- The strand is switched out: its slot is free, and it keeps where it stood (R36, R375). The counts of a time-out
and of the watchdog stop (R37, R373): `issued` holds the watchdog's count while the strand is parked. -/
def Strand.switchOut (st : Strand) (byPolicy : Bool) (now : Nat) : Strand :=
  { st with
    status := .parked byPolicy, halted := st.status == .halted, left := some st.place, preempt := none, after := []
    issued := now - st.issued
    sleep := st.sleep.map fun z => { before := z.before + (now - z.since), since := 0 } }

/-- The captured general registers by slot. -/
def Entry.gd (e : Entry) : GReg := e.gv[0]?.getD {}
def Entry.ga (e : Entry) : GReg := e.gv[1]?.getD {}
def Entry.gb (e : Entry) : GReg := e.gv[2]?.getD {}
def Entry.gc (e : Entry) : GReg := e.gv[3]?.getD {}
def Entry.ge (e : Entry) : GReg := e.gv[4]?.getD {}

/-- The token record of an engine instruction: none where slot D names g0. -/
def tokenOf (f : Fields) (e : Entry) : Option Nat := if f.d == 0 then none else some e.gd.val.toNat

/-- Is this the reservation of a launch in a cluster of a die? -/
def Reservation.isOf (r : Reservation) (lid die cluster : Nat) : Bool := r.lid == lid && r.die == die && r.cluster == cluster

/-- The reservation of the focused strand's launch in its cluster, unless it was taken. -/
def State.myReservation? (s : State) : Option Reservation :=
  s.reservations.find? fun r => r.isOf s.me.launch.toNat s.me.place.die (s.me.place.core / 4) && !r.taken

def State.putReservation (s : State) (r : Reservation) : State :=
  { s with reservations := s.reservations.map fun x => if x.isOf r.lid r.die r.cluster then r else x }

/-- A pause of COPY and SEND: progress goes to DONE, or stays in the context (R300, R316). -/
def State.pauseWork (s : State) (w : Work) : State × Work :=
  if w.kind == .copy || w.kind == .send then
    let s1 := match tokenOf (fieldsOf w.entry.word) w.entry with
      | none => s
      | some a =>
        match s.transAt s.vd .rw a with
        | .error x => s.noteFlt s.vd x
        | .ok pa => s.writeGranule (agentWork w.k) false
            { granule := pa / 32, mask := (2 ^ 64 - 1) <<< 128, data := (w.done % 2 ^ 64) <<< 128, taint := false, poison := false }
    (s1, { w with paused := true })
  else (s, w)

/-- A PLOAD that stops leaves its slot or part invalid, whatever columns it holds by then (R340). -/
def State.stopLoad (s : State) (w : Work) : State :=
  let tw := w.target.toNat
  let slot := bits tw 6 0
  let s1 := match s.myReservation? with
    | none => s
    | some r =>
      s.putReservation
        (if bit tw 7 then (if bit tw 0 then { r with part1 := {} } else { r with part0 := {} })
         else { r with slots := r.slots.set slot { r.slots.getD slot {} with valid := false } })
  { s1 with me := { s1.me with work := s1.me.work.filter fun x => x.k != w.k } }

/-- Entries that go back to the image are the oldest, but for a head that has stopped part of its way, which must head the
image to go on from PROG (R17, R236, R349). -/
def requeue (loads queue : List Entry) (stopped : Bool) : List Entry :=
  match queue with
  | e :: r => if stopped && (opOf e.word == 0xBA || opOf e.word == 0x5C || 0x70 ≤ opOf e.word && opOf e.word ≤ 0x81) then e :: (loads ++ r) else loads ++ queue
  | [] => loads

/-- The focused strand is switched out (R372, R375): its plane loads stop, and their entries are reissued whole (R340); its
COPY and SEND pause; it waits on no page walk any more. `atHead` says that the head of its queue has come to a fault. -/
def State.switchOutMe (s : State) (byPolicy atHead : Bool) : State :=
  let loads := s.me.work.filter fun w => w.kind == .pload
  let s1 := loads.foldl State.stopLoad s
  let r := s1.me.work.foldl (fun (acc : State × List Work) w =>
    let p := acc.1.pauseWork w
    (p.1, acc.2 ++ [p.2])) (s1, [])
  let q := requeue (loads.map Work.entry) s.me.queue ((s.me.reissued || atHead) && s.me.prog != 0)
  { r.1 with
    me := { r.1.me with work := r.2, queue := q, pend := none }.switchOut byPolicy s.now
    walks := (r.1.walks.map fun w => { w with sids := w.sids.filter (· != s.me.sid) }).filter fun w => !(w.failed && w.sids.isEmpty) }

/-- A slot that a strand leaves is kept for the launch that wanted it (R374, R380). -/
def Launch.keepSlot (l : Launch) (st : Strand) : Launch :=
  if st.preempt == some l.lid then { l with held := (st.place.die, st.place.core, st.place.slot) :: l.held } else l

/-- The launches keep the slot of a strand that leaves it for a pre-emptor (R380). -/
def State.keepSlot (s : State) (st : Strand) : State := { s with launches := s.launches.map fun l => l.keepSlot st }

/-- A fault goes to the Steward scheduler: record, notice, and the action of the policy (R370-R372). A victim that parks so counts
as switched out (R380). -/
def State.stewardFault (s : State) (p : Pend) : State :=
  let m := s.me
  let fc := fcauseOf p.cause p.code
  let rec0 := faultRecord (s.cyc[m.place.die]?.getD 0) p.epc m.fpc p.faddr m.fkern m.launch fc m.strand.toNat
    m.vdid.toNat m.place.die m.hnd
  let s1 := s.queueRecord s.vd m.place.die rec0
  let l := s1.myLaunch
  let stop (lv : Level) : State :=
    let s2 := s1.requestCancel { cancelOf l lv m.place.die with fault := some (fc, l.lid) }
    { s2 with me := { s2.me with status := .cancelled, queue := [], sleep := none } }
  match policyOf (s1.vdev? s.vd) p.cause with
  | 1 =>
    let s2 := s1.switchOutMe true p.isArray
    State.keepSlot ({ s2 with me := { s2.me with halted := false, pc := p.epc } }.setLaunch (l.park (s.cycleOf l.die))) m
  | 2 => stop .graph
  | 3 => stop .job
  | _ => stop .launch

/-- A fault is taken (R179-R181): the fault registers are set; the fault goes to the strand's handler where R180
allows it and the push does not fault, and to the Steward scheduler otherwise. A strand that had halted fetches its
handler (R184). The Steward hears of a poisoned page-table entry (R261), and a failed walk has been reported (R263). -/
def State.takeFault (s : State) (p : Pend) : State :=
  let s0 := { s with
    poisonedWalks := (s.noteKernel p.fpc).poisonedWalks ++ if p.cause == cXLATE then s.walkNote s.vd p.faddr.toNat else []
    walks := if p.cause == cXLATE then (s.missReported p.faddr.toNat).walks else s.walks
    me := { s.me with
      fpc := s.originalPc p.fpc, faddr := p.faddr, fkern := s.kernelOf p.fpc, epc := p.epc
      pend := none, sleep := none, blocked := none } }
  let handler := p.cause != cBRK && p.cause != cPRIV && p.cause != cMANIFEST && p.cause != cWATCHDOG
  if s.me.trapv != 0 && !s.me.hnd && handler && !((s.me.getG 31).poison && s.poisonTrap) then
    match s0.pushFrame p.epc true with
    | .ok s1 =>
      { s1 with
        me := { (s1.me.raise (flagIf (s.me.getG 31).poison flPSN)) with
          fcause := fcauseOf p.cause p.code, image := s1.me.queue, queue := [], reissued := false
          hnd := true, status := .running, pc := s.me.trapv } }
    | .error x => (s0.noteFlt s.vd x).stewardFault p
  else s0.stewardFault p

/-- A fault of the scalar stream at the instruction at the PC (R17, R179): older entries complete first. -/
def State.scalarFault (s : State) (e : Flt) : Result :=
  let epc := if e.cause == cTRAP || e.cause == cBRK then s.me.pc + 16 else s.me.pc
  let p : Pend := { cause := e.cause, code := e.code, faddr := e.faddr, fpc := s.me.pc, epc := epc }
  if s.me.queue.isEmpty then .next (s.takeFault p)
  else .next { s with me := { s.me with pend := some p } }

/-- A fault of the entry at the head of the queue (R17, R179): EPC is the scalar stream's next PC. -/
def State.arrayFault (s : State) (e : Entry) (x : Flt) : State :=
  s.takeFault { isArray := true, cause := x.cause, code := x.code, faddr := x.faddr, fpc := e.pc, epc := s.me.pc }

/-! ### Guards, TNT and the run of a scalar instruction -/

/-- The guard of R94: predicate GS[2:0], negated by GS[3]. -/
def Strand.guard (st : Strand) (gs : BitVec 4) : Bool := (st.getQ (bits gs.toNat 2 0)).val != bit gs.toNat 3

/-- Does the word trap on a tainted source (R99, R100)? -/
def trapsTaint (f : Fields) : Bool := bit f.sched.toNat 2

/-- The PC advances by 16, and the strand has issued (R89, R373). -/
def State.advance (s : State) : State := { s with me := { s.me with pc := s.me.pc + 16, issued := s.now } }

/-- The PC moves to an address. -/
def State.jump (s : State) (a : Word) : State := { s with me := { s.me with pc := a, issued := s.now } }

/-- Run a scalar instruction (R94, R100, R154-R156): a false guard only advances the PC; a tainted source under TNT
raises TAINT; a poisoned source sets PSN, or raises POISON before any effect where the trap is enabled; then the
body acts, and its fault leaves the state as it was. The spec does not order the faults of one scalar instruction:
TAINT is found before POISON, and both of the registers before the faults of the body (DESIGN CHOICE, log entry 88). -/
def runScalar (f : Fields) (s : State) (gs qs : List Nat) (body : State → R State) : Result :=
  if !s.me.guard f.gs then .next s.advance
  else if trapsTaint f && (gs.any (fun n => (s.me.getG n).taint) || qs.any (fun n => (s.me.getQ n).taint) ||
      (s.me.getQ (bits f.gs.toNat 2 0)).taint) then s.scalarFault { cause := cTAINT }
  else
    let psn := gs.any fun n => (s.me.getG n).poison
    if psn && s.poisonTrap then s.scalarFault { cause := cPOISON }
    else
      match body (s.raise (flagIf psn flPSN)) with
      | .ok t => .next t
      | .error e => s.scalarFault e

/-- The register written by a scalar instruction from its general and predicate sources (R155, R156). -/
def Strand.fromSources (st : Strand) (gs qs : List Nat) (v : Word) : GReg :=
  { val := v, taint := gs.any (fun n => (st.getG n).taint) || qs.any (fun n => (st.getQ n).taint),
    poison := gs.any fun n => (st.getG n).poison }

/-- A scalar instruction that writes g[D] from general registers (R154). -/
def scalarG (f : Fields) (s : State) (gs : List Nat) (val : Strand → Word × Flags) : Result :=
  runScalar f s gs [] fun t =>
    let r := val t.me
    .ok ((t.raise r.2).setG f.d.toNat (t.me.fromSources gs [] r.1)).advance

/-- A scalar instruction that writes q[D] (R154). -/
def scalarQ (f : Fields) (s : State) (gs qs : List Nat) (val : Strand → Bool × Flags) : Result :=
  runScalar f s gs qs fun t =>
    let r := val t.me
    .ok ((t.raise r.2).setQ f.d.toNat
      { val := r.1, taint := (t.me.fromSources gs qs 0).taint }).advance

/-! ### The array queue (R13-R18) -/

/-- Does an array-class word read the general register that slot D, A, B, C or E names (R14)? A TAINT that clears reads none. -/
def readsG (op : Nat) (f : Fields) : List Bool :=
  match opSpec (BitVec.ofNat 8 op) f with
  | none => [false, false, false, false, false]
  | some s =>
    let is (c : Cls) : Bool := match c with
      | .g => true
      | _ => false
    [is s.d && [0x9B, 0x9D, 0x9E, 0x9F].contains op, is s.a && !(op == 0xA5 && bit f.fn.toNat 0), is s.b, is s.c, is s.e && op == 0x66]

/-- The general register that the pointer slot `k` of SETL names (R194). -/
def setlReg (imm k : Nat) : Nat := bits imm (8 * k + 4) (8 * k)

/-- The rounding code that an RND field selects, VCFG.DRND for DYN (R73). -/
def rndCode (rnd vcfg : Nat) : Nat := if rnd == 6 then bits vcfg 8 6 else rnd

/-- Which captured fields an array-class word reads; the others hold 0 in its entry (R18). -/
structure Reads where
  amb : Bool
  vcfg : Bool
  /-- SEED and STRIPB, for the random words of stochastic rounding (R76). -/
  sr : Bool
  stripb : Bool
  rows : Bool
  cols : Bool
  grows : Bool
  fthr : Bool
  deriving DecidableEq, Repr

/-- Does a word take the shape (ROWS, COLS) or one of its extents: a strip, accumulator rows and columns, or the shape of m0
where no other mask gives one (R56, R219, R225)? -/
def readsStrip (op : Nat) (f : Fields) : Bool :=
  if op == 0x5D || op == 0x5E || op == 0x5F then f.a == 0 && f.b == 0
  else if op == 0x60 || op == 0x61 || op == 0x62 then f.a == 0
  else if op == 0x67 then bit f.fn.toNat 0 && f.a == 0
  else [0x40, 0x41, 0x42, 0x43, 0x45, 0x9C, 0xB4, 0xB5, 0xB6, 0xBA].contains op

/-- Does a word use the block size of VCFG for block scales (R45, R71)? -/
def readsBlk (op : Nat) (f : Fields) : Bool :=
  if op == 0x5A || op == 0xB2 || op == 0xB3 then Fmt.isK f.fn.toNat
  else (op == 0x41 || op == 0x42 || op == 0x59 || op == 0x9B) && Fmt.isK f.fmt.toNat

/-- Does a word bound a register's capacity, a unit or a grant by GROWS (R50, R195, R234)? -/
def readsGrows (op : Nat) (f : Fields) : Bool :=
  if op == 0x9B then bits f.fn.toNat 1 0 != 0
  else (0x40 ≤ op && op < 0x90 && op != 0x61 && op != 0x62 && op != 0x67) ||
    [0x97, 0x99, 0x9D, 0xB3, 0xB4, 0xB5, 0xB6, 0xB7, 0xB9, 0xBA].contains op

/-- The fields that a word of opcode `op` reads (R14, R18): SEED and STRIPB where it accepts RND and that is sr, whether or not its
operation rounds (DESIGN CHOICE, log entry 139); AMB where it has masks (R56); VCFG for DYN rounding, for the
block size of a block format and by SETL; STRIPB by SETL, VIOTA and sums keyed on it (R206, R241), those of SCATA in a launch with
DET alone (R254); FTHR for a VLD with HINT norm (R202). RND of a VCVT to b1 has no effect (R189), and CRED never rounds
stochastically (R301). -/
def readsOf (op : Nat) (f : Fields) (vcfg : Nat) (det : Bool) : Reads :=
  let k := opSpec (BitVec.ofNat 8 op) f
  let rounds := (k.map fun x => x.rnd).getD false && !(op == 0x58 && f.fmt == 13)
  let sr := rounds && rndCode f.rnd.toNat vcfg == 5 && op != 0x9E
  { amb := (k.map fun x => x.mask).getD false
    vcfg := (rounds && f.rnd == 6) || readsBlk op f || [0x40, 0xB4, 0xB5, 0xBA].contains op
    sr := sr
    stripb := sr || op == 0x40 || op == 0x45 || (op == 0x7F && det) || (op == 0x70 && !bit f.fn.toNat 1 && bits f.fn.toNat 7 6 != 2)
    rows := readsStrip op f
    cols := readsStrip op f && op != 0xB4 && op != 0xB5 && op != 0xBA
    grows := readsGrows op f
    fthr := op == 0x41 && f.hint == 0 }

/-- A captured field, or 0 where the word does not read it. -/
def keepIf {w : Nat} (c : Bool) (x : BitVec w) : BitVec w := if c then x else 0

/-- Capture an entry as it enters the focused strand's queue (R14, R18). -/
def State.capture (s : State) (op : BitVec 8) (f : Fields) : Entry :=
  let st := s.me
  let slots := [f.d.toNat, f.a.toNat, f.b.toNat, f.c.toNat, f.e.toNat]
  let five : List GReg := (slots.zip (readsG op.toNat f)).map fun p => if p.2 then st.getG p.1 else {}
  let gv : List GReg :=
    if op == 0x40 then five.take 4 ++ (List.range 4).map fun k => st.getG (setlReg f.imm.toNat k)
    else five ++ List.replicate 3 ({} : GReg)
  let gq := bits f.gs.toNat 2 0
  let r := readsOf op.toNat f st.vcfg.toNat s.myLaunch.det
  { word := packWord op f
    pc := st.pc
    gv := (Vector.range 8).map fun i => (gv[i]?).getD {}
    qv := if gq == 0 then 0 else BitVec.ofNat 8 (b2n (st.getQ gq).val <<< gq)
    qt := if gq == 0 then 0 else BitVec.ofNat 8 (b2n (st.getQ gq).taint <<< gq)
    amb := keepIf r.amb st.amb
    vcfg := keepIf r.vcfg st.vcfg
    rows := keepIf r.rows st.rows
    cols := keepIf r.cols st.cols
    grows := keepIf r.grows (BitVec.ofNat 16 st.grows)
    fthr := keepIf r.fthr st.fthr
    stripb := keepIf r.stripb st.stripb
    seed := keepIf r.sr st.seed
    mark := st.sseq }

/-- The 1,024 bits of a captured entry (R18). -/
def Entry.pack (e : Entry) : BitVec 1024 :=
  let gp := (List.range 8).foldl (fun acc j =>
    let r := e.gv[j]?.getD {}
    acc + (b2n r.taint) <<< (2 * j) + (b2n r.poison) <<< (2 * j + 1)) 0
  let gvs := (List.range 8).foldl (fun acc j => acc + (e.gv[j]?.getD {}).val.toNat <<< (64 * j)) 0
  BitVec.ofNat 1024 (e.pc.toNat <<< 960 + e.seed.toNat <<< 896 + e.stripb.toNat <<< 832 + e.fthr.toNat <<< 752 +
    e.grows.toNat <<< 736 + e.cols.toNat <<< 720 + e.rows.toNat <<< 704 + e.vcfg.toNat <<< 688 +
    e.amb.toNat <<< 672 + e.qt.toNat <<< 664 + e.qv.toNat <<< 656 + gp <<< 640 + gvs <<< 128 + e.word.toNat)

/-- Does the scalar stream fetch nothing beyond the instruction until it completes (R15, R281, R284, R303, R338)? -/
def holdsStream (op : Nat) (f : Fields) : Bool :=
  [0x40, 0x61, 0x62, 0x64, 0x67, 0x7B, 0x92, 0x93, 0x94, 0x96, 0x97, 0x98, 0x99, 0xA2, 0xA4, 0xB0, 0xB1, 0xB9, 0xBA].contains op ||
    (op == 0x90 && bit f.fn.toNat 4) || (op == 0x91 && bit f.fn.toNat 0) || (op == 0xA5 && !bit f.fn.toNat 0)

/-- A queued word that holds the scalar stream. -/
def Entry.holds (e : Entry) : Bool := holdsStream (opOf e.word).toNat (fieldsOf e.word)

/-- The oldest entry leaves the queue (R13); the work that it leaves behind, if any, has a number from `first` on (R99). -/
def State.retire (s : State) (first : Nat) : State :=
  { s with me := { s.me with
      queue := s.me.queue.tail, reissued := false, sleep := none, issued := s.now
      lastWork := (s.me.work.find? fun w => decide (first ≤ w.k)).map Work.k } }

/-- May the entries of the strand issue? Those of a strand that is switched out or has ended do not (R16, R375). -/
def Strand.issues (st : Strand) : Bool := st.status == .running || st.status == .halted

/-- May the head of the focused strand's queue be woken: the strand issues, it is not asked to stop, and no fault of that entry
is pending (R17, R37, R375)? -/
def State.mayWake (s : State) : Bool := s.me.issues && s.me.preempt.isNone && !(s.me.pend.any Pend.isArray)

/-- How an entry at the head of the queue fares when it is served. -/
inductive Served where
  /-- It completes for every element. -/
  | done (s : State)
  /-- It stays at the head: it sleeps, or waits for other work. -/
  | wait (s : State)
  /-- It stops at a fault, with the partial effects its description names. -/
  | stop (s : State) (x : Flt)

/-- A body that either completes or faults before any effect. -/
def Served.ofR (s : State) (r : R State) : Served :=
  match r with
  | .ok t => .done t
  | .error x => .stop s x

/-- The array registers that a word names (R61). -/
def namedV (op : Nat) (f : Fields) : List Nat :=
  match opSpec (BitVec.ofNat 8 op) f with
  | none => []
  | some s =>
    ([(s.d, f.d), (s.a, f.a), (s.b, f.b), (s.c, f.c), (s.e, f.e)].filter fun p => match p.1 with
      | .v => true
      | _ => false).map fun p => p.2.toNat

/-- The tiles that a word names (R41). -/
def namedZ (op : Nat) (f : Fields) : List Nat :=
  match opSpec (BitVec.ofNat 8 op) f with
  | none => []
  | some s =>
    ([(s.d, f.d), (s.a, f.a)].filter fun p => match p.1 with
      | .z => true
      | _ => false).map fun p => p.2.toNat

/-- What the stores of this pass of a spliced body captured, with that of an entry that enters the queue: a TID-form VST of the
body adds its own (R363). -/
def State.storeCaptured (s : State) (e : Entry) (f : Fields) : List SpliceStore :=
  match s.spliceWord? s.me.launch.toNat e.pc with
  | some w =>
    if w.body && opOf e.word == 0x42 && !bit f.fn.toNat 0 then
      { pc := w.pc, vreg := f.d.toNat, row0 := e.gb.val, col0 := e.gc.val, rows := e.rows, cols := e.cols, amb := e.amb } ::
        s.me.spliced
    else s.me.spliced
  | none => s.me.spliced

/-- Place a word at the tail of the queue (R13, R14): a tile beyond the share is ILLEGAL at decode (R110); with SLIP
entries held the stream stalls; an entry whose guard is false retires at once. Answers the entry when it was held. -/
def State.enter (s : State) (op : BitVec 8) (f : Fields) : Except Result (State × Entry) :=
  if (namedZ op.toNat f).any fun n => decide (tilesOf s.me.place.res ≤ n) then
    .error (s.scalarFault { cause := cILLEGAL })
  else if decide ((if s.me.slip.toNat = 0 then 64 else s.me.slip.toNat) ≤ s.me.queue.length) then .error (.next s)
  else if !s.me.guard f.gs then .error (.next s.advance)
  else
    let e := s.capture op f
    let t := s.advance
    .ok ({ t with me := { t.me with queue := t.me.queue ++ [e], spliced := s.storeCaptured e f } }, e)

/-! ### Rounding fields -/

/-- The mode of a scalar f32 instruction: sr rounds as rne (R73). -/
def Strand.scalarRnd (st : Strand) (f : Fields) : Rnd :=
  let c := rndCode f.rnd.toNat st.vcfg.toNat
  { code := if c == 5 then 0 else c }

/-- The rounding of element `i` of an array instruction (R73, R76). -/
def Entry.rnd (e : Entry) (f : Fields) (i : Nat) : Rnd :=
  let c := rndCode f.rnd.toNat e.vcfg.toNat
  { code := c, word := if c == 5 then srWord e.seed.toNat e.stripb.toNat i else 0 }

/-- Mode fields of element `i` at a format. -/
def Entry.mode (e : Entry) (f : Fields) (fmt i : Nat) : Mode :=
  { fmt := fmt, rnd := e.rnd f i, fsi := f.fsi, fso := f.fso, sat := f.sat }

/-- BLK of the captured VCFG (R45). -/
def Entry.blk (e : Entry) : Nat := if bit e.vcfg.toNat 5 then 32 else 16

end Sys2Proof.Machine
end

