-- ==== Sys2Proof/Machine/Operands.lean ====
section
/-! DEFINITION. Operand forms: shapes, frames, cells and agreement (R48-R58), array registers, masks and general
registers as sources of elements, results with their inactive positions, taint and poison (R190, R191), tensor
identifier entries with their addresses (R63-R65, R71), and serving a queue entry (R13, R16, R283). -/

namespace Sys2Proof.Machine

/-! ### Shapes (R48, R52, R53) -/

/-- Element count of a shape. -/
def count (sh : List Nat) : Nat := sh.foldl (· * ·) 1

/-- Rank of a cell (R52). -/
def cellRank (k r : Nat) : Nat :=
  if k ≤ 4 then min k r else if k == 5 then r - 1 else if k == 6 then r - 2 else r

def frameOf (k : Nat) (sh : List Nat) : List Nat := sh.take (sh.length - cellRank k sh.length)
def cellOf (k : Nat) (sh : List Nat) : List Nat := sh.drop (sh.length - cellRank k sh.length)

/-- Agreement: one shape is a prefix of the other; the longer is the result (R53). -/
def agree (f g : List Nat) : R (List Nat) :=
  if f.isPrefixOf g then .ok g else if g.isPrefixOf f then .ok f else fail cAGREE

/-- Row-major index of an index list. -/
def ravel (sh idx : List Nat) : Nat := (sh.zip idx).foldl (fun acc p => acc * p.1 + p.2) 0

/-- Index list of a row-major index. -/
def unravel (sh : List Nat) (i : Nat) : List Nat :=
  (sh.foldr (fun n acc => ((acc.2 % n) :: acc.1, acc.2 / n)) (([] : List Nat), i)).1

/-- The element of an operand with frame `fr` and cell `ce` that result element `i` of shape F ++ C selects (R54). -/
def selectElem (f c fr ce : List Nat) (i : Nat) : Nat :=
  let idx := unravel (f ++ c) i
  ravel (fr ++ ce) ((idx.take f.length).take fr.length ++ (idx.drop f.length).take ce.length)

/-- Capacity in elements of a register at a format of `z` bits (R50). -/
def capacity (grows z : Nat) : Nat := grows * 2048 / z

/-! ### Sources -/

/-- An element with the taint and poison of what it was read from. -/
structure Elt where
  val : Nat := 0
  taint : Bool := false
  poison : Bool := false
  deriving DecidableEq, Repr, Inhabited

/-- Is any row that bits `lo` to `lo + z - 1` touch poisoned? -/
def rowsPoisoned (p lo z : Nat) : Bool := bits p ((lo + z - 1) / 2048) (lo / 2048) != 0

/-- Element `i` of an array register at `z` bits (R48). -/
def VReg.elem (v : VReg) (z i : Nat) : Elt :=
  { val := (v.buf >>> (i * z)) % 2 ^ z, taint := v.taint, poison := rowsPoisoned v.poison (i * z) z }

/-- A source of an elementwise instruction: its shape and its elements (R54, R190). -/
structure Source where
  shape : List Nat
  elem : Nat → Elt

def VReg.source (v : VReg) (z : Nat) : Source := { shape := v.shape, elem := v.elem z }

/-- A general register as a rank-0 source, read from its low bits (R93). -/
def GReg.source (g : GReg) (z : Nat) : Source :=
  { shape := [], elem := fun _ => { val := g.val.toNat % 2 ^ z, taint := g.taint, poison := g.poison } }

/-- Slot `v` or the captured general register, by a kind bit (R93). -/
def pickSource (s : State) (isG : Bool) (g : GReg) (n z : Nat) : Source :=
  if isG then g.source z else (s.me.getV n).source z

/-- A source register must fit at its format (R50). -/
def fitsSource (grows z : Nat) (src : Source) : R Unit := require (decide (count src.shape ≤ capacity grows z)) cCAPACITY

/-! ### Masks (R56) -/

/-- The number and complement of the GM mask. -/
def gmOf (f : Fields) : Nat × Bool := (bits f.gm.toNat 2 0, bit f.gm.toNat 3)

/-- Is position `idx` set in mask `n`? m0 is all ones. -/
def maskBit (s : State) (n : Nat) (idx : List Nat) : Bool :=
  if n == 0 then true
  else
    let m := s.me.getM n
    bit m.buf (ravel m.shape (idx.take m.shape.length))

/-- A mask's shape must be a prefix of S; m0 agrees with every shape. -/
def maskAgrees (s : State) (n : Nat) (sh : List Nat) : R Unit :=
  require (n == 0 || (s.me.getM n).shape.isPrefixOf sh) cAGREE

/-- Both masks must agree with S (R56). -/
def checkMasks (s : State) (e : Entry) (f : Fields) (sh : List Nat) : R Unit := do
  maskAgrees s (gmOf f).1 sh
  maskAgrees s e.amb.toNat sh

/-- Is one of the masks that select elements tainted: GM, AMB, and mA of a VSEL (opcode 0x57)? They give no taint to a
result (DEDUCED, log entry 38; R210), but a word with TNT reads them where an element is active (R100). -/
def State.masksTainted (s : State) (e : Entry) (f : Fields) : Bool :=
  ([(gmOf f).1, e.amb.toNat] ++ if opOf e.word == 0x57 then [f.a.toNat] else []).any fun n => n != 0 && (s.me.getM n).taint

/-- Is element `i` of S active (R56)? -/
def isActive (s : State) (e : Entry) (f : Fields) (sh : List Nat) (i : Nat) : Bool :=
  let idx := unravel sh i
  (maskBit s (gmOf f).1 idx != (gmOf f).2) && maskBit s e.amb.toNat idx

/-! ### Results -/

/-- Elements `0, 1, …` of `z` bits as one number. -/
def packElems (z : Nat) (xs : List Nat) : Nat := xs.foldr (fun x acc => x % 2 ^ z + acc <<< z) 0

/-- What position `i` of the destination holds after the write: the new element, or by R56 the old one or 0 bits. -/
def keepOld (old : VReg) (z i : Nat) (x : Option Elt) : Elt :=
  match x with
  | some y => y
  | none => if i < count old.shape then old.elem z i else {}

/-- Poison of each row: the rows that a poisoned element touches. -/
def poisonRows (z : Nat) (els : List Elt) : Nat :=
  els.zipIdx.foldl (fun acc p =>
    if p.1.poison then
      let lo := p.2 * z / 2048
      let hi := (p.2 * z + z - 1) / 2048
      acc ||| ((2 ^ (hi + 1 - lo) - 1) <<< lo)
    else acc) 0

/-- An array register written with shape S and elements of `z` bits, none where a position is inactive (R51, R56,
R191). The buffer beyond the new count keeps its bits. -/
def VReg.write (old : VReg) (z : Nat) (sh : List Nat) (xs : List (Option Elt)) : VReg :=
  let els := xs.zipIdx.map fun p => keepOld old z p.2 p.1
  let n := xs.length * z
  let rows := (n + 2047) / 2048
  { shape := sh
    buf := packElems z (els.map Elt.val) + ((old.buf >>> n) <<< n)
    wsize := z
    taint := els.any Elt.taint
    poison := poisonRows z els + ((old.poison >>> rows) <<< rows) }

/-- A mask written with shape S and bits, none where a position is inactive (R51, R56, R191). -/
def MReg.write (old : MReg) (sh : List Nat) (xs : List (Option Elt)) : MReg :=
  let els := xs.zipIdx.map fun p => match p.1 with
    | some y => y
    | none => if p.2 < count old.shape then { val := b2n (bit old.buf p.2), taint := old.taint } else {}
  let n := xs.length
  { shape := sh
    buf := packElems 1 (els.map Elt.val) + ((old.buf >>> n) <<< n)
    taint := els.any Elt.taint }

/-- Captured general registers that the word reads, as address, stride, origin or count (R191). -/
def gvTainted (e : Entry) : Bool := e.gv.toList.any GReg.taint
def gvPoisoned (e : Entry) : Bool := e.gv.toList.any GReg.poison

/-- Consumption checks before any effect: TNT on tainted sources (R100), the POISON trap (R156, R191). -/
def consume (s : State) (e : Entry) (f : Fields) (tainted poisoned : Bool) : R State := do
  require (!(trapsTaint f && (tainted || gvTainted e || e.qt != 0))) cTAINT
  require (!(poisoned && s.poisonTrap)) cPOISON
  return s.raise (flagIf poisoned flPSN)

/-- Does an inactive position keep an element of a poisoned row? R191 counts that as consumption. `judged` names the
positions that the instruction has come to. -/
def VReg.keepsPoison (old : VReg) (z : Nat) (els : List (Option Elt)) (judged : Nat → Bool := fun _ => true) : Bool :=
  els.zipIdx.any fun p => p.1.isNone && judged p.2 && decide (p.2 < count old.shape) && (old.elem z p.2).poison

/-- Write an array register result, with the checks of taint and poison (R191). -/
def commitV (s : State) (e : Entry) (f : Fields) (d z : Nat) (sh : List Nat)
    (xs : List (Option Elt × Flags)) (judged : Nat → Bool := fun _ => true) : R State := do
  let act := xs.filterMap fun p => p.1
  let old := s.me.getV d
  let els := xs.map fun p => p.1
  let t ← consume s e f (act.any Elt.taint || (!act.isEmpty && s.masksTainted e f))
    (act.any Elt.poison || old.keepsPoison z els judged)
  return (t.raise (xs.foldl (fun acc p => acc ||| p.2) 0)).setV d (old.write z sh els)

/-- Write a mask result, with the checks of taint and poison (R191). -/
def commitM (s : State) (e : Entry) (f : Fields) (d : Nat) (sh : List Nat) (xs : List (Option Elt × Flags)) :
    R State := do
  let act := xs.filterMap fun p => p.1
  let t ← consume s e f (act.any Elt.taint || (!act.isEmpty && s.masksTainted e f)) (act.any Elt.poison)
  return (t.raise (xs.foldl (fun acc p => acc ||| p.2) 0)).setM d ((s.me.getM d).write sh (xs.map fun p => p.1))

/-- Write a general-register result of an array instruction (R191). -/
def commitG (s : State) (e : Entry) (f : Fields) (d : Nat) (x : Elt) (fl : Flags := 0) : R State := do
  let t ← consume s e f x.taint x.poison
  return (t.raise fl).setG d { val := BitVec.ofNat 64 x.val, taint := x.taint, poison := x.poison }

/-! ### Elementwise agreement (R54) -/

/-- The result frame and cell of the sources at rank `k` (R54). -/
def agreeAll (k : Nat) : List Source → R (List Nat × List Nat)
  | [] => .ok ([], [])
  | x :: xs => xs.foldlM (fun acc y => do
      let f ← agree acc.1 (frameOf k y.shape)
      let c ← agree acc.2 (cellOf k y.shape)
      return (f, c)) (frameOf k x.shape, cellOf k x.shape)

/-- Elements of the sources for result element `i`. -/
def elemsAt (k : Nat) (fc : List Nat × List Nat) (srcs : List Source) (i : Nat) : List Elt :=
  srcs.map fun x => x.elem (selectElem fc.1 fc.2 (frameOf k x.shape) (cellOf k x.shape) i)

/-- Join the taint and poison of the elements that a result is computed from. -/
def eltOf (val : Nat) (from_ : List Elt) : Elt :=
  { val := val, taint := from_.any Elt.taint, poison := from_.any Elt.poison }

/-- An elementwise instruction with sources at `zs` bits and a result at `z` bits (R54, R190): the checks of R57, then
`op i elements` for each active element. -/
def elementwise (s : State) (e : Entry) (f : Fields) (z : Nat) (srcs : List (Source × Nat)) (toMask : Bool)
    (op : Nat → List Elt → Elt × Flags) : R State := do
  let k := f.rk.toNat
  let xs := srcs.map fun p => p.1
  let fc ← agreeAll k xs
  let sh := fc.1 ++ fc.2
  checkMasks s e f sh
  let g := e.grows.toNat
  for p in srcs do fitsSource g p.2 p.1
  let n := count sh
  require (decide (sh.length ≤ 4) && decide (n ≤ capacity g (if toMask then 1 else z))) cCAPACITY
  let els := (List.range n).map fun i =>
    if isActive s e f sh i then
      let r := op i (elemsAt k fc xs i)
      (some r.1, r.2)
    else (none, 0)
  if toMask then commitM s e f f.d.toNat sh els else commitV s e f f.d.toNat z sh els

/-! ### Tensor identifier entries (R63-R65) -/

/-- A tensor identifier entry. -/
abbrev TEntry := BitVec 1024

def TEntry.base (t : TEntry) : Nat := fld t 55 0
def TEntry.fmt (t : TEntry) : Nat := fld t 60 56
def TEntry.rank (t : TEntry) : Nat := fld t 63 61
def TEntry.fill (t : TEntry) : Nat := fld t 95 64
def TEntry.boff (t : TEntry) : Nat := fld t 98 96
def TEntry.swz (t : TEntry) : Nat := fld t 102 99
def TEntry.valid (t : TEntry) : Bool := bit t.toNat 103
def TEntry.trns (t : TEntry) : Bool := bit t.toNat 104
def TEntry.splm (t : TEntry) : Bool := bit t.toNat 106
def TEntry.ext (t : TEntry) (k : Nat) : Nat := fld t (159 + 32 * k) (128 + 32 * k)
def TEntry.str (t : TEntry) (k : Nat) : Int := toSigned 64 (fld t (383 + 64 * k) (320 + 64 * k))
def TEntry.scb (t : TEntry) : Nat := fld t 767 704
def TEntry.scs (t : TEntry) : Int := toSigned 64 (fld t 831 768)

/-- The extents within the rank. -/
def TEntry.shape (t : TEntry) : List Nat := (List.range t.rank).map t.ext

/-- The checks of R63-R65 on a whole entry; strides at axes from RANK on are ignored (R64). -/
def TEntry.ok (t : TEntry) : Bool :=
  fld t 1023 832 == 0 && fld t 127 107 == 0 && fld t 767 760 == 0 && decide (t.fmt ≤ 22) && decide (t.rank ≤ 6) &&
    decide (t.swz ≤ 5) && (t.swz == 0 || decide (2 ≤ t.rank)) && (t.boff == 0 || decide (Fmt.size t.fmt < 8)) &&
    ((List.range t.rank).all fun k => decide (t.str k ≤ 2 ^ 47) && decide (-(2 ^ 47 : Int) ≤ t.str k))

/-- A valid entry of the format, else TIDINV (R63, R228). -/
def useEntry (t : TEntry) (fmt : Nat) : R Unit := require (t.valid && t.fmt == fmt) cTIDINV

/-- Σ index × stride over axes from `k` on. -/
def strideSum (t : TEntry) (k : Nat) (idx : List Nat) : Int :=
  (idx.zipIdx.map fun p => ((p.1 : Nat) : Int) * t.str (k + p.2)).foldl (· + ·) 0

/-- XOR `y mod 8` into byte-address bits from `lo` (R65). -/
def swizzleXor (ba : Int) (lo y : Nat) : Int :=
  let byte := ba / 8
  let span : Int := 2 ^ (lo + 3)
  let low := (byte % span).toNat
  (byte - byte % span + ((low ^^^ ((y % 8) <<< lo) : Nat) : Int)) * 8 + ba % 8

/-- The bit address of the element with the indices, swizzle applied (R64, R65). -/
def TEntry.addr (t : TEntry) (idx : List Nat) : Int :=
  let z : Int := Fmt.size t.fmt
  let origin : Int := (t.base : Int) * 8 + t.boff
  let r := t.rank
  let y := idx[r - 2]?.getD 0
  let x := idx[r - 1]?.getD 0
  let lin := origin + strideSum t 0 idx * z
  match t.swz with
  | 0 => lin
  | 1 => swizzleXor lin 4 y
  | 2 => swizzleXor lin 5 y
  | c =>
    let tl := if c == 3 then 8 else if c == 4 then 16 else 32
    let inner := ((y / tl) * ceilDiv (t.ext (r - 1)) tl + x / tl) * tl ^ 2 + (y % tl) * tl + x % tl
    origin + (strideSum t 0 (idx.take (r - 2)) + inner) * z

/-- The byte address of the scale of the block that holds the element (R71). -/
def TEntry.scaleAddr (t : TEntry) (blk : Nat) (idx : List Nat) : Int :=
  let r := t.rank
  let o := ravel (t.shape.take (r - 1)) (idx.take (r - 1))
  let last := if r == 0 then 1 else t.ext (r - 1)
  let x := if r == 0 then 0 else idx[r - 1]?.getD 0
  (t.scb : Int) + ((o * ceilDiv last blk + x / blk : Nat) : Int) * t.scs

/-- Are the indices inside the extents? -/
def inside (sh idx : List Nat) : Bool := (sh.zip idx).all fun p => decide (p.2 < p.1)

/-- The span of an entry, lowest to highest bit of its in-bounds elements after the swizzle; none for a zero extent
(R233). Without a swizzle the extremes lie at corners; with one, every element is looked at. -/
def TEntry.span (t : TEntry) : Option (Int × Int) :=
  let sh := t.shape
  if sh.any (· == 0) then none
  else
    let z : Int := Fmt.size t.fmt
    let corner (pick : Nat → Bool) : List Nat := (List.range t.rank).map fun k => if pick k then t.ext k - 1 else 0
    if t.swz == 0 then
      let lo := t.addr (corner fun k => decide (t.str k < 0))
      let hi := t.addr (corner fun k => decide (0 < t.str k))
      some (lo, hi + z - 1)
    else
      let all := (List.range (count sh)).map fun i => t.addr (unravel sh i)
      match all with
      | [] => none
      | a :: r => some (r.foldl min a, r.foldl max a + z - 1)

/-- Are two entries identical for OVERLAP (R233)? -/
def TEntry.sameAs (t u : TEntry) : Bool :=
  t.base == u.base && t.boff == u.boff && t.fmt == u.fmt && t.rank == u.rank && t.shape == u.shape &&
    ((List.range t.rank).all fun k => t.str k == u.str k) && t.swz == u.swz

/-- OVERLAP between a tensor destination and a tensor source; `allowed` says that identical entries may be used. -/
def checkOverlap (d a : TEntry) (allowed : Bool) : R Unit :=
  if d.sameAs a then require allowed cOVERLAP d.base
  else
    match d.span, a.span with
    | some p, some q =>
      let lo := max (p.1 / 8) (q.1 / 8)
      require (!(decide (p.1 / 8 ≤ q.2 / 8) && decide (q.1 / 8 ≤ p.2 / 8))) cOVERLAP (lowBits 64 lo)
    | _, _ => .ok ()

/-! ### The interlock against work past retirement (R16, R283) -/

/-- The range of lines of an entry's span, and whether it is written; none for a zero extent. -/
def TEntry.range (t : TEntry) (wr : Bool) : List (Int × Int × Bool) :=
  match t.span with
  | some p => [(p.1 / 1024, p.2 / 1024, wr)]
  | none => []

/-- The range of a pointer-form VLD or VST: lowest to highest byte of the active elements (R283). -/
def pointerRange (s : State) (e : Entry) (f : Fields) (wr : Bool) : List (Int × Int × Bool) :=
  let z := Fmt.size f.fmt.toNat
  let cols := e.cols.toNat
  let sh := [e.rows.toNat, cols]
  let at_ (k : Nat) : Int := (e.ga.val.toNat : Int) * 8 + bits f.imm.toNat 2 0 +
    ((k / cols : Nat) : Int) * e.gb.val.toInt * 8 + ((k % cols : Nat) : Int) * z
  match ((List.range (count sh)).filter (isActive s e f sh)).map at_ with
  | [] => []
  | a :: r => [(r.foldl min a / 1024, (r.foldl max a + z - 1) / 1024, wr)]

/-- The lines of `n` bytes at a virtual address; a fabric address of the own rank names this device (R305). -/
def State.byteRange (s : State) (va n : Nat) (wr : Bool) : List (Int × Int × Bool) :=
  let own := ((s.vdev? s.vd).map VDev.rank).getD 0
  let a := if bit va 63 then bits va 47 0 else va
  if bit va 63 && bits va 62 48 != own then [] else [(((a / 128 : Nat) : Int), (((a + n - 1) / 128 : Nat) : Int), wr)]

/-- The lines of the homes that WAITV reads: those of its active elements. -/
def waitvRange (s : State) (e : Entry) (f : Fields) : List (Int × Int × Bool) :=
  let a := s.me.getV f.a.toNat
  let at_ (i : Nat) : Int := (((a.elem 64 i).val / 128 : Nat) : Int)
  match ((List.range (count a.shape)).filter (isActive s e f a.shape)).map at_ with
  | [] => []
  | x :: r => [(r.foldl min x, r.foldl max x, false)]

/-- The entry image of the plane slot that a CHECK reads its weights through (R348). -/
def State.checkImage (s : State) (e : Entry) : Option TEntry :=
  let m := s.me
  match s.reservations.find? fun r => r.lid == m.launch.toNat && r.die == m.place.die && r.cluster == m.place.core / 4 with
  | some r => some (r.slots.getD (bits e.gc.val.toNat 6 0) {}).image
  | none => none

/-- A row of SEND's register. -/
structure Row where
  peer : Nat
  daddr : Nat
  first : Nat
  cnt : Nat
  asig : Nat

def sendRow (v : VReg) (r : Nat) : Row :=
  let c (j : Nat) : Nat := (v.elem 64 (5 * r + j)).val
  { peer := c 0, daddr := c 1, first := c 2, cnt := c 3, asig := c 4 }

def sendRows (v : VReg) : List Row := (List.range ((v.shape.head?).getD 0)).map (sendRow v)

/-- The lines that the Caravans of a SEND write on the strand's own device, whose rank is `own`. -/
def caravanRanges (v : VReg) (own z : Nat) : List (Int × Int × Bool) :=
  ((sendRows v).filter fun r => r.peer == own && r.cnt != 0).map fun r =>
    (((r.daddr / 128 : Nat) : Int), (((r.daddr + (r.cnt * z - 1) / 8) / 128 : Nat) : Int), true)

/-- The lines of the batch record that DRARM reads, and of the expert launch record that its KREC names (R350). -/
def State.batchRanges (s : State) (a : Nat) : List (Int × Int × Bool) :=
  s.byteRange a 64 false ++ match s.readElem s.vd (8 * (a : Int)) 512 with
    | .ok x => s.byteRange (bits x.1 383 320) 64 false
    | .error _ => []

/-- The sides of a COPY, source and destination, that its ROUTE word puts on another device (R318). -/
def State.copySides (s : State) (e : Entry) (f : Fields) : Bool × Bool :=
  match (tokenOf f e).map fun a => s.readElem s.vd (8 * ((a + 8 : Nat) : Int)) 64 with
  | some (.ok x) =>
    let far := bits x.1 14 0 != ((s.vdev? s.vd).map VDev.rank).getD 0
    (bit x.1 16 && far, bit x.1 17 && far)
  | _ => (false, false)

/-- The line ranges that an array-class or engine access enters in the table; an access to another device's memory enters none
(R283). -/
def accessRanges (s : State) (e : Entry) (op : Nat) (f : Fields) : List (Int × Int × Bool) :=
  let fn := f.fn.toNat
  let t (n : BitVec 6) (wr : Bool) : List (Int × Int × Bool) := TEntry.range (s.me.getT n.toNat) wr
  if op == 0x41 || op == 0x42 then
    if bit fn 0 then pointerRange s e f (op == 0x42) else t f.a (op == 0x42)
  else if decide (0x70 ≤ op) && decide (op ≤ 0x81) then
    (if bit fn 0 then t f.d true else []) ++ (if bit fn 1 then t f.a false else []) ++
      (if (op == 0x78 || op == 0x79) && bit fn 2 then t f.b false else [])
  else match op with
    | 0x40 => if e.gc.val == 0 then [] else s.byteRange e.gc.val.toNat 8 false
    | 0x92 | 0x96 => s.byteRange e.ga.val.toNat 8 false
    | 0x93 | 0x94 | 0x95 | 0x9A => s.byteRange e.ga.val.toNat 8 true
    | 0x97 => waitvRange s e f
    | 0x99 => s.byteRange e.ga.val.toNat 16 true
    | 0x9B =>
      let far := s.copySides e f
      (if far.1 then [] else t f.b false) ++ (if bit fn 0 || far.2 then [] else t f.a true)
    | 0x9D =>
      t f.a false ++ caravanRanges (s.me.getV f.b.toNat) (((s.vdev? s.vd).map VDev.rank).getD 0) (Fmt.size f.fmt.toNat)
    | 0x9C | 0xB2 | 0xB3 => t f.a false
    | 0x9E => t f.a true ++ t f.b false
    | 0x9F => t f.a true
    | 0xA0 => s.byteRange e.ga.val.toNat 128 false
    | 0xBA => match s.checkImage e with
      | some im => TEntry.range im false
      | none => []
    | 0xBB => s.batchRanges e.ga.val.toNat
    | _ => []

/-- Do two ranges meet, with a write among them? -/
def rangesMeet (p q : Int × Int × Bool) : Bool :=
  decide (p.1 ≤ q.2.1) && decide (q.1 ≤ p.2.1) && (p.2.2 || q.2.2)

/-- The array register that a piece of work still owes (R319). -/
def Work.owedReg (w : Work) : Option Nat :=
  if w.kind == .copy && bit (fieldsOf w.entry.word).fn.toNat 0 then some (fieldsOf w.entry.word).a.toNat else none

/-- Does an entry with the BAR bit still wait for the strand's previous array instruction, whose work outlived its queue
entry (R16, R99)? -/
def Strand.barred (st : Strand) (f : Fields) : Bool := bit f.sched.toNat 6 && st.work.any fun w => some w.k == st.lastWork

/-- Do ranges find no room in the strand's interlock table of 32 entries (R283)? Each range that work outliving its queue entry has
entered holds one; more ranges than are free wait, and more than 32 wait for an empty table (DESIGN CHOICE, log entry 138). -/
def Strand.tableFull (st : Strand) (rs : List (Int × Int × Bool)) : Bool :=
  let held := (st.work.map fun w => w.ranges.length).foldl (· + ·) 0
  held != 0 && !rs.isEmpty && decide (32 < held + rs.length)

/-- Must the entry wait for older work of its strand that outlived its queue entry? -/
def State.interlocked (s : State) (e : Entry) (op : Nat) (f : Fields) : Bool :=
  let rs := accessRanges s e op f
  s.me.tableFull rs || s.me.work.any fun w =>
    (rs.any fun r => w.ranges.any fun q => rangesMeet r q) ||
      ((w.owedReg.map fun n => (namedV op f).contains n).getD false)

/-- What happens before an access of the strand to lines, by the order that layer 1 gives among its accesses: what it has
acquired, and the earlier accesses whose lines it meets, one of the two writing (R283, R288). -/
def Strand.orderedBefore (st : Strand) (rs : List (Int × Int × Bool)) : Clock :=
  (st.order.past.filter fun p => rs.any fun r => p.ranges.any (rangesMeet r)).foldl (fun c p => clockJoin c p.before) []

/-! ### Serving the head of the queue (R13, R16) -/

/-- The tile that owed work writes. -/
def Work.tile (w : Work) : Nat := (fieldsOf w.entry.word).d.toNat
def Work.owesTile (w : Work) (n : Nat) : Bool := (w.kind == .mms || w.kind == .check) && w.tile == n

/-- Does the strand owe writes to a tile (R16, R344)? -/
def State.owesTile (s : State) (n : Nat) : Bool := s.me.work.any fun w => w.owesTile n

/-- Serve the entry at the head of the queue with a body (R16). An entry of a queue image that names a tile beyond the share of
the residency at which its strand resumed is reissued without a new check of R110, which judges a word at decode (DESIGN
CHOICE, log entry 101). An entry that is interlocked waits (R16, R283), and so does one with BAR (R99); a word that names a
mirror partner is ILLEGAL (R61). The MIRR that dissolves a pair is exempt: R327 says that dissolving by a register that is
not the primary has no effect, which R61 would make ILLEGAL (DEDUCED, log entry 89). -/
def State.serve (s : State) (e : Entry) (op : Nat) (f : Fields) (body : Entry → State → Served) : State :=
  if s.interlocked e op f || s.me.barred f then s
  else if op != 0xA3 && (namedV op f).any fun n => s.me.mirrors.any fun p => p.2 == n then
    s.arrayFault e { cause := cILLEGAL }
  else
    match body e s with
    | .done t => t.retire s.nextId
    | .wait t => t
    | .stop t x => t.arrayFault e x

/-- Run an array-class word (R13, R16): where the head of the queue is this word, it is served with its captured
values; otherwise it enters the queue, and is served at once when no older entry is held. The turn `enter` of the agenda lets a word
enter an empty queue and issue later (log entry 1). -/
def runArray (op : BitVec 8) (f : Fields) (s : State) (body : Entry → State → Served) : Result :=
  match s.me.queue with
  | h :: _ =>
    if h.word == packWord op f then .next (s.serve h op.toNat f body)
    else
      match s.enter op f with
      | .error r => r
      | .ok p => .next p.1
  | [] =>
    match s.enter op f with
    | .error r => r
    | .ok p => .next (p.1.serve p.2 op.toNat f body)

end Sys2Proof.Machine
end

