-- ==== Sys2Proof/Machine/Lines.lean ====
section
/-! DEFINITION. The lines of the caches: where a line may go, victims, reserved and guaranteed ways, fills that are dropped
(R266-R273, R399, R400), and what an instruction's access asks of them (R97, R98, R202, R269). They decide where data is
held, never a value. -/

namespace Sys2Proof.Machine

/-! ### Where a line may go -/

/-- The home of a line: die and L2 slice (R257, R258). -/
def homeOf (pa : Nat) : Nat × Nat :=
  (if farBase ≤ pa then bits pa 11 10 else bits pa 37 36, bits pa 10 7 ^^^ bits pa 17 14 ^^^ bits pa 24 21)

/-- Fields of a way-range register (R271). -/
def wayEn (r : BitVec 256) : Bool := bit r.toNat 156
def wayMask (r : BitVec 256) : Nat := fld r 143 128

/-- The way-range registers of a die in ascending number. -/
def State.wayRegs (s : State) (die : Nat) : List (BitVec 256) :=
  (List.range 8).map fun n => ((s.ways.find? fun w => w.1 == die && w.2.1 == n).map fun w => w.2.2).getD 0

/-- The union of the reserved ways of a die (R271). -/
def reservedWays (regs : List (BitVec 256)) : Nat := (regs.filter wayEn).foldl (fun m r => m ||| wayMask r) 0

/-- The placement that an access asks for (R97, R202, R269): no-allocate, or its insertion age. The rules name no age for HINT
ret: it inserts at normal priority (DESIGN CHOICE, log entry 110). -/
def fillAge? (p : Fill) : Option Nat :=
  match p.hint with
  | 1 => none
  | 2 => some 3
  | 4 => if p.level2 then some 1 else none
  | 0 => if p.arrayLoad then (if 8 * p.fthr < p.footprint then none else some 0) else some 1
  | _ => some 1

/-- The ways of the register that makes a fill retained, if one does (R272). -/
def State.retainedIn (s : State) (p : Fill) : Option Nat :=
  if !p.level2 || p.hint == 1 || !(p.hint == 3 || p.retc) then none
  else
    match (s.wayRegs p.die).find? fun r =>
        wayEn r && fld r 155 152 == p.vd && decide (fld r 55 0 ≤ p.va) && decide (p.va < fld r 119 64) with
    | some r => if mix64 (128 * p.line) % 128 < fld r 151 144 then some (wayMask r) else none
    | none => none

/-- Guaranteed ways of a virtual device in an L2 slice (R395), less the ways reserved for its ranges (R272). -/
def State.guaranteed (s : State) (vd die slice : Nat) : Nat :=
  let own := reservedWays ((s.wayRegs die).filter fun r => fld r 155 152 == vd)
  ((s.tolls.find? fun t => t.vd == vd && t.res == 1 && t.die == die && t.inst == slice).map Toll.rate).getD 0 -
    ((List.range 16).filter (bit own)).length

/-! ### Victims (R268, R399, R400) -/

/-- The lowest-numbered way of age 3, the eligible ages having risen together until one reaches 3 (R268). -/
def ageVictim (ls : List CacheLine) : Option CacheLine :=
  match ls with
  | [] => none
  | x :: r =>
    some (r.foldl (fun b c => if b.age < c.age || (b.age == c.age && decide (c.way < b.way)) then c else b) x)

/-- The controller of its home die that serves a line of memory, and its resource: near or far (R395). The spec does not say
which controller serves which address. -/
def controllerOf (line : Nat) : Nat × Nat :=
  if farBase ≤ 128 * line then (3, Config.controller line % 4) else (2, Config.controller line % 16)

/-- A request for some of a line comes to its controller, charged to a virtual device (R395, R398). -/
def State.request (s : State) (vd line tokens : Nat) (fill : Option Nat := none) : State :=
  let c := controllerOf line
  { s with dues := s.dues ++ [{ vd := vd, res := c.1, die := (homeOf (128 * line)).1, inst := c.2, left := tokens, fill := fill }] }

/-- Tokens for the granules of a line whose bits are written, one for each 32 bytes (R395). -/
def granuleTokens (written : Nat) : Nat := ((List.range 4).filter fun i => bits written (256 * i + 255) (256 * i) != 0).length

/-- A line leaves an L1: its write-back sends the written bits to the home, where a line of the L2 takes them as its own
(R203, R266). Their values stand in memory already. -/
def writeBack (lines : List CacheLine) (v : CacheLine) : List CacheLine :=
  if v.level2 || v.written == 0 then lines
  else
    let h := homeOf (128 * v.line)
    lines.map fun c =>
      if c.level2 && c.die == h.1 && c.unit == h.2 && c.line == v.line then { c with written := c.written ||| v.written } else c

/-- A dirty victim asks for tokens of its controller, charged to the virtual device whose line it is (R398): that of an L2, and that
of an L1 for which the L2 of its home holds no line. -/
def State.requestBack (s : State) (v : CacheLine) : State :=
  let h := homeOf (128 * v.line)
  let held := s.lines.any fun c => c.level2 && c.die == h.1 && c.unit == h.2 && c.line == v.line
  if v.written == 0 || (!v.level2 && held) then s else s.request v.vd v.line (granuleTokens v.written)

/-- The lines of a set that a fill may replace (R399, R400): its own borrowed guarantee first; never a line within
another's guarantee. -/
def State.replaceable (s : State) (p : Fill) (unit : Nat) (ls : List CacheLine) : List CacheLine :=
  if !p.level2 then ls
  else
    let held (vd : Nat) : Nat := (ls.filter fun c => c.vd == vd).length
    let beyond (vd : Nat) : Bool := decide (s.guaranteed vd p.die unit < held vd)
    let vd := p.vd
    let others := ls.filter fun c => c.vd != vd && beyond c.vd
    if held vd < s.guaranteed vd p.die unit && !others.isEmpty then others
    else ls.filter fun c => c.vd == vd || beyond c.vd

/-! ### An access meets its cache -/

/-- The set of a cache in which a line lies: the unit that holds it, of a fused cluster slice PA[8:7] (R267), and the
number of the set. -/
def State.setOf (s : State) (p : Fill) : Nat × Nat :=
  let fused := !p.level2 && s.fused.contains (p.die, p.unit / 4)
  (if fused then 4 * (p.unit / 4) + p.line % 4 else p.unit,
   if p.level2 then p.line / 16 % 2048 else if fused then p.line / 4 % 256 else p.line % 256)

/-- Does a line lie in the set of a fill? -/
def State.inSet (s : State) (p : Fill) (c : CacheLine) : Bool :=
  let u := s.setOf p
  c.level2 == p.level2 && c.die == p.die && c.unit == u.1 && c.set == u.2

/-- An access hits a line (R268, R270): its age becomes 0, but for a store that bypasses; a store's bits are marked. -/
def CacheLine.hit (c : CacheLine) (p : Fill) : CacheLine :=
  { c with
    age := if (fillAge? p).isNone && p.written != 0 then c.age else 0
    written := c.written ||| p.written % 2 ^ 1024 }

/-- A prefetch fill that met an eviction at an L2 slice is dropped and counted (R273). -/
def State.dropFill (s : State) (die slice : Nat) : State :=
  let n := ((s.dropped.find? fun (d : Nat × Nat × BitVec 32) => d.1 == die && d.2.1 == slice).map fun d => d.2.2).getD 0
  { s with
    dropped := (die, slice, n + 1) :: s.dropped.filter fun (d : Nat × Nat × BitVec 32) => !(d.1 == die && d.2.1 == slice) }

/-- Does a line hold what a fill asks for? -/
def State.holdsLine (s : State) (p : Fill) (c : CacheLine) : Bool := s.inSet p c && c.line == p.line

/-- Do two fills bring the same line to the same cache? -/
def Fill.same (p q : Fill) : Bool := p.level2 == q.level2 && p.die == q.die && p.unit == q.unit && p.line == q.line

/-- A second miss of a line that is on its way: one fill is made (R273). A demand miss makes a demand fill of it. -/
def Fill.join (p q : Fill) : Fill := { p with written := p.written ||| q.written, prefetch := p.prefetch && q.prefetch }

/-- Tokens of an access to memory that brings no line: those of the granules that it writes, or of the whole line where it reads. The
rules do not say how much of a line a read moves (DESIGN CHOICE, log entry 125). -/
def Fill.tokens (p : Fill) : Nat := if p.written == 0 then 4 else granuleTokens p.written

/-- An access meets a cache (R268, R270, R273): a hit is served by the line; a miss of an access that allocates brings the line,
once; any other miss goes on to the home, and beyond an L2 to memory. A request to memory waits for its tokens (R398). -/
def State.meet (s : State) (p0 : Fill) : State :=
  let p : Fill := { p0 with unit := (s.setOf p0).1 }
  if s.lines.any (s.holdsLine p) then
    { s with lines := s.lines.map fun c => if s.holdsLine p c then c.hit p else c }
  else if (fillAge? p).isNone then (if p.level2 then s.request p.vd p.line p.tokens else s)
  else if s.fills.any p.same then { s with fills := s.fills.map fun q => if p.same q then q.join p else q }
  else
    let s1 : State := { s with fills := s.fills ++ [p] }
    if p.level2 then s1.request p.vd p.line 4 (some p.line) else s1

/-- Is the line of an access in a cache? -/
def State.present (s : State) (p0 : Fill) : Bool := s.lines.any (s.holdsLine { p0 with unit := (s.setOf p0).1 })

/-- Is the line of an access in a cache, or on its way to it? -/
def State.near (s : State) (p0 : Fill) : Bool := s.present p0 || s.fills.any (Fill.same { p0 with unit := (s.setOf p0).1 })

/-- An access to a line, through the L1 of a core or, for engines, home actions and other agents, in the home's L2 alone
(R258, R266, R269): an access that bypasses the L1 and misses there goes on to the home, though a line be on its way (R270); one that
allocates joins such a line, or brings one and reads it at the home. -/
def State.reach (s : State) (core : Option (Nat × Nat)) (p : Fill) : State :=
  let home := homeOf (128 * p.line)
  let l2 : Fill := { p with level2 := true, die := home.1, unit := home.2 }
  match core with
  | none => s.meet l2
  | some c =>
    let l1 : Fill := { p with level2 := false, die := c.1, unit := c.2 }
    if (fillAge? l1).isNone then (if s.present l1 then s.meet l1 else s.meet l2)
    else if s.near l1 then s.meet l1
    else (s.meet l1).meet { l2 with written := 0 }

/-- The way that a fill takes, and the line that leaves it: an empty way first, else the victim among the eligible lines, of
which those ages rise together that can (R268, R271, R272, R399, R400). -/
def State.slotFor (s : State) (p : Fill) : Option (Nat × Option CacheLine) :=
  let ls := s.lines.filter (s.inSet p)
  let reserved := reservedWays (s.wayRegs p.die)
  let r := s.retainedIn p
  let may (w : Nat) : Bool := match r with
    | some m => bit m w
    | none => !p.level2 || !bit reserved w
  let here := ls.filter fun c => may c.way
  match ((List.range (if p.level2 then 16 else 8)).filter may).find? fun w => !(ls.any fun (c : CacheLine) => c.way == w) with
  | some w => some (w, none)
  | none =>
    let eligible := match r with
      | some _ => here
      | none => s.replaceable p p.unit here
    (ageVictim eligible).map fun v => (v.way, some v)

/-- Put the line of a fill into its way. The victim is written back, for which it may have to wait for tokens (R398), and the ages of the lines that it was chosen among have
risen with its own. -/
def State.placeLine (s : State) (p : Fill) (age : Nat) (slot : Nat × Option CacheLine) : State :=
  let new : CacheLine := {
    level2 := p.level2, die := p.die, unit := p.unit, set := (s.setOf p).2, way := slot.1, line := p.line, age := age, vd := p.vd
    written := p.written % 2 ^ 1024 }
  match slot.2 with
  | none => { s with lines := new :: s.lines }
  | some v =>
    let ls := s.lines.filter (s.inSet p)
    let reserved := reservedWays (s.wayRegs p.die)
    let eligible := match s.retainedIn p with
      | some m => ls.filter fun (c : CacheLine) => bit m c.way
      | none => s.replaceable p p.unit (ls.filter fun (c : CacheLine) => !p.level2 || !bit reserved c.way)
    let up := 3 - v.age
    let rise (c : CacheLine) : CacheLine := if s.inSet p c && (eligible.any fun e => e.way == c.way) then { c with age := c.age + up } else c
    { s.requestBack v with lines := new :: (writeBack (s.lines.filter fun c => !(s.inSet p c && c.way == v.way)) v).map rise }

/-! ### What an access asks -/

/-- The lines of virtual addresses that ranges cover. -/
def linesOf (rs : List (Int × Int × Bool)) : List Nat :=
  (rs.flatMap fun r => (List.range (r.2.1 - r.1 + 1).toNat).map fun i => lowBits 57 (r.1 + i)).dedup

/-- The line ranges of bits at bit addresses. -/
def spotRanges (xs : List (Int × Nat)) (wr : Bool) : List (Int × Int × Bool) :=
  xs.map fun p => (p.1 / 1024, (p.1 + p.2 - 1) / 1024, wr)

/-- The lines of the scale bytes of an entry of a block format (R71). -/
def TEntry.scaleRanges (t : TEntry) (blk : Nat) (wr : Bool) : List (Int × Int × Bool) :=
  let last := if t.rank == 0 then 1 else t.ext (t.rank - 1)
  if Fmt.isK t.fmt then
    spotRanges ((List.range (count (t.shape.take (t.rank - 1)) * ceilDiv last blk)).map fun b =>
      (((t.scb : Int) + ((b : Nat) : Int) * t.scs) * 8, 8)) wr
  else []

/-- What an access to an address asks of the caches, where the address translates. -/
def State.lineFill (s : State) (va : Nat) (p : Fill) : Option Fill :=
  (s.leaf? p.vd va va).map fun l => { p with line := (l.base + va % 2 ^ l.sizeLog) / 128, va := va }

/-- An engine reads a line of virtual addresses: where it translates, it meets the L2 of its home (R258, R269). -/
def State.engineRead (s : State) (p : Fill) (line : Nat) : State :=
  match s.lineFill (128 * line) p with
  | some q => s.reach none q
  | none => s

/-- An engine reads lines of virtual addresses. -/
def State.engineReads (s : State) (p : Fill) (lines : List Nat) : State := lines.foldl (fun u n => u.engineRead p n) s

/-- RETC of an entry: bit 105 (R64). -/
def TEntry.retc (t : TEntry) : Bool := bit t.toNat 105

/-- The footprint of a VLD in bits: ROWS × |stride| and ceil(COLS × z / 8) bytes, the stride g[B] or that of the axis before
the innermost (R202). -/
def State.footprint (s : State) (e : Entry) (f : Fields) : Nat :=
  let z := Fmt.size f.fmt.toNat
  let t : TEntry := s.me.getT f.a.toNat
  let stride : Nat :=
    if bit f.fn.toNat 0 then 8 * e.gb.val.toInt.natAbs
    else if 2 ≤ t.rank then (t.str (t.rank - 2)).natAbs * z else 0
  e.rows.toNat * stride + 8 * ceilDiv (e.cols.toNat * z) 8

end Sys2Proof.Machine
end

