-- ==== Sys2Proof/Machine/Elementwise.lean ====
section
/-! DEFINITION. The meanings of the elementwise array instructions but SETL, VLD, VST and VSFU (R204-R213, R217-R225). -/

namespace Sys2Proof.Machine

/-- The strip shape (ROWS, COLS) as captured (R9, R197). -/
def Entry.strip (e : Entry) : List Nat := [e.rows.toNat, e.cols.toNat]

/-- The k-th element of a list of sources. -/
def nth (xs : List Elt) (k : Nat) : Elt := xs[k]?.getD {}

/-- The sources of an arithmetic or logic instruction with kind bits (R93). -/
def kindSources (s : State) (e : Entry) (f : Fields) (z n : Nat) : List (Source × Nat) :=
  let fn := f.fn.toNat
  ([pickSource s (bit fn 0) e.ga f.a.toNat z, pickSource s (bit fn 1) e.gb f.b.toNat z,
    pickSource s (bit fn 2) e.gc f.c.toNat z].take n).map fun x => (x, z)

/-- An arithmetic instruction (R208). -/
def runArith (o : ArOp) (n : Nat) (op : BitVec 8) (f : Fields) (s : State) : Result :=
  runArray op f s fun e t => Served.ofR t <| do
    let fmt := f.fmt.toNat
    let z := Fmt.size fmt
    elementwise t e f z (kindSources t e f z n) false fun i xs =>
      let r := arithElem o (e.mode f fmt i) (nth xs 0).val (nth xs 1).val (nth xs 2).val
      (eltOf r.1 xs, r.2)

/-- A bitwise or shift instruction: no flag (R207, R208). -/
def runBits (n : Nat) (op : BitVec 8) (f : Fields) (s : State) (g : Nat → Nat → Nat → Nat) : Result :=
  runArray op f s fun e t => Served.ofR t <| do
    let z := Fmt.size f.fmt.toNat
    elementwise t e f z (kindSources t e f z n) false fun _ xs =>
      (eltOf (g z (nth xs 0).val (nth xs 1).val % 2 ^ z) xs, 0)

def execVadd (f : Fields) (s : State) : Result := runArith .add 2 0x46 f s
def execVsub (f : Fields) (s : State) : Result := runArith .sub 2 0x47 f s
def execVmul (f : Fields) (s : State) : Result := runArith .mul 2 0x48 f s
def execVfma (f : Fields) (s : State) : Result := runArith .fma 3 0x49 f s
def execVdiv (f : Fields) (s : State) : Result := runArith .div 2 0x4A f s
def execVmin (f : Fields) (s : State) : Result := runArith .min 2 0x4C f s
def execVmax (f : Fields) (s : State) : Result := runArith .max 2 0x4D f s

/-- One-source arithmetic: slot A is an array register. -/
def runArith1 (o : ArOp) (op : BitVec 8) (f : Fields) (s : State) : Result :=
  runArray op f s fun e t => Served.ofR t <| do
    let fmt := f.fmt.toNat
    let z := Fmt.size fmt
    elementwise t e f z [((t.me.getV f.a.toNat).source z, z)] false fun i xs =>
      let r := arithElem o (e.mode f fmt i) (nth xs 0).val 0 0
      (eltOf r.1 xs, r.2)

def execVsqrt (f : Fields) (s : State) : Result := runArith1 .sqrt 0x4B f s
def execVabs (f : Fields) (s : State) : Result := runArith1 .abs 0x4E f s
def execVneg (f : Fields) (s : State) : Result := runArith1 .neg 0x4F f s

def execVand (f : Fields) (s : State) : Result := runBits 2 0x50 f s fun _ a b => a &&& b
def execVor (f : Fields) (s : State) : Result := runBits 2 0x51 f s fun _ a b => a ||| b
def execVxor (f : Fields) (s : State) : Result := runBits 2 0x52 f s fun _ a b => a ^^^ b

/-- VNOT complements the element's bits (R207). -/
def execVnot (f : Fields) (s : State) : Result :=
  runArray 0x53 f s fun e t => Served.ofR t <| do
    let z := Fmt.size f.fmt.toNat
    elementwise t e f z [((t.me.getV f.a.toNat).source z, z)] false fun _ xs =>
      (eltOf ((2 ^ z - 1) ^^^ (nth xs 0).val) xs, 0)

def execVshl (f : Fields) (s : State) : Result := runBits 2 0x54 f s fun z a b => a <<< (b % z)

/-- VSHR: FN[3] shifts in copies of the top bit (R207). -/
def execVshr (f : Fields) (s : State) : Result :=
  runBits 2 0x55 f s fun z a b =>
    if bit f.fn.toNat 3 then lowBits z (toSigned z a >>> (b % z)) else a >>> (b % z)

/-- VCMP writes one mask bit for each active element (R209). -/
def execVcmp (f : Fields) (s : State) : Result :=
  runArray 0x56 f s fun e t => Served.ofR t <| do
    let fmt := f.fmt.toNat
    let z := Fmt.size fmt
    elementwise t e f z (kindSources t e f z 2) true fun _ xs =>
      let r := cmpElem fmt (bits f.fn.toNat 6 4) f.fsi (nth xs 0).val (nth xs 1).val
      (eltOf (b2n r.1) xs, r.2)

/-- VSEL copies bits of B or C; only the register selected for an element contributes taint (R210). -/
def execVsel (f : Fields) (s : State) : Result :=
  runArray 0x57 f s fun e t => Served.ofR t <| do
    let z := Fmt.size f.fmt.toNat
    let fn := f.fn.toNat
    let b := pickSource t (bit fn 1) e.gb f.b.toNat z
    let c := pickSource t (bit fn 2) e.gc f.c.toNat z
    let k := f.rk.toNat
    let fc ← agreeAll k [b, c]
    let sh := fc.1 ++ fc.2
    maskAgrees t f.a.toNat sh
    elementwise t e f z [(b, z), (c, z)] false fun i xs =>
      let y := if maskBit t f.a.toNat (unravel sh i) then nth xs 0 else nth xs 1
      (y, 0)

/-- VMOV copies element bits for every RK (R205). -/
def moveBits (s : State) (e : Entry) (f : Fields) (d a z : Nat) : R State := do
  let src := s.me.getV a
  let sh := src.shape
  checkMasks s e f sh
  require (decide (count sh ≤ capacity e.grows.toNat z)) cCAPACITY
  commitV s e f d z sh ((List.range (count sh)).map fun i =>
    if isActive s e f sh i then (some (src.elem z i), 0) else (none, 0))

def execVmov (f : Fields) (s : State) : Result :=
  runArray 0x44 f s fun e t => Served.ofR t (moveBits t e f f.d.toNat f.a.toNat (Fmt.size f.fmt.toNat))

/-- An instruction that fills the strip (ROWS, COLS) from nothing but captured values (R204, R206). -/
def fillStrip (s : State) (e : Entry) (f : Fields) (val : Nat → Elt × Flags) : R State := do
  let z := Fmt.size f.fmt.toNat
  let sh := e.strip
  checkMasks s e f sh
  require (decide (count sh ≤ capacity e.grows.toNat z)) cCAPACITY
  commitV s e f f.d.toNat z sh ((List.range (count sh)).map fun i =>
    if isActive s e f sh i then ((some (val i).1, (val i).2) : Option Elt × Flags) else (none, 0))

/-- VBC (R204). -/
def execVbc (f : Fields) (s : State) : Result :=
  runArray 0x43 f s fun e t => Served.ofR t <| fillStrip t e f fun _ =>
    ({ val := e.ga.val.toNat % 2 ^ Fmt.size f.fmt.toNat, taint := e.ga.taint, poison := e.ga.poison }, 0)

/-- VIOTA (R206). -/
def execViota (f : Fields) (s : State) : Result :=
  runArray 0x45 f s fun e t => Served.ofR t <| fillStrip t e f fun i =>
    let v : Int := ((e.stripb.toNat + i) % 2 ^ 64 : Nat)
    let fmt := f.fmt.toNat
    let r := if Fmt.isF fmt then roundFull (fparam fmt) (e.rnd f i) false false (.ofInt v)
             else reduceInt fmt f.sat v
    ({ val := r.1 }, r.2)

/-- VCVT: FN names the source format (R211). -/
def execVcvt (f : Fields) (s : State) : Result :=
  runArray 0x58 f s fun e t => Served.ofR t <| do
    let src := f.fn.toNat
    let zs := Fmt.size src
    let v := t.me.getV f.a.toNat
    let sh := v.shape
    checkMasks t e f sh
    let g := e.grows.toNat
    let zd := Fmt.size f.fmt.toNat
    require (decide (count sh ≤ capacity g zs) && decide (count sh ≤ capacity g zd)) cCAPACITY
    commitV t e f f.d.toNat zd sh ((List.range (count sh)).map fun i =>
      if isActive t e f sh i then
        let x := v.elem zs i
        let r := convElem src f.fmt.toNat (e.rnd f i) f.fsi f.fso f.sat x.val
        (some { x with val := r.1 }, r.2)
      else (none, 0))

/-- The shape of the scale register of a mantissa shape (R71). R71 and R213 are silent on a mantissa register of rank 0,
which has no innermost axis: its scale register has the shape (1), as R212 has it for VQNT (DESIGN CHOICE, log entry 92). -/
def scaleShape (sh : List Nat) (blk : Nat) : List Nat :=
  match sh.reverse with
  | [] => [1]
  | n :: r => (ceilDiv n blk :: r).reverse

/-- VQNT quantises whole blocks along the innermost axis (R212). Every mantissa and scale is written. -/
def execVqnt (f : Fields) (s : State) : Result :=
  runArray 0x59 f s fun e t => Served.ofR t <| do
    let src := f.fn.toNat
    let zs := Fmt.size src
    let v := t.me.getV f.a.toNat
    let sh := if v.shape.isEmpty then [1] else v.shape
    checkMasks t e f sh
    let blk := e.blk
    let p := Fmt.size f.fmt.toNat
    let ssh := scaleShape sh blk
    let g := e.grows.toNat
    let n := count sh
    require (decide (n ≤ capacity g zs) && decide (n ≤ capacity g p) && decide (count ssh ≤ capacity g 8)) cCAPACITY
    let inner := sh.getLastD 1
    let nb := ceilDiv inner blk
    let blocks := (List.range (count ssh)).map fun b =>
      let first := (b / nb) * inner + (b % nb) * blk
      let len := min blk (inner - (b % nb) * blk)
      let idx := upTo first (first + len)
      let act := idx.map fun i => isActive t e f sh i
      let xs := idx.map fun i => v.elem zs i
      let vals := (xs.zip act).map fun q =>
        if q.2 then
          some (if Fmt.isF src then decodeFloat (fparam src) (flushIn (fparam src) f.fsi q.1.val)
                else Val.ofInt (intOf src q.1.val))
        else none
      let blkq := blockQ f.fmt.toNat f.sat vals (idx.map fun i => e.rnd f i)
      let used := ((xs.zip act).filter fun q => q.2).map fun q => q.1
      let m := (blkq.mant.zip act).map fun q => eltOf q.1 (if q.2 then used else [])
      (m, eltOf blkq.scale used, blkq.flags)
    let ms := (blocks.map fun b => b.1).flatten
    let fl := blocks.foldl (fun acc b => acc ||| b.2.2) 0
    let t1 ← commitV t e f f.d.toNat p sh (ms.map fun x => (some x, fl))
    let old := t1.me.getV f.b.toNat
    return t1.setV f.b.toNat (old.write 8 ssh (blocks.map fun b => some b.2.1))

/-- VDQN converts block values (R213). -/
def execVdqn (f : Fields) (s : State) : Result :=
  runArray 0x5A f s fun e t => Served.ofR t <| do
    let src := f.fn.toNat
    let p := Fmt.size src
    let v := t.me.getV f.a.toNat
    let sc := t.me.getV f.b.toNat
    let sh := v.shape
    let blk := e.blk
    require (sc.shape == scaleShape sh blk) cAGREE
    checkMasks t e f sh
    let g := e.grows.toNat
    let zd := Fmt.size f.fmt.toNat
    require (decide (count sh ≤ capacity g p) && decide (count sc.shape ≤ capacity g 8) &&
      decide (count sh ≤ capacity g zd)) cCAPACITY
    let inner := sh.getLastD 1
    let nb := ceilDiv inner blk
    commitV t e f f.d.toNat zd sh ((List.range (count sh)).map fun i =>
      if isActive t e f sh i then
        let x := v.elem p i
        let y := sc.elem 8 ((i / inner) * nb + (i % inner) / blk)
        let r := convKb f.fmt.toNat (e.rnd f i) f.fso f.sat (kbVal src x.val y.val)
        (some (eltOf r.1 [x, y]), r.2)
      else (none, 0))

/-- The chains of an instruction that runs along the leading axis of each cell: for a shape with frame of `nf`
positions, leading extent `n` and `nr` positions of the rest, position (f, j, r) is element (f·n + j)·nr + r. -/
structure Chains where
  nf : Nat
  n : Nat
  nr : Nat

def chainsOf (frame cell : List Nat) : Chains :=
  match cell with
  | [] => { nf := count frame, n := 1, nr := 1 }
  | n :: r => { nf := count frame, n := n, nr := count r }

def Chains.at (c : Chains) (f j r : Nat) : Nat := (f * c.n + j) * c.nr + r

/-- An entry that completes, or stops at a stop point and stays at the head of the image, to be reissued (R218, R236,
R349); a fault leaves the state as it was. -/
def Served.ofParts (s : State) (r : R (State × Bool)) : Served :=
  match r with
  | .ok (t, true) => .done t
  | .ok (t, false) => .wait { t with me := { t.me with reissued := true } }
  | .error x => .stop s x

/-- Where VRCR stops short of its end: after so many units of 64 positions, at the first multiple of 64 whose position
before is active in every chain (R218). -/
def vrcrStop (bound : Option Nat) (start n : Nat) (active : Nat → Bool) : Nat :=
  match bound with
  | none => n
  | some k =>
    (((List.range (n / 64 + 1)).map (64 * ·)).find? fun j =>
      decide (start < j) && decide (64 * (start / 64 + k) ≤ j) && decide (j < n) && active (j - 1)).getD n

/-- VRCR (R217). A reissued entry continues at position PROG − 1, with the carry read back from D (R218). With bit 63 of PROG set, which
the rule does not speak of, it starts from position 0 (DESIGN CHOICE, log entry 130). The carry that it reads back is no source that
TNT looks at (DESIGN CHOICE, log entry 132). -/
def execVrcr (f : Fields) (s : State) : Result :=
  runArray 0x5C f s fun e t => Served.ofParts t <| do
    let fmt := f.fmt.toNat
    let z := Fmt.size fmt
    let a := (t.me.getV f.a.toNat).source z
    let b := (t.me.getV f.b.toNat).source z
    let k := f.rk.toNat
    let fc ← agreeAll k [a, b]
    let sh := fc.1 ++ fc.2
    checkMasks t e f sh
    let g := e.grows.toNat
    fitsSource g z a
    fitsSource g z b
    require (decide (sh.length ≤ 4) && decide (count sh ≤ capacity g z)) cCAPACITY
    let ch := chainsOf fc.1 fc.2
    let start := if t.me.reissued && t.me.prog != 0 && !bit t.me.prog.toNat 63 then t.me.prog.toNat - 1 else 0
    let stop := vrcrStop t.me.bound start ch.n fun j =>
      (List.range ch.nf).all fun fr => (List.range ch.nr).all fun r => isActive t e f sh (ch.at fr j r)
    let old := t.me.getV f.d.toNat
    let carry0 (fr r : Nat) : Elt := if start = 0 then {} else old.elem z (ch.at fr (start - 1) r)
    let chain (fr r : Nat) : List (Nat × Option Elt × Flags) :=
      ((List.range ch.n).foldl (fun (acc : Elt × List (Nat × Option Elt × Flags)) j =>
        let i := ch.at fr j r
        if j < start || stop ≤ j then (acc.1, (i, none, 0) :: acc.2)
        else if isActive t e f sh i then
          let xs := elemsAt k fc [a, b] i
          let q := arithElem .fma (e.mode f fmt i) (nth xs 0).val acc.1.val (nth xs 1).val
          let y := eltOf q.1 (acc.1 :: xs)
          (y, (i, some y, q.2) :: acc.2)
        else (acc.1, (i, none, 0) :: acc.2)) (carry0 fr r, [])).2
    let done := ((List.range ch.nf).map fun fr => ((List.range ch.nr).map fun r => chain fr r).flatten).flatten
    let judged (i : Nat) : Bool := let j := i / ch.nr % ch.n; decide (start ≤ j) && decide (j < stop)
    let live := (List.range (count sh)).any fun i => isActive t e f sh i && judged i
    let tainted := live && ((t.me.getV f.a.toNat).taint || (t.me.getV f.b.toNat).taint || t.masksTainted e f)
    require (start == 0 || !(trapsTaint f && (tainted || gvTainted e || e.qt != 0))) cTAINT
    let t1 ← commitV t e (if start = 0 then f else { f with sched := 0 }) f.d.toNat z sh ((List.range (count sh)).map fun i => ((done.lookup i).getD (none, 0))) judged
    let whole := decide (ch.n ≤ stop)
    return ({ t1 with me := { t1.me with prog := if whole then 0 else BitVec.ofNat 64 (1 + stop) } }, whole)

/-! ### Masks (R219-R221) -/

/-- A mask as a source: m0 takes the other source's shape, or (ROWS, COLS) (R56). -/
def maskShape (s : State) (e : Entry) (n other : Nat) : List Nat :=
  if n != 0 then (s.me.getM n).shape
  else if other != 0 then (s.me.getM other).shape
  else e.strip

def maskTaint (s : State) (n : Nat) : Bool := n != 0 && (s.me.getM n).taint

/-- A logic operation on two masks (R219). Every position is computed. -/
def runMask (op : BitVec 8) (f : Fields) (s : State) (g : Bool → Bool → Bool) : Result :=
  runArray op f s fun e t => Served.ofR t <| do
    let a := f.a.toNat
    let b := f.b.toNat
    let sh ← agree (maskShape t e a b) (maskShape t e b a)
    require (decide (count sh ≤ capacity e.grows.toNat 1)) cCAPACITY
    let taint := maskTaint t a || maskTaint t b
    let xs := (List.range (count sh)).map fun i =>
      let idx := unravel sh i
      ((some { val := b2n (g (maskBit t a idx) (maskBit t b idx)), taint := taint }, 0) : Option Elt × Flags)
    let t1 ← consume t e f (!xs.isEmpty && taint) false
    return t1.setM f.d.toNat ((t.me.getM f.d.toNat).write sh (xs.map fun p => p.1))

def execMand (f : Fields) (s : State) : Result := runMask 0x5D f s fun a b => a && b
def execMor (f : Fields) (s : State) : Result := runMask 0x5E f s fun a b => a || b
def execMxor (f : Fields) (s : State) : Result := runMask 0x5F f s fun a b => a != b

def execMnot (f : Fields) (s : State) : Result :=
  runArray 0x60 f s fun e t => Served.ofR t <| do
    let a := f.a.toNat
    let sh := maskShape t e a 0
    require (decide (count sh ≤ capacity e.grows.toNat 1)) cCAPACITY
    let taint := maskTaint t a
    let xs := (List.range (count sh)).map fun i =>
      some { val := b2n (!maskBit t a (unravel sh i)), taint := taint }
    let t1 ← consume t e f (!xs.isEmpty && taint) false
    return t1.setM f.d.toNat ((t.me.getM f.d.toNat).write sh xs)

/-- The set positions of a mask within a shape, ascending. -/
def setPositions (s : State) (n : Nat) (sh : List Nat) : List Nat :=
  (List.range (count sh)).filter fun i => maskBit s n (unravel sh i)

def execMpop (f : Fields) (s : State) : Result :=
  runArray 0x61 f s fun e t => Served.ofR t <| do
    let sh := maskShape t e f.a.toNat 0
    let n := if f.a.toNat == 0 then count sh else (setPositions t f.a.toNat sh).length
    commitG t e f f.d.toNat { val := n, taint := maskTaint t f.a.toNat && count sh != 0 }

def execMfirst (f : Fields) (s : State) : Result :=
  runArray 0x62 f s fun e t => Served.ofR t <| do
    let sh := maskShape t e f.a.toNat 0
    let n := match findFrom (fun i => maskBit t f.a.toNat (unravel sh i)) (count sh) 0 with
      | some i => i
      | none => 2 ^ 64 - 1
    commitG t e f f.d.toNat { val := n, taint := maskTaint t f.a.toNat && count sh != 0 }

/-- MSET (R221). -/
def execMset (f : Fields) (s : State) : Result :=
  runArray 0x63 f s fun e t => Served.ofR t <| do
    let sh := [e.ga.val.toNat, e.gb.val.toNat]
    require (sh.all (fun n => decide (n ≤ 65535)) && decide (count sh ≤ e.grows.toNat * 2048)) cCAPACITY
    let t1 ← consume t e f (gvTainted e) (gvPoisoned e)
    let v := f.fn.toNat % 2
    return t1.setM f.d.toNat ((t.me.getM f.d.toNat).write sh
      ((List.range (count sh)).map fun _ => some { val := v, taint := gvTainted e }))

/-! ### Elements and shape tags (R222-R225) -/

def execVext (f : Fields) (s : State) : Result :=
  runArray 0x64 f s fun e t => Served.ofR t <| do
    let fmt := f.fmt.toNat
    let z := Fmt.size fmt
    let v := t.me.getV f.a.toNat
    require (decide (count v.shape ≤ capacity e.grows.toNat z)) cCAPACITY
    let n := e.gb.val.toNat
    if n < count v.shape then
      let x := v.elem z n
      let y := if Fmt.isI fmt || Fmt.isK fmt then lowBits 64 (toSigned z x.val) else x.val
      commitG t e f f.d.toNat { val := y, taint := x.taint || e.gb.taint, poison := x.poison || e.gb.poison }
    else commitG t e f f.d.toNat { val := 0, taint := e.gb.taint, poison := e.gb.poison }

/-- VINS (R223): vD's tag never changes; its taint becomes the OR of its own and that of g[A]. Where g[B] is not below the count,
"nothing changes" is read to hold of the taint too (DEDUCED, log entry 117). -/
def execVins (f : Fields) (s : State) : Result :=
  runArray 0x65 f s fun e t => Served.ofR t <| do
    let z := Fmt.size f.fmt.toNat
    let v := t.me.getV f.d.toNat
    require (decide (count v.shape ≤ capacity e.grows.toNat z)) cCAPACITY
    let n := e.gb.val.toNat
    let t1 ← consume t e f (gvTainted e) (gvPoisoned e && decide (n < count v.shape))
    if n < count v.shape then
      let p := n * z
      let rows := (2 ^ ((p + z - 1) / 2048 + 1 - p / 2048) - 1) <<< (p / 2048)
      return t1.setV f.d.toNat { v with
        buf := setBits v.buf (p + z - 1) p (e.ga.val.toNat % 2 ^ z)
        taint := v.taint || e.ga.taint
        poison := if gvPoisoned e then v.poison ||| rows else v.poison }
    else return t1

/-- The extents that SHTAG names (R224). -/
def tagShape (e : Entry) (f : Fields) : List Nat :=
  [e.ga.val.toNat, e.gb.val.toNat, e.gc.val.toNat, e.ge.val.toNat].take (bits f.imm.toNat 2 0)

/-- SHTAG replaces a tag and zeroes the bits of growth (R224). The rules do not say what a tainted or poisoned extent does: it
taints the register and sets PSN, and poisons no row (DESIGN CHOICE, log entry 104). -/
def execShtag (f : Fields) (s : State) : Result :=
  runArray 0x66 f s fun e t => Served.ofR t <| do
    let sh := tagShape e f
    let isM := bit f.fn.toNat 0
    let z := if isM then 1 else Fmt.size f.fmt.toNat
    require (sh.all (fun n => decide (n ≤ 65535)) && decide (count sh ≤ capacity e.grows.toNat z)) cCAPACITY
    let t1 ← consume t e f (gvTainted e) (gvPoisoned e)
    let n := count sh
    let grow (buf old : Nat) : Nat := if old < n then setBits buf (n * z - 1) (old * z) 0 else buf
    if isM then
      let m := t.me.getM f.d.toNat
      return t1.setM f.d.toNat { m with shape := sh, buf := grow m.buf (count m.shape), taint := m.taint || gvTainted e }
    else
      let v := t.me.getV f.d.toNat
      return t1.setV f.d.toNat { v with
        shape := sh, buf := grow v.buf (count v.shape), wsize := z, taint := v.taint || gvTainted e }

/-- SHGET (R225). It reads a tag and no element, and R225 says nothing of taint: the taint bit of the register or mask whose tag it
reads goes to g[D], also where the shape is empty (DESIGN CHOICE, log entry 116). -/
def execShget (f : Fields) (s : State) : Result :=
  runArray 0x67 f s fun e t => Served.ofR t <| do
    let isM := bit f.fn.toNat 0
    let sh := if isM then maskShape t e f.a.toNat 0 else (t.me.getV f.a.toNat).shape
    let item := bits f.fn.toNat 7 4
    let x := if item == 0 then sh.length else if item ≤ 4 then sh[item - 1]?.getD 0 else count sh
    let taint := if isM then maskTaint t f.a.toNat else (t.me.getV f.a.toNat).taint
    commitG t e f f.d.toNat { val := x, taint := taint }

end Sys2Proof.Machine
end

