-- ==== Sys2Proof/Machine/Strip.lean ====
section
/-! DEFINITION. The meanings of VLD and VST in both forms (R197-R203), of SETL (R194-R196, R33), and of a matched load
of a spliced body (R363). -/

namespace Sys2Proof.Machine

/-- Where the elements of a strip lie (R198, R199): the bit address of element `i`, none outside the extents; the fill
value; for a kb format the byte address of the scale of scale-register element `b`. -/
structure Strip where
  addr : Nat → Option Int
  fill : Nat
  scale : Nat → Option Int

/-- The TID form (R198, R200). FILL has 32 bits; an element of 64 bits outside the extents reads it zero-extended (DESIGN
CHOICE, log entry 105). -/
def tidStrip (t : TEntry) (e : Entry) (row0 col0 : Int) : Strip :=
  let cols := e.cols.toNat
  let outer := t.shape.take (t.rank - 1)
  let nrow := count outer
  let ncol := if t.rank == 0 then 1 else t.ext (t.rank - 1)
  let blk := e.blk
  let at? (i j : Nat) : Option (List Nat) :=
    let row := row0 + i
    let col := col0 + j
    if 0 ≤ row ∧ row < (nrow : Int) ∧ 0 ≤ col ∧ col < (ncol : Int) then
      some (if t.rank == 0 then [] else unravel outer row.toNat ++ [col.toNat])
    else none
  { addr := fun k => (at? (k / cols) (k % cols)).map t.addr
    fill := t.fill % 2 ^ Fmt.size t.fmt
    scale := fun b =>
      let nb := ceilDiv cols blk
      (at? (b / nb) ((b % nb) * blk)).map fun idx => t.scaleAddr blk idx * 8 }

/-- The pointer form (R199, R200). -/
def ptrStrip (e : Entry) (f : Fields) : Strip :=
  let z := Fmt.size f.fmt.toNat
  let cols := e.cols.toNat
  let base : Int := (e.ga.val.toNat : Int)
  let stride : Int := e.gb.val.toInt
  let boff := bits f.imm.toNat 2 0
  { addr := fun k =>
      some (base * 8 + boff + ((k / cols : Nat) : Int) * stride * 8 + ((k % cols : Nat) : Int) * z)
    fill := 0
    scale := fun b =>
      let nb := ceilDiv cols e.blk
      some ((base + ((b / nb : Nat) : Int) * stride + ((boff + cols * z + 7) / 8 : Nat) + ((b % nb : Nat) : Int)) * 8) }

/-- The strip of a VLD or VST with its checks before any access: TIDINV (R198), and, last, ALIGN (R199, R200). -/
def stripOf (s : State) (e : Entry) (f : Fields) : R (Strip × R Unit) := do
  let z := Fmt.size f.fmt.toNat
  if bit f.fn.toNat 0 then
    let ok := z < 8 || (e.ga.val.toNat % (z / 8) == 0 && e.gb.val.toNat % (z / 8) == 0)
    return (ptrStrip e f, require ok cALIGN e.ga.val.toNat)
  else
    let t : TEntry := s.me.getT f.a.toNat
    useEntry t f.fmt.toNat
    let col0 := e.gc.val.toInt
    return (tidStrip t e e.gb.val.toInt col0, require (!Fmt.isK f.fmt.toNat || col0 % e.blk == 0) cALIGN)

/-- The fault of an element carries the byte address of that element (R201). -/
def atElement {α : Type} (ba : Int) (r : R α) : R α :=
  match r with
  | .ok x => .ok x
  | .error x => .error { x with faddr := BitVec.ofNat 64 (byteOfBit ba) }

/-- How far a walk over elements came: the elements in reverse order, how many positions it passed, and the fault that
stopped it. -/
structure Walked where
  els : List (Option Elt) := []
  passed : Nat := 0
  stopped : Option Flt := none

/-- Read the active elements in order; stop at the first fault. R201 has the earlier elements written under the tag S and does
not say what the later positions hold: they fare as inactive ones (DESIGN CHOICE, log entry 106). -/
def readStrip (s : State) (e : Entry) (f : Fields) (z n : Nat) (act : Nat → Bool) (addr : Nat → Option Int)
    (fill : Nat) : Walked :=
  (List.range n).foldl (fun acc i =>
    let go (x : Option Elt) : Walked := { acc with els := x :: acc.els, passed := i + 1 }
    if acc.stopped.isSome then { acc with els := none :: acc.els }
    else if !act i then go none
    else
      match addr i with
      | none => go (some { val := fill, taint := gvTainted e, poison := gvPoisoned e })
      | some ba =>
        match atElement ba (s.readElem s.vd ba z) with
        | .error x => { acc with els := none :: acc.els, stopped := some x }
        | .ok r =>
          if trapsTaint f && r.2.1 then { acc with els := none :: acc.els, stopped := some { cause := cTAINT } }
          else go (some { val := r.1, taint := r.2.1 || gvTainted e, poison := r.2.2 || gvPoisoned e }))
    {}

/-- Is any element of scale `b`'s block active (R200)? -/
def blockActive (cols blk b : Nat) (act : Nat → Bool) : Bool :=
  let nb := ceilDiv cols blk
  let first := (b / nb) * cols + (b % nb) * blk
  (List.range (min blk (cols - (b % nb) * blk))).any fun j => act (first + j)

/-- VLD (R198-R201): the destination takes the tag (ROWS, COLS); a faulting element stops it. R201 does not order the
accesses to mantissas and scales of a kb strip: every mantissa comes before any scale byte, and a fault of a mantissa leaves
the scale register as it was (DESIGN CHOICE, log entry 90). -/
def loadStrip (e : Entry) (f : Fields) (s : State) : Served :=
  let z := Fmt.size f.fmt.toNat
  let isK := Fmt.isK f.fmt.toNat
  let sh := e.strip
  let n := count sh
  let act := isActive s e f sh
  let nb := ceilDiv e.cols.toNat e.blk
  let ssh := [e.rows.toNat, nb]
  let r : R (Strip × State) := do
    let p ← stripOf s e f
    checkMasks s e f sh
    let g := e.grows.toNat
    require (decide (n ≤ capacity g z) && (!isK || decide (count ssh ≤ capacity g 8))) cCAPACITY
    require (!(trapsTaint f && (gvTainted e || e.qt != 0 || ((List.range n).any act && s.masksTainted e f)))) cTAINT
    p.2
    return (p.1, s)
  match r with
  | .error x => .stop s x
  | .ok (p, _) =>
    let w := readStrip s e f z n act p.addr p.fill
    let ws : Walked :=
      if isK && w.stopped.isNone then
        readStrip s e f 8 (count ssh) (fun b => blockActive e.cols.toNat e.blk b act) p.scale 0
      else {}
    let els := w.els.reverse
    let kept := (s.me.getV f.d.toNat).keepsPoison z els (fun i => decide (i < w.passed)) ||
      (s.me.getV f.e.toNat).keepsPoison 8 ws.els.reverse (fun i => decide (i < ws.passed))
    let poison := kept || (els ++ ws.els).any fun x => (x.map Elt.poison).getD false
    if poison && s.poisonTrap then .stop s { cause := cPOISON }
    else
      let s1 := (s.raise (flagIf poison flPSN)).setV f.d.toNat ((s.me.getV f.d.toNat).write z sh els)
      let s2 := if isK && w.stopped.isNone then
          s1.setV f.e.toNat ((s1.me.getV f.e.toNat).write 8 ssh ws.els.reverse)
        else s1
      match w.stopped, ws.stopped with
      | some x, _ => .stop s2 x
      | none, some x => .stop s2 x
      | none, none => .done s2

/-- Plan the stores of active elements in order, up to the first fault: the write set and the Manifest units. -/
structure Planned where
  ws : List GWrite := []
  units : List (Nat × Bool × Bool) := []
  stopped : Option Flt := none

def planStrip (s : State) (z n : Nat) (act : Nat → Bool) (addr : Nat → Option Int) (val : Nat → Elt)
    (p0 : Planned) : Planned :=
  (List.range n).foldl (fun acc i =>
    if acc.stopped.isSome || !act i then acc
    else
      match addr i with
      | none => acc
      | some ba =>
        let x := val i
        match atElement ba (s.planWrite s.vd acc.ws ba z x.val x.taint x.poison) with
        | .error y => { acc with stopped := some y }
        | .ok ws => { acc with ws := ws, units := (elemUnit ba z x.val, x.taint, x.poison) :: acc.units }) p0

/-- Perform planned stores of the word at `pc` as plain writes of an agent, with their units (R389). -/
def State.performAs (s : State) (who : Nat) (pc : Word) (p : Planned) : State :=
  let second := s.isConsumer pc
  let s1 := s.writeAll who p.ws
  { s1 with me := p.units.foldl (fun acc u => acc.foldUnit second u.1 u.2.1 u.2.2) s1.me }

/-- Perform planned stores as plain writes of the focused strand's array sequencer. -/
def State.perform (s : State) (pc : Word) (p : Planned) : State := s.performAs s.me.sid pc p

/-- Is the store elided in a spliced body (R364)? -/
def elided (s : State) (e : Entry) (f : Fields) : Bool :=
  !bit f.fn.toNat 0 && TEntry.trns (s.me.getT f.a.toNat) &&
    (match s.spliceWord? s.me.launch.toNat e.pc with
     | some w => w.body
     | none => false)

/-- VST (R198-R203): it stores the first ROWS × COLS elements of vD; a faulting element stops it. What it stores it
consumes: the elements inside the extents up to a fault, and the scales of their blocks (R81, R191). Mantissas come before
scales, as in VLD (DESIGN CHOICE, log entry 90). -/
def storeStrip (e : Entry) (f : Fields) (s : State) : Served :=
  let z := Fmt.size f.fmt.toNat
  let isK := Fmt.isK f.fmt.toNat
  let sh := e.strip
  let n := count sh
  let act := isActive s e f sh
  let ssh := [e.rows.toNat, ceilDiv e.cols.toNat e.blk]
  let v := s.me.getV f.d.toNat
  let sc := s.me.getV f.e.toNat
  let mix (x : Elt) : Elt := { x with taint := x.taint || gvTainted e, poison := x.poison || gvPoisoned e }
  let any := (List.range n).any act
  let r : R Strip := do
    let p ← stripOf s e f
    checkMasks s e f sh
    require (!isK || sc.shape == ssh) cAGREE
    require (decide (n ≤ count v.shape) && decide (count v.shape ≤ capacity e.grows.toNat z)) cCAPACITY
    require (!(trapsTaint f && ((any && (v.taint || (isK && sc.taint) || s.masksTainted e f)) ||
      gvTainted e || e.qt != 0))) cTAINT
    p.2
    return p.1
  match r with
  | .error x => .stop s x
  | .ok p =>
    let pl := planStrip s z n act p.addr (fun i => mix (v.elem z i)) {}
    let pl2 := if isK && pl.stopped.isNone then
        planStrip s 8 (count ssh) (fun b => blockActive e.cols.toNat e.blk b act) p.scale (fun b => mix (sc.elem 8 b)) pl
      else pl
    let poison := pl2.units.any fun u => u.2.2
    if poison && s.poisonTrap then .stop s { cause := cPOISON }
    else
      let s0 := s.raise (flagIf poison flPSN)
      if elided s e f then .done s0
      else
        let s2 := s0.perform e.pc pl2
        match pl2.stopped with
        | some x => .stop s2 x
        | none => .done s2

def execVldTid (f : Fields) (s : State) : Result := runArray 0x41 f s fun e t => loadStrip e f t
def execVldPtr (f : Fields) (s : State) : Result := runArray 0x41 f s fun e t => loadStrip e f t
def execVstTid (f : Fields) (s : State) : Result := runArray 0x42 f s fun e t => storeStrip e f t
def execVstPtr (f : Fields) (s : State) : Result := runArray 0x42 f s fun e t => storeStrip e f t

/-- A matched load of a spliced body (R363): where the store it is matched with entered the queue in this pass with
the same row0, col0, ROWS, COLS and AMB, and AMB names m0, it moves the store's source as VMOV does; otherwise it is
the original VLD. Its word stands at the head of the queue. -/
def execSpliceMove (f : Fields) (s : State) : Result :=
  runArray 0x41 f s fun e t =>
    match t.spliceWord? t.me.launch.toNat e.pc with
    | some { matched := some (v, pc), .. } =>
      match t.me.spliced.find? fun r => r.pc == pc && r.vreg == v with
      | some r =>
        if r.row0 == e.gb.val && r.col0 == e.gc.val && r.rows == e.rows && r.cols == e.cols && r.amb == e.amb &&
            e.amb == 0 then
          Served.ofR t (moveBits t e { f with gm := 0 } f.d.toNat v (Fmt.size f.fmt.toNat))
        else loadStrip e f t
      | none => loadStrip e f t
    | _ => loadStrip e f t

/-! ### SETL (R33, R194-R196) -/

/-- The unit of a pointer slot, in bytes for SIZE 0-4 and in bits for SIZE 5-7 (R194). -/
def setlUnit (imm fn k : Nat) : Nat :=
  let size := bits imm (8 * k + 7) (8 * k + 5)
  let m := bits fn (2 * k + 1) (2 * k)
  let u := match size with
    | 0 => 1
    | 1 => 2
    | 2 => 4
    | 3 => 8
    | 4 => 16
    | 5 => 6
    | 6 => 4
    | _ => 2
  if m == 1 then u - 1 else if m == 2 then u + 1 else u

/-- Advance the pointer registers in slot order; a register in two slots advances twice (R195). -/
def advancePointers (e : Entry) (f : Fields) (n : Nat) (m : Strand) : Strand :=
  (List.range 4).foldl (fun (acc : Strand × List Nat) k =>
    let r := setlReg f.imm.toNat k
    if r == 0 then acc
    else
      let cur := if acc.2.contains r then acc.1.getG r else (e.gv[4 + k]?).getD {}
      let x := { cur with val := cur.val + BitVec.ofNat 64 (n * setlUnit f.imm.toNat f.fn.toNat k) }
      (acc.1.setG r x, r :: acc.2)) (m, []) |>.1

/-- Has the launch's producer completed (R33, R135)? Its releases are what the acquire then learns, be it that the producer was
cancelled (R291; DESIGN CHOICE, log entry 136). -/
def State.producerDone (s : State) : Bool × Clock :=
  match s.myLaunch.producer with
  | .none => (false, [])
  | .dead => (true, [])
  | .live lid =>
    match s.launch? lid with
    | none => (true, [])
    | some l => (l.state == .done || l.state == .cancelled, l.endClock)

/-- The watch limit of R33: the rows granted, or none while SETL must sleep; and the state after its reads of the
watch and of the producer, each followed by an acquire at fabric scope. Under TNT a tainted watch raises TAINT (R100). -/
def watchLimit (s : State) (f : Fields) (rows cols p watch : Nat) : R (State × Option Nat) := do
  if watch == 0 then return (s, some rows)
  require (watch % 8 == 0) cALIGN watch
  require (decide (watch < 2 ^ 56)) cXLATE watch
  let pa ← s.transAt s.vd .rd watch
  let done := s.producerDone
  if cols == 0 || (done.1 && s.me.sleep.isNone) then return (s, some rows)
  require (!(trapsTaint f && s.memTaint.contains (pa / 32))) cTAINT
  let w := memRead s.mem pa 8
  let s1 := s.homeSync (pa / 32) true
  let s1 := { s1 with me := { s1.me with clock := clockJoin s1.me.clock (if done.1 then done.2 else []) } }.acquire 4
  let avail := w - p
  if done.1 then return (s1, some rows)
  else if cols ≤ avail || rows == 0 then return (s1, some (min rows (avail / cols)))
  else return (s1, none)

/-- SETL acts at its wake, or at once without a watch (R195). A SETL reissued at a lower residency grants at most as many rows as the
GROWS in force beside the one that it captured (R14, R18, R20; DEDUCED, log entry 91). The joined SETL of a spliced kernel begins a
pass (R363).
A poisoned g[A], g[B] or g[C] poisons g[D], as R156 has it for the scalar stream (DESIGN CHOICE, log entry 40). -/
def serveSetl (e : Entry) (f : Fields) (s : State) : Served :=
  let n := e.rows.toNat * e.cols.toNat
  let p := (e.stripb.toNat + n) % 2 ^ 64
  let z := Fmt.size (bits e.vcfg.toNat 4 0)
  let capE := e.grows.toNat * 2048 / z
  let cols := min (min e.gb.val.toNat 65535) capE
  let rows := if cols == 0 then 0 else min (min e.ga.val.toNat (min e.grows.toNat s.me.grows)) (capE / cols)
  let go : R (State × Option Nat) := do
    require (!(trapsTaint f && (gvTainted e || e.qt != 0))) cTAINT
    require (!(gvPoisoned e && s.poisonTrap)) cPOISON
    watchLimit s f rows cols p e.gc.val.toNat
  match go with
  | .error x => .stop s x
  | .ok (s1, none) =>
    .wait { s1 with me := { s1.me with sleep := some (s1.me.sleep.getD { since := s1.now }) } }
  | .ok (s1, some r) =>
    let m := advancePointers e f n s1.me
    let second := (s1.spliceWord? s1.me.launch.toNat e.pc).bind SpliceWord.second
    let m1 := { m with rows := BitVec.ofNat 16 r, cols := BitVec.ofNat 16 cols, stripb := BitVec.ofNat 64 p
                       spliced := if second.isSome then [] else m.spliced }
    let out : GReg := { val := BitVec.ofNat 64 r, taint := e.ga.taint || e.gb.taint || e.gc.taint,
                        poison := e.ga.poison || e.gb.poison || e.gc.poison }
    let m1' := match second with
      | some d2 => m1.setG d2 out
      | none => m1
    let m2 := (m1'.raise (flagIf (gvPoisoned e) flPSN)).setG f.d.toNat out
    let off := bits f.imm.toNat 47 32
    let m3 := if r == 0 && off != 0 then { m2 with pc := e.pc + (BitVec.ofNat 16 off).signExtend 64 * 16 } else m2
    .done { s1 with me := m3 }

def execSetl (f : Fields) (s : State) : Result := runArray 0x40 f s fun e t => serveSetl e f t

/-- The word at the head of the queue, if its opcode is `op`: the entry and its fields. -/
def State.headWord (s : State) (op : BitVec 8) : Option Fields :=
  match s.me.queue with
  | e :: _ => if opOf e.word == op then some (fieldsOf e.word) else none
  | [] => none

/-- A SETL that sleeps on its watch evaluates its condition again (R33, R39), while its strand may issue. -/
def execSetlWake (s : State) : Result :=
  match s.headWord 0x40 with
  | some f => if s.mayWake then execSetl f s else .next s
  | none => .next s

end Sys2Proof.Machine
end

