-- ==== Sys2Proof/Machine/Structural.lean ====
section
/-! DEFINITION. The meanings of the structural array instructions (R226-R256): operands that are array registers or
tensor identifiers, units of work with PROG, and each instruction's result. -/

namespace Sys2Proof.Machine

/-! ### Operands and checks (R228-R233) -/

/-- A structural operand: its shape, its elements by row-major index, its fill value (R231), and its entry when it is
a tensor identifier. -/
structure SOpd where
  sh : List Nat
  elem : State → Nat → R Elt
  fill : Elt
  ten : Option TEntry
  taint : Bool

/-- An element of a tensor by its indices: outside the extents it reads as the entry's FILL (R65, R228); under TNT a
tainted granule raises TAINT at it (R100). -/
def tensorAt (f : Fields) (t : TEntry) (s : State) (idx : List Nat) : R Elt :=
  if inside t.shape idx then do
    let r ← s.readElem s.vd (t.addr idx) (Fmt.size t.fmt)
    require (!(trapsTaint f && r.2.1)) cTAINT
    return { val := r.1, taint := r.2.1, poison := r.2.2 }
  else .ok { val := t.fill % 2 ^ Fmt.size t.fmt }

/-- An element of a tensor by row-major index. -/
def tensorElem (f : Fields) (t : TEntry) (s : State) (i : Nat) : R Elt := tensorAt f t s (unravel t.shape i)

/-- Slot `n` as a structural operand, by a kind bit (R93, R228). -/
def sopd (s : State) (f : Fields) (isT : Bool) (n z : Nat) : SOpd :=
  if isT then
    let t : TEntry := s.me.getT n
    { sh := t.shape, elem := tensorElem f t, fill := { val := t.fill % 2 ^ z }, ten := some t, taint := false }
  else
    let v := s.me.getV n
    { sh := v.shape, elem := fun _ i => .ok (v.elem z i), fill := {}, ten := none, taint := v.taint }

/-- The tensor operands of a word must be valid and of its format (R228). -/
def useTensors (s : State) (f : Fields) (slots : List (Bool × BitVec 6)) : R Unit :=
  (slots.filter fun p => p.1).forM fun p => useEntry (s.me.getT p.2.toNat) f.fmt.toNat

/-- Limits of an operand (R228, R50). -/
def fitsOpd (e : Entry) (k z : Nat) (o : SOpd) : R Unit :=
  match o.ten with
  | some _ => require (decide (count (frameOf k o.sh) < 2 ^ 31) && decide (count (cellOf k o.sh) < 2 ^ 32)) cCAPACITY
  | none => require (decide (count o.sh ≤ capacity e.grows.toNat z)) cCAPACITY

/-- A register operand of a fixed format must fit at its own size (R229, R50). -/
def fitsReg (e : Entry) (z : Nat) (v : VReg) : R Unit :=
  require (decide (count v.shape ≤ capacity e.grows.toNat z)) cCAPACITY

/-- A rank-0 cell acts as a cell of shape (1) (R230). -/
def majorCell (c : List Nat) : List Nat := if c.isEmpty then [1] else c

/-- Where a result goes: an array register, or a tensor with its entry. -/
structure Dest where
  n : Nat
  z : Nat
  ten : Option TEntry

def destOf (s : State) (f : Fields) (z : Nat) (mayBeT : Bool) : Dest :=
  if mayBeT && bit f.fn.toNat 0 then { n := f.d.toNat, z := z, ten := some (s.me.getT f.d.toNat) }
  else { n := f.d.toNat, z := z, ten := none }

/-- The rank of the result must be the entry's (R228): AGREE. -/
def Dest.agrees (d : Dest) (sh : List Nat) : R Unit :=
  match d.ten with
  | some t => require (t.rank == sh.length) cAGREE
  | none => .ok ()

/-- The result must fit a register (R50, R228). -/
def Dest.fits (d : Dest) (e : Entry) (sh : List Nat) : R Unit :=
  match d.ten with
  | some _ => .ok ()
  | none => require (decide (sh.length ≤ 4) && sh.all (fun n => decide (n ≤ 65535)) &&
      decide (count sh ≤ capacity e.grows.toNat d.z)) cCAPACITY

/-- OVERLAP against the tensor sources (R233). Where both sources overlap the destination, R233 does not say which one FADDR speaks
of: A is looked at before B (DESIGN CHOICE, log entry 119). -/
def Dest.overlaps (d : Dest) (srcs : List SOpd) (allowed : TEntry → Bool) : R Unit :=
  match d.ten with
  | none => .ok ()
  | some t => srcs.forM fun o => match o.ten with
    | some u => checkOverlap t u (allowed u)
    | none => .ok ()

/-! ### Units of work (R234-R236) -/

/-- Evaluate every element; of several faults the one at the lowest byte stands (R234);
TAINT stands only where every address translates. -/
def allOrLowest {α : Type} (xs : List (R α)) : R (List α) :=
  let bad := xs.filterMap fun x => match x with
    | .error e => some e
    | .ok _ => none
  match bad with
  | [] => .ok (xs.filterMap fun x => match x with
    | .ok a => some a
    | .error _ => none)
  | b :: bs => .error (bs.foldl (fun m x =>
      if x.cause != cTAINT && (m.cause == cTAINT || decide (x.faddr < m.faddr)) then x else m) b)

/-- A result position with its new element, none where it is inactive, and its flags. -/
abbrev Piece := Nat × Option Elt × Flags

/-- PROG that names a result position (R235). -/
def progOf (cell p : Nat) : Word :=
  BitVec.ofNat 64 (2 ^ 63 + ((if cell == 0 then 0 else p / cell) % 2 ^ 31) <<< 32 +
    (if cell == 0 then 0 else p % cell) % 2 ^ 32)

/-- The result position at which an entry begins (R236): only the first entry of a reissued image reads PROG. A CPOS at or beyond the
count of a result cell counts on into the next cells (DESIGN CHOICE, log entry 131). -/
def startOf (s : State) (cell : Nat) : Nat :=
  if s.me.reissued && bit s.me.prog.toNat 63 then fld s.me.prog 62 32 * cell + fld s.me.prog 31 0 else 0

/-- Positions `a` to `b − 1` cut into units of `u` (R234). -/
def cutUnits (u a b : Nat) : List (List Nat) :=
  (List.range (ceilDiv (b - a) u)).map fun i => upTo (a + i * u) (min b (a + (i + 1) * u))

/-- Elements of one unit of the result (R234): as many as it may cover at most, counted from where the entry begins; the units of a
SCAN are the runs between its stop points, whatever their size (DESIGN CHOICE, log entry 120). -/
def unitSize (e : Entry) (z : Nat) : Nat := max 1 (e.grows.toNat * 2048 / z)

/-- What a structural instruction has done so far: the state, the register pieces, its own carry, and where it stopped:
at a fault, or with none at a stop point. -/
structure Progress (C : Type) where
  s : State
  pieces : List Piece
  carry : C
  stopped : Option (Option Flt × Nat)
  /-- An active position has read a tainted source (R237). -/
  taint : Bool := false

/-- What the computation of one unit gives: its pieces, the carry for the next unit, and whether it read a poisoned or a
tainted source beside those of its elements (R237). -/
structure UnitOut (C : Type) where
  pieces : List Piece
  carry : C
  poison : Bool := false
  taint : Bool := false

/-- Is a result position kept: every one of a register, and those of a tensor inside its extents (R228)? -/
def Dest.holds (d : Dest) (sh : List Nat) (i : Nat) : Bool :=
  match d.ten with
  | some t => inside t.shape (unravel sh i)
  | none => true

/-- Write one unit's pieces to a tensor, all of them inside its extents and translated before (R228, R234). -/
def writeUnit (s : State) (pc : Word) (t : TEntry) (sh : List Nat) (ps : List Piece) : State :=
  let todo := ps.filterMap fun p => p.2.1.map fun x => (t.addr (unravel sh p.1), x)
  s.perform pc (planStrip s (Fmt.size t.fmt) todo.length (fun _ => true) (fun i => (todo[i]?).map fun q => q.1)
    (fun i => ((todo[i]?).map fun q => q.2).getD {}) {})

/-- The translations of the addresses that a unit writes, at the result positions `ps` (R234). -/
def writeChecks (s : State) (d : Dest) (sh : List Nat) (ps : List Nat) : List (R Unit) :=
  match d.ten with
  | none => []
  | some t => (ps.filter (d.holds sh)).map fun i =>
      (s.transBits s.vd .wr (t.addr (unravel sh i)) (Fmt.size t.fmt)).map fun _ => ()

/-- One unit (R234): every address that it reads or writes is translated, then it is checked for poison, then it
writes; a tainted value written to a tensor sets TNT (R191, R237). A position outside the extents of a tensor is dropped, with its
flags (R81, R228). Its source is read and translated like any other, which R228 does not say, and its poison is not consumed
(DESIGN CHOICE, log entry 118). -/
def runUnit {C : Type} (e : Entry) (d : Dest) (sh : List Nat) (targets : List Nat → List Nat)
    (proc : State → C → List Nat → R (UnitOut C)) (acc : Progress C) (u : List Nat) : Progress C :=
  let r : R (UnitOut C) := do
    let _ ← allOrLowest (((proc acc.s acc.carry u).map fun _ => ()) :: writeChecks acc.s d sh (targets u))
    let o ← proc acc.s acc.carry u
    let ps := o.pieces.filter fun p => d.holds sh p.1
    let old := acc.s.me.getV d.n
    let keeps := d.ten.isNone && ps.any fun p =>
      p.2.1.isNone && decide (p.1 < count old.shape) && (old.elem d.z p.1).poison
    let poison := o.poison || keeps || ps.any fun p => (p.2.1.map Elt.poison).getD false
    require (!(poison && acc.s.poisonTrap)) cPOISON
    return { o with pieces := ps, poison := poison }
  match r with
  | .error x => { acc with stopped := some (some x, u.headD 0) }
  | .ok o =>
    let tnt := d.ten.isSome && o.pieces.any fun p => (p.2.1.map Elt.taint).getD false
    let s1 := acc.s.raise (o.pieces.foldl (fun a p => a ||| p.2.2) (flagIf o.poison flPSN ||| flagIf tnt flTNT))
    match d.ten with
    | none =>
      { s := s1, pieces := acc.pieces ++ o.pieces, carry := o.carry, stopped := none, taint := acc.taint || o.taint }
    | some t => { s := writeUnit s1 e.pc t sh o.pieces, pieces := [], carry := o.carry, stopped := none }

/-- Run the units in order (R234). A fault stops the instruction at the start of its unit, and a pre-emption or cancel
of an instruction on tensors after `bound` units (R236). -/
def runUnits {C : Type} (e : Entry) (d : Dest) (sh : List Nat) (bound : Option Nat) (units : List (List Nat)) (c0 : C)
    (targets : List Nat → List Nat) (proc : State → C → List Nat → R (UnitOut C)) (s : State) : Progress C :=
  let us := units.filter fun u => !u.isEmpty
  let lim := bound.getD us.length
  let p := (us.take lim).foldl (fun acc u => if acc.stopped.isSome then acc else runUnit e d sh targets proc acc u)
    { s := s, pieces := [], carry := c0, stopped := none }
  match p.stopped, us.drop lim with
  | none, u :: _ => { p with stopped := some (none, u.headD 0) }
  | _, _ => p

/-- After how many units an instruction stops short: only one on tensors does (R234, R236). -/
def boundOf (s : State) (tensors : Bool) : Option Nat := if tensors then s.me.bound else none

/-- Stop a structural instruction at result position `p`: PROG names it in work on tensors (R235, R236); without a fault
the entry heads the image that will be reissued (R17). -/
def stopAt (s : State) (tensors : Bool) (cell p : Nat) (x : Option Flt) : Served :=
  let s1 := if tensors then { s with me := { s.me with prog := progOf cell p } } else s
  match x with
  | some y => .stop s1 y
  | none => .wait { s1 with me := { s1.me with reissued := true } }

/-- A structural instruction that completes: PROG becomes 0 (R236). -/
def State.closeProg (s : State) : State := { s with me := { s.me with prog := 0 } }

/-- Close a structural instruction: the register takes its pieces and the tag S; PROG names the unit at a stop in work
on tensors, and is 0 at completion (R235, R236). A tainted source that an active position read taints a register
destination, also where no element is computed from it (R237). -/
def closeUnits {C : Type} (tensors : Bool) (d : Dest) (sh : List Nat) (cell : Nat)
    (p : Progress C) (after : State → State) : Served :=
  let old := p.s.me.getV d.n
  let s1 := match d.ten with
    | some _ => p.s
    | none =>
      if p.stopped.isSome && p.pieces.isEmpty then p.s
      else
        let v := old.write d.z sh ((List.range (count sh)).map fun i => (p.pieces.lookup i).bind fun x => x.1)
        p.s.setV d.n { v with taint := v.taint || p.taint }
  match p.stopped with
  | some (x, at_) => stopAt s1 tensors cell at_ x
  | none => .done (after s1).closeProg

/-- Register sources tainted under TNT, masks among them, for an instruction that reads some active element (R100). -/
def checkTaintRegs (s : State) (e : Entry) (f : Fields) (active : Bool) (regs : List Bool) : R Unit :=
  require (!(trapsTaint f && ((active && (regs.any id || s.masksTainted e f)) || gvTainted e || e.qt != 0))) cTAINT

/-- The plan of a structural instruction that computes each result position on its own. -/
structure Plan where
  frame : List Nat
  cell : List Nat
  elem : State → Nat → R (Elt × Flags)
  after : State → State := id
  /-- Checks of CAPACITY beyond those of operands and result (R57). -/
  cap : R Unit := .ok ()
  /-- Taint of a register or mask beside A that the active positions read (R100). -/
  reads : Bool := false
  /-- Do units hold whole cells: a TRANSP in place, which would else read what an earlier unit wrote (R233, R249)? -/
  whole : Bool := false

/-- Run a plan over S = frame ++ cell, with the masks over S (R230). -/
def runPlan (s : State) (e : Entry) (f : Fields) (d : Dest) (tensors : Bool) (p : Plan) : Served :=
  let sh := p.frame ++ p.cell
  let n := count sh
  let act := isActive s e f sh
  let cell := count p.cell
  let start := startOf s cell
  let tn := tensors || d.ten.isSome
  let size := if p.whole then unitSize e d.z / cell * cell else unitSize e d.z
  let units := if tn then cutUnits size start n else [upTo start n]
  let proc (t : State) (_ : Unit) (u : List Nat) : R (UnitOut Unit) := do
    let r ← allOrLowest (u.map fun i =>
      if act i then (do
        let x ← p.elem t i
        return ((i, some x.1, x.2) : Piece))
      else .ok (i, none, 0))
    return { pieces := r, carry := () }
  closeUnits tn d sh cell (runUnits e d sh (boundOf s tn) units () (fun u => u.filter act) proc s) p.after

/-- A captured general register of a count adds its taint and poison to an element (R191). -/
def withGv (e : Entry) (x : Elt) : Elt :=
  { x with taint := x.taint || gvTainted e, poison := x.poison || gvPoisoned e }

/-- A structural move with one data operand: checks, then the plan that `mk` gives from frame and cell. -/
def runMove (op : BitVec 8) (f : Fields) (s : State) (dMayT : Bool)
    (same : Entry → SOpd → Bool)
    (mk : Entry → State → SOpd → List Nat → List Nat → R Plan) : Result :=
  runArray op f s fun e t =>
    let z := Fmt.size f.fmt.toNat
    let fn := f.fn.toNat
    let k := f.rk.toNat
    let d := destOf t f z dMayT
    let r : R (SOpd × Plan) := do
      useTensors t f [(dMayT && bit fn 0, f.d), (bit fn 1, f.a)]
      let a := sopd t f (bit fn 1) f.a.toNat z
      let p ← mk e t a (frameOf k a.sh) (majorCell (cellOf k a.sh))
      let sh := p.frame ++ p.cell
      d.agrees sh
      checkMasks t e f sh
      fitsOpd e k z a
      p.cap
      match d.ten with
      | some u => fitsOpd e k z { a with sh := u.shape, ten := some u }
      | none => d.fits e sh
      d.overlaps [a] fun _ => same e a
      checkTaintRegs t e f ((List.range (count sh)).any (isActive t e f sh)) [a.taint, p.reads]
      return (a, { p with whole := (d.ten.bind fun u => a.ten.map u.sameAs).getD false })
    match r with
    | .error x => .stop t x
    | .ok (a, p) => runPlan t e f d a.ten.isSome p

/-- Result index of a plan: the frame part and the cell part. -/
def splitIdx (frame cell : List Nat) (i : Nat) : List Nat × List Nat :=
  let idx := unravel (frame ++ cell) i
  (idx.take frame.length, idx.drop frame.length)

/-- Read the source element at a frame index and a cell index. -/
def readAt (a : SOpd) (e : Entry) (frame cell : List Nat) (t : State) (fi ci : List Nat) : R (Elt × Flags) := do
  let x ← a.elem t (ravel (frame ++ cell) (fi ++ ci))
  return (withGv e x, 0)

/-! ### ROT, REV, TAKE, DROP, RESHAPE (R244, R245) -/

def execRot (f : Fields) (s : State) : Result :=
  runMove 0x73 f s true (fun _ _ => false) fun e _ a fr c =>
    let n := c.headD 1
    .ok { frame := fr, cell := c, elem := fun t i =>
      let q := splitIdx fr c i
      let j : Int := (q.2.headD 0 : Nat) + e.gb.val.toInt
      readAt a e fr c t q.1 ((j % (n : Int)).toNat :: q.2.drop 1) }

def execRev (f : Fields) (s : State) : Result :=
  runMove 0x74 f s true (fun _ _ => false) fun e _ a fr c =>
    .ok { frame := fr, cell := c, elem := fun t i =>
      let q := splitIdx fr c i
      readAt a e fr c t q.1 ((c.headD 1 - 1 - q.2.headD 0) :: q.2.drop 1) }

/-- TAKE: overtake reads the fill (R231, R244). -/
def execTake (f : Fields) (s : State) : Result :=
  runMove 0x75 f s true (fun _ _ => false) fun e _ a fr c =>
    let k := e.gb.val.toInt
    let m := k.natAbs
    let n := c.headD 1
    let rc := m :: c.drop 1
    .ok {
      frame := fr, cell := rc
      elem := fun t i =>
        let q := splitIdx fr rc i
        let j : Int := if 0 ≤ k then (q.2.headD 0 : Nat) else (q.2.headD 0 : Nat) - (m : Int) + n
        if 0 ≤ j ∧ j < (n : Int) then readAt a e fr c t q.1 (j.toNat :: q.2.drop 1) else .ok (withGv e a.fill, 0)
      cap := require (decide (m ≤ if bit f.fn.toNat 0 then 2 ^ 32 - 1 else 65535)) cCAPACITY }

def execDrop (f : Fields) (s : State) : Result :=
  runMove 0x76 f s true (fun _ _ => false) fun e _ a fr c =>
    let k := e.gb.val.toInt
    let rc := (c.headD 1 - k.natAbs) :: c.drop 1
    .ok { frame := fr, cell := rc, elem := fun t i =>
      let q := splitIdx fr rc i
      readAt a e fr c t q.1 ((q.2.headD 0 + (if 0 ≤ k then k.natAbs else 0)) :: q.2.drop 1) }

/-- RESHAPE: vB holds the new cell shape as i32 values (R229, R245). A negative one, read as n32, is beyond every extent,
so that no mask agrees with it (R57). -/
def execReshape (f : Fields) (s : State) : Result :=
  runMove 0x77 f s false (fun _ _ => false) fun e st a fr c => do
    let vb := st.me.getV f.b.toNat
    let r := count vb.shape
    let rc := (List.range (min r 5)).map fun i => (vb.elem 32 i).val
    let m := count c
    let used := (List.range r).map fun i => vb.elem 32 i
    let join (x : Elt) : Elt := eltOf x.val (x :: used)
    return {
      frame := fr, cell := rc, reads := vb.taint && r != 0
      cap := require (decide (r ≤ 4) && rc.all fun x => decide (x ≤ 65535)) cCAPACITY
      elem := fun t i => do
        let q := i % count rc
        let fi := i / count rc
        if m == 0 then return (join (withGv e a.fill), 0)
        let x ← a.elem t (fi * m + q % m)
        return (join (withGv e x), 0) }

/-- TRANSP (R249). -/
def execTransp (f : Fields) (s : State) : Result :=
  runMove 0x7A f s true
    (fun e a =>
      let c := majorCell (cellOf f.rk.toNat a.sh)
      c.length == 2 && c.getD 0 0 == c.getD 1 0 && bits f.imm.toNat 2 0 == 1 && bits f.imm.toNat 5 3 == 0 &&
        decide (count c * Fmt.size f.fmt.toNat ≤ e.grows.toNat * 2048))
    fun e _ a fr c => do
      let n := c.length
      let p := (List.range 6).map fun j => bits f.imm.toNat (3 * j + 2) (3 * j)
      require (((List.range n).all fun x => (p.take n).contains x) && (p.drop n).all (· == 0)) cAGREE
      let rc := (p.take n).map fun x => c.getD x 1
      let go (t : State) (i : Nat) : R (Elt × Flags) :=
        readAt a e fr c t (splitIdx fr rc i).1
          ((List.range n).map fun x => (splitIdx fr rc i).2.getD (List.idxOf x (p.take n)) 0)
      return { frame := fr, cell := rc, elem := go }

/-! ### RED and SCAN (R240-R242) -/

/-- One combination of a and b (R240), both already flushed. -/
def combine (op : Nat) (md : Mode) (a b : Nat) : Nat × Flags :=
  let m := { md with fsi := false }
  match op with
  | 0 => arithElem .add m a b 0
  | 1 => arithElem .mul m a b 0
  | 2 => arithElem .max m a b 0
  | 3 => arithElem .min m a b 0
  | 4 => (a &&& b, 0)
  | 5 => (a ||| b, 0)
  | _ => (a ^^^ b, 0)

/-- The identity of an operation at a format (R58). -/
def identity (op fmt : Nat) : Nat :=
  let z := Fmt.size fmt
  let p := fparam fmt
  let isF := Fmt.isF fmt
  match op with
  | 1 => if isF then (roundFloat p .rne (.exact false 1 0)).bits else 1
  | 2 => if isF then (if fmt ≤ 2 then p.infinity true else p.signBit true + p.maxFinite) else lowBits z (intMin fmt)
  | 3 => if isF then (if fmt ≤ 2 then p.infinity false else p.maxFinite) else lowBits z (intMax fmt)
  | 4 => 2 ^ z - 1
  | _ => 0

/-- A partial sum with its flags. -/
structure Partial where
  val : Nat
  flags : Flags
  deriving DecidableEq, Repr

def Partial.join (g : Nat → Nat → Nat × Flags) (a b : Partial) : Partial :=
  let r := g a.val b.val
  { val := r.1, flags := a.flags ||| b.flags ||| r.2 }

/-- seq order (R84). -/
def seqSum (g : Nat → Nat → Nat × Flags) : List Partial → Option Partial
  | [] => none
  | x :: xs => some (xs.foldl (Partial.join g) x)

/-- One level of the tree: neighbours with the same index div 2 are joined (R85). -/
def treeLevel (g : Nat → Nat → Nat × Flags) : List (Nat × Partial) → List (Nat × Partial)
  | (i, a) :: (j, b) :: r =>
    if i / 2 == j / 2 then (i / 2, Partial.join g a b) :: treeLevel g r
    else (i / 2, a) :: treeLevel g ((j, b) :: r)
  | [(i, a)] => [(i / 2, a)]
  | [] => []

/-- tree order over logical indices in ascending order (R85). -/
def treeSum (g : Nat → Nat → Nat × Flags) (xs : List (Nat × Partial)) : Option Partial :=
  (((List.range 70).foldl (fun acc _ => treeLevel g acc) xs).head?).map fun p => p.2

/-- free order: two nodes chosen freely are joined until one is left (R84, R86). `c` counts the choices. -/
def freeSum (g : Nat → Nat → Nat × Flags) (c : Nat) (xs : List Partial) : Option Partial :=
  ((List.range (xs.length - 1)).foldl (fun (acc : List Partial) k =>
    let i := Config.choice (c + 2 * k) % acc.length
    let rest := acc.eraseIdx i
    let j := Config.choice (c + 2 * k + 1) % rest.length
    match acc[i]?, rest[j]? with
    | some a, some b => Partial.join g a b :: rest.eraseIdx j
    | _, _ => acc) xs).head?

/-- Combine terms with their logical indices in one of the three orders; a single term is a bit copy (R84, R241). -/
def sumTerms (order c : Nat) (g : Nat → Nat → Nat × Flags) (flush : Nat → Nat) (ident : Nat)
    (terms : List (Nat × Nat)) : Partial :=
  match terms with
  | [] => { val := ident, flags := 0 }
  | [t] => { val := t.2, flags := 0 }
  | terms =>
    let ps : List (Nat × Partial) := terms.map fun t => (t.1, { val := flush t.2, flags := 0 })
    let r := match order with
      | 0 => seqSum g (ps.map Prod.snd)
      | 1 => treeSum g ps
      | _ => freeSum g c (ps.map Prod.snd)
    r.getD { val := ident, flags := 0 }

/-- RED (R240, R241). A result formed in free order from some term is tainted and sets FLAGS.TNT (R86, R237). -/
def execRed (f : Fields) (s : State) : Result :=
  runArray 0x70 f s fun e t =>
    let fmt := f.fmt.toNat
    let z := Fmt.size fmt
    let fn := f.fn.toNat
    let k := f.rk.toNat
    let op := bits fn 5 3
    let order := bits fn 7 6
    let d := destOf t f z true
    let a := sopd t f (bit fn 1) f.a.toNat z
    let fr := frameOf k a.sh
    let c := majorCell (cellOf k a.sh)
    let n := c.headD 1
    let rest := c.drop 1
    let sh := fr ++ rest
    let ch : Chains := { nf := count fr, n := n, nr := count rest }
    let act := isActive t e f a.sh
    let r : R Unit := do
      useTensors t f [(bit fn 0, f.d), (bit fn 1, f.a)]
      d.agrees sh
      checkMasks t e f a.sh
      fitsOpd e k z a
      require (a.ten.isNone || decide (n ≤ 65535)) cCAPACITY
      match d.ten with
      | some u => fitsOpd e k z { a with sh := u.shape, ten := some u }
      | none => d.fits e sh
      d.overlaps [a] fun _ => false
      checkTaintRegs t e f ((List.range (count a.sh)).any act) [a.taint]
    match r with
    | .error x => .stop t x
    | .ok _ =>
      let flush (x : Nat) : Nat := if Fmt.isF fmt then flushIn (fparam fmt) f.fsi x else x
      let free := order == 2
      let one (st : State) (i : Nat) : R Piece := do
        let terms : List (Nat × Elt) ← allOrLowest (((List.range n).filter fun j => act (ch.at (i / ch.nr) j (i % ch.nr))).map fun j => do
          let x ← a.elem st (ch.at (i / ch.nr) j (i % ch.nr))
          return (j, x))
        let base := if a.ten.isSome then 0 else e.stripb.toNat
        let p := sumTerms order (t.free + 2 * i * n) (combine op (e.mode f fmt i)) flush (identity op fmt)
          (terms.map fun q => (base + q.1, q.2.val))
        let x := eltOf p.val (terms.map fun q => q.2)
        let mark := free && !terms.isEmpty
        return (i, some { x with taint := x.taint || mark }, p.flags ||| flagIf mark flTNT)
      let proc (st : State) (_ : Unit) (u : List Nat) : R (UnitOut Unit) := do
        let ps : List Piece ← allOrLowest (u.map (one st))
        return { pieces := ps, carry := () }
      let start := startOf t (count rest)
      let tn := a.ten.isSome || d.ten.isSome
      let units := if tn then cutUnits (unitSize e z) start (count sh) else [upTo start (count sh)]
      let t1 := { t with free := if free then t.free + 2 * count a.sh + 2 else t.free }
      closeUnits tn d sh (count rest) (runUnits e d sh (boundOf t tn) units () id proc t1) id

/-- The leading positions at which a SCAN may stop within a cell (R236): multiples of 64 whose predecessor is active
in every chain, and for a tensor destination inside its extents. -/
def scanStops (act : Nat → Bool) (ok : Nat → Bool) (ch : Chains) (fr : Nat) : List Nat :=
  (List.range (ch.n / 64 + 1)).filterMap fun m =>
    let j := 64 * m
    if j != 0 && decide (j < ch.n) && (List.range ch.nr).all (fun r => act (ch.at fr (j - 1) r) && ok (ch.at fr (j - 1) r))
    then some j else none

/-- The units of one cell of a SCAN from result position `start` on: runs between stop points. -/
def scanUnits (stops : List Nat) (ch : Chains) (fr start : Nat) : List (List Nat) :=
  let cuts := 0 :: stops ++ [ch.n]
  (cuts.zip cuts.tail).map fun p => upTo (max start (ch.at fr p.1 0)) (ch.at fr p.2 0)

/-- SCAN (R242). The carries of a cell's chains are the accumulator of its units. A poisoned or tainted term that no
element is computed from is read all the same (R237). The carry that a resumed one reads back from D is no source that TNT looks at
(DESIGN CHOICE, log entry 132). -/
def execScan (f : Fields) (s : State) : Result :=
  runArray 0x71 f s fun e t =>
    let fmt := f.fmt.toNat
    let z := Fmt.size fmt
    let fn := f.fn.toNat
    let k := f.rk.toNat
    let op := bits fn 5 3
    let excl := bit fn 6
    let d := destOf t f z true
    let a := sopd t f (bit fn 1) f.a.toNat z
    let fr := frameOf k a.sh
    let c := majorCell (cellOf k a.sh)
    let sh := a.sh
    let ch := chainsOf fr c
    let cell := ch.n * ch.nr
    let act := isActive t e f sh
    let r : R Unit := do
      useTensors t f [(bit fn 0, f.d), (bit fn 1, f.a)]
      d.agrees sh
      checkMasks t e f sh
      fitsOpd e k z a
      match d.ten with
      | some u => fitsOpd e k z { a with sh := u.shape, ten := some u }
      | none => d.fits e sh
      d.overlaps [a] fun _ => true
      checkTaintRegs t e f ((List.range (count sh)).any act) [a.taint]
    match r with
    | .error x => .stop t x
    | .ok _ =>
      let flush (x : Elt) : Elt := if Fmt.isF fmt then { x with val := flushIn (fparam fmt) f.fsi x.val } else x
      let comb (i : Nat) (x y : Elt) : Elt × Flags :=
        let q := combine op (e.mode f fmt i) x.val (flush y).val
        (eltOf q.1 [x, y], q.2)
      let start := startOf t cell
      -- the carry of a resumed chain is read back at the position before its first one (R236, R242)
      let resumed (i : Nat) : Bool := decide (i < start + ch.nr) && decide (ch.nr ≤ i % cell)
      let back (st : State) (i : Nat) : R Elt := match d.ten with
        | some u => tensorAt { f with sched := 0 } u st (unravel sh (i - ch.nr))
        | none => .ok ((t.me.getV d.n).elem z (i - ch.nr))
      let proc (st : State) (cs : List Elt) (u : List Nat) : R (UnitOut (List Elt)) := do
        let reads ← allOrLowest (
          (u.map fun i => if act i then (a.elem st i).map some else .ok none) ++
          (u.map fun i => if resumed i then (back st i).map some else .ok none) ++
          (u.map fun i => if resumed i && excl then (a.elem st (i - ch.nr)).map some else .ok none))
        let n := u.length
        let go := u.zipIdx.foldl (fun (acc : List Elt × List Piece × Elt) p =>
          let i := p.1
          let r := i % ch.nr
          let cr := match reads.getD (n + p.2) none, reads.getD (2 * n + p.2) none with
            | some y, some x => (comb (i - ch.nr) y x).1
            | some y, none => y
            | none, _ => if i % cell < ch.nr then { val := identity op fmt } else acc.1.getD r {}
          match reads.getD p.2 none with
          | none => (acc.1.set r cr, (i, none, 0) :: acc.2.1, acc.2.2)
          | some x =>
            let y := comb i cr x
            (acc.1.set r y.1, (i, some (if excl then cr else y.1), y.2) :: acc.2.1,
              if d.holds sh i then eltOf 0 [acc.2.2, x] else acc.2.2))
          (cs, [], {})
        return { pieces := go.2.1.reverse, carry := go.1, poison := go.2.2.poison, taint := go.2.2.taint }
      let tn := a.ten.isSome || d.ten.isSome
      let units := if tn then
          ((upTo (if cell == 0 then 0 else start / cell) ch.nf).map fun fi =>
            scanUnits (scanStops act (d.holds sh) ch fi) ch fi start).flatten
        else [upTo start (count sh)]
      closeUnits tn d sh cell
        (runUnits e d sh (boundOf t tn) units (List.replicate ch.nr {}) (fun u => u.filter act) proc t) id

/-! ### GRADE (R243) -/

/-- A total order of elements at a format: negative, zero or positive (R243). -/
def gradeCmp (fmt : Nat) (fsi : Bool) (x y : Nat) : Int :=
  if Fmt.isF fmt then
    let p := fparam fmt
    let a := decodeFloat p (flushIn p fsi x)
    let b := decodeFloat p (flushIn p fsi y)
    if a.isNaN && b.isNaN then 0 else if a.isNaN then 1 else if b.isNaN then -1 else cmpVal a b
  else intOf fmt x - intOf fmt y

def lexCmp (cmp : Nat → Nat → Int) : List Nat → List Nat → Int
  | x :: xs, y :: ys => if cmp x y == 0 then lexCmp cmp xs ys else cmp x y
  | _, _ => 0

/-- Insert an item after every item that it does not come strictly before: stable. -/
def insertStable {α : Type} (before : α → α → Bool) (x : α) : List α → List α
  | [] => [x]
  | y :: ys => if before x y then x :: y :: ys else y :: insertStable before x ys

def stableSort {α : Type} (before : α → α → Bool) (xs : List α) : List α :=
  xs.foldl (fun acc x => insertStable before x acc) []

/-- GRADE (R243). A cell is read whole even where none of its result positions is active, since every major cell takes part
whatever the masks; R56 might be read to leave it unread (DESIGN CHOICE, log entry 108). -/
def execGrade (f : Fields) (s : State) : Result :=
  runArray 0x72 f s fun e t =>
    let fmt := f.fmt.toNat
    let z := Fmt.size fmt
    let fn := f.fn.toNat
    let k := f.rk.toNat
    let d := destOf t f 32 false
    let a := sopd t f (bit fn 1) f.a.toNat z
    let fr := frameOf k a.sh
    let c := majorCell (cellOf k a.sh)
    let n := c.headD 1
    let nr := count (c.drop 1)
    let sh := fr ++ [n]
    let act := isActive t e f sh
    let r : R Unit := do
      useTensors t f [(bit fn 1, f.a)]
      checkMasks t e f sh
      fitsOpd e k z a
      require (decide (n ≤ 65535)) cCAPACITY
      d.fits e sh
      checkTaintRegs t e f ((List.range (count sh)).any act) [a.taint]
    match r with
    | .error x => .stop t x
    | .ok _ =>
      let start := startOf t n
      let before (x y : Nat × List Elt) : Bool :=
        let q := lexCmp (gradeCmp fmt f.fsi) (x.2.map Elt.val) (y.2.map Elt.val)
        if bit fn 3 then decide (0 < q) else decide (q < 0)
      let ranks (els : List Elt) : List Nat :=
        (stableSort before ((List.range n).map fun j => (j, (els.drop (j * nr)).take nr))).map fun p => p.1
      let proc (st : State) (_ : Unit) (u : List Nat) : R (UnitOut Unit) := do
        let cells := (u.map fun i => i / n).dedup
        let all ← allOrLowest ((cells.map fun fi => (List.range (n * nr)).map fun q => a.elem st (fi * n * nr + q)).flatten)
        let graded := cells.zipIdx.map fun p =>
          let els := (all.drop (p.2 * (n * nr))).take (n * nr)
          (p.1, els, ranks els)
        return {
          pieces := u.map fun i =>
            let g := (graded.lookup (i / n)).getD ([], [])
            if act i then (i, some (eltOf (g.2.getD (i % n) 0) g.1), 0) else (i, none, 0)
          carry := () }
      let tn := a.ten.isSome
      let units := if tn then
          (upTo (if n == 0 then 0 else start / n) (count fr)).map fun fi => upTo (max start (fi * n)) ((fi + 1) * n)
        else [upTo start (count sh)]
      closeUnits tn d sh n (runUnits e d sh (boundOf t tn) units () (fun u => u.filter act) proc t) id

/-! ### CAT and OUTER (R246-R248) -/

/-- A structural instruction with two data operands. -/
def runTwo (op : BitVec 8) (f : Fields) (s : State) (dMayT : Bool) (zd : Nat)
    (mk : Entry → State → SOpd → SOpd → R Plan) : Result :=
  runArray op f s fun e t =>
    let z := Fmt.size f.fmt.toNat
    let fn := f.fn.toNat
    let k := f.rk.toNat
    let d := destOf t f zd dMayT
    let a := sopd t f (bit fn 1) f.a.toNat z
    let b := sopd t f (bit fn 2) f.b.toNat z
    let r : R Plan := do
      useTensors t f [(dMayT && bit fn 0, f.d), (bit fn 1, f.a), (bit fn 2, f.b)]
      let p ← mk e t a b
      let sh := p.frame ++ p.cell
      d.agrees sh
      checkMasks t e f sh
      fitsOpd e k z a
      fitsOpd e k z b
      match d.ten with
      | some u => fitsOpd e k z { a with sh := u.shape, ten := some u }
      | none => d.fits e sh
      d.overlaps [a, b] fun _ => false
      checkTaintRegs t e f ((List.range (count sh)).any (isActive t e f sh)) [a.taint, b.taint]
      return p
    match r with
    | .error x => .stop t x
    | .ok p => runPlan t e f d (a.ten.isSome || b.ten.isSome) p

/-- CAT (R246). -/
def execCat (f : Fields) (s : State) : Result :=
  runTwo 0x78 f s true (Fmt.size f.fmt.toNat) fun e _ a b => do
    let k := f.rk.toNat
    let fa := frameOf k a.sh
    let fb := frameOf k b.sh
    let fr ← agree fa fb
    let ca0 := majorCell (cellOf k a.sh)
    let cb0 := majorCell (cellOf k b.sh)
    let ca := if ca0.length + 1 == cb0.length then 1 :: ca0 else ca0
    let cb := if cb0.length + 1 == ca0.length then 1 :: cb0 else cb0
    require (ca.length == cb.length && ca.drop 1 == cb.drop 1) cAGREE
    let na := ca.headD 1
    let rc := (na + cb.headD 1) :: ca.drop 1
    return { frame := fr, cell := rc, elem := fun t i =>
      let q := splitIdx fr rc i
      let j := q.2.headD 0
      if j < na then readAt a e fa ca t (q.1.take fa.length) q.2
      else readAt b e fb cb t (q.1.take fb.length) ((j - na) :: q.2.drop 1) }

/-- OUTER (R247, R248). -/
def execOuter (f : Fields) (s : State) : Result :=
  let o := bits f.fn.toNat 6 3
  runTwo 0x79 f s false (if 9 ≤ o then 1 else Fmt.size f.fmt.toNat) fun e _ a b => do
    let k := f.rk.toNat
    let fmt := f.fmt.toNat
    let fa := frameOf k a.sh
    let fb := frameOf k b.sh
    let fr ← agree fa fb
    let ca := cellOf k a.sh
    let cb := cellOf k b.sh
    return { frame := fr, cell := ca ++ cb, elem := fun t i => do
      let q := splitIdx fr (ca ++ cb) i
      let xy ← allOrLowest [a.elem t (ravel (fa ++ ca) (q.1.take fa.length ++ q.2.take ca.length)),
        b.elem t (ravel (fb ++ cb) (q.1.take fb.length ++ q.2.drop ca.length))]
      let x := xy.getD 0 {}
      let y := xy.getD 1 {}
      let md := e.mode f fmt i
      let r : Nat × Flags := match o with
        | 0 => arithElem .add md x.val y.val 0
        | 1 => arithElem .sub md x.val y.val 0
        | 2 => arithElem .mul md x.val y.val 0
        | 3 => arithElem .div md x.val y.val 0
        | 4 => arithElem .min md x.val y.val 0
        | 5 => arithElem .max md x.val y.val 0
        | 6 => (x.val &&& y.val, 0)
        | 7 => (x.val ||| y.val, 0)
        | 8 => (x.val ^^^ y.val, 0)
        | _ =>
          let c := cmpElem fmt (if o == 9 then 0 else if o == 10 then 2 else 3) f.fsi x.val y.val
          (b2n c.1, c.2)
      return (withGv e (eltOf r.1 [x, y]), r.2) }

/-! ### COMPRESS and EXPAND (R250, R251) -/

/-- The largest kept count up to `cnt` that fits a register (R250). -/
def keepCount (grows z cnt : Nat) (fr rest : List Nat) : Nat :=
  let per := count fr * count rest
  let lim := min cnt 65535
  if per == 0 then lim else min lim (capacity grows z / per)

/-- COMPRESS (R250): g[E] receives the full count. -/
def execCompress (f : Fields) (s : State) : Result :=
  runMove 0x7B f s true (fun _ _ => false) fun e st a fr c => do
    let mb := f.b.toNat
    let m := if mb == 0 then [c.headD 1] else (st.me.getM mb).shape
    require (m.isPrefixOf c && decide (1 ≤ m.length)) cAGREE
    let sel := setPositions st mb m
    let cnt := sel.length
    let rest := c.drop m.length
    let z := Fmt.size f.fmt.toNat
    let toT := bit f.fn.toNat 0
    let keep := if toT then cnt else keepCount e.grows.toNat z cnt fr rest
    let taint := maskTaint st mb
    let ext := TEntry.ext (st.me.getT f.d.toNat) fr.length
    let ovf := if toT then decide (ext < cnt) else decide (keep < cnt)
    let rc := keep :: rest
    return {
      frame := fr, cell := rc, reads := taint
      elem := fun t i =>
        let q := splitIdx fr rc i
        let src := (sel[q.2.headD 0]?).getD 0
        do
          let x ← readAt a e fr c t q.1 (unravel m src ++ q.2.drop 1)
          return ({ x.1 with taint := x.1.taint || taint }, x.2)
      after := fun t => (t.raise (flagIf ovf flOVF)).setG f.e.toNat { val := BitVec.ofNat 64 cnt, taint := taint } }

/-- EXPAND (R251). -/
def execExpand (f : Fields) (s : State) : Result :=
  runMove 0x7C f s true (fun _ _ => false) fun e st a fr c => do
    let mb := f.b.toNat
    let n := c.headD 1
    let m := if mb == 0 then [n] else (st.me.getM mb).shape
    let sel := setPositions st mb m
    let taint := maskTaint st mb
    let rc := m ++ c.drop 1
    return { frame := fr, cell := rc, reads := taint, elem := fun t i => do
      let q := splitIdx fr rc i
      let pos := ravel m (q.2.take m.length)
      let x ← (if sel.contains pos && decide (sel.idxOf pos < n) then
          readAt a e fr c t q.1 (sel.idxOf pos :: q.2.drop m.length)
        else .ok (withGv e a.fill, 0))
      return ({ x.1 with taint := x.1.taint || taint }, x.2) }

/-! ### GATH, SCAT, SCATA (R252-R254) -/

/-- GATH: an index out of range reads the fill (R252). -/
def execGath (f : Fields) (s : State) : Result :=
  runMove 0x7D f s false (fun _ _ => false) fun e st a fr c => do
    let vb := st.me.getV f.b.toNat
    let n := c.headD 1
    let x := vb.shape
    let rc := x ++ c.drop 1
    return {
      frame := fr, cell := rc
      elem := fun t i => do
        let q := splitIdx fr rc i
        let ix := vb.elem 32 (ravel x (q.2.take x.length))
        let j := toSigned 32 ix.val
        let y ← (if 0 ≤ j ∧ j < (n : Int) then readAt a e fr c t q.1 (j.toNat :: q.2.drop x.length)
                 else .ok (withGv e a.fill, 0))
        return (eltOf y.1.val [y.1, ix], y.2)
      cap := (do
        fitsReg e 32 vb
        require (decide (n ≤ 2 ^ 31 - 1)) cCAPACITY)
      reads := vb.taint }

/-- What SCAT and SCATA share: shapes and checks. Positions are those of A, frame ++ X ++ rest: FPOS and CPOS of a resumed one
count its cells X ++ rest, where R235 speaks of the result's cells, which here are D's (DESIGN CHOICE, log entry 107). -/
structure Scatter where
  z : Nat
  ten : Option TEntry
  dsh : List Nat
  ash : List Nat
  target : Nat → Option Nat
  src : Nat → Elt
  index : Nat → Elt
  cell : Nat

def scatterOf (s : State) (e : Entry) (f : Fields) : R Scatter := do
  let z := Fmt.size f.fmt.toNat
  let k := f.rk.toNat
  let isT := bit f.fn.toNat 0
  useTensors s f [(isT, f.d)]
  let d := sopd s f isT f.d.toNat z
  let va := s.me.getV f.a.toNat
  let vb := s.me.getV f.b.toNat
  let fr := frameOf k d.sh
  let c := majorCell (cellOf k d.sh)
  let n := c.headD 1
  let x := vb.shape
  let rc := x ++ c.drop 1
  let sh := fr ++ rc
  require (va.shape == sh) cAGREE
  checkMasks s e f sh
  fitsOpd e k z d
  fitsReg e z va
  fitsReg e 32 vb
  require (decide (n ≤ 2 ^ 31 - 1)) cCAPACITY
  checkTaintRegs s e f ((List.range (count sh)).any (isActive s e f sh)) [va.taint, vb.taint]
  return {
    z := z, ten := d.ten, dsh := d.sh, ash := sh, cell := count rc
    target := fun i =>
      let q := splitIdx fr rc i
      let j := toSigned 32 (vb.elem 32 (ravel x (q.2.take x.length))).val
      if 0 ≤ j ∧ j < (n : Int) then some (ravel (fr ++ c) (q.1 ++ j.toNat :: q.2.drop x.length)) else none
    src := fun i =>
      let y := va.elem z i
      eltOf y.val [y, vb.elem 32 (ravel x ((splitIdx fr rc i).2.take x.length))]
    index := fun i => vb.elem 32 (ravel x ((splitIdx fr rc i).2.take x.length)) }

/-- A register destination of SCAT or SCATA, whose tag stands: new elements by position (R253). It is tainted too where
an active position read a tainted index, also one out of range (R237). -/
def scatterReg (v : VReg) (z : Nat) (new : List (Nat × Elt)) (taint : Bool) : VReg :=
  let n := count v.shape
  let w := v.write z v.shape ((List.range n).map fun i => (new.lookup i).or (some (v.elem z i)))
  { w with taint := w.taint || taint }

/-- The elements of a register destination that are left, some of a poisoned row (R191). -/
def leftPoison (v : VReg) (z : Nat) (new : List (Nat × Elt)) : Bool :=
  (List.range (count v.shape)).any fun i => (new.lookup i).isNone && (v.elem z i).poison

/-- SCAT: of colliding writes the later position's remains (R253). The first entry of a reissued image begins where PROG says
(R236). -/
def execScat (f : Fields) (s : State) : Result :=
  runArray 0x7E f s fun e t =>
    match scatterOf t e f with
    | .error x => .stop t x
    | .ok sc =>
      let act := isActive t e f sc.ash
      let n := count sc.ash
      let hits (ps : List Nat) : List (Nat × Elt) := ps.filterMap fun i =>
        if act i then (sc.target i).map fun d => (d, sc.src i) else none
      let bad (ps : List Nat) : Bool := ps.any fun i => act i && (sc.index i).poison
      match sc.ten with
      | none =>
        let ps := upTo (startOf t sc.cell) n
        let all := (hits ps).reverse
        let v := t.me.getV f.d.toNat
        let poison := bad ps || (all.any fun p => p.2.poison) || leftPoison v sc.z all
        if poison && t.poisonTrap then .stop t { cause := cPOISON }
        else
          let taint := ps.any fun i => act i && (sc.index i).taint
          .done ((t.raise (flagIf poison flPSN)).setV f.d.toNat (scatterReg v sc.z all taint)).closeProg
      | some u =>
        let d : Dest := { n := f.d.toNat, z := sc.z, ten := some u }
        let proc (_ : State) (_ : Unit) (ps : List Nat) : R (UnitOut Unit) :=
          .ok { pieces := (hits ps).map fun p => (p.1, some p.2, 0), carry := (), poison := bad ps }
        let units := cutUnits (unitSize e sc.z) (startOf t sc.cell) n
        closeUnits true d sc.dsh sc.cell
          (runUnits e d sc.dsh t.me.bound units () (fun ps => (hits ps).map Prod.fst) proc t) id

/-- The operation that SCATA's FN[5:3] selects, as a code of `combine` (R254). -/
def scataOp (fn : Nat) : Nat :=
  match bits fn 5 3 with
  | 0 => 0
  | 1 => 2
  | 2 => 3
  | _ => 5

/-- Contributions in an order chosen freely. -/
def freeOrder {α : Type} (c : Nat) (xs : List α) : List α :=
  ((List.range xs.length).foldl (fun (acc : List α × List α) k =>
    match acc.2[Config.choice (c + k) % acc.2.length]? with
    | some x => (x :: acc.1, acc.2.eraseIdx (Config.choice (c + k) % acc.2.length))
    | none => acc) ([], xs)).1

/-- SCATA's new value of a destination element from its old value and the contributions (R254); FSI acts on each of
them that is combined (R77). -/
def scataValue (det : Bool) (c : Nat) (g : Nat → Nat → Nat × Flags) (flush : Nat → Nat) (old : Nat)
    (xs : List (Nat × Nat)) : Nat × Flags :=
  let fl := xs.map fun x => (x.1, flush x.2)
  let old := if xs.isEmpty then old else flush old
  if det then
    let tr := treeSum g (fl.map fun x => (x.1, ({ val := x.2, flags := 0 } : Partial)))
    match tr with
    | none => (old, 0)
    | some p =>
      let r := g old p.val
      (r.1, p.flags ||| r.2)
  else
    (freeOrder c fl).foldl (fun acc x =>
      let r := g acc.1 x.2
      (r.1, acc.2 ||| r.2)) (old, 0)

/-- SCATA (R254, R238). It reads each element of D that takes a contribution, as the left operand: under TNT a tainted one
raises TAINT (R100). The first entry of a reissued image begins where PROG says (R236). -/
def execScata (f : Fields) (s : State) : Result :=
  runArray 0x7F f s fun e t =>
    match scatterOf t e f with
    | .error x => .stop t x
    | .ok sc =>
      let fmt := f.fmt.toNat
      let det := t.myLaunch.det
      let act := isActive t e f sc.ash
      let n := count sc.ash
      let op := scataOp f.fn.toNat
      let flush (x : Nat) : Nat := if Fmt.isF fmt then flushIn (fparam fmt) f.fsi x else x
      let hits (ps : List Nat) : List (Nat × Nat × Elt) := ps.filterMap fun i =>
        if act i then (sc.target i).map fun d => (d, e.stripb.toNat + i, sc.src i) else none
      let value (d old : Nat) (mine : List (Nat × Nat × Elt)) : Nat × Flags :=
        scataValue det (t.free + d * n) (combine op (e.mode f fmt d)) flush old (mine.map fun h => (h.2.1, h.2.2.val))
      let bad (ps : List Nat) : Bool := ps.any fun i => act i && (sc.index i).poison
      let t0 := { t with free := if det then t.free else t.free + count sc.dsh * n + 1 }
      match sc.ten with
      | none =>
        let ps := upTo (startOf t sc.cell) n
        let all := hits ps
        let v := t.me.getV f.d.toNat
        let ds := (all.map fun h => h.1).dedup
        let new := ds.map fun d =>
          let mine := all.filter fun h => h.1 == d
          let old := v.elem sc.z d
          let r := value d old.val mine
          (d, eltOf r.1 (old :: mine.map fun h => h.2.2), r.2)
        let els := new.map fun x => (x.1, x.2.1)
        let poison := bad ps || (new.any fun x => x.2.1.poison) || leftPoison v sc.z els
        if trapsTaint f && v.taint && !ds.isEmpty then .stop t { cause := cTAINT }
        else if poison && t.poisonTrap then .stop t { cause := cPOISON }
        else
          let taint := (ps.any fun i => act i && (sc.index i).taint) || (!det && !ds.isEmpty)
          let fl := new.foldl (fun a x => a ||| x.2.2) (flagIf poison flPSN)
          .done ((t0.raise fl).setV f.d.toNat (scatterReg v sc.z els taint)).closeProg
      | some u =>
        -- every position of a unit is translated first; then each element is combined at its home
        let step (acc : State × Option (Flt × Nat)) (ps : List Nat) : State × Option (Flt × Nat) :=
          if acc.2.isSome then acc
          else
            let hs := hits ps
            let ds := (hs.map fun h => h.1).dedup
            let addr (d : Nat) : Int := u.addr (unravel sc.dsh d)
            match allOrLowest (ds.map fun d => acc.1.transBits acc.1.vd .rw (addr d) sc.z) with
            | .error x => (acc.1, some (x, ps.headD 0))
            | .ok all =>
              let at_ (d : Nat) : List Nat := ((ds.zip all).lookup d).getD []
              let read (st : State) (d : Nat) : Nat × Bool × Bool := st.readPhys (at_ d) (addr d) sc.z
              let poison := bad ps || (hs.any fun h => h.2.2.poison) || ds.any fun d => (read acc.1 d).2.2
              if trapsTaint f && ds.any (fun d => (read acc.1 d).2.1) then (acc.1, some ({ cause := cTAINT }, ps.headD 0))
              else if poison && acc.1.poisonTrap then (acc.1, some ({ cause := cPOISON }, ps.headD 0))
              else
                (ds.foldl (fun st d =>
                  let mine := hs.filter fun h => h.1 == d
                  let old := read st d
                  let r := value d old.1 mine
                  let taint := !det || old.2.1 || mine.any fun h => h.2.2.taint
                  let psn := old.2.2 || mine.any fun h => h.2.2.poison
                  let st1 := (at_ d).foldl (fun (a : State) pa => a.homeSync (pa / 32) false) st
                  (st1.writePhys st1.me.sid (at_ d) (addr d) sc.z r.1 taint psn).raise (r.2 ||| flagIf taint flTNT))
                  (acc.1.raise (flagIf poison flPSN)), none)
        let units := cutUnits (unitSize e sc.z) (startOf t sc.cell) n
        let lim := t.me.bound.getD units.length
        let r := (units.take lim).foldl step (t0, none)
        match r.2, units.drop lim with
        | some (x, at_), _ => stopAt r.1 true sc.cell at_ (some x)
        | none, u1 :: _ => stopAt r.1 true sc.cell (u1.headD 0) none
        | none, [] => .done r.1.closeProg

/-! ### IDXOF and REPL (R255, R256) -/

/-- IDXOF: the least matching major cell for each key (R255). It reads every major cell of its frame cell for each active key, those
past the first match among them (DESIGN CHOICE, log entry 133). -/
def execIdxof (f : Fields) (s : State) : Result :=
  runArray 0x80 f s fun e t =>
    let fmt := f.fmt.toNat
    let z := Fmt.size fmt
    let fn := f.fn.toNat
    let k := f.rk.toNat
    let d := destOf t f 32 false
    let a := sopd t f (bit fn 1) f.a.toNat z
    let vb := t.me.getV f.b.toNat
    let fr := frameOf k a.sh
    let c := majorCell (cellOf k a.sh)
    let n := c.headD 1
    let rest := c.drop 1
    let nr := count rest
    let y := vb.shape
    let head := y.take (y.length - rest.length)
    let sh := fr ++ head
    let r : R Unit := do
      useTensors t f [(bit fn 1, f.a)]
      require (decide (rest.length ≤ y.length) && y.drop (y.length - rest.length) == rest) cAGREE
      checkMasks t e f sh
      fitsOpd e k z a
      fitsReg e z vb
      require (decide (n ≤ 2 ^ 31 - 1)) cCAPACITY
      d.fits e sh
      checkTaintRegs t e f ((List.range (count sh)).any (isActive t e f sh)) [a.taint, vb.taint]
    match r with
    | .error x => .stop t x
    | .ok _ =>
      runPlan t e f d a.ten.isSome {
        frame := fr, cell := head
        elem := fun st i => do
          let fi := i / count head
          let key := (List.range nr).map fun q => vb.elem z (i % count head * nr + q)
          let els ← allOrLowest ((List.range (n * nr)).map fun q => a.elem st (fi * n * nr + q))
          let eq (j : Nat) : Bool := (((els.drop (j * nr)).take nr).zip key).all fun p =>
            (cmpElem fmt 0 f.fsi p.1.val p.2.val).1
          let found := (findFrom eq n 0).getD n
          return (eltOf found (els ++ key), 0) }

/-- REPL repeats major cells (R256). -/
def execRepl (f : Fields) (s : State) : Result :=
  runMove 0x81 f s true (fun _ _ => false) fun e st a fr c => do
    let vb := st.me.getV f.b.toNat
    let n := c.headD 1
    require (vb.shape == [] || vb.shape == [n]) cAGREE
    let cnt (j : Nat) : Nat := (vb.elem 16 (if vb.shape.isEmpty then 0 else j)).val
    let src := ((List.range n).map fun j => List.replicate (cnt j) j).flatten
    let tot := src.length
    let rc := tot :: c.drop 1
    let counts := (List.range (count vb.shape)).map fun j => vb.elem 16 j
    return {
      frame := fr, cell := rc
      elem := fun t i => do
        let q := splitIdx fr rc i
        let x ← readAt a e fr c t q.1 ((src[q.2.headD 0]?).getD 0 :: q.2.drop 1)
        return (eltOf x.1.val (x.1 :: counts), x.2)
      cap := (do
        fitsReg e 16 vb
        require (bit f.fn.toNat 0 || decide (tot ≤ 65535)) cCAPACITY)
      reads := vb.taint && count vb.shape != 0 }

end Sys2Proof.Machine
end

