-- ==== Sys2Proof/Machine/Sync.lean ====
section
/-! DEFINITION. The meanings of the synchronisation instructions (R31-R37, R301-R314): PB, FENCE, home actions on this
device and on peers, waits, barriers, CLAIM and PUBL, with their wakes and time-outs. -/

namespace Sys2Proof.Machine

/-! ### Homes (R304, R305) -/

/-- Is a job rank present in the peer table (R305, R426)? -/
def VDev.hasPeer (d : VDev) (peer : Nat) : Bool := if d.peers.isEmpty then peer == 0 else decide (peer < d.peers.length)

/-- The virtual device of the focused strand, or an empty one. -/
def State.myVdev (s : State) : VDev := (s.vdev? s.vd).getD {}

/-- Where a home lies: at a physical address of this device, or at a virtual address of a peer. -/
inductive Home where
  | here (pa : Nat)
  | there (peer va : Nat)
  deriving DecidableEq, Repr

/-- Translate the address of a home, FADDR the address as named. -/
def State.homeAt (s : State) (acc : Access) (va faddr : Nat) : R Nat :=
  match s.translate s.vd acc va with
  | .ok pa => .ok pa
  | .error c => fail c faddr

/-- The checks of R304 in order: ALIGN, XLATE for bits 63:56 that are no fabric address, then the walk. -/
def homeTarget (s : State) (a n : Nat) (acc : Access) (fab : Bool) : R Home := do
  require (a % n == 0) cALIGN a
  if bit a 63 && fab then
    let d := s.myVdev
    let peer := bits a 62 48
    require (d.hasPeer peer) cXLATE a
    if peer == d.rank then return .here (← s.homeAt acc (bits a 47 0) a)
    else return .there peer (bits a 47 0)
  else
    require (decide (a < 2 ^ 56)) cXLATE a
    return .here (← s.homeAt acc a a)

/-- A local home, for the instructions that accept no fabric address. -/
def localHome (s : State) (a n : Nat) (acc : Access) : R Nat := do
  require (a % n == 0) cALIGN a
  require (decide (a < 2 ^ 56)) cXLATE a
  s.homeAt acc a a

/-- The value, taint and poison of `n` bytes at a home. -/
def State.homeLoad (s : State) (pa n : Nat) : Nat × Bool × Bool :=
  (memRead s.mem pa n, s.memTaint.contains (pa / 32), s.memPoison.contains (pa / 32))

/-- Write `n` bytes at a home as one step of agent `who` (R289). -/
def State.homeStore (s : State) (who pa n v : Nat) (taint poison : Bool) : State :=
  let k := 8 * (pa % 32)
  s.writeGranule who true
    { granule := pa / 32, mask := (2 ^ (8 * n) - 1) <<< k, data := (v % 2 ^ (8 * n)) <<< k, taint := taint, poison := poison }

/-! ### Releases that wait for engine work (R281, R284, R295, R298, R338) -/

/-- Does a piece of work still owe writes on its own device, whose rank is `own`: to memory, to
plane slots or to tiles (R298, R338)? -/
def Work.owesHere (w : Work) (own : Nat) : Bool :=
  !w.sent && match w.kind with
    | .send => (sendRows w.reg).any fun r => r.peer == own
    | .copy => !(bit w.route.toNat 17 && bits w.route.toNat 14 0 != own)
    | _ => true

/-- Does a release of the focused strand at a scope wait for engine work? Writes whose destination lies on another device
hold up a release at fabric scope alone, and that one until they are acknowledged (R295, R298). -/
def State.owes (s : State) (scope : Nat) : Bool :=
  scope == 4 && !s.me.work.isEmpty || s.me.work.any fun w => w.owesHere s.myVdev.rank

/-- Checks of the captured general registers that an instruction reads: TNT and the POISON trap; then PSN. -/
def regCheck (s : State) (e : Entry) (f : Fields) (regs : List GReg) : R State :=
  consume s e f (regs.any GReg.taint) (regs.any GReg.poison)

/-! ### PB and FENCE (R281, R284, R307): no fault but ILLEGAL, so SCHED's TNT finds nothing to check -/

def servePb (f : Fields) (s : State) : Served :=
  let fn := f.fn.toNat
  let scope := bits fn 2 0
  if bit fn 3 && s.owes scope then .wait s
  else
    let s1 := if bit fn 3 then s.release scope else s
    .done (if bit fn 4 then s1.acquire scope else s1)

def execPb (f : Fields) (s : State) : Result := runArray 0x90 f s fun _ t => servePb f t

/-- FENCE: sa, as and se hold by the order of the queue; es waits for engine work past retirement (R284). -/
def serveFence (f : Fields) (s : State) : Served :=
  if bits f.fn.toNat 1 0 == 3 && !s.me.work.isEmpty then .wait s else .done s

def execFence (f : Fields) (s : State) : Result := runArray 0x91 f s fun _ t => serveFence f t

/-! ### LDA, AMO, AMOF, SIG (R306, R308-R311) -/

/-- What a home action does to the value at its home: the new value, none where it writes nothing; its flags. -/
def homeStep (kind : PeerKind) (fn w old b c : Nat) : Option Nat × Flags :=
  let x := b % 2 ^ w
  match kind with
  | .lda => (none, 0)
  | .sig => (some (if bit fn 3 then x else (old + x) % 2 ^ w), 0)
  | .amof =>
    let r := arithElem .add { fmt := 0, rnd := .rne, fsi := false, fso := false, sat := false } old (b % 2 ^ 32) 0
    (some r.1, r.2)
  | .amo =>
    match bits fn 7 5 with
    | 0 => (some ((old + x) % 2 ^ w), 0)
    | 1 => (some (if toSigned w old ≤ toSigned w x then old else x), 0)
    | 2 => (some (if toSigned w x ≤ toSigned w old then old else x), 0)
    | 3 => (some (old &&& x), 0)
    | 4 => (some (old ||| x), 0)
    | 5 => (some (old ^^^ x), 0)
    | 6 => (some x, 0)
    | _ => (if old == x then some (c % 2 ^ w) else none, 0)

/-- Bytes of the location: 4 in the 32-bit forms and for AMOF. -/
def homeSize (kind : PeerKind) (fn : Nat) : Nat :=
  match kind with
  | .amof => 4
  | .sig => 8
  | _ => if bit fn 2 then 4 else 8

/-- Does the action return its value to the strand (R277)? -/
def returns (kind : PeerKind) : Bool :=
  match kind with
  | .sig => false
  | _ => true

/-- The access that the action's permission check names (R261). -/
def homeAccess (kind : PeerKind) : Access :=
  match kind with
  | .lda => .rd
  | _ => .rw

/-- Release and acquire parts with their scope (R281). -/
def homeOrder (kind : PeerKind) (f : Fields) : Option Nat × Option Nat :=
  let fn := f.fn.toNat
  let scope := bits f.imm.toNat 2 0
  let acq := if bit fn 4 then some scope else none
  match kind with
  | .lda => (none, acq)
  | .sig => (some (bits fn 2 0), none)
  | _ => (if bit fn 3 then some scope else none, acq)

/-- The general registers that the action reads. -/
def homeRegs (kind : PeerKind) (f : Fields) (e : Entry) : List GReg :=
  match kind with
  | .lda => [e.ga]
  | .amo => if bits f.fn.toNat 7 5 == 7 then [e.ga, e.gb, e.gc] else [e.ga, e.gb]
  | _ => [e.ga, e.gb]

/-- The register that supplies the value written (R306). -/
def homeData (kind : PeerKind) (f : Fields) (e : Entry) : GReg :=
  match kind with
  | .amo => if bits f.fn.toNat 7 5 == 7 then e.gc else e.gb
  | _ => e.gb

def State.releaseIf (s : State) (scope : Option Nat) : State := scope.elim s s.release
def State.acquireIf (s : State) (scope : Option Nat) : State := scope.elim s s.acquire

/-- The returning side of a home action: the destination with the granule's taint and poison (R306), the flags, then
the acquire. AMOF taints its destination. -/
def homeReturn (kind : PeerKind) (f : Fields) (s : State) (old : Nat) (taint poison : Bool) (fl : Flags) : State :=
  let s1 := (s.raise fl).acquireIf (homeOrder kind f).2
  if returns kind then
    s1.setG f.d.toNat { val := BitVec.ofNat 64 old, taint := taint || kind == .amof, poison := poison }
  else s1

/-- A home action at a home of this device. -/
def homeHere (kind : PeerKind) (f : Fields) (e : Entry) (s : State) (pa : Nat) : R State := do
  let fn := f.fn.toNat
  let n := homeSize kind fn
  let x := s.homeLoad pa n
  let s0 ← if returns kind then consume s e f x.2.1 x.2.2 else .ok s
  let data := homeData kind f e
  let r := homeStep kind fn (8 * n) x.1 e.gb.val.toNat e.gc.val.toNat
  let s1 := (s0.releaseIf (homeOrder kind f).1).homeSync (pa / 32) (returns kind)
  let s2 := match r.1 with
    | some v => s1.homeStore s1.me.sid pa n v (data.taint || kind == .amof) data.poison
    | none => s1
  return homeReturn kind f s2 x.1 x.2.1 x.2.2 (if kind == .amof then r.2 ||| flTNT else r.2)

/-- The releases that a home action at another device carries, for each scope, and where its strand stands (R288, R296). -/
def sentSync (kind : PeerKind) (f : Fields) (s : State) : Sync :=
  { agent := s.me.sid, place := some s.me.place, rel := (s.releaseIf (homeOrder kind f).1).me.rel.toList }

/-- The strand learns of the releases that its action read at a home of another device: those at fabric scope of whomever, and
those of strands of this device (R288). -/
def State.learn (s : State) (peer : Nat) (rel : Clock) (seen : List Sync) : State :=
  { s with me := { s.me with seen := { agent := agentAway peer, rel := scopesOf [] rel } :: seen ++ s.me.seen } }

/-- The response of a peer's home has come: raise its fault, with no effect, or finish (R305). PSN of the operands, the
release and the acquire take effect only now. -/
def homeAnswer (kind : PeerKind) (f : Fields) (e : Entry) (s : State) (r : Reply) : Served :=
  let s0 := { s with replies := s.replies.erase r, me := { s.me with awaiting := false } }
  let done : R State := do
    match r.fault with
    | some c => fail c e.ga.val.toNat
    | none =>
      let s1 ← regCheck s0 e f (homeRegs kind f e)
      let s2 ← if returns kind then consume s1 e f r.taint r.poison else .ok s1
      let s3 := s2.releaseIf (homeOrder kind f).1
      let s4 := if returns kind then s3.learn (bits e.ga.val.toNat 62 48) r.rel r.seen else s3
      return homeReturn kind f s4 r.value.toNat r.taint r.poison
        (if kind == .amof then r.flags % 512 ||| flTNT else 0)
  Served.ofR s0 done

/-- A home action at the head of the queue (R304-R306). R304 does not order the faults of its captured registers, TAINT and POISON,
against those of its address: the registers come first (DESIGN CHOICE, log entry 122). -/
def serveHome (kind : PeerKind) (f : Fields) (e : Entry) (s : State) : Served :=
  if s.me.awaiting then
    match s.replies.find? fun r => r.sid == s.me.sid with
    | some r => homeAnswer kind f e s r
    | none => .wait s
  else if ((homeOrder kind f).1.map fun sc => s.owes sc).getD false then .wait s
  else
    let r : R (State × Home) := do
      let s0 ← regCheck s e f (homeRegs kind f e)
      let h ← homeTarget s e.ga.val.toNat (homeSize kind f.fn.toNat) (homeAccess kind) true
      return (s0, h)
    match r with
    | .error x => .stop s x
    | .ok (s0, .here pa) =>
      match homeHere kind f e s0 pa with
      | .error x => .stop s x
      | .ok t => .done t
    | .ok (_, .there peer va) =>
      let data := homeData kind f e
      let s1 := s.send
        (.action s.vd s.me.sid peer kind f.fn.toNat (BitVec.ofNat 64 va) e.gb.val e.gc.val
          (data.taint || kind == .amof) data.poison s.poisonTrap (trapsTaint f) (sentSync kind f s))
      .wait { s1 with me := { s1.me with awaiting := true } }

def execLda (f : Fields) (s : State) : Result := runArray 0x92 f s fun e t => serveHome .lda f e t
def execAmo (f : Fields) (s : State) : Result := runArray 0x93 f s fun e t => serveHome .amo f e t
def execAmof (f : Fields) (s : State) : Result := runArray 0x94 f s fun e t => serveHome .amof f e t
def execSig (f : Fields) (s : State) : Result := runArray 0x95 f s fun e t => serveHome .sig f e t

/-! ### WAITS and WAITV (R34, R35, R37, R312) -/

/-- Cycles of the die counted by the sleep of the head entry: none pass while the strand is parked (R37). -/
def State.slept (s : State) : Nat :=
  match s.me.sleep with
  | some z => z.before + if s.me.issues then s.now - z.since else 0
  | none => 0

/-- Has the time-out of `limit` cycles passed? 0 means none (R34). -/
def State.timedOut (s : State) (limit : Nat) : Bool := limit != 0 && s.me.sleep.isSome && decide (limit ≤ s.slept)

/-- The head entry sleeps; a sleep already begun goes on. -/
def State.fallAsleep (s : State) : State :=
  { s with me := { s.me with sleep := some (s.me.sleep.getD { since := s.now }) } }

/-- WAITS at the head of the queue (R34, R312): a returning home action, which acquires only where it wakes. A value that it compares
under TNT or the POISON trap stops it before any wait (R100, R306). -/
def serveWaits (f : Fields) (e : Entry) (s : State) : Served :=
  let r : R (State × Option Bool) := do
    let s0 ← regCheck s e f [e.ga, e.gb, e.gc]
    let pa ← localHome s e.ga.val.toNat 8 .rd
    let x := s0.homeLoad pa 8
    let met := decide (e.gb.val.toNat ≤ x.1)
    let s1 ← consume s0 e f x.2.1 x.2.2
    if met || s0.timedOut e.gc.val.toNat then
      let s2 := s1.homeSync (pa / 32) true
      let s2 := if met then s2.acquire (bits f.fn.toNat 2 0) else s2
      return (s2.setQ f.d.toNat { val := met, taint := x.2.1 }, some met)
    else return (s, none)
  match r with
  | .error x => .stop s x
  | .ok (t, some _) => .done t
  | .ok (t, none) => .wait t.fallAsleep

def execWaits (f : Fields) (s : State) : Result := runArray 0x96 f s fun e t => serveWaits f e t

/-- The homes of WAITV's active elements: position, physical address and expected value (R35, R304, R312). -/
def waitvHomes (f : Fields) (e : Entry) (s : State) : R (List (Nat × Nat × Nat)) := do
  let a := s.me.getV f.a.toNat
  let b := s.me.getV f.b.toNat
  require (a.shape == b.shape) cAGREE
  checkMasks s e f a.shape
  let n := count a.shape
  require (decide (n ≤ capacity e.grows.toNat 64)) cCAPACITY
  let live := (List.range n).filter (isActive s e f a.shape)
  require (decide (live.length ≤ 256)) cCAPACITY
  require (!(trapsTaint f && ((!live.isEmpty && (a.taint || b.taint || s.masksTainted e f)) ||
    e.gc.taint || e.qt != 0))) cTAINT
  require (!((e.gc.poison || live.any fun i => (a.elem 64 i).poison || (b.elem 64 i).poison) && s.poisonTrap)) cPOISON
  live.mapM fun i => do
    let pa ← localHome s (a.elem 64 i).val 8 .rd
    return (i, pa, (b.elem 64 i).val)

/-- WAITV at the head of the queue: the mask of unmet elements (R35). -/
def serveWaitv (f : Fields) (e : Entry) (s : State) : Served :=
  let r : R (State × Bool) := do
    let homes ← waitvHomes f e s
    let a := s.me.getV f.a.toNat
    let b := s.me.getV f.b.toNat
    let unmet := (homes.filter fun h => (s.homeLoad h.2.1 8).1 != h.2.2).map fun h => h.1
    let gt := homes.any fun h => (s.homeLoad h.2.1 8).2.1
    let gp := homes.any fun h => (s.homeLoad h.2.1 8).2.2
    let rp := homes.any fun h => (a.elem 64 h.1).poison || (b.elem 64 h.1).poison
    let s0 ← consume s e f gt (gp || rp || e.gc.poison)
    if unmet.isEmpty || s.timedOut e.gc.val.toNat then
      let s1 := homes.foldl (fun t h => t.homeSync (h.2.1 / 32) true) s0
      let s1 := if unmet.isEmpty then s1.acquire (bits f.fn.toNat 2 0) else s1
      let taint := gt || (!homes.isEmpty && (a.taint || b.taint))
      let els := (List.range (count a.shape)).map fun i =>
        some ({ val := b2n (unmet.contains i), taint := taint } : Elt)
      let m := (s1.me.getM f.d.toNat).write a.shape els
      return (s1.setM f.d.toNat { m with taint := taint }, true)
    else return (s, false)
  match r with
  | .error x => .stop s x
  | .ok (t, true) => .done t
  | .ok (t, false) => .wait t.fallAsleep

def execWaitv (f : Fields) (s : State) : Result := runArray 0x97 f s fun e t => serveWaitv f e t

/-- A sleeping head entry of opcode `op` of a strand that may be woken acts again when `go` holds of it, and sleeps on otherwise
(R16, R17, R37, R375). -/
def wakeHead (op : BitVec 8) (go : Entry → Fields → Bool) (run : Fields → State → Result) (s : State) : Result :=
  match s.me.queue with
  | [] => .next s
  | e :: _ =>
    if opOf e.word == op && s.me.sleep.isSome && s.mayWake && go e (fieldsOf e.word) then run (fieldsOf e.word) s else .next s

/-- A sleeping WAITS whose signal has reached the value wakes (R34, R39). -/
def execWaitsWake (s : State) : Result :=
  wakeHead 0x96 (fun e _ => match localHome s e.ga.val.toNat 8 .rd with
    | .ok pa => decide (e.gb.val.toNat ≤ (s.homeLoad pa 8).1)
    | .error _ => true) execWaits s

/-- A sleeping WAITS whose time-out has passed stops (R34, R37). -/
def execWaitsTimeout (s : State) : Result :=
  wakeHead 0x96 (fun e _ => s.timedOut e.gc.val.toNat) execWaits s

/-- A sleeping WAITV with no unmet element wakes (R35, R39). -/
def execWaitvWake (s : State) : Result :=
  wakeHead 0x97 (fun e f => match waitvHomes f e s with
    | .ok hs => hs.all fun h => (s.homeLoad h.2.1 8).1 == h.2.2
    | .error _ => true) execWaitv s

/-- A sleeping WAITV whose time-out has passed stops (R35, R37). -/
def execWaitvTimeout (s : State) : Result :=
  wakeHead 0x97 (fun e _ => s.timedOut e.gc.val.toNat) execWaitv s

/-! ### BARR (R36, R37, R313) -/

/-- Where a strand counts for a barrier: its place, or the place from which it was switched out (R36). -/
def Strand.stand (st : Strand) : Place := st.left.getD st.place

/-- Is the strand a participant that has not finished? -/
def Strand.takesPart (st : Strand) (lid scope inst : Nat) : Bool :=
  st.launch.toNat == lid && scopeInstance scope st.stand == inst && st.status != .idle && st.status != .finished

/-- All strands, the focused one first. -/
def State.strands (s : State) : List Strand := s.me :: s.rest

/-- The participants of a barrier that have not finished. -/
def State.participants (s : State) (lid scope inst : Nat) : List Nat :=
  (s.strands.filter fun st => st.takesPart lid scope inst).map Strand.sid

def State.barrier? (s : State) (lid scope inst : Nat) : Option Barrier :=
  s.barriers.find? fun b => b.lid == lid && b.scope == scope && b.inst == inst

def State.putBarrier (s : State) (b : Barrier) : State :=
  { s with barriers := b :: s.barriers.filter fun x => !(x.lid == b.lid && x.scope == b.scope && x.inst == b.inst) }

/-- Complete a barrier at which every participant has arrived: all of them may depart (R36). -/
def State.completeBarrier (s : State) (b : Barrier) : State :=
  let ps := s.participants b.lid b.scope b.inst
  if !ps.isEmpty && ps.all fun p => b.arrived.contains p then
    s.putBarrier { b with arrived := [], syncs := [], leaving := ps, left := b.syncs }
  else s

/-- The barrier that lets a strand depart, if one does. -/
def State.openBarrier? (s : State) (lid scope sid : Nat) : Option Barrier :=
  s.barriers.find? fun b => b.lid == lid && b.scope == scope && b.leaving.contains sid

/-- Depart with an acquire at the scope (R36). -/
def State.depart (s : State) (b : Barrier) : State :=
  let s1 := s.putBarrier { b with leaving := b.leaving.erase s.me.sid }
  { s1 with me := { s1.me with seen := b.left ++ s1.me.seen } }.acquire b.scope

/-- BARR at the head of the queue: it arrives with a release, and departs once the barrier has completed. -/
def serveBarr (f : Fields) (s0 : State) : Served :=
  let scope := bits f.fn.toNat 1 0
  let lid := s0.me.launch.toNat
  let inst := scopeInstance scope s0.me.place
  match s0.openBarrier? lid scope s0.me.sid with
  | some b => .done (s0.depart b)
  | none =>
    if s0.owes scope then .wait s0
    else
      let b := (s0.barrier? lid scope inst).getD { lid := lid, scope := scope, inst := inst }
      let s1 := if b.arrived.contains s0.me.sid then s0 else
          let r := s0.release scope
          r.putBarrier { b with
            arrived := s0.me.sid :: b.arrived
            syncs := { agent := s0.me.sid, place := some s0.me.place, rel := r.me.rel.toList } :: b.syncs }
      let s2 := match s1.barrier? lid scope inst with
        | some b1 => s1.completeBarrier b1
        | none => s1
      match s2.openBarrier? lid scope s0.me.sid with
      | some b1 => .done (s2.depart b1)
      | none => .wait s2.fallAsleep

def execBarr (f : Fields) (s : State) : Result := runArray 0x98 f s fun _ t => serveBarr f t

/-- A barrier completes when every participant that has not finished has arrived (R36). -/
def execBarrierComplete (lid scope inst : Nat) (s : State) : Result :=
  match s.barrier? lid scope inst with
  | some b => .next (s.completeBarrier b)
  | none => .next s

/-! ### CLAIM and PUBL (R31, R32, R314) -/

/-- CLAIM (R32, R314). Reissued at a lower residency it grants at most the GROWS in force beside the one that it captured (R14,
R18, R20; DEDUCED, log entry 91). -/
def serveClaim (f : Fields) (e : Entry) (s : State) : Served :=
  Served.ofR s (do
    let s0 ← regCheck s e f [e.ga, e.gb]
    let pa ← localHome s e.ga.val.toNat 16 .rw
    let x := s0.homeLoad pa 8
    let limit := (s0.homeLoad (pa + 8) 8).1
    let s1 ← consume s0 e f x.2.1 x.2.2
    let grant := min (min e.gb.val.toNat (min e.grows.toNat s.me.grows)) (limit - x.1)
    let s2 := s1.homeSync (pa / 32) true
    let s3 := if grant == 0 then s2 else
        s2.homeStore s2.me.sid pa 8 (x.1 + grant) e.gb.taint e.gb.poison
    let s4 := { s3 with me := { s3.me with stripb := BitVec.ofNat 64 x.1, rows := BitVec.ofNat 16 grant } }
    return s4.setG f.d.toNat { val := BitVec.ofNat 64 x.1, taint := x.2.1, poison := x.2.2 })

def execClaim (f : Fields) (s : State) : Result := runArray 0x99 f s fun e t => serveClaim f e t

def servePubl (f : Fields) (e : Entry) (s : State) : Served :=
  let scope := bits f.fn.toNat 2 0
  if s.owes scope then .wait s
  else
    Served.ofR s (do
      let s0 ← regCheck s e f [e.ga, e.gb]
      let pa ← localHome s e.ga.val.toNat 8 .rw
      let old := (s0.homeLoad pa 8).1
      let s1 := (s0.release scope).homeSync (pa / 32) false
      return if e.gb.val.toNat ≤ old then s1
        else s1.homeStore s1.me.sid pa 8 e.gb.val.toNat e.gb.taint e.gb.poison)

def execPubl (f : Fields) (s : State) : Result := runArray 0x9A f s fun e t => servePubl f e t

end Sys2Proof.Machine
end

