-- ==== Sys2Proof/Machine/Engine.lean ====
section
/-! DEFINITION. The engine instructions COPY, PREF, SEND, CRED and CBCAST (R298-R300, R315-R324), the finish of their
work, collectives, Caravans arriving, and accesses of peers. -/

namespace Sys2Proof.Machine

/-! ### Tokens (R315, R316) -/

/-- A record of 32 bytes, 32-aligned, in the strand's own device, with RD and WR permission (R315, R322). -/
def checkRecord (s : State) (a : Nat) : R Nat := localHome s a 32 .rw

def checkToken (s : State) (tok : Option Nat) : R Unit :=
  match tok with
  | none => .ok ()
  | some a => do
    let _ ← checkRecord s a

/-- What happens before a release that engine work makes: what the strand had acquired at its issue and what layer 1 orders before
the work, and what the work has written (R288, R299, R315). -/
def State.workClock (s : State) (w : Work) : Clock := clockPut w.clock (agentWork w.k) (clockGet s.agents (agentWork w.k))

/-- The releases that a home action of the work carries, for each scope: those before its issue, and its own at fabric scope,
which every one of those precedes in program order (R288, R299, R315). -/
def State.workRel (s : State) (w : Work) : List Clock :=
  (List.range 5).map fun i => if i == 4 then w.rel.foldl clockJoin (s.workClock w) else w.rel.getD i []

/-- The engine's step at a finish: DONE, then one home action on bits 63:0 that gains 1 and ORs CAN and ERR, with a release
at fabric scope (R315, R316). -/
def State.tokenFinish (s : State) (w : Work) (done : Nat) (can err : Bool) : State :=
  match tokenOf (fieldsOf w.entry.word) w.entry with
  | none => s
  | some a =>
    match s.transAt s.vd .rw a with
    | .error x => s.noteFlt s.vd x
    | .ok pa =>
      let who := agentWork w.k
      let s1 := s.writeGranule who false
        { granule := pa / 32, mask := (2 ^ 64 - 1) <<< 128, data := (done % 2 ^ 64) <<< 128, taint := false, poison := false }
      let old := (s1.homeLoad pa 8).1
      let new := (old % 2 ^ 62 + 1) % 2 ^ 62 + ((old >>> 62) ||| (b2n can <<< 1) ||| b2n err) <<< 62
      let m : Sync :=
        { granule := pa / 32, agent := s1.me.sid, place := some s1.me.place, rel := s1.workRel w }
      { s1 with syncs := m :: s1.syncs }.homeStore who pa 8 new false false

/-- DONE of a token record as it stands (R316). -/
def State.tokenDone (s : State) (tok : Option Nat) (saved : Nat) : Nat :=
  match tok with
  | none => saved
  | some a =>
    match s.translate s.vd .rw a with
    | .error _ => saved
    | .ok pa => (s.homeLoad (pa + 16) 8).1

/-- Add a piece of outstanding work to the focused strand; it takes the next number. -/
def State.addWork (s : State) (w : Work) : State :=
  { s with
    me := { s.me with work := s.me.work ++ [{ w with
      k := s.nextId, rel := s.me.rel.toList
      clock := clockJoin (clockJoin s.me.clock s.me.order.beforeEngine) (s.me.orderedBefore w.ranges) }] }
    nextId := s.nextId + 1 }

def State.dropWork (s : State) (k : Nat) : State :=
  { s with me := { s.me with work := s.me.work.filter fun w => w.k != k } }

/-- A piece of work of the focused strand goes on. -/
def State.setWork (s : State) (w : Work) : State :=
  { s with me := { s.me with work := s.me.work.map fun x => if x.k == w.k then w else x } }

/-- Checks of what an engine instruction consumes at its issue: TNT and the POISON trap; it answers the flag that the
instruction raises when its work finishes (R47). -/
def consumeLater (s : State) (e : Entry) (f : Fields) (tainted poisoned : Bool) : R Flags := do
  let _ ← consume s e f tainted poisoned
  return flagIf poisoned flPSN

/-- Checks of captured general registers at the issue of engine work. -/
def regLater (s : State) (e : Entry) (f : Fields) (regs : List GReg) : R Flags :=
  consumeLater s e f (regs.any GReg.taint) (regs.any GReg.poison)

/-- DONE when all of an instruction has been performed (R316). The full count of a SEND, whose DONE is a row and an element, is its
number of rows and element 0 (DESIGN CHOICE, log entry 137). -/
def Work.full (w : Work) : Nat :=
  match w.kind with
  | .send => (sendRows w.reg).length <<< 48
  | _ => count (TEntry.shape w.imageB)

/-- What the work has written precedes whatever the strand releases later (R281, R288). -/
def State.joinWorkClock (s : State) (w : Work) : State :=
  { s with me := { s.me with order := { s.me.order with worked := clockJoin s.me.order.worked (s.workClock w) } } }

/-- The elements that peers have performed join the digest (R389). -/
def State.foldUnits (s : State) (w : Work) (faulted : List Nat) : State :=
  let second := s.isConsumer w.entry.pc
  { s with me := (w.units.filter fun u => !faulted.contains u.1).foldl (fun m u => m.foldUnit second u.2.1 u.2.2.1 u.2.2.2) s.me }

/-- The instruction finishes: its token, its flags (R47, R315, R316), and its elements sent to peers but those that faulted
there. What it has written now precedes whatever the strand releases later, since a release waits for it (R298). -/
def State.endWork (s : State) (w : Work) (done : Nat) (can err : Bool) (faulted : List Nat := []) : State :=
  ((((s.foldUnits w faulted).tokenFinish w done can err).raise w.owedFlags).joinWorkClock w).dropWork w.k

/-- Does the source of a COPY lie on another device, seen from the one of rank `own` (R318)? -/
def Work.farSource (w : Work) (own : Nat) : Bool :=
  w.kind == .copy && bit w.route.toNat 16 && bits w.route.toNat 14 0 != own

/-- Does any write of the work lie on another device (R318, R321)? -/
def Work.away (w : Work) (own : Nat) : Bool :=
  match w.kind with
  | .copy => bit w.route.toNat 17 && bits w.route.toNat 14 0 != own
  | .send => (sendRows w.reg).any fun r => r.peer != own
  | _ => false

/-- All of the work has been performed here or sent to peers; it stays until they have acknowledged (R295, R299). What it has
written on this device precedes a later release at any scope (R281, R298). -/
def State.sentWork (s : State) (w : Work) : State :=
  (s.joinWorkClock w).setWork { w with sent := true, done := w.full, ranges := [] }

/-- Read elements of a tensor by index list, every address checked first (R317). -/
def readTensor (s : State) (t : TEntry) (idx : List (List Nat)) : R (List (Nat × Bool × Bool)) :=
  allOrLowest (idx.map fun i => s.readElem s.vd (t.addr i) (Fmt.size t.fmt))

/-- Check that elements can be written (R317). -/
def checkWrites (s : State) (t : TEntry) (idx : List (List Nat)) : R Unit := do
  let _ ← allOrLowest (idx.map fun i => s.transBits s.vd .wr (t.addr i) (Fmt.size t.fmt))

/-- Of two checks, the fault at the lower byte stands (R317). -/
def lowerFault {α β : Type} (a : R α) (b : R β) : R (α × β) :=
  match a, b with
  | .ok x, .ok y => .ok (x, y)
  | .error x, .ok _ => .error x
  | .ok _, .error y => .error y
  | .error x, .error y => .error (if y.faddr < x.faddr then y else x)

/-- Plan element writes in order, up to the first that faults; bit addresses with values. -/
def planElems (s : State) (z : Nat) (xs : List (Int × (Nat × Bool × Bool))) (p : Planned) : Planned :=
  planStrip s z xs.length (fun _ => true) (fun i => (xs[i]?).map fun x => x.1)
    (fun i =>
      let y := ((xs[i]?).map fun x => x.2).getD (0, false, false)
      { val := y.1, taint := y.2.1, poison := y.2.2 }) p

/-- Write the elements, and the scale bytes, that translate, as plain writes of the work; whether one did not (R317), of whose
poisoned page-table entries the Steward hears (R261). -/
def State.putElems (s : State) (w : Work) (z : Nat) (pairs scales : List (Int × (Nat × Bool × Bool))) : State × Bool :=
  let good := pairs.filter fun p => (s.transBits s.vd .wr p.1 z).isOk
  let sgood := scales.filter fun p => (s.transBits s.vd .wr p.1 8).isOk
  let note (sz : Nat) (u : State) (p : Int × (Nat × Bool × Bool)) : State :=
    match s.transBits s.vd .wr p.1 sz with
    | .ok _ => u
    | .error x => u.noteFlt s.vd x
  ((scales.foldl (note 8) (pairs.foldl (note z) s)).performAs (agentWork w.k) w.entry.pc (planElems s 8 sgood (planElems s z good {})),
   good.length != pairs.length || sgood.length != scales.length)

/-- TNT on memory sources read at issue (R100). Poison is carried, not consumed (R306, R319). -/
def checkVals (f : Fields) (vals : List (Nat × Bool × Bool)) : R Unit :=
  require (!(trapsTaint f && vals.any fun v => v.2.1)) cTAINT

/-! ### COPY (R318, R319) -/

/-- The permutation of a transposing COPY, or the identity. -/
def copyPerm (f : Fields) (c : Nat) : List Nat :=
  if bit f.fn.toNat 1 then (List.range c).map fun j => bits f.imm.toNat (3 * j + 2) (3 * j) else List.range c

/-- The ROUTE word's fields: RSRC, RDST, PEER; a word that breaks R318 raises XLATE, and under TNT a tainted one TAINT (R100). -/
def copyRoute (s : State) (f : Fields) (tok : Option Nat) : R (Nat × Bool × Bool) :=
  match tok with
  | none => .ok (0, false, false)
  | some a => do
    let x ← s.readElem s.vd (8 * ((a + 8 : Nat) : Int)) 64
    checkVals f [x]
    let r := x.1
    let d := s.myVdev
    let rsrc := bit r 16
    let rdst := bit r 17
    let peer := bits r 14 0
    require (bits r 63 18 == 0 && !bit r 15 && !(rsrc && rdst) && !(rdst && bit f.fn.toNat 0) &&
      (!(rsrc || rdst) || d.hasPeer peer)) cXLATE (a + 8)
    let far := peer != d.rank
    return (r, rsrc && far, rdst && far)

/-- What a COPY moves: the source index of each destination index, in row-major order of the destination. -/
structure CopyShape where
  ds : List Nat
  src : List Nat → List Nat

def copyShape (f : Fields) (eb : TEntry) : R CopyShape := do
  let es := eb.shape
  let c := eb.rank
  let p := copyPerm f c
  let trans := bit f.fn.toNat 1
  require (!trans || (((List.range c).all fun x => p.contains x) &&
    (upTo c 6).all fun j => bits f.imm.toNat (3 * j + 2) (3 * j) == 0)) cAGREE
  require (!(trans && Fmt.isK f.fmt.toNat && c != 0) || p.getD (c - 1) 0 == c - 1) cAGREE
  return { ds := p.map fun x => es.getD x 1
           src := fun i => (List.range c).map fun x => i.getD (List.idxOf x p) 0 }

/-- The first index of each block along the innermost axis of a shape. -/
def blockStarts (sh : List Nat) (blk : Nat) : List (List Nat) :=
  ((List.range (count sh)).map (unravel sh)).filter fun i =>
    match i.getLast? with
    | some x => x % blk == 0
    | none => true

/-- Scale addresses of the blocks, as bit addresses. -/
def scaleBits (t : TEntry) (blk : Nat) (starts : List (List Nat)) : List Int :=
  starts.map fun i => t.scaleAddr blk i * 8

/-- The row-major indices of the destination elements from `a` to `b − 1` that begin a block of a block format. -/
def CopyShape.starts (cs : CopyShape) (f : Fields) (blk a b : Nat) : List Nat :=
  if Fmt.isK f.fmt.toNat then
    (upTo a b).filter fun i => ((unravel cs.ds i).getLast?.map fun x => x % blk == 0).getD true
  else []

/-- Elements from `a` to `b − 1` that a COPY reads from this device, and the scale bytes of the blocks that begin among
them. -/
def copyRead (s : State) (f : Fields) (e : Entry) (eb : TEntry) (cs : CopyShape) (a b : Nat) :
    R (List (Nat × Bool × Bool) × List (Nat × Bool × Bool)) :=
  let src (i : Nat) : List Nat := cs.src (unravel cs.ds i)
  lowerFault (readTensor s eb ((upTo a b).map src))
    (allOrLowest ((scaleBits eb e.blk ((cs.starts f e.blk a b).map src)).map fun x => s.readElem s.vd x 8))

/-- Issue of a COPY (R302, R317-R319): every check, then the work that finishes later. The rules do not order the faults of the token
record, of the ROUTE word and of the local operands against each other: they come in that order (DESIGN CHOICE, log entry 123). -/
def serveCopy (f : Fields) (e : Entry) (s : State) : Served :=
  let fmt := f.fmt.toNat
  let z := Fmt.size fmt
  let toReg := bit f.fn.toNat 0
  let eb : TEntry := s.me.getT f.b.toNat
  let ea : TEntry := s.me.getT f.a.toNat
  let tok := tokenOf f e
  Served.ofR s (do
    useEntry eb fmt
    if !toReg then useEntry ea fmt
    let cs ← copyShape f eb
    require (toReg || (ea.rank == cs.ds.length && ea.shape == cs.ds)) cAGREE
    require (!toReg || (decide (cs.ds.length ≤ 4) && cs.ds.all (fun n => decide (n ≤ 65535)) &&
      decide (count cs.ds ≤ capacity e.grows.toNat z))) cCAPACITY
    let fl ← regLater s e f (if tok.isSome then [e.gd] else [])
    checkToken s tok
    let rt ← copyRoute s f tok
    if !toReg && !rt.2.1 && !rt.2.2 then
      checkOverlap ea eb (bit f.fn.toNat 1 && cs.ds.length == 2 && cs.ds.getD 0 0 == cs.ds.getD 1 0 &&
        copyPerm f 2 == [1, 0] && decide (count cs.ds * z ≤ e.grows.toNat * 2048))
    let src := if rt.2.1 then .ok ([], []) else copyRead s f e eb cs 0 (count cs.ds)
    let dst : R Unit := if toReg || rt.2.2 then .ok () else do
      let _ ← lowerFault (checkWrites s ea ((List.range (count cs.ds)).map (unravel cs.ds)))
        (allOrLowest ((if Fmt.isK fmt then scaleBits ea e.blk (blockStarts cs.ds e.blk) else []).map
          fun a => s.transBits s.vd .wr a 8))
    let r ← lowerFault src dst
    let vals := r.1.1 ++ r.1.2
    checkVals f vals
    return s.addWork { kind := .copy, entry := e, imageA := ea, imageB := eb, route := BitVec.ofNat 64 rt.1
                       owedFlags := fl
                       vals := vals, reread := rt.2.1
                       ranges := (if rt.2.1 then [] else eb.range false) ++
                         (if toReg || rt.2.2 then [] else ea.range true) })

def execCopy (f : Fields) (s : State) : Result := runArray 0x9B f s fun e t => serveCopy f e t

/-- Elements at a peer from the bytes that came back: for each element, and then each scale, the bytes it covers. -/
def bytesFromPeer (data : List PeerByte) (spots : List (Int × Nat)) : Option (List (Nat × Bool × Bool)) :=
  let r := spots.foldl (fun (acc : List (Nat × Bool × Bool) × List PeerByte) p =>
    let n := ((p.1 % 8).toNat + p.2 + 7) / 8
    (assemble (p.1 % 8).toNat p.2 ((acc.2.take n).map fun b => (b.1.toNat, b.2.1, b.2.2)) :: acc.1, acc.2.drop n)) ([], data)
  let need := (spots.map fun p => ((p.1 % 8).toNat + p.2 + 7) / 8).foldl (· + ·) 0
  if data.length < need then none else some r.1.reverse

/-- Bit addresses and sizes that a COPY reads at a peer for its elements from `a` to `b − 1`. -/
def copySpots (f : Fields) (e : Entry) (eb : TEntry) (cs : CopyShape) (a b : Nat) : List (Int × Nat) :=
  let src (i : Nat) : List Nat := cs.src (unravel cs.ds i)
  ((upTo a b).map fun i => (eb.addr (src i), Fmt.size eb.fmt)) ++
    (scaleBits eb e.blk ((cs.starts f e.blk a b).map src)).map fun x => (x, 8)

/-- What a COPY moves for its elements from `a` to `b − 1`: elements and scale bytes that it read at issue, that it reads
again after a resumption (R316), or that came back from a peer; none where bytes of the peer are missing. -/
def copyVals (s : State) (w : Work) (cs : CopyShape) (a b : Nat) (data : List PeerByte) :
    Option (R (List (Nat × Bool × Bool) × List (Nat × Bool × Bool))) :=
  let f := fieldsOf w.entry.word
  if w.farSource s.myVdev.rank then
    (bytesFromPeer data (copySpots f w.entry w.imageB cs a b)).map fun v => .ok (v.take (b - a), v.drop (b - a))
  else if w.reread then some (copyRead s f w.entry w.imageB cs a b)
  else
    let n := count cs.ds
    let before := (cs.starts f w.entry.blk 0 a).length
    some (.ok ((w.vals.drop a).take (b - a), (w.vals.drop (n + before)).take (cs.starts f w.entry.blk a b).length))

/-- What the reads of engine work through an entry ask of the caches: the HINT of its word and RETC of the entry (R97, R98, R269). -/
def State.workFill (s : State) (w : Work) (t : TEntry) : Fill :=
  { vd := s.vd, hint := (fieldsOf w.entry.word).hint.toNat, retc := t.retc }

/-- A resumed COPY reads its elements from `a` to `b − 1` again: they meet the caches (R269, R316). -/
def State.rereadCopy (s : State) (w : Work) (cs : CopyShape) (a b : Nat) : State :=
  if w.reread && !w.farSource s.myVdev.rank then
    s.engineReads (s.workFill w w.imageB) (linesOf (spotRanges (copySpots (fieldsOf w.entry.word) w.entry w.imageB cs a b) false))
  else s

/-- Perform the elements from `a` to `b − 1` of a COPY to a tensor, but those whose source faulted at a peer; scales go with
the first elements of their blocks. No flag is raised (R319). The state, whether a local element faulted, and the units of
the elements that went to a peer. -/
def copyPut (s : State) (w : Work) (cs : CopyShape) (a b : Nat) (faulted : List Nat)
    (vals : List (Nat × Bool × Bool) × List (Nat × Bool × Bool)) : State × Bool × List (Nat × Nat × Bool × Bool) :=
  let f := fieldsOf w.entry.word
  let e := w.entry
  let ea : TEntry := w.imageA
  let z := Fmt.size f.fmt.toNat
  let lives (p : Nat × (Nat × Bool × Bool)) : Bool := !faulted.contains p.1
  let pairs := (((upTo a b).zip vals.1).filter lives).map fun p => (p.1, ea.addr (unravel cs.ds p.1), p.2)
  let spairs := (((cs.starts f e.blk a b).zip vals.2).filter lives).map fun p =>
    (p.1, ea.scaleAddr e.blk (unravel cs.ds p.1) * 8, p.2)
  if w.away s.myVdev.rank then
    let out (sz : Nat) (t : State) (p : Nat × Int × (Nat × Bool × Bool)) : State :=
      t.send (.element t.vd (bits w.route.toNat 14 0) w.k p.2.1.toNat sz p.2.2.1 p.2.2.2.1 p.2.2.2.2)
    let unit (sz : Nat) (p : Nat × Int × (Nat × Bool × Bool)) : Nat × Nat × Bool × Bool :=
      (p.1, elemUnit p.2.1 sz p.2.2.1, p.2.2.2.1, p.2.2.2.2)
    (spairs.foldl (out 8) (pairs.foldl (out z) s), false, pairs.map (unit z) ++ spairs.map (unit 8))
  else
    let r := s.putElems w z (pairs.map fun p => p.2) (spairs.map fun p => p.2)
    (r.1, r.2, [])

/-- A COPY to a register writes all of it from DONE on (R316, R319), but elements that faulted at a peer. -/
def copyReg (s : State) (w : Work) (cs : CopyShape) (faulted : List Nat) (vals : List (Nat × Bool × Bool)) : State :=
  let f := fieldsOf w.entry.word
  let xs := (List.range (count cs.ds)).map fun i =>
    if i < w.done || faulted.contains i then none else (vals[i - w.done]?).map fun v => ({ val := v.1, taint := v.2.1, poison := v.2.2 } : Elt)
  let v := (s.me.getV f.a.toNat).write (Fmt.size f.fmt.toNat) cs.ds xs
  { s with me := { s.me with v := s.me.v.setIfInBounds f.a.toNat v } }

/-- Is the destination of a COPY a register? -/
def Work.toReg (w : Work) : Bool := w.kind == .copy && bit (fieldsOf w.entry.word).fn.toNat 0

/-- The next `n` elements of a COPY to a tensor are performed (R298, R316): the model performs elements in row-major order
of the destination, one of the orders that the rule allows (log entry 41). -/
def stepCopy (s : State) (w : Work) (n : Nat) (data : List PeerByte) : State :=
  match copyShape (fieldsOf w.entry.word) w.imageB with
  | .error _ => s
  | .ok cs =>
    let b := min (count cs.ds) (w.done + n)
    match copyVals s w cs w.done b data with
    | some (.ok v) =>
      let r := copyPut (s.rereadCopy w cs w.done b) w cs w.done b [] v
      r.1.setWork { w with done := b, failed := w.failed || r.2.1, units := w.units ++ r.2.2 }
    | _ => s

/-- Finish a COPY of the focused strand: its remaining elements are performed; with some that faulted at a peer, which were not,
it finishes with ERR (R317). So does a resumed one whose source no longer translates: it performs none of those that are left,
and its DONE is full (DESIGN CHOICE, log entry 121). A COPY to a peer waits from then on for the acknowledgements. -/
def finishCopy (s : State) (w : Work) (err : Bool) (faulted : List Nat) (data : List PeerByte) : State :=
  if w.sent then s.endWork w w.full false (err || w.failed) faulted
  else
    match copyShape (fieldsOf w.entry.word) w.imageB with
    | .error _ => s
    | .ok cs =>
      let n := count cs.ds
      match copyVals s w cs w.done n data with
      | none => s
      | some (.error x) => (s.noteFlt s.vd x).endWork w n false true
      | some (.ok v) =>
        let away := w.away s.myVdev.rank
        let s0 := s.rereadCopy w cs w.done n
        let r := if w.toReg then (copyReg s0 w cs faulted v.1, false, []) else copyPut s0 w cs w.done n (if away then [] else faulted) v
        if away then
          r.1.sentWork { w with
            failed := w.failed || err, units := (w.units ++ r.2.2).filter fun u => !faulted.contains u.1 }
        else r.1.endWork w n false (err || w.failed || r.2.1)

/-! ### PREF (R320) -/

/-- The addresses of the in-bounds elements of PREF's strip. -/
def prefAddrs (t : TEntry) (e : Entry) : List Int :=
  (List.range (count e.strip)).filterMap (tidStrip t e e.gb.val.toInt e.gc.val.toInt).addr

/-- The Steward hears of the poisoned page-table entries that PREF's walks read (R261), and the walks on which its accesses
waited have been reported (R263). -/
def prefNotes (s : State) (t : TEntry) (e : Entry) : State :=
  (prefAddrs t e).foldl (fun u a => match s.transBits s.vd .rd a (Fmt.size t.fmt) with
    | .ok _ => u
    | .error x => (u.noteFlt s.vd x).missReported x.faddr.toNat) s

/-- The lines of virtual addresses that hold the in-bounds elements of PREF's strip; an element that does not translate is
skipped. -/
def prefLines (s : State) (t : TEntry) (e : Entry) : List Nat :=
  let z := Fmt.size t.fmt
  let found : List Int := (prefAddrs t e).filter fun a => (s.transBits s.vd .rd a z).isOk
  (found.flatMap fun (a : Int) => [(a / 1024).toNat, ((a + z - 1) / 1024).toNat]).dedup

/-- PREF brings the lines of its strip to the strand's L1, or to the L2 of their homes, as FN says, and changes no value (R269,
R320). Where FN names the L1 and HINT is l2, which keeps lines out of the L1, it brings none to either (DESIGN CHOICE, log
entry 135). -/
def servePref (f : Fields) (e : Entry) (s : State) : Served :=
  let t : TEntry := s.me.getT f.a.toNat
  let home (p : Fill) : Nat × Nat := homeOf (128 * p.line)
  let ask (u : State) (n : Nat) : State :=
    match s.lineFill (128 * n) { vd := s.vd, hint := f.hint.toNat, retc := t.retc, prefetch := true } with
    | none => u
    | some p =>
      u.meet (if bit f.fn.toNat 0 then { p with level2 := true, die := (home p).1, unit := (home p).2 }
        else { p with die := s.me.place.die, unit := s.me.place.core })
  Served.ofR s (do
    require t.valid cTIDINV
    return (prefLines s t e).foldl ask (prefNotes s t e))

def execPref (f : Fields) (s : State) : Result := runArray 0x9C f s fun e t => servePref f e t

/-! ### SEND and Caravans (R299, R321) -/

/-- The limits of a row (R321). -/
def Row.ok (r : Row) (d : VDev) : Bool :=
  decide (r.peer < 2 ^ 15) && decide (r.daddr < 2 ^ 48) && decide (r.cnt < 2 ^ 32) && r.asig % 8 == 0 && d.hasPeer r.peer

/-- The elements of a train: FILL beyond the tensor's count. -/
def trainRead (s : State) (t : TEntry) (first cnt : Nat) : R (List (Nat × Bool × Bool)) :=
  let n := count t.shape
  allOrLowest ((List.range cnt).map fun i =>
    if first + i < n then s.readElem s.vd (t.addr (unravel t.shape (first + i))) (Fmt.size t.fmt)
    else .ok (t.fill % 2 ^ Fmt.size t.fmt, false, false))

/-- Every train of a SEND from row `r0`, element `e0` on, in order. -/
def sendRead (s : State) (t : TEntry) (rows : List Row) (r0 e0 : Nat) : R (List (Nat × Bool × Bool)) := do
  let xs ← allOrLowest (rows.zipIdx.map fun p =>
    if p.2 < r0 then .ok []
    else
      let k := if p.2 == r0 then min e0 p.1.cnt else 0
      trainRead s t (p.1.first + k) (p.1.cnt - k))
  return xs.flatten

/-- Issue of a SEND (R317, R321). The faults of its token record come before those of its rows and its source (log entry 123). -/
def serveSend (f : Fields) (e : Entry) (s : State) : Served :=
  let t : TEntry := s.me.getT f.a.toNat
  let v := s.me.getV f.b.toNat
  let tok := tokenOf f e
  Served.ofR s (do
    useEntry t f.fmt.toNat
    require (v.shape.length == 2 && v.shape.getD 1 0 == 5 && decide (1 ≤ v.shape.getD 0 0) && decide (v.shape.getD 0 0 ≤ 256)) cAGREE
    require (decide (count v.shape ≤ capacity e.grows.toNat 64)) cCAPACITY
    let poison := (List.range (count v.shape)).any fun i => (v.elem 64 i).poison
    let fl ← consumeLater s e f (v.taint || (tok.isSome && e.gd.taint)) (poison || (tok.isSome && e.gd.poison))
    checkToken s tok
    require ((sendRows v).all fun r => r.ok s.myVdev) cXLATE
    let vals ← sendRead s t (sendRows v) 0 0
    checkVals f vals
    return s.addWork { kind := .send, entry := e, imageA := t, reg := v, vals := vals, owedFlags := fl
                       ranges := t.range false ++ caravanRanges v s.myVdev.rank (Fmt.size f.fmt.toNat) })

def execSend (f : Fields) (s : State) : Result := runArray 0x9D f s fun e t => serveSend f e t

/-- Releases at fabric scope alone. -/
def atFabric (c : Clock) : List Clock := scopesOf [] c

/-- The arrival signal of a train gains its count as a home action with a release at fabric scope (R299, R321). -/
def State.signalTrain (s : State) (vd who asig cnt : Nat) (rel : List Clock) (place : Option Place) : Option State :=
  if asig == 0 then some s
  else
    match s.translate vd .rw asig with
    | .error _ => none
    | .ok pa =>
      let old := (s.homeLoad pa 8).1
      let m : Sync := { granule := pa / 32, agent := who, place := place, rel := rel }
      some ({ s with syncs := m :: s.syncs }.homeStore who pa 8 (old + cnt) false false)

/-- What a train has come to: the state, whether an element of it faulted here, and the units of the elements that went to a
peer. -/
structure TrainOut where
  s : State
  failed : Bool
  units : List (Nat × Nat × Bool × Bool) := []

/-- Elements of one train of the focused strand, row `row` of its SEND, from element `e0` on, to this device itself or to a
peer, and its tail where they are its last. A train with an element that faulted has no tail here (R321). A row whose PEER is
the own rank is a Caravan like any other: R317 does not say whether its addresses are local ones, checked at the entry, or
those of the peer, as the model has it: an element that does not translate ends in ERR (DESIGN CHOICE, log entry 111). -/
def sendTrain (s : State) (w : Work) (z row : Nat) (r : Row) (e0 : Nat) (last failed : Bool) (els : List (Nat × Bool × Bool)) :
    TrainOut :=
  let pairs := els.zipIdx.map fun p => (((r.daddr * 8 + (e0 + p.2) * z : Nat) : Int), p.1)
  let fab : Nat := (2 ^ 63 + r.peer <<< 48) * 8
  let unit (p : Int × (Nat × Bool × Bool)) : Nat × Bool × Bool := (elemUnit (p.1 + (fab : Int)) z p.2.1, p.2.2.1, p.2.2.2)
  if r.peer == s.myVdev.rank then
    let good := pairs.filter fun p => (s.transBits s.vd .wr p.1 z).isOk
    let s0 := (pairs.filter fun p => !(s.transBits s.vd .wr p.1 z).isOk).foldl (fun u p =>
      match s.transBits s.vd .wr p.1 z with
      | .ok _ => u
      | .error x => u.noteFlt s.vd x) s
    let s1 := (s0.writeAll (agentWork w.k) (planElems s z good {}).ws).foldUnits
      { w with units := good.map fun p => (0, unit p) } []
    let bad := failed || good.length != pairs.length
    if bad || !last then { s := s1, failed := bad }
    else
      match s1.signalTrain s1.vd (agentWork w.k) r.asig r.cnt (s1.workRel w) (some s1.me.place) with
      | some t => { s := t, failed := false }
      | none => { s := s1.noteWalk s1.vd r.asig, failed := true }
  else
    let s1 := pairs.foldl (fun t p => t.send (.element t.vd r.peer w.k p.1.toNat z p.2.1 p.2.2.1 p.2.2.2)) s
    { s := if last then s1.send (.tail s.vd r.peer w.k r.cnt (BitVec.ofNat 64 r.asig) { agent := s1.me.sid, place := some s1.me.place, rel := s1.workRel w }) else s1
      failed := failed
      units := pairs.zipIdx.map fun p => (row <<< 48 + (e0 + p.2), unit p.1) }

/-- How far a SEND has come: state, DONE, elements left to take and to perform, whether it stands inside a row, and
whether a train of it, and the one it stands in, has failed. -/
structure Sending where
  s : State
  done : Nat
  vals : List (Nat × Bool × Bool)
  left : Nat
  inside : Bool := false
  failed : Bool
  rowFailed : Bool
  units : List (Nat × Nat × Bool × Bool)

/-- The next `n` elements of a SEND from row `r0`, element `e0` on, with the tails of the trains that they end. -/
def sendPart (s : State) (w : Work) (n : Nat) (vals : List (Nat × Bool × Bool)) : Sending :=
  let r0 := bits w.done 63 48
  let e0 := bits w.done 47 0
  (sendRows w.reg).zipIdx.foldl (fun acc p =>
    if p.2 < r0 || acc.inside then acc
    else
      let k := if p.2 == r0 then min e0 p.1.cnt else 0
      let m := min (p.1.cnt - k) acc.left
      let last := m == p.1.cnt - k
      let q := sendTrain acc.s w (Fmt.size (TEntry.fmt w.imageA)) p.2 p.1 k last (acc.rowFailed && p.2 == r0) (acc.vals.take m)
      { s := q.s, vals := acc.vals.drop m, left := acc.left - m, inside := !last, failed := acc.failed || q.failed
        rowFailed := q.failed, units := acc.units ++ q.units, done := if last then (p.2 + 1) <<< 48 else p.2 <<< 48 + (k + m) })
    { s := s, done := w.done, vals := vals, left := n, failed := w.failed, rowFailed := w.rowFailed, units := w.units }

/-- The elements of a SEND from DONE on: those read at issue, or after a resumption those that the source now holds. -/
def sendVals (s : State) (w : Work) : R (List (Nat × Bool × Bool)) :=
  let rows := sendRows w.reg
  let r0 := bits w.done 63 48
  let e0 := bits w.done 47 0
  if w.reread then sendRead s w.imageA rows r0 e0
  else .ok (w.vals.drop (((rows.take r0).map Row.cnt).sum + min e0 ((rows[r0]?.map Row.cnt).getD 0)))

/-- Where the next `n` elements of a SEND lie that it reads from its source: a place beyond the tensor's count reads FILL. -/
def sendSpots (w : Work) (n : Nat) : List (Int × Nat) :=
  let t : TEntry := w.imageA
  let r0 := bits w.done 63 48
  let places := (sendRows w.reg).zipIdx.flatMap fun p =>
    let k := if p.2 == r0 then min (bits w.done 47 0) p.1.cnt else 0
    if p.2 < r0 then [] else (upTo k p.1.cnt).map (p.1.first + ·)
  ((places.take n).filter fun i => decide (i < count t.shape)).map fun i => (t.addr (unravel t.shape i), Fmt.size t.fmt)

/-- A resumed SEND reads its next `n` elements again: they meet the caches (R269, R316). -/
def State.rereadSend (s : State) (w : Work) (n : Nat) : State :=
  if w.reread then s.engineReads (s.workFill w w.imageA) (linesOf (spotRanges (sendSpots w n) false)) else s

def stepSend (s : State) (w : Work) (n : Nat) : State :=
  match sendVals s w with
  | .error _ => s
  | .ok vs =>
    let r := sendPart (s.rereadSend w n) w n vs
    r.s.setWork { w with done := r.done, failed := r.failed, rowFailed := r.rowFailed, units := r.units }

/-- Finish a SEND of the focused strand: its remaining trains go out; one that named a peer then waits until every tail has
been acknowledged (R299, R321). A resumed one whose source no longer translates sends nothing more and finishes with ERR and the
full DONE (DESIGN CHOICE, log entry 121). -/
def finishSend (s : State) (w : Work) (err : Bool) (faulted : List Nat) : State :=
  if w.sent then s.endWork w w.full false (err || w.failed) faulted
  else
    match sendVals s w with
    | .error x => (s.noteFlt s.vd x).endWork w w.full false true
    | .ok vs =>
      let r := sendPart (s.rereadSend w vs.length) w vs.length vs
      if w.away s.myVdev.rank then
        r.s.sentWork { w with failed := r.failed || err, units := r.units.filter fun u => !faulted.contains u.1 }
      else r.s.endWork w w.full false (err || r.failed)

/-- The engine performs the next `n` elements of a COPY to a tensor, or of a SEND, of the focused strand (R300, R316). -/
def State.stepWork (s : State) (k n : Nat) (data : List PeerByte) : State :=
  match s.me.work.find? fun w => w.k == k with
  | none => s
  | some w =>
    if !s.me.issues || w.sent || w.toReg then s
    else
      match w.kind with
      | .copy => stepCopy s w n data
      | .send => stepSend s w n
      | _ => s

/-- The train with a number, or a new one. -/
def State.train (s : State) (vd train : Nat) : Train :=
  (s.trains.find? fun t => t.vd == vd && t.train == train).getD { vd := vd, train := train }

def State.putTrain (s : State) (t : Train) : State :=
  { s with trains := t :: s.trains.filter fun x => !(x.vd == t.vd && x.train == t.train) }

/-- An element of a Caravan arrives and is performed at its home (R299). -/
def execCaravanElement (p : CaravanElem) (s : State) : Result :=
  let vd := p.vd.toNat
  let t := s.train vd p.train
  match s.writeHome vd (agentAway p.agent) (p.bitAddr : Int) p.size p.value p.taint p.poison with
  | .error x => s.ifOpen (.next ((s.noteFlt vd x).putTrain { t with faulted := true }))
  | .ok s1 => s.ifOpen (.next (s1.putTrain { t with performed := t.performed + 1 }))

/-- The tail of a Caravan: performed after every element; a train with a faulting element is not completed (R321). -/
def execCaravanTail (p : CaravanTail) (s : State) : Result :=
  let vd := p.vd.toNat
  let t := s.train vd p.train
  let gone (u : State) : State := { u with trains := u.trains.filter fun x => !(x.vd == vd && x.train == p.train) }
  if s.firmware != .running then .next s
  else if t.faulted then .next ((gone s).send (.trainAck vd p.train true))
  else if t.performed < p.count then .next s
  else
    let who := agentAway p.agent
    match s.signalTrain vd who p.asig.toNat p.count (scopesOf p.inner (clockPut p.rel who (clockGet s.agents who))) none with
    | some u => .next ((gone u).send (.trainAck vd p.train false))
    | none => .next (((gone s).noteWalk vd p.asig.toNat).send (.trainAck vd p.train true))

/-! ### CRED and CBCAST (R322-R324) -/

/-- The limits of a group record (R322). -/
def groupOk (g : Nat) : Bool :=
  bits g 191 176 == 0 && bits g 127 120 == 0 && decide (bits g 119 112 ≤ 63) && bits g 79 79 == 0 && bits g 63 32 == 0 &&
    decide (1 ≤ bits g 95 80) && decide (bits g 95 80 ≤ 32768) && decide (bits g 111 96 < bits g 95 80)

/-- Read a group record at its home and add 1 to SEQ (R322). Under TNT a tainted one raises TAINT (R100). -/
def joinGroup (s : State) (f : Fields) (a : Nat) : R (State × Nat) := do
  let pa ← checkRecord s a
  checkVals f [s.homeLoad pa 32]
  let g := (s.homeLoad pa 32).1
  require (groupOk g) cILLEGAL a
  return ((s.homeSync (pa / 32) true).homeStore s.me.sid (pa + 24) 8 (bits g 255 192 + 1) false false, g)

/-- The contribution that a piece of collective work makes (R322-R324). -/
def Work.contribution (w : Work) (sid : Nat) : Contribution :=
  let f := fieldsOf w.entry.word
  let g := w.group.toNat
  let c := rndCode f.rnd.toNat w.entry.vcfg.toNat
  { member := bits g 111 96
    nmem := bits g 95 80
    cbcast := w.kind == .cbcast
    opCode := if w.kind == .cbcast then w.entry.gc.val.toNat else f.fn.toNat
    rnd := if c == 5 then 0 else c
    fmt := f.fmt.toNat
    level := bits g 119 112
    node := bits g 175 128
    values := w.vals.map fun v => v.1
    taints := w.vals.map fun v => v.2.1
    poisons := w.vals.map fun v => v.2.2
    sid := some sid }

/-- Join a collective: outstanding work; a combining device that is a peer gets the contribution at once. -/
def joinWork (s : State) (w : Work) : State :=
  let root := bits w.group.toNat 78 64
  let s1 := s.addWork w
  if root == s.myVdev.rank then s1
  else s1.send (.contribution s.vd root (bits w.group.toNat 31 0) w.seq { w.contribution s.me.sid with sid := none })

/-- Issue of a CRED (R317, R322, R323). The faults of the token record come before those of the group record, and these before those
of the operands, which the rules do not order (DESIGN CHOICE, log entry 123). -/
def serveCred (f : Fields) (e : Entry) (s : State) : Served :=
  let fmt := f.fmt.toNat
  let ea : TEntry := s.me.getT f.a.toNat
  let eb : TEntry := s.me.getT f.b.toNat
  let tok := tokenOf f e
  Served.ofR s (do
    useEntry ea fmt
    useEntry eb fmt
    require (ea.shape == eb.shape) cAGREE
    let fl ← regLater s e f (if tok.isSome then [e.gd, e.gc] else [e.gc])
    checkToken s tok
    let _ ← joinGroup s f e.gc.val.toNat
    let idx := (List.range (count eb.shape)).map (unravel eb.shape)
    let r ← lowerFault (readTensor s eb idx) (checkWrites s ea idx)
    checkVals f r.1
    let j ← joinGroup s f e.gc.val.toNat
    return joinWork j.1 { kind := .cred, entry := e, imageA := ea, imageB := eb, vals := r.1, owedFlags := fl
                          group := BitVec.ofNat 256 j.2, seq := bits j.2 255 192
                          ranges := ea.range true ++ eb.range false })

def execCred (f : Fields) (s : State) : Result := runArray 0x9E f s fun e t => serveCred f e t

/-- Issue of a CBCAST (R317, R322, R324): the root member reads its tA, every member writes it. Its faults come in the order of those
of CRED (log entry 123). -/
def serveCbcast (f : Fields) (e : Entry) (s : State) : Served :=
  let ea : TEntry := s.me.getT f.a.toNat
  let tok := tokenOf f e
  Served.ofR s (do
    useEntry ea f.fmt.toNat
    let fl ← regLater s e f (if tok.isSome then [e.gd, e.gb, e.gc] else [e.gb, e.gc])
    checkToken s tok
    let g ← joinGroup s f e.gb.val.toNat
    let idx := (List.range (count ea.shape)).map (unravel ea.shape)
    let isRoot := bits g.2 111 96 == e.gc.val.toNat
    let r ← lowerFault (if isRoot then readTensor s ea idx else .ok (idx.map fun _ => (0, false, false))) (checkWrites s ea idx)
    checkVals f r.1
    let j ← joinGroup s f e.gb.val.toNat
    return joinWork j.1 { kind := .cbcast, entry := e, imageA := ea, imageB := ea, vals := r.1, owedFlags := fl
                          group := BitVec.ofNat 256 j.2, seq := bits j.2 255 192, ranges := ea.range true })

def execCbcast (f : Fields) (s : State) : Result := runArray 0x9F f s fun e t => serveCbcast f e t

/-- Is this a member's work, a CRED or a CBCAST, of a collective that combines on this device? -/
def Work.joins (w : Work) (rank gid seq : Nat) : Bool :=
  (w.kind == .cred || w.kind == .cbcast) && bits w.group.toNat 31 0 == gid && w.seq == seq && bits w.group.toNat 78 64 == rank

/-- The local members of a collective, whatever instruction they issued (R322): strand and work. -/
def State.members (s : State) (vd gid seq : Nat) : List (Nat × Work) :=
  let rank := ((s.vdev? vd).map VDev.rank).getD 0
  (s.strands.filter fun st => st.vdid.toNat == vd).flatMap fun st =>
    (st.work.filter fun w => w.joins rank gid seq).map fun w => (st.sid, w)

/-- Do the members disagree (R322)? -/
def disagree (cs : List Contribution) : Bool :=
  match cs with
  | [] => false
  | a :: r =>
    (r.any fun b => a.nmem != b.nmem || a.cbcast != b.cbcast || a.opCode != b.opCode || a.fmt != b.fmt ||
      a.values.length != b.values.length) || !decide (cs.map Contribution.member).Nodup

/-- Every member has joined: as many contributions as NMEM, or a disagreement that shows before. -/
def gathered (cs : List Contribution) : Bool :=
  match cs with
  | [] => false
  | a :: _ => decide (a.nmem ≤ cs.length) || disagree cs

/-- The tree of R85 over nodes (LEVEL, NODE): the levels are raised one at a time. -/
def nodeTree {α : Type} (g : α → α → α) (nodes : List (Nat × Nat × α)) : Option α :=
  let ins (l : List (Nat × α)) (x : Nat × α) : List (Nat × α) :=
    (l.filter fun y => decide (y.1 < x.1)) ++ x :: l.filter fun y => decide (x.1 < y.1)
  let up (l : List (Nat × α)) : List (Nat × α) :=
    (l.foldl (fun (acc : List (Nat × α)) x =>
      match acc with
      | (j, y) :: r => if j == x.1 / 2 then (j, g y x.2) :: r else (x.1 / 2, x.2) :: acc
      | [] => [(x.1 / 2, x.2)]) []).reverse
  let fin := (List.range 64).foldl (fun (acc : List (Nat × α)) lv =>
    up ((nodes.filter fun n => n.1 == lv).foldl (fun l n => ins l n.2) acc)) []
  ((List.range 64).foldl (fun acc _ => up acc) fin).head?.map fun p => p.2

/-- Do two members' index ranges overlap (R323)? -/
def nodesOverlap (cs : List Contribution) : Bool :=
  let rs := cs.map fun c => (c.node <<< c.level, (c.node + 1) <<< c.level)
  rs.zipIdx.any fun p => rs.zipIdx.any fun q => decide (p.2 < q.2) && decide (p.1.1 < q.1.2) && decide (q.1.1 < p.1.2)

/-- Combine the members' element `i` (R323): value and flags. -/
def credElement (c0 : Contribution) (cs : List Contribution) (i : Nat) : Nat × Flags :=
  let op := match bits c0.opCode 5 3 with
    | 0 => 0
    | 1 => 2
    | _ => 3
  let md : Mode := { fmt := c0.fmt, rnd := { code := c0.rnd }, fsi := false, fso := false, sat := false }
  let g := combine op md
  let xs := cs.map fun c => (c.level, c.node, ({ val := c.values.getD i 0, flags := 0 } : Partial))
  let r := if bit c0.opCode 6 then seqSum g (xs.map fun x => x.2.2) else nodeTree (Partial.join g) xs
  match r with
  | some p => (p.val, p.flags)
  | none => (0, 0)

/-- The result of a collective. -/
structure Outcome where
  err : Bool
  flags : Flags
  vals : List (Nat × Bool × Bool)

/-- Write a collective's result to the member's tA and finish its work (R323, R324); with ERR nothing is written. A member that
was cancelled after its contribution had left finishes with CAN (R317, R330). -/
def deliver (s : State) (w : Work) (o : Outcome) : State :=
  let t : TEntry := w.imageA
  let can := s.me.status == .cancelled
  if o.err then s.endWork w w.full can true
  else
    let r := s.putElems w (Fmt.size t.fmt) (((List.range (count t.shape)).map fun i => t.addr (unravel t.shape i)).zip o.vals) []
    (r.1.raise o.flags).endWork w w.full can r.2

/-- Deliver to every member: strands of this device, and peers by message. -/
def deliverAll (s : State) (vd gid seq : Nat) (locals : List (Nat × Work)) (remote : List Contribution) (o : Outcome) : State :=
  let s1 := locals.foldl (fun t p => t.asStrand p.1 fun u => deliver u p.2 o) s
  remote.foldl (fun t c => t.send (.result vd gid seq c.member o.err o.flags o.vals)) s1

/-- The combination of a CRED over all members (R323). -/
def credOutcome (s : State) (cs : List Contribution) : Outcome :=
  match (freeOrder s.free cs) with
  | [] => { err := true, flags := 0, vals := [] }
  | c0 :: r =>
    let arr := bit c0.opCode 6
    if disagree cs || (!arr && nodesOverlap cs) then { err := true, flags := 0, vals := [] }
    else
      let order := if arr then c0 :: r else cs
      let xs := (List.range c0.values.length).map fun i =>
        (credElement c0 order i, arr || (cs.any fun c => c.taints.getD i false), cs.any fun c => c.poisons.getD i false)
      { err := false
        flags := xs.foldl (fun a x => a ||| x.1.2) 0 ||| flagIf arr flTNT
        vals := xs.map fun x => (x.1.1, x.2.1, x.2.2) }

/-- The root member's elements, or an error (R324). -/
def cbcastOutcome (cs : List Contribution) : Outcome :=
  match cs with
  | [] => { err := true, flags := 0, vals := [] }
  | c0 :: _ =>
    match cs.find? fun c => c.member == c0.opCode with
    | some r =>
      if disagree cs then { err := true, flags := 0, vals := [] }
      else { err := false, flags := 0
             vals := r.values.zip (r.taints.zip r.poisons) }
    | none => { err := true, flags := 0, vals := [] }

/-- The members of a collective whose disagreement showed before all had joined: the others finish with ERR as they come
(R322). -/
def State.failMembers (s : State) (g : FailedGroup) (n : Nat) : State :=
  let rest := s.failedGroups.filter fun x => x != g
  { s with failedGroups := if g.left ≤ n then rest else { g with left := g.left - n } :: rest }

/-- A collective acts where `mine` holds of a member's contribution and every member has joined, or where a disagreement
shows (R322-R324). -/
def State.collective (s : State) (vd gid seq : Nat) (remote : List Contribution) (mine : Contribution → Bool)
    (outcome : List Contribution → Outcome) : State :=
  let locals := s.members vd gid seq
  let cs := (locals.map fun p => p.2.contribution p.1) ++ remote
  let bad : Outcome := { err := true, flags := 0, vals := [] }
  match s.failedGroups.find? fun g => g.vd == vd && g.gid == gid && g.seq == seq with
  | some g => (deliverAll s vd gid seq locals remote bad).failMembers g cs.length
  | none =>
    if !(cs.any mine && gathered cs) then s
    else
      let t := deliverAll s vd gid seq locals remote (if disagree cs then bad else outcome cs)
      let left := (cs.map Contribution.nmem).foldl max 0 - cs.length
      { t with
        free := t.free + cs.length
        failedGroups := if left == 0 then t.failedGroups else { vd := vd, gid := gid, seq := seq, left := left } :: t.failedGroups }

/-- The contributions of peers that the ports have taken: none before the firmware runs (R423). -/
def State.taken (s : State) (remote : List Contribution) : List Contribution := if s.firmware == .running then remote else []

/-- The root combines all members' contributions and the result reaches every member (R323). -/
def execCredCombine (vd : BitVec 4) (gid seq : Nat) (remote : List Contribution) (s : State) : Result :=
  .next (s.collective vd.toNat gid seq (s.taken remote) (fun c => !c.cbcast) (credOutcome s))

/-- The root member's elements are written into every member's tA (R324). -/
def execCbcastDeliver (vd : BitVec 4) (gid seq : Nat) (remote : List Contribution) (s : State) : Result :=
  .next (s.collective vd.toNat gid seq (s.taken remote) Contribution.cbcast cbcastOutcome)

/-! ### The finish of engine work (R315-R317) -/

/-- Elements of `z` bits packed from bit 0 of a byte string that came from a peer. -/
def unpackPeer (z n : Nat) (data : List PeerByte) : List (Nat × Bool × Bool) :=
  (List.range n).map fun i =>
    let lo := i * z / 8
    let bs := (data.drop lo).take ((i * z + z - 1) / 8 + 1 - lo)
    assemble (i * z % 8) z (bs.map fun b => (b.1.toNat, b.2.1, b.2.2))

/-- Finish a piece of engine work of the focused strand. A cancelled COPY or SEND stops with CAN (R28, R317), and so
does a collective whose contribution has not left. -/
def finishWork (s : State) (w : Work) (how : EngineEnd) (data : List PeerByte) : State :=
  let faulted := match how with
    | .peerFault xs => some xs
    | .done _ => none
  let stopped := s.me.status == .cancelled
  let atRoot := bits w.group.toNat 78 64 == s.myVdev.rank
  match w.kind with
  | .copy =>
    if stopped then s.endWork w w.done true false (faulted.getD []) else finishCopy s w faulted.isSome (faulted.getD []) data
  | .send =>
    if stopped then s.endWork w w.done true false (faulted.getD []) else finishSend s w faulted.isSome (faulted.getD [])
  | .cred | .cbcast =>
    if atRoot then
      if stopped then s.endWork w 0 true false else s
    else
      let t : TEntry := w.imageA
      let z := Fmt.size t.fmt
      let n := count t.shape
      match how with
      | .peerFault _ => deliver s w { err := true, flags := 0, vals := [] }
      | .done fl => if data.length * 8 < n * z then s else deliver s w { err := false, flags := fl % 512, vals := unpackPeer z n data }
  | _ => s

/-- Does a finish bring what a peer has sent? The ports take nothing of that kind before the firmware runs (R423). -/
def endFromPeer (how : EngineEnd) (data : List PeerByte) : Bool :=
  match how with
  | .peerFault _ => true
  | .done _ => !data.isEmpty

/-- COPY, SEND, CRED or CBCAST finishes (R315). A COPY or SEND of a strand that is switched out stays paused (R300). -/
def execEngineFinish (sid k : Nat) (how : EngineEnd) (data : List PeerByte) (s : State) : Result :=
  .next (s.asStrand sid fun t =>
    match t.me.work.find? fun w => w.k == k with
    | some w =>
      let out : Bool := match t.me.status with
        | .parked _ => w.kind == .copy || w.kind == .send
        | _ => false
      if out || (t.firmware != .running && endFromPeer how data) then t else finishWork t w how data
    | none => t)

/-! ### Accesses of peers (R305, R318) -/

/-- Rotate 64 bits left. -/
def rotl64 (x k : Nat) : Nat :=
  let n := k % 64
  (x <<< n ||| x >>> (64 - n)) % 2 ^ 64

/-- A task's fold into the Manifest record at an address of this device, as one home action with a release at fabric scope
(R388, R391): M and NTASK grow, PHASE, TNT and PSN are written, and STATUS in record mode; TBASE and EXPECT, the host's,
stay. The state and the logical index, or the CAUSE of the fault. -/
def State.foldAt (s : State) (vd who a : Nat) (digest : Word) (m : FoldMsg) (rel : Clock) : Except Nat (State × Nat) := do
  if a % 64 != 0 then throw cALIGN
  let pa ← s.translate vd .rw a
  let i := memRead s.mem (pa + 40) 8 + m.offset
  let sum := (memRead s.mem (pa + 48) 8 + rotl64 digest.toNat i) % 2 ^ 64
  let n := (memRead s.mem (pa + 32) 4 + 1) % 2 ^ 32
  let low := (memGet s.mem pa).toNat ||| (b2n m.taint <<< 4) ||| (b2n m.poison <<< 5)
  let low1 := if m.record then setBits low 2 0 1 else low
  let rel0 : Sync := { granule := pa / 32, agent := who, place := none, rel := [[], [], [], [], rel] }
  let g0 : GWrite := { granule := pa / 32, mask := 255, data := low1, taint := false, poison := false }
  let g1 : GWrite := { granule := pa / 32 + 1, mask := (2 ^ 64 - 1) <<< 128 + (2 ^ 64 - 1)
                       data := sum <<< 128 + m.phase.toNat <<< 32 + n, taint := false, poison := false }
  let s1 : State := { s with syncs := rel0 :: { rel0 with granule := pa / 32 + 1 } :: s.syncs }
  return ((s1.writeGranule who true g0).writeGranule who true g1, i)

/-- TBASE of a Manifest record of this device; 0 where it cannot be read (R388). -/
def State.tbase (s : State) (vd a : Nat) : Nat :=
  match s.translate vd .rw a with
  | .ok pa => memRead s.mem (pa + 40) 8
  | .error _ => 0

/-- A fold from another device acts at the local home and responds with the logical index of the task (R391, R394). -/
def State.foldFromPeer (s : State) (p : PeerAction) (m : FoldMsg) : State :=
  let vd := p.vd.toNat
  let a := p.addr.toNat
  let reply (t : State) (c : Option Nat) : State :=
    t.send (.reply vd p.peer.toNat (BitVec.ofNat 64 (s.tbase vd a + m.offset)) false false 0 [] [] c)
  match s.foldAt vd (agentAway p.agent) a p.b m p.rel with
  | .error c => reply (s.noteCause vd a c) (some c)
  | .ok r => reply r.1 none

/-- A Steward's act on the Manifest record at a physical address (R392, R393): STATUS, or M = 0 and NTASK = 0. -/
def State.onRecord (s : State) (who pa : Nat) (act : ManifestAct) : State :=
  match act with
  | .compare => s
  | .status n => s.writeGranule who true { granule := pa / 32, mask := 7, data := n.toNat, taint := false, poison := false }
  | .clear =>
    s.writeGranule who true { granule := pa / 32 + 1, mask := (2 ^ 64 - 1) <<< 128 + (2 ^ 32 - 1), data := 0, taint := false, poison := false }

/-- Does M equal EXPECT in the Manifest record at a physical address (R392)? -/
def State.recordMatches (s : State) (pa : Nat) : Bool := memRead s.mem (pa + 48) 8 == memRead s.mem (pa + 56) 8

/-- The act of another device's Steward on a Manifest record here, and the response to it. -/
def State.manifestFromPeer (s : State) (p : PeerAction) (act : ManifestAct) : State :=
  let reply (t : State) (v : Nat) (c : Option Nat) : State :=
    t.send (.reply p.vd.toNat p.peer.toNat (BitVec.ofNat 64 v) false false 0 [] [] c)
  match s.translate p.vd.toNat .rw p.addr.toNat with
  | .error c => reply (s.noteCause p.vd.toNat p.addr.toNat c) 0 (some c)
  | .ok pa => reply (s.onRecord (agentAway p.agent) pa act) (b2n (s.recordMatches pa)) none

/-- A home action from another device acts at the local home and responds (R305), with its flags (R310) and with what
happens before the releases that it reads (R288). A returning one has no effect on a poisoned value where the sender has the
POISON trap, and none on a tainted value where its word has TNT: the sender takes the fault before any effect (R100, R306). -/
def execPeerHomeAction (p : PeerAction) (s : State) : Result :=
  let vd := p.vd.toNat
  let fn := p.fn.toNat
  let n := homeSize p.kind fn
  let who := agentAway p.agent
  let reply (t : State) (v : Nat) (ta po : Bool) (fl : Flags) (rel : Clock) (seen : List Sync) (c : Option Nat) : Result :=
    .next (t.send (.reply vd p.peer.toNat (BitVec.ofNat 64 v) ta po fl rel seen c))
  s.ifOpen <| match p.manifest, p.fold, s.translate vd (homeAccess p.kind) p.addr.toNat with
  | some act, _, _ => .next (s.manifestFromPeer p act)
  | none, some m, _ => .next (s.foldFromPeer p m)
  | none, none, .error c => reply (s.noteCause vd p.addr.toNat c) 0 false false 0 [] [] (some c)
  | none, none, .ok pa =>
    let x := s.homeLoad pa n
    let g := pa / 32
    if returns p.kind && (p.tnt && x.2.1 || p.trap && x.2.2) then reply s x.1 x.2.1 x.2.2 0 [] [] none
    else
      let r := homeStep p.kind fn (8 * n) x.1 p.b.toNat p.c.toNat
      let s1 := if p.fabric then s.agentSync who g p.rel p.inner else s.carrySync who g p.rel p.inner
      let s2 := match r.1 with
        | some v => s1.homeStore who pa n v (p.bTaint || p.kind == .amof) p.bPoison
        | none => s1
      if returns p.kind then reply s2 x.1 x.2.1 x.2.2 r.2 (s.fabricRel g) (s.awaySyncs g) none
      else reply s2 0 false false 0 [] [] none

/-- A COPY element read or write from another device (R318): translated here, performed at its home. Before
the firmware runs no port takes it (R423). -/
def execCopyPeerAccess (p : PeerAccess) (s : State) : Result :=
  let vd := p.vd.toNat
  let reply (t : State) (v : Nat) (ta po : Bool) (c : Option Nat) : Result :=
    .next (t.send (.reply vd p.peer.toNat (BitVec.ofNat 64 v) ta po 0 [] [] c))
  s.ifOpen <| if p.isWrite then
    match s.writeHome vd (agentAway p.agent) (p.bitAddr : Int) p.size p.value p.taint p.poison with
    | .error x => reply (s.noteFlt vd x) 0 false false (some x.cause)
    | .ok t => reply t 0 false false none
  else
    match s.readHome vd .rd (p.bitAddr : Int) p.size with
    | .error x => reply (s.noteFlt vd x) 0 false false (some x.cause)
    | .ok x => reply s x.1 x.2.1 x.2.2 none

end Sys2Proof.Machine
end

