-- ==== Sys2Proof/Machine/Ident.lean ====
section
/-! DEFINITION. The meanings of TDEF, TSET, TGET, MIRR, XCAN and TAINT (R61, R63-R65, R325-R329). -/

namespace Sys2Proof.Machine

/-! ### TDEF, TSET, TGET (R325, R326) -/

/-- TDEF: a plain read of 128 bytes at g[A]; the image is checked and written to t[D]. -/
def serveTdef (f : Fields) (e : Entry) (s : State) : Served :=
  let a := e.ga.val.toNat
  Served.ofR s (do
    let s0 ← regCheck s e f [e.ga]
    require (a % 16 == 0) cALIGN a
    require (decide (a < 2 ^ 56)) cXLATE a
    let x ← match s0.readElem s0.vd (8 * (a : Int)) 1024 with
      | .ok x => .ok x
      | .error y => .error { y with faddr := e.ga.val }
    let s1 ← consume s0 e f x.2.1 x.2.2
    let t : TEntry := BitVec.ofNat 1024 x.1
    require t.ok cILLEGAL a
    return s1.setT f.d.toNat t)

def execTdef (f : Fields) (s : State) : Result := runArray 0xA0 f s fun e t => serveTdef f e t

/-- The field that FN names: low bit, width, signed (R64, R326). -/
def tfield (fn : Nat) : Nat × Nat × Bool :=
  match fn with
  | 0x00 => (0, 56, false)
  | 0x01 => (56, 5, false)
  | 0x02 => (61, 3, false)
  | 0x03 => (96, 3, false)
  | 0x04 => (99, 4, false)
  | 0x05 => (103, 1, false)
  | 0x06 => (104, 1, false)
  | 0x07 => (105, 1, false)
  | 0x08 => (106, 1, false)
  | 0x09 => (64, 32, false)
  | 0x16 => (704, 64, false)
  | 0x17 => (768, 64, true)
  | n => if n ≤ 0x0F then (128 + 32 * (n - 0x0A), 32, false) else (320 + 64 * (n - 0x10), 64, true)

/-- Does a 64-bit value lie within its field's range (R326)? -/
def tfieldRange (fn v : Nat) : Bool :=
  match fn with
  | 0x00 | 0x16 => decide (v < 2 ^ 56)
  | 0x01 => decide (v ≤ 22)
  | 0x02 => decide (v ≤ 6)
  | 0x03 => decide (v ≤ 7)
  | 0x04 => decide (v ≤ 5)
  | 0x05 | 0x06 | 0x07 | 0x08 => decide (v ≤ 1)
  | 0x17 => true
  | n =>
    if n ≤ 0x0F then decide (v < 2 ^ 32)
    else decide (toSigned 64 v ≤ 2 ^ 47) && decide (-(2 ^ 47 : Int) ≤ toSigned 64 v)

/-- TSET: range check, write, and, with VALID set, the whole entry's check. -/
def serveTset (f : Fields) (e : Entry) (s : State) : Served :=
  let fn := f.fn.toNat
  let v := e.ga.val.toNat
  let fd := tfield fn
  Served.ofR s (do
    let s0 ← regCheck s e f [e.ga]
    require (tfieldRange fn v) cILLEGAL
    let t : TEntry := BitVec.ofNat 1024 (setBits (s.me.getT f.d.toNat).toNat (fd.1 + fd.2.1 - 1) fd.1 v)
    require (!t.valid || t.ok) cILLEGAL
    return s0.setT f.d.toNat t)

def execTset (f : Fields) (s : State) : Result := runArray 0xA1 f s fun e t => serveTset f e t

/-- TGET: the field, zero-extended, or sign-extended for the strides and SCS. -/
def serveTget (f : Fields) (e : Entry) (s : State) : Served :=
  let fd := tfield f.fn.toNat
  let x := bits (s.me.getT f.a.toNat).toNat (fd.1 + fd.2.1 - 1) fd.1
  Served.ofR s (do
    let s0 ← regCheck s e f []
    return s0.setG f.d.toNat { val := BitVec.ofNat 64 x })

def execTget (f : Fields) (s : State) : Result := runArray 0xA2 f s fun e t => serveTget f e t

/-! ### MIRR (R61, R327) -/

/-- The bank of an array register (R60). -/
def bank (n : Nat) : Nat := n % 8

/-- MIRR pairs vD with vA, or dissolves a pair (R327). R327 and R100 do not say that pairing reads vD: it checks no register for
TNT, and the copy has the taint of vD with its bits (DESIGN CHOICE, log entry 112). -/
def serveMirr (f : Fields) (e : Entry) (s : State) : Served :=
  let d := f.d.toNat
  let a := f.a.toNat
  let ps := s.me.mirrors
  let inPair (n : Nat) : Bool := ps.any fun p => p.1 == n || p.2 == n
  Served.ofR s (do
    let s0 ← regCheck s e f []
    if bit f.fn.toNat 0 then
      match ps.find? fun p => p.1 == d with
      | some p =>
        let v := { s0.me.getV d with shape := [0] }
        return { s0 with me := { s0.me with v := s0.me.v.setIfInBounds p.2 v, mirrors := ps.erase p } }
      | none => return s0
    else
      require (d != a && !inPair d && !inPair a) cILLEGAL
      require (bank d != bank a && decide (ps.length < 4)) cCAPACITY
      return { s0 with me := { s0.me with
        v := s0.me.v.setIfInBounds a (s0.me.getV d), mirrors := ps ++ [(d, a)] } })

def execMirr (f : Fields) (s : State) : Result := runArray 0xA3 f s fun e t => serveMirr f e t

/-! ### XCAN (R28, R328) -/

/-- The strand stops as a member of a cancelled level: younger entries are discarded, a sleep ends (R28). -/
def Strand.stopped (st : Strand) : Strand :=
  { st with status := .cancelled, queue := [], image := [], sleep := none, blocked := none, pend := none }

/-- The level that FN names; none for the strand itself. -/
def xcanLevel (fn : Nat) : Option Level :=
  match fn with
  | 0x01 => some .launch
  | 0x02 => some .graph
  | 0x03 => some .phase
  | 0x04 => some .job
  | _ => none

def serveXcan (f : Fields) (e : Entry) (s : State) : Served :=
  Served.ofR s (do
    let s0 ← regCheck s e f []
    let s1 := match xcanLevel f.fn.toNat with
      | none => s0
      | some lv => s0.requestCancel (cancelOf s.myLaunch lv s.me.place.die)
    return { s1 with me := s1.me.stopped })

def execXcan (f : Fields) (s : State) : Result := runArray 0xA4 f s fun e t => serveXcan f e t

/-! ### TAINT (R329) -/

/-- The taint bit of slot A by class: 0 g, as captured (R14, R18), 1 v, 2 m, 3 z. -/
def Strand.taintBit (st : Strand) (captured : GReg) (cls n : Nat) : Bool :=
  match cls with
  | 0 => captured.taint
  | 1 => (st.getV n).taint
  | 2 => (st.getM n).taint
  | _ => (st.getZ n).taint

def Strand.clearTaint (st : Strand) (cls n : Nat) : Strand :=
  match cls with
  | 0 => if n = 0 then st else { st with g := st.g.setIfInBounds n { st.getG n with taint := false } }
  | 1 => { st with v := st.v.setIfInBounds n { st.getV n with taint := false } }
  | 2 => if n = 0 then st else { st with m := st.m.setIfInBounds n { st.getM n with taint := false } }
  | _ => { st with z := st.z.setIfInBounds n { st.getZ n with taint := false } }

/-- TAINT tests or clears a taint bit. That of a tile waits for the operations that still write it (R16, R344). -/
def serveTaint (f : Fields) (e : Entry) (s : State) : Served :=
  let cls := bits f.fn.toNat 2 1
  let n := f.a.toNat
  if cls == 3 && s.owesTile n then .wait s
  else if bit f.fn.toNat 0 then .done { s with me := s.me.clearTaint cls n }
  else .done (s.setQ f.d.toNat { val := s.me.taintBit e.ga cls n })

def execTaint (f : Fields) (s : State) : Result := runArray 0xA5 f s fun e t => serveTaint f e t

end Sys2Proof.Machine
end

