-- ==== Sys2Proof/Machine/Levels.lean ====
section
/-! DEFINITION. The work hierarchy: completion counters, notices, the Manifest, and how launches, graphs, phases and jobs
end (R25-R30, R353, R365, R388-R394, R410, R418-R421). -/

namespace Sys2Proof.Machine

/-! ### Fields of the launch record (R133) -/

def Launch.mfst (l : Launch) : Nat := fld l.record 435 434
def Launch.pre (l : Launch) : Bool := bit l.record.toNat 432
def Launch.pcap (l : Launch) : Nat := fld l.record 431 429
def Launch.prio (l : Launch) : Nat := fld l.record 428 426
def Launch.fuse (l : Launch) : Bool := bit l.record.toNat 422
def Launch.res (l : Launch) : Nat := fld l.record 412 411
def Launch.nstr (l : Launch) : Nat := fld l.record 410 400
def Launch.madr (l : Launch) : Nat := fld l.record 383 320
def Launch.kdsc (l : Launch) : Nat := fld l.record 127 64

/-- REFUSED, DONE and CANCELLED are final (R353). -/
def LaunchState.final (x : LaunchState) : Bool := x == .refused || x == .done || x == .cancelled

/-- Change every strand that meets `p`. -/
def State.mapStrands (s : State) (p : Strand → Bool) (g : Strand → Strand) : State :=
  { s with me := if p s.me then g s.me else s.me, rest := s.rest.map fun x => if p x then g x else x }

/-- Is it a strand of the launch that has not finished? -/
def Strand.liveOf (st : Strand) (lid : Nat) : Bool :=
  st.launch.toNat == lid && st.status != .idle && st.status != .finished

/-- Is the strand resident on its core? -/
def Strand.resident (st : Strand) : Bool :=
  match st.status with
  | .running | .halted | .cancelled => st.left.isNone
  | _ => false

/-- Strands resident on a core of a die. -/
def residentsOf (sts : List Strand) (die core : Nat) : List Strand :=
  sts.filter fun st => st.resident && st.place.die == die && st.place.core == core

/-- Strands resident on a cluster. -/
def clusterResidents (sts : List Strand) (die cluster : Nat) : List Strand :=
  sts.filter fun st => st.resident && st.place.die == die && st.place.core / 4 == cluster

/-- Fused L1s are formed where the first strand of a FUSE launch becomes resident on a cluster, and dissolved when its
last strand leaves: either way every L1 of the cluster writes back its written bits and drops its lines (R267). -/
def State.fuseCaches (s : State) : State :=
  let now := (((s.strands.filter Strand.resident).filter fun st =>
    ((s.launch? st.launch.toNat).map Launch.fuse).getD false).map fun st => (st.place.die, st.place.core / 4)).dedup
  let changed (p : Nat × Nat) : Bool := now.contains p != s.fused.contains p
  let gone := s.lines.filter fun c => !c.level2 && changed (c.die, c.unit / 4)
  let coming := s.fills.filter fun p => !p.level2 && changed (p.die, p.unit / 4)
  let late (p : Fill) : CacheLine := { die := p.die, unit := p.unit, line := p.line, vd := p.vd, written := p.written }
  { s with
    fused := now
    fills := s.fills.filter fun p => p.level2 || !changed (p.die, p.unit / 4)
    lines := (gone ++ coming.map late).foldl writeBack (s.lines.filter fun c => c.level2 || !changed (c.die, c.unit / 4)) }

/-! ### Counters (R25) -/

def Counter.isOf (c : Counter) (level : Level) (vd key key2 : Nat) : Bool :=
  c.level == level && c.vd == vd && c.key == key && c.key2 == key2

def State.counter? (s : State) (level : Level) (vd key key2 : Nat) : Option Counter :=
  s.counters.find? fun c => c.isOf level vd key key2

def State.putCounter (s : State) (c : Counter) : State :=
  { s with counters := s.counters.map fun x => if x.isOf c.level c.vd c.key c.key2 then c else x }

def State.dropCounter (s : State) (level : Level) (vd key key2 : Nat) : State :=
  { s with counters := s.counters.filter fun x => !x.isOf level vd key key2 }

/-- The counters of a launch's graph, phase and job; a graph that has completed is not the launch's. -/
def State.graphOf? (s : State) (l : Launch) : Option Counter :=
  (s.counter? .graph l.vd l.graph.1 l.graph.2).filter fun c => !c.completed
def State.phaseOf? (s : State) (l : Launch) : Option Counter := s.counter? .phase l.vd l.phase l.job
def State.jobOf? (s : State) (l : Launch) : Option Counter := s.counter? .job l.vd l.job 0

/-- Has the launch's graph, phase or job been cancelled (R28)? -/
def State.levelCancelled (s : State) (l : Launch) : Bool :=
  [s.graphOf? l, s.phaseOf? l, s.jobOf? l].any fun c => (c.map Counter.cancelled).getD false

/-- A job that completed is forgotten with its phases; its identifier may be used again. -/
def State.forgetJob (s : State) (vd job : Nat) : State :=
  { s with
    counters := s.counters.filter fun c => !(c.vd == vd && ((c.level == .job && c.key == job) || (c.level == .phase && c.key2 == job)))
    committed := s.committed.filter fun c => !(c.vd == vd && c.job == job)
    serials := s.serials.filter fun c => !(c.vd == vd && c.job == job)
    holds := s.holds.filter fun h => !(h.vd == vd && h.job == job) }

/-! ### Notices (R419-R421) -/

/-- Queue `queue` of a die. -/
def VDev.queue (d : VDev) (die queue : Nat) : Queue := d.queues.getD (16 * die + queue) {}
def VDev.setQueue (d : VDev) (die queue : Nat) (q : Queue) : VDev := { d with queues := d.queues.set (16 * die + queue) q }

def Queue.lring (q : Queue) : Nat := fld q.desc 511 448
def Queue.nring (q : Queue) : Nat := fld q.desc 447 384
def Queue.coal (q : Queue) : Nat := fld q.desc 287 272
def Queue.llog (q : Queue) : Nat := fld q.desc 271 268
def Queue.nlog (q : Queue) : Nat := fld q.desc 267 264
def Queue.immed (q : Queue) : Bool := bit q.desc.toNat 257
def Queue.en (q : Queue) : Bool := bit q.desc.toNat 256

/-- Send the NOTICE of a queue (R421). -/
def State.announce (s : State) (vd die queue : Nat) : State :=
  match s.vdev? vd with
  | none => s
  | some d =>
    let q := d.queue die queue
    (s.setVdev (d.setQueue die queue { q with unannounced := 0 })).sendNotice d die queue q.ntail.toNat

/-- A notice entry (R420). -/
def noticeEntry (tag lid fcause cyc status : Nat) : Nat :=
  (tag % 2 ^ 64) <<< 192 + (lid % 2 ^ 32) <<< 160 + (fcause % 2 ^ 32) <<< 128 + (cyc % 2 ^ 64) <<< 64 + status % 256

/-- Write the next notice entry of a queue, and NTAIL after it; send the message where R421 asks for it at once. The entry
of an accepted launch was `reserved` for it (R419). -/
def State.writeNotice (s : State) (reserved : Bool) (vd die queue tag lid fcause status : Nat) : State :=
  match s.vdev? vd with
  | none => s
  | some d =>
    let q := d.queue die queue
    if q.addr == 0 then s
    else
      let size := 2 ^ q.nlog
      let q1 : Queue := { q with
        ntail := q.ntail + 1, reserved := q.reserved - b2n reserved, unannounced := q.unannounced + 1
        firstCyc := if q.unannounced == 0 then s.cycleOf die else q.firstCyc }
      let r : R State := do
        let s1 ← s.writeHome vd agentSteward (8 * ((q.nring + 32 * (q.ntail.toNat % size) : Nat) : Int)) 256
          (noticeEntry tag lid fcause (s.cycleOf die) status) false false
        s1.writeHome vd agentSteward (8 * ((q.addr.toNat + 40 : Nat) : Int)) 32 q1.ntail.toNat false false
      match r with
      | .error x => (s.noteFlt vd x).ifaceError vd
      | .ok s1 =>
        let s2 := s1.setVdev (d.setQueue die queue q1)
        if q.immed || q.coal == 0 || decide (size ≤ 2 * q1.unannounced) then s2.announce vd die queue else s2

/-! ### The Manifest (R388-R393) -/

/-- A fault record that no strand raised goes to the Steward scheduler (R391, R392). -/
def State.deviceFault (s : State) (l : Launch) (cause faddr : Nat) : State :=
  (s.noteKnum l.vd l.record).queueRecord l.vd l.die (faultRecord (s.cyc[l.die]?.getD 0) 0 0 (BitVec.ofNat 64 faddr) (s.knumOf l.vd l.record)
    (BitVec.ofNat 32 l.lid) (fcauseOf cause 0) 0 l.vd l.die false)

/-- What a task adds to TBASE of its record for its logical index (R391). -/
def Launch.indexOffset (l : Launch) : Nat :=
  match l.drover with
  | some (_, e, _, _, _, tok) => e * 2 ^ 32 + tok
  | none => 0

/-- The fold of a task (R391). -/
def Launch.foldMsg (l : Launch) : FoldMsg :=
  { offset := l.indexOffset, phase := BitVec.ofNat 32 l.phase, taint := l.foldTaint, poison := l.foldPoison
    record := l.mfst == 1 }

/-- Where a Manifest record lies: an address of this device, or a peer and an address there; MADR may be a fabric address,
since folds come from different devices (R305, R394; DEDUCED, log entry 93). -/
def State.recordAt (s : State) (vd a : Nat) : Option (Nat ⊕ (Nat × Nat)) :=
  let d := (s.vdev? vd).getD {}
  if !bit a 63 then some (.inl a)
  else if !d.hasPeer (bits a 62 48) then none
  else if bits a 62 48 == d.rank then some (.inl (bits a 47 0))
  else some (.inr (bits a 62 48, bits a 47 0))

/-- The logical index of a task (R391): TBASE of its record, and its place; a peer has answered that of a record there. -/
def State.taskIndex (s : State) (l : Launch) : Nat :=
  match l.farFold, s.recordAt l.vd l.madr with
  | .answered _ i, _ => i
  | _, some (.inl a) => s.tbase l.vd a + l.indexOffset
  | _, _ => l.indexOffset

/-- The task's fold into its Manifest record (R391): the state after it, or the CAUSE of the fault. One into a peer's record has
been answered. -/
def State.foldManifest (s : State) (l : Launch) : Except Nat State :=
  match s.recordAt l.vd l.madr, l.farFold with
  | none, _ => .error cXLATE
  | some (.inl a), _ => (s.foldAt l.vd agentSteward a l.fold l.foldMsg l.endClock).map Prod.fst
  | some (.inr _), .answered (some c) _ => .error c
  | some (.inr _), _ => .ok s

/-- The fold of a task faults: the Steward hears of a poisoned page-table entry (R261), and takes the fault record (R391). -/
def State.foldFault (s : State) (l : Launch) (c : Nat) : State := (s.noteCause l.vd l.madr c).deviceFault l c l.madr

/-- The Steward acts on a Manifest record for the checks of a job (R392, R393): here, where its page is there, or by a message to
the peer that holds it. -/
def State.manifestAct (s : State) (vd job a : Nat) (act : ManifestAct) : State :=
  match s.recordAt vd a with
  | none => s
  | some (.inl b) =>
    match s.translate vd .rw b with
    | .ok pa => s.onRecord agentSteward pa act
    | .error c => s.noteCause vd b c
  | some (.inr q) => s.send (.manifest vd job q.1 (BitVec.ofNat 64 q.2) act)

/-- Does the record lie on a peer? -/
def State.recordFar (s : State) (vd a : Nat) : Bool :=
  match s.recordAt vd a with
  | some (.inr _) => true
  | _ => false

/-- Does M equal EXPECT in a record of this device (R392)? One that cannot be read does not match. -/
def State.manifestMatches (s : State) (vd a : Nat) : Bool :=
  match s.recordAt vd a with
  | some (.inl b) =>
    match s.translate vd .rw b with
    | .ok pa => s.recordMatches pa
    | .error _ => false
  | _ => false

/-- The records of a phase that its tasks named with a mode that meets `p`, each once. -/
def State.phaseRecords (s : State) (vd job phase : Nat) (p : Committed → Bool) : List Nat :=
  ((s.committed.filter fun c => c.vd == vd && c.job == job && c.phase == phase && c.named && p c).map
    fun c => c.madr.toNat).dedup

/-- The tasks of a phase in ascending logical index (R393). -/
def State.phaseTasks (s : State) (vd job phase : Nat) : List Nat :=
  let cs := s.committed.filter fun c => c.vd == vd && c.job == job && c.phase == phase
  let ins (l : List Committed) (c : Committed) : List Committed :=
    (l.takeWhile fun x => decide (x.index ≤ c.index)) ++ c :: l.dropWhile fun x => decide (x.index ≤ c.index)
  (cs.foldl ins []).map Committed.lid

/-! ### How work ends (R25-R30) -/

/-- What is still to be done about a launch: cancel it with a notice status and FCAUSE, or end it. -/
inductive Ending where
  | cancel (lid status : Nat) (fcause : BitVec 32)
  | finish (lid : Nat)
  deriving DecidableEq, Repr

/-- Cancel every launch of the virtual device that meets `p` and is not final; the faulting launch with FAULT (R372). -/
def State.cancelAll (s : State) (vd : Nat) (p : Launch → Bool) (fault : Option (BitVec 32 × Nat)) : List Ending :=
  (s.launches.filter fun l => l.vd == vd && p l && !l.state.final).map fun l =>
    match fault with
    | some (fc, lid) => if lid == l.lid then .cancel l.lid 2 fc else .cancel l.lid 1 0
    | none => .cancel l.lid 1 0

/-- No strand stops any more for a launch that wanted its slot. -/
def State.dropRequests (s : State) (lid : Nat) : State :=
  s.mapStrands (fun st => st.preempt == some lid) fun st => { st with preempt := none }

/-- Cancel a launch (R28, R365): its strands stop; one that has none ends. One whose strands have all finished, and whose
fold is with a peer, completes normally (R29). -/
def cancelLaunch (s : State) (l : Launch) (status : Nat) (fc : BitVec 32) : State × List Ending :=
  if l.state.final || l.farFold != .none then (s, [])
  else
    match l.spliceWith, l.spliceKernel with
    | some p, none => (s, [.cancel p 1 0])
    | _, _ =>
      let s1 := (s.dropRequests l.lid).mapStrands (fun st => st.liveOf l.lid) Strand.stopped
      let s2 := s1.setLaunch (if l.status == 0 then { l with status := status, fcause := fc } else l)
      (s2, if l.strands.isEmpty then [.finish l.lid] else [])

/-- Slots that a launch names as its successors: absolute indices (R418). -/
def Launch.successors (l : Launch) : List Nat :=
  ((List.range 4).map fun k => bits l.header.toNat (271 + 16 * k) (256 + 16 * k)).filterMap fun x =>
    if x == 0xFFFF then none else some ((l.slot + (x + 2 ^ 16 - l.slot % 2 ^ 16) % 2 ^ 16) % 2 ^ 32)

/-- Does `l` stand before `m` in its graph: a launch of the same queue and kick that names its slot? -/
def Launch.precedes (l m : Launch) : Bool :=
  l.vd == m.vd && l.die == m.die && l.queue == m.queue && l.kick == m.kick && decide (m.queue < 16) &&
    decide (l.lid < m.lid) && l.successors.contains m.slot

/-- A predecessor has completed: the dependence counter falls, and at 0 the launch is ELIGIBLE (R25, R26, R353). -/
def Launch.release (l : Launch) (c : Clock) (now : Nat) : Launch :=
  let l1 := { l with dep := l.dep - 1, clock := clockJoin l.clock c }
  if l1.state == .waiting && l1.dep == 0 then { l1 with state := .eligible, since := now, aged := 0 } else l1

/-- The phase ends with a STATUS: with a cancelled task the job is cancelled (R30), with FAULT where its Manifest does not
match (R393); otherwise the job's counter falls, and at 0 the job completes (R25). -/
def phaseEnd (s : State) (vd job phase status : Nat) : State × List Ending :=
  match s.counter? .phase vd phase job, s.counter? .job vd job 0 with
  | some p, some j =>
    let s1 := s.putCounter { p with completed := true, status := max p.status status, ended := s.cyc.toList.map BitVec.toNat }
    if status != 0 then
      (s1.putCounter { j with cancelled := true, status := max j.status status }, s1.cancelAll vd (fun l => l.job == job) none)
    else if j.left ≤ 1 then (s1.forgetJob vd job, [])
    else (s1.putCounter { j with left := j.left - 1 }, [])
  | _, _ => (s, [])

/-- The records of a phase that are checked (R392). -/
def State.checkedRecords (s : State) (vd job phase : Nat) : List Nat := s.phaseRecords vd job phase Committed.check

/-- Every checked record is compared: those of this device at once, those of peers by their answers (R392). -/
def State.askRecords (s : State) (vd job phase : Nat) : State :=
  (s.checkedRecords vd job phase).foldl (fun t a => t.manifestAct vd job a .compare) s

/-- STATUS of records (R392, R393). -/
def State.setStatus (s : State) (x : Serial) (as : List Word) (n : BitVec 3) : State :=
  as.foldl (fun t a => t.manifestAct x.vd x.job a.toNat (.status n)) s

/-- The fault record of a record that does not match (R392). -/
def State.mismatch (s : State) (x : Serial) (a : Word) : State :=
  match s.committed.find? fun c => c.vd == x.vd && c.job == x.job && c.phase == x.phase && c.named && c.madr == a with
  | some c =>
    match s.launch? c.lid with
    | some l => s.deviceFault l cMANIFEST a.toNat
    | none => s
  | none => s

/-- The comparisons of R392 are over: equal records take STATUS 2. With an unequal one the Steward takes fault records, sets M and
NTASK to 0 in every record of the phase, and re-executes it (R393). -/
def firstOver (s : State) (x : Serial) : State × List Ending :=
  let s1 := s.setStatus x x.matched 2
  if x.records.isEmpty then phaseEnd s1 x.vd x.job x.phase 0
  else
    let s2 := x.records.foldl (fun t a => t.mismatch x a) s1
    let all := s2.phaseRecords x.vd x.job x.phase fun _ => true
    let s3 := all.foldl (fun t a => t.manifestAct x.vd x.job a .clear) s2
    ({ s3 with serials := s3.serials ++ [{ x with
        stage := .rerun, tasks := s3.phaseTasks x.vd x.job x.phase, waiting := (all.filter (s.recordFar x.vd)).map (BitVec.ofNat 64) }] },
     [])

/-- The comparisons after a re-execution are over: the records that had not matched take STATUS 3 or 4, and the phase completes or the
job is cancelled (R393). -/
def lastOver (s : State) (x : Serial) : State × List Ending :=
  phaseEnd (s.setStatus x x.records (if x.failed then 4 else 3)) x.vd x.job x.phase (if x.failed then 2 else 0)

/-- A check goes on without the records of peers that have answered: it waits for others, or is over. It is not in the list. -/
def checkOn (s : State) (x : Serial) : State × List Ending :=
  match x.waiting, x.stage with
  | [], .first => firstOver s x
  | [], .last => lastOver s x
  | _, _ => ({ s with serials := s.serials ++ [x] }, [])

/-- The last task of a phase has ended: the checks of R392, and a serial re-execution where one fails (R393). A
cancelled phase is not checked (R394). -/
def phaseChecks (s : State) (vd job phase status : Nat) : State × List Ending :=
  if status != 0 then phaseEnd s vd job phase status
  else
    let recs := s.checkedRecords vd job phase
    let near := recs.filter fun a => !s.recordFar vd a
    checkOn (s.askRecords vd job phase) {
      vd := vd, job := job, phase := phase, stage := .first
      waiting := (recs.filter (s.recordFar vd)).map (BitVec.ofNat 64)
      records := (near.filter fun a => !s.manifestMatches vd a).map (BitVec.ofNat 64)
      matched := (near.filter (s.manifestMatches vd)).map (BitVec.ofNat 64) }

/-- A task's end counts at its graph and its phase (R25); a cancelled one gives them its STATUS (R30). A graph that the
host named stays, with its STATUS, until its identifier is used again. -/
def countEnd (s : State) (l : Launch) (cancelled : Bool) : State × List Ending :=
  let s1 := match s.graphOf? l with
    | some g =>
      let g1 : Counter := { g with left := g.left - 1, status := max g.status (b2n cancelled), completed := decide (g.left ≤ 1) }
      if g1.completed && g.key2 == 1 then s.dropCounter .graph l.vd l.graph.1 l.graph.2 else s.putCounter g1
    | none => s
  match s1.phaseOf? l with
  | some p =>
    if p.left == 0 then (s1, [])
    else
      let p1 : Counter := { p with left := p.left - 1, status := max p.status (b2n cancelled), clock := clockJoin p.clock l.endClock }
      let s2 := s1.putCounter p1
      if p1.left == 0 then
        phaseChecks s2 l.vd l.job l.phase (max p1.status (b2n (((s2.jobOf? l).map Counter.cancelled).getD false)))
      else (s2, [])
  | none => (s1, [])

/-- A Drover task's end counts at its batch (R410). -/
def State.countBatch (s : State) (l : Launch) (ok : Bool) : State :=
  match l.drover with
  | some (k, _) =>
    { s with batches := s.batches.map fun b =>
        if b.k == k then { b with left := b.left - 1, failed := b.failed || !ok, clock := clockJoin b.clock l.endClock }
        else b }
  | none => s

/-- What a launch held is free again (R333, R367). -/
def State.releaseHoldings (s : State) (lid : Nat) : State :=
  { s with
    reservations := s.reservations.filter fun r => r.lid != lid
    splices := s.splices.filter fun k => k.lid != lid
    barriers := s.barriers.filter fun b => b.lid != lid }

/-- The policy's action for a fault that no strand raised: a graph or a job may be cancelled (R372). -/
def State.deviceFaultAction (s : State) (l : Launch) (cause : Nat) : State :=
  match policyOf (s.vdev? l.vd) cause with
  | 2 => s.requestCancel (cancelOf l .graph l.die)
  | 3 => s.requestCancel (cancelOf l .job l.die)
  | _ => s

/-- A task of the phase, with what its record says of it (R391-R393). -/
def Launch.committed (l : Launch) (index : Nat) : Committed :=
  { vd := l.vd, job := l.job, phase := l.phase, lid := l.lid, index := index, named := l.mfst != 0
    madr := BitVec.ofNat 64 l.madr, check := l.mfst == 2 }

/-- A completed task commits: it folds into its Manifest record (R26, R391). A task whose fold faults ends with FAULT; it
is one of the phase's tasks all the same (R392, R393). -/
def commitTask (s : State) (l : Launch) : State × Launch :=
  let note (t : State) (i : Nat) : State := { t with committed := l.committed i :: t.committed }
  if l.mfst == 0 then (note s 0, l)
  else
    match s.foldManifest l with
    | .error c => (((note s (s.taskIndex l)).foldFault l c).deviceFaultAction l c, { l with status := 2, fcause := fcauseOf c 0 })
    | .ok t => (note t (s.taskIndex l), l)

/-- The end of a task that ran again (R393): it folds again, unless it was cancelled, and counts nowhere; a fold that faults
is reported (R391). The start of a task of the next phase, and of a successor that runs again, synchronises with this
completion too (R291). -/
def endSerial (s : State) (l : Launch) : State :=
  let s1 := if l.mfst == 0 || l.status != 0 then s
    else
      match s.foldManifest l with
      | .ok t => t
      | .error c => s.foldFault l c
  let s3 := match s1.phaseOf? l with
    | some p => s1.putCounter { p with clock := clockJoin p.clock l.endClock }
    | none => s1
  let s4 : State := { s3 with launches := s3.launches.map fun m =>
    if l.status == 0 && l.precedes m then { m with clock := clockJoin m.clock l.endClock } else m }
  let s2 := ((s4.dropRequests l.lid).releaseHoldings l.lid).setLaunch
    { l with state := if l.status == 0 then .done else .cancelled, serial := false, held := [] }
  { s2 with serials := s2.serials.map fun x => if x.running == some l.lid then { x with running := none } else x }

/-- A task whose Manifest record lies on a peer asks it to fold, and commits when the answer has come (R26, R391). -/
def State.askFold? (s : State) (l : Launch) : Option State :=
  match l.farFold, s.recordAt l.vd l.madr with
  | .none, some (.inr q) =>
    if l.mfst == 0 || l.status != 0 then none
    else some ((s.send (.fold l.vd l.lid q.1 (BitVec.ofNat 64 q.2) l.fold l.foldMsg l.endClock)).setLaunch
      { l with farFold := .sent })
  | .sent, _ => some s
  | _, _ => none

/-- A launch ends: DONE, or CANCELLED with its status (R26, R28, R30, R365). -/
def closeLaunch (s : State) (l : Launch) : State × List Ending :=
  if l.serial then (endSerial s l, [])
  else
    let cancelled := l.status != 0
    let p := if cancelled then (s, l) else commitTask s l
    let l1 : Launch := { p.2 with state := if cancelled then .cancelled else .done, notified := true, held := [] }
    let s1 := ((p.1.dropRequests l.lid).releaseHoldings l.lid).setLaunch l1
    let s2 := if l.queue < 16 && !l.notified then
        s1.writeNotice true l.vd l.die l.queue (fld l.header 511 448) l.lid (if l1.status == 2 then l1.fcause.toNat else 0) l1.status
      else s1
    let next := s2.launches.filter fun m => l.precedes m && !m.state.final
    let s3 := if cancelled then s2
      else { s2 with launches := s2.launches.map fun m =>
               if l.precedes m && !m.state.final then m.release l.endClock (s2.cycleOf m.die) else m }
    let s4 := s3.countBatch l (l1.status == 0)
    let q := countEnd s4 l cancelled
    let deps : List Ending := if cancelled then next.map fun m => .cancel m.lid 1 0 else []
    match l.spliceWith, l.spliceKernel with
    | some c, some _ =>
      let s5 := { q.1 with launches := q.1.launches.map fun m =>
                    if m.lid == c then { m with status := if cancelled then 1 else 0, endClock := l.endClock } else m }
      (s5, .finish c :: (deps ++ q.2))
    | _, _ => (q.1, deps ++ q.2)

/-- A launch whose last strand has finished ends, once its fold has reached its record (R26). -/
def endLaunch (s : State) (l : Launch) : State × List Ending :=
  if l.state.final then (s, [])
  else
    match s.askFold? l with
    | some t => (t, [])
    | none => closeLaunch s l

/-- One ending. -/
def endStep (s : State) (x : Ending) : State × List Ending :=
  match x with
  | .cancel lid status fc =>
    match s.launch? lid with
    | some l => cancelLaunch s l status fc
    | none => (s, [])
  | .finish lid =>
    match s.launch? lid with
    | some l => endLaunch s l
    | none => (s, [])

/-- All that follows from endings. Each launch ends once, so the number of endings is bounded. -/
def settle : Nat → List Ending → State → State
  | 0, _, s => s
  | _ + 1, [], s => s
  | n + 1, x :: r, s =>
    let p := endStep s x
    settle n (p.2 ++ r) p.1

def State.settleAll (s : State) (xs : List Ending) : State :=
  settle (xs.length + (s.launches.length + 8) ^ 2) xs s

/-- A peer has answered a fold: the launch that waited for it ends (R391). -/
def State.foldAnswered (s : State) (lid : Nat) (fault : Option Nat) (index : Nat) : State :=
  match s.launch? lid with
  | some l =>
    if l.farFold == .sent then (s.setLaunch { l with farFold := .answered fault index }).settleAll [.finish lid] else s
  | none => s

/-- Is this the check of a job of a virtual device? -/
def Serial.isOf (x : Serial) (vd job : Nat) : Bool := x.vd == vd && x.job == job

/-- What a check learns of a peer's record (R392, R393). -/
def Serial.heard (x : Serial) (a : Word) (equal : Bool) : Serial :=
  let y := { x with waiting := x.waiting.erase a }
  match x.stage with
  | .first => if equal then { y with matched := y.matched ++ [a] } else { y with records := y.records ++ [a] }
  | .rerun => y
  | .last => { y with failed := y.failed || !equal }

/-- A peer has answered what the Steward asked of a Manifest record there (R392, R393). -/
def State.manifestAnswered (s : State) (vd job : Nat) (a : Word) (equal : Bool) : State :=
  match s.serials.find? fun x => x.isOf vd job && x.waiting.contains a with
  | some x =>
    let p := checkOn { s with serials := s.serials.filter fun y => !y.isOf vd job } (x.heard a equal)
    p.1.settleAll p.2
  | none => s

/-! ### STRAND_FINISH, CANCEL_RESOLVE, SERIAL_REEXECUTION -/

/-- Does a cancel on its way name a level that contains the launch (R28)? -/
def Cancel.covers (c : Cancel) (l : Launch) : Bool :=
  let d := cancelOf l c.level c.die
  c.vd == d.vd && c.key == d.key && c.key2 == d.key2

/-- Is a cancel on its way that will stop the launch? -/
def State.cancelComing (s : State) (lid : Nat) : Bool :=
  match s.launch? lid with
  | some l => s.cancels.any fun c => c.covers l
  | none => false

/-- May the strand finish (R26)? Matrix work of a cancelled strand is discarded with it (R28, R351). -/
def Strand.mayFinish (st : Strand) : Bool :=
  match st.status with
  | .halted => st.queue.isEmpty && st.work.isEmpty && st.pend.isNone
  | .cancelled => st.work.all fun w => w.kind == .mms || w.kind == .check || w.kind == .pload
  | _ => false

/-- What a finishing strand leaves with its launch, and with the consumer of a spliced pair (R390, R391). -/
def Launch.collect (l : Launch) (st : Strand) (c : Clock) (lid : Nat) (consumer : Option Nat) : Launch :=
  if l.lid == lid then
    { l with leftCount := l.leftCount - 1, endClock := clockJoin l.endClock c, fold := l.fold ^^^ st.fold
             foldTaint := l.foldTaint || st.foldTaint, foldPoison := l.foldPoison || st.foldPoison }
  else if consumer == some l.lid then
    { l with fold := l.fold ^^^ st.fold2, foldTaint := l.foldTaint || st.fold2Taint
             foldPoison := l.foldPoison || st.fold2Poison }
  else l

/-- A strand that has halted or been cancelled finishes (R26): its writes and folds join the launch's, and the last one
ends the launch. One that a cancel of its level has stopped waits until the level's home has resolved it (R29). A slot that
a pre-emptor wanted is kept for it (R380). Of a PLOAD still in progress the rules do not say what its slot then holds: it
keeps the header and planes that it had, with the columns written so far (DESIGN CHOICE, log entry 102). -/
def execStrandFinish (sid : Nat) (s : State) : Result :=
  match s.strands.find? fun st => st.sid == sid with
  | none => .next s
  | some st =>
    if !st.mayFinish || (st.status == .cancelled && s.cancelComing st.launch.toNat) then .next s
    else
      let lid := st.launch.toNat
      let s1 := s.mapStrands (fun x => x.sid == sid) fun x =>
        { x with status := .finished, work := [], queue := [], preempt := none }
      let c := st.ownClock st.sseq
      let consumer := ((s.launch? lid).bind fun l => l.spliceWith)
      let s2 : State := { s1 with launches := s1.launches.map fun l => (l.collect st c lid consumer).keepSlot st }
      match s2.launch? lid with
      | some l => .next (if l.leftCount == 0 then s2.settleAll [.finish lid] else s2).fuseCaches
      | none => .next s2.fuseCaches

/-- A cancel is resolved at the home of its level's counter: where the level has completed or has been cancelled, it
has no effect (R29). -/
def execCancelResolve (k : Nat) (s : State) : Result :=
  match s.cancels.find? fun c => c.k == k with
  | none => .next s
  | some c =>
    let s1 := { s with cancels := s.cancels.filter fun x => x.k != k }
    let go (key2 : Nat) (p : Launch → Bool) : Result :=
      match s1.counter? c.level c.vd c.key key2 with
      | some n =>
        if n.cancelled || n.completed || n.left == 0 then .next s1
        else
          let s2 := s1.putCounter { n with cancelled := true, status := if c.fault.isSome then 2 else 1 }
          let s3 := if c.level == .job then
              { s2 with serials := s2.serials.filter fun x => !(x.vd == c.vd && x.job == c.key) } else s2
          .next (s3.settleAll (s3.cancelAll c.vd p c.fault))
      | none => .next s1
    match c.level with
    | .launch => .next (s1.settleAll (s1.cancelAll c.vd (fun l => l.lid == c.key) c.fault))
    | .graph => go c.key2 fun l => l.graph == (c.key, c.key2)
    | .phase => go c.key2 fun l => l.phase == c.key && l.job == c.key2
    | .job => go 0 fun l => l.job == c.key

/-- The launch runs again, alone (R393): as its own launch, ELIGIBLE, with nothing of its first run. -/
def Launch.again (l : Launch) (now : Nat) : Launch :=
  { l with state := .eligible, since := now, aged := 0, strands := [], leftCount := 0, placed := 0, serial := true
           spliceWith := none, spliceKernel := none, status := 0, farFold := .none, oldText := [], clock := clockJoin l.clock l.endClock
           fold := 0, foldTaint := false, foldPoison := false }

/-- A step of a serial re-execution (R393): the next task runs, once every record has been cleared; after the last, the records are
compared again. -/
def execSerialReexecution (vd : BitVec 4) (s : State) : Result :=
  match s.serials.find? fun x => x.vd == vd.toNat with
  | none => .next s
  | some x =>
    if x.running.isSome || x.stage != .rerun || !x.waiting.isEmpty then .next s
    else
      let same (y : Serial) : Bool := y.vd == x.vd && y.job == x.job && y.phase == x.phase
      match x.tasks with
      | t :: r =>
        let s1 := { s with serials := s.serials.map fun y => if same y then { x with tasks := r, running := some t } else y }
        .next { s1 with launches := s1.launches.map fun l => if l.lid == t then l.again (s1.cycleOf l.die) else l }
      | [] =>
        let recs := s.checkedRecords x.vd x.job x.phase
        let s1 := { s with serials := s.serials.filter fun y => !same y }
        let p := checkOn (s1.askRecords x.vd x.job x.phase) { x with
          stage := .last, waiting := (recs.filter (s.recordFar x.vd)).map (BitVec.ofNat 64)
          failed := recs.any fun a => !s.recordFar x.vd a && !s.manifestMatches x.vd a }
        .next (p.1.settleAll p.2)

end Sys2Proof.Machine
end

