-- ==== Sys2Proof/Machine/Splicer.lean ====
section
/-! DEFINITION. The Splicer (R101, R132-R137, R359-R367): the conditions on a producer and a consumer, their geometry,
the renaming of the consumer, the spliced kernel and its matched loads. -/

namespace Sys2Proof.Machine

/-- Opcode and fields of a word. -/
abbrev OpWord := Nat × Fields

/-- A port entry of a splice map (R136). -/
structure Port where
  ioff : Nat
  role : Nat
  slot : Nat
  geom : Nat
  deriving DecidableEq, Repr

/-- One kernel of the pair, read as it stands at the consumer's acceptance. -/
structure Side where
  launch : Launch
  knum : BitVec 32
  entry : Word
  words : List OpWord
  s0 : Nat
  s1 : Nat
  binds : List (Nat × Word)
  /-- The ports that its splice map lists (R137). -/
  ports : List Port

/-- The word at an address, as a launch that begins now would fetch it. -/
def State.textWord (s : State) (vd : Nat) (a : Nat) : Option (BitVec 128) :=
  match s.readHome vd .ex (8 * (a : Int)) 128 with
  | .ok x => some (BitVec.ofNat 128 x.1)
  | .error _ => none

/-- The bits of a record in memory, as the device reads it; none where it cannot be read. -/
def State.recordBits (s : State) (vd a n : Nat) : Option Nat :=
  match s.readHome vd .rd (8 * (a : Int)) n with
  | .ok x => some x.1
  | .error _ => none

/-- The bindings of a kernel record: slot and address (R134). A record that cannot be read binds nothing, and the launch
starts without it (DESIGN CHOICE, log entry 95). R132 and R134 forbid an NBIND above 64 and two bindings of one slot, and say
nothing of what a device does with them: NBIND is read as it stands (DESIGN CHOICE, log entry 115). -/
def State.bindings (s : State) (vd kdsc : Nat) : List (Nat × Word) :=
  match s.recordBits vd kdsc 256 with
  | none => []
  | some h =>
    (List.range (bits h 207 200)).filterMap fun i =>
      (s.recordBits vd (kdsc + 96 + 16 * i) 128).map fun b => (bits b 69 64, BitVec.ofNat 64 b)

/-- What the device reads for the bindings of a kernel record: addresses and lengths. -/
def State.bindingReads (s : State) (vd kdsc : Nat) : List (Nat × Nat) :=
  let n := ((s.recordBits vd kdsc 256).map fun h => bits h 207 200).getD 0
  (kdsc, 32) :: (List.range n).map fun i => (kdsc + 96 + 16 * i, 16)

/-- The ports of the splice-map record at offset `splr` of the SPLMAP that the kernel record was loaded with (R132, R136). A
kernel without a record, or whose record names another kernel record or cannot be read, has no port (log entry 94). -/
def State.ports (s : State) (vd kdsc splr : Nat) : List Port :=
  let base := Config.objectBases vd kdsc
  let a := base.2 + splr
  match s.recordBits vd a 64 with
  | none => []
  | some h =>
    if splr == 2 ^ 32 - 1 || base.1 + bits h 31 0 != kdsc then []
    else
      (List.range (bits h 47 32)).filterMap fun i => (s.recordBits vd (a + 8 + 8 * i) 64).map fun x =>
        { ioff := bits x 15 0, role := bits x 23 16, slot := bits x 31 24, geom := bits x 47 32 }

/-- Tiles of the share at the launch's residency, 4 where it is "any" (R359). -/
def tileShare (l : Launch) : Nat := if l.res == 1 then 16 else if l.res == 2 then 8 else 4

/-- A word that decode accepts in a strand of the launch: a tile lies within its share (R110, R359). -/
def acceptWord (l : Launch) (w : BitVec 128) : Option OpWord :=
  let op := opOf w
  let f := fieldsOf w
  if legal op f && (namedZ op.toNat f).all fun n => decide (n < tileShare l) then some (op.toNat, f) else none

/-- Read one side; none where the record cannot be read, decode rejects a word, or the kernel is too long. -/
def State.side? (s : State) (l : Launch) : Option Side :=
  match s.readHome l.vd .rd (8 * (l.kdsc : Int)) 256 with
  | .error _ => none
  | .ok h =>
    let n := bits h.1 63 32
    let s0 := bits h.1 95 64
    let len := bits h.1 127 96
    let entry : Word := BitVec.ofNat 64 (fld l.record 63 0)
    if len == 0 || decide (8192 < n) || decide (n < s0 + len) then none
    else
      let ws := (List.range n).map fun i =>
        (s.textWord l.vd (entry.toNat + 16 * i)).bind (acceptWord l)
      (ws.mapM id).map fun ws =>
        { launch := l, knum := BitVec.ofNat 32 (bits h.1 255 224), entry := entry, words := ws, s0 := s0, s1 := s0 + len
          binds := s.bindings l.vd l.kdsc, ports := s.ports l.vd l.kdsc (bits h.1 159 128) }

/-- What the Splicer reads of a kernel, up to the first word that it cannot read: addresses and lengths. -/
def State.sideReads (s : State) (l : Launch) : List (Nat × Nat) :=
  match s.recordBits l.vd l.kdsc 256 with
  | none => [(l.kdsc, 32)]
  | some h =>
    let words := (List.range (bits h 63 32)).map fun i => (fld l.record 63 0 + 16 * i, 16)
    let lost := words.find? fun w => (s.textWord l.vd w.1).isNone
    let a := (Config.objectBases l.vd l.kdsc).2 + bits h 159 128
    let ports := ((s.recordBits l.vd a 64).map fun x => bits x 47 32).getD 0
    if bits h 127 96 == 0 || decide (8192 < bits h 63 32) then [(l.kdsc, 32)]
    else
      s.bindingReads l.vd l.kdsc ++ lost.toList ++
        (if bits h 159 128 == 2 ^ 32 - 1 then [] else (a, 8) :: (List.range ports).map fun i => (a + 8 + 8 * i, 8))

/-! ### Names -/

/-- The registers that the slots of a word name, with their classes. -/
def slotNames (w : OpWord) : List (Cls × Nat) :=
  match opSpec (BitVec.ofNat 8 w.1) w.2 with
  | none => []
  | some p =>
    let f := w.2
    ([(p.d, f.d), (p.a, f.a), (p.b, f.b), (p.c, f.c), (p.e, f.e)].filter fun x => x.1 != .no).map fun x => (x.1, x.2.toNat)

/-- The pointer registers of a SETL. -/
def pointerRegs (f : Fields) : List Nat := ((List.range 4).map (setlReg f.imm.toNat)).filter (· != 0)

/-- Does the class have a number 0 that maps to itself (R361)? -/
def fixedZero (c : Cls) : Bool := c == .g || c == .q || c == .m

/-- All names of one class in a whole kernel, bindings included, ascending. -/
def Side.names (k : Side) (c : Cls) : List Nat :=
  let all := k.words.flatMap fun w =>
    ((slotNames w).filter fun x => x.1 == c).map (fun x => x.2) ++
      (if c == .q then [bits w.2.gs.toNat 2 0] else if c == .m then [bits w.2.gm.toNat 2 0]
       else if c == .g && w.1 == 0x40 then pointerRegs w.2 else [])
  let named := all ++ (if c == .t then k.binds.map (fun b => b.1) else [])
  (List.range 64).filter fun n => named.contains n && !(fixedZero c && n == 0)

/-- Numbers of a class. -/
def roomOf : Cls → Nat
  | .g | .v => 32
  | .q | .m => 8
  | .z => 16
  | .t => 64
  | .no => 0

/-- The consumer's renaming: its names, ascending, onto the lowest numbers that the producer does not name (R361). -/
def renames (p c : Side) (cl : Cls) : List (Nat × Nat) :=
  let taken := p.names cl
  let free := (List.range (roomOf cl)).filter fun n => !taken.contains n && !(fixedZero cl && n == 0)
  (c.names cl).zip free

def rename (m : List (Nat × Nat)) (n : Nat) : Nat := (m.lookup n).getD n

/-! ### Conditions (R359, R360) -/

def spl (w : OpWord) : Bool := bit w.2.sched.toNat 3

/-- PC-relative target of BR and CALL, in words from the word's own index (R171). -/
def brTarget (i : Nat) (f : Fields) : Int := (i : Int) + (f.imm.setWidth 32).toInt

/-- Else-offset of a SETL (R194). -/
def elseOffset (f : Fields) : Int := (f.imm.extractLsb' 32 16).toInt

/-- Before, in or after the region. -/
def Side.part (k : Side) (i : Int) : Nat := if i < (k.s0 : Int) then 0 else if i < (k.s1 : Int) then 1 else 2

/-- Regions and region shape. -/
def Side.shapeOk (k : Side) : Bool :=
  let at_ (i : Nat) : OpWord := k.words.getD i (0, {})
  let region := (k.words.drop k.s0).take (k.s1 - k.s0)
  (k.words.zipIdx.all fun p => spl p.1 == (decide (k.s0 ≤ p.2) && decide (p.2 < k.s1))) &&
    decide (k.s0 + 1 < k.s1) && (at_ k.s0).1 == 0x40 && (region.filter fun w => w.1 == 0x40).length == 1 &&
    (at_ (k.s1 - 1)).1 == 0x30 && (at_ (k.s1 - 1)).2.gs == 0 && brTarget (k.s1 - 1) (at_ (k.s1 - 1)).2 == (k.s0 : Int)

/-- Control. -/
def Side.controlOk (k : Side) : Bool :=
  let n : Int := k.words.length
  elseOffset (k.words.getD k.s0 (0, {})).2 == ((k.s1 - k.s0 : Nat) : Int) &&
    k.words.zipIdx.all fun p =>
      let op := p.1.1
      let i := p.2
      let inRegion := k.part i == 1
      let t := if op == 0x30 then brTarget i p.1.2 else (i : Int) + elseOffset p.1.2
      !([0x31, 0x32, 0x33, 0x34].contains op) && !(inRegion && [0x3A, 0x3C, 0x3E, 0xA4].contains op) &&
        !(k.part i == 0 && op == 0x3C) &&
        (op != 0x30 || (decide (0 ≤ t) && decide (t < n) && k.part t == k.part i)) &&
        (op != 0x40 || elseOffset p.1.2 == 0 || (decide (0 ≤ t) && decide (t < n)))

/-- The general registers that a word writes. -/
def writesG (w : OpWord) : List Nat :=
  let f := w.2
  let d := match opSpec (BitVec.ofNat 8 w.1) f with
    | some p => if p.d == .g && !([0x24, 0x9B, 0x9D, 0x9E, 0x9F].contains w.1) then [f.d.toNat] else []
    | none => []
  d ++ (if w.1 == 0x7B || w.1 == 0xB9 then [f.e.toNat] else []) ++ (if w.1 == 0x40 then pointerRegs f else [])

/-- A geometry operand (R360): 0 for g0; for a register written before the region only by one LI, and inside it at most
by a SUB of the region's grant from it, 1 + the immediate; none otherwise. -/
def Side.geometry (k : Side) (r : Nat) : Option Nat :=
  if r == 0 then some 0
  else
    let d := (k.words.getD k.s0 (0, {})).2.d.toNat
    let pre := (k.words.take k.s0).filter fun w => (writesG w).contains r
    let reg := ((k.words.drop k.s0).take (k.s1 - k.s0)).filter fun w => (writesG w).contains r
    match pre with
    | [w] =>
      if w.1 == 0x21 && decide (reg.length ≤ 1) && (reg.all fun x => x.1 == 0x02 && x.2.a.toNat == r && x.2.b.toNat == d) then
        some (1 + w.2.imm.toNat)
      else none
    | _ => none

def geometryOk (p c : Side) : Bool :=
  let ps := (p.words.getD p.s0 (0, {})).2
  let cs := (c.words.getD c.s0 (0, {})).2
  let eq (x y : Option Nat) : Bool := x.isSome && x == y
  ps.c == 0 && eq (p.geometry ps.a.toNat) (c.geometry cs.a.toNat) && eq (p.geometry ps.b.toNat) (c.geometry cs.b.toNat)

/-- The fields in which the two launch records must agree. -/
def recordsAgree (p c : Launch) : Bool :=
  p.vd == c.vd && [(410, 400), (412, 411), (422, 422), (433, 433), (435, 434), (255, 192), (399, 384)].all fun x =>
    fld p.record x.1 x.2 == fld c.record x.1 x.2

def sizesOk (p c : Side) : Bool :=
  let sum (cl : Cls) : Nat := (p.names cl).length + (c.names cl).length
  let ptr (k : Side) : Nat := (pointerRegs (k.words.getD k.s0 (0, {})).2).length
  decide (sum .v ≤ 32) && decide (sum .m ≤ 7) && decide (sum .g ≤ 31) && decide (sum .q ≤ 7) && decide (sum .t ≤ 64) &&
    decide (sum .z ≤ tileShare p.launch) && decide (ptr p + ptr c ≤ 4) && decide (p.words.length + c.words.length - 2 ≤ 8192)

/-- Every condition of R359 but the room of the splice store. -/
def spliceOk (p c : Side) : Bool :=
  p.shapeOk && c.shapeOk && recordsAgree p.launch c.launch && decide (p.launch.engw + c.launch.engw ≤ 4) && p.controlOk &&
    c.controlOk && (c.words.all fun w => !((w.1 == 0x38 || w.1 == 0x39) && w.2.fn == 6)) && geometryOk p c && sizesOk p c

/-! ### The spliced kernel (R361-R363) -/

/-- A word of the spliced kernel before its branches are aimed: the side it comes from, its index there, and whether it
lies in the joined body. -/
structure Item where
  consumer : Bool
  idx : Nat
  body : Bool
  op : Nat
  f : Fields
  /-- Target in words of its side. -/
  target : Option (Bool × Nat) := none
  deriving Inhabited

/-- The consumer's word renamed in every slot, guard, mask and pointer (R361). -/
def renameWord (m : Cls → List (Nat × Nat)) (w : OpWord) : Fields :=
  let f := w.2
  match opSpec (BitVec.ofNat 8 w.1) f with
  | none => f
  | some p =>
    let r (c : Cls) (x : BitVec 6) : BitVec 6 := BitVec.ofNat 6 (rename (m c) x.toNat)
    let gs := 8 * bits f.gs.toNat 3 3 + rename (m .q) (bits f.gs.toNat 2 0)
    let gm := 8 * bits f.gm.toNat 3 3 + rename (m .m) (bits f.gm.toNat 2 0)
    let imm := if w.1 == 0x40 then
        (List.range 4).foldl (fun x k =>
          let y := setlReg x k
          if y == 0 then x else setBits x (8 * k + 4) (8 * k) (rename (m .g) y)) f.imm.toNat
      else f.imm.toNat
    { f with
      d := r p.d f.d, a := r p.a f.a, b := r p.b f.b, c := r p.c f.c, e := r p.e f.e
      gs := BitVec.ofNat 4 gs, gm := BitVec.ofNat 4 gm, imm := BitVec.ofNat 48 imm }

/-- The target of a word in its own kernel. -/
def ownTarget (consumer : Bool) (i : Nat) (w : OpWord) : Option (Bool × Nat) :=
  if w.1 == 0x30 then some (consumer, (brTarget i w.2).toNat)
  else if w.1 == 0x40 && elseOffset w.2 != 0 then some (consumer, ((i : Int) + elseOffset w.2).toNat)
  else none

/-- The words `a` to `b - 1` of a side. -/
def Side.items (k : Side) (consumer body : Bool) (m : Cls → List (Nat × Nat)) (a b : Nat) : List Item :=
  (upTo a b).map fun i =>
    let w := k.words.getD i (0, {})
    { consumer := consumer, idx := i, body := body, op := w.1, f := if consumer then renameWord m w else w.2
      target := ownTarget consumer i w }

/-- The consumer's pointer slots, with their modifiers, in the free slots of the producer's SETL (R362). -/
def joinPointers (ps cs : Fields) : Fields :=
  let r := (List.range 4).foldl (fun (acc : Nat × Nat) k =>
    if setlReg cs.imm.toNat k == 0 then acc
    else
      match (List.range 4).find? fun j => setlReg acc.1 j == 0 with
      | some j => (setBits acc.1 (8 * j + 7) (8 * j) (bits cs.imm.toNat (8 * k + 7) (8 * k)),
                   setBits acc.2 (2 * j + 1) (2 * j) (bits cs.fn.toNat (2 * k + 1) (2 * k)))
      | none => acc) (ps.imm.toNat, ps.fn.toNat)
  { ps with imm := BitVec.ofNat 48 r.1, fn := BitVec.ofNat 8 r.2 }

/-- The five parts of R362. -/
def spliceItems (p c : Side) (m : Cls → List (Nat × Nat)) : List Item :=
  let ps := (p.words.getD p.s0 (0, {})).2
  let cs := renameWord m (c.words.getD c.s0 (0, {}))
  let setl : Item := { consumer := false, idx := p.s0, body := true, op := 0x40, f := joinPointers ps cs, target := some (false, p.s1) }
  let close := (p.items false true m (p.s1 - 1) p.s1)
  let after := (p.items false false m p.s1 p.words.length).map fun x =>
    if x.op == 0x3C then { x with op := 0x30, target := some (true, c.s1) } else x
  p.items false false m 0 p.s0 ++ c.items true false m 0 c.s0 ++ [setl] ++ p.items false true m (p.s0 + 1) (p.s1 - 1) ++
    c.items true true m (c.s0 + 1) (c.s1 - 1) ++ close ++ after ++ c.items true false m c.s1 c.words.length

/-- Where a word of a side stands in the spliced kernel; the consumer's SETL and closing BR stand for the joined ones. -/
def itemPos (p c : Side) (xs : List Item) (t : Bool × Nat) : Nat :=
  let u := if t.1 && t.2 == c.s0 then (false, p.s0) else if t.1 && t.2 + 1 == c.s1 then (false, p.s1 - 1) else t
  xs.findIdx fun x => x.consumer == u.1 && x.idx == u.2

/-- Where the target of an item stands. A branch of the producer's body to its own SETL or closing BR ends the
producer's pass, and the consumer's body follows (DEDUCED from R362 and R365). A SETL of the producer's code before its
region that goes on at the region goes on at the next part, the consumer's code before its region. -/
def targetPos (p c : Side) (xs : List Item) (x : Item) (t : Bool × Nat) : Nat :=
  if x.body && !x.consumer && x.op == 0x30 && x.idx + 1 != p.s1 && (t.2 == p.s0 || t.2 + 1 == p.s1) then
    p.s1 + c.s0 - 1
  else if !x.consumer && decide (x.idx < p.s0) && t == (false, p.s0) then p.s0
  else itemPos p c xs t

/-- Aim a word's branch in the spliced kernel. -/
def aim (p c : Side) (xs : List Item) (i : Nat) (x : Item) : Fields :=
  match x.target with
  | none => x.f
  | some t =>
    let off : Int := (targetPos p c xs x t : Int) - (i : Int)
    if x.op == 0x30 then { x.f with imm := BitVec.ofNat 48 (lowBits 32 off) }
    else { x.f with imm := BitVec.ofNat 48 (setBits x.f.imm.toNat 47 32 (lowBits 16 off)) }

/-- The array registers that a word names as a destination (R363), the partner that a MIRR overwrites among them (R327). -/
def destinationsV (w : OpWord) : List Nat :=
  match opSpec (BitVec.ofNat 8 w.1) w.2 with
  | none => []
  | some p =>
    let f := w.2
    (if p.d == .v && w.1 != 0x42 then [f.d.toNat] else []) ++ (if w.1 == 0x59 then [f.b.toNat] else []) ++
      (if w.1 == 0x41 && p.e == .v then [f.e.toNat] else []) ++ (if (w.1 == 0x9B || w.1 == 0xA3) && p.a == .v then [f.a.toNat] else [])

/-- The TDESC record that the word at index `i` binds, where the splice map lists it as a port of `role`, under the region's
SETL, and its TID form, format and mask may match (R137, R363). -/
def Side.portAddr (k : Side) (role i : Nat) : Option Word :=
  let w := k.words.getD i (0, {})
  let port : Port := { ioff := i - k.s0, role := role, slot := w.2.a.toNat, geom := 0 }
  if decide (k.s0 ≤ i) && k.ports.contains port && w.1 == (if role == 1 then 0x42 else 0x41) && w.2.fn == 0 && w.2.gm == 0 &&
      !Fmt.isK w.2.fmt.toNat then
    k.binds.lookup w.2.a.toNat
  else none

/-- The same, where the record has SPLM set (R363). -/
def State.portRecord (s : State) (k : Side) (role i : Nat) : Option Word :=
  (k.portAddr role i).bind fun a =>
    match s.readHome k.launch.vd .rd (8 * ((a.toNat + 13 : Nat) : Int)) 8 with
    | .ok x => if bit x.1 2 then some a else none
    | .error _ => none

/-- Where the SPLM bits of the records of a kernel's ports lie. -/
def Side.splmReads (k : Side) (role : Nat) : List (Nat × Nat) :=
  ((upTo k.s0 k.s1).filterMap (k.portAddr role)).map fun a => (a.toNat + 13, 1)

/-- The store that the consumer's load at index `j` is matched with (R363): the last of the producer's region that fits. -/
def State.matchedStore (s : State) (p c : Side) (j : Nat) : Option (Nat × Word) :=
  match s.portRecord c 2 j with
  | none => none
  | some a =>
    let w := c.words.getD j (0, {})
    let fits := (upTo (p.s0 + 1) (p.s1 - 1)).filter fun i =>
      let x := p.words.getD i (0, {})
      s.portRecord p 1 i == some a && x.2.fmt == w.2.fmt &&
        (upTo (i + 1) p.s1).all fun j => !(destinationsV (p.words.getD j (0, {}))).contains x.2.d.toNat
    fits.getLast?.map fun i => ((p.words.getD i (0, {})).2.d.toNat, p.entry + BitVec.ofNat 64 (16 * i))

/-- The words of the spliced kernel. -/
def State.spliceWords (s : State) (p c : Side) (m : Cls → List (Nat × Nat)) : List SpliceWord :=
  let xs := spliceItems p c m
  xs.zipIdx.map fun y =>
    let x := y.1
    let k := if x.consumer then c else p
    { word := packWord (BitVec.ofNat 8 x.op) (aim p c xs y.2 x)
      pc := k.entry + BitVec.ofNat 64 (16 * x.idx)
      knum := k.knum
      consumer := x.consumer
      body := x.body
      matched := if x.consumer && x.body then s.matchedStore p c x.idx else none
      second := if !x.consumer && x.idx == p.s0 then
          some (rename (m .g) (c.words.getD c.s0 (0, {})).2.d.toNat) else none }

/-- A refusal counts at the virtual device; the counter wraps (R359). -/
def State.countRefusal (s : State) (vd : Nat) : State :=
  match s.vdev? vd with
  | some d => s.setVdev { d with refusals := d.refusals + 1 }
  | none => s

/-- Try to splice a consumer with its producer (R359); a refusal leaves them two launches. The Steward hears of poisoned page-table
entries that keep the Splicer from what it reads (R261). -/
def State.trySplice (s0 : State) (lp lc : Launch) : State :=
  let s := (s0.noteReads lp.vd (s0.sideReads lp)).noteReads lc.vd (s0.sideReads lc)
  let inStore := s.splices.filter fun k => k.die == lp.die
  match s.side? lp, s.side? lc with
  | some p, some c =>
    if !spliceOk p c || decide (16 ≤ inStore.length) then s.countRefusal lc.vd
    else
      let m := renames p c
      let n := ((List.range 16).find? fun i => !inStore.any fun k => k.number == i).getD 0
      let kern : SpliceKernel := {
        die := lp.die, number := n, lid := lp.lid, words := s.spliceWords p c m
        args := (m .g).map fun x => (x.2, if x.1 ≤ 3 then x.1 else 0)
        binds := c.binds.map fun b => (rename (m .t) b.1, b.2) }
      let s1 := { (s.noteReads p.launch.vd (p.splmReads 1)).noteReads c.launch.vd (c.splmReads 2) with splices := s.splices ++ [kern] }
      (s1.setLaunch { lp with spliceWith := some lc.lid, spliceKernel := some n }).setLaunch { lc with spliceWith := some lp.lid }
  | _, _ => s.countRefusal lc.vd

end Sys2Proof.Machine
end

