-- ==== Sys2Proof/Machine/Accept.lean ====
section
/-! DEFINITION. Accepting launches (R22, R25, R133, R135, R353, R418-R420). -/

namespace Sys2Proof.Machine

/-- The checks of R135 on a launch record. -/
def recordOk (r : BitVec 512) : Bool :=
  decide (1 ≤ fld r 410 400) && decide (fld r 410 400 ≤ 1024) && decide (fld r 425 423 ≤ 4) && decide (fld r 428 426 ≤ fld r 431 429) &&
    fld r 435 434 != 3 && (fld r 435 434 == 0 || bit r.toNat 433) && vcfgMemOk (fld r 399 384) && fld r 511 436 == 0 &&
    fld r 415 413 == 0 && fld r 3 0 == 0 && fld r 63 56 == 0

def Launch.ptask (l : Launch) : Nat := fld l.header 351 336
def Launch.npred (l : Launch) : Nat := fld l.header 335 320
def Launch.glcnt (l : Launch) : Nat := fld l.header 255 240
def Launch.jph (l : Launch) : Nat := fld l.header 239 224

/-- The checks of R418 on a slot header, but for predecessors and successors. -/
def State.headerOk (s : State) (l : Launch) : Bool :=
  let agrees (c : Option Counter) (n : Nat) : Bool := (c.map fun c => c.start == n).getD true
  fld l.header 223 0 == 0 && l.jph != 0 && decide (l.phase < l.jph) && l.ptask != 0 && agrees (s.jobOf? l) l.jph &&
    agrees (s.phaseOf? l) l.ptask && agrees (s.graphOf? l) l.glcnt

/-- The producer that PROD resolves to, at acceptance (R135). -/
def State.resolveProducer (s : State) (l : Launch) : Producer :=
  let prod := fld l.record 319 256
  if prod == 0 then .none
  else
    match (s.launches.filter fun m => m.die == l.die && m.vd == l.vd && m.job == l.job && decide (m.lid < l.lid) &&
        m.kdsc + 32 == prod && !m.state.final).getLast? with
    | some m => .live m.lid
    | none => .dead

/-- Open the counters that the launch is the first to name (R25); a graph that has completed makes room for another of its
identifier. -/
def State.openCounters (s : State) (l : Launch) : State :=
  let add (t : State) (c : Counter) : State :=
    match t.counter? c.level c.vd c.key c.key2 with
    | some o => if c.level == .graph && o.completed then t.putCounter c else t
    | none => { t with counters := t.counters ++ [c] }
  let g := l.graph
  let n := if g.2 == 1 then 1 else l.glcnt
  add (add (add s { level := .graph, vd := l.vd, die := l.die, key := g.1, key2 := g.2, start := n, left := n, born := l.lid })
    { level := .phase, vd := l.vd, die := l.die, key := l.phase, key2 := l.job, start := l.ptask, left := l.ptask, born := l.lid })
    { level := .job, vd := l.vd, die := l.die, key := l.job, start := l.jph, left := l.jph, born := l.lid }

/-- Enter an accepted launch: its counters, its producer, the attempt to splice it (R359), which a producer that carries
another consumer already refuses, and, where a level that holds
it has been cancelled or `doomed` says that a predecessor has, its cancel (R28, R30). -/
def State.enterLaunch (s : State) (l : Launch) (doomed : Bool) : State :=
  let l1 := { l with producer := s.resolveProducer l }
  let s1 := (s.openCounters l1)
  let s2 := { s1 with launches := s1.launches ++ [l1] }
  if doomed || s2.levelCancelled l1 then s2.settleAll [.cancel l1.lid 1 0]
  else
    match l1.producer with
    | .live p =>
      match s2.launch? p with
      | some lp =>
        if lp.placed != 0 then s2 else if lp.spliceWith.isNone then s2.trySplice lp l1 else s2.countRefusal l1.vd
      | none => s2
    | _ => s2

/-- The Dispatcher moves HEAD past a slot; a kick accepted whole gives way to the next, of number `k` (R418, R419). -/
def Queue.pass (q : Queue) (k : Nat) : Queue :=
  let h := q.head + 1
  if q.tails.head? == some h then { q with head := h, tails := q.tails.tail, kickId := k } else { q with head := h }

/-- Does every successor name a later slot of the same kick? -/
def successorsOk (l : Launch) (tail : BitVec 32) : Bool :=
  l.successors.all fun x =>
    let d := (BitVec.ofNat 32 x - BitVec.ofNat 32 l.slot).toNat
    decide (0 < d) && decide (d < (tail - BitVec.ofNat 32 l.slot).toNat)

/-- What becomes of a slot that has been read. -/
def State.takeSlot (s : State) (d : VDev) (die queue : Nat) (q : Queue) (tail : BitVec 32) (slot : Nat) : State :=
  let vd := d.vdid
  let l : Launch := {
    lid := s.nextId, vd := vd, die := die, queue := queue, slot := q.head.toNat, kick := q.kickId
    header := BitVec.ofNat 512 slot, record := BitVec.ofNat 512 (slot >>> 512)
    since := s.cycleOf die, clock := clockPut [] (agentHost vd) (clockGet s.agents (agentHost vd)) }
  let preds := s.launches.filter fun m => m.precedes l
  let q1 := q.pass (s.nextId + 1)
  let s1 := { s.setVdev (d.setQueue die queue q1) with nextId := s.nextId + 1 }
  if recordOk l.record && s.headerOk l && successorsOk l tail && l.npred == preds.length then
    let s2 := s1.setVdev (d.setQueue die queue { q1 with reserved := q.reserved + 1 })
    let done := preds.filter fun m => m.state == .done
    let dep := l.npred - done.length
    s2.enterLaunch { l with
      dep := dep
      state := if dep == 0 then .eligible else .waiting
      clock := done.foldl (fun c m => clockJoin c m.endClock) l.clock }
      (preds.any fun m => m.state == .refused || m.state == .cancelled)
  else
    ({ s1 with launches := s1.launches ++ [{ l with state := .refused, status := 3, notified := true }] }).writeNotice
      false vd die queue (fld l.header 511 448) 0 0 3

/-- LAUNCH_ACCEPT: the Dispatcher of a die reads and checks the next launch slot of a queue, once the notice ring has
room for it (R135, R418, R419). -/
def execLaunchAccept (vd : BitVec 4) (die : BitVec 2) (queue : BitVec 4) (s : State) : Result :=
  match s.vdev? vd.toNat with
  | none => .next s
  | some d =>
    let q := d.queue die.toNat queue.toNat
    match q.tails with
    | [] => .next s
    | tail :: _ =>
      if d.iface != .run then .next s
      else
        match s.readHome d.vdid .rd (8 * ((q.addr.toNat + 36 : Nat) : Int)) 32 with
        | .error x => .next ((s.noteFlt d.vdid x).ifaceError d.vdid)
        | .ok nhead =>
          if 2 ^ q.nlog ≤ (q.ntail - BitVec.ofNat 32 nhead.1).toNat + q.reserved then .next s
          else
            let a := q.lring + 128 * (q.head.toNat % 2 ^ q.llog)
            match s.writeHome d.vdid agentSteward (8 * ((q.addr.toNat + 44 : Nat) : Int)) 32 (q.head + 1).toNat false false with
            | .error x => .next ((s.noteFlt d.vdid x).ifaceError d.vdid)
            | .ok s1 =>
              match s.readHome d.vdid .rd (8 * (a : Int)) 1024 with
              | .error x =>
                .next (((s1.noteFlt d.vdid x).setVdev (d.setQueue die.toNat queue.toNat (q.pass s.nextId))).writeNotice false d.vdid die.toNat
                  queue.toNat 0 0 x.cause 3)
              | .ok x => .next (s1.takeSlot d die.toNat queue.toNat q tail x.1)

/-- AGING_STEP: an ELIGIBLE or PARKED launch gains one level for every 2^20 cycles, up to PCAP (R354). -/
def execAgingStep (lid : Nat) (s : State) : Result :=
  match s.launch? lid with
  | none => .next s
  | some l =>
    let waits := l.state == .eligible || l.state == .parked
    if waits && decide ((l.aged + 1) * 2 ^ 20 ≤ s.cycleOf l.die - l.since) && decide (l.prio + l.aged < l.pcap) then
      .next (s.setLaunch { l with aged := l.aged + 1 })
    else .next s

end Sys2Proof.Machine
end

