-- ==== Sys2Proof/Machine/Matrix.lean ====
section
/-! DEFINITION. The meanings of the matrix engine and Scout instructions (R87, R88, R332-R349): attachment, plane loads,
MMS and MMR with their owed accumulator writes, accumulator moves, SCOUT, CHECK, and the rebuild of engine state. -/

namespace Sys2Proof.Machine

/-! ### What the launch holds (R332, R333) -/


/-- ENGW of the focused strand's launch, by which MATT, slots and the predictor are limited (R339, R340). A spliced pair runs as
its producer, and R339 does not say which ENGW is then meant, where R359 judges the sum of the two: the producer's is taken
(DESIGN CHOICE, log entry 126). -/
def State.myEngw (s : State) : Nat := s.myLaunch.engw

/-! ### MATT and MDET (R339) -/

/-- MATT raises no fault but ILLEGAL. -/
def serveMatt (e : Entry) (s : State) : Served :=
  let w := e.ga.val.toNat
  let n := s.myEngw
  let g := if w == 0 || n == 0 then 0 else min (64 * ceilDiv (min w 256) 64) (64 * n)
  let t := s.raise (flagIf e.ga.poison flPSN)
  .done { t with me := { t.me with grant := BitVec.ofNat 16 g } }

def execMatt (f : Fields) (s : State) : Result := runArray 0xB0 f s fun e t => serveMatt e t

def execMdet (f : Fields) (s : State) : Result :=
  runArray 0xB1 f s fun _ t => .done { t with me := { t.me with grant := 0 } }

/-! ### Plane loads (R334, R335, R340, R341) -/

/-- One column as it is read from memory: mantissas, block exponents, taint, poison. -/
structure Column where
  mant : List Nat
  scale : List Nat
  taint : Bool
  poison : Bool

/-- Read `len` elements of row `n` of a rank-2 kb entry from K index `k0`; FILL and E = 0 outside the extents. -/
def readColumn (rd : Int → Nat → R (Nat × Bool × Bool)) (t : TEntry) (n k0 len blk : Nat) : R Column := do
  let z := Fmt.size t.fmt
  let ins (k : Nat) : Bool := inside t.shape [n, k]
  let ms ← allOrLowest ((List.range len).map fun k =>
    if ins (k0 + k) then rd (t.addr [n, k0 + k]) z else .ok (t.fill % 2 ^ z, false, false))
  let es ← allOrLowest ((List.range (ceilDiv len blk)).map fun j =>
    if ins (k0 + j * blk) then rd (t.scaleAddr blk [n, k0 + j * blk] * 8) 8 else .ok (0, false, false))
  return { mant := ms.map fun x => x.1, scale := es.map fun x => x.1
           taint := (ms ++ es).any fun x => x.2.1, poison := (ms ++ es).any fun x => x.2.2 }

/-- Planes PB − 1 and PB − 2 of a mantissa alone (R341). -/
def topPlanes (pb m : Nat) : Nat := (m >>> (pb - 2)) <<< (pb - 2)

/-- A bit for each column that meets `p`. -/
def columnBits (n : Nat) (p : Nat → Bool) : Nat := packElems 1 ((List.range n).map fun i => b2n (p i))

/-- A slot filled from memory (R340, R341). -/
def fillSlot (rd : Int → Nat → R (Nat × Bool × Bool)) (t : TEntry) (k0 n0 blk : Nat) (listed : Nat → Bool) :
    R PlaneSlot := do
  let pb := Fmt.size t.fmt
  let cols ← allOrLowest ((List.range 256).map fun n => readColumn rd t (n0 + n) k0 256 blk)
  let kept := cols.zipIdx.map fun c =>
    packElems 8 (c.1.mant.map fun m => if listed c.2 then m else topPlanes pb m)
  return { valid := true, pb := pb, blk := blk, n0 := n0, k0 := k0, image := t
           planes := packElems 2048 kept
           scales := packElems 128 (cols.map fun c => packElems 8 c.scale)
           listed := columnBits 256 listed
           taint := columnBits 256 fun n => ((cols[n]?).map Column.taint).getD false
           poison := columnBits 256 fun n => ((cols[n]?).map Column.poison).getD false }

/-- A predictor part loaded whole (R340). -/
def fillPart (rd : Int → Nat → R (Nat × Bool × Bool)) (t : TEntry) (blk : Nat) : R (Predictor × Bool) := do
  let rows ← allOrLowest ((List.range (t.ext 0)).map fun n => readColumn rd t n 0 (t.ext 1) blk)
  return ({ loaded := true, blk := blk, image := t, mant := (rows.map Column.mant).flatten,
            scale := (rows.map Column.scale).flatten }, rows.any Column.taint)

/-- Does an older plane load of the strand still owe the target word's slot or part (R338)? -/
def State.loading (s : State) (pred : Bool) (slot : Nat) : Bool :=
  s.me.work.any fun w => w.kind == .pload && bit w.target.toNat 7 == pred && (pred || bits w.target.toNat 6 0 == slot)

/-- Issue of PLOAD and PLOADX (R337, R340, R341). -/
def servePload (x : Bool) (f : Fields) (e : Entry) (s : State) : Served :=
  let t : TEntry := s.me.getT f.a.toNat
  let w := e.gb.val.toNat
  let pred := bit w 7
  let slot := bits w 6 0
  let k0 := bits w 63 36
  let n0 := bits w 35 8
  let vc := s.me.getV f.c.toNat
  let n := s.myEngw
  if s.loading pred slot then .wait s
  else
    Served.ofR s (do
      useEntry t f.fn.toNat
      require (s.me.grant != 0 && s.myReservation?.isSome) cGRANT
      require (if pred then !x && k0 == 0 && n0 == 0 && bits slot 6 1 == 0 else decide (slot < 32 * n)) cGRANT
      require (t.rank == 2) cAGREE
      require (!pred || f.fn == 0x14) cAGREE
      require (!pred || ((if bit slot 0 then t.ext 1 else t.ext 0) == 32 &&
        decide ((if bit slot 0 then t.ext 0 else t.ext 1) ≤ 1024 * n))) cCAPACITY
      require (!x || decide (count vc.shape ≤ capacity e.grows.toNat 32)) cCAPACITY
      require (k0 % e.blk == 0) cALIGN
      let els := if x then (List.range (count vc.shape)).map (vc.elem 32) else []
      let fl ← consumeLater s e f (e.gb.taint || (x && vc.taint && !els.isEmpty)) (e.gb.poison || els.any Elt.poison)
      let rd := s.readElem s.vd
      let work : Work := { kind := .pload, entry := e, target := e.gb.val, ranges := t.range false, owedFlags := fl }
      if pred then
        let p ← fillPart rd t e.blk
        require (!(trapsTaint f && p.2)) cTAINT
        return s.addWork { work with partLoad := p.1 }
      else
        let listed (c : Nat) : Bool := !x || els.any fun y => toSigned 32 y.val == ((n0 + c : Nat) : Int)
        let p ← fillSlot rd t k0 n0 e.blk listed
        require (!(trapsTaint f && p.taint != 0)) cTAINT
        return s.addWork { work with slotLoad := p })

def execPload (f : Fields) (s : State) : Result := runArray 0xB2 f s fun e t => servePload false f e t
def execPloadx (f : Fields) (s : State) : Result := runArray 0xB3 f s fun e t => servePload true f e t

/-- Slot `p` with column `n` of slot `q`: plane lines, scales and flags (R334). -/
def PlaneSlot.withColumn (p q : PlaneSlot) (n : Nat) : PlaneSlot :=
  let take (w x y : Nat) : Nat := setBits x (w * n + (w - 1)) (w * n) (bits y (w * n + (w - 1)) (w * n))
  { p with
    planes := take 2048 p.planes q.planes, scales := take 128 p.scales q.scales, listed := take 1 p.listed q.listed
    taint := take 1 p.taint q.taint, poison := take 1 p.poison q.poison }

/-- The header of a load: all but its columns (R334). -/
def PlaneSlot.withHeader (p q : PlaneSlot) : PlaneSlot :=
  { p with valid := true, pb := q.pb, blk := q.blk, n0 := q.n0, k0 := q.k0, image := q.image }

/-- All 256 columns of a slot. -/
def allColumns : Nat := 2 ^ 256 - 1

/-- A plane load in progress writes column `n` of its slot: another strand that reads the slot meets a column old or new,
whole (R340, R351). A load writes each column once, and the header becomes that of the load whose last column was written
last. -/
def State.loadColumn (s : State) (w : Work) (n : Nat) : State :=
  let slot := bits w.target.toNat 6 0
  match s.myReservation? with
  | none => s
  | some r =>
    if bit w.target.toNat 7 || decide (256 ≤ n) || bit w.loaded n then s
    else
      let loaded := w.loaded ||| 2 ^ n
      let p := (r.slots.getD slot {}).withColumn w.slotLoad n
      let p1 := if loaded == allColumns && w.loaded != allColumns then p.withHeader w.slotLoad else p
      (s.putReservation { r with slots := r.slots.set slot p1 }).setWork { w with loaded := loaded }

/-- A plane load of the focused strand writes its slot, but columns that it has written already, or its part, which
becomes valid (R338, R340, R351). Where every column had been written, the header was too. -/
def finishPload (s : State) (w : Work) : State :=
  let tw := w.target.toNat
  let slot := bits tw 6 0
  let s1 := match s.myReservation? with
    | none => s
    | some r =>
      if bit tw 7 then
        s.putReservation (if bit tw 0 then { r with part1 := w.partLoad } else { r with part0 := w.partLoad })
      else
        let old := r.slots.getD slot {}
        let new := ((List.range 256).filter (bit w.loaded)).foldl (fun p n => PlaneSlot.withColumn p old n) w.slotLoad
        s.putReservation { r with slots := r.slots.set slot (if w.loaded == allColumns then old else new) }
  (s1.raise w.owedFlags).dropWork w.k

/-- A turn of the engines: elements of a COPY or SEND, or a column of a plane load, of the focused strand. -/
def State.engineTurn (s : State) (k n : Nat) (data : List PeerByte) : State :=
  match s.me.work.find? fun w => w.k == k with
  | some w => if w.kind == .pload then (if s.me.issues then s.loadColumn w n else s) else s.stepWork k n data
  | none => s

/-- A PLOAD or PLOADX that outlived its queue entry finishes (R338). -/
def execPlaneLoadFinish (sid k : Nat) (s : State) : Result :=
  .next (s.asStrand sid fun t =>
    match t.me.work.find? fun w => w.k == k && w.kind == .pload with
    | some w => finishPload t w
    | none => t)

/-! ### MMS and MMR (R342-R344, R87, R88) -/

/-- The plane slot that an instruction names, with its checks (R337, R342). -/
def useSlot (s : State) (slot cg : Nat) : R PlaneSlot :=
  match s.myReservation? with
  | none => fail cGRANT
  | some r => do
    let p := r.slots.getD slot {}
    require (s.me.grant != 0 && decide (slot < 32 * s.myEngw) && p.valid && decide (64 * cg + s.me.grant.toNat ≤ 256)) cGRANT
    return p

/-- The operands of MMS, MMR and CHECK checked (R343): KA. -/
def mmOperands (f : Fields) (e : Entry) (s : State) (p : PlaneSlot) (row0 : Nat) : R Nat := do
  let va := s.me.getV f.a.toNat
  let vb := s.me.getV f.b.toNat
  let rows := e.rows.toNat
  let ka := va.shape.getD 1 0
  require (e.blk == p.blk && va.shape == [rows, ka] && vb.shape == [rows, ceilDiv ka e.blk]) cAGREE
  require (decide (count va.shape ≤ capacity e.grows.toNat 8) && decide (count vb.shape ≤ capacity e.grows.toNat 8) &&
    decide (row0 + rows ≤ 192)) cCAPACITY
  return ka

/-- Row `r` of A in K tile `kt`: 256 mantissas, 0 beyond KA, and its block exponents. -/
def aTile (va vb : VReg) (ka blk r kt : Nat) : List Nat × List Nat :=
  let nb := ceilDiv ka blk
  ((List.range 256).map fun k => if 256 * kt + k < ka then (va.elem 8 (r * ka + 256 * kt + k)).val else 0,
   (List.range (256 / blk)).map fun j =>
     let q := 256 * kt / blk + j
     if q < nb then (vb.elem 8 (r * nb + q)).val else 0)

/-- The block partials of R87 over 256 terms. -/
def tilePartials (pb blk : Nat) (a b : List Nat × List Nat) : List (Option (Int × Int)) :=
  (List.range (256 / blk)).map fun j =>
    blockPartial pb ((a.1.drop (j * blk)).take blk) ((b.1.drop (j * blk)).take blk) (a.2.getD j 0) (b.2.getD j 0)

/-- Column `n` of a slot: mantissas of PB bits, block exponents. -/
def PlaneSlot.column (p : PlaneSlot) (n : Nat) : List Nat × List Nat :=
  let c := bits p.planes (2048 * n + 2047) (2048 * n)
  let x := bits p.scales (128 * n + 127) (128 * n)
  ((List.range 256).map fun k => bits c (8 * k + 7) (8 * k), (List.range (256 / p.blk)).map fun j => bits x (8 * j + 7) (8 * j))

/-- Is an element that row `r` reads in K tile `kt` poisoned? -/
def aPoisoned (va vb : VReg) (ka blk r kt : Nat) : Bool :=
  let nb := ceilDiv ka blk
  let n := min 256 (ka - 256 * kt)
  let m := ceilDiv n blk
  (n != 0 && rowsPoisoned va.poison ((r * ka + 256 * kt) * 8) (n * 8)) ||
    (m != 0 && rowsPoisoned vb.poison ((r * nb + 256 * kt / blk) * 8) (m * 8))

def Work.isMmr (w : Work) : Bool := opOf w.entry.word == 0xB5

/-- Is a tile tainted, or will it be once older operations are done (R100)? -/
def State.tileTaint (s : State) (n : Nat) : Bool :=
  (s.me.getZ n).taint || s.me.work.any fun w => w.owesTile n && w.owedTaint

/-- The rows of a tile that are poisoned, or will be once older operations are done (R156, R191). -/
def State.tilePoison (s : State) (n : Nat) : Nat :=
  ((s.me.work.filter fun w => w.owesTile n).flatMap Work.owedRows).foldl (fun p row => p ||| 2 ^ row) (s.me.getZ n).poison

/-- Does the core of the focused strand hold 16 outstanding MMS, MMR and CHECK operations, the most that it may (R345)? -/
def State.engineFull (s : State) : Bool :=
  let here (st : Strand) : Bool := st.issues && st.place.die == s.me.place.die && st.place.core == s.me.place.core
  decide (16 ≤ ((s.strands.filter here).map fun st => (st.work.filter fun w => w.kind == .mms || w.kind == .check).length).sum)

/-- Issue of MMS and MMR (R343): every s is formed; the additions into the tile are owed. MMR sets the tile's taint
whatever it adds; that it does so with ROWS 0 too is a reading (DEDUCED, log entry 28). -/
def serveMm (mmr : Bool) (f : Fields) (e : Entry) (s : State) : Served :=
  let imm := f.imm.toNat
  let kt := bits imm 23 16
  let cg := bits imm 9 8
  let slot := bits imm 6 0
  let row0 := e.gc.val.toNat
  let rows := e.rows.toNat
  let va := s.me.getV f.a.toNat
  let vb := s.me.getV f.b.toNat
  if s.loading false slot || s.engineFull then .wait s
  else
    Served.ofR s (do
      let p ← useSlot s slot cg
      let ka ← mmOperands f e s p row0
      let cols := ((upTo (64 * cg) (64 * cg + s.me.grant.toNat))).filter (bit p.listed)
      let any := decide (0 < rows) && !cols.isEmpty
      let badRows := if cols.isEmpty then [] else (List.range rows).filter fun r => aPoisoned va vb ka e.blk r kt
      let colPoison := any && cols.any (bit p.poison)
      let tileBad := any && (List.range rows).any fun r => bit (s.tilePoison f.d.toNat) (row0 + r)
      let poison := e.gc.poison || !badRows.isEmpty || colPoison || tileBad
      let fl ← consumeLater s e f (e.gc.taint || (any && (va.taint || vb.taint || s.tileTaint f.d.toNat))) poison
      let out := (List.range rows).flatMap fun r =>
        let a := aTile va vb ka e.blk r kt
        cols.map fun n =>
          let i := (row0 + r) * 256 + n
          let x := innerProduct (e.rnd f i) (tilePartials p.pb p.blk a (p.column n))
          (i, x.1, x.2)
      if !any && !mmr then return s.raise fl
      return s.addWork {
        kind := .mms, entry := e
        owed := out.map fun x => (x.1, some x.2.1)
        owedFlags := out.foldl (fun a x => a ||| x.2.2) fl
        owedTaint := mmr || e.gc.taint || va.taint || vb.taint || cols.any (bit p.taint)
        owedRows := if any && (colPoison || e.gc.poison) then upTo row0 (row0 + rows) else badRows.map (row0 + ·) })

def execMms (f : Fields) (s : State) : Result := runArray 0xB4 f s fun e t => serveMm false f e t
def execMmr (f : Fields) (s : State) : Result := runArray 0xB5 f s fun e t => serveMm true f e t

/-- Tile element `i` as f32 bits, and its replacement. -/
def Tile.get (t : Tile) (i : Nat) : Nat := bits t.buf (32 * i + 31) (32 * i)
def Tile.set (t : Tile) (i v : Nat) : Tile := { t with buf := setBits t.buf (32 * i + 31) (32 * i) v, live := true }

/-- Round(z + s, f32, rne) with its flags (R88). -/
def accAdd (x y : Nat) : Nat × Flags := arithElem .add { fmt := 0, rnd := .rne } x y 0

/-- One owed write into a tile. -/
def owedStep (acc : Tile × Flags) (o : Nat × Option Nat) : Tile × Flags :=
  match o.2 with
  | none => (acc.1.set o.1 0, acc.2)
  | some x =>
    let r := accAdd (acc.1.get o.1) x
    (acc.1.set o.1 r.1, acc.2 ||| r.2)

/-- A poisoned row holds some f32 bit patterns that the spec does not define (R88): free values. -/
def Tile.poisonRow (t : Tile) (free row : Nat) : Tile :=
  let u := (List.range 256).foldl (fun (acc : Tile) n =>
    acc.set (256 * row + n) ((Config.freeValue (free + 256 * row + n)).toNat % 2 ^ 32)) t
  { u with poison := u.poison ||| 2 ^ row }

/-- The rows of a tile that the additions of a piece of work read and find poisoned: row `i / 256` of element `i` (R88). -/
def Work.readsPoison (w : Work) (t : Tile) : Bool := w.owed.any fun o => o.2.isSome && bit t.poison (o.1 / 256)

/-- Perform all that a piece of matrix work owes (R87, R88, R343, R348). The tile is a destination that is tainted where it was,
and an addition reads the element of a row that is poisoned (R191). -/
def finishMm (s : State) (w : Work) : State :=
  let n := w.tile
  let z := s.me.getZ n
  let r := w.owed.foldl owedStep (z, w.owedFlags)
  let taint := z.taint || w.owedTaint
  let t1 : Tile := { r.1 with taint := taint }
  let t2 := w.owedRows.foldl (fun (acc : Tile) row => acc.poisonRow s.free row) t1
  let fl := r.2 ||| flagIf (!w.owedRows.isEmpty || w.readsPoison z) flPSN ||| flagIf taint flTNT
  let s1 := { (s.raise fl).setZ n t2 with free := s.free + if w.owedRows.isEmpty then 0 else 192 * 256 }
  s1.dropWork w.k

/-- What a merging step of the engine has made of one MMR's pending values: those that stay, the other MMR operations of
its run, the tile, and the flags. -/
structure Merging where
  stay : List (Nat × Option Nat) := []
  others : List Work
  tile : Tile
  flags : Flags

/-- One pending value of an MMR: it stays, is added to its element, or is combined with the value that another MMR of the
run has pending for the element, as a free choice says (R88, R344). R88 names no rounding mode for the combination of two pending
values: it rounds rne, as the addition to the element does (DESIGN CHOICE, log entry 114). -/
def Merging.step (free : Nat) (m : Merging) (p : (Nat × Option Nat) × Nat) : Merging :=
  match p.1.2 with
  | none => { m with stay := m.stay ++ [p.1] }
  | some v =>
    let mates := m.others.filterMap fun y => match y.owed.find? fun o => o.1 == p.1.1 with
      | some (_, some u) => some (y, u)
      | _ => none
    match Config.choice (free + p.2) % (mates.length + 2) with
    | 0 => { m with stay := m.stay ++ [p.1] }
    | 1 =>
      let r := owedStep (m.tile, m.flags) p.1
      { m with tile := r.1, flags := r.2 }
    | c + 2 =>
      match mates[c]? with
      | none => { m with stay := m.stay ++ [p.1] }
      | some (y, u) =>
        let r := accAdd u v
        let y1 := { y with owed := y.owed.map fun o => if o.1 == p.1.1 then (o.1, some r.1) else o }
        { m with others := m.others.map fun x => if x.k == y.k then y1 else x, flags := m.flags ||| r.2 }

/-- The MMR operations on a tile that no other operation on it separates from `w`, which may finish now. -/
def mmrRun (ws : List Work) (w : Work) : List Work :=
  ((ws.filter fun x => x.owesTile w.tile).takeWhile Work.isMmr).filter fun x => x.k != w.k

/-- The engine goes on with the pending values of an MMR, each as a free choice says; where none is left it finishes. -/
def mergeMmr (s : State) (w : Work) : State :=
  let z := s.me.getZ w.tile
  let m := w.owed.zipIdx.foldl (Merging.step s.free)
    { others := mmrRun s.me.work w, tile := z, flags := w.owedFlags ||| flagIf (w.readsPoison z) flPSN }
  let w1 := { w with owed := m.stay, owedFlags := m.flags }
  let s1 := { (m.others.foldl State.setWork s).setZ w.tile m.tile with free := s.free + w.owed.length }
  if m.stay.isEmpty then finishMm s1 w1 else s1.setWork w1

/-- May the work finish now? Older work on the tile must be done, but for MMR among MMR (R344). -/
def mayFinish (ws : List Work) (w : Work) : Bool :=
  ((ws.takeWhile fun x => x.k != w.k).filter fun x => x.owesTile w.tile).all fun x => w.isMmr && x.isMmr

/-- An owed MMS, MMR or CHECK accumulator write completes (R344); with `merge` the pending values of an MMR are added or
combined with those of others, each by a free choice. -/
def execMatrixOpFinish (sid k : Nat) (merge : Bool) (s : State) : Result :=
  .next (s.asStrand sid fun t =>
    match t.me.work.find? fun w => w.k == k && (w.kind == .mms || w.kind == .check) with
    | none => t
    | some w => if !mayFinish t.me.work w then t else if merge && w.isMmr then mergeMmr t w else finishMm t w)

/-! ### ZRD, ZWR, ZCLR (R346) -/

/-- The tile origin word and its range. -/
def tileOrigin (w nr nc : Nat) : R (Nat × Nat) := do
  let r0 := bits w 7 0
  let c0 := bits w 15 8
  require (decide (w < 2 ^ 16) && (nr == 0 || nc == 0 || (decide (r0 + nr ≤ 192) && decide (c0 + nc ≤ 256)))) cCAPACITY
  return (r0, c0)

/-- ZRD (R346). R337 raises GRANT where an instruction uses the engine while GRANT reads 0, and R346 names no GRANT among the
checks of ZRD and ZWR, which move accumulator elements alone: they raise none (DESIGN CHOICE, log entry 124). -/
def serveZrd (f : Fields) (e : Entry) (s : State) : Served :=
  let fmt := f.fmt.toNat
  let z := Fmt.size fmt
  let nr := e.rows.toNat
  let nc := e.cols.toNat
  let t := s.me.getZ f.a.toNat
  if s.owesTile f.a.toNat then .wait s
  else
    Served.ofR s (do
      let o ← tileOrigin e.gb.val.toNat nr nc
      require (decide (nr * nc ≤ capacity e.grows.toNat z)) cCAPACITY
      let any := decide (0 < nr * nc)
      let row (i : Nat) : Bool := bit t.poison (o.1 + i)
      let s0 ← consume s e f (e.gb.taint || (any && t.taint)) (e.gb.poison || (any && (List.range nr).any row))
      let xs := (List.range (nr * nc)).map fun p =>
        let i := (o.1 + p / nc) * 256 + o.2 + p % nc
        let c := convElem 0 fmt (e.rnd f i) false f.fso f.sat (t.get i)
        (({ val := c.1, taint := t.taint || e.gb.taint, poison := row (p / nc) || e.gb.poison } : Elt), c.2)
      let old := s0.me.getV f.d.toNat
      return (s0.raise (xs.foldl (fun a x => a ||| x.2) 0)).setV f.d.toNat
        (old.write z [nr, nc] (xs.map fun x => some x.1)))

def execZrd (f : Fields) (s : State) : Result := runArray 0xB6 f s fun e t => serveZrd f e t

/-- ZWR (R346). A tile that was tainted stays so, and is a tainted destination (R191). It raises no GRANT, as ZRD (log entry 124). -/
def serveZwr (f : Fields) (e : Entry) (s : State) : Served :=
  let fmt := f.fmt.toNat
  let z := Fmt.size fmt
  let va := s.me.getV f.a.toNat
  let nr := va.shape.getD 0 0
  let nc := va.shape.getD 1 0
  if s.owesTile f.d.toNat then .wait s
  else
    Served.ofR s (do
      require (va.shape.length == 2) cAGREE
      require (decide (nr * nc ≤ capacity e.grows.toNat z)) cCAPACITY
      let o ← tileOrigin e.gb.val.toNat nr nc
      let els := (List.range (nr * nc)).map (va.elem z)
      let s0 ← consume s e f (e.gb.taint || (va.taint && !els.isEmpty)) (e.gb.poison || els.any Elt.poison)
      let t0 := s0.me.getZ f.d.toNat
      let r := els.zipIdx.foldl (fun (acc : Tile × Flags) p =>
        let i := (o.1 + p.2 / nc) * 256 + o.2 + p.2 % nc
        let c := convElem fmt 0 (e.rnd f i) f.fsi false false p.1.val
        let u := acc.1.set i c.1
        ({ u with taint := u.taint || p.1.taint || e.gb.taint
                  poison := if p.1.poison || e.gb.poison then u.poison ||| 2 ^ (o.1 + p.2 / nc) else u.poison },
          acc.2 ||| c.2))
        (t0, 0)
      return (s0.raise (r.2 ||| flagIf (r.1.taint && !els.isEmpty) flTNT)).setZ f.d.toNat r.1)

def execZwr (f : Fields) (s : State) : Result := runArray 0xB7 f s fun e t => serveZwr f e t

/-- ZCLR raises no fault but ILLEGAL. -/
def execZclr (f : Fields) (s : State) : Result :=
  runArray 0xB8 f s fun _ t => if t.owesTile f.d.toNat then .wait t else .done (t.setZ f.d.toNat {})

/-! ### SCOUT (R347) -/

/-- Element `k` of row `r` of a predictor part, rows of `n` elements. -/
def Predictor.val (p : Predictor) (n r k : Nat) : Val :=
  kbVal 20 (p.mant.getD (r * n + k) 0) (p.scale.getD (r * ceilDiv n p.blk + k / p.blk) 0)

/-- TreeSum of products rounded to f32 under rne, by index (R347). -/
def scoutSum (xs ys : List Val) : Nat :=
  let f32 := fparam 0
  let terms := (xs.zip ys).zipIdx.map fun p =>
    (p.2, ({ val := (roundFloat f32 .rne (mulVal p.1.1 p.1.2).1).bits, flags := 0 } : Partial))
  match treeSum accAdd terms with
  | some p => p.val
  | none => 0

def serveScout (f : Fields) (e : Entry) (s : State) : Served :=
  let va := s.me.getV f.a.toNat
  let f32 := fparam 0
  if s.loading true 0 then .wait s
  else
    Served.ofR s (do
      let r ← match s.myReservation? with
        | some r => .ok r
        | none => fail cGRANT
      require (r.part0.loaded && r.part1.loaded) cGRANT
      let kp := TEntry.ext r.part0.image 1
      let np := TEntry.ext r.part1.image 0
      let tn := va.shape.getD 0 0
      require (va.shape == [tn, kp]) cAGREE
      require (decide (tn ≤ 192) && decide (count va.shape ≤ capacity e.grows.toNat 32)) cCAPACITY
      let els := (List.range (tn * kp)).map (va.elem 32)
      let taint := va.taint && !els.isEmpty
      let poison := els.any Elt.poison
      let s0 ← consume s e f taint poison
      let p1 := (List.range 32).map fun q => (List.range kp).map (r.part0.val kp q)
      let p2 := (List.range np).map fun q => (List.range 32).map (r.part1.val 32 q)
      let hs := (List.range tn).map fun t =>
        let x := ((els.drop (t * kp)).take kp).map fun y => decodeFloat f32 y.val
        p1.map fun w => decodeFloat f32 (scoutSum x w)
      let thr := s.me.scoutt.toNat
      let list := (List.range np).filter fun n => hs.any fun h =>
        (cmpFloat f32 4 (scoutSum h (p2.getD n [])) thr).1
      let cnt := list.length
      let keep := min (min cnt 65535) (capacity e.grows.toNat 32)
      let old := s0.me.getV f.d.toNat
      let out := (list.take keep).map fun n => some ({ val := n, taint := va.taint, poison := poison } : Elt)
      let s1 := s0.setV f.d.toNat { old.write 32 [keep] out with taint := va.taint }
      return (s1.raise (flagIf (decide (keep < cnt)) flOVF ||| flagIf va.taint flTNT)).setG f.e.toNat
        { val := BitVec.ofNat 64 cnt, taint := va.taint, poison := poison })

def execScout (f : Fields) (s : State) : Result := runArray 0xB9 f s fun e t => serveScout f e t

/-! ### CHECK (R348, R349) -/

/-- The bound U of one row and one column (R348). -/
def checkBound (p ka blk : Nat) (a b : Nat → Nat) (ea eb : Nat → Nat) : Val :=
  let nan := (List.range (ceilDiv ka blk)).any fun j => ea j == 255 || eb j == 255
  if nan then .nan false
  else
    let rmax : Int := 2 ^ (p - 2) - 1
    let terms := (List.range ka).map fun k =>
      let m := toSigned 8 (a k)
      let w := toSigned p (b k)
      (m * (w / 2 ^ (p - 2) * 2 ^ (p - 2)) + rmax * max m 0,
       ((ea (k / blk) + eb (k / blk) : Nat) : Int) - 260 - ((p : Int) - 2))
    let lo := terms.foldl (fun (acc : Int) t => min acc t.2) 0
    let t := terms.foldl (fun (acc : Int) t => acc + t.1 * 2 ^ (t.2 - lo).toNat) 0
    let f32 := fparam 0
    decodeFloat f32 (roundFloat f32 .rup (.exact (t < 0) t.natAbs lo)).bits

/-- The decision on one column: miss, replay (R348). -/
def checkColumn (s : State) (us : List Val) : Bool × Bool :=
  let f32 := fparam 0
  let thr := decodeFloat f32 s.me.scoutt.toNat
  let bnd := decodeFloat f32 s.me.scoutb.toNat
  let above (x y : Val) : Bool := !x.isNaN && !y.isNaN && decide (0 < cmpVal x y)
  us.foldl (fun acc u =>
    if u.isNaN then (true, true)
    else if above u thr then
      let x := decodeFloat f32 (roundFloat f32 .rup (addVal false u thr.negate).1).bits
      (true, acc.2 || above x bnd)
    else acc) (false, false)

/-- The owed writes of one unlisted column (R348): its weights, the writes in order, their flags, miss without replay. -/
def checkOwed (f : Fields) (e : Entry) (s : State) (p : PlaneSlot) (ka row0 n : Nat) (c : Column) :
    List (Nat × Option Nat) × Flags × Bool :=
  let rows := e.rows.toNat
  let va := s.me.getV f.a.toNat
  let vb := s.me.getV f.b.toNat
  let blk := e.blk
  let nb := ceilDiv ka blk
  let us := (List.range rows).map fun r =>
    checkBound p.pb ka blk (fun k => (va.elem 8 (r * ka + k)).val) (fun k => c.mant.getD k 0)
      (fun j => (vb.elem 8 (r * nb + j)).val) (fun j => c.scale.getD j 0)
  let d := checkColumn s us
  if d.2 then
    let out := (List.range rows).flatMap fun r => (List.range (ceilDiv ka 256)).map fun kt =>
      let i := (row0 + r) * 256 + n
      let b := ((List.range 256).map fun k => c.mant.getD (256 * kt + k) 0,
                (List.range (256 / blk)).map fun j => c.scale.getD (256 * kt / blk + j) 0)
      let x := innerProduct (e.rnd f i) (tilePartials p.pb blk (aTile va vb ka blk r kt) b)
      (i, x.1, x.2)
    (out.map fun x => (x.1, some x.2.1), out.foldl (fun a x => a ||| x.2.2) 0, false)
  else ((List.range rows).map fun r => ((row0 + r) * 256 + n, none), 0, d.1)

/-- Does older work write the span of a slot's recorded image (R283)? -/
def State.slotBusy (s : State) (slot : Nat) : Bool :=
  match s.myReservation? with
  | none => false
  | some r =>
    let t : TEntry := (r.slots.getD slot {}).image
    s.me.work.any fun x => x.ranges.any fun q => (t.range false).any fun p => rangesMeet p q

/-- Issue of CHECK: the decisions of every column from the PROG position on; the tile's writes are owed. It stops between
columns for a pre-emption or a cancel (R349). -/
def serveCheck (f : Fields) (e : Entry) (s : State) : Served :=
  let w := e.gc.val.toNat
  let slot := bits w 6 0
  let row0 := bits w 15 8
  let cg := bits w 17 16
  let rows := e.rows.toNat
  let va := s.me.getV f.a.toNat
  let vb := s.me.getV f.b.toNat
  if s.loading false slot || s.slotBusy slot || s.engineFull then .wait s
  else
    Served.ofParts s (do
      require (bits w 63 18 == 0 && !bit w 7) cGRANT
      let p ← useSlot s slot cg
      let ka ← mmOperands f e s p row0
      let t : TEntry := p.image
      let start := if s.me.reissued && !bit s.me.prog.toNat 63 && s.me.prog != 0 then s.me.prog.toNat - 1 else 0
      let todo := (upTo (64 * cg) (64 * cg + s.me.grant.toNat)).filter fun n => !bit p.listed n && decide (start ≤ n)
      let ns := todo.take (s.me.bound.getD todo.length)
      let next := todo.drop ns.length
      let cols ← allOrLowest (ns.map fun n => readColumn (s.readElem s.vd) t (p.n0 + n) p.k0 ka e.blk)
      let any := decide (0 < rows) && !ns.isEmpty
      let badRows := if any then (List.range rows).filter fun r =>
          (List.range (ceilDiv ka 256)).any fun kt => aPoisoned va vb ka e.blk r kt
        else []
      let colPoison := any && cols.any Column.poison
      let colTaint := any && cols.any Column.taint
      let outs := (ns.zip cols).map fun q => checkOwed f e s p ka row0 q.1 q.2
      let replays := any && outs.any fun o => o.1.any fun x => x.2.isSome
      let tileBad := any && outs.any fun o => o.1.any fun x => x.2.isSome && bit (s.tilePoison f.d.toNat) (x.1 / 256)
      let fl ← consumeLater s e f
        (e.gc.taint || (any && (va.taint || vb.taint)) || colTaint || (replays && s.tileTaint f.d.toNat))
        (e.gc.poison || !badRows.isEmpty || colPoison || tileBad)
      let misses := (outs.filter fun o => o.2.2).length
      let prog : Word := match next with
        | [] => 0
        | n :: _ => BitVec.ofNat 64 (1 + n)
      let s1 := { s with me := { s.me with scoutm := s.me.scoutm + BitVec.ofNat 32 misses, prog := prog } }
      if !any then return (s1.raise fl, next.isEmpty)
      return (s1.addWork {
        kind := .check, entry := e
        owed := (outs.map fun o => o.1).flatten
        owedFlags := outs.foldl (fun a o => a ||| o.2.1) fl
        owedTaint := e.gc.taint || va.taint || vb.taint || colTaint
        owedRows := if colPoison || e.gc.poison then upTo row0 (row0 + rows) else badRows.map (row0 + ·)
        ranges := t.range false }, next.isEmpty))

def execCheck (f : Fields) (s : State) : Result := runArray 0xBA f s fun e t => serveCheck f e t

/-! ### Rebuilding engine state (R333, R334) -/

/-- A slot refetched through its recorded image. -/
def refetchSlot (rd : Int → Nat → R (Nat × Bool × Bool)) (p : PlaneSlot) : R PlaneSlot :=
  if p.valid then fillSlot rd p.image p.k0 p.n0 p.blk (bit p.listed) else .ok p

def refetchPart (rd : Int → Nat → R (Nat × Bool × Bool)) (p : Predictor) : R Predictor :=
  if p.loaded then (fillPart rd p.image p.blk).map fun q => q.1 else .ok p

/-- What a refetch gives: invalid where it faults (R333). -/
def orEmpty {α : Type} [Inhabited α] (r : R α) : α :=
  match r with
  | .ok x => x
  | .error _ => default

/-- The Steward hears of a poisoned page-table entry that a refetch met (R261). -/
def State.noteR {α : Type} (s : State) (vd : Nat) (r : R α) : State :=
  match r with
  | .ok _ => s
  | .error x => s.noteFlt vd x

/-- The bits that a refetch of columns reads through an image: elements and scales within the extents. -/
def columnSpots (t : TEntry) (k0 blk : Nat) (ns : List Nat) : List (Int × Nat) :=
  ns.flatMap fun n =>
    let ks := (List.range 256).filter fun k => inside t.shape [n, k0 + k]
    (ks.map fun k => (t.addr [n, k0 + k], Fmt.size t.fmt)) ++
      (ks.filter fun k => k % blk == 0).map fun k => (t.scaleAddr blk [n, k0 + k] * 8, 8)

/-- A refetch of columns meets the L2 of their homes (R269, R333, R334). -/
def State.refetchReads (s : State) (vd : Nat) (p : PlaneSlot) (ns : List Nat) : State :=
  s.engineReads { vd := vd, retc := TEntry.retc p.image } (linesOf (spotRanges (columnSpots p.image p.k0 p.blk ns) false))

/-- Rebuild a reservation that was taken (R333): every valid slot and part is refetched. -/
def State.rebuild (s : State) (vd : Nat) (r : Reservation) : State :=
  let rd := s.readHome vd .rd
  let slots := r.slots.map (refetchSlot rd)
  let p0 := refetchPart rd r.part0
  let p1 := refetchPart rd r.part1
  let reads (u : State) (p : PlaneSlot) : State := if p.valid then u.refetchReads vd p ((List.range 256).map (p.n0 + ·)) else u
  let whole (u : State) (p : Predictor) : State :=
    let t : TEntry := p.image
    if p.loaded then
      u.engineReads { vd := vd, retc := t.retc } (linesOf (t.range false ++ t.scaleRanges p.blk false))
    else u
  (((slots.foldl (fun u x => u.noteR vd x) (whole (whole (r.slots.foldl reads s) r.part0) r.part1)).noteR vd p0).noteR vd p1).putReservation
    { r with taken := false, slots := slots.map orEmpty, part0 := orEmpty p0, part1 := orEmpty p1 }

/-- What the Steward holds of a unit of a die (R429, R430). -/
def State.unitInfo (s : State) (die unit : Nat) : UnitInfo :=
  (s.units.find? fun u => u.die == die && u.unit == unit).getD { die := die, unit := unit }

/-- The unit that serves the place of a core or engine: the spare that has taken it, or its own (R430). -/
def State.serving (s : State) (die place : Nat) : Nat := (s.unitInfo die place).spare.getD place

/-- Count a correction of a unit of a die, saturating (R276, R429). -/
def State.countCorrection (s : State) (die unit : Nat) : State :=
  let bump (c : BitVec 32) : BitVec 32 := if c == BitVec.allOnes 32 then c else c + 1
  if s.units.any fun u => u.die == die && u.unit == unit then
    { s with units := s.units.map fun u => if u.die == die && u.unit == unit then { u with count := bump u.count } else u }
  else { s with units := { die := die, unit := unit, count := 1 } :: s.units }

/-- A parity error on a plane line refetches the column, with its taint; a poisoned granule sets its POISON bit, and a
fault leaves the slot invalid (R333, R334, R429). -/
def State.parityRefetch (s : State) (lid die cluster slot column : Nat) : State :=
  match s.reservations.find? fun r => r.isOf lid die cluster with
  | none => s
  | some r =>
    let p := r.slots.getD slot {}
    if !p.valid || decide (256 ≤ column) then s
    else
      let vd := ((s.launch? lid).map Launch.vd).getD 0
      let s1 := (s.countCorrection die (s.serving die (68 + cluster))).refetchReads vd p [p.n0 + column]
      match readColumn (s.readHome vd .rd) p.image (p.n0 + column) p.k0 256 p.blk with
      | .error x => (s1.noteFlt vd x).putReservation { r with slots := r.slots.set slot {} }
      | .ok c =>
        let m := packElems 8 (c.mant.map fun m => if bit p.listed column then m else topPlanes p.pb m)
        let q := { p with
          planes := setBits p.planes (2048 * column + 2047) (2048 * column) m
          scales := setBits p.scales (128 * column + 127) (128 * column) (packElems 8 c.scale)
          taint := setBits p.taint column column (b2n c.taint)
          poison := if c.poison then p.poison ||| 2 ^ column else p.poison }
        s1.putReservation { r with slots := r.slots.set slot q }

def execPlaneParityRefetch (lid die cluster slot column : Nat) (s : State) : Result :=
  .next (s.parityRefetch lid die cluster slot column)

end Sys2Proof.Machine
end

