-- ==== Sys2Proof/Machine/Placement.lean ====
section
/-! DEFINITION. The Dispatcher's placement, strand starts, pre-emption and resumption (R19-R24, R27, R130, R267, R291,
R332, R333, R354-R358, R374-R380). -/

namespace Sys2Proof.Machine

/-! ### Slots (R19, R356) -/

/-- Residency of a launch's RES code, none for "any". -/
def wanted (l : Launch) : Option Nat := if l.res == 1 then some 1 else if l.res == 2 then some 2 else if l.res == 3 then some 4 else none

/-- ENGW that a launch needs in each cluster, its spliced consumer's included (R359, R365). -/
def State.engNeed (s : State) (l : Launch) : Nat :=
  l.engw + match l.spliceWith, l.spliceKernel with
    | some c, some _ => ((s.launch? c).map Launch.engw).getD 0
    | _, _ => 0

/-- Has the launch strands resident in a cluster, but for those in `gone`? -/
def holdsCluster (sts : List Strand) (gone : List Nat) (lid die cluster : Nat) : Bool :=
  (clusterResidents sts die cluster).any fun st => st.launch.toNat == lid && !gone.contains st.sid

/-- Column groups of a cluster that may be had: free ones, and those of launches with no strand left there (R333, R374). -/
def State.groupsFree (s : State) (gone : List Nat) (lid die cluster : Nat) : Nat :=
  4 - ((s.reservations.filter fun r => r.die == die && r.cluster == cluster && !r.taken && r.lid != lid &&
    holdsCluster s.strands gone r.lid die cluster).map Reservation.groups).foldl (· + ·) 0

def State.fenced (s : State) (die unit : Nat) : Bool := s.units.any fun u => u.die == die && u.unit == unit && u.fenced

/-- Does the virtual device have an issue rate on a core (R356)? -/
def State.hasIssue (s : State) (vd die core : Nat) : Bool :=
  s.tolls.any fun t => t.vd == vd && t.res == 0 && t.die == die && t.inst == core && t.rate != 0

/-- May a launch use a cluster (R267, R332, R356, R431)? Not one whose engine, where it needs it, or whose page walker is fenced
off (R430). -/
def State.clusterOk (s : State) (l : Launch) (gone : List Nat) (die cluster : Nat) : Bool :=
  let others := ((clusterResidents s.strands die cluster).filter fun st => !gone.contains st.sid).filter fun st => st.launch.toNat != l.lid
  let need := s.engNeed l
  s.clusters.contains (die, cluster) && !s.fenced die (85 + cluster) &&
    !(!others.isEmpty && (l.fuse || others.any fun st => ((s.launch? st.launch.toNat).map Launch.fuse).getD false)) &&
    (need == 0 || (!s.fenced die (68 + cluster) &&
      ((s.reservations.any fun r => r.isOf l.lid die cluster && !r.taken) || decide (need ≤ s.groupsFree gone l.lid die cluster))))

/-- The free slots of a core for a launch, at the first residency of `res` that serves (R356). -/
def State.coreSlots (s : State) (l : Launch) (gone : List Nat) (barred : List (Nat × Nat × Nat)) (res : List Nat) (die core : Nat) :
    List Place :=
  if s.fenced die core || !s.hasIssue l.vd die core then []
  else
    let here := (residentsOf s.strands die core).filter fun st => !gone.contains st.sid
    let r? := match here with
      | [] => res.head?
      | st :: _ => if res.contains st.place.res then some st.place.res else none
    match r? with
    | none => []
    | some r =>
      ((List.range r).filter fun k =>
        !(here.any fun st => st.place.slot == k) && !barred.contains (die, core, k)).map fun k =>
          { die := die, core := core, slot := k, res := r }

/-- The dies from a Dispatcher's own, wrapping (R357). -/
def diesFrom (die : Nat) : List Nat := (List.range 4).map fun i => (die + i) % 4

/-- The free slots of a cluster in order. -/
def State.clusterSlots (s : State) (l : Launch) (gone : List Nat) (barred : List (Nat × Nat × Nat)) (res : List Nat) (die cluster : Nat) :
    List Place :=
  if s.clusterOk l gone die cluster then
    (List.range 4).flatMap fun c => s.coreSlots l gone barred res die (4 * cluster + c)
  else []

/-- The first `n` free slots in the order of R357; a Drover task takes them in one cluster (R410). -/
def State.findSlots (s : State) (l : Launch) (gone : List Nat) (barred : List (Nat × Nat × Nat)) (res : List Nat) (n : Nat) :
    Option (List Place) :=
  let clusters := (diesFrom l.die).flatMap fun d => (List.range 16).map fun c => (d, c)
  let per := clusters.map fun p => s.clusterSlots l gone barred res p.1 p.2
  if l.drover.isSome then (per.find? fun xs => decide (n ≤ xs.length)).map fun xs => xs.take n
  else
    let all := per.flatten
    if n ≤ all.length then some (all.take n) else none

/-- Residencies for a start: the record's, or 4 on an empty core under "any" (R356). -/
def startRes (l : Launch) : List Nat :=
  match wanted l with
  | some r => [r]
  | none => [4, 2, 1]

/-- May the strand resume at a residency (R21)? -/
def Strand.fitsRes (st : Strand) (r : Nat) : Bool :=
  let g := growsOf r
  decide (st.place.res ≥ r) || (decide (st.rows.toNat ≤ g) &&
    (st.v.toList.all fun v => decide (count v.shape * v.wsize ≤ g * 2048)) &&
    (st.m.toList.all fun m => decide (count m.shape ≤ g * 2048)) &&
    (st.z.toList.zipIdx.all fun z => !z.1.live || decide (z.2 < tilesOf r)))

/-- Residencies for a resumption, highest first (R21, R356). -/
def resumeRes (l : Launch) (st : Strand) : List Nat :=
  match wanted l with
  | some r => [r]
  | none => [4, 2, 1].filter st.fitsRes

/-! ### The order of the Dispatcher (R354, R355) -/

/-- Effective priority (R354). -/
def Launch.eff (l : Launch) : Nat :=
  if l.state == .eligible || l.state == .parked then min l.pcap (l.prio + l.aged) else l.prio

/-- May tasks of the launch's phase be placed (R27, R393, R433)? -/
def State.phaseOpen (s : State) (l : Launch) : Bool :=
  let before := l.phase == 0 || ((s.counter? .phase l.vd (l.phase - 1) l.job).map Counter.completed).getD false
  let held := s.holds.any fun h => h.vd == l.vd && h.job == l.job && h.die == l.die && h.phase == l.phase
  let serial := s.serials.any fun x => x.vd == l.vd && x.job == l.job && x.running != some l.lid
  before && !held && !serial

/-- Strands of a launch that wait to resume, in strand order (R378). -/
def State.resumable (s : State) (lid : Nat) : List Strand :=
  let xs := s.strands.filter fun st => st.launch.toNat == lid && st.status == .parked false
  (List.range 1024).filterMap fun i => xs.find? fun st => st.strand.toNat == i

/-- The launches a Dispatcher considers, in order (R355); not one that a spliced producer carries (R365). -/
def State.candidates (s : State) (die : Nat) : List Launch :=
  let carried (l : Launch) : Bool := l.spliceWith.isSome && l.spliceKernel.isNone
  let xs := s.launches.filter fun l => l.die == die && !carried l &&
    ((l.state == .eligible && s.phaseOpen l) || (l.state == .parked && !(s.resumable l.lid).isEmpty))
  let last := s.lastPlaced[die]?.getD 15
  let key (l : Launch) : Nat × Nat × Nat × Nat := (7 - l.eff, b2n (l.state != .parked), (l.vd + 15 - last) % 16, l.lid)
  let lt (a b : Nat × Nat × Nat × Nat) : Bool :=
    decide (a.1 < b.1) || (a.1 == b.1 && (decide (a.2.1 < b.2.1) || (a.2.1 == b.2.1 &&
      (decide (a.2.2.1 < b.2.2.1) || (a.2.2.1 == b.2.2.1 && decide (a.2.2.2 < b.2.2.2))))))
  let ins (acc : List Launch) (l : Launch) : List Launch :=
    (acc.takeWhile fun x => lt (key x) (key l)) ++ l :: acc.dropWhile fun x => lt (key x) (key l)
  xs.foldl ins []

/-- Slots that victims left for pre-emptors which come before a launch (R380). -/
def State.barredFor (s : State) (l : Launch) : List (Nat × Nat × Nat) :=
  (s.launches.filter fun h => h.state == .eligible && h.lid != l.lid &&
    (decide (l.eff < h.eff) || (h.eff == l.eff && l.state == .eligible && decide (h.lid < l.lid)))).flatMap Launch.held

/-- What a Dispatcher does next. -/
inductive Choice where
  | place (lid : Nat) (slots : List Place)
  | resume (sid : Nat) (slot : Place)
  | preempt (lid : Nat) (victims : List Nat)
  deriving DecidableEq, Repr

/-- Sublists of length `n` in the order of R374: compared element by element. -/
def sublistsInOrder {α : Type} : Nat → List α → List (List α)
  | 0, _ => [[]]
  | _ + 1, [] => []
  | n + 1, x :: r => (sublistsInOrder n r).map (x :: ·) ++ sublistsInOrder (n + 1) r

/-- May a launch ask a strand to stop: one that no launch has asked, or one asked by a launch of lower effective priority, or
of the same and accepted later (R380)? -/
def State.mayAsk (s : State) (l : Launch) (st : Strand) : Bool :=
  match st.preempt with
  | none => true
  | some by_ =>
    match s.launch? by_ with
    | some m => decide (m.eff < l.eff) || (m.eff == l.eff && decide (l.lid < m.lid))
    | none => false

/-- Candidate victims in rank order (R374): strands of RUNNING launches of lower effective priority. -/
def State.victims (s : State) (l : Launch) : List Strand :=
  let xs := s.strands.filter fun st => st.resident && s.mayAsk l st && st.status != .cancelled &&
    match s.launch? st.launch.toNat with
    | some m => m.state == .running && decide (m.eff < l.eff)
    | none => false
  let key (st : Strand) : Nat × Nat × Nat :=
    match s.launch? st.launch.toNat with
    | some m => (m.eff, m.placed, st.strand.toNat)
    | none => (0, 0, 0)
  let before (a b : Nat × Nat × Nat) : Bool :=
    decide (a.1 < b.1) || (a.1 == b.1 && (decide (b.2.1 < a.2.1) || (a.2.1 == b.2.1 && decide (b.2.2 < a.2.2))))
  let ins (acc : List Strand) (st : Strand) : List Strand :=
    (acc.takeWhile fun x => before (key x) (key st)) ++ st :: acc.dropWhile fun x => before (key x) (key st)
  xs.foldl ins []

/-- The set of victims that R374 takes, if one frees the need. -/
def State.victimSet (s : State) (l : Launch) : Option (List Nat) :=
  let pool := (s.victims l).map Strand.sid
  let fits (g : List Nat) : Bool := (s.findSlots l g (s.barredFor l) (startRes l) l.nstr).isSome
  ((upTo 1 (pool.length + 1)).findSome? fun n => (sublistsInOrder n pool).find? fits)

/-- What one launch allows now; none passes it over (R355). -/
def State.choiceFor (s : State) (l : Launch) : Option Choice :=
  if l.state == .parked then
    (s.resumable l.lid).findSome? fun st =>
      ((s.findSlots l [] (s.barredFor l) (resumeRes l st) 1).bind List.head?).map fun p => .resume st.sid p
  else
    match s.findSlots l [] (s.barredFor l) (startRes l) l.nstr with
    | some ps => some (.place l.lid ps)
    | none =>
      if l.pre && !(s.strands.any fun st => st.preempt == some l.lid) then (s.victimSet l).map fun g => .preempt l.lid g
      else none

/-- The Dispatcher's next act on a die. -/
def State.choice? (s : State) (die : Nat) : Option Choice := (s.candidates die).findSome? s.choiceFor

/-! ### Engine reservations (R332, R333) -/

/-- Take reservations of launches with no strand in the cluster until `need` groups are free (R333). -/
def State.takeReservations (s : State) (lid need die cluster : Nat) : State :=
  let used (rs : List Reservation) : Nat :=
    ((rs.filter fun r => r.die == die && r.cluster == cluster && !r.taken).map Reservation.groups).foldl (· + ·) 0
  let idle := s.reservations.filter fun r => r.die == die && r.cluster == cluster && !r.taken && r.lid != lid &&
    !holdsCluster s.strands [] r.lid die cluster
  { s with reservations := idle.foldl (fun rs r =>
      if used rs + need ≤ 4 then rs else rs.map fun x => if x.isOf r.lid die cluster then { x with taken := true } else x) s.reservations }

/-- Give a launch its groups, slots and predictor space in a cluster, empty (R332, R333). -/
def State.engage (s : State) (l : Launch) (die cluster : Nat) : State :=
  let need := s.engNeed l
  if need == 0 || s.reservations.any fun r => r.isOf l.lid die cluster && !r.taken then s
  else
    let s1 := s.takeReservations l.lid need die cluster
    { s1 with reservations := { lid := l.lid, die := die, cluster := cluster, groups := need, slots := List.replicate (32 * need) {} } ::
                s1.reservations.filter fun r => !r.isOf l.lid die cluster }

/-- A resuming strand finds its launch's slots and predictor: where they were taken, or lie in another cluster, they are
rebuilt first (R333, R378). -/
def State.reengage (s : State) (l : Launch) (old : Place) (die cluster : Nat) : State :=
  if s.engNeed l == 0 || s.reservations.any fun r => r.isOf l.lid die cluster && !r.taken then s
  else
    let src := match s.reservations.find? fun r => r.isOf l.lid die cluster with
      | some r => some r
      | none => s.reservations.find? fun r => r.isOf l.lid old.die (old.core / 4)
    let s1 := s.engage l die cluster
    match src with
    | none => s1
    | some r => s1.rebuild l.vd { r with die := die, cluster := cluster }

/-! ### Starting strands (R23, R24, R130) -/

/-- The entry copied for a binding (R130): its 128 bytes, be VALID clear. One that fails a check leaves the slot invalid; what the
slot's other fields hold then is open, and they are 0, as where the record cannot be read (DESIGN CHOICE, log entry 127). A poisoned
or tainted record and one at an address that is no multiple of 16 are copied as any other: the entry is the bits that stand there
(DESIGN CHOICE, log entry 95). -/
def State.boundEntry (s : State) (vd : Nat) (a : Word) : TEntry :=
  match s.readHome vd .rd (8 * (a.toNat : Int)) 1024 with
  | .error _ => 0
  | .ok x =>
    let t : TEntry := BitVec.ofNat 1024 x.1
    if t.ok then t else 0

/-- The spliced kernel of a launch. -/
def State.spliceOf? (s : State) (l : Launch) : Option SpliceKernel :=
  l.spliceKernel.bind fun n => s.splices.find? fun k => k.lid == l.lid && k.number == n

/-- A strand as it stands before its first instruction (R24). Its snapshot is that of an acquire: of a granule that has moved
on it may hold an earlier state (R287, R291). -/
def State.freshStrand (s : State) (l : Launch) (index : Nat) (p : Place) (sid : Nat) (clock : Clock) : Strand :=
  let r := l.record
  let arg : Word := BitVec.ofNat 64 (fld r 191 128)
  let preset (v : Vector GReg 32) (n : Nat) (x : Word) : Vector GReg 32 := if n == 0 then v else v.setIfInBounds n { val := x }
  let g0 := preset (preset (preset (Vector.replicate 32 {}) 1 arg) 2 (BitVec.ofNat 64 index)) 3 (BitVec.ofNat 64 l.nstr)
  let sp := s.spliceOf? l
  let carg : Word := match l.spliceWith.bind s.launch? with
    | some c => BitVec.ofNat 64 (fld c.record 191 128)
    | none => 0
  let g1 := match sp with
    | some k => k.args.foldl (fun v x => preset v x.1
        (if x.2 == 1 then carg else BitVec.ofNat 64 (if x.2 == 2 then index else if x.2 == 3 then l.nstr else 0))) g0
    | none => g0
  let targ : Vector Word 4 := match l.drover with
    | some (_, e, pos, n, b, _) => #v[BitVec.ofNat 64 e, BitVec.ofNat 64 pos, BitVec.ofNat 64 n, b]
    | none => Vector.replicate 4 0
  Strand.renew (lag := s.lag) {
    sid := sid
    status := .running
    place := p
    pc := match l.spliceKernel with
      | some n => BitVec.ofNat 64 (2 ^ 63 + n <<< 56)
      | none => BitVec.ofNat 64 (fld r 63 0)
    g := g1
    begun := false
    seed := BitVec.ofNat 64 (fld r 255 192)
    vcfg := BitVec.ofNat 16 (fld r 399 384)
    slip := BitVec.ofNat 7 (if fld r 421 416 == 0 then 64 else fld r 421 416)
    phase := BitVec.ofNat 32 l.phase
    vdid := BitVec.ofNat 4 l.vd
    strand := BitVec.ofNat 10 index
    nstrand := BitVec.ofNat 11 l.nstr
    launch := BitVec.ofNat 32 l.lid
    targ := targ
    issued := s.cycleOf p.die
    clock := clock
    stale := (s.lag.map Lag.hist).filter fun e => !e.later.isEmpty }

/-- The focused strand starts, if it has not: it copies the entries that its kernel binds, as they stand now, and its snapshot is
as new as an acquire makes it (R23, R130, R291). The rules leave open when after its placement a strand starts: a turn may
start it, and its first fetch does, so that the starts of a launch's strands may straddle a write (log entry 103). Of two bindings of one slot the later one stands
(DESIGN CHOICE, log entry 115). -/
def State.beginStrand (s : State) : State :=
  if s.me.begun then s
  else
    let l := s.myLaunch
    let binds := s.bindings l.vd l.kdsc ++ ((s.spliceOf? l).map SpliceKernel.binds).getD []
    let t := binds.foldl (fun v b => v.setIfInBounds b.1 (s.boundEntry l.vd b.2)) (Vector.replicate 64 0)
    let u := s.noteReads l.vd (s.bindingReads l.vd l.kdsc ++ binds.map fun b => (b.2.toNat, 128))
    { u with me := { u.me with begun := true, t := t }.renew s.lag }

/-- Place a launch: its reservations, then its strands in placement order, each with the snapshot of an acquire at
fabric scope, none of them started yet (R22-R24, R291, R357). -/
def State.placeLaunch (s : State) (l : Launch) (ps : List Place) : State :=
  let s0 := s.fuseCaches.dropRequests l.lid
  let s1 := ps.foldl (fun t p => t.engage l p.die (p.core / 4)) s0
  let before := if l.phase == 0 then [] else ((s.counter? .phase l.vd (l.phase - 1) l.job).map Counter.clock).getD []
  let clock := clockJoin l.clock before
  let l1 : Launch := { l with
    state := .running, placed := s.nextId, aged := 0, held := [], oldText := []
    strands := (List.range ps.length).map fun i => s.nextId + 1 + i
    leftCount := ps.length }
  let new := ps.zipIdx.map fun p => s1.freshStrand l1 p.2 p.1 (s.nextId + 1 + p.2) clock
  let s2 := ({ s1 with nextId := s.nextId + 1 + ps.length, lastPlaced := s1.lastPlaced.setIfInBounds l.die l.vd }).setLaunch l1
  let s3 := match s2.me.status, new with
    | .idle, st :: r => { s2 with me := st, rest := s2.rest ++ r }
    | _, _ => { s2 with rest := s2.rest ++ new }
  s3.fuseCaches

/-- Ask victims to stop for a launch. Another launch that had asked one of them chooses again: no strand stops for it now
(R380). -/
def State.askVictims (s : State) (lid : Nat) (vs : List Nat) : State :=
  let losers := (s.strands.filter fun st => vs.contains st.sid).filterMap Strand.preempt
  (losers.foldl State.dropRequests s).mapStrands (fun st => vs.contains st.sid) fun st => { st with preempt := some lid }

/-- LAUNCH_PLACEMENT: the Dispatcher of a die places every strand of the next launch, or asks victims to stop for it
(R355-R357, R374). -/
def execLaunchPlacement (die : BitVec 2) (s : State) : Result :=
  match s.choice? die.toNat with
  | some (.place lid ps) =>
    match s.launch? lid with
    | some l => .next (s.placeLaunch l ps)
    | none => .next s
  | some (.preempt lid vs) =>
    .next (s.askVictims lid vs)
  | _ => .next s

/-! ### Switching out and in (R375-R380) -/

/-- Does a transposing COPY write the elements that it reads (R233, R319)? -/
def Work.inPlace (w : Work) (own : Nat) : Bool :=
  w.kind == .copy && !w.toReg && !w.away own && !w.farSource own && TEntry.sameAs w.imageA w.imageB

/-- A paused COPY or SEND goes on from the DONE that it reads now, and reads its source again (R316), but for a COPY that
transposes a tensor in place: its elements go on with the bits that it has read. -/
def State.unpauseWork (s : State) (w : Work) : Work :=
  if w.paused then
    let done := s.tokenDone (tokenOf (fieldsOf w.entry.word) w.entry) w.done
    let kept := w.inPlace s.myVdev.rank
    { w with paused := false, done := done, sent := w.sent && done == w.full, reread := !kept, vals := if kept then w.vals else [] }
  else w

/-- The Steward is notified where a poisoned page-table entry keeps paused work from its token record (R261). -/
def State.noteToken (s : State) (w : Work) : State :=
  match tokenOf (fieldsOf w.entry.word) w.entry with
  | none => s
  | some a =>
    match s.transAt s.vd .rw a with
    | .ok _ => s
    | .error x => s.noteFlt s.vd x

/-- Has the strand drained (R375)? Accumulator writes are done; no home action is on its way; no fault is to be taken
first (R380). A scalar fault behind queued entries is not one: its instruction has not acted, and runs again. -/
def Strand.drained (st : Strand) : Bool :=
  !(st.work.any fun w => w.kind == .mms || w.kind == .check) && !st.awaiting &&
    st.pend.all fun p => !p.isArray && !st.queue.isEmpty

/-- PREEMPT_SAVE: a stopped and drained victim saves its context and parks; its slot is kept for the pre-emptor
(R375, R380). A fault that is pending is taken first, and a strand that may finish finishes. -/
def execPreemptSave (sid : Nat) (s : State) : Result :=
  match s.strands.find? fun st => st.sid == sid with
  | none => .next s
  | some st =>
    match st.preempt with
    | none => .next s
    | some _ =>
      if !st.resident || st.status == .cancelled || st.mayFinish || !st.drained then .next s
      else
        let s1 := s.asStrand sid fun t => t.switchOutMe false false
        let s2 : State := { s1 with launches := s1.launches.map fun l =>
          if l.lid == st.launch.toNat then l.park (s.cycleOf l.die) else l.keepSlot st }
        .next s2.fuseCaches

/-- A strand that resumes in another instance leaves the barrier where it had arrived (R36). -/
def Barrier.leave (lid sid : Nat) (p : Place) (b : Barrier) : Barrier :=
  if b.lid == lid && b.inst != scopeInstance b.scope p then
    { b with arrived := b.arrived.erase sid, syncs := b.syncs.filter fun m => m.agent != sid }
  else b

/-- The low `n` bits of what was saved, below bits that were not. -/
def aboveSaved (n saved other : Nat) : Nat := (other >>> n) <<< n + saved % 2 ^ n

/-- An array register after a resumption: what its tag counts was saved, and the bits beyond it are free (R51, R377). -/
def VReg.restored (v : VReg) (grows k : Nat) : VReg :=
  { v with buf := aboveSaved (count v.shape * v.wsize) v.buf (Config.freeBits k % 2 ^ (2048 * grows)) }

/-- A mask after a resumption. -/
def MReg.restored (m : MReg) (grows k : Nat) : MReg :=
  { m with buf := aboveSaved (count m.shape) m.buf (Config.freeBits k % 2 ^ (2048 * grows)) }

/-- An identifier entry after a resumption: an invalid one was not saved (R377). Its read-only bits are zero as ever (R64). -/
def TEntry.restored (t : TEntry) (k : Nat) : TEntry :=
  if t.valid then t
  else BitVec.ofNat 1024 (setBits (setBits (setBits (Config.freeBits k) 1023 832 0) 127 107 0) 103 103 0)

/-- The registers that a context holds come back, with the bits that it does not hold free; each partner of a mirror pair
takes its copy again (R377, R378; log entry 97). `k` counts the free values. -/
def Strand.restored (st : Strand) (k : Nat) : Strand :=
  let v := Vector.ofFn fun i : Fin 32 => st.v[i].restored st.grows (k + i)
  { st with
    v := st.mirrors.foldl (fun v p => v.setIfInBounds p.2 (v[p.1]?.getD {})) v
    m := Vector.ofFn fun i : Fin 8 => if i.val == 0 then st.m[i] else st.m[i].restored st.grows (k + 32 + i)
    t := Vector.ofFn fun i : Fin 64 => TEntry.restored st.t[i] (k + 40 + i) }

/-- A switched-out strand stands at a place again: its registers as the context held them, a new snapshot, which
synchronises with no strand, and its queue image, to be reissued (R291, R377, R378). -/
def Strand.back (st : Strand) (p : Place) (now k : Nat) (lag : List Lag) : Strand :=
  let x : Strand := { st with
    status := if st.halted then .halted else .running
    halted := false, place := p, left := none, reissued := !st.queue.isEmpty, issued := now - st.issued
    sleep := st.sleep.map fun z => { z with since := now } }
  (x.restored k).renew lag

/-- Resume a strand at a place (R378): engine state first, then its context, then its engine work. A barrier of another
instance goes on without it (R36). -/
def State.resumeStrand (s : State) (l : Launch) (st : Strand) (p : Place) : State :=
  let s1 := s.fuseCaches.reengage l st.place p.die (p.core / 4)
  let s2 := s1.asStrand st.sid fun t =>
    let u : State := { t with me := t.me.back p (s.cycleOf p.die) s.free s.lag }
    let v := (u.me.work.filter Work.paused).foldl State.noteToken u
    { v with me := { v.me with work := v.me.work.map u.unpauseWork } }
  let s3 : State := { s2 with free := s2.free + 104, barriers := s2.barriers.map (Barrier.leave l.lid st.sid p) }
  let still := s3.strands.any fun x => x.launch.toNat == l.lid && match x.status with
    | .parked _ => true
    | _ => false
  (if still then s3 else s3.setLaunch { l with state := .running, aged := 0 }).fuseCaches

/-- STRAND_RESUME: the strand that the Dispatcher of its launch's die resumes next takes its slot (R355, R378). -/
def execStrandResume (sid : Nat) (s : State) : Result :=
  match s.strands.find? fun st => st.sid == sid with
  | none => .next s
  | some st =>
    match s.launch? st.launch.toNat with
    | none => .next s
    | some l =>
      match s.choice? l.die with
      | some (.resume i p) => if i == sid then .next (s.resumeStrand l st p) else .next s
      | _ => .next s

end Sys2Proof.Machine
end

