-- ==== Sys2Proof/Machine/HostPort.lean ====
section
/-! DEFINITION. Messages of hosts at the ports and the notices sent to them (R387, R414-R416, R419, R421, R423, R427). -/

namespace Sys2Proof.Machine

/-! ### Headers (R416) -/

def Msg.kind (m : Msg) : Nat := fld m.header 7 0
def Msg.die (m : Msg) : Nat := fld m.header 11 10
def Msg.vd (m : Msg) : Nat := fld m.header 15 12
def Msg.queue (m : Msg) : Nat := fld m.header 20 16
def Msg.len (m : Msg) : Nat := fld m.header 63 32
def Msg.argA (m : Msg) : Nat := fld m.header 127 64
def Msg.argB (m : Msg) : Nat := fld m.header 255 128

/-- The rules of R416 for a header and its kind. The length of a TOKEN is judged against its routing context. -/
def Msg.ok (m : Msg) : Bool :=
  let k := Msg.kind m
  let n := Msg.len m
  fld m.header 31 21 == 0 && fld m.header 9 8 == 0 && n == m.payload.length &&
    (if k == 3 then decide (Msg.queue m < 16) else Msg.queue m == 0) &&
    (match k with
      | 1 => decide (1 ≤ n) && decide (n ≤ 4096) && Msg.argB m == 0
      | 2 => n == 0 && decide (1 ≤ Msg.argB m) && decide (Msg.argA m % 4096 + Msg.argB m ≤ 4096)
      | 3 => n == 0 && Msg.argB m == 0
      | 4 => n == 64 && Msg.argB m == 0
      | 5 => bits (Msg.argA m) 63 16 == 0
      | 6 => n == 0 && bits (Msg.argA m) 63 32 == 0
      | _ => false)

/-- A message is discarded and counted in the port's discard counter (R416). -/
def State.discard (s : State) (port : Nat) : State :=
  { s with discards := s.discards.setIfInBounds port (s.discards[port]?.getD 0 + 1) }

/-- Did a message come over the security association that its virtual device has with the sender, where one is set up
(R414, R416)? -/
def State.assocOk (s : State) (vd : Nat) (peer : Endpoint) (sa : Nat) : Bool :=
  s.assocs.all fun a => !(a.vd == vd && a.peer == peer) || a.sa == sa

/-- A message that passes R416 and names a virtual device goes on as its kind says; a row sees only its own kind. Until
the firmware runs a port takes nothing but WRITE and COMMAND for VDID 0 and DIE 0 (R423). A message over another security
association than that of its virtual device and sender is discarded and counted. -/
def portTakes (kind : Nat) (m : Msg) (s : State) (go : VDev → Result) : Result :=
  if !Msg.ok m then .next (s.discard m.port.toNat)
  else if Msg.kind m != kind then .next s
  else if s.firmware == .waiting || !s.assocOk (Msg.vd m) m.sender m.sa then .next (s.discard m.port.toNat)
  else
    match s.vdev? (Msg.vd m) with
    | some d => go d
    | none => .next (s.discard m.port.toNat)

/-- Payload bytes as a number, the first byte least significant. -/
def packBytes (bs : List Byte) : Nat := bs.foldr (fun b n => b.toNat + 256 * n) 0

/-! ### WRITE and READ (R415, R427) -/

/-- Does `n` bytes from `a` meet `k` bytes from `b`? -/
def rangesTouch (a n b k : Nat) : Bool := decide (a < b + k) && decide (b < a + n)

/-- Does a host WRITE cover a protected byte: the queue table or a descriptor that LOCK read, but for a WRITE within one
NHEAD field (R427)? -/
def VDev.guards (d : VDev) (a n : Nat) : Bool :=
  (d.iface == .locked || d.iface == .run) &&
    (rangesTouch a n d.qtable.toNat 512 ||
      d.queues.any fun q => q.addr != 0 && rangesTouch a n q.addr.toNat 64 &&
        !(decide (q.addr.toNat + 36 ≤ a) && decide (a + n ≤ q.addr.toNat + 40)))

/-- A WRITE into the boot window (R423): its bytes at the offset it names; beyond the window it is discarded. -/
def State.bootWrite (s : State) (m : Msg) : State :=
  let a := Msg.argA m
  let n := m.payload.length
  if Msg.vd m != 0 || Msg.die m != 0 || decide (2 ^ 28 < a + n) then s.discard m.port.toNat
  else
    s.writeAll (agentHost 0) (addElem [] ((List.range n).map (a + ·)) 0 (8 * n) (packBytes m.payload) false false)

/-- A host WRITE, whole or not at all: an untainted plain write (R387, R415, R427). -/
def State.hostWrite (s : State) (d : VDev) (m : Msg) : State :=
  let a := Msg.argA m
  let n := m.payload.length
  if decide (2 ^ 56 ≤ a) || d.guards a n then s.discard m.port.toNat
  else
    match s.planWrite d.vdid [] (8 * (a : Int)) (8 * n) (packBytes m.payload) false false with
    | .ok ws => s.writeAll (agentHost d.vdid) ws
    | .error x => (s.noteFlt d.vdid x).discard m.port.toNat

def execWrite (m : Msg) (s : State) : Result :=
  if s.firmware == .waiting && Msg.ok m && Msg.kind m == 1 then .next (s.bootWrite m)
  else portTakes 1 m s fun d => .next (s.hostWrite d m)

/-- A host READ is answered with the bytes and a poison bit for each granule; with LEN 0 where the address does not
translate or lacks RD (R415, R416). -/
def execRead (m : Msg) (s : State) : Result :=
  portTakes 2 m s fun d =>
    let a := Msg.argA m
    let n := Msg.argB m
    match (List.range n).mapM fun i => s.transAt d.vdid .rd (a + i) with
    | .ok pas =>
      let psn := (upTo (a / 32) ((a + n - 1) / 32 + 1)).map fun g =>
        b2n ((pas.zipIdx.any fun p => (a + p.2) / 32 == g && s.memPoison.contains (p.1 / 32)))
      .next (s.send (.host m.sender (msgHeader 0x81 (Msg.die m) d.vdid 0 n a (packElems 1 psn)) (pas.map (memGet s.mem))))
    | .error x => .next ((s.noteFlt d.vdid x).send (.host m.sender (msgHeader 0x81 (Msg.die m) d.vdid 0 0 a) []))

/-! ### KICK (R419) -/

/-- A TAIL judged against LIM and HEAD (R419): none is discarded. `k` numbers the kick where its slots come next. -/
def Queue.judge (q : Queue) (tail : BitVec 32) (k : Nat) : Option Queue :=
  let ahead := (tail - q.lim).toNat
  if ahead == 0 || decide (2 ^ 31 ≤ ahead) then some q
  else if decide (2 ^ q.llog < (tail - q.head).toNat) then none
  else some { q with lim := tail, tails := q.tails ++ [tail], kickId := if q.tails.isEmpty then k else q.kickId }

/-- KICK: the kick register takes the value, and the TAIL lets the Dispatcher accept slots (R415, R419). -/
def execKick (m : Msg) (s : State) : Result :=
  portTakes 3 m s fun d =>
    let die := Msg.die m
    let n := Msg.queue m
    let v := Msg.argA m
    if d.iface != .run then .next (s.discard m.port.toNat)
    else
      let q : Queue := { d.queue die n with kick := BitVec.ofNat 64 v }
      let s1 := s.setVdev (d.setQueue die n q)
      if bits v 63 32 != 0 || !q.en then .next (s1.discard m.port.toNat)
      else
        match q.judge (BitVec.ofNat 32 v) s.nextId with
        | some q1 => .next (s1.setVdev (d.setQueue die n q1))
        | none => .next (s1.discard m.port.toNat)

/-! ### NOTICE (R421) -/

/-- NOTICE_SEND: COAL cycles have passed since the first entry not yet announced, or the entries not announced reach half
of the ring (R421). -/
def execNoticeSend (vd : BitVec 4) (die : BitVec 2) (queue : BitVec 4) (s : State) : Result :=
  match s.vdev? vd.toNat with
  | none => .next s
  | some d =>
    let q := d.queue die.toNat queue.toNat
    let due := q.immed || q.coal == 0 || decide (q.firstCyc + q.coal ≤ s.cycleOf die.toNat) || decide (2 ^ q.nlog ≤ 2 * q.unannounced)
    if q.unannounced != 0 && due then .next (s.announce vd.toNat die.toNat queue.toNat) else .next s

end Sys2Proof.Machine
end

