-- ==== Sys2Proof/Machine/Sfu.lean ====
section
/-! DEFINITION. VSFU (R214-R216): correctly rounded special functions. A function value is enclosed between two
fixed-point numbers; where they agree on enough leading bits, those bits with a sticky remainder decide every
rounding, because the value itself is never a dyadic number outside the cases taken exactly. -/

namespace Sys2Proof.Machine

/-- ln 2 with `w` fraction bits: 2 Σ 1 / ((2k + 1) 3^(2k+1)). -/
def ln2Fix (w : Nat) : Int :=
  ((List.range (w / 3 + 8)).foldl (fun (a : Int × Int) k => (a.1 / 9, a.2 + a.1 / (2 * (k : Int) + 1)))
    ((2 ^ w : Int) * 2 / 3, 0)).2

/-- atan(1/q) with `w` fraction bits. -/
def atanInv (w : Nat) (q : Int) : Int :=
  ((List.range (w / 4 + 8)).foldl (fun (a : Int × Int) k =>
    (a.1 / (q * q), if k % 2 == 0 then a.2 + a.1 / (2 * (k : Int) + 1) else a.2 - a.1 / (2 * (k : Int) + 1)))
    ((2 ^ w : Int) / q, 0)).2

/-- π with `w` fraction bits, by Machin's formula. -/
def piFix (w : Nat) : Int := 16 * atanInv w 5 - 4 * atanInv w 239

/-- e^r for |r| < 1 with `w` fraction bits. -/
def expSmall (w : Nat) (r : Int) : Int :=
  ((List.range (w / 4 + 30)).foldl (fun (a : Int × Int) k =>
    (a.1 * r / (2 ^ w : Int) / ((k : Int) + 1), a.2 + a.1)) ((2 ^ w : Int), 0)).2

/-- e^y with `w` fraction bits, for y with `w` fraction bits. -/
def expFix (w : Nat) (y : Int) : Int :=
  let l := ln2Fix w
  let k := y / l
  let x := expSmall w (y - k * l)
  if 0 ≤ k then x * (2 ^ k.toNat : Int) else x / (2 ^ (-k).toNat : Int)

/-- Σ (−1)^k r^(2k+s) / (2k+s)! for |r| < 1: sin with s = 1, cos with s = 0. -/
def sinCosSmall (w : Nat) (cos : Bool) (r : Int) : Int :=
  let sq := r * r / (2 ^ w : Int)
  let s : Int := if cos then 0 else 1
  ((List.range (w / 8 + 30)).foldl (fun (a : Int × Int) k =>
    (-(a.1 * sq / (2 ^ w : Int)) / ((2 * (k : Int) + s + 1) * (2 * (k : Int) + s + 2)), a.2 + a.1))
    (if cos then (2 ^ w : Int) else r, 0)).2

/-- ln t for 1 ≤ t < 2 with `w` fraction bits: 2 atanh((t − 1) / (t + 1)). -/
def lnSmall (w : Nat) (t : Int) : Int :=
  let one : Int := 2 ^ w
  let z := (t - one) * one / (t + one)
  let sq := z * z / one
  2 * ((List.range (w / 3 + 8)).foldl (fun (a : Int × Int) k =>
    (a.1 * sq / one, a.2 + a.1 / (2 * (k : Int) + 1))) (z, 0)).2

/-- Φ(x), the normal distribution function, with `w` fraction bits, for |x| ≤ 20 with `w` fraction bits:
1/2 + φ(x) Σ x^(2k+1) / (2k+1)!!, at a working precision that covers the growth of the series. -/
def phiFix (w0 : Nat) (x0 : Int) : Int :=
  let w := w0 + 640
  let one : Int := 2 ^ w
  let x := x0 * (2 ^ 640 : Int)
  let sq := x * x / one
  let series := ((List.range (w + 400)).foldl (fun (a : Int × Int) k =>
    (a.1 * sq / one / (2 * (k : Int) + 3), a.2 + a.1)) (x, 0)).2
  let e := expFix w (-(sq / 2))
  let twoPi := 2 * piFix w
  let root : Int := isqrt (w + 8) (twoPi * one).toNat 0
  (one / 2 + e * series / one * one / root) / (2 ^ 640 : Int)

/-- A value m·2^e as a fixed-point number with `w` fraction bits. -/
def fixOf (w : Nat) (neg : Bool) (m : Nat) (e : Int) : Int :=
  let s := e + w
  let a : Int := if 0 ≤ s then (m <<< s.toNat : Nat) else (m >>> (-s).toNat : Nat)
  if neg then -a else a

/-- The value that lies within `err` units of x·2^−w, as its 100 leading bits and a sticky remainder; none where the
enclosure does not decide them. -/
def enclose (w : Nat) (x : Int) (err : Nat) : Option Val :=
  let a := x.natAbs
  let g := Nat.log2 a - 100
  if g == 0 || a ≤ err then none
  else
    let lo := (a - err) >>> g
    let hi := (a + err) >>> g
    if lo == hi then some (.num (x < 0) lo ((g : Int) - w) true true) else none

/-- A value just below (in magnitude) m·2^e, closer than 2^(e−80). -/
def justBelow (neg : Bool) (m : Nat) (e : Int) : Val := .num neg ((m <<< 80) - 1) (e - 80) true true

/-- A value closer to 0 than any format's smallest number, and one beyond every format. -/
def tinyVal (neg : Bool) : Val := .num neg (2 ^ 100) (-600) true true
def hugeVal (neg : Bool) : Val := .num neg (2 ^ 100) 600 true true

/-- floor of m·2^e (with sign) and its fraction with `w` bits. -/
def splitInt (w : Nat) (neg : Bool) (m : Nat) (e : Int) : Int × Int :=
  let x := fixOf w neg m e
  (x / (2 ^ w : Int), x % (2 ^ w : Int))

/-- The function value at a finite non-zero m·2^e with `w` fraction bits, where the result is not exact (R214). -/
def sfuNum (fn w : Nat) (neg : Bool) (m : Nat) (e : Int) : Option Val :=
  let top : Int := (Nat.log2 m : Int) + e
  let one : Int := 2 ^ w
  let err := 2 ^ 24
  let x := fixOf w neg m e
  let scaled (v : Int) : Option Val :=
    (enclose w ((m : Int) * v) (m * err)).map fun q => match q with
      | .num _ n k st wd => .num neg n (k + e) st wd
      | q => q
  match fn with
  | 0 =>
    if 20 ≤ top then some (if neg then tinyVal false else hugeVal false)
    else
      let p := splitInt w neg m e
      if p.2 == 0 then some (.num false 1 p.1 false true)
      else
        (enclose w (expSmall w (p.2 * ln2Fix w / one)) err).map fun q => match q with
          | .num n k ex st wd => .num n k (ex + p.1) st wd
          | q => q
  | 1 =>
    if m == 2 ^ Nat.log2 m then some (Val.ofInt top)
    else
      let t : Int := (m <<< (w - Nat.log2 m) : Nat)
      enclose w (top * one + lnSmall w t * one / ln2Fix w) err
  | 2 => some (divVal (.exact false 1 0) (.exact neg m e)).1
  | 3 =>
    let tz := trailingZeros m
    let m1 := m >>> tz
    let e1 := e + tz
    let m2 := if e1 % 2 == 0 then m1 else 2 * m1
    let e2 := if e1 % 2 == 0 then e1 else e1 - 1
    let k := 140
    let r := isqrt (k + 2) ((2 ^ (2 * k)) / m2) 0
    some (.num false r (-(k : Int) - e2 / 2) (m2 != 1) true)
  | 4 | 5 =>
    if fn == 4 && top < -60 then some (justBelow neg m e)
    else
      let wp := w + 160
      let pi := piFix wp
      let xw := fixOf wp neg m e
      let k := (2 * xw + pi / 2) / pi
      let r := (xw - k * pi / 2) / (2 ^ 160 : Int)
      let k4 := (k + (if fn == 5 then 1 else 0)) % 4
      let v := sinCosSmall w (k4 % 2 == 1) r
      enclose w (if 2 ≤ k4 then -v else v) err
  | 6 =>
    if top < -60 then some (justBelow neg m e)
    else if 7 ≤ top then some (justBelow neg 1 0)
    else
      let a := expFix w (2 * (fixOf w false m e))
      enclose w ((if neg then -1 else 1) * ((a - one) * one / (a + one))) err
  | 7 =>
    if 8 ≤ top then some (if neg then tinyVal false else justBelow false 1 0)
    else enclose w (one * one / (one + expFix w (-x))) err
  | 8 =>
    if (20 * one : Int) < x then some (justBelow false m e)
    else if x < -(20 * one : Int) then some (tinyVal true)
    else scaled (phiFix w x)
  | _ =>
    if 8 ≤ top then some (if neg then tinyVal true else justBelow false m e)
    else scaled (one * one / (one + expFix w (-x)))

/-- The special inputs of R216 and the function value; none where no precision decides it. -/
def sfuVal (fn : Nat) (v : Val) : Option (Val × Flags) :=
  match v with
  | .nan s => some (.nan false, flagIf s flNV)
  | .inf neg =>
    let one : Val := .exact neg 1 0
    some (match fn with
      | 0 => if neg then (.zero false, 0) else (.inf false, 0)
      | 1 => if neg then (.nan false, flNV) else (.inf false, 0)
      | 2 => (.zero neg, 0)
      | 3 => if neg then (.nan false, flNV) else (.zero false, 0)
      | 4 | 5 => (.nan false, flNV)
      | 6 => (one, 0)
      | 7 => if neg then (.zero false, 0) else (one, 0)
      | _ => if neg then (.zero true, 0) else (.inf false, 0))
  | .num neg m e _ _ =>
    if m == 0 then
      some (match fn with
        | 0 | 5 => (.exact false 1 0, 0)
        | 1 => (.inf true, flDZ)
        | 2 | 3 => (.inf neg, flDZ)
        | 7 => (.exact false 1 (-1), 0)
        | _ => (.zero neg, 0))
    else if neg && (fn == 1 || fn == 3) then some (.nan false, flNV)
    else (((sfuNum fn 320 neg m e).or (sfuNum fn 1000 neg m e)).or (sfuNum fn 4000 neg m e)).map fun q => (q, 0)

/-- One element of VSFU (R214): round, FSO, SAT. Where no precision decides the rounding, the value is free. -/
def sfuElem (fn : Nat) (md : Mode) (x : Nat) : Nat × Flags :=
  let p := fparam md.fmt
  match sfuVal fn (decodeFloat p (flushIn p md.fsi x)) with
  | some q =>
    let r := roundFull p md.rnd md.fso md.sat q.1
    (r.1, r.2 ||| q.2)
  | none => ((Config.freeValue (fn + 16 * x)).toNat % 2 ^ p.size, flNX)

def execVsfu (f : Fields) (s : State) : Result :=
  runArray 0x5B f s fun e t => Served.ofR t <| do
    let fmt := f.fmt.toNat
    let z := Fmt.size fmt
    elementwise t e f z [((t.me.getV f.a.toNat).source z, z)] false fun i xs =>
      let r := sfuElem f.fn.toNat (e.mode f fmt i) (nth xs 0).val
      (eltOf r.1 xs, r.2)

end Sys2Proof.Machine
end

