-- ==== Sys2Proof/Machine/Routing.lean ====
section
/-! DEFINITION. Expert routing: DRARM and the Drover (R350, R409-R411, R413), and the ports' routing contexts, tokens and
batches (R401-R408). -/

namespace Sys2Proof.Machine

/-! ### Reads and writes of the ports and the Drover -/

/-- A read of the present state in a virtual device; what cannot be read reads 0. -/
def State.unitRead (s : State) (vd a n : Nat) : Nat :=
  match s.readHome vd .rd (8 * (a : Int)) (8 * n) with
  | .ok x => x.1
  | .error _ => 0

/-- A plain write of bits by an agent that is not a strand; what does not translate is dropped. -/
def State.unitBits (s : State) (vd who : Nat) (ba : Int) (n v : Nat) (taint : Bool := false) : State :=
  match s.planWrite vd [] ba n v taint false with
  | .ok ws => s.writeAll who ws
  | .error x => s.noteFlt vd x

/-- A plain write of bytes by such an agent. -/
def State.unitWrite (s : State) (vd who a n v : Nat) (taint : Bool := false) : State :=
  s.unitBits vd who (8 * (a : Int)) (8 * n) v taint

/-- The n32 entries of a list at an address. -/
def State.unitList (s : State) (vd a n : Nat) : List Nat := (List.range n).map fun i => s.unitRead vd (a + 4 * i) 4

/-- f32 arithmetic under rne; no flags are kept (R405, R411). -/
def f32op (o : ArOp) (x y : Nat) : Nat := (floatOp o { fmt := 0, rnd := .rne } x y 0).1

/-! ### DRARM (R350, R409) -/

/-- Strands that one cluster holds at a RES code (R409). -/
def clusterStrands (res : Nat) : Nat := if res == 1 then 4 else if res == 2 then 8 else 16

/-- The limits of a batch record (R350). -/
def batchOk (r : Nat) : Bool :=
  bits r 255 200 == 0 && bits r 191 176 == 0 && bits r 159 128 == 0 && decide (16 ≤ bits r 199 192) && decide (bits r 199 192 ≤ 192) &&
    bits r 199 192 % 16 == 0 && decide (1 ≤ bits r 175 160) && decide (bits r 175 160 ≤ 256) && bits r 447 384 % 8 == 0

/-- The tiles of an expert that keeps `c` tokens: first bucket position and token count (R409). -/
def tilesIn (tile c : Nat) : List (Nat × Nat) :=
  (List.range (ceilDiv c tile)).map fun j => (j * tile, min ((j + 1) * tile) c - j * tile)

/-- The batch as the Drover takes it up: the bucket table as it stands, and the plan of its tasks (R409). -/
def State.planBatch (s : State) (k vd die addr rec : Nat) (kernel : BitVec 512) : Batch :=
  let bkt := bits rec 319 256
  let experts : List (BitVec 256) := (List.range (bits rec 175 160)).map fun e => BitVec.ofNat 256 (s.unitRead vd (bkt + 64 + 32 * e) 32)
  let plan := experts.zipIdx.flatMap fun x =>
    (tilesIn (bits rec 199 192) (fld x.1 79 64)).map fun t =>
      (x.2, t.1, t.2, s.unitRead vd (fld x.1 191 128 + 4 * t.1) 4)
  { k := k, die := die, vd := vd, addr := BitVec.ofNat 64 addr, record := BitVec.ofNat 512 rec, kernel := kernel
    header := BitVec.ofNat 512 (s.unitRead vd bkt 64), experts := experts, plan := plan
    left := plan.length, tasks := plan.length }

/-- What the Drover reads as it takes up a batch: header, expert entries, and for each task the first token of its tile. -/
def Batch.reads (b : Batch) : List (Nat × Nat) :=
  let bkt := fld b.record 319 256
  [(bkt, 64)] ++ (List.range b.experts.length).map (fun e => (bkt + 64 + 32 * e, 32)) ++
    b.plan.map fun t => (fld (b.experts.getD t.1 0) 191 128 + 4 * t.2.1, 4)

/-- The checks of DRARM: the record, its kernel record, and the state with PSN raised. -/
def drarmCheck (f : Fields) (e : Entry) (s : State) : R (State × Nat × BitVec 512) := do
  let s0 ← regCheck s e f [e.ga]
  let a := e.ga.val.toNat
  let _ ← localHome s0 a 64 .rd
  let x ← s0.readElem s0.vd (8 * (a : Int)) 512
  let s1 ← consume s0 e f x.2.1 x.2.2
  require (batchOk x.1) cILLEGAL a
  let ka := bits x.1 383 320
  let y ← s1.readElem s1.vd (8 * (ka : Int)) 512
  let s2 ← consume s1 e f y.2.1 y.2.2
  let n := bits y.1 410 400
  require (decide (1 ≤ n) && decide (n ≤ clusterStrands (bits y.1 412 411))) cILLEGAL ka
  return (s2, x.1, BitVec.ofNat 512 y.1)

def serveDrarm (f : Fields) (e : Entry) (s : State) : Served :=
  match drarmCheck f e s with
  | .error x => .stop s x
  | .ok (s1, rec, kernel) =>
    let die := s.me.place.die
    if s.owes 3 || decide (16 ≤ (s.batches.filter fun b => b.die == die).length) then .wait s
    else
      let l := s1.myLaunch
      let b := s1.planBatch s1.nextId s1.vd die e.ga.val.toNat rec kernel
      let s2 := (s1.release 3).noteReads s1.vd b.reads
      let b1 : Batch := { b with
        phase := BitVec.ofNat 32 l.phase, job := l.job, clock := s2.me.ownClock s2.me.headMark }
      let s3 := match s2.phaseOf? l with
        | some c => s2.putCounter { c with left := c.left + b1.tasks }
        | none => s2
      .done { s3 with batches := s3.batches ++ [b1], nextId := s3.nextId + 1 }

def execDrarm (f : Fields) (s : State) : Result := runArray 0xBB f s fun e t => serveDrarm f e t

/-! ### DROVER_SPAWN (R409, R410) -/

/-- One task of a batch becomes a launch of the expert kernel. A record that R135 refuses counts as cancelled. -/
def Batch.spawn (b : Batch) (s : State) (t : Nat × Nat × Nat × Nat) : State :=
  let l : Launch := {
    lid := s.nextId, vd := b.vd, die := b.die, queue := 16
    header := BitVec.ofNat 512 (b.phase.toNat <<< 384 + b.job <<< 352), record := b.kernel
    state := .eligible, since := s.cycleOf b.die, clock := b.clock
    drover := some (b.k, t.1, t.2.1, t.2.2.1, b.record.setWidth 64, t.2.2.2) }
  let s1 : State := { s with nextId := s.nextId + 1 }
  if recordOk b.kernel then s1.enterLaunch l false
  else
    let s2 : State := { s1 with launches := s1.launches ++ [{ l with state := .refused, status := 3, notified := true }] }
    let p := countEnd (s2.countBatch l false) l true
    p.1.settleAll p.2

/-- DROVER_SPAWN: the Drover of a die spawns the tasks of its oldest armed batch, in ascending expert and tile order. -/
def execDroverSpawn (die : BitVec 2) (s : State) : Result :=
  match s.batches.find? fun b => b.die == die.toNat && !b.spawned with
  | none => .next s
  | some b =>
    let mark (x : Batch) : Batch := if x.k == b.k then { x with spawned := true } else x
    .next (b.plan.foldl b.spawn { s with batches := s.batches.map mark })

/-! ### DROVER_COMBINE (R350, R410, R411) -/

/-- What a rank contributes to its token's row. -/
inductive Contrib where
  | nothing
  | dropped (e : Nat)
  | row (y : List Nat) (taint : Bool)
  deriving DecidableEq, Repr

/-- A YOUT row of `d` f32: its elements, and whether its granules are tainted and poisoned. -/
def State.youtRow (s : State) (vd a d : Nat) : List Nat × Bool × Bool :=
  match s.readHome vd .rd (8 * (a : Int)) (32 * d) with
  | .ok x => ((List.range d).map fun j => bits x.1 (32 * j + 31) (32 * j), x.2.1, x.2.2)
  | .error _ => (List.replicate d 0, false, false)

/-- Rank `i` of a route row (R411). -/
def Batch.contribution (b : Batch) (s : State) (lists : List (List Nat)) (t row i : Nat) : Contrib :=
  let d := fld b.header 79 64
  let e := bits row (16 * i + 15) (16 * i)
  if decide (fld b.header 82 80 ≤ i) || bit row (64 + i) || decide (b.experts.length ≤ e) then .nothing
  else
    match (lists.getD e []).findIdx? fun x => x == t with
    | none => .nothing
    | some p =>
      let y := s.youtRow b.vd (fld (b.experts.getD e 0) 255 192 + 4 * d * p) d
      if y.2.2 then .dropped e else .row y.1 y.2.1

/-- The entries of POISL for one token, in ascending expert order (R404, R411). -/
def poisEntries (t : Nat) (cs : List (Nat × Contrib)) : List Nat :=
  let bad := cs.filterMap fun c => match c.2 with
    | .dropped e => some (e, c.1)
    | _ => none
  let ins (l : List (Nat × Nat)) (x : Nat × Nat) : List (Nat × Nat) :=
    (l.takeWhile fun y => decide (y.1 ≤ x.1)) ++ x :: l.dropWhile fun y => decide (y.1 ≤ x.1)
  (bad.foldl ins []).map fun x => t % 2 ^ 16 + (x.1 % 256) <<< 16 + x.2 <<< 24

/-- Combine one token (R411): OUTB takes the taint of the YOUT rows used and of the route row that holds their weights (R386). `acc` is the state and the entries of POISL so far. -/
def Batch.combineToken (b : Batch) (lists : List (List Nat)) (acc : State × Nat) (t : Nat) : State × Nat :=
  let s := acc.1
  let who := agentDrover b.die
  let d := fld b.header 79 64
  let ra := fld b.header 511 448 + 32 * t
  let row := s.unitRead b.vd ra 32
  let rowTaint := match s.readHome b.vd .rd (8 * (ra : Int)) 256 with
    | .ok x => x.2.1
    | .error _ => false
  let cs := (List.range 4).map fun i => (i, b.contribution s lists t row i)
  let c := cs.foldl (fun (c : List Nat × Bool) x => match x.2 with
    | .row y taint =>
      let w := bits row (32 * x.1 + 159) (32 * x.1 + 128)
      (c.1.zip y |>.map fun p => f32op .add p.1 (f32op .mul w p.2), c.2 || taint || rowTaint)
    | _ => c) (List.replicate d 0, false)
  let psn := packElems 1 (cs.map fun x => match x.2 with
    | .dropped _ => 1
    | _ => 0)
  let s1 := s.unitWrite b.vd who (fld b.header 383 320 + 4 * d * t) (4 * d) (packElems 32 c.1) c.2
  let s2 := s1.unitBits b.vd who ((8 * ra + 68 : Nat) : Int) 4 psn
  (poisEntries t cs).foldl (fun (a : State × Nat) x =>
    (a.1.unitWrite b.vd who (fld b.header 255 192 + 4 * a.2) 4 x, a.2 + 1)) (s2, acc.2)

/-- What the Drover reads for a combine: the lists of the experts, the route rows, and the YOUT rows of the tokens kept. -/
def Batch.combineReads (b : Batch) (lists : List (List Nat)) : List (Nat × Nat) :=
  b.experts.flatMap (fun x => (List.range (fld x 79 64)).map fun i => (fld x 191 128 + 4 * i, 4)) ++
    (List.range (fld b.header 191 160)).map (fun t => (fld b.header 511 448 + 32 * t, 32)) ++
    (b.experts.zip lists).flatMap fun x =>
      (List.range x.2.length).map fun i => (fld x.1 255 192 + 4 * fld b.header 79 64 * i, 4 * fld b.header 79 64)

/-- What the combine of a batch reads, as the lists of its experts stand. -/
def State.combinedReads (s : State) (b : Batch) : List (Nat × Nat) :=
  b.combineReads (b.experts.map fun x => s.unitList b.vd (fld x 191 128) (fld x 79 64))

/-- The combine of a batch (R411). -/
def Batch.combine (b : Batch) (s : State) : State :=
  let lists := b.experts.map fun x => s.unitList b.vd (fld x 191 128) (fld x 79 64)
  let r := (List.range (fld b.header 191 160)).foldl (b.combineToken lists) (s.noteReads b.vd (b.combineReads lists), 0)
  r.1.unitWrite b.vd (agentDrover b.die) (fld b.record 319 256 + 12) 4 r.2

/-- STAT, then SIG, as home actions with a release at fabric scope (R350). -/
def Batch.report (b : Batch) (s : State) : State :=
  let who := agentDrover b.die
  let rel := clockJoin b.clock [(who, clockGet s.agents who)]
  let stat := 1 + 2 * b2n b.failed + (b.tasks % 2 ^ 32) <<< 32
  let s1 := match s.translate b.vd .rw (b.addr.toNat + 56) with
    | .error c => s.noteCause b.vd (b.addr.toNat + 56) c
    | .ok pa =>
      let m : Sync := { granule := pa / 32, agent := who, place := none, rel := [[], [], [], [], rel] }
      { s with syncs := m :: s.syncs }.homeStore who pa 8 stat false false
  (s1.signalTrain b.vd who (fld b.record 447 384) 1 (atFabric rel) none).getD (s1.noteWalk b.vd (fld b.record 447 384))

/-- DROVER_COMBINE: every task of the batch has ended (R410). -/
def execDroverCombine (die : BitVec 2) (k : Nat) (s : State) : Result :=
  match s.batches.find? fun b => b.die == die.toNat && b.k == k with
  | none => .next s
  | some b =>
    if !b.spawned || b.left != 0 then .next s
    else
      let s1 := if b.failed then s else b.combine s
      let s2 := b.report s1
      .next { s2 with batches := s2.batches.filter fun x => x.k != k }

/-! ### Routing contexts (R401) -/

def RouteCtx.en (c : RouteCtx) : Bool := bit c.record.toNat 0
def RouteCtx.d (c : RouteCtx) : Nat := fld c.record 271 256
def RouteCtx.nexp (c : RouteCtx) : Nat := fld c.record 255 240
def RouteCtx.ranks (c : RouteCtx) : Nat := fld c.record 227 225
def RouteCtx.bkt (c : RouteCtx) : Nat := fld c.record 447 384
def RouteCtx.tokmax (c : RouteCtx) : Nat := fld c.record 319 304
/-- TOKFMT: f32, or bf16. -/
def RouteCtx.tokfmt (c : RouteCtx) : Nat := fld c.record 224 224
def RouteCtx.elemBytes (c : RouteCtx) : Nat := if c.tokfmt == 0 then 4 else 2
def RouteCtx.gblk (c : RouteCtx) : Nat := if bit c.record.toNat 223 then 32 else 16

/-- Bytes of gate weights that a context holds: mantissas and scales. -/
def RouteCtx.gateBytes (c : RouteCtx) : Nat := c.nexp * (c.d + ceilDiv c.d c.gblk)

def State.route? (s : State) (port vd : Nat) : Option RouteCtx := s.routes.find? fun c => c.port == port && c.vd == vd

def State.putRoute (s : State) (c : RouteCtx) : State :=
  { s with routes := c :: s.routes.filter fun x => !(x.port == c.port && x.vd == c.vd) }

/-- The limits of a routing record (R401). -/
def RouteCtx.recordOk (c : RouteCtx) : Bool :=
  fld c.record 222 1 == 0 && c.tokmax != 0 && decide (1 ≤ c.d) && decide (c.d ≤ 8192) && decide (1 ≤ c.nexp) && decide (c.nexp ≤ 256) &&
    decide (1 ≤ c.ranks) && decide (c.ranks ≤ min 4 c.nexp) && fld c.record 511 448 % 8 == 0 && c.bkt % 64 == 0

/-- Elements `j` of the gate weights of an expert, with their scales, as they stand: mantissa, scale, poison. -/
def RouteCtx.readGate (c : RouteCtx) (s : State) (e j : Nat) : R (Nat × Nat × Bool) := do
  let t : TEntry := c.image
  let m ← s.readHome c.vd .rd (t.addr [e, j]) 8
  let x ← s.readHome c.vd .rd (t.scaleAddr c.gblk [e, j] * 8) 8
  return (m.1, x.1, m.2.2 || x.2.2)

/-- Load a routing context into a port (R401): the ANSWER status. A poisoned gate granule is held as poisoned (R405). -/
def State.loadRoute (s : State) (port vd addr : Nat) : State × Nat :=
  let old := s.route? port vd
  if ((old.map fun c => c.batch.isSome).getD false) then (s, 1)
  else
    match s.readHome vd .rd (8 * (addr : Int)) 512 with
    | .error x => (s.noteFlt vd x, 2)
    | .ok x =>
      let c : RouteCtx := { port := port, vd := vd, record := BitVec.ofNat 512 x.1, discards := (old.map RouteCtx.discards).getD 0 }
      match s.readHome vd .rd (8 * (fld c.record 383 320 : Int)) 1024 with
      | .error y => (s.noteFlt vd y, 2)
      | .ok y =>
        let t : TEntry := BitVec.ofNat 1024 y.1
        let c1 := { c with image := t }
        let others := (s.routes.filter fun r => r.port == port && r.vd != vd).map RouteCtx.gateBytes
        if !(c.recordOk && t.valid && t.ok && t.fmt == 20 && t.rank == 2 && t.ext 0 == c.nexp && t.ext 1 == c.d) ||
            decide (2 ^ 23 < others.foldl (· + ·) c.gateBytes) then (s, 2)
        else
          match (List.range (c.nexp * c.d)).mapM fun i => c1.readGate s (i / c.d) (i % c.d) with
          | .error y => (s.noteFlt vd y, 2)
          | .ok g =>
            (s.putRoute { c1 with mant := g.map fun z => z.1, scale := g.map fun z => z.2.1, poison := g.map fun z => z.2.2 }, 0)

/-! ### TOKEN (R402, R404-R406) -/

/-- The score of an expert for a token (R405). -/
def RouteCtx.score (c : RouteCtx) (xs : List Val) (e : Nat) : Nat :=
  if ((c.poison.drop (e * c.d)).take c.d).any id then 0x7FC00000
  else
    scoutSum xs ((((c.mant.drop (e * c.d)).zip (c.scale.drop (e * c.d))).take c.d).map fun p => kbVal 20 p.1 p.2)

/-- Does score `x` rank before score `y`? A NaN ranks below every number; equal scores do not (R406). -/
def scoreBefore (x y : Nat) : Bool :=
  let a := decodeFloat (fparam 0) x
  let b := decodeFloat (fparam 0) y
  if a.isNaN then false else if b.isNaN then true else (cmpFloat (fparam 0) 4 x y).1

/-- The experts in rank order with their scores (R406). -/
def rankExperts (scores : List Nat) : List (Nat × Nat) :=
  scores.zipIdx.foldl (fun (acc : List (Nat × Nat)) x =>
    (acc.takeWhile fun y => !scoreBefore x.1 y.1) ++ x :: acc.dropWhile fun y => !scoreBefore x.1 y.1) []

/-- The weights of the chosen experts (R406). -/
def routeWeights (chosen : List Nat) : List Nat :=
  let m := chosen.headD 0
  let es := chosen.map fun x => (sfuElem 0 { fmt := 0, rnd := .rne } (f32op .mul (f32op .sub x m) 0x3FB8AA3B)).1
  let total := match es with
    | [] => 0
    | x :: r => r.foldl (f32op .add) x
  es.map fun x => f32op .div x total

/-- The route row of a token: EXP and W, DROP and PSN 0 (R404, R406). -/
def RouteCtx.routeRow (c : RouteCtx) (xs : List Val) : Nat :=
  let ranked := (rankExperts ((List.range c.nexp).map (c.score xs))).take c.ranks
  let ws := routeWeights (ranked.map fun x => x.1)
  (List.range 4).foldl (fun acc i => acc + ((ranked[i]?.map fun x => x.2).getD 0xFFFF) <<< (16 * i) + (ws.getD i 0) <<< (32 * i + 128)) 0

/-- A message that a routing context discards: its own counter gains 1 (R402). A context that has not been loaded, whose EN
is clear, counts too. -/
def State.discardRouted (s : State) (port vd : Nat) : State :=
  let c := (s.route? port vd).getD { port := port, vd := vd }
  s.putRoute { c with discards := c.discards + 1 }

/-- TOKEN: the port scores the token vector and writes its token row and its route row (R402, R404-R406). A LEN that is not
that of D elements is the port's to count (R416). -/
def execToken (m : Msg) (s : State) : Result :=
  portTakes 5 m s fun d =>
    let port := m.port.toNat
    match s.route? port d.vdid with
    | none => .next (s.discardRouted port d.vdid)
    | some c =>
      let t := Msg.argA m
      let id := BitVec.ofNat 128 (Msg.argB m)
      if c.en && m.payload.length != c.d * c.elemBytes then .next (s.discard port)
      else if !c.en || decide (c.tokmax ≤ t) || (c.batch.isSome && c.batch != some id) then .next (s.discardRouted port d.vdid)
      else
        let x := packBytes m.payload
        let z := 8 * c.elemBytes
        let xs := (List.range c.d).map fun j => decodeFloat (fparam c.tokfmt) (bits x (z * j + z - 1) (z * j))
        let h := s.unitRead d.vdid c.bkt 64
        let s1 := (s.noteRead d.vdid c.bkt 64).putRoute { c with batch := some id }
        let s2 := s1.unitWrite d.vdid (agentPort port) (bits h 447 384 + t * c.d * c.elemBytes) m.payload.length x
        .next (s2.unitWrite d.vdid (agentPort port) (bits h 511 448 + 32 * t) 32 (c.routeRow xs))

/-! ### CLOSE and BATCH_CLOSE (R402, R407, R408) -/

/-- CLOSE: the open batch is to close with NTOK tokens; any other close is discarded (R402). -/
def execClose (m : Msg) (s : State) : Result :=
  portTakes 6 m s fun d =>
    let port := m.port.toNat
    match s.route? port d.vdid with
    | none => .next (s.discardRouted port d.vdid)
    | some c =>
      let n := Msg.argA m
      if c.batch == some (BitVec.ofNat 128 (Msg.argB m)) && c.closing.isNone && decide (n ≤ c.tokmax) then
        .next (s.putRoute { c with closing := some n })
      else .next (s.discardRouted port d.vdid)

/-- The next LOAD and LIMIT of an expert with DEMAND `n` (R408). -/
def RouteCtx.control (c : RouteCtx) (load n : Nat) : Nat × Nat :=
  let diff : Int := ((n <<< 16 : Nat) : Int) - load
  let l := (max 0 (min ((load : Int) + diff / (2 ^ fld c.record 231 228 : Int)) (2 ^ 32 - 1))).toNat
  (l, min (fld c.record 303 288) (ceilDiv (l * (16 + fld c.record 239 232)) (2 ^ 20) + fld c.record 287 272))

/-- The ranks below K of a route row that name an expert. -/
def RouteCtx.ranksOf (c : RouteCtx) (row e : Nat) : List Nat :=
  (List.range c.ranks).filter fun i => bits row (16 * i + 15) (16 * i) == e

/-- The tokens of a closing batch that name an expert in some rank, ascending: route row and token index (R407). -/
def RouteCtx.tokensOf (c : RouteCtx) (rows : List Nat) (e : Nat) : List (Nat × Nat) :=
  rows.zipIdx.filter fun r => !(c.ranksOf r.1 e).isEmpty

/-- The address of an expert's entry in the bucket table (R403). -/
def RouteCtx.entryAt (c : RouteCtx) (e : Nat) : Nat := c.bkt + 64 + 32 * e

/-- Step 1 of R407 for one expert: DEMAND. -/
def RouteCtx.closeDemand (c : RouteCtx) (rows : List Nat) (s : State) (e : Nat) : State :=
  s.unitWrite c.vd (agentPort c.port) (c.entryAt e + 4) 4 ((c.tokensOf rows e).length % 2 ^ 32)

/-- Step 2 of R407 for one expert: LIST with the tokens kept, then KEPT. `acc` is the state and the LIMITs in force so far. -/
def RouteCtx.closeList (c : RouteCtx) (rows : List Nat) (acc : State × List Nat) (e : Nat) : State × List Nat :=
  let who := agentPort c.port
  let entry := acc.1.unitRead c.vd (c.entryAt e) 32
  let kept := (c.tokensOf rows e).take (bits entry 95 80)
  let s1 := kept.zipIdx.foldl (fun t x => t.unitWrite c.vd who (bits entry 191 128 + 4 * x.2) 4 x.1.2) acc.1
  (s1.unitWrite c.vd who (c.entryAt e + 8) 2 kept.length, acc.2 ++ [bits entry 95 80])

/-- Step 3 of R407 for one expert: the DROP bits and DROPL entries of the other tokens. `acc` is the state and the entries of DROPL
so far. -/
def RouteCtx.closeDrops (c : RouteCtx) (header : Nat) (rows limits : List Nat) (acc : State × Nat) (e : Nat) : State × Nat :=
  let who := agentPort c.port
  let drop (a : State × Nat) (r : Nat × Nat) : State × Nat :=
    (c.ranksOf r.1 e).foldl (fun (a : State × Nat) i =>
      let ra := bits header 511 448 + 32 * r.2
      let t1 := a.1.unitBits c.vd who ((8 * ra + 64 + i : Nat) : Int) 1 1
      (t1.unitWrite c.vd who (bits header 319 256 + 4 * a.2) 4 (r.2 % 2 ^ 16 + (e % 256) <<< 16 + i <<< 24), a.2 + 1)) a
  ((c.tokensOf rows e).drop (limits.getD e 0)).foldl drop acc

/-- Step 4 of R407 for one expert: LIMIT and LOAD (R408). -/
def RouteCtx.closeLoad (c : RouteCtx) (rows : List Nat) (s : State) (e : Nat) : State :=
  let k := c.control (bits (s.unitRead c.vd (c.entryAt e) 32) 127 96) (c.tokensOf rows e).length
  s.unitWrite c.vd (agentPort c.port) (c.entryAt e + 10) 6 (k.2 + k.1 <<< 16)

/-- What a port reads at the close of a batch of `n` tokens: the header, the route rows and the experts' entries. -/
def State.closeReads (s : State) (c : RouteCtx) (n : Nat) : List (Nat × Nat) :=
  [(c.bkt, 64)] ++ (List.range n).map (fun t => (bits (s.unitRead c.vd c.bkt 64) 511 448 + 32 * t, 32)) ++
    (List.range c.nexp).map fun e => (c.entryAt e, 32)

/-- BATCH_CLOSE: every token received before the close has been scored; the batch closes (R407). Each of the
steps of the rule is taken for every expert before the next. -/
def execBatchClose (port : BitVec 3) (vd : BitVec 4) (s : State) : Result :=
  match s.route? port.toNat vd.toNat with
  | none => .next s
  | some c =>
    match c.closing, c.batch with
    | some n, some id =>
      let who := agentPort c.port
      let header := s.unitRead c.vd c.bkt 64
      let rows := (List.range n).map fun t => s.unitRead c.vd (bits header 511 448 + 32 * t) 32
      let es := List.range c.nexp
      let l := es.foldl (c.closeList rows) (es.foldl (c.closeDemand rows) (s.noteReads c.vd (s.closeReads c n)), [])
      let p := es.foldl (c.closeDrops header rows l.2) (l.1, 0)
      let s1 := (es.foldl (c.closeLoad rows) p.1).unitWrite c.vd who (c.bkt + 16) 8 (p.2 % 2 ^ 32 + n <<< 32)
      let s2 := s1.unitWrite c.vd who c.bkt 8 (id.toNat % 2 ^ 64)
      let s3 := s2.unitBits c.vd who ((8 * (c.bkt + 8) : Nat) : Int) 19 (c.d + c.ranks <<< 16)
      let s4 := s3.putRoute { c with batch := none, closing := none }
      let rel := clockPut [] who (clockGet s4.agents who)
      .next ((s4.signalTrain c.vd who (fld c.record 511 448) 1 (atFabric rel) none).getD (s4.noteWalk c.vd (fld c.record 511 448)))
    | _, _ => .next s

end Sys2Proof.Machine
end

