-- ==== Sys2Proof/Machine/Tolls.lean ====
section
/-! DEFINITION. Toll registers with their buckets, lend pools and windows, and the tokens that requests take (R395-R398,
R400). They decide when an action takes place, never what it does. -/

namespace Sys2Proof.Machine

/-! ### Toll windows (R396, R397) -/

/-- Units that a bucket gains in `n` cycles; what would lift it above DEPTH goes to the lend pool. -/
def Toll.gain (t : Toll) (n : Nat) : Toll × Nat :=
  let u := t.units + n * t.rate
  ({ t with units := min u (1024 * t.depth) }, u - 1024 * t.depth)

/-- A pending write takes effect; tokens above the new DEPTH go to the lend pool. -/
def Toll.turn (t : Toll) : Toll × Nat :=
  match t.pending with
  | some p => ({ t with rate := p.1, depth := p.2, pending := none, units := min t.units (1024 * p.2) }, t.units - 1024 * p.2)
  | none => (t, 0)

/-- Units go to a lend pool, which holds at most 1,024 tokens. -/
def addPool (ps : List Pool) (t : Toll) (n : Nat) : List Pool :=
  let old := ((ps.find? fun p => p.res == t.res && p.die == t.die && p.inst == t.inst).map Pool.units).getD 0
  { res := t.res, die := t.die, inst := t.inst, units := min (2 ^ 20) (old + n) } ::
    ps.filter fun p => !(p.res == t.res && p.die == t.die && p.inst == t.inst)

/-- The buckets of a die change by `g`, and what they give up goes to their lend pools. Cache ways have no bucket (R396). -/
def State.mapTolls (s : State) (die : Nat) (g : Toll → Toll × Nat) : State :=
  let step (acc : List Toll × List Pool) (t : Toll) : List Toll × List Pool :=
    if t.die != die then (acc.1 ++ [t], acc.2)
    else
      let r := g t
      (acc.1 ++ [r.1], if t.res == 1 || r.2 == 0 then acc.2 else addPool acc.2 t r.2)
  let p := s.tolls.foldl step ([], s.pools)
  { s with tolls := p.1, pools := p.2 }

/-- The present window of a die, where it began and up to where its buckets have gained. -/
def State.window (s : State) (die : Nat) : Nat × Nat := s.windows[die]?.getD (0, 0)

/-- The buckets of a die have gained RATE units for each cycle of the present window up to now (R397). -/
def State.accrue (s : State) (die : Nat) : State :=
  let w := s.window die
  let upTo_ := min (s.cycleOf die) (w.1 + 1024)
  { s.mapTolls die (fun t => if t.res == 1 then (t, 0) else t.gain (upTo_ - w.2)) with
    windows := s.windows.setIfInBounds die (w.1, max w.2 upTo_) }

/-- TOLL_WINDOW: the die's counter has reached the next multiple of 1,024. The buckets have gained their units, every pool is
emptied, and pending writes take effect (R396, R397). -/
def execTollWindow (die : BitVec 2) (s : State) : Result :=
  let d := die.toNat
  let w := s.window d
  if s.cycleOf d < w.1 + 1024 then .next s
  else
    let s1 := s.accrue d
    let s2 : State := { s1 with
      pools := s1.pools.filter fun p => p.die != d, windows := s1.windows.setIfInBounds d (w.1 + 1024, w.1 + 1024) }
    .next (s2.mapTolls d Toll.turn)

/-! ### Requests take tokens (R397, R398) -/

/-- A bucket of a virtual device at a controller or core. -/
def Toll.at (t : Toll) (vd res die inst : Nat) : Bool := t.vd == vd && t.res == res && t.die == die && t.inst == inst

/-- A lend pool of a controller or core. -/
def Pool.at (p : Pool) (res die inst : Nat) : Bool := p.res == res && p.die == die && p.inst == inst

/-- Does the device's own bucket hold a token? -/
def State.ownToken (s : State) (vd res die inst : Nat) : Bool :=
  s.tolls.any fun (t : Toll) => t.at vd res die inst && decide (1024 ≤ t.units)

/-- Does the lend pool hold a token? -/
def State.lentToken (s : State) (res die inst : Nat) : Bool :=
  s.pools.any fun (p : Pool) => p.at res die inst && decide (1024 ≤ p.units)

/-- A token is taken from the device's own bucket, else from the lend pool (R397). -/
def State.spendToken (s : State) (vd res die inst : Nat) : State :=
  { s with
    tolls := if s.ownToken vd res die inst then
        s.tolls.map fun (t : Toll) => if t.at vd res die inst then { t with units := t.units - 1024 } else t
      else s.tolls
    pools := if s.ownToken vd res die inst then s.pools
      else s.pools.map fun (p : Pool) => if p.at res die inst then { p with units := p.units - 1024 } else p }

/-- Has a bucket a token whatever its accrual adds? -/
def Toll.sure (t : Toll) (vd res die inst : Nat) : Bool :=
  t.at vd res die inst && decide (1024 ≤ t.units) && decide (1 ≤ t.depth)

/-- Does the own bucket of a strand's virtual device hold a token for a fetch (R358, R397)? A bucket that has a token before it
accrues has one after. -/
def State.owns (s : State) (st : Strand) : Bool :=
  let p := st.place
  s.tolls.any (fun (t : Toll) => t.sure st.vdid.toNat 0 p.die p.core) || (s.accrue p.die).ownToken st.vdid.toNat 0 p.die p.core

/-- Is there a token for a fetch of a strand, of its virtual device's own or of the lend pool (R358, R397, R398)? -/
def State.mayIssue (s : State) (st : Strand) : Bool := s.owns st || (s.accrue st.place.die).lentToken 0 st.place.die st.place.core

/-- A fetch of the focused strand takes its token. -/
def State.fetchToken (s : State) : State :=
  let p := s.me.place
  (s.accrue p.die).spendToken s.vd 0 p.die p.core

/-! ### The arbiters of controllers and ports (R398) -/

/-- A request takes tokens of its virtual device's own bucket. -/
def State.payOwn (s : State) (d : Due) : State × Due :=
  let units := ((s.tolls.find? fun (t : Toll) => t.at d.vd d.res d.die d.inst).map Toll.units).getD 0
  let n := min d.left (units / 1024)
  ({ s with tolls := s.tolls.map fun (t : Toll) => if t.at d.vd d.res d.die d.inst then { t with units := t.units - 1024 * n } else t },
   { d with left := d.left - n })

/-- A request takes tokens of the lend pool. -/
def State.payLent (s : State) (d : Due) : State × Due :=
  let units := ((s.pools.find? fun (p : Pool) => p.at d.res d.die d.inst).map Pool.units).getD 0
  let n := min d.left (units / 1024)
  ({ s with pools := s.pools.map fun (p : Pool) => if p.at d.res d.die d.inst then { p with units := p.units - 1024 * n } else p },
   { d with left := d.left - n })

/-- Requests take tokens in order of arrival. -/
def payAll (pay : State → Due → State × Due) (s : State) (ds : List Due) : State × List Due :=
  ds.foldl (fun acc d => ((pay acc.1 d).1, acc.2 ++ [(pay acc.1 d).2])) (s, [])

/-- The arbiters serve the requests that wait: those with tokens of their own first, then those whose bucket is empty from the
lend pools. A request that is still short of tokens waits on, and is never dropped (R397, R398). -/
def State.payDues (s : State) : State :=
  if s.dues.isEmpty then s
  else
    let own := payAll State.payOwn ((List.range 4).foldl State.accrue s) s.dues
    let lent := payAll State.payLent own.1 own.2
    { lent.1 with dues := lent.2.filter fun d => d.left != 0 }

end Sys2Proof.Machine
end

