-- ==== Sys2Proof/Machine/Caches.lean ====
section
/-! DEFINITION. The page walkers and TLBs (R262-R265), and the row of the caches (R266-R273). -/

namespace Sys2Proof.Machine

/-! ### Walks and TLBs (R262, R263, R265) -/

/-- Bits of the page that holds an address: the leaf's size where a walk finds one, else 64 KiB. -/
def State.pageLog (s : State) (vd : Nat) (va : Nat) : Nat := ((s.walk vd va).map Leaf.sizeLog).getD 16

/-- Does a miss lie in the page of a walk at its walker? -/
def Walk.covers (x w : Walk) : Bool :=
  w.die == x.die && w.cluster == x.cluster && w.vd == x.vd && w.va.toNat >>> x.sizeLog == x.va.toNat >>> x.sizeLog

/-- Walks in flight at a walker. -/
def State.inFlight (s : State) (die cluster : Nat) : Nat :=
  (s.walks.filter fun w => w.die == die && w.cluster == cluster && w.inFlight).length

/-- The entry of a cluster's L2 TLB that holds the page of a miss (R262). -/
def State.l2Entry? (s : State) (w : Walk) : Option TlbEntry :=
  s.tlb.find? fun e => e.die == w.die && e.cluster == w.cluster && e.core.isNone && e.vd == w.vd && w.va.toNat >>> e.sizeLog == e.page

/-- A TLB takes an entry; beyond its size the oldest entry leaves. -/
def addTlb (tlb : List TlbEntry) (e : TlbEntry) (size : Nat) : List TlbEntry :=
  let same (x : TlbEntry) : Bool := x.die == e.die && x.cluster == e.cluster && x.core == e.core
  let kept := tlb.filter fun x => !(same x && x.vd == e.vd && x.page == e.page && x.sizeLog == e.sizeLog)
  e :: (if (kept.filter same).length < size then kept
        else
          match (kept.filter same).getLast? with
          | some o => kept.erase o
          | none => kept)

/-- The first-level TLBs of the cores of the strands that missed take an entry (R262). -/
def State.fillCores (s : State) (sids : List Nat) (e : TlbEntry) : State :=
  let cores := ((s.strands.filter fun st =>
    sids.contains st.sid && st.issues && st.place.die == e.die && st.place.core / 4 == e.cluster).map fun st => st.place.core).dedup
  { s with tlb := cores.foldl (fun t c => addTlb t { e with core := some c } 128) s.tlb }

/-- A miss arrives at its cluster's walker (R262, R263). The L2 TLB may hold its page. Else it waits on the walk of its page, at
most 64 to one, and a 65th waits until that walk completes; or it starts a walk, or queues behind 16 in flight. One that arrives
after a walk has failed starts a new one. -/
def State.addMiss (s : State) (w : Walk) : State :=
  match s.l2Entry? w with
  | some e => s.fillCores w.sids e
  | none =>
    let open_ (x : Walk) : Bool := x.covers w && !x.late && !x.failed
    if s.walks.any open_ then
      if s.walks.any fun x => open_ x && decide (64 ≤ x.sids.length) then
        { s with walks := s.walks ++ [{ w with inFlight := false, late := true }] }
      else { s with walks := s.walks.map fun x => if open_ x then { x with sids := x.sids ++ w.sids } else x }
    else { s with walks := s.walks ++ [{ w with inFlight := decide (s.inFlight w.die w.cluster < 16) }] }

/-- An access of a resident strand at an address misses in its TLBs. -/
def State.tlbMiss (s : State) (sid : Nat) (va : Word) : State :=
  match s.strands.find? fun st => st.sid == sid && st.issues with
  | none => s
  | some st =>
    let vd := st.vdid.toNat
    s.addMiss { die := st.place.die, cluster := st.place.core / 4, vd := vd, va := va, sizeLog := s.pageLog vd va.toNat, sids := [sid] }

/-- The first queued walk of a walker goes into flight. -/
def startQueued (die cluster : Nat) : List Walk → List Walk
  | [] => []
  | w :: r =>
    if w.die == die && w.cluster == cluster && !w.inFlight && !w.late && !w.failed then { w with inFlight := true } :: r else w :: startQueued die cluster r

/-- The entries that a walk from a node reads, in order (R259, R261). -/
def walkEntries (s : State) (va : Nat) : List (Nat × Nat × Nat × Bool × Bool) → Nat → List Nat
  | [], _ => []
  | (lo, n, nextLog, _, mustLeaf) :: rest, node =>
    let ea := node + 8 * (bits va (lo + n - 1) lo)
    let e := memRead s.mem ea 8
    let off := (bits e 43 8) <<< 8
    if nearSize ≤ ea then []
    else if s.memPoison.contains (ea / 32) || !bit e 0 || bit e 1 || bits e 63 44 != 0 || bits e 7 2 != 0 || mustLeaf || off % 2 ^ nextLog != 0 then [ea]
    else ea :: walkEntries s va rest off

/-- A walk reads its entries through the L2 of their homes (R262). -/
def State.walkReads (s : State) (vd va : Nat) : State :=
  match s.vdev? vd with
  | some d => (walkEntries s va walkLevels d.root).foldl (fun (u : State) ea => u.reach none { line := ea / 128, vd := vd }) s
  | none => s

/-- WALK_COMPLETE: the oldest walk in flight at a walker ends. A walk that finds a page fills the cluster's L2 TLB and the
first-level TLBs of the cores that wait; one that fails leaves no entry, gives its fault to every miss that waits on it, and
notifies the Steward of a poisoned entry. Misses that waited beyond the 64 then look up the L2 TLB (R261-R263). -/
def execWalkComplete (die : BitVec 2) (cluster : BitVec 4) (s : State) : Result :=
  match s.walks.find? fun w => w.die == die.toNat && w.cluster == cluster.toNat && w.inFlight with
  | none => .next s
  | some w =>
    let s := s.walkReads w.vd w.va.toNat
    let waiting (x : Walk) : Bool := x.late && w.covers x
    let late := s.walks.filter waiting
    let left := startQueued w.die w.cluster ((s.walks.erase w).filter fun x => !waiting x)
    let s1 := match s.walk w.vd w.va.toNat with
      | none => { s.noteWalk w.vd w.va.toNat with walks := left ++ [{ w with inFlight := false, failed := true }] }
      | some l =>
        let e : TlbEntry := {
          die := w.die, cluster := w.cluster, vd := w.vd, page := w.va.toNat >>> l.sizeLog, sizeLog := l.sizeLog
          pa := l.base, perm := b2n l.rd + 2 * b2n l.wr + 4 * b2n l.ex }
        State.fillCores { s with walks := left, tlb := addTlb s.tlb e 4096 } w.sids e
    .next (late.foldl (fun t x => t.addMiss { x with late := false, sizeLog := t.pageLog x.vd x.va.toNat }) s1)

/-- TLB_INVALIDATE completes: every TLB of the device has dropped the page, of whatever size, and what waited on a walk in it
that failed looks again. Every access translates in the step that performs it, so none that went through the old entry is still
to be performed (R265). -/
def execTlbInvalidate (vd : BitVec 4) (va : Word) (s : State) : Result :=
  let dropped (e : TlbEntry) : Bool := e.vd == vd.toNat && va.toNat >>> e.sizeLog == e.page
  let size := ((s.tlb.filter dropped).map TlbEntry.sizeLog).foldl max (s.pageLog vd.toNat va.toNat)
  let inPage (w : Walk) : Bool :=
    w.failed && w.vd == vd.toNat && w.va.toNat >>> max size w.sizeLog == va.toNat >>> max size w.sizeLog
  .next { s with tlb := s.tlb.filter fun e => !dropped e, walks := s.walks.filter fun w => !inPage w }

/-- The Steward names the root of a page table (R259). -/
def State.setRoot (s : State) (vd root : Nat) : State :=
  match s.vdev? vd with
  | some d => s.setVdev { d with root := root }
  | none => s

/-- The Steward writes a page-table entry (R265). It clears no taint (R387). -/
def State.setPageEntry (s : State) (pa : Nat) (v : Word) : State :=
  if decide (nearSize ≤ pa) || pa % 8 != 0 then s
  else
    let k := 8 * (pa % 32)
    s.writeGranule agentSteward false { granule := pa / 32, mask := (2 ^ 64 - 1) <<< k, data := v.toNat <<< k, taint := false, poison := false }

/-! ### Fills (R268, R273, R398) -/

/-- Does a fill of an L2 still wait for tokens of its controller (R398)? -/
def State.unpaid (s : State) (p : Fill) : Bool := p.level2 && s.dues.any fun d => d.fill == some p.line

/-- A line arrives at its cache (R268, R273): a prefetch fill that meets an eviction is dropped and counted; a demand fill that
meets one tries again later. One that waits for tokens has not come. The counters of dropped fills are those of L2 slices (R425): a
prefetch that an L1 drops is counted nowhere (DESIGN CHOICE, log entry 134). -/
def State.arrive (s : State) (k : Nat) (evicting : Bool) : State :=
  match s.fills[k]? with
  | none => s
  | some p =>
    let s1 : State := { s with fills := s.fills.eraseIdx k }
    if s.unpaid p then s
    else if s.lines.any (s.holdsLine p) then s1.meet p
    else if evicting then
      if !p.prefetch then s else if p.level2 then s1.dropFill p.die p.unit else s1
    else
      match fillAge? p, s.slotFor p with
      | some age, some slot =>
        s1.placeLine p age slot
      | _, _ => s1

/-- CACHE_FILL (R266-R273): a line that an access has asked for arrives at its cache. -/
def execCacheFill (p : FillReq) (s : State) : Result := .next (s.arrive p.index p.evicting)

end Sys2Proof.Machine
end

