-- ==== Sys2Proof/Machine/Sha3.lean ====
section
/-! DEFINITION. SHA3-512, by which the boot ROM measures the firmware image and the device its report (R423, R428). The spec
names the function; its steps are those of FIPS 202, which defines it (log entry 83). Rotations and round constants are
computed by the rules of that standard, the walk through the lanes and the shift register. -/

namespace Sys2Proof.Machine

/-- The state of the permutation: 25 lanes of 64 bits, the one of column x and row y at place x + 5 y. -/
abbrev Lanes := List (BitVec 64)

def Lanes.at (a : Lanes) (place : Nat) : BitVec 64 := a.getD place 0

/-- The parity of a column. -/
def Lanes.parity (a : Lanes) (x : Nat) : BitVec 64 := (List.range 5).foldl (fun p y => p ^^^ a.at (x % 5 + 5 * y)) 0

/-- θ: the parities of the columns beside it go into every lane. -/
def Lanes.diffuse (a : Lanes) : Lanes :=
  let mix := (List.range 5).map fun x => a.parity (x + 4) ^^^ (a.parity (x + 1)).rotateLeft 1
  a.zipIdx.map fun p => p.1 ^^^ mix.getD (p.2 % 5) 0

/-- The walk (x, y) ↦ (y, 2 x + 3 y) through the lanes, by places: where each stretch begins and ends. -/
def laneWalk : Nat → Nat → Nat → List (Nat × Nat)
  | 0, _, _ => []
  | n + 1, x, y => (x + 5 * y, y + 5 * ((2 * x + 3 * y) % 5)) :: laneWalk n y ((2 * x + 3 * y) % 5)

/-- ρ and π: each lane but the first goes one stretch along the walk, turned by the next triangular number. -/
def Lanes.disperse (a : Lanes) : Lanes :=
  (laneWalk 24 1 0).zipIdx.foldl (fun b p => b.set p.1.2 ((a.at p.1.1).rotateLeft ((p.2 + 1) * (p.2 + 2) / 2 % 64))) a

/-- χ: each lane takes the next one of its row off the one after it. -/
def Lanes.combine (a : Lanes) : Lanes :=
  a.zipIdx.map fun p =>
    let row := p.2 - p.2 % 5
    p.1 ^^^ (a.at (row + (p.2 + 2) % 5) &&& ~~~a.at (row + (p.2 + 1) % 5))

/-- The shift register that feeds the round constants, after one move. -/
def shifted (r : BitVec 8) : BitVec 8 := if r.msb then (r <<< 1) ^^^ 0x71 else r <<< 1

/-- ι: bits 2^j - 1 of the first lane change where the register, moved on j times, ends in 1. It answers the register after
seven moves. -/
def roundBits : Nat → BitVec 8 → BitVec 64 × BitVec 8
  | 0, r => (0, r)
  | n + 1, r =>
    let rest := roundBits n (shifted r)
    (rest.1 ||| (if r.getLsbD 0 then 1#64 <<< (2 ^ (6 - n) - 1) else 0), rest.2)

/-- So many rounds, from a place in the shift register. -/
def rounds : Nat → BitVec 8 → Lanes → Lanes
  | 0, _, a => a
  | n + 1, r, a =>
    let b := a.diffuse.disperse.combine
    let c := roundBits 7 r
    rounds n c.2 (b.set 0 (b.at 0 ^^^ c.1))

/-- A block of 72 bytes joins the first nine lanes. -/
def Lanes.join (a : Lanes) (block : List Byte) : Lanes :=
  a.zipIdx.map fun p =>
    p.1 ^^^ BitVec.ofNat 64 (((block.drop (8 * p.2)).take 8).foldr (fun b n => b.toNat + 256 * n) 0)

/-- So many blocks of a padded message, each followed by the permutation. -/
def absorbed : Nat → List Byte → Lanes → Lanes
  | 0, _, a => a
  | n + 1, m, a => absorbed n (m.drop 72) (rounds 24 1 (a.join (m.take 72)))

/-- What follows a message: the two bits that mark SHA3 and the first and last bit of the padding. -/
def sha3Padding (size : Nat) : List Byte :=
  let zeros : List Byte := List.replicate (71 - size % 72) 0
  ((0x06 :: zeros).set (71 - size % 72) ((0x06 :: zeros).getD (71 - size % 72) 0 ||| 0x80))

/-- SHA3-512 of a byte string, the first byte of the digest in the low bits. -/
def sha3of512 (m : List Byte) : BitVec 512 :=
  let last := absorbed (m.length / 72 + 1) (m ++ sha3Padding m.length) (List.replicate 25 0)
  BitVec.ofNat 512 ((last.take 8).foldr (fun x n => x.toNat + 2 ^ 64 * n) 0)

end Sys2Proof.Machine
end

