-- ==== Sys2Proof/Machine/Steward.lean ====
section
/-! DEFINITION. Errors and repair (R275, R276, R405, R429, R430), the Steward's privilege levels (R422), loss of the firmware
and reset (R423), Toll windows (R396, R397), power (R431, R432) and Restart Stagger (R433). -/

namespace Sys2Proof.Machine

/-! ### Uncorrectable and corrected errors -/

/-- `n` words of 64 free bits; the count of free values goes on. -/
def State.freeBits (s : State) (n : Nat) : Nat × State :=
  (packElems 64 ((List.range n).map fun i => (Config.freeValue (s.free + i)).toNat), { s with free := s.free + n })

/-- An uncorrectable error poisons a granule; its bits are whatever the error leaves (R275). -/
def State.hitGranule (s : State) (g : Nat) : State :=
  let x := s.freeBits 4
  { x.2 with mem := memWrite x.2.mem (32 * g) 32 x.1, memPoison := setMember x.2.memPoison g true }

/-- An error in a general register (R42, R429). -/
def Strand.hitG (reg x : Nat) (st : Strand) : Strand :=
  if reg == 0 then st else { st with g := st.g.setIfInBounds reg { st.getG reg with val := BitVec.ofNat 64 x, poison := true } }

/-- An error in a row of an array register. -/
def Strand.hitV (reg row x : Nat) (st : Strand) : Strand :=
  if row < st.grows then
    let v := st.getV reg
    let v1 : VReg := { v with buf := setBits v.buf (2048 * row + 2047) (2048 * row) x, poison := v.poison ||| 2 ^ row }
    { st with v := st.v.setIfInBounds reg v1 }
  else st

/-- An error in a row of an accumulator tile, whose value is then open (R88). -/
def Strand.hitZ (tile row x : Nat) (st : Strand) : Strand :=
  if row < 192 then
    let z := st.getZ tile
    let z1 : Tile := { z with buf := setBits z.buf (8192 * row + 8191) (8192 * row) x, poison := z.poison ||| 2 ^ row }
    { st with z := st.z.setIfInBounds tile z1 }
  else st

/-- A gate line of 32 weights with an error is fetched again from GWT's memory (R405); the Steward hears of a poisoned page-table
entry that the refetch meets (R261). -/
def State.hitGate (s : State) (port vd expert line : Nat) : State :=
  match s.route? port vd with
  | none => s
  | some c =>
    let fix (c : RouteCtx) (j : Nat) : RouteCtx :=
      let i := expert * c.d + j
      match c.readGate s expert j with
      | .ok x => { c with mant := c.mant.set i x.1, scale := c.scale.set i x.2.1, poison := c.poison.set i x.2.2 }
      | .error _ => { c with poison := c.poison.set i true }
    let js := (upTo (32 * line) (32 * line + 32)).filter fun j => decide (j < c.d) && decide (expert < c.nexp)
    (js.foldl (fun (u : State) j => u.noteR vd (c.readGate s expert j)) s).putRoute (js.foldl fix c)

/-- Every virtual device's interface enters ERROR, all work is cancelled, and the boot ROM waits for an image (R423). -/
def State.loseFirmware (s : State) : State :=
  let s1 : State := { s with
    vds := s.vds.map fun d => { d with iface := IFace.error }
    counters := s.counters.map fun c => { c with cancelled := true }
    stewards := s.stewards.map fun c => { c with cpu := { c.cpu with status := .idle } }
    serials := [], firmware := .waiting, imageLen := 0 }
  s1.settleAll ((s1.launches.filter fun l => !l.state.final).map fun l => .cancel l.lid 1 0)

/-- UNCORRECTABLE_ERROR (R275, R334, R405, R429). -/
def execUncorrectableError (t : ErrTarget) (s : State) : Result :=
  match t with
  | .granules first count => .next ((upTo first (first + count)).foldl State.hitGranule s)
  | .generalReg sid reg =>
    let x := s.freeBits 1
    .next (x.2.mapStrands (fun st => st.sid == sid) (Strand.hitG reg x.1))
  | .arrayRow sid reg row =>
    let x := s.freeBits 32
    .next (x.2.mapStrands (fun st => st.sid == sid) (Strand.hitV reg row x.1))
  | .tileRow sid tile row =>
    let x := s.freeBits 128
    .next (x.2.mapStrands (fun st => st.sid == sid) (Strand.hitZ tile row x.1))
  | .tlbEntry index => .next { s with tlb := s.tlb.eraseIdx index }
  | .planeColumn lid die cluster slot column => .next (s.parityRefetch lid die cluster slot column)
  | .gateLine port vd expert line => .next (s.hitGate port vd expert line)
  | .firmware => .next s.loseFirmware

/-- CORRECTED_ERROR: the correction is counted, and nothing else changes (R276, R429). -/
def execCorrectedError (die : BitVec 2) (unit : Nat) (s : State) : Result :=
  if unit < 140 then .next (s.countCorrection die.toNat unit) else .next s

/-! ### Field repair (R430) -/

def State.putUnit (s : State) (u : UnitInfo) : State :=
  { s with units := u :: s.units.filter fun x => !(x.die == u.die && x.unit == u.unit) }

/-- Strands that must leave before a unit is replaced are asked to stop, as victims are (R375, R430). -/
def State.askToLeave (s : State) (p : Strand → Bool) : State :=
  s.mapStrands (fun st => p st && st.resident && st.preempt.isNone && st.status != .cancelled) fun st => { st with preempt := some 0 }

/-- Is a unit one of its die's spares: a core from 64 to 67, or engine 16 (R429)? -/
def isSpare (unit : Nat) : Bool := decide (64 ≤ unit) && decide (unit < 68) || unit == 84

/-- The place of a core or engine that a unit serves: its own, or the one that it has taken as a spare; none where a spare has
its place, or where it is a spare in reserve. -/
def State.placeOf? (s : State) (die unit : Nat) : Option Nat :=
  if isSpare unit then (s.units.find? fun v => v.die == die && v.spare == some unit).map UnitInfo.unit
  else if (s.unitInfo die unit).spare.isNone then some unit else none

/-- The lowest spare in reserve of the kind that a place takes. -/
def State.reserve? (s : State) (die place : Nat) : Option Nat :=
  (if place < 68 then [64, 65, 66, 67] else [84]).find? fun x =>
    !s.fenced die x && !s.units.any fun v => v.die == die && v.spare == some x

/-- A spare takes a place; with none left the place is fenced off. A spare that had served the place is not used again. Its
cluster waits to be enabled (R430, R431). -/
def State.takeSpare (s : State) (die place cluster : Nat) : State :=
  let v := s.unitInfo die place
  let s1 := match v.spare with
    | some x => s.putUnit { s.unitInfo die x with fenced := true }
    | none => s
  let s2 : State := { s1 with
    clusters := s.clusters.filter fun c => c != (die, cluster)
    lastEnable := s.lastEnable.setIfInBounds die (s.cycleOf die) }
  match s.reserve? die place with
  | some x => s2.putUnit { v with spare := some x }
  | none => s2.putUnit { v with fenced := true }

/-- Boot applies the fused repair map: a spare core for a core, the spare engine for an engine, each of them once (R430). -/
def State.applyRepairs (s : State) (es : List (Nat × Nat × Nat)) : State :=
  es.foldl (fun (t : State) e =>
    let fits := decide (e.1 < 4) && !isSpare e.2.1 && decide (e.2.1 < 84) && isSpare e.2.2 && (decide (e.2.1 < 64) == decide (e.2.2 < 68))
    let fresh := (t.unitInfo e.1 e.2.1).spare.isNone && !t.units.any fun v => v.die == e.1 && v.spare == some e.2.2
    if fits && fresh then t.putUnit { t.unitInfo e.1 e.2.1 with spare := some e.2.2 } else t) s

/-- FIELD_REPAIR: a unit whose count has crossed its threshold (R430). The strands of a core, and those of every launch
that holds an engine, park first. A row, column or channel of memory is remapped while the unit has spares for it. -/
def execFieldRepair (die : BitVec 2) (unit : Nat) (s : State) : Result :=
  let d := die.toNat
  let u := s.unitInfo d unit
  if decide (140 ≤ unit) || u.fenced || decide (u.count.toNat ≤ Config.correctionThreshold d unit u.used) then .next s
  else if 85 ≤ unit then
    .next (s.putUnit (if u.used < Config.storageSpares d unit then { u with used := u.used + 1 } else { u with fenced := true }))
  else
    match s.placeOf? d unit with
    | none => .next (if isSpare unit then s.putUnit { u with fenced := true } else s)
    | some p =>
      if p < 68 then
        .next ((s.askToLeave fun st => st.place.die == d && st.place.core == p).takeSpare d p (p / 4))
      else
        let cluster := p - 68
        let holds (st : Strand) : Bool :=
          st.place.die == d && st.place.core / 4 == cluster &&
            s.reservations.any fun r => r.isOf st.launch.toNat d cluster && !r.taken
        if s.strands.any fun st => holds st && st.resident then .next (s.askToLeave holds)
        else
          let take (r : Reservation) : Reservation := if r.die == d && r.cluster == cluster then { r with taken := true } else r
          .next (State.takeSpare { s with reservations := s.reservations.map take } d p cluster)

/-! ### Privilege of the Steward (R422) -/

/-- Do the regions of a plug-in permit an access? -/
def VDev.pluginMay (d : VDev) (a : PluginAccess) : Bool :=
  d.regions.toList.any fun r => decide (r.base.toNat ≤ a.addr.toNat) && decide (a.addr.toNat < r.limit.toNat) && (r.perm &&& a.perm) == a.perm

/-- Do the regions of a plug-in permit each of `n` bytes from an address? -/
def VDev.pluginRange (d : VDev) (a n : Nat) (perm : BitVec 3) : Bool :=
  (upTo a (a + n)).all fun i => decide (i < 2 ^ 64) && d.pluginMay { addr := BitVec.ofNat 64 i, perm := perm }

/-- The monitor sets a region of a tenant's plug-in (R422). -/
def State.setRegion (s : State) (vd n : Nat) (r : Region) : State :=
  match s.vdev? vd with
  | some d => s.setVdev { d with regions := d.regions.setIfInBounds n r }
  | none => s

/-- A plug-in that takes PRIV is stopped, on every processor that runs it, and its virtual device's interface enters ERROR
(R422, R427). -/
def State.stopPlugin (s : State) (d : VDev) : State :=
  let s1 : State := { s with
    stewards := s.stewards.map fun c =>
      if c.level == 2 && c.tenant == d.vdid then { c with cpu := { c.cpu with status := .idle } } else c }
  (s1.setVdev { d with pluginStopped := true }).ifaceError d.vdid

/-- PRIV goes to level 0: the monitor is told the level of the processor and the level that its act needs. A plug-in that takes
it is stopped (R422). -/
def State.raisePriv (s : State) (d : Option VDev) (level need : Nat) : State :=
  let s1 : State := { s with privs := s.privs ++ [(level, need)] }
  match d with
  | some d => if level == 2 && !d.pluginStopped then s1.stopPlugin d else s1
  | none => s1

/-- PRIV: a Steward processor at a level needs a lower level for its act, or its plug-in reaches outside its regions (R422,
R427). -/
def execPriv (vd : Option (BitVec 4)) (level need : BitVec 2) (access : Option PluginAccess) (s : State) : Result :=
  let d := vd.bind fun v => s.vdev? v.toNat
  let outside := level == 2 && ((access.bind fun a => d.map fun d => !d.pluginMay a).getD false)
  .next (if decide (need.toNat < level.toNat) || outside then s.raisePriv d level.toNat need.toNat else s)

/-- The monitor lets a processor run from an address at a level. A plug-in that has been stopped does not run. -/
def State.stewardStart (s : State) (n level tenant : Nat) (pc : Word) : State :=
  let stopped := level == 2 && ((s.vdev? tenant).map VDev.pluginStopped).getD true
  if s.firmware != .running || 2 < level || stopped then s
  else
    let go (c : StewardCpu) : StewardCpu :=
      { level := level, tenant := tenant, cpu := { c.cpu with status := .running, vdid := BitVec.ofNat 4 tenant, pc := pc, physical := decide (level < 2) } }
    { s with stewards := s.stewards.setIfInBounds n (go (s.stewards[n]?.getD {})) }

/-- What a scalar word reaches in memory beside its own fetch: first and last byte, and the permission (R165, R176, R177). -/
def Strand.scalarReach (st : Strand) (op : Nat) (f : Fields) : Option (Nat × Nat × BitVec 3) :=
  let ea := ((st.getG f.a.toNat).val + f.imm.signExtend 64).toNat
  let sp := (st.getG 31).val
  if !st.guard f.gs then none
  else
    match op with
    | 0x23 => some (ea, ea + 2 ^ bits f.fn.toNat 1 0 - 1, 1)
    | 0x24 => some (ea, ea + 2 ^ bits f.fn.toNat 1 0 - 1, 2)
    | 0x33 => some ((sp - 16).toNat, (sp - 16).toNat + 15, 2)
    | 0x34 => some (sp.toNat, sp.toNat + 15, 1)
    | _ => none

/-- Does the fetch of a plug-in stay within its regions (execute, bit 2)? -/
def VDev.pluginFetches (d : VDev) (st : Strand) : Bool := d.pluginRange st.pc.toNat 16 4

/-- Does what a word of a plug-in reads (bit 0) or writes (bit 1) stay within its regions (R422)? -/
def VDev.pluginStays (d : VDev) (st : Strand) (w : BitVec 128) : Bool :=
  match st.scalarReach (opOf w).toNat (fieldsOf w) with
  | some r => d.pluginRange r.1 (r.2.1 + 1 - r.1) r.2.2
  | none => true

/-! ### Firmware loss and reset (R423) -/

/-- FIRMWARE_LOSS: a monitor fault, or an uncorrectable error in the image (R423). -/
def execFirmwareLoss (s : State) : Result :=
  if s.firmware == .running then .next s.loseFirmware else .next s

/-- POWER_UP_RESET: the boot ROM waits for a firmware image through any port (R423). What is still to come stays. -/
def execPowerUpReset (s : State) : Result := .next { State.reset with agenda := s.agenda, free := s.free }

/-! ### Power (R431, R432) -/

/-- SLEW_WINDOW: a window of 1,024 cycles of die 0 has passed. Its estimated power stays within SLOPE of the window before.
Rising power withholds fetch slots, at most 56 of 64; falling power runs ballast (R432). -/
def execSlewWindow (s : State) : Result :=
  if s.cycleOf 0 < s.slewAt + 1024 then .next s
  else
    let want := Config.windowPower s.free
    let hi := s.power + s.slope.toNat
    let lo := s.power - s.slope.toNat
    .next { s with
      power := max lo (min hi want)
      slewAt := s.slewAt + 1024
      withheld := if hi < want then (Config.freeValue s.free).toNat % 57 else 0
      ballast := lo - want
      free := s.free + 1 }

/-- CLUSTER_ENABLE: the next cluster, die 0 first, 256 cycles of its die after the one before (R431). -/
def execClusterEnable (s : State) : Result :=
  match (List.range 64).find? fun i => !s.clusters.contains (i / 16, i % 16) with
  | none => .next s
  | some i =>
    let d := i / 16
    if s.cycleOf d < s.lastEnable[d]?.getD 0 + 256 then .next s
    else
      let s1 : State := { s with
        clusters := s.clusters ++ [(d, i % 16)], lastEnable := s.lastEnable.setIfInBounds d (s.cycleOf d) }
      let done := (List.range 16).all fun c => s1.clusters.contains (d, c)
      .next (if done then { s1 with lastEnable := s1.lastEnable.setIfInBounds (d + 1) (s1.cycleOf (d + 1)) } else s1)

/-! ### Restart Stagger (R433) -/

/-- The job's next phase: the one after the last that a launch of the job has begun, where a job is the one whose counter stands
and not one of its number before (R25, R433). -/
def State.nextPhase (s : State) (vd job : Nat) : Nat :=
  match s.counter? .job vd job 0 with
  | none => 0
  | some c =>
    (s.launches.filter fun l =>
      l.vd == vd && l.job == job && l.queue < 16 && l.placed != 0 && decide (c.born ≤ l.lid)).foldl (fun n l => max n (l.phase + 1)) 0

/-- RESTART_STAGGER: the Dispatchers of every die hold the job's next phase; a later message before it starts replaces T. Before the
firmware runs no port takes it (R423). -/
def execRestartStagger (vd : BitVec 4) (job : BitVec 32) (t : BitVec 16) (s : State) : Result :=
  let v := vd.toNat
  let j := job.toNat
  let n := s.nextPhase v j
  let hold (die : Nat) : Hold :=
    let old := s.holds.find? fun h => h.vd == v && h.job == j && h.die == die && h.phase == n
    { vd := v, job := j, die := die, phase := n, t := t.toNat, since := (old.map Hold.since).getD (s.cycleOf die) }
  s.ifOpen <| .next { s with holds := (List.range 4).map hold ++ s.holds.filter fun h => !(h.vd == v && h.job == j && h.phase == n) }

/-- The cycle of its die from which a hold counts: the completion of the phase before, or for phase 0 its message; none
while that phase runs. -/
def State.holdFrom (s : State) (h : Hold) : Option Nat :=
  if h.phase == 0 then some h.since
  else
    match s.counter? .phase h.vd (h.phase - 1) h.job with
    | some c => if c.completed then some (c.ended.getD h.die 0) else none
    | none => none

/-- STAGGER_EXPIRE: rank × T cycles of the die have passed since the completion of the current phase on it (R433). -/
def execStaggerExpire (vd : BitVec 4) (job : BitVec 32) (die : BitVec 2) (s : State) : Result :=
  let rank := ((s.vdev? vd.toNat).map VDev.rank).getD 0
  let due (h : Hold) : Bool :=
    h.vd == vd.toNat && h.job == job.toNat && h.die == die.toNat &&
      ((s.holdFrom h).map fun n => decide (n + rank * h.t ≤ s.cycleOf h.die)).getD false
  .next { s with holds := s.holds.filter fun h => !due h }

end Sys2Proof.Machine
end

