-- ==== Sys2Proof/Machine/Commands.lean ====
section
/-! DEFINITION. The commands of hosts (R421, R423-R428): each row acts on the messages that carry its code, and answers them. -/

namespace Sys2Proof.Machine

/-! ### The payload and its answer (R416, R425) -/

def Cmd.code (m : Cmd) : Nat := fld m.payload 15 0
def Cmd.tvd (m : Cmd) : Nat := fld m.payload 19 16
def Cmd.arg (m : Cmd) (k : Nat) : Nat := fld m.payload (191 + 64 * k) (128 + 64 * k)

/-- Bits 127:20 are zero, operands from the `n`-th on are 0, and TVD is 0 but for commands 0x01 and 0x02 (R425). -/
def Cmd.plain (m : Cmd) (n : Nat) : Bool :=
  fld m.payload 127 20 == 0 && ((upTo n 6).all fun k => Cmd.arg m k == 0) && (Cmd.tvd m == 0 || Cmd.code m == 1 || Cmd.code m == 2)

/-- Three operands that name an endpoint (R425). -/
def Cmd.endpoint (m : Cmd) (k : Nat) : Endpoint :=
  { addr := BitVec.ofNat 128 (Cmd.arg m k + Cmd.arg m (k + 1) <<< 64), job := BitVec.ofNat 24 (bits (Cmd.arg m (k + 2)) 23 0)
    pid := BitVec.ofNat 12 (bits (Cmd.arg m (k + 2)) 35 24) }

/-- The ANSWER to a command (R416, R425). -/
def State.answer (s : State) (m : Cmd) (status : Nat) (payload : List Byte) : State :=
  s.send (.host m.sender
    (msgHeader 0x83 m.die.toNat m.vdid.toNat 0 payload.length m.tag.toNat (status % 256 + (Cmd.code m) <<< 8)) payload)

/-- A refusal: its status, and what the Steward is notified of, where a poisoned page-table entry kept it from a read (R261). -/
abbrev Stop := Nat × List (Nat × Nat)

/-- What a command does: a state and result bytes, or its refusal. -/
abbrev CmdR := Except Stop (State × List Byte)

/-- Refuse with a status. -/
def refuse {α : Type} (status : Nat) : Except Stop α := .error (status, [])

/-- Refuse because a read has ended with a fault (R425). -/
def State.unread {α : Type} (s : State) (vd : Nat) (x : Flt) : Except Stop α := .error (2, s.fltNote vd x)

/-- Continue only when the condition holds, else refuse with a status. -/
def demand (c : Bool) (status : Nat) : Except Stop Unit := if c then .ok () else refuse status

/-- A command is carried out, or refused without effect; either way it is answered (R424, R425). -/
def State.conclude (s : State) (m : Cmd) (r : CmdR) : Result :=
  match r with
  | .ok p => .next (p.1.answer m 0 p.2)
  | .error st => .next (State.answer { s with poisonedWalks := s.poisonedWalks ++ st.2 } m st.1 [])

/-- A message of row `mine` goes on to `body`; another known code is another row's; an unknown code answers 4. Until the
firmware runs the boot ROM takes VDID 0 and DIE 0 alone, and refuses all but BOOT (R423-R425). -/
def commandRow (m : Cmd) (s : State) (mine : Bool) (body : CmdR) : Result :=
  let known := decide (1 ≤ Cmd.code m) && decide (Cmd.code m ≤ 0x10)
  if known && !mine then .next s
  else if (s.firmware == .waiting && (m.vdid != 0 || m.die != 0)) || !s.assocOk m.vdid.toNat m.sender m.sa then
    .next (s.discard m.port.toNat)
  else if !known then s.conclude m (refuse 4)
  else if s.firmware == .waiting then s.conclude m (refuse 1)
  else s.conclude m body

/-- The virtual device that the message names, where the sender is its tenant (R425). -/
def State.tenantOf (s : State) (m : Cmd) : Except Stop VDev :=
  match s.vdev? m.vdid.toNat with
  | some d => if d.tenant == m.sender then .ok d else refuse 3
  | none => refuse 3

/-- A command of the owner, over the security association over which BOOT arrived (R425). -/
def State.fromOwner (s : State) (m : Cmd) : Except Stop Unit :=
  demand (m.sender == s.owner && (s.ownerSa.map fun a => a == m.sa).getD true) 3

/-! ### 0x01, 0x02: virtual devices (R424-R426) -/

/-- Every launch of a virtual device is final. -/
def State.allFinal (s : State) (vd : Nat) : Bool := s.launches.all fun l => l.vd != vd || l.state.final

/-- Every job is final: completed, or cancelled with its launches ended. -/
def State.jobsFinal (s : State) (vd : Nat) : Bool :=
  s.allFinal vd && s.counters.all fun c => c.vd != vd || c.level != .job || c.cancelled

def execCreateVd (m : Cmd) (s : State) : Result :=
  commandRow m s (Cmd.code m == 0x01) (do
    s.fromOwner m
    demand (s.vdev? (Cmd.tvd m)).isNone 1
    demand (Cmd.plain m 5 && decide (Cmd.arg m 0 ≤ 256) && decide (Cmd.arg m 1 ≤ Config.farGiB) && decide (Cmd.arg m 4 < 2 ^ 36)) 2
    let d : VDev := {
      vdid := Cmd.tvd m, tenant := Cmd.endpoint m 2, nearGiB := Cmd.arg m 0, farGiB := Cmd.arg m 1, root := nearSize }
    return ({ s with vds := s.vds ++ [d] }, []))

/-- Nothing of a virtual device stays. -/
def State.forgetVd (s : State) (vd : Nat) : State :=
  { s with
    vds := s.vds.filter fun d => d.vdid != vd
    tolls := s.tolls.filter fun t => t.vd != vd
    routes := s.routes.filter fun r => r.vd != vd
    ways := s.ways.filter fun w => fld w.2.2 155 152 != vd
    batches := s.batches.filter fun b => b.vd != vd
    launches := s.launches.filter fun l => l.vd != vd
    counters := s.counters.filter fun c => c.vd != vd
    cancels := s.cancels.filter fun c => c.vd != vd
    committed := s.committed.filter fun c => c.vd != vd
    serials := s.serials.filter fun x => x.vd != vd
    holds := s.holds.filter fun h => h.vd != vd
    trains := s.trains.filter fun t => t.vd != vd
    assocs := s.assocs.filter fun a => a.vd != vd
    walks := s.walks.filter fun w => w.vd != vd
    tlb := s.tlb.filter fun e => e.vd != vd
    rest := s.rest.filter fun st => !(st.vdid.toNat == vd && st.status == .finished) }

def execDestroyVd (m : Cmd) (s : State) : Result :=
  commandRow m s (Cmd.code m == 0x02) (do
    s.fromOwner m
    match s.vdev? (Cmd.tvd m) with
    | none => refuse 2
    | some d =>
      demand ((d.iface == .unlocked || d.iface == .error) && s.jobsFinal d.vdid) 1
      demand (Cmd.plain m 0) 2
      return (s.forgetVd d.vdid, []))

/-! ### 0x03-0x05: the interface (R417, R424, R425, R427) -/

/-- Queue `i` of the table, read with its descriptor: an empty one for address 0; R425 refuses others. -/
def State.readQueue (s : State) (vd table i : Nat) : Except Stop Queue :=
  let a := bits table (64 * i + 63) (64 * i)
  if a == 0 then .ok {}
  else
    match s.readHome vd .rd (8 * (a : Int)) 512 with
    | .error x => s.unread vd x
    | .ok x =>
      let q : Queue := {
        addr := BitVec.ofNat 64 a, desc := BitVec.ofNat 512 x.1, head := BitVec.ofNat 32 (bits x.1 383 352)
        ntail := BitVec.ofNat 32 (bits x.1 351 320), lim := BitVec.ofNat 32 (bits x.1 383 352) }
      if bits x.1 263 258 == 0 && bits x.1 255 0 == 0 && q.lring % 128 == 0 && q.nring % 32 == 0 then .ok q else refuse 2

/-- LOCK fixes the queue descriptors and the notice routing (R424, R425, R427). The kick registers keep their values. -/
def execLock (m : Cmd) (s : State) : Result :=
  commandRow m s (Cmd.code m == 0x03) (do
    let d ← s.tenantOf m
    demand (d.iface == .unlocked) 1
    demand (Cmd.plain m 4 && decide (Cmd.arg m 3 < 2 ^ 36)) 2
    match s.readHome d.vdid .rd (8 * (Cmd.arg m 0 : Int)) 4096 with
    | .error x => s.unread d.vdid x
    | .ok t =>
      match (List.range 64).mapM (s.readQueue d.vdid t.1) with
      | .error e => .error e
      | .ok qs =>
        return (s.setVdev { d with
          iface := .locked, notice := Cmd.endpoint m 1, qtable := BitVec.ofNat 64 (Cmd.arg m 0)
          queues := (qs.zip d.queues).map fun p => { p.1 with kick := p.2.kick } }, []))

/-- START: LIM of every queue is HEAD (R419, R427). -/
def execStart (m : Cmd) (s : State) : Result :=
  commandRow m s (Cmd.code m == 0x04) (do
    let d ← s.tenantOf m
    demand (d.iface == .locked) 1
    demand (Cmd.plain m 0) 2
    return (s.setVdev { d with
      iface := .run, queues := d.queues.map fun q => { q with lim := q.head, tails := [] } }, []))

/-- Jobs that were cancelled are forgotten. -/
def State.forgetCancelled (s : State) (vd : Nat) : State :=
  ((s.counters.filter fun c => c.vd == vd && c.level == .job && c.cancelled).map Counter.key).foldl (fun t j => t.forgetJob vd j) s

/-- UNLOCK (R424, R427): in RUN once every launch is final, in ERROR once every job has been cancelled besides. A tenant's
plug-in may run again. The kick registers keep their values (R419). -/
def execUnlock (m : Cmd) (s : State) : Result :=
  commandRow m s (Cmd.code m == 0x05) (do
    let d ← s.tenantOf m
    demand (d.iface == .locked || (d.iface == .run && s.allFinal d.vdid) || (d.iface == .error && s.jobsFinal d.vdid)) 1
    demand (Cmd.plain m 0) 2
    let t := s.forgetCancelled d.vdid
    return (t.setVdev { d with
      iface := .unlocked, notice := {}, qtable := 0, pluginStopped := false
      queues := d.queues.map fun q => { kick := q.kick } }, []))

/-! ### 0x06: Toll registers and way ranges (R271, R395, R396, R424, R425) -/

/-- Does the interface state allow commands 0x06 to 0x08? -/
def VDev.settable (d : VDev) : Bool := d.iface == .unlocked || d.iface == .locked

/-- Instances of a resource on a die: cores, slices, near and far controllers, ports, way-range registers. -/
def instances (res : Nat) : Nat := [64, 16, 16, 4, 2, 8].getD res 0

/-- Capacity of an instance (R395). -/
def State.capacityOf (s : State) (res die : Nat) : Nat :=
  match res with
  | 0 => 1024
  | 1 => 16 - ((List.range 16).filter (bit (reservedWays (s.wayRegs die)))).length
  | 2 => 15232
  | 3 => 2856
  | _ => 6096

/-- ARG0 of command 0x06: resource, instance and die. -/
def tollTarget (a : Nat) : Nat × Nat × Nat := (bits a 2 0, bits a 15 8, bits a 17 16)

def tollTargetOk (a : Nat) : Bool :=
  let t := tollTarget a
  bits a 7 3 == 0 && bits a 63 18 == 0 && decide (t.1 ≤ 5) && decide (t.2.1 < instances t.1)

/-- RATE of a Toll register as last written. -/
def Toll.written (t : Toll) : Nat := (t.pending.map fun p => p.1).getD t.rate

def execSetToll (m : Cmd) (s : State) : Result :=
  commandRow m s (Cmd.code m == 0x06 && (tollTarget (Cmd.arg m 0)).1 != 5) (do
    let d ← s.tenantOf m
    demand d.settable 1
    let t := tollTarget (Cmd.arg m 0)
    let v := Cmd.arg m 1
    demand (Cmd.plain m 2 && tollTargetOk (Cmd.arg m 0) && bits v 63 48 == 0 && bits v 31 16 == 0) 2
    let rate := bits v 15 0
    let here (x : Toll) : Bool := x.res == t.1 && x.inst == t.2.1 && x.die == t.2.2
    let own := (s.tolls.find? fun x => here x && x.vd == d.vdid).getD { vd := d.vdid, res := t.1, inst := t.2.1, die := t.2.2 }
    let others := ((s.tolls.filter fun x => here x && x.vd != d.vdid).map Toll.written).foldl (· + ·) 0
    demand (decide (others + rate ≤ s.capacityOf t.1 t.2.2) || decide (rate ≤ own.written)) 2
    let new : Toll := { own with pending := some (rate, bits v 47 32) }
    return ({ s with tolls := new :: s.tolls.filter fun x => !(here x && x.vd == d.vdid) }, []))

/-- A way-range register value that R271 accepts. -/
def wayOk (r : BitVec 256) : Bool :=
  fld r 255 157 == 0 && fld r 127 120 == 0 && fld r 63 56 == 0 && decide (fld r 151 144 ≤ 128) && fld r 119 64 % 65536 == 0 &&
    fld r 55 0 % 65536 == 0

def execSetWayRange (m : Cmd) (s : State) : Result :=
  commandRow m s (Cmd.code m == 0x06 && (tollTarget (Cmd.arg m 0)).1 == 5) (do
    let d ← s.tenantOf m
    demand d.settable 1
    let t := tollTarget (Cmd.arg m 0)
    let r : BitVec 256 :=
      BitVec.ofNat 256 (Cmd.arg m 1 + Cmd.arg m 2 <<< 64 + Cmd.arg m 3 <<< 128 + Cmd.arg m 4 <<< 192)
    demand (Cmd.plain m 5 && tollTargetOk (Cmd.arg m 0) && wayOk r) 2
    let s1 : State := { s with ways := (t.2.2, t.2.1, r) :: s.ways.filter fun w => !(w.1 == t.2.2 && w.2.1 == t.2.1) }
    demand (decide (((List.range 16).filter (bit (reservedWays (s1.wayRegs t.2.2)))).length ≤ 12)) 2
    return (s1, []))

/-! ### 0x07-0x09 -/

def execSetFaultPolicy (m : Cmd) (s : State) : Result :=
  commandRow m s (Cmd.code m == 0x07) (do
    let d ← s.tenantOf m
    demand d.settable 1
    demand (Cmd.plain m 3 && decide (Cmd.arg m 1 < 2) && decide (Cmd.arg m 2 < 2 ^ 16)) 2
    return (s.setVdev { d with
      policy := BitVec.ofNat 64 (Cmd.arg m 0), poisonTrap := Cmd.arg m 1 == 1, wd := Cmd.arg m 2 }, []))

/-- The peer table of the job, and the own rank (R305, R425). -/
def execSetPeerTable (m : Cmd) (s : State) : Result :=
  commandRow m s (Cmd.code m == 0x08) (do
    let d ← s.tenantOf m
    demand d.settable 1
    let n := Cmd.arg m 1
    demand (Cmd.plain m 3 && decide (1 ≤ n) && decide (n ≤ 32768) && decide (Cmd.arg m 2 < n)) 2
    match (List.range n).mapM fun r => s.readHome d.vdid .rd (8 * ((Cmd.arg m 0 + 32 * r : Nat) : Int)) 256 with
    | .error x => s.unread d.vdid x
    | .ok es =>
      demand (es.all fun x => bits x.1 255 164 == 0) 2
      return (s.setVdev { d with peers := es.map fun x => BitVec.ofNat 256 x.1, rank := Cmd.arg m 2 }, []))

def execLoadRoutingContext (m : Cmd) (s : State) : Result :=
  commandRow m s (Cmd.code m == 0x09 && !bit (Cmd.arg m 0) 0) (do
    let d ← s.tenantOf m
    demand (d.iface != .error) 1
    demand (Cmd.plain m 3 && Cmd.arg m 0 == 0 && decide (Cmd.arg m 1 < 2)) 2
    let r := s.loadRoute (2 * m.die.toNat + Cmd.arg m 1) d.vdid (Cmd.arg m 2)
    if r.2 == 0 then return (r.1, []) else .error (r.2, r.1.poisonedWalks.drop s.poisonedWalks.length))

/-- The fault-queue descriptor (R371). -/
def execSetFaultQueue (m : Cmd) (s : State) : Result :=
  commandRow m s (Cmd.code m == 0x09 && bit (Cmd.arg m 0) 0) (do
    let d ← s.tenantOf m
    demand (d.iface != .error) 1
    demand (Cmd.plain m 3 && Cmd.arg m 0 == 1 && Cmd.arg m 1 == 0) 2
    match s.readHome d.vdid .rw (8 * (Cmd.arg m 2 : Int)) 512 with
    | .error x => s.unread d.vdid x
    | .ok x =>
      demand (bits x.1 351 260 == 0 && bits x.1 255 0 == 0 && bits x.1 511 448 % 64 == 0) 2
      return (s.setVdev { d with faultDesc := some (BitVec.ofNat 64 (Cmd.arg m 2)) }, []))

/-! ### 0x0A, 0x0B: counters and attestation (R425, R428, R429) -/

/-- The low `n` bytes of a number, low byte first. -/
def bytesOf (n x : Nat) : List Byte := (List.range n).map fun i => BitVec.ofNat 8 (x >>> (8 * i))

/-- LOST of the fault queue: its descriptor's field, or the count kept while no descriptor is named (R371, R426). -/
def State.lostRecords (s : State) (d : VDev) : Nat :=
  match d.faultDesc with
  | none => d.lost.toNat
  | some a =>
    match s.readHome d.vdid .rd (8 * ((a.toNat + 44 : Nat) : Int)) 32 with
    | .ok x => x.1
    | .error _ => d.lost.toNat

/-- The Steward is notified where a poisoned page-table entry keeps LOST from being read (R261). -/
def State.noteLost (s : State) (d : VDev) : State :=
  match d.faultDesc with
  | none => s
  | some a => s.noteRead d.vdid (a.toNat + 44) 4

/-- The discard counter of a port as command 0x0A reads it: the port's own count with that of the virtual device's routing
context there (R402, R414, R425; DESIGN CHOICE, log entry 99). -/
def State.discardCount (s : State) (d : VDev) (port : Nat) : Nat :=
  (s.discards[port]?.getD 0 + ((s.route? port d.vdid).map RouteCtx.discards).getD 0).toNat

/-- The 160 values of command 0x0A. -/
def State.counterValues (s : State) (d : VDev) (die : Nat) : List Nat :=
  [d.refusals.toNat] ++ ((List.range 2).map fun p => s.discardCount d (2 * die + p)) ++
    ((List.range 16).map fun k => ((s.dropped.find? fun (x : Nat × Nat × BitVec 32) => x.1 == die && x.2.1 == k).map fun x => x.2.2.toNat).getD 0) ++
    [s.lostRecords d] ++ (List.range 140).map fun u => (s.unitInfo die u).count.toNat

def execReadCounters (m : Cmd) (s : State) : Result :=
  commandRow m s (Cmd.code m == 0x0A) (do
    let d ← s.tenantOf m
    demand (Cmd.plain m 0) 2
    return (s.noteLost d, (s.counterValues d m.die.toNat).flatMap (bytesOf 4)))

/-- A byte for an interface state; 0 where no virtual device exists. -/
def ifaceByte (d : Option VDev) : Byte :=
  match d.map VDev.iface with
  | none => 0
  | some .unlocked => 1
  | some .locked => 2
  | some .run => 3
  | some .error => 4

/-- The attestation report (R428): its parts in the rule's order, then the signature. -/
def execAttestationReport (m : Cmd) (s : State) : Result :=
  commandRow m s (Cmd.code m == 0x0B) (do
    let d ← s.tenantOf m
    demand (Cmd.plain m 1) 2
    match s.readHome d.vdid .rd (8 * (Cmd.arg m 0 : Int)) 512 with
    | .error x => s.unread d.vdid x
    | .ok x =>
      let body := Config.identityKey ++ bytesOf 64 s.measure.toNat ++ Config.repairMap ++
        ((List.range 16).map fun v => ifaceByte (s.vdev? v)) ++ bytesOf 64 x.1
      return (s, body ++ Config.identitySign body))

/-! ### 0x0C-0x0E, 0x10 -/

/-- Cancel a launch, graph, phase or job (R28, R29); an identifier that names nothing has no effect. -/
def execCancelCommand (m : Cmd) (s : State) : Result :=
  commandRow m s (Cmd.code m == 0x0C) (do
    let d ← s.tenantOf m
    demand (d.iface == .run) 1
    let lv := Cmd.arg m 0
    demand (Cmd.plain m 3 && decide (1 ≤ lv) && decide (lv ≤ 4) && (lv == 3 || Cmd.arg m 2 == 0)) 2
    let level : Level := if lv == 1 then .launch else if lv == 2 then .graph else if lv == 3 then .phase else .job
    return (s.requestCancel { level := level, vd := d.vdid, die := m.die.toNat, key := Cmd.arg m 1, key2 := Cmd.arg m 2 }, []))

def execTransferOwnership (m : Cmd) (s : State) : Result :=
  commandRow m s (Cmd.code m == 0x0D) (do
    s.fromOwner m
    demand (Cmd.plain m 3 && decide (Cmd.arg m 2 < 2 ^ 36)) 2
    return ({ s with owner := Cmd.endpoint m 0, ownerSa := none }, []))

def execSetSlope (m : Cmd) (s : State) : Result :=
  commandRow m s (Cmd.code m == 0x0E) (do
    s.fromOwner m
    demand (Cmd.plain m 1 && decide (1 ≤ Cmd.arg m 0) && decide (Cmd.arg m 0 < 2 ^ 16)) 2
    return ({ s with slope := BitVec.ofNat 16 (Cmd.arg m 0) }, []))

/-- RESUME: strands parked by the fault policy or by BRK wait for the Dispatcher to resume them at their saved EPC (R372,
R378, R425). -/
def execResume (m : Cmd) (s : State) : Result :=
  commandRow m s (Cmd.code m == 0x10) (do
    let d ← s.tenantOf m
    demand (d.iface == .run) 1
    let all := Cmd.arg m 1 == 2 ^ 64 - 1
    demand (Cmd.plain m 2 && (all || decide (Cmd.arg m 1 < 1024))) 2
    let hit (st : Strand) : Bool :=
      st.launch.toNat == Cmd.arg m 0 && st.vdid.toNat == d.vdid && st.status == .parked true &&
        (all || st.strand.toNat == Cmd.arg m 1)
    demand (((s.launch? (Cmd.arg m 0)).map fun l => l.vd == d.vdid).getD false && (all || s.strands.any hit)) 2
    return (s.mapStrands hit fun st => { st with status := .parked false }, []))

/-! ### 0x0F: BOOT (R423) -/

/-- The monitor starts on every die: the Steward processors run at level 0, confined to nothing, from an address of the image that
the spec does not give (R423, R422). -/
def State.startMonitors (s : State) : State :=
  { s with
    free := s.free + 1
    stewards := s.stewards.map fun c =>
      { level := 0, tenant := 0, cpu := { c.cpu with status := .running, pc := Config.freeValue s.free, physical := true } }
    vds := s.vds.map fun d => { d with pluginStopped := false } }

/-- An image that fails to verify is discarded: what stands in its place in the boot window is free (R423), and no taint is cleared
(R387). -/
def State.dropImage (s : State) (n : Nat) : State :=
  let ws := addElem [] (List.range n) 0 (8 * n) (Config.freeBits s.free) false false
  { s.writeAll agentSteward (ws.map s.keepTaint) with free := s.free + 1 }

/-- BOOT: the image in the boot window is measured with SHA3-512 and verified, and the fused repair map is applied (R430); its sender, on the security association over which it
arrived, becomes the owner. An image that fails to verify is discarded, and the ROM waits again. Once the firmware runs the
monitor takes BOOT from tenants alone, and refuses it (R424, R425). -/
def execBoot (m : Cmd) (s : State) : Result :=
  if s.firmware == .waiting && Cmd.code m == 0x0F && m.vdid == 0 && m.die == 0 && s.assocOk 0 m.sender m.sa then
    if Cmd.plain m 1 && decide (1 ≤ Cmd.arg m 0) && decide (Cmd.arg m 0 ≤ 2 ^ 28) then
      let image := (List.range (Cmd.arg m 0)).map (memGet s.mem)
      let s1 : State := { s with owner := m.sender, ownerSa := some m.sa }
      s.conclude m (.ok (if Config.imageVerifies image then
          (State.startMonitors { s1 with firmware := .running, imageLen := Cmd.arg m 0, measure := sha3of512 image }).applyRepairs (Config.repairEntries Config.repairMap)
        else s1.dropImage (Cmd.arg m 0), []))
    else s.conclude m (refuse 2)
  else commandRow m s (Cmd.code m == 0x0F) (do
    let _ ← s.tenantOf m
    refuse 1)

end Sys2Proof.Machine
end

