-- ==== Sys2Proof/Machine/Control.lean ====
section
/-! DEFINITION. The meanings of scalar loads and stores, branches, calls and returns, special registers, TRAP, BRK,
HALT and YIELD (R165, R166, R171-R185), and of a blocked access to a queue-ordered register (R44). -/

namespace Sys2Proof.Machine

/-- The effective address of LD and ST, checked (R165). -/
def effAddr (f : Fields) (s : State) : R Nat := do
  let ea := ((s.me.getG f.a.toNat).val + f.imm.signExtend 64).toNat
  require (ea % 2 ^ (bits f.fn.toNat 1 0) == 0) cALIGN ea
  require (decide (ea < 2 ^ 56)) cXLATE ea
  return ea

/-- Checks of a memory source that is read whole: TNT (R100) and the POISON trap (R156); then PSN. -/
def memSource (s : State) (f : Fields) (taint poison : Bool) : R State := do
  require (!(trapsTaint f && taint)) cTAINT
  require (!(poison && s.poisonTrap)) cPOISON
  return s.raise (flagIf poison flPSN)

/-- LD (R165, R155, R156). -/
def execLd (f : Fields) (s : State) : Result :=
  runScalar f s [f.a.toNat] [] fun t => do
    let ea ← effAddr f t
    let size := 2 ^ (bits f.fn.toNat 1 0)
    let x ← t.loadBytes ea size
    let t1 ← memSource t f x.2.1 x.2.2
    let base := t1.me.getG f.a.toNat
    let v : Word := if bit f.fn.toNat 2 then BitVec.ofInt 64 (toSigned (8 * size) x.1) else BitVec.ofNat 64 x.1
    return (t1.setG f.d.toNat { val := v, taint := base.taint || x.2.1, poison := base.poison || x.2.2 }).advance

/-- ST (R165, R155, R156): slot D is the data; a poisoned data register poisons the granule. -/
def execSt (f : Fields) (s : State) : Result :=
  runScalar f s [f.d.toNat, f.a.toNat] [] fun t => do
    let ea ← effAddr f t
    let d := t.me.getG f.d.toNat
    let t1 ← t.storeBytes ea (2 ^ (bits f.fn.toNat 1 0)) d.val.toNat (d.taint || (t.me.getG f.a.toNat).taint) d.poison
    return t1.advance

/-- PC + 16 × the signed offset in IMM[31:0] (R171, R176). -/
def branchTarget (f : Fields) (pc : Word) : Word := pc + ((f.imm.setWidth 32).signExtend 64) * 16

def execBr (f : Fields) (s : State) : Result :=
  runScalar f s [] [] fun t => .ok (t.jump (branchTarget f t.me.pc))

def execJmp (f : Fields) (s : State) : Result :=
  runScalar f s [] [] fun t => .ok (t.jump (f.imm.setWidth 64))

def execJmpi (f : Fields) (s : State) : Result :=
  runScalar f s [f.a.toNat] [] fun t => do
    let a := (t.me.getG f.a.toNat).val
    require (a.toNat % 16 == 0) cALIGN
    require (decide (a.toNat < 2 ^ 56)) cXLATE a.toNat
    return t.jump a

def execCall (f : Fields) (s : State) : Result :=
  runScalar f s [31] [] fun t => do
    let t1 ← t.pushFrame (t.me.pc + 16) false
    return t1.jump (branchTarget f t.me.pc)

/-- Leaving a handler (R177, R181): DROP discards the first entry of the image; the image is reissued. -/
def Strand.leaveHandler (m : Strand) (drop : Bool) : Strand :=
  let im := if drop then m.image.tail else m.image
  { m with queue := im, reissued := !im.isEmpty, image := [], hnd := false, pc := m.epc }

/-- RET (R177). Popping a trap frame waits until the array queue is empty. The rule does not say what a fault of a queued entry finds
meanwhile: nothing is restored or popped until then, the PC stays at the RET, which is executed again and reads its frame again
(DESIGN CHOICE, log entry 128). -/
def execRet (f : Fields) (s : State) : Result :=
  runScalar f s [31] [] fun t => do
    let sp := t.me.getG 31
    let a := sp.val.toNat
    require (a % 16 == 0) cALIGN a
    let ra ← t.loadBytes a 8
    let w ← t.loadBytes (a + 8) 8
    let t1 ← memSource t f (ra.2.1 || w.2.1) (ra.2.2 || w.2.2)
    let tf := bit w.1 0
    let drop := bit w.1 1
    require (bits w.1 12 2 == 0 && vcfgMemOk (bits w.1 31 16) && (!drop || tf) && (!tf || t.me.hnd)) cILLEGAL (a + 8)
    require (tf || ra.1 % 16 == 0) cALIGN a
    if tf && !t.me.queue.isEmpty then return s
    else
      let m : Strand := { (t1.me.setG 31 { sp with val := sp.val + 16 }) with
        rows := BitVec.ofNat 16 (min (bits w.1 63 48) t.me.grows)
        cols := BitVec.ofNat 16 (bits w.1 47 32)
        vcfg := BitVec.ofNat 16 (bits w.1 31 16)
        amb := BitVec.ofNat 3 (bits w.1 15 13)
        issued := s.now }
      let m1 := if tf then m.leaveHandler drop else { m with pc := BitVec.ofNat 64 ra.1 }
      return { t1 with me := m1 }

/-- A GETS or SETS of a queue-ordered register waits while the queue holds entries (R44). -/
def blockFor (op : BitVec 8) (f : Fields) (s : State) (go : Result) : Result :=
  if queueOrdered f.fn.toNat && !s.me.queue.isEmpty && s.me.guard f.gs then
    .next { s with me := { s.me with blocked := some (packWord op f) } }
  else go

/-- GETS at once: an untainted, unpoisoned value (R182). -/
def getsNow (f : Fields) (s : State) : Result :=
  runScalar f s [] [] fun t => .ok (t.setG f.d.toNat { val := t.readSpecial f.fn.toNat }).advance

def execGets (f : Fields) (s : State) : Result := blockFor 0x38 f s (getsNow f s)

/-- SETS at once (R43, R45, R46, R182). -/
def setsNow (f : Fields) (s : State) : Result :=
  runScalar f s [f.a.toNat] [] fun t => do
    let g := t.me.getG f.a.toNat
    let n := f.fn.toNat
    require (writableSpecial n) cILLEGAL
    require (n != 0x05 || vcfgOk (g.val.toNat % 2 ^ 16)) cILLEGAL
    require (!(n == 0x19 || n == 0x1A) || g.val.toNat % 16 == 0) cALIGN
    let t1 := { t with me := t.me.writeSpecial n g.val }
    return (t1.raise (flagIf g.taint flTNT ||| flagIf g.poison flPSN)).advance

def execSets (f : Fields) (s : State) : Result :=
  if writableSpecial f.fn.toNat then blockFor 0x39 f s (setsNow f s) else setsNow f s

/-- The blocked access acts once the queue is empty, where the strand may go on (R44, R375). -/
def execQueueOrderedAccess (s : State) : Result :=
  match s.me.blocked with
  | none => .next s
  | some w =>
    if s.me.queue.isEmpty && s.mayWake then
      let t := { s with me := { s.me with blocked := none } }
      if opOf w == 0x38 then getsNow (fieldsOf w) t else setsNow (fieldsOf w) t
    else .next s

def execTrap (f : Fields) (s : State) : Result :=
  runScalar f s [] [] fun _ => .error { cause := cTRAP, code := bits f.imm.toNat 15 0 }

def execBrk (f : Fields) (s : State) : Result :=
  runScalar f s [] [] fun _ => .error { cause := cBRK, code := bits f.imm.toNat 15 0 }

/-- HALT: the scalar stream fetches nothing further (R184). -/
def execHalt (f : Fields) (s : State) : Result :=
  runScalar f s [] [] fun t =>
    let u := t.advance
    .ok { u with me := { u.me with status := .halted } }

/-- YIELD gives up fetch slots only (R185). -/
def execYield (f : Fields) (s : State) : Result := runScalar f s [] [] fun t => .ok t.advance

def execNop (f : Fields) (s : State) : Result := runScalar f s [] [] fun t => .ok t.advance

end Sys2Proof.Machine
end

