-- ==== Sys2Proof/Machine/Faults.lean ====
section
/-! DEFINITION. The meanings of the steps that report faults (R17, R178-R181), of the watchdog (R373), and of a word's
entry into the array queue (R13, R14). -/

namespace Sys2Proof.Machine

/-- An array-class word enters the queue with the values it captures; an illegal word never does (R13, R14, R110). -/
def execEnqueue (op : BitVec 8) (f : Fields) (s : State) : Result :=
  if isScalarOp op then .next s
  else if !legal op f then s.scalarFault { cause := cILLEGAL }
  else
    match s.enter op f with
    | .error r => r
    | .ok p => .next p.1

/-- A scalar fault is reported once every older entry has completed (R17). -/
def execScalarFaultReport (s : State) : Result :=
  match s.me.pend with
  | some p => if !p.isArray && s.me.queue.isEmpty then .next (s.takeFault p) else .next s
  | none => .next s

/-- An array-class fault is reported: the faulting entry and all younger ones are the queue image (R17). -/
def execArrayFaultReport (s : State) : Result :=
  match s.me.pend with
  | some p => if p.isArray then .next (s.takeFault p) else .next s
  | none => .next s

/-- Does an entry at the head of the queue wait for work that outlived its own entry: interlocked or with BAR, as a
release, as a FENCE, or for a slot, a part, a tile or one of the 16 places of the engine, which the work of other strands may
hold (R16, R281, R284, R338, R344, R345)? -/
def State.waitsForWork (s : State) (e : Entry) : Bool :=
  let op := (opOf e.word).toNat
  let f := fieldsOf e.word
  let fn := f.fn.toNat
  let releases (kind : PeerKind) : Bool := !s.me.awaiting && ((homeOrder kind f).1.map s.owes).getD false
  let slot (w : Word) : Bool := s.loading (bit w.toNat 7) (bits w.toNat 6 0)
  s.interlocked e op f || s.me.barred f ||
    match op with
    | 0x90 => bit fn 3 && s.owes (bits fn 2 0)
    | 0x91 => bits fn 1 0 == 3 && !s.me.work.isEmpty
    | 0x93 => releases .amo
    | 0x94 => releases .amof
    | 0x95 => releases .sig
    | 0x98 => s.owes (bits fn 1 0)
    | 0x9A => s.owes (bits fn 2 0)
    | 0xB2 | 0xB3 => slot e.gb.val
    | 0xB4 | 0xB5 => s.loading false (bits f.imm.toNat 6 0) || s.engineFull
    | 0xB6 => s.owesTile f.a.toNat
    | 0xB7 | 0xB8 => s.owesTile f.d.toNat
    | 0xB9 => s.loading true 0
    | 0xBA => s.loading false (bits e.gc.val.toNat 6 0) || s.slotBusy (bits e.gc.val.toNat 6 0) || s.engineFull
    | 0xA5 => bits fn 2 1 == 3 && s.owesTile f.a.toNat
    | 0xBB => s.owes 3
    | _ => false

/-- Does an entry at the head of the queue wait as R373 counts: asleep, or for engine work? -/
def State.waitsAt (s : State) (e : Entry) : Bool :=
  ([0x40, 0x96, 0x97, 0x98].contains (opOf e.word).toNat && s.me.sleep.isSome) || s.waitsForWork e

/-- Has the strand issued nothing for WD × 2^16 cycles (R373)? WD 0 turns the watchdog off. -/
def State.watchdogDue (s : State) : Bool :=
  let wd := s.myVdev.wd
  wd != 0 && decide (s.me.issued + wd * 2 ^ 16 ≤ s.now)

/-- The watchdog acts on a resident strand that waits (R373). -/
def execWatchdog (s : State) : Result :=
  if !(s.me.issues && s.watchdogDue) then .next s
  else
    match s.me.queue with
    | e :: _ =>
      if s.waitsAt e then
        .next { s with me := { s.me with
          pend := some { isArray := true, cause := cWATCHDOG, fpc := e.pc, epc := s.me.pc } } }
      else .next s
    | [] =>
      if s.me.status == .halted && !s.me.work.isEmpty then
        .next (s.takeFault { cause := cWATCHDOG, fpc := s.me.pc - 16, epc := s.me.pc })
      else .next s

end Sys2Proof.Machine
end

