-- ==== Sys2Proof/Machine/Scalar.lean ====
section
/-! DEFINITION. The meanings of the scalar integer, logic, compare and f32 instructions (R159-R164, R167-R170). -/

namespace Sys2Proof.Machine

/-- Two general-register sources (R159). -/
def scalarAB (f : Fields) (s : State) (op : Word → Word → Word × Flags) : Result :=
  scalarG f s [f.a.toNat, f.b.toNat] fun st => op (st.getG f.a.toNat).val (st.getG f.b.toNat).val

/-- One general-register source (R159). -/
def scalarA (f : Fields) (s : State) (op : Word → Word) : Result :=
  scalarG f s [f.a.toNat] fun st => (op (st.getG f.a.toNat).val, 0)

/-- An integer operation of R79 at i64 (8) or n64 (12). -/
def int64 (o : ArOp) (fmt : Nat) (a b : Word) : Word × Flags :=
  let r := intOp o fmt false a.toNat b.toNat 0
  (BitVec.ofNat 64 r.1, r.2)

/-- Remainder by R79. -/
def rem64 (fmt : Nat) (a b : Word) : Word × Flags :=
  let y := intOf fmt b.toNat
  if y == 0 then (a, flDZ) else (BitVec.ofInt 64 (remInt (intOf fmt a.toNat) y), 0)

/-- Leading zero bits of a 64-bit value; 64 for 0. -/
def leadingZeros64 (a : Word) : Nat := if a = 0 then 64 else 63 - Nat.log2 a.toNat

/-- Trailing zero bits of a 64-bit value; 64 for 0. -/
def trailingZeros64 (a : Word) : Nat := if a = 0 then 64 else trailingZeros a.toNat

/-- Number of set bits among the low `n` bits. -/
def popCount : Nat → Nat → Nat
  | 0, _ => 0
  | n + 1, x => x % 2 + popCount n (x / 2)

/-- The low 64 bits of the carry-less product (R159). -/
def clmul64 (a b : Word) : Word :=
  (List.range 64).foldl (fun acc i => if bit b.toNat i then acc ^^^ (a <<< i) else acc) 0

/-- The conditions of CMP and CMPI (R162). -/
def cmp64 (fn : Nat) (a b : Word) : Bool :=
  match fn with
  | 0 => a == b
  | 1 => a != b
  | 2 => a.slt b
  | 3 => a.sle b
  | 4 => b.slt a
  | 5 => b.sle a
  | 6 => a.ult b
  | 7 => a.ule b
  | 8 => b.ult a
  | _ => b.ule a

def execAdd (f : Fields) (s : State) : Result := scalarAB f s fun a b => (a + b, 0)
def execSub (f : Fields) (s : State) : Result := scalarAB f s fun a b => (a - b, 0)
/-- ADDI adds the sign-extended immediate (R160). -/
def execAddi (f : Fields) (s : State) : Result := scalarA f s fun a => a + f.imm.signExtend 64
def execMul (f : Fields) (s : State) : Result := scalarAB f s fun a b => (a * b, 0)
def execMulh (f : Fields) (s : State) : Result :=
  scalarAB f s fun a b => (BitVec.ofInt 64 ((a.toInt * b.toInt) >>> 64), 0)
def execMulhn (f : Fields) (s : State) : Result :=
  scalarAB f s fun a b => (BitVec.ofNat 64 ((a.toNat * b.toNat) >>> 64), 0)
def execDiv (f : Fields) (s : State) : Result := scalarAB f s (int64 .div 8)
def execDivn (f : Fields) (s : State) : Result := scalarAB f s (int64 .div 12)
def execRem (f : Fields) (s : State) : Result := scalarAB f s (rem64 8)
def execRemn (f : Fields) (s : State) : Result := scalarAB f s (rem64 12)
def execAnd (f : Fields) (s : State) : Result := scalarAB f s fun a b => (a &&& b, 0)
def execOr (f : Fields) (s : State) : Result := scalarAB f s fun a b => (a ||| b, 0)
def execXor (f : Fields) (s : State) : Result := scalarAB f s fun a b => (a ^^^ b, 0)
def execAndn (f : Fields) (s : State) : Result := scalarAB f s fun a b => (a &&& ~~~b, 0)
def execShl (f : Fields) (s : State) : Result := scalarAB f s fun a b => (a <<< (b.toNat % 64), 0)
def execShr (f : Fields) (s : State) : Result := scalarAB f s fun a b => (a >>> (b.toNat % 64), 0)
def execShra (f : Fields) (s : State) : Result := scalarAB f s fun a b => (a.sshiftRight (b.toNat % 64), 0)
def execRotl (f : Fields) (s : State) : Result := scalarAB f s fun a b => (a.rotateLeft (b.toNat % 64), 0)
def execClz (f : Fields) (s : State) : Result := scalarA f s fun a => BitVec.ofNat 64 (leadingZeros64 a)
def execCtz (f : Fields) (s : State) : Result := scalarA f s fun a => BitVec.ofNat 64 (trailingZeros64 a)
def execPopc (f : Fields) (s : State) : Result := scalarA f s fun a => BitVec.ofNat 64 (popCount 64 a.toNat)
def execClmul (f : Fields) (s : State) : Result := scalarAB f s fun a b => (clmul64 a b, 0)
def execMin (f : Fields) (s : State) : Result := scalarAB f s fun a b => (if a.sle b then a else b, 0)
def execMax (f : Fields) (s : State) : Result := scalarAB f s fun a b => (if a.sle b then b else a, 0)
def execMinn (f : Fields) (s : State) : Result := scalarAB f s fun a b => (if a.ule b then a else b, 0)
def execMaxn (f : Fields) (s : State) : Result := scalarAB f s fun a b => (if a.ule b then b else a, 0)

/-- SEL: taint and poison come from q[A] and from the selected register only (R164). -/
def execSel (f : Fields) (s : State) : Result :=
  let src := if (s.me.getQ f.a.toNat).val then f.b.toNat else f.c.toNat
  runScalar f s [src] [f.a.toNat] fun t =>
    .ok (t.setG f.d.toNat (t.me.fromSources [src] [f.a.toNat] (t.me.getG src).val)).advance

def execCmp (f : Fields) (s : State) : Result :=
  scalarQ f s [f.a.toNat, f.b.toNat] [] fun st =>
    (cmp64 f.fn.toNat (st.getG f.a.toNat).val (st.getG f.b.toNat).val, 0)

def execCmpi (f : Fields) (s : State) : Result :=
  scalarQ f s [f.a.toNat] [] fun st => (cmp64 f.fn.toNat (st.getG f.a.toNat).val (f.imm.signExtend 64), 0)

/-- QOP reads its table FN (R163). -/
def execQop (f : Fields) (s : State) : Result :=
  scalarQ f s [] [f.a.toNat, f.b.toNat] fun st =>
    (bit f.fn.toNat (2 * b2n (st.getQ f.a.toNat).val + b2n (st.getQ f.b.toNat).val), 0)

/-- LI (R161). -/
def execLi (f : Fields) (s : State) : Result := scalarG f s [] fun _ => (f.imm.signExtend 64, 0)

/-- LIH replaces bits 63:48 (R161). -/
def execLih (f : Fields) (s : State) : Result :=
  scalarA f s fun a => (a &&& 0x0000FFFFFFFFFFFF) ||| ((f.imm.setWidth 16).setWidth 64 <<< 48)

/-! ### Scalar f32 (R167-R170) -/

/-- Mode of a scalar f32 instruction (R167). -/
def scalarMode (f : Fields) (st : Strand) : Mode := { fmt := 0, rnd := st.scalarRnd f, fsi := f.fsi, fso := f.fso }

/-- An f32 operation on the low 32 bits of its sources (R167). -/
def scalarF (o : ArOp) (f : Fields) (s : State) (srcs : List Nat) : Result :=
  scalarG f s srcs fun st =>
    let x (k : Nat) : Nat := ((srcs[k]?).map fun n => (st.getG n).val.toNat % 2 ^ 32).getD 0
    let r := floatOp o (scalarMode f st) (x 0) (x 1) (x 2)
    (BitVec.ofNat 64 r.1, r.2)

def execFadd (f : Fields) (s : State) : Result := scalarF .add f s [f.a.toNat, f.b.toNat]
def execFsub (f : Fields) (s : State) : Result := scalarF .sub f s [f.a.toNat, f.b.toNat]
def execFmul (f : Fields) (s : State) : Result := scalarF .mul f s [f.a.toNat, f.b.toNat]
def execFfma (f : Fields) (s : State) : Result := scalarF .fma f s [f.a.toNat, f.b.toNat, f.c.toNat]
def execFdiv (f : Fields) (s : State) : Result := scalarF .div f s [f.a.toNat, f.b.toNat]
def execFsqrt (f : Fields) (s : State) : Result := scalarF .sqrt f s [f.a.toNat]
def execFmin (f : Fields) (s : State) : Result := scalarF .min f s [f.a.toNat, f.b.toNat]
def execFmax (f : Fields) (s : State) : Result := scalarF .max f s [f.a.toNat, f.b.toNat]

def execFcmp (f : Fields) (s : State) : Result :=
  scalarQ f s [f.a.toNat, f.b.toNat] [] fun st =>
    cmpElem 0 f.fn.toNat f.fsi ((st.getG f.a.toNat).val.toNat % 2 ^ 32) ((st.getG f.b.toNat).val.toNat % 2 ^ 32)

/-- FCVT (R170): FN[4:0] is the other format, FN[7] the direction; SAT acts for f32.bf16 and f32.f16 only. -/
def execFcvt (f : Fields) (s : State) : Result :=
  scalarG f s [f.a.toNat] fun st =>
    let x := (st.getG f.a.toNat).val.toNat
    let other := bits f.fn.toNat 4 0
    let r := st.scalarRnd f
    if bit f.fn.toNat 7 then
      let y := convElem other 0 r f.fsi f.fso false (x % 2 ^ Fmt.size other)
      (BitVec.ofNat 64 y.1, y.2)
    else
      let y := convElem 0 other r f.fsi f.fso (f.sat && Fmt.isF other) (x % 2 ^ 32)
      (if other == 7 then (BitVec.ofNat 32 y.1).signExtend 64 else BitVec.ofNat 64 y.1, y.2)

end Sys2Proof.Machine
end

