-- ==== Sys2Proof/Machine/Dispatch.lean ====
section
/-! DEFINITION. What each row of the opcode table does: one arm for each constructor of Instr, each a call of its meaning. -/

namespace Sys2Proof.Machine

/-- The effect of an instruction, or of a step of another agent, on the machine. A row whose conditions do not hold
leaves the machine as it is. -/
def exec (i : Instr) (s : State) : Host.Outcome State Fault Refusal :=
  match i with
  | .add f => Sys2Proof.Machine.execAdd f s
  | .sub f => Sys2Proof.Machine.execSub f s
  | .addi f => Sys2Proof.Machine.execAddi f s
  | .mul f => Sys2Proof.Machine.execMul f s
  | .mulh f => Sys2Proof.Machine.execMulh f s
  | .mulhn f => Sys2Proof.Machine.execMulhn f s
  | .div f => Sys2Proof.Machine.execDiv f s
  | .divn f => Sys2Proof.Machine.execDivn f s
  | .rem f => Sys2Proof.Machine.execRem f s
  | .remn f => Sys2Proof.Machine.execRemn f s
  | .and f => Sys2Proof.Machine.execAnd f s
  | .or f => Sys2Proof.Machine.execOr f s
  | .xor f => Sys2Proof.Machine.execXor f s
  | .andn f => Sys2Proof.Machine.execAndn f s
  | .shl f => Sys2Proof.Machine.execShl f s
  | .shr f => Sys2Proof.Machine.execShr f s
  | .shra f => Sys2Proof.Machine.execShra f s
  | .rotl f => Sys2Proof.Machine.execRotl f s
  | .clz f => Sys2Proof.Machine.execClz f s
  | .ctz f => Sys2Proof.Machine.execCtz f s
  | .popc f => Sys2Proof.Machine.execPopc f s
  | .clmul f => Sys2Proof.Machine.execClmul f s
  | .min f => Sys2Proof.Machine.execMin f s
  | .max f => Sys2Proof.Machine.execMax f s
  | .minn f => Sys2Proof.Machine.execMinn f s
  | .maxn f => Sys2Proof.Machine.execMaxn f s
  | .sel f => Sys2Proof.Machine.execSel f s
  | .cmp f => Sys2Proof.Machine.execCmp f s
  | .cmpi f => Sys2Proof.Machine.execCmpi f s
  | .qop f => Sys2Proof.Machine.execQop f s
  | .li f => Sys2Proof.Machine.execLi f s
  | .lih f => Sys2Proof.Machine.execLih f s
  | .ld f => Sys2Proof.Machine.execLd f s
  | .st f => Sys2Proof.Machine.execSt f s
  | .fadd f => Sys2Proof.Machine.execFadd f s
  | .fsub f => Sys2Proof.Machine.execFsub f s
  | .fmul f => Sys2Proof.Machine.execFmul f s
  | .ffma f => Sys2Proof.Machine.execFfma f s
  | .fdiv f => Sys2Proof.Machine.execFdiv f s
  | .fsqrt f => Sys2Proof.Machine.execFsqrt f s
  | .fmin f => Sys2Proof.Machine.execFmin f s
  | .fmax f => Sys2Proof.Machine.execFmax f s
  | .fcmp f => Sys2Proof.Machine.execFcmp f s
  | .fcvt f => Sys2Proof.Machine.execFcvt f s
  | .br f => Sys2Proof.Machine.execBr f s
  | .jmp f => Sys2Proof.Machine.execJmp f s
  | .jmpi f => Sys2Proof.Machine.execJmpi f s
  | .call f => Sys2Proof.Machine.execCall f s
  | .ret f => Sys2Proof.Machine.execRet f s
  | .gets f => Sys2Proof.Machine.execGets f s
  | .sets f => Sys2Proof.Machine.execSets f s
  | .trap f => Sys2Proof.Machine.execTrap f s
  | .yield f => Sys2Proof.Machine.execYield f s
  | .halt f => Sys2Proof.Machine.execHalt f s
  | .nop f => Sys2Proof.Machine.execNop f s
  | .brk f => Sys2Proof.Machine.execBrk f s
  | .enqueue op f => Sys2Proof.Machine.execEnqueue op f s
  | .queueOrderedAccess => Sys2Proof.Machine.execQueueOrderedAccess s
  | .setl f => Sys2Proof.Machine.execSetl f s
  | .setlWake => Sys2Proof.Machine.execSetlWake s
  | .vldTid f => Sys2Proof.Machine.execVldTid f s
  | .vldPtr f => Sys2Proof.Machine.execVldPtr f s
  | .vstTid f => Sys2Proof.Machine.execVstTid f s
  | .vstPtr f => Sys2Proof.Machine.execVstPtr f s
  | .vbc f => Sys2Proof.Machine.execVbc f s
  | .vmov f => Sys2Proof.Machine.execVmov f s
  | .viota f => Sys2Proof.Machine.execViota f s
  | .vadd f => Sys2Proof.Machine.execVadd f s
  | .vsub f => Sys2Proof.Machine.execVsub f s
  | .vmul f => Sys2Proof.Machine.execVmul f s
  | .vfma f => Sys2Proof.Machine.execVfma f s
  | .vdiv f => Sys2Proof.Machine.execVdiv f s
  | .vsqrt f => Sys2Proof.Machine.execVsqrt f s
  | .vmin f => Sys2Proof.Machine.execVmin f s
  | .vmax f => Sys2Proof.Machine.execVmax f s
  | .vabs f => Sys2Proof.Machine.execVabs f s
  | .vneg f => Sys2Proof.Machine.execVneg f s
  | .vand f => Sys2Proof.Machine.execVand f s
  | .vor f => Sys2Proof.Machine.execVor f s
  | .vxor f => Sys2Proof.Machine.execVxor f s
  | .vnot f => Sys2Proof.Machine.execVnot f s
  | .vshl f => Sys2Proof.Machine.execVshl f s
  | .vshr f => Sys2Proof.Machine.execVshr f s
  | .vcmp f => Sys2Proof.Machine.execVcmp f s
  | .vsel f => Sys2Proof.Machine.execVsel f s
  | .vcvt f => Sys2Proof.Machine.execVcvt f s
  | .vqnt f => Sys2Proof.Machine.execVqnt f s
  | .vdqn f => Sys2Proof.Machine.execVdqn f s
  | .vsfu f => Sys2Proof.Machine.execVsfu f s
  | .vrcr f => Sys2Proof.Machine.execVrcr f s
  | .mand f => Sys2Proof.Machine.execMand f s
  | .mor f => Sys2Proof.Machine.execMor f s
  | .mxor f => Sys2Proof.Machine.execMxor f s
  | .mnot f => Sys2Proof.Machine.execMnot f s
  | .mpop f => Sys2Proof.Machine.execMpop f s
  | .mfirst f => Sys2Proof.Machine.execMfirst f s
  | .mset f => Sys2Proof.Machine.execMset f s
  | .vext f => Sys2Proof.Machine.execVext f s
  | .vins f => Sys2Proof.Machine.execVins f s
  | .shtag f => Sys2Proof.Machine.execShtag f s
  | .shget f => Sys2Proof.Machine.execShget f s
  | .red f => Sys2Proof.Machine.execRed f s
  | .scan f => Sys2Proof.Machine.execScan f s
  | .grade f => Sys2Proof.Machine.execGrade f s
  | .rot f => Sys2Proof.Machine.execRot f s
  | .rev f => Sys2Proof.Machine.execRev f s
  | .take f => Sys2Proof.Machine.execTake f s
  | .drop f => Sys2Proof.Machine.execDrop f s
  | .reshape f => Sys2Proof.Machine.execReshape f s
  | .cat f => Sys2Proof.Machine.execCat f s
  | .outer f => Sys2Proof.Machine.execOuter f s
  | .transp f => Sys2Proof.Machine.execTransp f s
  | .compress f => Sys2Proof.Machine.execCompress f s
  | .expand f => Sys2Proof.Machine.execExpand f s
  | .gath f => Sys2Proof.Machine.execGath f s
  | .scat f => Sys2Proof.Machine.execScat f s
  | .scata f => Sys2Proof.Machine.execScata f s
  | .idxof f => Sys2Proof.Machine.execIdxof f s
  | .repl f => Sys2Proof.Machine.execRepl f s
  | .pb f => Sys2Proof.Machine.execPb f s
  | .fence f => Sys2Proof.Machine.execFence f s
  | .lda f => Sys2Proof.Machine.execLda f s
  | .amo f => Sys2Proof.Machine.execAmo f s
  | .amof f => Sys2Proof.Machine.execAmof f s
  | .sig f => Sys2Proof.Machine.execSig f s
  | .waits f => Sys2Proof.Machine.execWaits f s
  | .waitsWake => Sys2Proof.Machine.execWaitsWake s
  | .waitsTimeout => Sys2Proof.Machine.execWaitsTimeout s
  | .waitv f => Sys2Proof.Machine.execWaitv f s
  | .waitvWake => Sys2Proof.Machine.execWaitvWake s
  | .waitvTimeout => Sys2Proof.Machine.execWaitvTimeout s
  | .barr f => Sys2Proof.Machine.execBarr f s
  | .barrierComplete lid scope inst => Sys2Proof.Machine.execBarrierComplete lid scope inst s
  | .claim f => Sys2Proof.Machine.execClaim f s
  | .publ f => Sys2Proof.Machine.execPubl f s
  | .copy f => Sys2Proof.Machine.execCopy f s
  | .pref f => Sys2Proof.Machine.execPref f s
  | .send f => Sys2Proof.Machine.execSend f s
  | .cred f => Sys2Proof.Machine.execCred f s
  | .cbcast f => Sys2Proof.Machine.execCbcast f s
  | .tdef f => Sys2Proof.Machine.execTdef f s
  | .tset f => Sys2Proof.Machine.execTset f s
  | .tget f => Sys2Proof.Machine.execTget f s
  | .mirr f => Sys2Proof.Machine.execMirr f s
  | .xcan f => Sys2Proof.Machine.execXcan f s
  | .taint f => Sys2Proof.Machine.execTaint f s
  | .matt f => Sys2Proof.Machine.execMatt f s
  | .mdet f => Sys2Proof.Machine.execMdet f s
  | .pload f => Sys2Proof.Machine.execPload f s
  | .ploadx f => Sys2Proof.Machine.execPloadx f s
  | .mms f => Sys2Proof.Machine.execMms f s
  | .mmr f => Sys2Proof.Machine.execMmr f s
  | .matrixOpFinish sid k merge => Sys2Proof.Machine.execMatrixOpFinish sid k merge s
  | .zrd f => Sys2Proof.Machine.execZrd f s
  | .zwr f => Sys2Proof.Machine.execZwr f s
  | .zclr f => Sys2Proof.Machine.execZclr f s
  | .scout f => Sys2Proof.Machine.execScout f s
  | .check f => Sys2Proof.Machine.execCheck f s
  | .drarm f => Sys2Proof.Machine.execDrarm f s
  | .spliceMove f => Sys2Proof.Machine.execSpliceMove f s
  | .scalarFaultReport => Sys2Proof.Machine.execScalarFaultReport s
  | .arrayFaultReport => Sys2Proof.Machine.execArrayFaultReport s
  | .watchdog => Sys2Proof.Machine.execWatchdog s
  | .launchAccept vd die queue => Sys2Proof.Machine.execLaunchAccept vd die queue s
  | .launchPlacement die => Sys2Proof.Machine.execLaunchPlacement die s
  | .preemptSave sid => Sys2Proof.Machine.execPreemptSave sid s
  | .strandResume sid => Sys2Proof.Machine.execStrandResume sid s
  | .strandFinish sid => Sys2Proof.Machine.execStrandFinish sid s
  | .serialReexecution vd => Sys2Proof.Machine.execSerialReexecution vd s
  | .cancelResolve k => Sys2Proof.Machine.execCancelResolve k s
  | .agingStep lid => Sys2Proof.Machine.execAgingStep lid s
  | .engineFinish sid k how data => Sys2Proof.Machine.execEngineFinish sid k how data s
  | .caravanElement p => Sys2Proof.Machine.execCaravanElement p s
  | .caravanTail p => Sys2Proof.Machine.execCaravanTail p s
  | .credCombine vd gid seq remote => Sys2Proof.Machine.execCredCombine vd gid seq remote s
  | .cbcastDeliver vd gid seq remote => Sys2Proof.Machine.execCbcastDeliver vd gid seq remote s
  | .peerHomeAction p => Sys2Proof.Machine.execPeerHomeAction p s
  | .walkComplete die cluster => Sys2Proof.Machine.execWalkComplete die cluster s
  | .tlbInvalidate vd va => Sys2Proof.Machine.execTlbInvalidate vd va s
  | .cacheFill p => Sys2Proof.Machine.execCacheFill p s
  | .planeParityRefetch lid die cluster slot column => Sys2Proof.Machine.execPlaneParityRefetch lid die cluster slot column s
  | .uncorrectableError t => Sys2Proof.Machine.execUncorrectableError t s
  | .correctedError die unit => Sys2Proof.Machine.execCorrectedError die unit s
  | .fieldRepair die unit => Sys2Proof.Machine.execFieldRepair die unit s
  | .priv vd level need access => Sys2Proof.Machine.execPriv vd level need access s
  | .firmwareLoss => Sys2Proof.Machine.execFirmwareLoss s
  | .write m => Sys2Proof.Machine.execWrite m s
  | .read m => Sys2Proof.Machine.execRead m s
  | .kick m => Sys2Proof.Machine.execKick m s
  | .token m => Sys2Proof.Machine.execToken m s
  | .close m => Sys2Proof.Machine.execClose m s
  | .batchClose port vd => Sys2Proof.Machine.execBatchClose port vd s
  | .droverSpawn die => Sys2Proof.Machine.execDroverSpawn die s
  | .droverCombine die k => Sys2Proof.Machine.execDroverCombine die k s
  | .noticeSend vd die queue => Sys2Proof.Machine.execNoticeSend vd die queue s
  | .tollWindow die => Sys2Proof.Machine.execTollWindow die s
  | .slewWindow => Sys2Proof.Machine.execSlewWindow s
  | .clusterEnable => Sys2Proof.Machine.execClusterEnable s
  | .powerUpReset => Sys2Proof.Machine.execPowerUpReset s
  | .restartStagger vd job t => Sys2Proof.Machine.execRestartStagger vd job t s
  | .staggerExpire vd job die => Sys2Proof.Machine.execStaggerExpire vd job die s
  | .createVd m => Sys2Proof.Machine.execCreateVd m s
  | .destroyVd m => Sys2Proof.Machine.execDestroyVd m s
  | .lock m => Sys2Proof.Machine.execLock m s
  | .start m => Sys2Proof.Machine.execStart m s
  | .unlock m => Sys2Proof.Machine.execUnlock m s
  | .setToll m => Sys2Proof.Machine.execSetToll m s
  | .setWayRange m => Sys2Proof.Machine.execSetWayRange m s
  | .setFaultPolicy m => Sys2Proof.Machine.execSetFaultPolicy m s
  | .setPeerTable m => Sys2Proof.Machine.execSetPeerTable m s
  | .loadRoutingContext m => Sys2Proof.Machine.execLoadRoutingContext m s
  | .setFaultQueue m => Sys2Proof.Machine.execSetFaultQueue m s
  | .readCounters m => Sys2Proof.Machine.execReadCounters m s
  | .attestationReport m => Sys2Proof.Machine.execAttestationReport m s
  | .cancelCommand m => Sys2Proof.Machine.execCancelCommand m s
  | .transferOwnership m => Sys2Proof.Machine.execTransferOwnership m s
  | .setSlope m => Sys2Proof.Machine.execSetSlope m s
  | .boot m => Sys2Proof.Machine.execBoot m s
  | .resume m => Sys2Proof.Machine.execResume m s
  | .planeLoadFinish sid k => Sys2Proof.Machine.execPlaneLoadFinish sid k s
  | .copyPeerAccess p => Sys2Proof.Machine.execCopyPeerAccess p s

end Sys2Proof.Machine
end

