-- ==== Sys2Proof/Machine/Access.lean ====
section
/-! DEFINITION. The accesses of executed words and of other agents as the caches see them: which lines they reach, at which
level, and with which HINT, RETC and footprint (R97, R98, R202, R258, R266, R269, R272). No value depends on them. -/

namespace Sys2Proof.Machine

/-! ### Lines of an access -/

/-- The lines of memory that a line of virtual addresses lies in: by the tables, and by a mapping that a TLB of the focused strand
still holds, which an access may use until the page is invalidated (R265). -/
def State.linesAt (s : State) (vd line : Nat) : List Nat :=
  ((s.walk vd (128 * line)).toList ++ (s.tlbLeaf? vd (128 * line)).toList).map fun l => (l.base + 128 * line % 2 ^ l.sizeLog) / 128

/-- Is the word a structural instruction? -/
def isStructural (op : Nat) : Bool := decide (0x70 ≤ op) && decide (op ≤ 0x81)

/-- Does a word go to memory through the L1 of its core? Engines, home actions and SCATA, whose sums are made at the homes, use
the L2 alone (R258, R269, R289). TDEF reads its image as a load does (DESIGN CHOICE, log entry 113). -/
def viaL1 (op : Nat) : Bool := op == 0x41 || op == 0x42 || op == 0xA0 || (isStructural op && op != 0x7F)

/-- What a word says of placement. HINT has no effect on a home action (R108); a VLD alone has a footprint (R202, R269). -/
def State.placement (s : State) (e : Entry) (op : Nat) (f : Fields) (retc : Bool) : Fill :=
  { vd := s.vd, hint := if decide (0x90 ≤ op) && decide (op ≤ 0x9A) then 0 else f.hint.toNat, retc := retc
    arrayLoad := op == 0x41, footprint := if op == 0x41 then s.footprint e f else 0, fthr := e.fthr.toNat }

/-- The lines of the scale bytes of a VLD or VST of a block format, which go with its mantissas (R71, R200). -/
def State.stripScales (s : State) (e : Entry) (f : Fields) (wr : Bool) : List (Int × Int × Bool) :=
  let st := if bit f.fn.toNat 0 then ptrStrip e f else tidStrip (s.me.getT f.a.toNat) e e.gb.val.toInt e.gc.val.toInt
  if Fmt.isK f.fmt.toNat then
    spotRanges ((List.range (e.rows.toNat * ceilDiv e.cols.toNat e.blk)).filterMap fun b => (st.scale b).map fun a => (a, 8)) wr
  else []

/-- What a word may read: for each of its sources the lines of its elements and of their scales, and RETC of the entry through which it reads them (R98,
R272). A CBCAST reads at its root member alone (R324), whose work then holds what it has read. -/
def State.sources (s t : State) (e : Entry) (op : Nat) (f : Fields) : List (List (Int × Int × Bool) × Bool) :=
  let fn := f.fn.toNat
  let entry (im : TEntry) : List (Int × Int × Bool) × Bool := (im.range false, im.retc)
  let src (n : BitVec 6) : List (List (Int × Int × Bool) × Bool) := [entry (s.me.getT n.toNat)]
  let scaled (im : TEntry) : List (Int × Int × Bool) × Bool := (im.range false ++ im.scaleRanges e.blk false, im.retc)
  if op == 0x41 then
    let sc := s.stripScales e f false
    if bit fn 0 then [(pointerRange s e f false ++ sc, false)] else (src f.a).map fun p => (p.1 ++ sc, p.2)
  else if isStructural op then
    (if bit fn 1 then src f.a else []) ++ (if (op == 0x78 || op == 0x79) && bit fn 2 then src f.b else [])
  else
    match op with
    | 0x42 | 0x9C => []
    | 0x9B => [scaled (s.me.getT f.b.toNat)]
    | 0xB2 | 0xB3 => [scaled (s.me.getT f.a.toNat)]
    | 0x9E => src f.b
    | 0x9D => src f.a
    | 0x9F => if (t.me.work.getLast?.map fun w => w.vals.isEmpty).getD true then [] else src f.a
    | 0xBA => ((s.checkImage e).map scaled).toList
    | _ => [(accessRanges s e op f, false)]

/-- Where a word stores through an entry or a pointer, and RETC of the entry. -/
def State.target (s : State) (e : Entry) (op : Nat) (f : Fields) : List (Int × Int × Bool) × Bool :=
  let entry (n : BitVec 6) : List (Int × Int × Bool) × Bool :=
    (TEntry.range (s.me.getT n.toNat) true, TEntry.retc (s.me.getT n.toNat))
  if op == 0x42 then
    let sc := s.stripScales e f true
    if bit f.fn.toNat 0 then (pointerRange s e f true ++ sc, false) else ((entry f.a).1 ++ sc, (entry f.a).2)
  else if isStructural op && bit f.fn.toNat 0 then entry f.d
  else ([], false)

/-- Does a word read a line? It does if it faults once the line does not translate: of a word that has completed, the lines that
it reads are those that it cannot do without. -/
def State.readsLine (s : State) (i : Instr) (line : Nat) : Bool :=
  let missing : Walk := { vd := s.vd, va := BitVec.ofNat 64 (128 * line), sizeLog := 7, sids := [s.me.sid], inFlight := false, failed := true }
  match exec i { s with walks := missing :: s.walks, me := { s.me with faddr := BitVec.allOnes 64 } } with
  | .next t => t.me.faddr != BitVec.allOnes 64
  | _ => false

/-! ### Meeting the caches -/

/-- The core of a strand, as the caches know it. -/
def Strand.l1 (st : Strand) : Nat × Nat := (st.place.die, st.place.core)

/-- An access meets the caches at a line of virtual addresses of the focused strand, where the line translates. -/
def State.reachAt (s u : State) (core : Option (Nat × Nat)) (p : Fill) (line : Nat) : State :=
  match s.lineFill (128 * line) p with
  | some q => u.reach core q
  | none => u

/-- Add the bits that a write has written to those of their line. -/
def addBits (ls : List (Nat × Nat)) (g : Stored) : List (Nat × Nat) :=
  let m := g.mask <<< (256 * (g.granule % 4))
  match ls with
  | [] => [(g.granule / 4, m)]
  | x :: r => if x.1 == g.granule / 4 then (x.1, x.2 ||| m) :: r else x :: addBits r g

/-- The lines that an agent has written in this step, each with the bits written (R266). -/
def State.writtenBy (s : State) (who : Nat) : List (Nat × Nat) := (s.stores.filter fun g => g.who == who).foldl addBits []

/-- The writes of an agent meet the caches: with its placement, at addresses among those it may have used, each with RETC of the
entry through which it writes there. -/
def State.meetWrites (s u : State) (core : Option (Nat × Nat)) (p : Fill) (from_ : List (Nat × Bool)) (who : Nat) : State :=
  let at_ (line : Nat) : Nat × Bool := (from_.find? fun n => (s.linesAt p.vd n.1).contains line).getD (0, false)
  let v := (u.writtenBy who).foldl (fun (v : State) w =>
    v.reach core { p with line := w.1, va := 128 * (at_ w.1).1, retc := (at_ w.1).2, written := w.2 }) u
  { v with stores := v.stores.filter fun g => g.who != who }

/-- The entry that has left the queue as a word was executed, if the word has completed. -/
def State.completed (s t : State) (op : BitVec 8) (f : Fields) : Option Entry :=
  let same := t.me.status == s.me.status && t.me.hnd == s.me.hnd && t.me.pend.isNone
  match s.me.queue with
  | e :: _ => if same && decide (t.me.queue.length < s.me.queue.length) then some e else none
  | [] =>
    match s.enter op f with
    | .ok p => if same && t.me.queue.isEmpty then some p.2 else none
    | .error _ => none

/-- An array-class word has completed: its reads, then its stores. -/
def State.cacheArray (s t : State) (i : Instr) (e : Entry) (op : Nat) (f : Fields) : State :=
  let core := if viaL1 op then some s.me.l1 else none
  let read (u : State) (src : List (Int × Int × Bool) × Bool) : State :=
    ((linesOf src.1).filter (s.readsLine i)).foldl (fun u n => s.reachAt u core (s.placement e op f src.2) n) u
  let u := (s.sources t e op f).foldl read t
  let d := s.target e op f
  if op == 0x42 || (isStructural op && bit f.fn.toNat 0) then
    s.meetWrites u core (s.placement e op f d.2) ((linesOf d.1).map fun n => (n, d.2)) s.me.sid
  else u

/-- A scalar word has been executed: LD and ST have a HINT, the frames of CALL and RET none. -/
def State.cacheScalar (s t : State) (op : Nat) (f : Fields) : State :=
  match s.me.scalarReach op f with
  | none => t
  | some r =>
    let p : Fill := { vd := s.vd, hint := if op == 0x23 || op == 0x24 then f.hint.toNat else 0 }
    let lines := (upTo (r.1 / 128) (r.2.1 / 128 + 1)).filter fun n => (s.translate s.vd (if r.2.2 == 1 then .rd else .wr) (128 * n)).isOk
    if r.2.2 == 1 then if t.me.pc == s.me.pc then t else lines.foldl (fun u n => s.reachAt u (some s.me.l1) p n) t
    else if t.me.hnd == s.me.hnd then s.meetWrites t (some s.me.l1) p (lines.map fun n => (n, false)) (agentScalar s.me.sid)
    else t

/-- What a word that takes the focused strand from `s` to `t` does to the caches. -/
def State.cached (s t : State) (i : Instr) (w : BitVec 128) : State :=
  let op := opOf w
  let f := fieldsOf w
  let u := if isScalarOp op then s.cacheScalar t op.toNat f
    else
      match s.completed t op f with
      | some e => s.cacheArray t i e op.toNat f
      | none => t
  { t with lines := u.lines, fills := u.fills, dues := u.dues, dropped := u.dropped, stores := u.stores }

/-! ### The order of a strand's own accesses (R282-R284, R288) -/

/-- Is a word an engine instruction that accesses memory (R283, R298)? -/
def isEngine (op : Nat) : Bool := (decide (0x9B ≤ op) && decide (op ≤ 0x9F)) || op == 0xB2 || op == 0xB3 || op == 0xBA

/-- A FENCE has completed (R284): what came before accesses of its first kind comes before those of its second. -/
def OwnOrder.fenced (o : OwnOrder) (fn : Nat) (scalar array : Clock) : OwnOrder :=
  let past (engine : Bool) : Clock := (o.past.filter fun p => p.engine == engine).foldl (fun c p => clockJoin c p.before) []
  match fn with
  | 0 => { o with beforeArray := clockJoin (clockJoin o.beforeArray o.viaScalar) scalar }
  | 1 => { o with afterArray := clockJoin (clockJoin o.afterArray array) (past false) }
  | 2 => { o with beforeEngine := clockJoin (clockJoin o.beforeEngine o.viaScalar) scalar }
  | _ => { o with afterArray := clockJoin (clockJoin o.afterArray o.worked) (past true) }

/-- An array-class word has completed, which took the strand from `s` to `t`: its access takes its place among those that layer 1
orders. A release at fabric scope precedes in its own right whatever the strand sends later. -/
def State.orderArray (s t : State) (e : Entry) (op : Nat) (f : Fields) : OwnOrder :=
  let o := t.me.order
  if op == 0x91 then o.fenced (bits f.fn.toNat 1 0) (clockSpan (agentScalar s.me.sid) 0 e.mark) (clockSpan s.me.sid 0 t.me.wseq)
  else
    let rs := accessRanges s e op f
    let own := if isEngine op then
        clockJoin o.beforeEngine (((t.me.lastWork.map fun k => clockSpan (agentWork k) 0 (2 ^ 512)).getD []))
      else clockJoin o.beforeArray (clockSpan s.me.sid s.me.wseq t.me.wseq)
    let past := if t.me.rel[4] != s.me.rel[4] then [] else o.past
    { o with past := if rs.isEmpty then past
        else { ranges := rs, before := clockJoin (s.me.orderedBefore rs) own, engine := isEngine op } :: past }

/-- The order of the strand's own accesses after a word that took it from `s` to `t`. -/
def State.ordered (s t : State) (w : BitVec 128) : OwnOrder :=
  let op := opOf w
  let f := fieldsOf w
  let o := t.me.order
  if isScalarOp op then
    if (s.me.scalarReach op.toNat f).isSome && t.me.pend.isNone then { o with viaScalar := clockJoin o.viaScalar o.afterArray } else o
  else
    match s.completed t op f with
    | some e => s.orderArray t e op.toNat f
    | none => o

/-- Execute a word: the caches hear of it, and its access takes its place in the order of the strand's own. -/
def State.execWord (s : State) (i : Instr) (w : BitVec 128) : Result :=
  match exec i s with
  | .next t =>
    let u := s.cached t i w
    .next { u with me := { u.me with order := s.ordered t w } }
  | r => r

/-! ### The other writes of a step -/

/-- The lines of virtual addresses that a piece of engine work writes, each with RETC of the entry through which it does (R98, R272):
the elements and scales of its destination, or those of the Caravans and their signals on the own device; and its token record. -/
def Work.writeLines (w : Work) (own : Nat) : List (Nat × Bool) :=
  let f := fieldsOf w.entry.word
  let im : TEntry := w.imageA
  let plain (xs : List Nat) : List (Nat × Bool) := xs.map fun n => (n, false)
  (if w.kind == .send then
      plain (linesOf (caravanRanges w.reg own (Fmt.size f.fmt.toNat)) ++ ((sendRows w.reg).filter fun r => r.peer == own).map fun r => r.asig / 128)
    else (linesOf (im.range true ++ im.scaleRanges w.entry.blk true)).map fun n => (n, im.retc)) ++
    plain ((tokenOf f w.entry).map fun a => (if bit a 63 then bits a 47 0 else a) / 128).toList

/-- What the writes of an agent ask of the caches, where they are no word's own: those of a piece of engine work go to the L2 with
the HINT of its word and RETC of the entry that it writes through (R98, R269); frames of traps go to the strand's L1; home
actions to the L2. The rules name no placement for ports, Drovers, hosts, peers and the Steward: a line of the L2 serves them,
and they bring none (DESIGN CHOICE, log entry 113). `vd` is the virtual device that such an agent acts for. -/
def State.meetAgent (s t u : State) (vd who : Nat) : State :=
  let sts := s.strands ++ t.strands
  match sts.find? fun st => st.sid == who || agentScalar st.sid == who with
  | some st => s.meetWrites u (if st.sid == who then none else some st.l1) { vd := st.vdid.toNat } [] who
  | none =>
    match sts.findSome? fun st => (st.work.find? fun w => agentWork w.k == who).map fun w => (st, w) with
    | some p =>
      let vd := p.1.vdid.toNat
      State.meetWrites { s with me := p.1 } u none { vd := vd, hint := (fieldsOf p.2.entry.word).hint.toNat }
        (p.2.writeLines (((s.vdev? vd).map VDev.rank).getD 0)) who
    | none => s.meetWrites u none { vd := vd, hint := 1 } [] who

/-- The virtual device that the agent of a turn, which takes the machine from `s` to `t`, acts for, and the bytes that it reads at
their homes, where it is a peer, a host, a port or a Drover: address and length. -/
def State.agentReads (s t : State) (i : Instr) : Nat × List (Nat × Nat) :=
  match i with
  | .peerHomeAction p =>
    (p.vd.toNat,
      if p.manifest == some .compare then [(p.addr.toNat + 48, 16)]
      else if p.kind == .lda && p.fold.isNone && p.manifest.isNone then [(p.addr.toNat, homeSize p.kind p.fn.toNat)] else [])
  | .copyPeerAccess p => (p.vd.toNat, if p.isWrite then [] else [(p.bitAddr / 8, (p.bitAddr % 8 + p.size + 7) / 8)])
  | .caravanElement p => (p.vd.toNat, [])
  | .caravanTail p => (p.vd.toNat, [])
  | .write m => (Msg.vd m, [])
  | .read m => (Msg.vd m, if s.outbox.length < t.outbox.length then [(Msg.argA m, Msg.argB m)] else [])
  | .token m => (Msg.vd m, [])
  | .batchClose port vd =>
    (vd.toNat, ((s.route? port.toNat vd.toNat).bind fun c => c.closing.map fun n => s.closeReads c n).getD [])
  | .droverCombine die k =>
    match s.batches.find? fun b => b.die == die.toNat && b.k == k with
    | some b => (b.vd, if b.spawned && b.left == 0 && !b.failed then s.combinedReads b else [])
    | none => (0, [])
  | _ => (s.vd, [])

/-- The messages that a step has given to the ports, as requests for tokens, charged to the sender (R395, R398). The size of a
message to a host is that of R416. Its port is not stated, nor is the size of a message to a peer (DESIGN CHOICE, log entry 125). -/
def Out.due (o : Out) (place : Nat) : Due :=
  let p := Config.port place % 8
  let to_ (vd left : Nat) : Due := { vd := vd, res := 4, die := p / 2, inst := p % 2, left := left, msg := some place }
  let peer (vd : Nat) : Due := to_ vd (1 + Config.peerTokens place)
  match o with
  | .host _ h payload => to_ (fld h 15 12) (1 + ceilDiv payload.length 32)
  | .action vd .. => peer vd
  | .reply vd .. => peer vd
  | .element vd .. => peer vd
  | .fold vd .. => peer vd
  | .tail vd .. => peer vd
  | .trainAck vd .. => peer vd
  | .result vd .. => peer vd
  | .contribution vd .. => peer vd
  | .manifest vd .. => peer vd

/-- The end of a step from `s`: the caches have heard of every write and of the reads of other agents, and the ports have the
messages. -/
def State.settled (s : State) (r : Result) : Result :=
  match r with
  | .next t =>
    let a := match s.agenda with
      | .event i :: _ => s.agentReads t i
      | _ => (s.vd, [])
    let p : Fill := { vd := a.1, hint := 1 }
    let u0 := a.2.foldl (fun (u : State) q => u.engineReads p (upTo (q.1 / 128) ((q.1 + q.2 + 127) / 128))) t
    let u := (t.stores.map Stored.who).dedup.foldl (fun u who => s.meetAgent t u a.1 who) u0
    let out := ((t.outbox.drop s.outbox.length).zipIdx s.outbox.length).map fun q => q.1.due q.2
    .next { t with lines := u.lines, fills := u.fills, dues := u.dues ++ out, dropped := u.dropped, stores := [] }
  | r => r

end Sys2Proof.Machine
end

