-- ==== Sys2Proof/Machine/Fetch.lean ====
section
/-! DEFINITION. Fetching an instruction (R89, R112, R158, R366), the order in which a strand's own steps come (R13, R17, R44),
time (R2, R352), and the turns of other agents. -/

namespace Sys2Proof.Machine

/-! ### Time -/

/-- Time goes on at each die by as many cycles as the configuration leaves open (R2, R352), and the arbiters of controllers and
ports serve requests (R398). -/
def State.tick (s : State) : State :=
  State.payDues { s with
    cyc := Vector.ofFn fun d : Fin 4 => s.cyc[d] + BitVec.ofNat 64 (Config.elapsed d s.free)
    free := s.free + 1 }

/-! ### Fetch -/

/-- What stands at the program counter: a word, or a matched load of a spliced body (R363). -/
inductive Fetched where
  | word (w : BitVec 128)
  | move (w : BitVec 128)
  deriving DecidableEq, Repr

/-- The bits of a granule as the launch of the focused strand fetches them: as they stood when it began (R112). -/
def State.textGranule (s : State) (g : Nat) : Nat := (s.myLaunch.oldText.lookup g).getD (granuleOf s.mem g)

/-- The word at the program counter, or the CAUSE of the fetch fault (R158, R366). A poisoned granule is fetched as it stands,
with no flag and no fault (DESIGN CHOICE, log entry 96). -/
def State.fetchWord (s : State) : Except Nat Fetched :=
  let pc := s.me.pc
  if bit pc.toNat 63 then
    match s.spliceWord? s.me.launch.toNat pc with
    | some w => .ok (if w.matched.isSome then .move w.word else .word w.word)
    | none => .error cXLATE
  else
    match s.translate s.vd .ex pc.toNat with
    | .ok pa => .ok (.word (BitVec.ofNat 128 (s.textGranule (pa / 32) >>> (8 * (pa % 32)))))
    | .error c => .error c

/-- May a strand fetch? A word that holds the stream, a fault, a queue-ordered access and a request to stop keep it
(R15, R17, R44, R375). -/
def Strand.mayFetch (m : Strand) : Bool :=
  m.status == .running && m.pend.isNone && m.blocked.isNone && !m.awaiting && m.preempt.isNone && !(m.queue.any Entry.holds)

def State.mayFetch (s : State) : Bool := s.me.mayFetch

/-- The strand that the fetch arbiter serves before the focused one: another of its core that can fetch, and that was ready when the
latest word of this one yielded (R99, R358), or that has a token of its own where this one has to borrow (R398). -/
def State.firstDue (s : State) : Option Nat :=
  let ready (st : Strand) : Bool := st.mayFetch && st.l1 == s.me.l1
  match s.me.after.find? fun n => s.rest.any fun st => st.sid == n && ready st && s.mayIssue st with
  | some n => some n
  | none =>
    if s.owns s.me then none
    else (s.rest.find? fun st => ready st && st.after.isEmpty && s.owns st).map Strand.sid

/-- Does a word let the other strands of its core go first: one with YLD, or a YIELD whose guard holds (R99, R185)? -/
def Strand.yields (m : Strand) (w : BitVec 128) : Bool := bit w.toNat 63 || (opOf w == 0x3B && m.guard (fieldsOf w).gs)

/-- Has a word left the stream in a step, executed or entered into the queue (R99)? A fault that is pending, or has been taken in the
step, says so by its EPC: that of a word that faulted before it left is the word itself. A jump, or a RET that has popped its frame,
may go to its own address. -/
def Strand.leftStream (m n : Strand) (w : BitVec 128) : Bool :=
  let next := m.pc + 16
  n.status == .running &&
    match n.pend with
    | some p => p.epc == next
    | none =>
      if !m.hnd && n.hnd then n.epc == next
      else n.blocked.isNone && (n.pc != m.pc || (decide (0x30 ≤ (opOf w).toNat) && decide ((opOf w).toNat ≤ 0x33)) ||
        (opOf w == 0x34 && n.getG 31 != m.getG 31))

/-- Once a word that yields has left the stream, the other ready strands of the core come first, once (R99). -/
def State.yielded (s t : State) (w : BitVec 128) : State :=
  if s.me.yields w && s.me.leftStream t.me w then
    { t with me := { t.me with
        after := (t.rest.filter fun st => st.mayFetch && st.resident && st.l1 == t.me.l1 && t.mayIssue st).map Strand.sid } }
  else t

/-- A strand is served by the fetch arbiter: no strand of its core waits for it any more (R99). -/
def State.servedFetch (s : State) : State :=
  let go (st : Strand) : Strand := if st.after.contains s.me.sid then { st with after := st.after.filter (· != s.me.sid) } else st
  { s with me := { s.me with after := [] }, rest := s.rest.map go }

/-- Run a decoded word. Behind older entries an array-class word enters the queue. -/
def State.runWord (s : State) (w : BitVec 128) (i : Instr) : Result :=
  if !s.me.queue.isEmpty && !isScalarOp (opOf w) then exec (.enqueue (opOf w) (fieldsOf w)) s else s.execWord i w

/-- A step in which a word may have left the stream. -/
def State.afterWord (s : State) (w : BitVec 128) (r : Result) : Result :=
  match r with
  | .next t => .next (s.yielded t w)
  | r => r

/-- A GETS or SETS that waited for the queue is executed, and leaves the stream (R44, R99). -/
def State.runBlocked (s : State) : Result :=
  match s.me.blocked with
  | some w => s.afterWord w (exec .queueOrderedAccess s)
  | none => exec .queueOrderedAccess s

/-- What stands at the program counter is run; a word that does not decode is ILLEGAL (R110, R158). -/
def State.runFetched (s : State) : Result :=
  match s.fetchWord with
  | .error c => s.scalarFault { cause := c, faddr := s.me.pc }
  | .ok (.move w) => s.afterWord w (s.runWord w (.spliceMove (fieldsOf w)))
  | .ok (.word w) =>
    match decode (bytesOfWord w) with
    | .ok (i, _) => s.afterWord w (s.runWord w i)
    | .error _ => s.scalarFault { cause := cILLEGAL }

/-- The focused strand fetches and runs its next instruction: it waits without an issue token, and while another strand of its
core is to be served first (R99, R358, R398). A strand that has not started does so now (R130). -/
def State.runFetch (s : State) : Result :=
  if !s.mayFetch || s.firstDue.isSome || !s.mayIssue s.me then .next s
  else s.fetchToken.servedFetch.beginStrand.runFetched

/-- The array-class word at the program counter, if one stands there that decodes. -/
def State.arrayWord? (s : State) : Option (BitVec 128) :=
  match s.fetchWord with
  | .ok (.move w) => some w
  | .ok (.word w) => if isScalarOp (opOf w) || !(decodeWord w).isOk then none else some w
  | .error _ => none

/-- The focused strand fetches an array-class word, which enters the queue, be it empty, and does not issue yet (R13, R16). -/
def State.enterTurn (s : State) : Result :=
  if !s.mayFetch || s.firstDue.isSome || !s.mayIssue s.me then .next s
  else
    let t := s.fetchToken.servedFetch.beginStrand
    match t.arrayWord? with
    | some w => t.afterWord w (exec (.enqueue (opOf w) (fieldsOf w)) t)
    | none => .next s

/-! ### The array sequencer -/

/-- Does an entry come from a matched load of a spliced body? -/
def State.isMove (s : State) (e : Entry) : Bool :=
  ((s.spliceWord? s.me.launch.toNat e.pc).map fun w => w.matched.isSome).getD false

/-- The head of the queue is served. -/
def State.serveHead (s : State) : Result :=
  match s.me.queue with
  | [] => .next s
  | e :: _ =>
    if s.isMove e then s.execWord (.spliceMove (fieldsOf e.word)) e.word
    else
      match decodeWord e.word with
      | .ok i => s.execWord i e.word
      | .error _ => .next s

/-- The step that finishes a piece of work of a strand, where nothing outside the device is needed for it: no bytes and no
acknowledgement of a peer. -/
def Work.finisher (w : Work) (sid own : Nat) : Option Instr :=
  match w.kind with
  | .copy | .send => if w.sent || w.farSource own then none else some (.engineFinish sid w.k (.done 0) [])
  | .pload => some (.planeLoadFinish sid w.k)
  | .mms | .check => some (.matrixOpFinish sid w.k false)
  | .cred | .cbcast => none

/-- The head of the queue is served, unless its fault is to be reported. -/
def State.issueTurn (s : State) : Result :=
  if s.me.issues && !(s.me.pend.any Pend.isArray) then s.serveHead else .next s

/-- The head of the queue, which had issued before the strand was asked to stop or its level was cancelled, runs on for
`n + 1` units to a stop point (R28, R375). A sleeper stops with no effect (R37, R380). -/
def State.partTurn (s : State) (n : Nat) : Result :=
  if s.me.sleep.isSome || (s.me.preempt.isNone && !s.cancelComing s.me.launch.toNat) then .next s
  else
    match State.issueTurn { s with me := { s.me with bound := some (n + 1) } } with
    | .next t => .next { t with me := { t.me with bound := none } }
    | r => r

/-- Another strand takes the focus. -/
def State.refocus (s : State) (sid : Nat) : Result :=
  if s.me.sid == sid then .next s
  else
    match s.rest.find? fun x => x.sid == sid with
    | some st => .next { s with me := st, rest := s.rest.map fun x => if x.sid == sid then s.me else x }
    | none => .fault (.noSuchStrand sid)

/-- What the focused strand does where the agenda names nothing: a pending fault first, then its outstanding work, the
head of its queue, a queue-ordered access, and a fetch, or the turn of the strand that YLD lets go first. -/
def State.ownStep (s : State) : Result :=
  if !(s.me.status == .running || s.me.status == .halted) then .next s
  else
    match s.me.pend with
    | some p =>
      if p.isArray then exec .arrayFaultReport s
      else if s.me.queue.isEmpty then exec .scalarFaultReport s
      else if s.me.preempt.isSome then .next s
      else s.serveHead
    | none =>
      match s.me.work.findSome? (fun w => w.finisher s.me.sid s.myVdev.rank) with
      | some i => exec i s
      | none =>
        if s.me.preempt.isSome then .next s
        else if !s.me.queue.isEmpty then s.serveHead
        else if s.me.blocked.isSome then s.runBlocked
        else
          match s.firstDue with
          | some sid => s.refocus sid
          | none => s.runFetch

/-! ### Turns of the agenda -/

/-- Is the row a step of the focused strand's own stream, which no other agent takes? -/
def Instr.isOwn (i : Instr) : Bool :=
  i.word.isSome || match i with
    | .spliceMove _ => true
    | .enqueue _ _ => true
    | _ => false

/-- A Steward processor executes the scalar word at its program counter with its own registers (R422). A plug-in that reaches
outside its regions, be it by its fetch or by the frame of a trap, takes PRIV. The spec gives these processors no other fault: a word that would fault, and one that does not
translate, has no effect (log entry 98). -/
def State.stewardTurn (s : State) (n : Nat) : Result :=
  let c := s.stewards[n]?.getD {}
  let d := (s.vdev? c.tenant).getD {}
  let here : State := { s with me := c.cpu, rest := s.me :: s.rest }
  if s.firmware != .running || c.cpu.status != .running then .next s
  else if c.level == 2 && !d.pluginFetches c.cpu then .next (s.raisePriv (some d) 2 1)
  else match here.fetchWord with
  | .ok (.word w) =>
    if !isScalarOp (opOf w) then .next s
    else if c.level == 2 && !d.pluginStays c.cpu w then .next (s.raisePriv (some d) 2 1)
    else
      match decodeWord w with
      | .error _ => .next s
      | .ok i =>
        match exec i here with
        | .next t =>
          let frame := if t.me.hnd && !c.cpu.hnd then d.pluginRange ((c.cpu.getG 31).val - 16).toNat 16 2 else true
          if c.level == 2 && !frame then .next (s.raisePriv (some d) 2 1)
          else if t.me.status == .running || t.me.status == .halted then
            .next { t with
              me := t.rest.headD s.me, rest := t.rest.tail, stewards := t.stewards.setIfInBounds n { c with cpu := t.me } }
          else .next s
        | r => r
  | _ => .next s

/-- One turn. -/
def State.take (s : State) (t : Turn) : Result :=
  match t with
  | .fetch => s.runFetch
  | .issue => if s.me.preempt.isSome then .next s else s.issueTurn
  | .part n => s.partTurn n
  | .focus sid => s.refocus sid
  | .start sid => .next (s.asStrand sid fun t => if t.me.issues then t.beginStrand else t)
  | .event .queueOrderedAccess => s.runBlocked
  | .event i => if Instr.isOwn i then .refused .wordIsNoEvent else exec i s
  | .engine sid k n data => .next (s.asStrand sid fun t => t.engineTurn k n data)
  | .enter => s.enterTurn
  | .foldReply lid c index => s.ifOpen (.next (s.foldAnswered lid c index))
  | .manifestReply vd job a equal => s.ifOpen (.next (s.manifestAnswered vd job a equal))
  | .reply r => s.ifOpen (.next { s with replies := s.replies ++ [r] })
  | .lag g n => .next (s.setLag g n)
  | .tlbMiss sid va => .next (s.tlbMiss sid va)
  | .pageRoot vd root => .next (s.setRoot vd root)
  | .pageEntry pa v => .next (s.setPageEntry pa v)
  | .region vd n r => .next (s.setRegion vd n r)
  | .stewardStart n level tenant pc => .next (s.stewardStart n level tenant pc)
  | .steward n => s.stewardTurn n
  | .associate a =>
    .next { s with assocs := a :: s.assocs.filter fun x => !(x.vd == a.vd && x.peer == a.peer) }
  | .badPacket port => .next (s.discard port)

/-! ### A bench for one word -/

/-- A page table that maps the first GiB of the address space onto the first GiB of near memory, with every permission:
its nodes lie at 0x1000, 0x2000 and 0x3000. -/
def benchTable (m : List Host.Cell) : List Host.Cell :=
  memWrite (memWrite (memWrite m 0x1000 8 0x2001) 0x2000 8 0x3001) 0x3000 8 0x1F

/-- A machine in which virtual device 1, with an issue rate on core 0 of die 0, runs launch 1 of one strand, at 0x10000 of that
page table. -/
def State.bench (s : State) : State :=
  { s with
    firmware := .running
    vds := [{ vdid := 1, iface := .run, root := 0x1000 }]
    tolls := [{ vd := 1, rate := 1024, depth := 1, units := 1024 }]
    launches := [{ lid := 1, vd := 1, state := .running, placed := 1, strands := [33], leftCount := 1
                   record := BitVec.ofNat 512 (1 <<< 400 + 0x10000) }]
    me := { sid := 33, status := .running, pc := 0x10000, vdid := 1, launch := 1, nstrand := 1, place := { res := 1 } }
    mem := benchTable s.mem
    nextId := max s.nextId 64 }

/-- Where the next fetch reads, if it reads memory. -/
def State.fetchPa (s : State) : Option Nat :=
  if !s.mayFetch || s.firstDue.isSome || !s.mayIssue s.me || !s.me.queue.isEmpty || !s.me.work.isEmpty || bit s.me.pc.toNat 63 then none
  else
    match s.translate s.vd .ex s.me.pc.toNat with
    | .ok pa => some pa
    | .error _ => none

/-- Put a word at a physical address, and out of what the launches keep of their text. -/
def State.placeWord (s : State) (pa w : Nat) : State :=
  { s with
    mem := memWrite s.mem pa 16 w
    launches := s.launches.map fun l => { l with oldText := l.oldText.filter fun p => p.1 != pa / 32 } }

end Sys2Proof.Machine
end

