-- ==== Sys2Proof/Machine/Step.lean ====
section
/-! DEFINITION. One step of the machine, and the placing of a word where the next step fetches it. -/

namespace Sys2Proof.Machine

/-- One step: time goes on, and then the next turn of the agenda is taken, or, where it is empty, the focused strand's
own step. The caches hear of its writes. -/
def step (s : State) : Host.Outcome State Fault Refusal :=
  s.settled (match s.agenda with
    | t :: r => { s.tick with agenda := r }.take t
    | [] => s.tick.ownStep)

/-- The state with a word stored where the next step fetches its instruction; where no strand can fetch, a virtual device
with one running strand is set up for it. -/
def State.withFetchWord (s : State) (_nbits w : Nat) : State :=
  let s0 : State := { s with agenda := [] }
  match s0.fetchPa with
  | some pa => s0.placeWord pa w
  | none => s0.bench.placeWord 0x10000 w

end Sys2Proof.Machine
end

