-- ==== Sys2Proof/Safety.lean ====
section
/-! DEFINITION. What counts as a safe run, and the named conditions and results in which the statements speak. -/

namespace Sys2Proof.Machine

/-- The step answered a next state. -/
def Safe {σ φ ρ : Type} (o : Host.Outcome σ φ ρ) : Prop :=
  match o with
  | .next _ => True
  | _ => False

/-- The focused strand runs, with nothing outstanding: its queue is empty, no fault is pending, no access waits, no engine
work is owed, and nobody asks it to stop. -/
def Strand.resting (st : Strand) : Bool :=
  st.status == .running && st.queue.isEmpty && st.pend.isNone && st.blocked.isNone && !st.awaiting && st.preempt.isNone &&
    st.work.isEmpty && st.mirrors.isEmpty

/-- The invariant of the whole machine that steps keep: memory in its canonical form. -/
def State.Inv (s : State) : Prop := Memory.wf s.mem = true

/-! ### What stays as it is -/

/-- The registers that hold arrays, masks, tiles and tensor identifiers. -/
def Strand.sameArrays (a b : Strand) : Prop := a.v = b.v ∧ a.m = b.m ∧ a.z = b.z ∧ a.t = b.t

/-- The special registers but FLAGS, the exception registers and the handler bit (R43, R179, R180). -/
def Strand.sameSpecial (a b : Strand) : Prop :=
  a.rows = b.rows ∧ a.cols = b.cols ∧ a.stripb = b.stripb ∧ a.seed = b.seed ∧ a.vcfg = b.vcfg ∧ a.amb = b.amb ∧
    a.prog = b.prog ∧ a.slip = b.slip ∧ a.grant = b.grant ∧ a.scoutb = b.scoutb ∧ a.scoutm = b.scoutm ∧
    a.scoutt = b.scoutt ∧ a.fthr = b.fthr ∧ a.phase = b.phase ∧ a.vdid = b.vdid ∧ a.strand = b.strand ∧
    a.nstrand = b.nstrand ∧ a.launch = b.launch ∧ a.targ = b.targ ∧ a.trapv = b.trapv ∧ a.epc = b.epc ∧
    a.fcause = b.fcause ∧ a.faddr = b.faddr ∧ a.fpc = b.fpc ∧ a.fkern = b.fkern ∧ a.hnd = b.hnd

/-- All memory: every byte, and every granule's taint and poison. -/
def State.sameMemory (s t : State) : Prop :=
  (∀ a, memGet t.mem a = memGet s.mem a) ∧ t.memTaint = s.memTaint ∧ t.memPoison = s.memPoison

/-- Memory outside the bytes at the physical addresses `pas`. -/
def State.sameOutside (s t : State) (pas : List Nat) : Prop := ∀ a, a ∉ pas → memGet t.mem a = memGet s.mem a

/-- The bytes at the physical addresses `pas` hold the little-endian bytes of `x`. -/
def State.holdsBytes (t : State) (pas : List Nat) (x : Nat) : Prop :=
  ∀ k, (h : k < pas.length) → memGet t.mem pas[k] = BitVec.ofNat 8 (x / 256 ^ k)

/-! ### Scalar instructions -/

/-- Is any of the named registers tainted, or poisoned? -/
def Strand.taintOf (m : Strand) (gs qs : List Nat) : Bool :=
  gs.any (fun n => (m.getG n).taint) || qs.any fun n => (m.getQ n).taint
def Strand.poisonOf (m : Strand) (gs : List Nat) : Bool := gs.any fun n => (m.getG n).poison

/-- A scalar word acts: its guard holds (R94), TNT finds no tainted source (R100), and the POISON trap finds no
poisoned one (R156). -/
def State.acts (s : State) (f : Fields) (gs qs : List Nat) : Prop :=
  s.me.guard f.gs = true ∧
    (trapsTaint f = true → s.me.taintOf gs qs = false ∧ (s.me.getQ (f.gs.toNat % 8)).taint = false) ∧
    (s.poisonTrap = true → s.me.poisonOf gs = false)

/-- FLAGS with a set of flags ORed in (R46). -/
def Strand.flagged (m : Strand) (fl : Flags) : BitVec 16 := m.flags ||| BitVec.ofNat 16 (fl % 512)

/-- The state after a scalar word that writes `r` to g[d] and raises `fl` (R41, R89, R155): nothing else changes. -/
def State.endsG (s : State) (d : Nat) (r : GReg) (fl : Flags) : State :=
  { s with me := { s.me with
      pc := s.me.pc + 16, issued := s.now
      g := if d = 0 then s.me.g else s.me.g.setIfInBounds d r
      flags := s.me.flagged (fl ||| flagIf (d != 0 && r.taint) flTNT) } }

/-- The state after a scalar word that writes `r` to q[d] and raises `fl`: nothing else changes. -/
def State.endsQ (s : State) (d : Nat) (r : QReg) (fl : Flags) : State :=
  { s with me := { s.me with
      pc := s.me.pc + 16, issued := s.now
      q := if d = 0 then s.me.q else s.me.q.setIfInBounds d r
      flags := s.me.flagged (fl ||| flagIf (d != 0 && r.taint) flTNT) } }

/-- The state after a scalar word that reads the registers `gs` and writes `v` to g[d] (R155, R156). -/
def State.gives (s : State) (f : Fields) (gs : List Nat) (v : Word) (fl : Flags) : State :=
  s.endsG f.d.toNat { val := v, taint := s.me.taintOf gs [], poison := s.me.poisonOf gs }
    (fl ||| flagIf (s.me.poisonOf gs) flPSN)

/-- The state after a scalar word that reads `gs` and `qs` and writes `v` to q[d] (R155, R156). -/
def State.tells (s : State) (f : Fields) (gs qs : List Nat) (v : Bool) (fl : Flags) : State :=
  s.endsQ f.d.toNat { val := v, taint := s.me.taintOf gs qs } (fl ||| flagIf (s.me.poisonOf gs) flPSN)

/-- The state after a scalar word that only moves the PC, reading `gs` (R156). -/
def State.moves (s : State) (gs : List Nat) (pc : Word) : State :=
  { s with me := { s.me with pc := pc, issued := s.now, flags := s.me.flagged (flagIf (s.me.poisonOf gs) flPSN) } }

/-- What stops a scalar word that reads `gs` and `qs`, in a state where its guard holds: TNT at a tainted source (R100), then the
POISON trap at a poisoned one (R156). -/
def scalarTraps (i : Instr) (f : Fields) (gs qs : List Nat) (s : State) : Prop :=
  let taint := s.me.taintOf gs qs || (s.me.getQ (f.gs.toNat % 8)).taint
  s.me.guard f.gs = true →
    (trapsTaint f = true → taint = true → exec i s = s.scalarFault { cause := cTAINT }) ∧
    ((trapsTaint f = true → taint = false) → s.poisonTrap = true → s.me.poisonOf gs = true →
      exec i s = s.scalarFault { cause := cPOISON })

/-- Bit `k` of a 64-bit value. -/
def bitOf (a : Word) (k : Nat) : Bool := a.getLsbD k

/-! ### Array-class words -/

/-- An array-class word is served as soon as it is fetched: no older entry is queued, no engine work is owed and no
answer of a peer is awaited, it is not asked to stop part of its way (R375), its guard holds, its tiles are within the
strand's share (R110), and it names no mirror partner (R61). -/
def State.serves (s : State) (op : BitVec 8) (f : Fields) : Prop :=
  s.me.queue = [] ∧ s.me.reissued = false ∧ s.me.work = [] ∧ s.me.bound = none ∧ s.me.awaiting = false ∧ s.me.guard f.gs = true ∧
    (∀ n ∈ namedZ op.toNat f, n < tilesOf s.me.place.res) ∧
    (op = 0xA3 ∨ ∀ n ∈ namedV op.toNat f, ∀ p ∈ s.me.mirrors, p.2 ≠ n)

/-- What the entry consumes does not trap: no taint under TNT (R100), no poison under the POISON trap (R156, R191). -/
def State.consumes (s : State) (e : Entry) (f : Fields) (tainted poisoned : Bool) : Prop :=
  (trapsTaint f = true → tainted = false ∧ gvTainted e = false ∧ e.qt = 0) ∧ (s.poisonTrap = true → poisoned = false)

/-- The state after an array-class word that entered an empty queue has completed, with the strand's registers as in `m`:
the PC has advanced, the entry has left the queue, and nothing else has changed. -/
def State.retires (s : State) (m : Strand) : State :=
  { s with me := { m with
      pc := s.me.pc + 16, issued := s.now, queue := [], reissued := false, sleep := none, lastWork := none } }

/-- An array-class word, which is no store of a spliced body, stands at the head of the queue that it found empty (R13). -/
def State.entered (s : State) (op : BitVec 8) (f : Fields) : State :=
  { s with me := { s.me with pc := s.me.pc + 16, issued := s.now, queue := [s.capture op f] } }

/-- The flags that the positions of a result raise. -/
def piecesFlags (els : List (Option Elt × Flags)) : Flags := els.foldl (fun acc p => acc ||| p.2) 0

/-- Is a new element, or an old one that an inactive position keeps, poisoned? -/
def VReg.takesPoison (old : VReg) (z : Nat) (els : List (Option Elt × Flags)) : Bool :=
  (els.filterMap fun p => p.1).any Elt.poison ||
    (els.map fun p => p.1).zipIdx.any fun p =>
      p.1.isNone && decide (p.2 < count old.shape) && (old.elem z p.2).poison

/-- May the result be written to v[d] (R100, R191)? -/
def State.acceptsV (s : State) (e : Entry) (f : Fields) (d z : Nat) (els : List (Option Elt × Flags)) : Prop :=
  let act := els.filterMap fun p => p.1
  s.consumes e f (act.any Elt.taint || (!act.isEmpty && s.masksTainted e f)) ((s.me.getV d).takesPoison z els)

/-- The strand with v[d] written (R51, R56, R191): shape S, new elements where a position is active. -/
def Strand.takesV (m : Strand) (d z : Nat) (sh : List Nat) (els : List (Option Elt × Flags)) : Strand :=
  let old := m.getV d
  let new := old.write z sh (els.map fun p => p.1)
  { m with
    v := m.v.setIfInBounds d new
    flags := m.flagged (piecesFlags els ||| flagIf (old.takesPoison z els) flPSN ||| flagIf new.taint flTNT) }

/-- The strand with m[d] written; a write to m0 is discarded (R41, R51, R56, R191). -/
def Strand.takesM (m : Strand) (d : Nat) (new : MReg) (fl : Flags) : Strand :=
  { m with
    m := if d = 0 then m.m else m.m.setIfInBounds d new
    flags := m.flagged (fl ||| flagIf (d != 0 && new.taint) flTNT) }

/-- The strand with g[d] written by an array-class word (R191). -/
def Strand.takesG (m : Strand) (d : Nat) (x : Elt) (fl : Flags) : Strand :=
  { m with
    g := if d = 0 then m.g
         else m.g.setIfInBounds d { val := BitVec.ofNat 64 x.val, taint := x.taint, poison := x.poison }
    flags := m.flagged (fl ||| flagIf x.poison flPSN ||| flagIf (d != 0 && x.taint) flTNT) }

/-- Element `i` of each source for result element `i` of shape F ++ C (R54). -/
def resultPieces (s : State) (e : Entry) (f : Fields) (srcs : List Source) (fc : List Nat × List Nat)
    (g : Nat → List Elt → Elt × Flags) : List (Option Elt × Flags) :=
  (List.range (count (fc.1 ++ fc.2))).map fun i =>
    if isActive s e f (fc.1 ++ fc.2) i then
      (some (g i (elemsAt f.rk.toNat fc srcs i)).1, (g i (elemsAt f.rk.toNat fc srcs i)).2)
    else (none, 0)

/-- The operands of an elementwise instruction agree at its rank in a result of frame and cell `fc`, the masks agree with
it, and sources and result fit their registers (R50, R52 to R57). -/
def State.operandsAgree (s : State) (e : Entry) (f : Fields) (z : Nat) (srcs : List (Source × Nat))
    (fc : List Nat × List Nat) : Prop :=
  agreeAll f.rk.toNat (srcs.map fun p => p.1) = .ok fc ∧ checkMasks s e f (fc.1 ++ fc.2) = .ok () ∧
    (∀ p ∈ srcs, count p.1.shape ≤ capacity e.grows.toNat p.2) ∧ (fc.1 ++ fc.2).length ≤ 4 ∧
    count (fc.1 ++ fc.2) ≤ capacity e.grows.toNat z

/-- An elementwise instruction `i` writes `g` of its operands to v[D] at `z` bits, for every form of its operands. -/
def givesV (i : Instr) (op : BitVec 8) (f : Fields) (s : State) (z : Nat) (srcs : Entry → List (Source × Nat))
    (g : Entry → Nat → List Elt → Nat × Flags) : Prop :=
  ∀ fc : List Nat × List Nat,
    let e := s.capture op f
    let els := resultPieces s e f ((srcs e).map fun p => p.1) fc fun k xs => (eltOf (g e k xs).1 xs, (g e k xs).2)
    s.serves op f → s.operandsAgree e f z (srcs e) fc → s.acceptsV e f f.d.toNat z els →
    exec i s = .next (s.retires (s.me.takesV f.d.toNat z (fc.1 ++ fc.2) els))

/-- What stops an elementwise instruction, once its operands agree: TNT at a tainted source, then the POISON trap at what it
consumes (R100, R191). -/
def trapsV (i : Instr) (op : BitVec 8) (f : Fields) (s : State) (z : Nat) (srcs : Entry → List (Source × Nat)) : Prop :=
  ∀ fc : List Nat × List Nat,
    let e := s.capture op f
    let els := resultPieces s e f ((srcs e).map fun p => p.1) fc fun _ xs => (eltOf 0 xs, 0)
    let act := els.filterMap fun p => p.1
    let taint := act.any Elt.taint || (!act.isEmpty && s.masksTainted e f) || gvTainted e || e.qt != 0
    s.serves op f → s.operandsAgree e f z (srcs e) fc →
    (trapsTaint f = true → taint = true → exec i s = .next ((s.entered op f).arrayFault e { cause := cTAINT })) ∧
    ((trapsTaint f = true → taint = false) → s.poisonTrap = true → (s.me.getV f.d.toNat).takesPoison z els = true →
      exec i s = .next ((s.entered op f).arrayFault e { cause := cPOISON }))

/-! ### Structural instructions -/

/-- What the operands of a structural instruction must meet (R228, R57, R100): tensors are valid and of the format, masks
agree with S, operands fit, and under TNT no register that is read is tainted. -/
def State.movable (s : State) (e : Entry) (f : Fields) (srcs : List SOpd) (tainted : Bool) (sh : List Nat) : Prop :=
  (∀ o ∈ srcs, ∀ t, o.ten = some t → useEntry t f.fmt.toNat = .ok ()) ∧ checkMasks s e f sh = .ok () ∧
    (∀ o ∈ srcs, fitsOpd e f.rk.toNat (Fmt.size f.fmt.toNat) o = .ok ()) ∧
    (trapsTaint f = true → tainted = false ∧ (∀ o ∈ srcs, o.taint = false) ∧ s.masksTainted e f = false ∧
      gvTainted e = false ∧ e.qt = 0)

/-- A result of shape `sh` fits an array register at `z` bits (R50, R228). -/
def fitsRegister (e : Entry) (z : Nat) (sh : List Nat) : Prop :=
  sh.length ≤ 4 ∧ (∀ n ∈ sh, n ≤ 65535) ∧ count sh ≤ capacity e.grows.toNat z

/-- The positions of a result: `g` where active. -/
def positions (s : State) (e : Entry) (f : Fields) (sh : List Nat) (g : Nat → Elt × Flags) : List (Option Elt × Flags) :=
  (List.range (count sh)).map fun i => if isActive s e f sh i then (some (g i).1, (g i).2) else (none, 0)

/-- A structural instruction writes the positions `g` to v[D], with S the frame and cell `fr ++ rc`; `after` is what it
writes besides. -/
def buildsV (i : Instr) (op : BitVec 8) (f : Fields) (s : State) (z : Nat) (srcs : List SOpd) (tainted : Bool)
    (sh : List Nat) (g : Entry → Nat → Elt × Flags) (after : Strand → Strand := id) : Prop :=
  let e := s.capture op f
  let els := positions s e f sh (g e)
  f.fn.getLsbD 0 = false → s.serves op f → s.movable e f srcs tainted sh → fitsRegister e z sh →
  s.acceptsV e f f.d.toNat z els →
  exec i s = .next (s.retires { after (s.me.takesV f.d.toNat z sh els) with prog := 0 })

/-- Every element of an operand can be read, and is `x` (R228, R231). -/
def SOpd.reads (o : SOpd) (s : State) (x : Nat → Elt) : Prop := ∀ j < count o.sh, o.elem s j = .ok (x j)

/-! ### Stores, tokens and work -/

/-- The `n` addresses from `a`. -/
def span (a n : Nat) : List Nat := (List.range n).map (a + ·)

/-- The physical addresses of an element of `z` bits at a bit address; none where it cannot be written. -/
def State.bytesAt (s : State) (vd : Nat) (ba : Int) (z : Nat) : List Nat :=
  match s.transBits vd .wr ba z with
  | .ok pas => pas
  | .error _ => []

/-- `t` is `s` with elements (bit address, size, value) of virtual device `vd` written in order: no other byte changes, and
the bytes of an element that no later one touches hold its value; an element that spans pages may lie in one byte twice, and
that byte is left open. -/
def State.storesAt (s t : State) (vd : Nat) (xs : List (Int × Nat × Nat)) : Prop :=
  s.sameOutside t (xs.flatMap fun q => s.bytesAt vd q.1 q.2.1) ∧
    ∀ (m : Nat) (q : Int × Nat × Nat), xs[m]? = some q → q.1 % 8 = 0 → q.2.1 % 8 = 0 →
      (s.bytesAt vd q.1 q.2.1).Nodup →
      (∀ (m' : Nat) (q' : Int × Nat × Nat), m < m' → xs[m']? = some q' →
        ∀ a ∈ s.bytesAt vd q.1 q.2.1, a ∉ s.bytesAt vd q'.1 q'.2.1) →
      t.holdsBytes (s.bytesAt vd q.1 q.2.1) q.2.2

/-- Every element can be written. -/
def State.writable (s : State) (vd : Nat) (xs : List (Int × Nat × Nat)) : Prop :=
  ∀ q ∈ xs, ∃ pas, s.transBits vd .wr q.1 q.2.1 = .ok pas

/-- `t` is `s` after a finish at a token record (R316): DONE where it is known, then FIN plus 1 with CAN and ERR ORed in;
nothing where the instruction names no token. -/
def State.tokenFinished (s t : State) (tok done : Option Nat) (can err : Bool) : Prop :=
  match tok with
  | none => s.sameMemory t
  | some a => ∀ pa, s.translate s.vd .rw a = .ok pa →
    let old := memRead s.mem pa 8
    t.holdsBytes (span pa 8) ((old + 1) % 2 ^ 62 + (old / 2 ^ 62 ||| 2 * can.toNat ||| err.toNat) * 2 ^ 62) ∧
      (∀ n, done = some n → t.holdsBytes (span (pa + 16) 8) n) ∧
      s.sameOutside t (span pa 8 ++ if done.isSome then span (pa + 16) 8 else [])

/-- What the strand keeps while engine work is issued or finishes: every register but the array registers. -/
def Strand.keeps (a b : Strand) : Prop :=
  a.g = b.g ∧ a.q = b.q ∧ a.m = b.m ∧ a.z = b.z ∧ a.t = b.t ∧ a.sameSpecial b

/-- Word `i` of opcode `op` leaves the queue and leaves one piece of work behind, with the values it read (R298, R317) and
the flags that its finish raises (R47). -/
def issues (i : Instr) (op : BitVec 8) (f : Fields) (s : State) (kind : WorkKind) (owed : Flags)
    (vals : List (Nat × Bool × Bool)) (t : State) (w : Work) : Prop :=
  exec i s = .next t ∧ t.me.work = [w] ∧ w.kind = kind ∧ w.k = s.nextId ∧ w.entry = s.capture op f ∧ w.vals = vals ∧
    w.paused = false ∧ w.sent = false ∧ w.done = 0 ∧ t.me.pc = s.me.pc + 16 ∧ t.me.queue = [] ∧ t.me.v = s.me.v ∧
    t.me.keeps s.me ∧ t.me.flags = s.me.flags ∧ w.owedFlags = owed

/-- The elements that values of a tensor instruction are written to, in row-major order (R64, R317). -/
def targets (t : TEntry) (sh : List Nat) (vals : List (Nat × Bool × Bool)) : List (Int × Nat × Nat) :=
  (((List.range (count sh)).map fun i => t.addr (unravel sh i)).zip vals).map fun p => (p.1, Fmt.size t.fmt, p.2.1)

/-- The scale bytes that a COPY of a block format writes after its elements (R319). -/
def scaleTargets (t : TEntry) (blk : Nat) (sh : List Nat) (vals : List (Nat × Bool × Bool)) : List (Int × Nat × Nat) :=
  ((scaleBits t blk (blockStarts sh blk)).zip vals).map fun p => (p.1, 8, p.2.1)

/-- A COPY may write where it reads: a square transposition in place that the register file holds (R319). -/
def inPlace (f : Fields) (e : Entry) (cs : CopyShape) : Bool :=
  bit f.fn.toNat 1 && cs.ds.length == 2 && cs.ds.getD 0 0 == cs.ds.getD 1 0 && copyPerm f 2 == [1, 0] &&
    decide (count cs.ds * Fmt.size f.fmt.toNat ≤ e.grows.toNat * 2048)

end Sys2Proof.Machine
end

