-- ==== Sys2Proof/Certificates/Slice0/Obligations.lean ====
section
/-! DEFINITION. Statements for the provers, family by family: what each row of the opcode table does where it completes,
with what it leaves unchanged; where it faults; and what holds of the whole machine. The equations `exec i s = .next t`
name the whole next state, so that every field the right side does not name is unchanged. -/

open Sys2Proof Sys2Proof.Machine

/-! ### Reset and invariants -/

/-- R423: after reset the firmware waits for its image; there is no virtual device and no launch; memory lists nothing.
That an unlisted byte reads 0 and that no cluster is powered yet are the model's reading (log entries 2 and 3). -/
def Obligations.ResetState : Prop :=
  State.reset.firmware = .waiting ∧ State.reset.vds = [] ∧ State.reset.launches = [] ∧ State.reset.clusters = [] ∧
    State.reset.outbox = [] ∧ State.reset.cyc = Vector.replicate 4 0 ∧ State.reset.mem = [] ∧ State.reset.memTaint = [] ∧
    State.reset.memPoison = [] ∧ State.reset.Inv

/-- Every step keeps memory in its canonical form. The form is the model's own (log entry 3). -/
def Obligations.StepKeepsMemoryForm : Prop :=
  ∀ s t : State, s.Inv → step s = .next t → t.Inv

/-- Every row of the table answers a next state in every state: no instruction is refused, and none ends a run. That a
row which is not enabled answers the state unchanged is the model's choice (log entry 15). -/
def Obligations.EveryRowAnswers : Prop := ∀ (i : Instr) (s : State), ∃ t, exec i s = .next t

/-! ### Decoding -/

/-- R90, R110: decoding the encoded word of a legal opcode and fields gives the instruction back, with every operand. -/
def Obligations.DecodeEncode : Prop :=
  ∀ (i : Instr) (op : BitVec 8) (f : Fields), i.word = some (op, f) → i.formOk = true → legal op f = true →
    ∃ w, encode i = some w ∧ decodeWord w = .ok i ∧ opOf w = op ∧ fieldsOf w = f ∧
      ∀ rest, decode (bytesOfWord w ++ rest) = .ok (i, rest)

/-- Words written out from the encoding tables decode to their instructions (R89, R90, R105 to R109). A word whose
opcode is 0x00, reserved, or 0xC0 to 0xFF is no instruction (R104, R110), nor is fewer than 16 bytes. -/
def Obligations.WordsDecode : Prop :=
  decodeWord 0x010C10800000000000000000000000000#128 = .ok (.add { d := 3, a := 1, b := 2 }) ∧
  decodeWord 0x030C1000000000000000FFFFFFFFFFFB#128 = .ok (.addi { d := 3, a := 1, imm := 0xfffffffffffb }) ∧
  decodeWord 0x23146000000000040006FFFFFFFFFFF8#128 = .ok (.ld { d := 5, a := 6, fn := 6, imm := 0xfffffffffff8, hint := 4 }) ∧
  decodeWord 0x280C1084000003200000000000000000#128 = .ok (.ffma { d := 3, a := 1, b := 2, c := 4, rnd := 6, fso := true }) ∧
  decodeWord 0x300000000080000000000000FFFFFFFE#128 = .ok (.br { imm := 0xfffffffe, gs := 2 }) ∧
  decodeWord 0x410082407C0050000001000000000000#128 = .ok (.vldPtr { d := 0, a := 8, b := 9, fmt := 20, e := 31, fn := 1 }) ∧
  decodeWord 0x490C1084000382800005000000000000#128 = .ok (.vfma { d := 3, a := 1, b := 2, c := 4, fn := 5, rnd := 5, rk := 7 }) ∧
  decodeWord 0x700C1000000000000040000000000000#128 = .ok (.red { d := 3, a := 1, fn := 64 }) ∧
  decodeWord 0x930C10840000000000F8000000000003#128 = .ok (.amo { d := 3, a := 1, b := 2, c := 4, fn := 0xf8, imm := 3 }) ∧
  decodeWord 0x9B0C1FC0000000000001000000000000#128 = .ok (.copy { d := 3, a := 1, b := 63, fn := 1 }) ∧
  decodeWord 0xB43C108400000000000000000005037F#128 = .ok (.mms { d := 15, a := 1, b := 2, c := 4, imm := 0x5037f }) ∧
  (∀ w : BitVec 128,
    (opOf w).toNat ∈ [0x00, 0x1F, 0x20, 0x2F, 0x35, 0x36, 0x37, 0x3F] ∨ 0x68 ≤ (opOf w).toNat ∧ (opOf w).toNat ≤ 0x6F ∨
      0x82 ≤ (opOf w).toNat ∧ (opOf w).toNat ≤ 0x8F ∨ 0xA6 ≤ (opOf w).toNat ∧ (opOf w).toNat ≤ 0xAF ∨
      0xBC ≤ (opOf w).toNat →
    decodeWord w = .error .reservedOpcode) ∧
  ∀ bs : List Byte, bs.length < 16 → decode bs = .error .shortWord

/-! ### Running a word -/

/-- R89, R13: a step of a strand that has nothing outstanding runs the instruction that the sixteen bytes at the PC
decode to. Before it, time goes on by `State.tick`, a free value (log entry 7), the fetch takes its token from the Toll
bucket of its core (R397, R398; log entry 61), and a strand that starts copies its bound entries (R130; log entry 103);
after it, the caches have heard of its accesses and requests for tokens wait (R398; log entries 61 and 113), its access has
its place in the order of the strand's own (R283, R284, R288), and a word with YLD, or a YIELD, notes which strands come first
(R99, R185; log entry 100). That the focused strand moves where the agenda is empty is the model's choice (log entry 1). -/
def Obligations.StepRunsDecodedWord : Prop :=
  ∀ (s : State) (w : BitVec 128) (i : Instr) (rest : List Byte),
    let u := s.tick.fetchToken.servedFetch.beginStrand
    s.agenda = [] → s.me.resting = true → s.tick.firstDue = none → s.tick.mayIssue s.me = true →
    u.fetchWord = .ok (.word w) → decode (bytesOfWord w) = .ok (i, rest) →
    u.mem = s.mem ∧ u.me.pc = s.me.pc ∧ u.me.g = s.me.g ∧ u.me.q = s.me.q ∧ u.me.v = s.me.v ∧ u.me.m = s.me.m ∧
      u.me.z = s.me.z ∧ u.me.flags = s.me.flags ∧ u.me.sameSpecial s.me ∧ (s.me.begun = true → u.me.t = s.me.t) ∧
      ∀ t, exec i u = .next t → ∃ lines fills dues dropped order after,
        step s = .next { t with
          lines := lines, fills := fills, dues := dues, dropped := dropped, stores := []
          me := { t.me with order := order, after := after } } ∧
        (u.me.yields w = false → after = t.me.after)

/-- R89, R112, R158, R110, R17: a word below 2^63 is fetched from the sixteen bytes at the translated PC, lowest address
first, where the launch keeps no older text of its own (R112); that a poisoned granule is fetched as it stands is the model's
choice (log entry 96). A fetch that does not translate raises XLATE, and one from a page that may not be executed PROT, with FPC, FADDR and EPC
the fetch address; a word that is no instruction raises ILLEGAL at its PC, with FADDR 0. FADDR 0 is the model's reading
where no rule states one (log entry 17). -/
def Obligations.FetchResults : Prop :=
  (∀ (s : State) (pa : Nat), s.me.pc.toNat < 2 ^ 63 → s.me.pc.toNat % 16 = 0 → s.myLaunch.oldText = [] →
    s.translate s.vd .ex s.me.pc.toNat = .ok pa →
    ∃ w, s.fetchWord = .ok (.word w) ∧ bytesOfWord w = (List.range 16).map fun k => memGet s.mem (pa + k)) ∧
  (∀ s : State,
    let u := s.tick.fetchToken.servedFetch.beginStrand
    let ends (p : Pend) : Prop := ∃ lines fills dues dropped, step s = .next { u.takeFault p with
      lines := lines, fills := fills, dues := dues, dropped := dropped, stores := [] }
    s.agenda = [] → s.me.resting = true → s.tick.firstDue = none → s.tick.mayIssue s.me = true →
    (∀ c, u.fetchWord = .error c →
      (c = cXLATE ∨ c = cPROT) ∧ ends { cause := c, faddr := s.me.pc, fpc := s.me.pc, epc := s.me.pc }) ∧
    (∀ w e, u.fetchWord = .ok (.word w) → decode (bytesOfWord w) = .error e →
      ends { cause := cILLEGAL, fpc := s.me.pc, epc := s.me.pc }))

/-! ### Scalar integer and logic instructions (R154 to R164) -/

/-- R159, R160: the two-source integer and logic instructions. That a tainted result written to g0 raises no TNT is the model's
reading (log entry 22). -/
def Obligations.ScalarArithmetic : Prop :=
  ∀ (f : Fields) (s : State), s.acts f [f.a.toNat, f.b.toNat] [] →
    let a := (s.me.getG f.a.toNat).val
    let b := (s.me.getG f.b.toNat).val
    let out (v : Word) : Result := .next (s.gives f [f.a.toNat, f.b.toNat] v 0)
    exec (.add f) s = out (BitVec.ofNat 64 (a.toNat + b.toNat)) ∧
    exec (.sub f) s = out (BitVec.ofInt 64 (a.toInt - b.toInt)) ∧
    exec (.mul f) s = out (BitVec.ofNat 64 (a.toNat * b.toNat)) ∧
    exec (.mulh f) s = out (BitVec.ofInt 64 (a.toInt * b.toInt / 2 ^ 64)) ∧
    exec (.mulhn f) s = out (BitVec.ofNat 64 (a.toNat * b.toNat / 2 ^ 64)) ∧
    exec (.and f) s = out (a &&& b) ∧
    exec (.or f) s = out (a ||| b) ∧
    exec (.xor f) s = out (a ^^^ b) ∧
    exec (.andn f) s = out (a &&& ~~~b) ∧
    exec (.shl f) s = out (BitVec.ofNat 64 (a.toNat * 2 ^ (b.toNat % 64))) ∧
    exec (.shr f) s = out (BitVec.ofNat 64 (a.toNat / 2 ^ (b.toNat % 64))) ∧
    exec (.shra f) s = out (BitVec.ofInt 64 (a.toInt / 2 ^ (b.toNat % 64))) ∧
    exec (.rotl f) s = out (a <<< (b.toNat % 64) ||| a >>> (64 - b.toNat % 64)) ∧
    exec (.min f) s = out (if a.toInt ≤ b.toInt then a else b) ∧
    exec (.max f) s = out (if a.toInt ≤ b.toInt then b else a) ∧
    exec (.minn f) s = out (if a.toNat ≤ b.toNat then a else b) ∧
    exec (.maxn f) s = out (if a.toNat ≤ b.toNat then b else a)

/-- R159, R79: division, as i64 and as n64 (by zero it writes all ones or the dividend, and sets DZ), and CLZ, CTZ,
POPC and CLMUL, bit by bit. That a tainted result written to g0 raises no TNT is the model's reading (log entry 22). -/
def Obligations.ScalarDivisionAndBits : Prop :=
  (∀ (f : Fields) (s : State), s.acts f [f.a.toNat, f.b.toNat] [] →
    let a := (s.me.getG f.a.toNat).val
    let b := (s.me.getG f.b.toNat).val
    let out (v : Word) (fl : Flags) : Result := .next (s.gives f [f.a.toNat, f.b.toNat] v fl)
    (b = 0 → exec (.div f) s = out (BitVec.allOnes 64) flDZ ∧ exec (.divn f) s = out (BitVec.allOnes 64) flDZ ∧
      exec (.rem f) s = out a flDZ ∧ exec (.remn f) s = out a flDZ) ∧
    (b ≠ 0 → exec (.div f) s = out (BitVec.ofInt 64 (Int.tdiv a.toInt b.toInt)) 0 ∧
      exec (.divn f) s = out (BitVec.ofNat 64 (a.toNat / b.toNat)) 0 ∧
      exec (.rem f) s = out (BitVec.ofInt 64 (Int.tmod a.toInt b.toInt)) 0 ∧
      exec (.remn f) s = out (BitVec.ofNat 64 (a.toNat % b.toNat)) 0)) ∧
  (∀ (f : Fields) (s : State),
    let a := (s.me.getG f.a.toNat).val
    let b := (s.me.getG f.b.toNat).val
    (s.acts f [f.a.toNat] [] →
      (∃ n ≤ 64, exec (.clz f) s = .next (s.gives f [f.a.toNat] (BitVec.ofNat 64 n) 0) ∧
        (∀ k, 64 - n ≤ k → bitOf a k = false) ∧ (n < 64 → bitOf a (63 - n) = true)) ∧
      (∃ n ≤ 64, exec (.ctz f) s = .next (s.gives f [f.a.toNat] (BitVec.ofNat 64 n) 0) ∧
        (∀ k, k < n → bitOf a k = false) ∧ (n < 64 → bitOf a n = true)) ∧
      exec (.popc f) s =
        .next (s.gives f [f.a.toNat] (BitVec.ofNat 64 ((List.range 64).countP fun k => bitOf a k)) 0)) ∧
    (s.acts f [f.a.toNat, f.b.toNat] [] →
      ∃ v : Word, exec (.clmul f) s = .next (s.gives f [f.a.toNat, f.b.toNat] v 0) ∧
        ∀ k < 64, bitOf v k = ((List.range (k + 1)).countP (fun i => bitOf a (k - i) && bitOf b i) % 2 == 1)))

/-- R160, R161, R164: ADDI, LI, LIH, and SEL, which takes the taint of q[A] and of the selected register only.
That a tainted result written to g0 raises no TNT is the model's reading (log entry 22). -/
def Obligations.ScalarConstantsSelect : Prop :=
  ∀ (f : Fields) (s : State),
    let a := (s.me.getG f.a.toNat).val
    (s.acts f [f.a.toNat] [] →
      exec (.addi f) s = .next (s.gives f [f.a.toNat] (BitVec.ofInt 64 (a.toInt + f.imm.toInt)) 0) ∧
      exec (.lih f) s = .next (s.gives f [f.a.toNat]
        (BitVec.ofNat 64 (a.toNat % 2 ^ 48 + f.imm.toNat % 2 ^ 16 * 2 ^ 48)) 0)) ∧
    (s.acts f [] [] → exec (.li f) s = .next (s.gives f [] (BitVec.ofInt 64 f.imm.toInt) 0)) ∧
    (let src := if (s.me.getQ f.a.toNat).val then f.b.toNat else f.c.toNat
     s.acts f [src] [f.a.toNat] →
      exec (.sel f) s = .next (s.endsG f.d.toNat
        { val := (s.me.getG src).val, taint := s.me.taintOf [src] [f.a.toNat], poison := (s.me.getG src).poison }
        (flagIf (s.me.getG src).poison flPSN)))

/-- R162, R163: CMP, CMPI and QOP. That a tainted result written to q0 raises no TNT is the model's reading (log entry 22). -/
def Obligations.ScalarCompares : Prop :=
  ∀ (f : Fields) (s : State),
    let a := (s.me.getG f.a.toNat).val
    let conds (b : Word) : List Bool :=
      [decide (a = b), decide (a ≠ b), decide (a.toInt < b.toInt), decide (a.toInt ≤ b.toInt), decide (b.toInt < a.toInt),
        decide (b.toInt ≤ a.toInt), decide (a.toNat < b.toNat), decide (a.toNat ≤ b.toNat), decide (b.toNat < a.toNat),
        decide (b.toNat ≤ a.toNat)]
    (∀ v, (conds (s.me.getG f.b.toNat).val)[f.fn.toNat]? = some v → s.acts f [f.a.toNat, f.b.toNat] [] →
      exec (.cmp f) s = .next (s.tells f [f.a.toNat, f.b.toNat] [] v 0)) ∧
    (∀ v, (conds (BitVec.ofInt 64 f.imm.toInt))[f.fn.toNat]? = some v → s.acts f [f.a.toNat] [] →
      exec (.cmpi f) s = .next (s.tells f [f.a.toNat] [] v 0)) ∧
    (s.acts f [] [f.a.toNat, f.b.toNat] →
      exec (.qop f) s = .next (s.tells f [] [f.a.toNat, f.b.toNat]
        (f.fn.getLsbD (2 * (s.me.getQ f.a.toNat).val.toNat + (s.me.getQ f.b.toNat).val.toNat)) 0))

/-! ### Scalar f32 (R167 to R170) -/

/-- R167 to R170, R69: the f32 instructions read bits 31:0, write an f32 result with bits 63:32 cleared, and raise the
flags of the operation under RND, FSI and FSO. Invalid operations give the canonical NaN with NV, a finite non-zero number
divided by zero gives the infinity of the quotient's sign with DZ (a subnormal one too, unless FSI flushes it), and √−0 is −0.
That a tainted result written to g0 or q0 raises no TNT, and that FMIN and FMAX under FSO flush their result with no flag, are
the model's readings (log entries 22 and 27). -/
def Obligations.ScalarFloat : Prop :=
  (∀ (f : Fields) (s : State),
    let x (n : BitVec 6) : Nat := (s.me.getG n.toNat).val.toNat % 2 ^ 32
    let code := if f.rnd = 6 then bits s.me.vcfg.toNat 8 6 else f.rnd.toNat
    let md : Mode := { fmt := 0, rnd := { code := if code = 5 then 0 else code }, fsi := f.fsi, fso := f.fso }
    let out (gs : List Nat) (o : ArOp) (c : Nat) : Result :=
      let r := floatOp o md (x f.a) (if gs.length = 1 then 0 else x f.b) c
      .next (s.gives f gs (BitVec.ofNat 64 r.1) r.2)
    let ab := [f.a.toNat, f.b.toNat]
    (s.acts f ab [] →
      exec (.fadd f) s = out ab .add 0 ∧ exec (.fsub f) s = out ab .sub 0 ∧ exec (.fmul f) s = out ab .mul 0 ∧
      exec (.fdiv f) s = out ab .div 0 ∧ exec (.fmin f) s = out ab .min 0 ∧ exec (.fmax f) s = out ab .max 0 ∧
      exec (.fcmp f) s =
        (let r := cmpElem 0 f.fn.toNat f.fsi (x f.a) (x f.b)
         .next (s.tells f ab [] r.1 r.2))) ∧
    (s.acts f (ab ++ [f.c.toNat]) [] → exec (.ffma f) s = out (ab ++ [f.c.toNat]) .fma (x f.c)) ∧
    (s.acts f [f.a.toNat] [] → exec (.fsqrt f) s = out [f.a.toNat] .sqrt 0)) ∧
  (∀ md : Mode, md.fmt = 0 → md.sat = false →
    let pz := 0x00000000
    let nz := 0x80000000
    let pinf := 0x7F800000
    let ninf := 0xFF800000
    let nan := 0x7FC00000
    floatOp .sub md pinf pinf 0 = (nan, flNV) ∧ floatOp .add md pinf ninf 0 = (nan, flNV) ∧
    floatOp .mul md pz pinf 0 = (nan, flNV) ∧ floatOp .fma md pz pinf nan = (nan, flNV) ∧
    floatOp .div md pz pz 0 = (nan, flNV) ∧ floatOp .div md pinf pinf 0 = (nan, flNV) ∧
    floatOp .sqrt md 0xBF800000 0 0 = (nan, flNV) ∧ floatOp .sqrt md nz 0 0 = (nz, 0) ∧
    (∀ x < 2 ^ 32, x % 2 ^ 31 ≠ 0 → (md.fsi = true → 2 ^ 23 ≤ x % 2 ^ 31) → x % 2 ^ 31 < pinf →
      floatOp .div md x pz 0 = (if x < 2 ^ 31 then pinf else ninf, flDZ) ∧
      floatOp .div md x nz 0 = (if x < 2 ^ 31 then ninf else pinf, flDZ)))

/-- R170, R82: FCVT converts between f32 and the format FN[4:0], in the direction FN[7]. Flags beside NV follow log
entries 25 and 31, and a float result that SAT clamps log entry 75; that a tainted result written to g0 raises no TNT is the
model's reading (log entry 22). -/
def Obligations.ScalarConvert : Prop :=
  ∀ (f : Fields) (s : State), s.acts f [f.a.toNat] [] →
    let x := (s.me.getG f.a.toNat).val.toNat
    let other := f.fn.toNat % 32
    let code := if f.rnd = 6 then bits s.me.vcfg.toNat 8 6 else f.rnd.toNat
    let rnd : Rnd := { code := if code = 5 then 0 else code }
    let back := convElem other 0 rnd f.fsi f.fso false (x % 2 ^ Fmt.size other)
    let fwd := convElem 0 other rnd f.fsi f.fso (f.sat && Fmt.isF other) (x % 2 ^ 32)
    exec (.fcvt f) s = .next (s.gives f [f.a.toNat]
      (if f.fn.getLsbD 7 then BitVec.ofNat 64 back.1
       else if other = 7 then (BitVec.ofNat 32 fwd.1).signExtend 64 else BitVec.ofNat 64 fwd.1)
      (if f.fn.getLsbD 7 then back.2 else fwd.2))

/-! ### Loads and stores (R165, R166) -/

/-- R165, R155, R156: LD reads 2^FN[1:0] bytes at g[A] + IMM, extends them by FN[2], and takes taint and poison of the
base and of the granule read. That a tainted value loaded into g0 raises no TNT is the model's reading (log entry 22). -/
def Obligations.LoadResult : Prop :=
  ∀ (f : Fields) (s : State) (x : Nat × Bool × Bool),
    let ea := (s.me.getG f.a.toNat).val + BitVec.ofInt 64 f.imm.toInt
    let size := 2 ^ (f.fn.toNat % 4)
    let base := s.me.getG f.a.toNat
    s.acts f [f.a.toNat] [] → ea.toNat % size = 0 → ea.toNat < 2 ^ 56 →
    s.loadBytes ea.toNat size = .ok x → (trapsTaint f = true → x.2.1 = false) → (s.poisonTrap = true → x.2.2 = false) →
    exec (.ld f) s = .next (s.endsG f.d.toNat
      { val := if f.fn.getLsbD 2 then BitVec.ofInt 64 (toSigned (8 * size) x.1) else BitVec.ofNat 64 x.1
        taint := base.taint || x.2.1, poison := base.poison || x.2.2 }
      (flagIf (base.poison || x.2.2) flPSN))

/-- R165, R155: ST writes the low bytes of g[D] at g[A] + IMM, and nothing else of memory; registers keep their values.
That a tainted stored value raises no TNT is the model's reading (log entry 23). -/
def Obligations.StoreResult : Prop :=
  ∀ (f : Fields) (s : State) (pas : List Nat),
    let ea := (s.me.getG f.a.toNat).val + BitVec.ofInt 64 f.imm.toInt
    let size := 2 ^ (f.fn.toNat % 4)
    let gs := [f.d.toNat, f.a.toNat]
    s.Inv → s.acts f gs [] → ea.toNat % size = 0 → ea.toNat < 2 ^ 56 →
    s.transBits s.vd .wr (8 * (ea.toNat : Int)) (8 * size) = .ok pas →
    ∃ t, exec (.st f) s = .next t ∧ t.holdsBytes pas ((s.me.getG f.d.toNat).val.toNat % 2 ^ (8 * size)) ∧
      s.sameOutside t pas ∧ t.me.pc = s.me.pc + 16 ∧ t.me.g = s.me.g ∧ t.me.q = s.me.q ∧ t.me.sameArrays s.me ∧
      t.me.sameSpecial s.me ∧ t.me.flags = s.me.flagged (flagIf (s.me.poisonOf gs) flPSN) ∧
      (s.me.taintOf gs [] = true → ∀ pa ∈ pas, pa / 32 ∈ t.memTaint)

/-! ### Branches, calls and returns (R171 to R177) -/

/-- R171, R172, R173, R184, R185: BR, JMP, JMPI, NOP, YIELD and HALT. A false guard only advances the PC (R94). -/
def Obligations.BranchResults : Prop :=
  ∀ (f : Fields) (s : State),
    let target := s.me.pc + BitVec.ofInt 64 (16 * (f.imm.setWidth 32).toInt)
    let a := (s.me.getG f.a.toNat).val
    (s.acts f [] [] →
      exec (.br f) s = .next (s.moves [] target) ∧
      exec (.jmp f) s = .next (s.moves [] (BitVec.ofNat 64 f.imm.toNat)) ∧
      exec (.nop f) s = .next (s.moves [] (s.me.pc + 16)) ∧
      exec (.yield f) s = .next (s.moves [] (s.me.pc + 16)) ∧
      exec (.halt f) s = .next { s.moves [] (s.me.pc + 16) with
        me := { (s.moves [] (s.me.pc + 16)).me with status := .halted } }) ∧
    (s.acts f [f.a.toNat] [] → a.toNat % 16 = 0 → a.toNat < 2 ^ 56 →
      exec (.jmpi f) s = .next (s.moves [f.a.toNat] a)) ∧
    (s.me.guard f.gs = false → ∀ i ∈ [Instr.br f, .jmp f, .jmpi f, .call f, .ret f, .nop f, .yield f, .halt f, .add f, .li f,
        .ld f, .st f, .trap f, .brk f], exec i s = .next s.advance)

/-- R174, R175, R176: CALL pushes a frame of 16 bytes below g31, with the return address and the array-state word, and
branches. Memory outside the frame, and every register but g31, keep their values. What a tainted g31 does to FLAGS is
left to log entry 24. -/
def Obligations.CallPushesFrame : Prop :=
  ∀ (f : Fields) (s : State) (lo hi : List Nat),
    let sp := s.me.getG 31
    let fp := sp.val - 16
    let w := s.me.rows.toNat * 2 ^ 48 + s.me.cols.toNat * 2 ^ 32 + s.me.vcfg.toNat * 2 ^ 16 + s.me.amb.toNat * 2 ^ 13
    s.Inv → s.acts f [31] [] → fp.toNat % 16 = 0 → fp.toNat < 2 ^ 56 →
    s.transBits s.vd .wr (8 * (fp.toNat : Int)) 64 = .ok lo →
    s.transBits s.vd .wr (8 * ((fp.toNat + 8 : Nat) : Int)) 64 = .ok hi →
    ∃ t, exec (.call f) s = .next t ∧ t.me.pc = s.me.pc + BitVec.ofInt 64 (16 * (f.imm.setWidth 32).toInt) ∧
      t.holdsBytes lo (s.me.pc + 16).toNat ∧ t.holdsBytes hi w ∧ s.sameOutside t (lo ++ hi) ∧
      t.me.g = s.me.g.setIfInBounds 31 { sp with val := fp } ∧ t.me.q = s.me.q ∧ t.me.sameArrays s.me ∧ t.me.sameSpecial s.me

/-- R177, R181: RET from a frame with TF 0 restores ROWS (cut to GROWS), COLS, VCFG and AMB, moves g31 up by 16 and goes
to the return address. From a trap frame, with HND 1 and the queue empty, it ends the handler: the queue image is
reissued without its first entry where DROP is 1, HND becomes 0 and the PC is EPC. That a tainted g31 sets TNT is the
model's reading (log entry 24). -/
def Obligations.ReturnRestores : Prop :=
  ∀ (f : Fields) (s : State) (ra w : Nat × Bool × Bool),
    let sp := s.me.getG 31
    let popped : Strand := { s.me with
      issued := s.now
      g := s.me.g.setIfInBounds 31 { sp with val := sp.val + 16 }
      rows := BitVec.ofNat 16 (min (w.1 / 2 ^ 48 % 2 ^ 16) s.me.grows)
      cols := BitVec.ofNat 16 (w.1 / 2 ^ 32 % 2 ^ 16)
      vcfg := BitVec.ofNat 16 (w.1 / 2 ^ 16 % 2 ^ 16)
      amb := BitVec.ofNat 3 (w.1 / 2 ^ 13 % 8)
      flags := s.me.flagged (flagIf (sp.poison || ra.2.2 || w.2.2) flPSN ||| flagIf sp.taint flTNT) }
    s.acts f [31] [] → sp.val.toNat % 16 = 0 →
    s.loadBytes sp.val.toNat 8 = .ok ra → s.loadBytes (sp.val.toNat + 8) 8 = .ok w →
    (trapsTaint f = true → ra.2.1 = false ∧ w.2.1 = false) → (s.poisonTrap = true → ra.2.2 = false ∧ w.2.2 = false) →
    w.1 / 4 % 2 ^ 11 = 0 → vcfgMemOk (w.1 / 2 ^ 16 % 2 ^ 16) = true →
    (w.1 % 4 = 0 → ra.1 % 16 = 0 → exec (.ret f) s = .next { s with me := { popped with pc := BitVec.ofNat 64 ra.1 } }) ∧
    (w.1 % 2 = 1 → s.me.hnd = true → s.me.queue = [] →
      let image := if w.1 / 2 % 2 = 1 then s.me.image.tail else s.me.image
      exec (.ret f) s = .next { s with me := { popped with
        pc := s.me.epc, hnd := false, queue := image, reissued := !image.isEmpty, image := [] } })

/-! ### Special registers and faults (R43, R44, R178 to R183) -/

/-- R43, R45, R182: SETS stores the low bits of g[A] in a writable special register; ROWS takes min(GROWS, value). A
SETS of a read-only register or of a VCFG that R45 does not allow raises ILLEGAL, and one of a misaligned EPC or TRAPV
ALIGN. FADDR 0 of its ALIGN is the model's reading (log entry 17). -/
def Obligations.SetsResult : Prop :=
  ∀ (f : Fields) (s : State), s.acts f [f.a.toNat] [] →
    let n := f.fn.toNat
    let g := s.me.getG f.a.toNat
    (writableSpecial n = false → exec (.sets f) s = s.scalarFault { cause := cILLEGAL }) ∧
    (n = 0x05 → vcfgOk (g.val.toNat % 2 ^ 16) = false → exec (.sets f) s = s.scalarFault { cause := cILLEGAL }) ∧
    (n = 0x19 ∨ n = 0x1A → g.val.toNat % 16 ≠ 0 → exec (.sets f) s = s.scalarFault { cause := cALIGN }) ∧
    (writableSpecial n = true → (queueOrdered n = true → s.me.queue = []) →
    (n = 0x05 → vcfgOk (g.val.toNat % 2 ^ 16) = true) → (n = 0x19 ∨ n = 0x1A → g.val.toNat % 16 = 0) →
    ∃ t, exec (.sets f) s = .next t ∧ t.me.pc = s.me.pc + 16 ∧ t.me.g = s.me.g ∧ t.me.q = s.me.q ∧ s.sameMemory t ∧
      (n ≠ 0x00 → n ≠ 0x07 → t.readSpecial n = BitVec.ofNat 64 (g.val.toNat % 2 ^ (match n with
        | 0x01 => 16 | 0x05 => 9 | 0x06 => 3 | 0x0B | 0x0C | 0x0D | 0x1B | 0x1E => 32 | 0x0E => 48 | _ => 64))) ∧
      (n = 0x00 → t.readSpecial n = BitVec.ofNat 64 (min g.val.toNat s.me.grows)) ∧
      (n = 0x07 → t.readSpecial n = BitVec.ofNat 64 (g.val.toNat % 512 |||
        (flagIf g.taint flTNT ||| flagIf g.poison flPSN))) ∧
      ∀ k ≤ 0x1E, k ≠ n → k ≠ 0x07 → t.readSpecial k = s.readSpecial k)

/-- R165, R173, R176, R177: a misaligned effective address, jump target or frame raises ALIGN, and one above 2^56 XLATE.
FADDR 0 of the ALIGN of JMPI, and that no flag is raised, are the model's readings (log entries 17 and 18). -/
def Obligations.ScalarAddressFaults : Prop :=
  ∀ (f : Fields) (s : State),
    let ea := (s.me.getG f.a.toNat).val + BitVec.ofInt 64 f.imm.toInt
    let size := 2 ^ (f.fn.toNat % 4)
    let a := (s.me.getG f.a.toNat).val
    let sp := (s.me.getG 31).val
    (s.acts f [f.a.toNat] [] →
      (ea.toNat % size ≠ 0 → exec (.ld f) s = s.scalarFault { cause := cALIGN, faddr := ea }) ∧
      (ea.toNat % size = 0 → 2 ^ 56 ≤ ea.toNat → exec (.ld f) s = s.scalarFault { cause := cXLATE, faddr := ea }) ∧
      (a.toNat % 16 ≠ 0 → exec (.jmpi f) s = s.scalarFault { cause := cALIGN }) ∧
      (a.toNat % 16 = 0 → 2 ^ 56 ≤ a.toNat → exec (.jmpi f) s = s.scalarFault { cause := cXLATE, faddr := a })) ∧
    (s.acts f [f.d.toNat, f.a.toNat] [] →
      (ea.toNat % size ≠ 0 → exec (.st f) s = s.scalarFault { cause := cALIGN, faddr := ea }) ∧
      (ea.toNat % size = 0 → 2 ^ 56 ≤ ea.toNat → exec (.st f) s = s.scalarFault { cause := cXLATE, faddr := ea })) ∧
    (s.acts f [31] [] →
      (sp.toNat % 16 ≠ 0 → exec (.call f) s = s.scalarFault { cause := cALIGN, faddr := sp - 16 } ∧
        exec (.ret f) s = s.scalarFault { cause := cALIGN, faddr := sp }) ∧
      (sp.toNat % 16 = 0 → 2 ^ 56 ≤ (sp - 16).toNat →
        exec (.call f) s = s.scalarFault { cause := cXLATE, faddr := sp - 16 }))

/-- R182, R43, R44, R13: GETS writes a special register, zero-extended, untainted and unpoisoned, once the queue is
empty where the register is queue-ordered; an access to such a register behind older entries waits, and
QUEUE_ORDERED_ACCESS performs it once the queue is empty, as GETS or SETS does. -/
def Obligations.GetsAndQueueOrder : Prop :=
  (∀ (f : Fields) (s : State), s.acts f [] [] → (queueOrdered f.fn.toNat = true → s.me.queue = []) →
    exec (.gets f) s = .next (s.endsG f.d.toNat { val := s.readSpecial f.fn.toNat } 0)) ∧
  (∀ (f : Fields) (s : State),
    (queueOrdered f.fn.toNat = true → s.me.queue ≠ [] → s.me.guard f.gs = true →
      exec (.gets f) s = .next { s with me := { s.me with blocked := some (packWord 0x38 f) } } ∧
      (writableSpecial f.fn.toNat = true →
        exec (.sets f) s = .next { s with me := { s.me with blocked := some (packWord 0x39 f) } })) ∧
    (s.me.queue = [] → s.mayWake = true →
      (s.me.blocked = some (packWord 0x38 f) →
        exec .queueOrderedAccess s = exec (.gets f) { s with me := { s.me with blocked := none } }) ∧
      (s.me.blocked = some (packWord 0x39 f) →
        exec .queueOrderedAccess s = exec (.sets f) { s with me := { s.me with blocked := none } })))

/-- R183, R17: TRAP and BRK raise their fault with CODE IMM[15:0] and EPC = PC + 16; behind older entries the fault
waits, and SCALAR_FAULT_REPORT takes it once the queue is empty; ARRAY_FAULT_REPORT takes an array-class fault at once.
That an array fault is taken at once is the model's reading (log entry 16). -/
def Obligations.TrapsAndReports : Prop :=
  (∀ (f : Fields) (s : State), s.acts f [] [] →
    let p (c : Nat) : Pend :=
      { cause := c, code := f.imm.toNat % 2 ^ 16, fpc := s.me.pc, epc := s.me.pc + 16 }
    (s.me.queue = [] →
      exec (.trap f) s = .next (s.takeFault (p cTRAP)) ∧ exec (.brk f) s = .next (s.takeFault (p cBRK))) ∧
    (s.me.queue ≠ [] →
      exec (.trap f) s = .next { s with me := { s.me with pend := some (p cTRAP) } } ∧
      exec (.brk f) s = .next { s with me := { s.me with pend := some (p cBRK) } })) ∧
  (∀ (s : State) (p : Pend), s.me.pend = some p →
    (p.isArray = false → s.me.queue = [] → exec .scalarFaultReport s = .next (s.takeFault p)) ∧
    (p.isArray = true → exec .arrayFaultReport s = .next (s.takeFault p)))

/-- R178 to R181: where TRAPV is not 0, HND is 0, the fault is none of BRK, PRIV, MANIFEST and WATCHDOG, and the frame
can be pushed, a fault goes to the strand's own handler: FPC, FADDR, EPC and FCAUSE are set, a frame is pushed with TF
1, the queue is set aside, HND becomes 1 and the PC is TRAPV. -/
def Obligations.FaultToHandler : Prop :=
  ∀ (s : State) (p : Pend) (lo hi : List Nat),
    let sp := s.me.getG 31
    let fp := sp.val - 16
    let w := s.me.rows.toNat * 2 ^ 48 + s.me.cols.toNat * 2 ^ 32 + s.me.vcfg.toNat * 2 ^ 16 + s.me.amb.toNat * 2 ^ 13 + 1
    s.Inv → s.me.trapv ≠ 0 → s.me.hnd = false → p.cause ∉ [cBRK, cPRIV, cMANIFEST, cWATCHDOG] →
    (s.poisonTrap = true → sp.poison = false) → fp.toNat % 16 = 0 → fp.toNat < 2 ^ 56 →
    s.transBits s.vd .wr (8 * (fp.toNat : Int)) 64 = .ok lo →
    s.transBits s.vd .wr (8 * ((fp.toNat + 8 : Nat) : Int)) 64 = .ok hi →
    let t := s.takeFault p
    t.me.pc = s.me.trapv ∧ t.me.hnd = true ∧ t.me.epc = p.epc ∧ t.me.faddr = p.faddr ∧ t.me.fpc = s.originalPc p.fpc ∧
      t.me.fcause = BitVec.ofNat 32 (p.cause % 2 ^ 16 + p.code % 2 ^ 16 * 2 ^ 16) ∧ t.me.image = s.me.queue ∧
      t.me.queue = [] ∧ t.me.pend = none ∧ t.holdsBytes lo p.epc.toNat ∧ t.holdsBytes hi w ∧ s.sameOutside t (lo ++ hi) ∧
      t.me.g = s.me.g.setIfInBounds 31 { sp with val := fp } ∧ t.me.q = s.me.q ∧ t.me.sameArrays s.me

/-- R180, R370, R371, R372: a fault taken while HND is 1 or TRAPV 0, or a BRK, PRIV, MANIFEST or WATCHDOG fault, goes to
the Steward scheduler. A fault record is made of it, which `State.queueRecord` writes to the fault queue; where the action
of the fault policy is 1, or the fault is a BRK, the strand parks at EPC and its RUNNING launch is PARKED; otherwise the
strand stops and the level of the action, 0 launch, 2 graph, 3 job, is asked to be cancelled with the FCAUSE. A record is
written at FTAIL of the ring, FTAIL moves on, and a NOTICE is sent; with no descriptor, LOST gains 1. That FKERN is the kernel
that FPC lies in as the fault is taken is the model's choice (log entry 87). -/
def Obligations.FaultToSteward : Prop :=
  (∀ (s : State) (p : Pend),
    s.me.trapv = 0 ∨ s.me.hnd = true ∨ p.cause ∈ [cBRK, cPRIV, cMANIFEST, cWATCHDOG] →
    let t := s.takeFault p
    let fpc := s.originalPc p.fpc
    let fkern := s.kernelOf p.fpc
    let fcause := p.cause % 2 ^ 16 + p.code % 2 ^ 16 * 2 ^ 16
    let record := (s.cycleOf s.me.place.die) * 2 ^ 448 + p.epc.toNat * 2 ^ 384 + fpc.toNat * 2 ^ 320 + p.faddr.toNat * 2 ^ 256 +
      fkern.toNat * 2 ^ 224 + s.me.launch.toNat * 2 ^ 192 + fcause * 2 ^ 160 + s.me.strand.toNat * 2 ^ 150 +
      s.vd * 2 ^ 146 + s.me.place.die % 4 * 2 ^ 144 + s.me.hnd.toNat
    let action := if p.cause = cBRK then 1
      else ((s.vdev? s.vd).map fun d => d.policy.toNat / 2 ^ (2 * p.cause) % 4).getD 0
    let l := s.myLaunch
    (∃ u v : State, v.me.launch = s.me.launch ∧ v.launches = s.launches ∧ v.mem = s.mem ∧ v.vds = s.vds ∧ v.outbox = s.outbox ∧
      u = v.queueRecord s.vd s.me.place.die record ∧ t.vds = u.vds ∧ t.outbox = u.outbox ∧
      (s.me.work = [] → t.mem = u.mem)) ∧
    t.me.epc = p.epc ∧ t.me.faddr = p.faddr ∧ t.me.fpc = fpc ∧ t.me.fkern = fkern ∧ t.me.g = s.me.g ∧ t.me.q = s.me.q ∧
      t.me.sameArrays s.me ∧ t.me.pend = none ∧ t.me.trapv = s.me.trapv ∧ t.me.hnd = s.me.hnd ∧
      (action = 1 → t.me.status = .parked true ∧ t.me.pc = p.epc ∧
        (s.launch? s.me.launch.toNat = some l → l.state = .running → ∃ l', t.launch? l.lid = some l' ∧ l'.state = .parked)) ∧
      (action ≠ 1 → t.me.status = .cancelled ∧ t.me.queue = [] ∧ ∃ c ∈ t.cancels, c.vd = l.vd ∧
        c.fault = some (BitVec.ofNat 32 fcause, l.lid) ∧
        (action = 0 → c.level = .launch ∧ c.key = l.lid) ∧
        (action = 2 → c.level = .graph ∧ (c.key, c.key2) = l.graph) ∧
        (action = 3 → c.level = .job ∧ c.key = l.job))) ∧
  (∀ (s : State) (vd die record : Nat) (d : VDev), s.vdev? vd = some d →
    let t := s.queueRecord vd die record
    (d.faultDesc = none → ∃ d', t.vdev? vd = some d' ∧ t.mem = s.mem ∧
      d'.lost = if d.lost = BitVec.allOnes 32 then d.lost else d.lost + 1) ∧
    (∀ (da : Word) (x : Nat × Bool × Bool) (pas : List Nat), s.Inv → d.faultDesc = some da →
      s.readHome vd .rw (8 * (da.toNat : Int)) 512 = .ok x →
      let tail := x.1 / 2 ^ 416 % 2 ^ 32
      let head := x.1 / 2 ^ 384 % 2 ^ 32
      let size := 2 ^ (x.1 / 2 ^ 256 % 16)
      (tail + 2 ^ 32 - head) % 2 ^ 32 ≠ size →
      s.transBits vd .rw (8 * ((x.1 / 2 ^ 448 % 2 ^ 64 + 64 * (tail % size) : Nat) : Int)) 512 = .ok pas →
      ∃ u : State, u.holdsBytes pas record ∧ s.sameOutside u pas ∧
        ∀ pts, u.transBits vd .wr (8 * ((da.toNat + 52 : Nat) : Int)) 32 = .ok pts →
          t.holdsBytes pts ((tail + 1) % 2 ^ 32) ∧ u.sameOutside t pts ∧ t.outbox = s.outbox ++
            [.host d.notice (msgHeader 0x82 die d.vdid 16 0 ((tail + 1) % 2 ^ 32)) []]))

/-- R100, R156, R191, R306: under TNT a tainted source stops an instruction with TAINT, and under the POISON trap a poisoned
one with POISON, before any effect: a scalar word, an elementwise word, LD, and a home action that returns its value. VLD
stops with TAINT at the first element whose granule is tainted, and has loaded the elements before it. Where the word acts,
or with neither TNT nor the trap, it completes, as the statements of its results say. That taint is judged before poison, that
the guard's predicate counts, and FADDR 0 are the model's readings (log entries 17 and 88), and so are that positions not
reached are as inactive ones, and which masks are read (log entries 106 and 38). -/
def Obligations.TaintAndPoisonFaults : Prop :=
  (∀ (f : Fields) (s : State),
    let a := f.a.toNat
    let b := f.b.toNat
    let c := f.c.toNat
    (∀ i ∈ [Instr.add f, .sub f, .mul f, .mulh f, .mulhn f, .div f, .divn f, .rem f, .remn f, .and f, .or f, .xor f, .andn f,
        .shl f, .shr f, .shra f, .rotl f, .min f, .max f, .minn f, .maxn f, .clmul f, .cmp f, .fadd f, .fsub f, .fmul f, .fdiv f,
        .fmin f, .fmax f, .fcmp f], scalarTraps i f [a, b] [] s) ∧
    (∀ i ∈ [Instr.addi f, .lih f, .clz f, .ctz f, .popc f, .cmpi f, .fsqrt f, .fcvt f, .ld f, .jmpi f], scalarTraps i f [a] [] s) ∧
    (∀ i ∈ [Instr.call f, .ret f], scalarTraps i f [31] [] s) ∧
    scalarTraps (.ffma f) f [a, b, c] [] s ∧ scalarTraps (.st f) f [f.d.toNat, a] [] s ∧ scalarTraps (.qop f) f [] [a, b] s ∧
    scalarTraps (.sel f) f [if (s.me.getQ a).val then b else c] [a] s ∧
    (∀ x : Nat × Bool × Bool,
      let ea := (s.me.getG a).val + BitVec.ofInt 64 f.imm.toInt
      let size := 2 ^ (f.fn.toNat % 4)
      s.acts f [a] [] → ea.toNat % size = 0 → ea.toNat < 2 ^ 56 → s.loadBytes ea.toNat size = .ok x →
      (trapsTaint f = true → x.2.1 = true → exec (.ld f) s = s.scalarFault { cause := cTAINT }) ∧
      ((trapsTaint f = true → x.2.1 = false) → s.poisonTrap = true → x.2.2 = true →
        exec (.ld f) s = s.scalarFault { cause := cPOISON }))) ∧
  (∀ (f : Fields) (s : State),
    let z := Fmt.size f.fmt.toNat
    let kinds (n : Nat) (e : Entry) : List (Source × Nat) := kindSources s e f z n
    let one (_ : Entry) : List (Source × Nat) := [((s.me.getV f.a.toNat).source z, z)]
    trapsV (.vadd f) 0x46 f s z (kinds 2) ∧ trapsV (.vsub f) 0x47 f s z (kinds 2) ∧ trapsV (.vmul f) 0x48 f s z (kinds 2) ∧
    trapsV (.vfma f) 0x49 f s z (kinds 3) ∧ trapsV (.vdiv f) 0x4A f s z (kinds 2) ∧ trapsV (.vmin f) 0x4C f s z (kinds 2) ∧
    trapsV (.vmax f) 0x4D f s z (kinds 2) ∧ trapsV (.vand f) 0x50 f s z (kinds 2) ∧ trapsV (.vor f) 0x51 f s z (kinds 2) ∧
    trapsV (.vxor f) 0x52 f s z (kinds 2) ∧ trapsV (.vsqrt f) 0x4B f s z one ∧ trapsV (.vabs f) 0x4E f s z one ∧
    trapsV (.vneg f) 0x4F f s z one ∧ trapsV (.vnot f) 0x53 f s z one) ∧
  (∀ (f : Fields) (s : State) (pa : Nat),
    let a := s.me.getG f.a.toNat
    let b := s.me.getG f.b.toNat
    let gt := s.memTaint.contains (pa / 32)
    let gp := s.memPoison.contains (pa / 32)
    let traps (i : Instr) (op : BitVec 8) (n : Nat) (acc : Access) (regs : List GReg) : Prop :=
      let e := s.capture op f
      let ends (c : Nat) : Prop := exec i s = .next ((s.entered op f).arrayFault e { cause := c })
      s.serves op f → a.val.toNat % n = 0 → a.val.toNat < 2 ^ 56 → s.translate s.vd acc a.val.toNat = .ok pa →
      s.consumes e f (regs.any GReg.taint) (regs.any GReg.poison) →
      (trapsTaint f = true → gt = true → ends cTAINT) ∧
      ((trapsTaint f = true → gt = false) → s.poisonTrap = true → gp = true → ends cPOISON)
    let n := if f.fn.getLsbD 2 then 4 else 8
    traps (.lda f) 0x92 n .rd [a] ∧ traps (.amo f) 0x93 n .rw (if f.fn.toNat / 32 = 7 then [a, b, s.me.getG f.c.toNat] else [a, b]) ∧
      traps (.amof f) 0x94 4 .rw [a, b]) ∧
  (∀ (i : Instr) (f : Fields) (s : State) (p : Strip) (x : Nat → Nat × Bool × Bool) (k : Nat),
    let e := s.capture 0x41 f
    let z := Fmt.size f.fmt.toNat
    let sh := [s.me.rows.toNat, s.me.cols.toNat]
    let act := isActive s e f sh
    let els : List (Option Elt) := (List.range (count sh)).map fun j =>
      if !(decide (j < k) && act j) then none
      else if (p.addr j).isNone then some { val := p.fill, poison := gvPoisoned e }
      else some { val := (x j).1, poison := (x j).2.2 || gvPoisoned e }
    (i = .vldTid f ∨ i = .vldPtr f) → s.serves 0x41 f → stripOf s e f = .ok (p, .ok ()) → checkMasks s e f sh = .ok () →
    count sh ≤ capacity e.grows.toNat z → Fmt.isK f.fmt.toNat = false → trapsTaint f = true → gvTainted e = false → e.qt = 0 →
    s.masksTainted e f = false → s.poisonTrap = false → k < count sh → act k = true → (p.addr k).isSome = true →
    (∀ j ≤ k, act j = true → ∀ ba, p.addr j = some ba → s.readElem s.vd ba z = .ok (x j) ∧ (x j).2.1 = decide (j = k)) →
    ∃ u : Strand, exec i s = .next (State.arrayFault { s with me := u } e { cause := cTAINT }) ∧
      u.v = s.me.v.setIfInBounds f.d.toNat ((s.me.getV f.d.toNat).write z sh els) ∧ u.queue = [e] ∧ u.g = s.me.g ∧
      u.pc = s.me.pc + 16)

/-! ### Elementwise array instructions (R188 to R225) -/

/-- R208, R207, R54, R56: the elementwise operations of every format: each active element is the operation of the
elements that R54 selects, under RND, FSI, FSO and SAT; the tag is the agreed shape. Bitwise operations and shifts raise
no flag. sr rounding and VSFU follow log entries 12 to 14, FSO of minima and maxima log entry 27; that selecting masks
are no source of taint is the model's reading (log entry 38). -/
def Obligations.ElementwiseArithmetic : Prop :=
  ∀ (f : Fields) (s : State),
    let fmt := f.fmt.toNat
    let z := Fmt.size fmt
    let kinds (n : Nat) (e : Entry) : List (Source × Nat) := kindSources s e f z n
    let one (_ : Entry) : List (Source × Nat) := [((s.me.getV f.a.toNat).source z, z)]
    let op (o : ArOp) (e : Entry) (i : Nat) (xs : List Elt) : Nat × Flags :=
      arithElem o (e.mode f fmt i) (nth xs 0).val (nth xs 1).val (nth xs 2).val
    let two (g : Nat → Nat → Nat) (_ : Entry) (_ : Nat) (xs : List Elt) : Nat × Flags :=
      (g (nth xs 0).val (nth xs 1).val % 2 ^ z, 0)
    givesV (.vadd f) 0x46 f s z (kinds 2) (op .add) ∧ givesV (.vsub f) 0x47 f s z (kinds 2) (op .sub) ∧
    givesV (.vmul f) 0x48 f s z (kinds 2) (op .mul) ∧ givesV (.vfma f) 0x49 f s z (kinds 3) (op .fma) ∧
    givesV (.vdiv f) 0x4A f s z (kinds 2) (op .div) ∧ givesV (.vmin f) 0x4C f s z (kinds 2) (op .min) ∧
    givesV (.vmax f) 0x4D f s z (kinds 2) (op .max) ∧ givesV (.vsqrt f) 0x4B f s z one (op .sqrt) ∧
    givesV (.vabs f) 0x4E f s z one (op .abs) ∧ givesV (.vneg f) 0x4F f s z one (op .neg) ∧
    givesV (.vsfu f) 0x5B f s z one (fun e i xs => sfuElem f.fn.toNat (e.mode f fmt i) (nth xs 0).val) ∧
    givesV (.vand f) 0x50 f s z (kinds 2) (two fun a b => a &&& b) ∧
    givesV (.vor f) 0x51 f s z (kinds 2) (two fun a b => a ||| b) ∧
    givesV (.vxor f) 0x52 f s z (kinds 2) (two fun a b => a ^^^ b) ∧
    givesV (.vshl f) 0x54 f s z (kinds 2) (two fun a b => a * 2 ^ (b % z)) ∧
    givesV (.vshr f) 0x55 f s z (kinds 2)
      (two fun a b => if f.fn.getLsbD 3 then (toSigned z a / 2 ^ (b % z) % 2 ^ z).toNat else a / 2 ^ (b % z)) ∧
    givesV (.vnot f) 0x53 f s z one (fun _ _ xs => (2 ^ z - 1 - (nth xs 0).val, 0))

/-- R79, R78: integer arithmetic wraps without SAT; with SAT it takes the nearest bound and raises SAT where one replaced
the exact result. Division by zero writes all ones and sets DZ; a remainder by zero is the dividend, and sets DZ (tainted operands
of REM and REMN: `Obligations.ScalarDivisionAndBits`). -/
def Obligations.IntegerElements : Prop :=
  (∀ (f : Fields) (s : State), s.acts f [f.a.toNat, f.b.toNat] [] → s.me.taintOf [f.a.toNat, f.b.toNat] [] = false →
    let a := (s.me.getG f.a.toNat).val
    let b := (s.me.getG f.b.toNat).val
    let out (v : Word) : Result := .next (s.gives f [f.a.toNat, f.b.toNat] v (if b = 0 then flDZ else 0))
    exec (.rem f) s = out (if b = 0 then a else BitVec.ofInt 64 (Int.tmod a.toInt b.toInt)) ∧
    exec (.remn f) s = out (if b = 0 then a else BitVec.ofNat 64 (a.toNat % b.toNat))) ∧
  ∀ (md : Mode) (x y c : Nat), Fmt.isFIN md.fmt = true → Fmt.isF md.fmt = false →
    let z := Fmt.size md.fmt
    let a := intOf md.fmt x
    let b := intOf md.fmt y
    let lo := intMin md.fmt
    let hi := intMax md.fmt
    let res (v : Int) : Nat × Flags :=
      if md.sat then
        if v < lo then ((lo % 2 ^ z).toNat, flSAT) else if hi < v then ((hi % 2 ^ z).toNat, flSAT) else ((v % 2 ^ z).toNat, 0)
      else ((v % 2 ^ z).toNat, 0)
    arithElem .add md x y 0 = res (a + b) ∧ arithElem .sub md x y 0 = res (a - b) ∧ arithElem .mul md x y 0 = res (a * b) ∧
    arithElem .fma md x y c = res (a * b + intOf md.fmt c) ∧ arithElem .neg md x 0 0 = res (-a) ∧
    arithElem .abs md x 0 0 = res a.natAbs ∧
    arithElem .div md x y 0 = (if b = 0 then (2 ^ z - 1, flDZ) else res (Int.tdiv a b))

/-- R209, R210: VCMP writes a mask bit for each active element; VSEL copies the element of B where the selector mask is
set and of C elsewhere. That a write to m0 raises no TNT is the model's choice (log entry 22), and that the selector and the
selecting masks are no source of the result's taint its reading (log entry 38). -/
def Obligations.CompareAndSelect : Prop :=
  ∀ (f : Fields) (s : State) (fc : List Nat × List Nat),
    let z := Fmt.size f.fmt.toNat
    let sh := fc.1 ++ fc.2
    (let e := s.capture 0x56 f
     let srcs := kindSources s e f z 2
     let els := resultPieces s e f (srcs.map fun p => p.1) fc fun _ xs =>
       let r := cmpElem f.fmt.toNat (f.fn.toNat / 16 % 8) f.fsi (nth xs 0).val (nth xs 1).val
       (eltOf r.1.toNat xs, r.2)
     let act := els.filterMap fun p => p.1
     s.serves 0x56 f → s.operandsAgree e f 1 srcs fc →
     s.consumes e f (act.any Elt.taint || (!act.isEmpty && s.masksTainted e f)) (act.any Elt.poison) →
      exec (.vcmp f) s = .next (s.retires (s.me.takesM f.d.toNat
        ((s.me.getM f.d.toNat).write sh (els.map fun p => p.1))
        (piecesFlags els ||| flagIf (act.any Elt.poison) flPSN)))) ∧
    (let e := s.capture 0x57 f
     let srcs := [(pickSource s (f.fn.getLsbD 1) e.gb f.b.toNat z, z), (pickSource s (f.fn.getLsbD 2) e.gc f.c.toNat z, z)]
     let els := resultPieces s e f (srcs.map fun p => p.1) fc fun i xs =>
       (if maskBit s f.a.toNat (unravel sh i) then nth xs 0 else nth xs 1, 0)
     s.serves 0x57 f → s.operandsAgree e f z srcs fc → maskAgrees s f.a.toNat sh = .ok () →
     s.acceptsV e f f.d.toNat z els →
      exec (.vsel f) s = .next (s.retires (s.me.takesV f.d.toNat z sh els)))

/-- R204, R205, R206, R211: VBC and VIOTA fill the strip (ROWS, COLS), VMOV copies bits and VCVT converts, in the shape
of the source. Conversions to kb values and their flags follow log entries 25, 31 and 75, sr rounding log entry 12; that
masks are no source of taint is log entry 38: the model's readings. -/
def Obligations.FillsAndMoves : Prop :=
  ∀ (f : Fields) (s : State),
    let fmt := f.fmt.toNat
    let z := Fmt.size fmt
    let strip := [s.me.rows.toNat, s.me.cols.toNat]
    let va := s.me.getV f.a.toNat
    let run (i : Instr) (op : BitVec 8) (sh : List Nat) (zs : Nat) (g : Entry → Nat → Elt × Flags) : Prop :=
      let e := s.capture op f
      let els := (List.range (count sh)).map fun k =>
        if isActive s e f sh k then ((some (g e k).1, (g e k).2) : Option Elt × Flags) else (none, 0)
      s.serves op f → checkMasks s e f sh = .ok () → count sh ≤ capacity e.grows.toNat zs →
      count sh ≤ capacity e.grows.toNat z → s.acceptsV e f f.d.toNat z els →
      exec i s = .next (s.retires (s.me.takesV f.d.toNat z sh els))
    run (.vbc f) 0x43 strip z (fun e _ =>
      ({ val := e.ga.val.toNat % 2 ^ z, taint := e.ga.taint, poison := e.ga.poison }, 0)) ∧
    run (.viota f) 0x45 strip z (fun e k =>
      let v : Int := ((s.me.stripb.toNat + k) % 2 ^ 64 : Nat)
      let r := if Fmt.isF fmt then roundFull (fparam fmt) (e.rnd f k) false false (.ofInt v) else reduceInt fmt f.sat v
      ({ val := r.1 }, r.2)) ∧
    run (.vmov f) 0x44 va.shape z (fun _ k => (va.elem z k, 0)) ∧
    run (.vcvt f) 0x58 va.shape (Fmt.size f.fn.toNat) (fun e k =>
      let x := va.elem (Fmt.size f.fn.toNat) k
      let r := convElem f.fn.toNat fmt (e.rnd f k) f.fsi f.fso f.sat x.val
      ({ x with val := r.1 }, r.2))

/-- R212, R213, R71: VQNT writes mantissas and block scales, VDQN converts block values; scale (row, b) belongs to the
elements of block b of the row. That the scale of a rank-0 source has shape (1) is the model's choice (log entry 92), and
that masks are no source of taint its reading (log entry 38). -/
def Obligations.Quantise : Prop :=
  ∀ (f : Fields) (s : State),
    let va := s.me.getV f.a.toNat
    let vb := s.me.getV f.b.toNat
    (let e := s.capture 0x5A f
     let p := Fmt.size f.fn.toNat
     let z := Fmt.size f.fmt.toNat
     let sh := va.shape
     let inner := sh.getLastD 1
     let els := (List.range (count sh)).map fun i =>
       if isActive s e f sh i then
         let x := va.elem p i
         let y := vb.elem 8 ((i / inner) * ceilDiv inner e.blk + (i % inner) / e.blk)
         let r := convVal f.fmt.toNat (e.rnd f i) f.fso f.sat (kbVal f.fn.toNat x.val y.val)
         ((some (eltOf r.1 [x, y]), r.2) : Option Elt × Flags)
       else (none, 0)
     s.serves 0x5A f → vb.shape = scaleShape sh e.blk → checkMasks s e f sh = .ok () →
     count sh ≤ capacity e.grows.toNat p → count vb.shape ≤ capacity e.grows.toNat 8 →
     count sh ≤ capacity e.grows.toNat z → s.acceptsV e f f.d.toNat z els →
      exec (.vdqn f) s = .next (s.retires (s.me.takesV f.d.toNat z sh els))) ∧
    (let e := s.capture 0x59 f
     let zs := Fmt.size f.fn.toNat
     let p := Fmt.size f.fmt.toNat
     let sh := if va.shape.isEmpty then [1] else va.shape
     let ssh := scaleShape sh e.blk
     let inner := sh.getLastD 1
     s.serves 0x59 f → f.d ≠ f.b → f.d.toNat < 32 → f.b.toNat < 32 → checkMasks s e f sh = .ok () →
     count sh ≤ capacity e.grows.toNat zs →
     count sh ≤ capacity e.grows.toNat p → count ssh ≤ capacity e.grows.toNat 8 →
     (trapsTaint f = true → va.taint = false ∧ s.masksTainted e f = false ∧ e.qt = 0) →
     (s.poisonTrap = true → va.poison = 0) →
      ∃ t, exec (.vqnt f) s = .next t ∧ t.me.pc = s.me.pc + 16 ∧ t.me.queue = [] ∧
        (t.me.getV f.d.toNat).shape = sh ∧ (t.me.getV f.b.toNat).shape = ssh ∧ s.sameMemory t ∧ t.me.g = s.me.g ∧
        t.me.sameSpecial s.me ∧
        (∀ b < count ssh,
          let first := (b / ceilDiv inner e.blk) * inner + (b % ceilDiv inner e.blk) * e.blk
          let idx := upTo first (first + min e.blk (inner - (b % ceilDiv inner e.blk) * e.blk))
          let q := blockQ f.fmt.toNat f.sat
            (idx.map fun i => if isActive s e f sh i then
                some (if Fmt.isF f.fn.toNat then
                    decodeFloat (fparam f.fn.toNat) (flushIn (fparam f.fn.toNat) f.fsi (va.elem zs i).val)
                  else Val.ofInt (intOf f.fn.toNat (va.elem zs i).val))
              else none) (idx.map fun i => e.rnd f i)
          ((t.me.getV f.b.toNat).elem 8 b).val = q.scale % 2 ^ 8 ∧
          ∀ j < idx.length, ((t.me.getV f.d.toNat).elem p (first + j)).val = (q.mant.getD j 0) % 2 ^ p) ∧
        ∀ n, n ≠ f.d.toNat → n ≠ f.b.toNat → t.me.getV n = s.me.getV n)

/-- R217: VRCR computes a(i) × (the value before) + b(i) along each chain, over the active positions, from 0. That masks
are no source of the result's taint is log entry 38, and sr rounding log entry 12: the model's readings. -/
def Obligations.Recurrence : Prop :=
  ∀ (f : Fields) (s : State) (fc : List Nat × List Nat),
    let fmt := f.fmt.toNat
    let z := Fmt.size fmt
    let e := s.capture 0x5C f
    let sh := fc.1 ++ fc.2
    let srcs := [((s.me.getV f.a.toNat).source z, z), ((s.me.getV f.b.toNat).source z, z)]
    let n := (chainsOf fc.1 fc.2).n
    s.serves 0x5C f → s.me.reissued = false → s.operandsAgree e f z srcs fc →
    ∃ els : List (Option Elt × Flags), els.length = count sh ∧
      (s.acceptsV e f f.d.toNat z els →
        exec (.vrcr f) s = .next (s.retires { s.me.takesV f.d.toNat z sh els with prog := 0 })) ∧
      ∀ fr j r, fr < count fc.1 → j < n → r < (chainsOf fc.1 fc.2).nr →
        let at_ (k : Nat) : Nat := (chainsOf fc.1 fc.2).at fr k r
        let act (k : Nat) : Bool := isActive s e f sh (at_ k)
        let before : Elt := match ((List.range j).filter act).getLast? with
          | some k => ((els.getD (at_ k) (none, 0)).1).getD {}
          | none => {}
        let xs := elemsAt f.rk.toNat fc (srcs.map fun p => p.1) (at_ j)
        let q := arithElem .fma (e.mode f fmt (at_ j)) (nth xs 0).val before.val (nth xs 1).val
        els.getD (at_ j) (none, 0) = if act j then (some (eltOf q.1 (before :: xs)), q.2) else (none, 0)

/-- R219, R220, R221: the mask operations; m0 reads as all ones, and takes the shape of the other source, or
(ROWS, COLS). That a write to m0 raises no TNT is the model's choice (log entry 22). -/
def Obligations.MaskOperations : Prop :=
  ∀ (f : Fields) (s : State),
    let shapeOf (e : Entry) (n other : Nat) : List Nat := maskShape s e n other
    let tn := maskTaint s f.a.toNat
    let logic (i : Instr) (op : BitVec 8) (g : Bool → Bool → Bool) : Prop :=
      let e := s.capture op f
      let a := f.a.toNat
      let b := f.b.toNat
      ∀ sh, agree (shapeOf e a b) (shapeOf e b a) = .ok sh → s.serves op f → count sh ≤ capacity e.grows.toNat 1 →
      s.consumes e f (count sh != 0 && (tn || maskTaint s b)) false →
      exec i s = .next (s.retires (s.me.takesM f.d.toNat ((s.me.getM f.d.toNat).write sh
        ((List.range (count sh)).map fun k =>
          some { val := (g (maskBit s a (unravel sh k)) (maskBit s b (unravel sh k))).toNat
                 taint := tn || maskTaint s b })) 0))
    let setAt (e : Entry) : List Nat :=
      (List.range (count (shapeOf e f.a.toNat 0))).filter fun k => maskBit s f.a.toNat (unravel (shapeOf e f.a.toNat 0) k)
    logic (.mand f) 0x5D (fun a b => a && b) ∧ logic (.mor f) 0x5E (fun a b => a || b) ∧
    logic (.mxor f) 0x5F (fun a b => a != b) ∧
    (let e := s.capture 0x60 f
     let sh := shapeOf e f.a.toNat 0
     s.serves 0x60 f → count sh ≤ capacity e.grows.toNat 1 → s.consumes e f (count sh != 0 && tn) false →
      exec (.mnot f) s = .next (s.retires (s.me.takesM f.d.toNat ((s.me.getM f.d.toNat).write sh
        ((List.range (count sh)).map fun k =>
          some { val := (!maskBit s f.a.toNat (unravel sh k)).toNat, taint := tn })) 0))) ∧
    (let e := s.capture 0x61 f
     let tp := tn && count (shapeOf e f.a.toNat 0) != 0
     s.serves 0x61 f → s.consumes e f tp false →
      exec (.mpop f) s = .next (s.retires (s.me.takesG f.d.toNat { val := (setAt e).length, taint := tp } 0))) ∧
    (let e := s.capture 0x62 f
     let tp := tn && count (shapeOf e f.a.toNat 0) != 0
     s.serves 0x62 f → s.consumes e f tp false →
      exec (.mfirst f) s =
        .next (s.retires (s.me.takesG f.d.toNat { val := (setAt e).headD (2 ^ 64 - 1), taint := tp } 0))) ∧
    (let e := s.capture 0x63 f
     let sh := [e.ga.val.toNat, e.gb.val.toNat]
     s.serves 0x63 f → (∀ n ∈ sh, n ≤ 65535) → count sh ≤ e.grows.toNat * 2048 →
     s.consumes e f (gvTainted e) (gvPoisoned e) →
      exec (.mset f) s = .next (s.retires (s.me.takesM f.d.toNat ((s.me.getM f.d.toNat).write sh
        ((List.range (count sh)).map fun _ => some { val := f.fn.toNat % 2, taint := gvTainted e }))
        (flagIf (gvPoisoned e) flPSN))))

/-- R222 to R225: VEXT reads and VINS writes one element by its row-major index; SHTAG sets a tag, and bits of growth
become 0; SHGET reads a tag. That a tainted extent taints vD, and a poisoned one sets PSN and poisons no row, is the
model's choice (log entry 104), and so is the taint of SHGET (log entry 116). SHTAG on m0 changes no mask. That VINS at an index
beyond the count adds no taint, and that a tainted result written to g0 raises no TNT, are its readings (log entries 117 and
22). -/
def Obligations.ElementsAndTags : Prop :=
  ∀ (f : Fields) (s : State),
    let z := Fmt.size f.fmt.toNat
    let isM := f.fn.getLsbD 0
    let va := s.me.getV f.a.toNat
    let vd := s.me.getV f.d.toNat
    (let e := s.capture 0x64 f
     let n := e.gb.val.toNat
     let x := va.elem z n
     let v : Elt := if n < count va.shape then
         { val := if Fmt.isI f.fmt.toNat || Fmt.isK f.fmt.toNat then (toSigned z x.val % 2 ^ 64).toNat else x.val
           taint := x.taint || e.gb.taint, poison := x.poison || e.gb.poison }
       else { val := 0, taint := e.gb.taint, poison := e.gb.poison }
     s.serves 0x64 f → count va.shape ≤ capacity e.grows.toNat z → s.consumes e f v.taint v.poison →
      exec (.vext f) s = .next (s.retires (s.me.takesG f.d.toNat v 0))) ∧
    (let e := s.capture 0x65 f
     let n := e.gb.val.toNat
     s.serves 0x65 f → count vd.shape ≤ capacity e.grows.toNat z → f.d.toNat < 32 → 0 < z →
     s.consumes e f (gvTainted e) (gvPoisoned e && decide (n < count vd.shape)) →
      ∃ t, exec (.vins f) s = .next t ∧ t.me.pc = s.me.pc + 16 ∧ (t.me.getV f.d.toNat).shape = vd.shape ∧
        (∀ k, ((t.me.getV f.d.toNat).elem z k).val =
          if k = n ∧ n < count vd.shape then e.ga.val.toNat % 2 ^ z else (vd.elem z k).val) ∧
        (t.me.getV f.d.toNat).taint = (vd.taint || (decide (n < count vd.shape) && e.ga.taint)) ∧
        s.sameMemory t ∧ t.me.g = s.me.g ∧ t.me.sameSpecial s.me ∧ ∀ k, k ≠ f.d.toNat → t.me.getV k = s.me.getV k) ∧
    (let e := s.capture 0x66 f
     let sh := tagShape e f
     let ze := if isM then 1 else z
     s.serves 0x66 f → (∀ n ∈ sh, n ≤ 65535) → count sh ≤ capacity e.grows.toNat ze →
     (isM = true → f.d.toNat < 8) → (isM = false → f.d.toNat < 32) → 0 < ze →
     s.consumes e f (gvTainted e) (gvPoisoned e) →
      ∃ t, exec (.shtag f) s = .next t ∧ t.me.pc = s.me.pc + 16 ∧ s.sameMemory t ∧ t.me.g = s.me.g ∧
        (isM = false → (t.me.getV f.d.toNat).shape = sh ∧ (t.me.getV f.d.toNat).taint = (vd.taint || gvTainted e) ∧
          ∀ k < count sh, ((t.me.getV f.d.toNat).elem z k).val = if k < count vd.shape then (vd.elem z k).val else 0) ∧
        (isM = true → f.d = 0 → t.me.m = s.me.m) ∧
        (isM = true → f.d ≠ 0 → (t.me.getM f.d.toNat).shape = sh ∧
          ∀ k < count sh, bit (t.me.getM f.d.toNat).buf k =
            (decide (k < count (s.me.getM f.d.toNat).shape) && bit (s.me.getM f.d.toNat).buf k))) ∧
    (let e := s.capture 0x67 f
     let sh := if isM then maskShape s e f.a.toNat 0 else va.shape
     let item := f.fn.toNat / 16
     let v : Elt :=
       { val := if item = 0 then sh.length else if item ≤ 4 then sh.getD (item - 1) 0 else count sh
         taint := if isM then maskTaint s f.a.toNat else va.taint }
     s.serves 0x67 f → item ≤ 5 → s.consumes e f v.taint false →
      exec (.shget f) s = .next (s.retires (s.me.takesG f.d.toNat v 0)))

/-! ### Strips: VLD, VST and SETL (R194 to R203, R33) -/

/-- R198 to R201: where every active element can be read, VLD writes the tag (ROWS, COLS) and the elements: those
outside a tensor's extents take the fill value, and inactive ones keep what R56 says. A kb format loads the block
scales to vE. That masks are no source of the result's taint is the model's reading (log entry 38), and the upper 32 bits of
a 64-bit fill value its choice (log entry 105). -/
def Obligations.StripLoad : Prop :=
  ∀ (i : Instr) (f : Fields) (s : State) (p : Strip) (x y : Nat → Nat × Bool × Bool),
    let e := s.capture 0x41 f
    let z := Fmt.size f.fmt.toNat
    let isK := Fmt.isK f.fmt.toNat
    let sh := [s.me.rows.toNat, s.me.cols.toNat]
    let ssh := [s.me.rows.toNat, ceilDiv s.me.cols.toNat e.blk]
    let act := isActive s e f sh
    let bact (b : Nat) : Bool := blockActive s.me.cols.toNat e.blk b act
    let pick (act : Nat → Bool) (addr : Nat → Option Int) (fill : Nat) (r : Nat → Nat × Bool × Bool) (k : Nat) : Option Elt :=
      if !act k then none
      else if (addr k).isNone then some { val := fill, taint := gvTainted e, poison := gvPoisoned e }
      else some { val := (r k).1, taint := (r k).2.1 || gvTainted e, poison := (r k).2.2 || gvPoisoned e }
    let els := (List.range (count sh)).map (pick act p.addr p.fill x)
    let sels := (List.range (count ssh)).map (pick bact p.scale 0 y)
    let d := (s.me.getV f.d.toNat).write z sh els
    let d2 := (s.me.getV f.e.toNat).write 8 ssh sels
    let psn := (s.me.getV f.d.toNat).takesPoison z (els.map fun x => (x, 0)) ||
      (isK && (s.me.getV f.e.toNat).takesPoison 8 (sels.map fun x => (x, 0)))
    let v1 := s.me.v.setIfInBounds f.d.toNat d
    let v2 := v1.setIfInBounds f.e.toNat d2
    (i = .vldTid f ∨ i = .vldPtr f) → s.serves 0x41 f → stripOf s e f = .ok (p, .ok ()) →
    checkMasks s e f sh = .ok () → count sh ≤ capacity e.grows.toNat z →
    (isK = true → f.d ≠ f.e ∧ count ssh ≤ capacity e.grows.toNat 8) →
    (trapsTaint f = true → gvTainted e = false ∧ e.qt = 0 ∧ s.masksTainted e f = false ∧ (∀ k, (x k).2.1 = false) ∧
      ∀ k, (y k).2.1 = false) →
    (s.poisonTrap = true → psn = false) →
    (∀ k < count sh, act k = true → ∀ ba, p.addr k = some ba → s.readElem s.vd ba z = .ok (x k)) →
    (isK = true → ∀ b < count ssh, bact b = true → ∀ ba, p.scale b = some ba → s.readElem s.vd ba 8 = .ok (y b)) →
    ∃ t, exec i s = .next t ∧ t.me.pc = s.me.pc + 16 ∧ t.me.queue = [] ∧ t.me.v = (if isK then v2 else v1) ∧
      t.me.flags = s.me.flagged (flagIf psn flPSN ||| flagIf (d.taint || (isK && d2.taint)) flTNT) ∧ s.sameMemory t ∧ t.me.g = s.me.g ∧ t.me.q = s.me.q ∧ t.me.m = s.me.m ∧ t.me.z = s.me.z ∧ t.me.t = s.me.t ∧
      t.me.sameSpecial s.me

/-- R198 to R203: where every active element inside the extents can be written, VST writes the elements in order, for a
kb format the scales of the active blocks after them, and nothing else of memory; registers keep their values. Of FLAGS
only PSN may rise, for a poisoned element that is stored. That no TNT is set, that address registers count as data, and
that scales come after mantissas are the model's readings (log entries 23, 32 and 90). -/
def Obligations.StripStore : Prop :=
  ∀ (i : Instr) (f : Fields) (s : State) (p : Strip),
    let e := s.capture 0x42 f
    let z := Fmt.size f.fmt.toNat
    let isK := Fmt.isK f.fmt.toNat
    let sh := [s.me.rows.toNat, s.me.cols.toNat]
    let ssh := [s.me.rows.toNat, ceilDiv s.me.cols.toNat e.blk]
    let act := isActive s e f sh
    let bact (b : Nat) : Bool := blockActive s.me.cols.toNat e.blk b act
    let v := s.me.getV f.d.toNat
    let sc := s.me.getV f.e.toNat
    let stored : List (Int × Nat × Nat) :=
      ((List.range (count sh)).filter act).filterMap (fun k => (p.addr k).map fun ba => (ba, z, (v.elem z k).val)) ++
        if isK then ((List.range (count ssh)).filter bact).filterMap fun b => (p.scale b).map fun ba => (ba, 8, (sc.elem 8 b).val)
        else []
    let psn := (List.range (count sh)).any (fun k => act k && (p.addr k).isSome && ((v.elem z k).poison || gvPoisoned e)) ||
      (isK && (List.range (count ssh)).any fun b => bact b && (p.scale b).isSome && ((sc.elem 8 b).poison || gvPoisoned e))
    (i = .vstTid f ∨ i = .vstPtr f) → s.Inv → s.serves 0x42 f → s.spliceWord? s.me.launch.toNat s.me.pc = none →
    stripOf s e f = .ok (p, .ok ()) → checkMasks s e f sh = .ok () → (isK = true → sc.shape = ssh) →
    count sh ≤ count v.shape → count v.shape ≤ capacity e.grows.toNat z →
    (trapsTaint f = true → gvTainted e = false ∧ e.qt = 0 ∧ s.masksTainted e f = false ∧ v.taint = false ∧ sc.taint = false) →
    (s.poisonTrap = true → psn = false) →
    s.writable s.vd stored →
    ∃ t, exec i s = .next t ∧ t.me.pc = s.me.pc + 16 ∧ t.me.queue = [] ∧ s.storesAt t s.vd stored ∧
      t.me.flags = s.me.flagged (flagIf psn flPSN) ∧ t.me.g = s.me.g ∧ t.me.q = s.me.q ∧ t.me.sameArrays s.me ∧ t.me.sameSpecial s.me

/-- R195, R196, R33: SETL adds ROWS × COLS to STRIPB, grants rows and columns within the capacity, advances its pointer
registers, writes the rows granted to g[D], and branches where it grants none and IMM[47:32] is not 0. Without a watch
it grants at once; SETL_WAKE serves it again where its strand may issue (R37). The order of its checks is the model's
reading (log entry 40). -/
def Obligations.StripGrant : Prop :=
  ∀ (f : Fields) (s : State),
    let e := s.capture 0x40 f
    let n := s.me.rows.toNat * s.me.cols.toNat
    let capE := s.me.grows * 2048 / Fmt.size (s.me.vcfg.toNat % 32)
    let cols := min (min e.gb.val.toNat 65535) capE
    let rows := if cols = 0 then 0 else min (min e.ga.val.toNat s.me.grows) (capE / cols)
    let off := f.imm.toNat / 2 ^ 32
    let slots := (List.range 4).map fun k => setlReg f.imm.toNat k
    s.serves 0x40 f → e.gc.val = 0 → s.consumes e f false (gvPoisoned e) → f.d.toNat < 32 →
    s.spliceWord? s.me.launch.toNat s.me.pc = none →
    (∃ t, exec (.setl f) s = .next t ∧ t.me.queue = [] ∧ t.me.stripb = s.me.stripb + BitVec.ofNat 64 n ∧
      t.me.rows = BitVec.ofNat 16 rows ∧ t.me.cols = BitVec.ofNat 16 cols ∧
      (f.d ≠ 0 → (t.me.getG f.d.toNat).val = BitVec.ofNat 64 rows) ∧
      t.me.pc = (if rows = 0 ∧ off ≠ 0 then s.me.pc + BitVec.ofInt 64 ((BitVec.ofNat 16 off).toInt * 16) else s.me.pc + 16) ∧
      (∀ r, r ≠ f.d.toNat → (t.me.getG r).val = (s.me.getG r).val + BitVec.ofNat 64
        (((List.range 4).filter fun k => setlReg f.imm.toNat k == r && r != 0).foldl
          (fun acc k => acc + n * setlUnit f.imm.toNat f.fn.toNat k) 0)) ∧
      (∀ r, r ∉ slots → r ≠ f.d.toNat → t.me.getG r = s.me.getG r) ∧
      s.sameMemory t ∧ t.me.q = s.me.q ∧ t.me.sameArrays s.me ∧ t.me.vcfg = s.me.vcfg ∧ t.me.amb = s.me.amb) ∧
    (∀ u : State, u.headWord 0x40 = some f →
      (u.mayWake = true → exec .setlWake u = exec (.setl f) u) ∧ (u.mayWake = false → exec .setlWake u = .next u))

/-- R33: a SETL with a watch sleeps while fewer elements than one row lie ahead of the watch's value and its producer
has not completed; SETL_WAKE grants the rows that fit below the watch. When flags are raised, and that a grant is at most
the rows of the GROWS in force beside the captured one, are the model's readings (log entries 81 and 91). -/
def Obligations.StripWatch : Prop :=
  ∀ (f : Fields) (s : State) (e : Entry) (pa : Nat),
    let n := e.rows.toNat * e.cols.toNat
    let p := (e.stripb.toNat + n) % 2 ^ 64
    let capE := e.grows.toNat * 2048 / Fmt.size (bits e.vcfg.toNat 4 0)
    let cols := min (min e.gb.val.toNat 65535) capE
    let rows := if cols = 0 then 0 else min (min e.ga.val.toNat (min e.grows.toNat s.me.grows)) (capE / cols)
    let ahead := memRead s.mem pa 8 - p
    s.mayWake = true → s.me.queue = [e] → e.word = packWord 0x40 f → s.me.work = [] → s.me.mirrors = [] →
    s.spliceWord? s.me.launch.toNat e.pc = none → s.consumes e f (gvTainted e) (gvPoisoned e) →
    e.gc.val ≠ 0 → e.gc.val.toNat % 8 = 0 → e.gc.val.toNat < 2 ^ 56 → s.translate s.vd .rd e.gc.val.toNat = .ok pa →
    (trapsTaint f = true → s.memTaint.contains (pa / 32) = false) → s.producerDone.1 = false → 0 < rows →
    (ahead < cols → ∃ t, exec .setlWake s = .next t ∧ t.me.queue = [e] ∧ t.me.sleep.isSome = true ∧ t.me.g = s.me.g ∧
      t.me.rows = s.me.rows ∧ t.me.stripb = s.me.stripb ∧ s.sameMemory t) ∧
    (cols ≤ ahead → ∃ t, exec .setlWake s = .next t ∧ t.me.queue = [] ∧ t.me.sleep = none ∧
      t.me.rows = BitVec.ofNat 16 (min rows (ahead / cols)) ∧ t.me.cols = BitVec.ofNat 16 cols ∧
      t.me.stripb = BitVec.ofNat 64 p ∧ s.sameMemory t)

/-! ### Structural array instructions (R226 to R256) -/

/-- R244, R245, R249, R250, R251, R252, R256: the moves with an array register as destination. Each result position is
an element of the source, named by its index along the leading axis of its major cell, or the fill value. TRANSP of a
cell of rank 0, that masks are no source of the result's taint, and that a tainted count written to g0 raises no TNT, are the
model's readings (log entries 30, 38 and 22). -/
def Obligations.StructuralMoves : Prop :=
  ∀ (f : Fields) (s : State) (x : Nat → Elt),
    let z := Fmt.size f.fmt.toNat
    let a := sopd s f (f.fn.getLsbD 1) f.a.toNat z
    let fr := frameOf f.rk.toNat a.sh
    let c := majorCell (cellOf f.rk.toNat a.sh)
    let n := c.headD 1
    let kb := (s.me.getG f.b.toNat).val.toInt
    let vb := s.me.getV f.b.toNat
    let mask := f.b.toNat
    let msh := if mask = 0 then [n] else (s.me.getM mask).shape
    let sel := (List.range (count msh)).filter fun i => maskBit s mask (unravel msh i)
    let mtaint := maskTaint s mask
    let at_ (idx : List Nat) : Option Nat := some (ravel (fr ++ c) idx)
    let move (i : Instr) (op : BitVec 8) (rc : List Nat) (regs : Bool) (join : List Nat → List Elt)
        (pick : List Nat → List Nat → Option Nat) (after : Strand → Strand) : Prop :=
      buildsV i op f s z [a] regs (fr ++ rc) (fun e k =>
        let q := splitIdx fr rc k
        let y := withGv e (((pick q.1 q.2).map x).getD a.fill)
        (eltOf y.val (y :: join q.2), 0)) after
    a.reads s x →
    move (.rot f) 0x73 c false (fun _ => [])
      (fun fi ci => at_ (fi ++ (((ci.headD 0 : Nat) + kb) % (n : Int)).toNat :: ci.drop 1)) id ∧
    move (.rev f) 0x74 c false (fun _ => []) (fun fi ci => at_ (fi ++ (n - 1 - ci.headD 0) :: ci.drop 1)) id ∧
    move (.take f) 0x75 (kb.natAbs :: c.drop 1) false (fun _ => [])
      (fun fi ci =>
        let j : Int := if 0 ≤ kb then (ci.headD 0 : Nat) else (ci.headD 0 : Nat) + (n : Int) - kb.natAbs
        if 0 ≤ j ∧ j < n then at_ (fi ++ j.toNat :: ci.drop 1) else none) id ∧
    move (.drop f) 0x76 ((n - kb.natAbs) :: c.drop 1) false (fun _ => [])
      (fun fi ci => at_ (fi ++ (ci.headD 0 + if 0 ≤ kb then kb.natAbs else 0) :: ci.drop 1)) id ∧
    (let perm := (List.range c.length).map fun j => f.imm.toNat / 8 ^ j % 8
     (∀ j < c.length, j ∈ perm) → f.imm.toNat / 8 ^ c.length % 8 ^ (6 - c.length) = 0 → c.length ≤ 6 →
      move (.transp f) 0x7A (perm.map fun j => c.getD j 1) false (fun _ => [])
        (fun fi ci => at_ (fi ++ (List.range c.length).map fun j => ci.getD (perm.idxOf j) 0)) id) ∧
    (let ext := (List.range (count vb.shape)).map fun j => toSigned 32 (vb.elem 32 j).val
     let rc := ext.map Int.toNat
     count vb.shape ≤ 4 → (∀ v ∈ ext, 0 ≤ v ∧ v ≤ 65535) →
      buildsV (.reshape f) 0x77 f s z [a] (vb.taint && count vb.shape != 0) (fr ++ rc) fun e k =>
        let y := withGv e (if count c = 0 then a.fill else x (k / count rc * count c + k % count rc % count c))
        (eltOf y.val (y :: (List.range (count vb.shape)).map fun j => vb.elem 32 j), 0)) ∧
    (count vb.shape ≤ capacity s.me.grows 32 → n < 2 ^ 31 →
      move (.gath f) 0x7D (vb.shape ++ c.drop 1) vb.taint
        (fun ci => [vb.elem 32 (ravel vb.shape (ci.take vb.shape.length))])
        (fun fi ci =>
          let j := toSigned 32 (vb.elem 32 (ravel vb.shape (ci.take vb.shape.length))).val
          if 0 ≤ j ∧ j < n then at_ (fi ++ j.toNat :: ci.drop vb.shape.length) else none) id) ∧
    (let src := (List.range n).flatMap fun j => List.replicate (vb.elem 16 (if vb.shape = [] then 0 else j)).val j
     vb.shape = [] ∨ vb.shape = [n] → count vb.shape ≤ capacity s.me.grows 16 →
      move (.repl f) 0x81 (src.length :: c.drop 1) (vb.taint && count vb.shape != 0)
        (fun _ => (List.range (count vb.shape)).map fun j => vb.elem 16 j)
        (fun fi ci => at_ (fi ++ src.getD (ci.headD 0) 0 :: ci.drop 1)) id) ∧
    (let rest := c.drop msh.length
     let keep := keepCount s.me.grows z sel.length fr rest
     msh.isPrefixOf c = true → 1 ≤ msh.length →
      move (.compress f) 0x7B (keep :: rest) mtaint (fun _ => [{ taint := mtaint }])
        (fun fi ci => at_ (fi ++ unravel msh (sel.getD (ci.headD 0) 0) ++ ci.drop 1))
        (fun m =>
          let r : Elt := { val := sel.length, taint := mtaint }
          m.takesG f.e.toNat r (flagIf (decide (keep < sel.length)) flOVF))) ∧
    move (.expand f) 0x7C (msh ++ c.drop 1) mtaint (fun _ => [{ taint := mtaint }])
      (fun fi ci =>
        let p := ravel msh (ci.take msh.length)
        if p ∈ sel ∧ sel.idxOf p < n then at_ (fi ++ sel.idxOf p :: ci.drop msh.length) else none) id

/-- R246, R247, R248: CAT joins major cells of two operands, and OUTER combines every pair of their cells' elements.
OUTER takes cells of rank 0 as they are, masks are no source of the result's taint, and sr rounds as log entry 12 has it:
the model's readings (log entries 34, 38 and 12). -/
def Obligations.CatAndOuter : Prop :=
  ∀ (f : Fields) (s : State) (x y : Nat → Elt) (fr : List Nat),
    let fmt := f.fmt.toNat
    let z := Fmt.size fmt
    let k := f.rk.toNat
    let a := sopd s f (f.fn.getLsbD 1) f.a.toNat z
    let b := sopd s f (f.fn.getLsbD 2) f.b.toNat z
    let fa := frameOf k a.sh
    let fb := frameOf k b.sh
    a.reads s x → b.reads s y → agree fa fb = .ok fr →
    (let a0 := majorCell (cellOf k a.sh)
     let b0 := majorCell (cellOf k b.sh)
     let ca := if a0.length + 1 = b0.length then 1 :: a0 else a0
     let cb := if b0.length + 1 = a0.length then 1 :: b0 else b0
     let na := ca.headD 1
     let rc := (na + cb.headD 1) :: ca.drop 1
     ca.length = cb.length → ca.drop 1 = cb.drop 1 →
      buildsV (.cat f) 0x78 f s z [a, b] false (fr ++ rc) fun e i =>
        let q := splitIdx fr rc i
        let j := q.2.headD 0
        (withGv e (if j < na then x (ravel (fa ++ ca) (q.1.take fa.length ++ q.2))
          else y (ravel (fb ++ cb) (q.1.take fb.length ++ (j - na) :: q.2.drop 1))), 0)) ∧
    (let ca := cellOf k a.sh
     let cb := cellOf k b.sh
     let o := f.fn.toNat / 8 % 16
     o ≤ 11 →
      buildsV (.outer f) 0x79 f s (if 9 ≤ o then 1 else z) [a, b] false (fr ++ (ca ++ cb)) fun e i =>
        let q := splitIdx fr (ca ++ cb) i
        let u := x (ravel (fa ++ ca) (q.1.take fa.length ++ q.2.take ca.length))
        let v := y (ravel (fb ++ cb) (q.1.take fb.length ++ q.2.drop ca.length))
        let ar (op : ArOp) : Nat × Flags := arithElem op (e.mode f fmt i) u.val v.val 0
        let cm (cond : Nat) : Nat × Flags := ((cmpElem fmt cond f.fsi u.val v.val).1.toNat, (cmpElem fmt cond f.fsi u.val v.val).2)
        let r := ([ar .add, ar .sub, ar .mul, ar .div, ar .min, ar .max, (u.val &&& v.val, 0), (u.val ||| v.val, 0),
          (u.val ^^^ v.val, 0), cm 0, cm 2, cm 3] : List (Nat × Flags)).getD o (0, 0)
        (withGv e (eltOf r.1 [u, v]), r.2))

/-- R240, R241, R242, R84, R85: RED combines the active terms of each chain in seq or tree order, and SCAN carries the
combination along each chain from the identity; RED in free order takes the terms in an order the configuration chooses,
and taints the results that it forms from some term (R86). A tainted or poisoned term that SCAN reads marks the result also
where no element comes from it (R237). A single term is not flushed, and free order rounds and taints as log entries 26, 28
and 29 say; masks are no source of taint (log entry 38): the model's readings. -/
def Obligations.Reductions : Prop :=
  ∀ (f : Fields) (s : State) (x : Nat → Elt),
    let fmt := f.fmt.toNat
    let z := Fmt.size fmt
    let fn := f.fn.toNat
    let op := fn / 8 % 8
    let a := sopd s f (f.fn.getLsbD 1) f.a.toNat z
    let fr := frameOf f.rk.toNat a.sh
    let c := majorCell (cellOf f.rk.toNat a.sh)
    let ch := chainsOf fr c
    let flush (v : Nat) : Nat := if Fmt.isF fmt then flushIn (fparam fmt) f.fsi v else v
    let ident := identity op fmt
    let old := s.me.getV f.d.toNat
    a.reads s x → f.fn.getLsbD 0 = false →
    (let e := s.capture 0x70 f
     let order := fn / 64
     let sh := fr ++ c.drop 1
     let terms (i : Nat) : List (Nat × Elt) :=
       ((List.range ch.n).filter fun j => isActive s e f a.sh (ch.at (i / ch.nr) j (i % ch.nr))).map fun j =>
         ((if a.ten.isSome then 0 else s.me.stripb.toNat) + j, x (ch.at (i / ch.nr) j (i % ch.nr)))
     let sum (i : Nat) : Partial := sumTerms order (s.free + 2 * i * ch.n) (combine op (e.mode f fmt i)) flush ident
       ((terms i).map fun q => (q.1, q.2.val))
     let free (i : Nat) : Bool := decide (order = 2) && !(terms i).isEmpty
     let els : List (Option Elt × Flags) := (List.range (count sh)).map fun i =>
       let y := eltOf (sum i).val ((terms i).map fun q => q.2)
       (some { y with taint := y.taint || free i }, (sum i).flags)
     let new := old.write z sh (els.map fun p => p.1)
     s.serves 0x70 f → order ≤ 2 → s.movable e f [a] false a.sh → (a.ten.isSome = true → ch.n ≤ 65535) → fitsRegister e z sh →
     (s.poisonTrap = true → old.takesPoison z els = false) →
      ∃ t, exec (.red f) s = .next t ∧ t.me.pc = s.me.pc + 16 ∧ t.me.queue = [] ∧ t.me.prog = 0 ∧
        t.me.v = s.me.v.setIfInBounds f.d.toNat new ∧
        t.me.flags = s.me.flagged (piecesFlags els ||| flagIf (old.takesPoison z els) flPSN ||| flagIf new.taint flTNT) ∧
        s.sameMemory t ∧ t.me.g = s.me.g ∧ t.me.q = s.me.q ∧ t.me.m = s.me.m ∧ t.me.z = s.me.z ∧ t.me.t = s.me.t) ∧
    (let e := s.capture 0x71 f
     let excl := f.fn.getLsbD 6
     let act := (List.range (count a.sh)).filter (isActive s e f a.sh)
     s.serves 0x71 f → s.movable e f [a] false a.sh → fitsRegister e z a.sh →
      ∃ els : List (Option Elt × Flags), els.length = count a.sh ∧
        (let new := old.write z a.sh (els.map fun p => p.1)
         let taint := new.taint || act.any fun i => (x i).taint
         let psn := old.takesPoison z els || act.any fun i => (x i).poison
         (s.poisonTrap = true → psn = false) →
          exec (.scan f) s = .next (s.retires { s.me with
            v := s.me.v.setIfInBounds f.d.toNat { new with taint := taint }
            prog := 0
            flags := s.me.flagged (piecesFlags els ||| flagIf psn flPSN ||| flagIf taint flTNT) })) ∧
        ∃ carry : Nat → Nat → Nat → Elt, (∀ p r, carry p 0 r = { val := ident }) ∧
          ∀ p j r, p < ch.nf → j < ch.n → r < ch.nr →
            let i := ch.at p j r
            let v := combine op (e.mode f fmt i) (carry p j r).val (flush (x i).val)
            let y := eltOf v.1 [carry p j r, { x i with val := flush (x i).val }]
            carry p (j + 1) r = (if isActive s e f a.sh i then y else carry p j r) ∧
            els.getD i (none, 0) =
              if isActive s e f a.sh i then (some (if excl then carry p j r else y), v.2) else (none, 0))

/-- R243, R255: GRADE writes for each cell the positions of its major cells in ascending (descending) order, equal cells
in their order; IDXOF writes for each key the least position of an equal major cell, or their number. GRADE reads every
cell whole, the model's choice (log entry 108); masks are no source of taint, its reading (log entry 38). -/
def Obligations.GradeAndFind : Prop :=
  ∀ (f : Fields) (s : State) (x : Nat → Elt),
    let fmt := f.fmt.toNat
    let z := Fmt.size fmt
    let a := sopd s f (f.fn.getLsbD 1) f.a.toNat z
    let fr := frameOf f.rk.toNat a.sh
    let c := majorCell (cellOf f.rk.toNat a.sh)
    let n := c.headD 1
    let nr := count (c.drop 1)
    let cell (fi j : Nat) : List Elt := (List.range nr).map fun q => x ((fi * n + j) * nr + q)
    a.reads s x → f.fn.getLsbD 0 = false →
    (let e := s.capture 0x72 f
     let sh := fr ++ [n]
     let cmp (fi j k : Nat) : Int :=
       (if f.fn.getLsbD 3 then -1 else 1) *
         lexCmp (gradeCmp fmt f.fsi) ((cell fi j).map Elt.val) ((cell fi k).map Elt.val)
     s.serves 0x72 f → s.movable e f [a] false sh → n ≤ 65535 → fitsRegister e 32 sh →
      ∃ els : List (Option Elt × Flags), els.length = count sh ∧
        (s.acceptsV e f f.d.toNat 32 els →
          exec (.grade f) s = .next (s.retires { s.me.takesV f.d.toNat 32 sh els with prog := 0 })) ∧
        ∀ fi < count fr, ∃ order : List Nat, order.Perm (List.range n) ∧
          order.Pairwise (fun j k => cmp fi j k < 0 ∨ cmp fi j k = 0 ∧ j < k) ∧
          ∀ j < n, els.getD (fi * n + j) (none, 0) =
            if isActive s e f sh (fi * n + j) then
              (some (eltOf (order.getD j 0) ((List.range n).flatMap (cell fi))), 0)
            else (none, 0)) ∧
    (let vb := s.me.getV f.b.toNat
     let rest := c.drop 1
     let head := vb.shape.take (vb.shape.length - rest.length)
     let key (i : Nat) : List Elt := (List.range nr).map fun q => vb.elem z (i % count head * nr + q)
     let same (i j : Nat) : Bool := ((cell (i / count head) j).zip (key i)).all fun p =>
       (cmpElem fmt 0 f.fsi p.1.val p.2.val).1
     rest.length ≤ vb.shape.length → vb.shape.drop (vb.shape.length - rest.length) = rest → n < 2 ^ 31 →
     count vb.shape ≤ capacity s.me.grows z →
      buildsV (.idxof f) 0x80 f s 32 [a] vb.taint (fr ++ head) fun _ i =>
        (eltOf (((List.range n).find? (same i)).getD n)
          ((List.range n).flatMap (cell (i / count head)) ++ key i), 0))

/-- R228, R233, R234, R237: with a tensor as destination, a structural instruction writes each active position (of RED:
each position) that lies inside the entry's extents at the entry's address of it, and nothing else of memory; a granule that
takes a tainted element is tainted, registers keep their values, but for the count that COMPRESS writes to g[E]; of FLAGS
those of the positions written, PSN for poison that was read for one, TNT for a tainted element that is written, and OVF of
COMPRESS may rise. Stated for results of one unit: for SCAN one cell of at most 64 positions. That free order taints a result
of RED, that masks are no source of taint, and that a tainted count written to g0 raises no TNT, are the model's readings (log
entries 28, 38 and 22). -/
def Obligations.StructuralToTensor : Prop :=
  ∀ (f : Fields) (s : State) (x y : Nat → Elt) (fr2 : List Nat),
    let fmt := f.fmt.toNat
    let z := Fmt.size fmt
    let a := sopd s f (f.fn.getLsbD 1) f.a.toNat z
    let b := sopd s f (f.fn.getLsbD 2) f.b.toNat z
    let d : TEntry := s.me.getT f.d.toNat
    let fr := frameOf f.rk.toNat a.sh
    let c := majorCell (cellOf f.rk.toNat a.sh)
    let n := c.headD 1
    let kb := (s.me.getG f.b.toNat).val.toInt
    let vb := s.me.getV f.b.toNat
    let msh := if f.b = 0 then [n] else (s.me.getM f.b.toNat).shape
    let sel := (List.range (count msh)).filter fun i => maskBit s f.b.toNat (unravel msh i)
    let mtaint := maskTaint s f.b.toNat
    let live (sh : List Nat) (act : Nat → Bool) : List Nat :=
      (List.range (count sh)).filter fun k => act k && inside d.shape (unravel sh k)
    let build (i : Instr) (op : BitVec 8) (srcs : List SOpd) (regs allowed : Bool) (masked sh : List Nat) (act : Entry → Nat → Bool)
        (val : Entry → Nat → Elt × Flags) (reads : Nat → Bool) (after : Strand → Strand) : Prop :=
      let e := s.capture op f
      let ks := live sh (act e)
      let psn := ks.any fun k => (val e k).1.poison || reads k
      let tnt := ks.any fun k => (val e k).1.taint
      let stored : List (Int × Nat × Nat) := ks.map fun k => (d.addr (unravel sh k), z, (val e k).1.val)
      let m := after { s.me with flags := s.me.flagged (ks.foldl (fun acc k => acc ||| (val e k).2) (flagIf psn flPSN ||| flagIf tnt flTNT)) }
      s.Inv → s.serves op f → useEntry d fmt = .ok () → s.movable e f srcs regs masked → d.rank = sh.length →
      fitsOpd e f.rk.toNat z { a with sh := d.shape, ten := some d } = .ok () →
      (∀ o ∈ srcs, ∀ u, o.ten = some u → checkOverlap d u allowed = .ok ()) → count sh ≤ unitSize e z →
      (s.poisonTrap = true → psn = false) → s.writable s.vd stored →
      ∃ t, exec i s = .next t ∧ t.me.pc = s.me.pc + 16 ∧ t.me.queue = [] ∧ t.me.prog = 0 ∧ s.storesAt t s.vd stored ∧
        (∀ k ∈ ks, (val e k).1.taint = true → ∀ pa ∈ s.bytesAt s.vd (d.addr (unravel sh k)) z, pa / 32 ∈ t.memTaint) ∧
        t.me.g = m.g ∧ t.me.flags = m.flags ∧ t.me.q = s.me.q ∧ t.me.sameArrays s.me
    let move (i : Instr) (op : BitVec 8) (rc : List Nat) (regs allowed : Bool) (join : List Elt)
        (pick : List Nat → List Nat → Option Nat) (after : Strand → Strand) : Prop :=
      build i op [a] regs allowed (fr ++ rc) (fr ++ rc) (fun e => isActive s e f (fr ++ rc)) (fun e k =>
        let q := splitIdx fr rc k
        let u := withGv e (((pick q.1 q.2).map x).getD a.fill)
        (eltOf u.val (u :: join), 0)) (fun _ => false) after
    let at_ (idx : List Nat) : Option Nat := some (ravel (fr ++ c) idx)
    let ch := chainsOf fr c
    let flush (v : Nat) : Nat := if Fmt.isF fmt then flushIn (fparam fmt) f.fsi v else v
    let op := f.fn.toNat / 8 % 8
    a.reads s x → f.fn.getLsbD 0 = true →
    move (.rot f) 0x73 c false false []
      (fun fi ci => at_ (fi ++ (((ci.headD 0 : Nat) + kb) % (n : Int)).toNat :: ci.drop 1)) id ∧
    move (.rev f) 0x74 c false false [] (fun fi ci => at_ (fi ++ (n - 1 - ci.headD 0) :: ci.drop 1)) id ∧
    (kb.natAbs < 2 ^ 32 → move (.take f) 0x75 (kb.natAbs :: c.drop 1) false false []
      (fun fi ci =>
        let j : Int := if 0 ≤ kb then (ci.headD 0 : Nat) else (ci.headD 0 : Nat) + (n : Int) - kb.natAbs
        if 0 ≤ j ∧ j < n then at_ (fi ++ j.toNat :: ci.drop 1) else none) id) ∧
    move (.drop f) 0x76 ((n - kb.natAbs) :: c.drop 1) false false []
      (fun fi ci => at_ (fi ++ (ci.headD 0 + if 0 ≤ kb then kb.natAbs else 0) :: ci.drop 1)) id ∧
    (let perm := (List.range c.length).map fun j => f.imm.toNat / 8 ^ j % 8
     let square := c.length == 2 && c.getD 0 0 == c.getD 1 0 && perm == [1, 0] &&
       decide (count c * z ≤ (s.capture 0x7A f).grows.toNat * 2048)
     (∀ j < c.length, j ∈ perm) → f.imm.toNat / 8 ^ c.length % 8 ^ (6 - c.length) = 0 → c.length ≤ 6 →
      move (.transp f) 0x7A (perm.map fun j => c.getD j 1) false square []
        (fun fi ci => at_ (fi ++ (List.range c.length).map fun j => ci.getD (perm.idxOf j) 0)) id) ∧
    (vb.shape = [] ∨ vb.shape = [n] → count vb.shape ≤ capacity s.me.grows 16 →
      let src := (List.range n).flatMap fun j => List.replicate (vb.elem 16 (if vb.shape = [] then 0 else j)).val j
      move (.repl f) 0x81 (src.length :: c.drop 1) (vb.taint && count vb.shape != 0) false
        ((List.range (count vb.shape)).map fun j => vb.elem 16 j)
        (fun fi ci => at_ (fi ++ src.getD (ci.headD 0) 0 :: ci.drop 1)) id) ∧
    (msh.isPrefixOf c = true → 1 ≤ msh.length →
      move (.compress f) 0x7B (sel.length :: c.drop msh.length) mtaint false [{ taint := mtaint }]
        (fun fi ci => at_ (fi ++ unravel msh (sel.getD (ci.headD 0) 0) ++ ci.drop 1))
        (fun m =>
          let r : Elt := { val := sel.length, taint := mtaint }
          m.takesG f.e.toNat r (flagIf (decide (d.ext fr.length < sel.length)) flOVF))) ∧
    move (.expand f) 0x7C (msh ++ c.drop 1) mtaint false [{ taint := mtaint }]
      (fun fi ci =>
        let p := ravel msh (ci.take msh.length)
        if p ∈ sel ∧ sel.idxOf p < n then at_ (fi ++ sel.idxOf p :: ci.drop msh.length) else none) id ∧
    (let fa := frameOf f.rk.toNat a.sh
     let fb := frameOf f.rk.toNat b.sh
     let a0 := majorCell (cellOf f.rk.toNat a.sh)
     let b0 := majorCell (cellOf f.rk.toNat b.sh)
     let ca := if a0.length + 1 = b0.length then 1 :: a0 else a0
     let cb := if b0.length + 1 = a0.length then 1 :: b0 else b0
     let na := ca.headD 1
     let rc := (na + cb.headD 1) :: ca.drop 1
     b.reads s y → agree fa fb = .ok fr2 → ca.length = cb.length → ca.drop 1 = cb.drop 1 →
      build (.cat f) 0x78 [a, b] false false (fr2 ++ rc) (fr2 ++ rc) (fun e => isActive s e f (fr2 ++ rc)) (fun e i =>
        let q := splitIdx fr2 rc i
        let j := q.2.headD 0
        (withGv e (if j < na then x (ravel (fa ++ ca) (q.1.take fa.length ++ q.2))
          else y (ravel (fb ++ cb) (q.1.take fb.length ++ (j - na) :: q.2.drop 1))), 0)) (fun _ => false) id) ∧
    (let order := f.fn.toNat / 64
     let terms (e : Entry) (i : Nat) : List (Nat × Elt) :=
       ((List.range ch.n).filter fun j => isActive s e f a.sh (ch.at (i / ch.nr) j (i % ch.nr))).map fun j =>
         ((if a.ten.isSome then 0 else s.me.stripb.toNat) + j, x (ch.at (i / ch.nr) j (i % ch.nr)))
     order ≤ 2 → (a.ten.isSome = true → ch.n ≤ 65535) →
      build (.red f) 0x70 [a] false false a.sh (fr ++ c.drop 1) (fun _ _ => true) (fun e i =>
        let ts := terms e i
        let p := sumTerms order (s.free + 2 * i * ch.n) (combine op (e.mode f fmt i)) flush (identity op fmt)
          (ts.map fun q => (q.1, q.2.val))
        let u := eltOf p.val (ts.map fun q => q.2)
        let free := decide (order = 2) && !ts.isEmpty
        ({ u with taint := u.taint || free }, p.flags ||| flagIf free flTNT)) (fun _ => false) id) ∧
    (ch.nf ≤ 1 → ch.n ≤ 64 →
      ∃ val : Nat → Elt × Flags,
        build (.scan f) 0x71 [a] false true a.sh a.sh (fun e => isActive s e f a.sh) (fun _ => val) (fun i => (x i).poison) id ∧
        ∃ carry : Nat → Nat → Elt, (∀ r, carry 0 r = { val := identity op fmt }) ∧
          ∀ j r, j < ch.n → r < ch.nr →
            let e := s.capture 0x71 f
            let i := ch.at 0 j r
            let v := combine op (e.mode f fmt i) (carry j r).val (flush (x i).val)
            let u := eltOf v.1 [carry j r, { x i with val := flush (x i).val }]
            carry (j + 1) r = (if isActive s e f a.sh i then u else carry j r) ∧
            val i = (if f.fn.getLsbD 6 then carry j r else u, v.2))

/-- R253, R254, R237, R238: SCAT writes the element of each active position at the index that vB names, SCATA combines
it with what stands there; indices out of range are dropped; the destination's tag stands. A register destination is
tainted where an element that it holds, or an index that was read, is tainted, and PSN is raised for poison read or kept
(R191, R237); a tensor takes the elements at its addresses, stated for one unit, of SCATA where the elements it adds to
share no byte. The contributions to one element are combined in tree order where the launch has DET set, and in an order
that the configuration chooses elsewhere, which taints the destination (R86; the model's reading, log entry 28). TNT rises
where a tainted element is written, to a register or to memory; that masks are no source of taint is the model's reading (log
entry 38). -/
def Obligations.Scatter : Prop :=
  ∀ (f : Fields) (s : State),
    let fmt := f.fmt.toNat
    let z := Fmt.size fmt
    let isT := f.fn.getLsbD 0
    let vd := s.me.getV f.d.toNat
    let td : TEntry := s.me.getT f.d.toNat
    let va := s.me.getV f.a.toNat
    let vb := s.me.getV f.b.toNat
    let dsh := if isT then td.shape else vd.shape
    let fr := frameOf f.rk.toNat dsh
    let c := majorCell (cellOf f.rk.toNat dsh)
    let n := c.headD 1
    let rc := vb.shape ++ c.drop 1
    let sh := fr ++ rc
    let ix (i : Nat) : Elt := vb.elem 32 (ravel vb.shape ((splitIdx fr rc i).2.take vb.shape.length))
    let j (i : Nat) : Int := toSigned 32 (ix i).val
    let target (i : Nat) : Nat :=
      ravel (fr ++ c) ((splitIdx fr rc i).1 ++ (j i).toNat :: (splitIdx fr rc i).2.drop vb.shape.length)
    let src (i : Nat) : Elt := eltOf (va.elem z i).val [va.elem z i, ix i]
    let live (op : BitVec 8) : List Nat := (List.range (count sh)).filter fun i => isActive s (s.capture op f) f sh i
    let hit (i : Nat) : Bool := decide (0 ≤ j i) && decide (j i < n)
    let hits (op : BitVec 8) (d : Nat) : List Nat := (live op).filter fun i => hit i && target i == d
    let ok (op : BitVec 8) : Prop :=
      let e := s.capture op f
      s.serves op f ∧ va.shape = sh ∧ checkMasks s e f sh = .ok () ∧
        (if isT then useEntry td fmt = .ok () ∧ fitsOpd e f.rk.toNat z (sopd s f true f.d.toNat z) = .ok ()
          else f.d.toNat < 32 ∧ count vd.shape ≤ capacity s.me.grows z) ∧
        count va.shape ≤ capacity s.me.grows z ∧ count vb.shape ≤ capacity s.me.grows 32 ∧ n < 2 ^ 31 ∧
        (trapsTaint f = true → va.taint = false ∧ vb.taint = false ∧ s.masksTainted e f = false ∧ e.qt = 0)
    let read (op : BitVec 8) : Bool := (live op).any fun i => (ix i).poison || (hit i && (va.elem z i).poison)
    let ixTaint (op : BitVec 8) : Bool := (live op).any fun i => (ix i).taint
    let ds (op : BitVec 8) : List Nat := (List.range (count dsh)).filter fun d => !(hits op d).isEmpty
    let det := s.myLaunch.record.getLsbD 433
    let flush (v : Nat) : Nat := if Fmt.isF fmt then flushIn (fparam fmt) f.fsi v else v
    let sum (d old : Nat) : Nat × Flags := scataValue det (s.free + d * count sh)
      (combine (scataOp f.fn.toNat) ((s.capture 0x7F f).mode f fmt d)) flush old
      ((hits 0x7F d).map fun i => (s.me.stripb.toNat + i, (src i).val))
    let done (t : State) : Prop := t.me.pc = s.me.pc + 16 ∧ t.me.queue = [] ∧ t.me.prog = 0 ∧ t.me.g = s.me.g ∧
      t.me.q = s.me.q ∧ t.me.m = s.me.m ∧ t.me.z = s.me.z ∧ t.me.t = s.me.t
    let inReg (t : State) (taint : Bool) (fl : Flags) : Prop :=
      done t ∧ s.sameMemory t ∧ (t.me.getV f.d.toNat).shape = vd.shape ∧ (t.me.getV f.d.toNat).taint = taint ∧
        t.me.flags = s.me.flagged (fl ||| flagIf taint flTNT) ∧ ∀ k, k ≠ f.d.toNat → t.me.getV k = s.me.getV k
    (let last (d : Nat) : Option Nat := (hits 0x7E d).getLast?
     let psn := read 0x7E || (List.range (count dsh)).any fun d => (hits 0x7E d).isEmpty && (vd.elem z d).poison
     isT = false → ok 0x7E → (s.poisonTrap = true → psn = false) →
      ∃ t, exec (.scat f) s = .next t ∧
        inReg t (ixTaint 0x7E || (List.range (count dsh)).any fun d => ((last d).map fun i => (src i).taint).getD vd.taint)
          (flagIf psn flPSN) ∧
        ∀ d < count dsh, ((t.me.getV f.d.toNat).elem z d).val = match last d with
          | some i => (src i).val
          | none => (vd.elem z d).val) ∧
    (let psn := read 0x7F || (List.range (count dsh)).any fun d => (vd.elem z d).poison
     isT = false → ok 0x7F → (trapsTaint f = true → vd.taint = false) → (s.poisonTrap = true → psn = false) →
      ∃ t, exec (.scata f) s = .next t ∧
        inReg t (ixTaint 0x7F || (List.range (count dsh)).any fun d =>
            vd.taint || (hits 0x7F d).any fun i => (src i).taint || !det)
          ((ds 0x7F).foldl (fun acc d => acc ||| (sum d (vd.elem z d).val).2) (flagIf psn flPSN)) ∧
        ∀ d < count dsh, ((t.me.getV f.d.toNat).elem z d).val =
          if hits 0x7F d = [] then (vd.elem z d).val else (sum d (vd.elem z d).val).1 % 2 ^ z) ∧
    (let stored : List (Int × Nat × Nat) :=
       ((live 0x7E).filter hit).map fun i => (td.addr (unravel dsh (target i)), z, (src i).val)
     isT = true → s.Inv → ok 0x7E → count sh ≤ unitSize (s.capture 0x7E f) z → (s.poisonTrap = true → read 0x7E = false) →
     s.writable s.vd stored →
      ∃ t, exec (.scat f) s = .next t ∧ done t ∧ s.storesAt t s.vd stored ∧ t.me.v = s.me.v ∧
        t.me.flags = s.me.flagged (flagIf (read 0x7E) flPSN |||
          flagIf (((live 0x7E).filter hit).any fun i => (src i).taint) flTNT)) ∧
    (∀ (old : Nat → Nat × Bool × Bool) (pas : Nat → List Nat),
     let addr (d : Nat) : Int := td.addr (unravel dsh d)
     let psn := read 0x7F || (ds 0x7F).any fun d => (old d).2.2
     isT = true → s.Inv → ok 0x7F → count sh ≤ unitSize (s.capture 0x7F f) z →
     (∀ d ∈ ds 0x7F, s.transBits s.vd .rw (addr d) z = .ok (pas d) ∧ s.readHome s.vd .rw (addr d) z = .ok (old d)) →
     (∀ d ∈ ds 0x7F, ∀ d' ∈ ds 0x7F, d ≠ d' → ∀ pa ∈ pas d, pa ∉ pas d') →
     (trapsTaint f = true → ∀ d ∈ ds 0x7F, (old d).2.1 = false) → (s.poisonTrap = true → psn = false) →
      ∃ t, exec (.scata f) s = .next t ∧ done t ∧ t.me.v = s.me.v ∧ s.sameOutside t ((ds 0x7F).flatMap pas) ∧
        (∀ d ∈ ds 0x7F, addr d % 8 = 0 → z % 8 = 0 → (pas d).Nodup → t.holdsBytes (pas d) (sum d (old d).1).1) ∧
        t.me.flags = s.me.flagged ((ds 0x7F).foldl (fun acc d => acc ||| (sum d (old d).1).2)
          (flagIf psn flPSN |||
            flagIf ((ds 0x7F).any fun d => !det || (old d).2.1 || (hits 0x7F d).any fun i => (src i).taint) flTNT)))
/-! ### Synchronisation (R281 to R289, R301 to R314, R31 to R37) -/

/-- R306, R308 to R311, R314, R31, R32, R307: a home action at a home of this device reads the present value, writes its
new value there, and returns the old one zero-extended, with the granule's taint and poison; CLAIM takes up to the
limit; PUBL only raises its value; PB releases and acquires; FENCE only orders. That the destination takes taint and
poison of the granule alone is the model's reading (log entry 21), and which words raise no fault log entry 19. -/
def Obligations.HomeActions : Prop :=
  ∀ (f : Fields) (s : State) (pa : Nat),
    let fn := f.fn.toNat
    let a := s.me.getG f.a.toNat
    let b := s.me.getG f.b.toNat
    let c := s.me.getG f.c.toNat
    let gt := s.memTaint.contains (pa / 32)
    let gp := s.memPoison.contains (pa / 32)
    let bytes (n : Nat) : List Nat := (List.range n).map (pa + ·)
    let ready (op : BitVec 8) (n : Nat) (acc : Access) (regs : List GReg) (returns : Bool) : Prop :=
      s.Inv ∧ s.serves op f ∧ a.val.toNat % n = 0 ∧ a.val.toNat < 2 ^ 56 ∧ s.translate s.vd acc a.val.toNat = .ok pa ∧
        s.consumes (s.capture op f) f (regs.any GReg.taint || returns && gt) (regs.any GReg.poison || returns && gp)
    let keeps (t : State) : Prop :=
      t.me.pc = s.me.pc + 16 ∧ t.me.queue = [] ∧ t.me.q = s.me.q ∧ t.me.sameArrays s.me
    let acts (i : Instr) (n : Nat) (new : Nat → Option Nat) (data : GReg) (returns isF : Bool) : Prop :=
      let old := memRead s.mem pa n
      ∃ t, exec i s = .next t ∧ keeps t ∧ t.me.sameSpecial s.me ∧
        (∀ v, new old = some v → t.holdsBytes (bytes n) v ∧ s.sameOutside t (bytes n) ∧
          (data.taint || isF = true → pa / 32 ∈ t.memTaint) ∧ (data.poison = true → pa / 32 ∈ t.memPoison)) ∧
        (new old = none → s.sameMemory t) ∧
        t.me.g = if returns && f.d != 0 then
            s.me.g.setIfInBounds f.d.toNat { val := BitVec.ofNat 64 old, taint := gt || isF, poison := gp }
          else s.me.g
    let w := if f.fn.getLsbD 2 then 32 else 64
    let x := b.val.toNat % 2 ^ w
    (ready 0x92 (w / 8) .rd [a] true → acts (.lda f) (w / 8) (fun _ => none) {} true false) ∧
    (fn / 32 < 7 → ready 0x93 (w / 8) .rw [a, b] true →
      acts (.amo f) (w / 8) (fun old => ([(old + x) % 2 ^ w, if toSigned w old ≤ toSigned w x then old else x,
        if toSigned w x ≤ toSigned w old then old else x, old &&& x, old ||| x, old ^^^ x, x] : List Nat)[fn / 32]?) b true false) ∧
    (fn / 32 = 7 → ready 0x93 (w / 8) .rw [a, b, c] true →
      acts (.amo f) (w / 8) (fun old => if old = x then some (c.val.toNat % 2 ^ w) else none) c true false) ∧
    (ready 0x94 4 .rw [a, b] true →
      acts (.amof f) 4 (fun old => some (arithElem .add { fmt := 0, rnd := .rne } old (b.val.toNat % 2 ^ 32) 0).1) b true true) ∧
    (ready 0x95 8 .rw [a, b] false →
      acts (.sig f) 8 (fun old => some (if f.fn.getLsbD 3 then b.val.toNat else (old + b.val.toNat) % 2 ^ 64)) b false false) ∧
    (ready 0x99 16 .rw [a, b] true →
      let old := memRead s.mem pa 8
      let grant := min (min b.val.toNat s.me.grows) (memRead s.mem (pa + 8) 8 - old)
      ∃ t, exec (.claim f) s = .next t ∧ keeps t ∧ t.me.stripb = BitVec.ofNat 64 old ∧ t.me.rows = BitVec.ofNat 16 grant ∧
        (f.d ≠ 0 → f.d.toNat < 32 → (t.me.getG f.d.toNat).val = BitVec.ofNat 64 old) ∧
        (∀ k, k ≠ f.d.toNat → t.me.getG k = s.me.getG k) ∧
        (grant ≠ 0 → t.holdsBytes (bytes 8) (old + grant)) ∧ s.sameOutside t (if grant = 0 then [] else bytes 8)) ∧
    (ready 0x9A 8 .rw [a, b] false →
      let old := memRead s.mem pa 8
      ∃ t, exec (.publ f) s = .next t ∧ keeps t ∧ t.me.g = s.me.g ∧ t.me.sameSpecial s.me ∧
        (old < b.val.toNat → t.holdsBytes (bytes 8) b.val.toNat ∧ s.sameOutside t (bytes 8)) ∧
        (b.val.toNat ≤ old → s.sameMemory t)) ∧
    (s.serves 0x90 f →
      let r := if f.fn.getLsbD 3 then s.release (fn % 8) else s
      let q := if f.fn.getLsbD 4 then r.acquire (fn % 8) else r
      exec (.pb f) s = .next (s.retires q.me)) ∧
    (s.serves 0x91 f → exec (.fence f) s = .next (s.retires s.me))

/-- R34, R35, R36, R37, R39, R312, R313: WAITS and WAITV complete where their condition holds, or where their time-out
has passed, and sleep otherwise; their wakes and time-outs complete a sleeping one of a strand that may issue; BARR departs once every participant
that has not finished has arrived, and waits otherwise. Destination taint and flags, and that a value is judged for TNT and the
POISON trap before a wait, follow log entries 21 and 81, the model's readings. -/
def Obligations.WaitsAndBarriers : Prop :=
  ∀ (f : Fields) (s : State) (pa : Nat),
    let keeps (t : State) : Prop := t.me.g = s.me.g ∧ t.me.v = s.me.v ∧ t.me.z = s.me.z ∧ t.me.t = s.me.t ∧
      t.me.sameSpecial s.me ∧ s.sameMemory t
    let asleep (op : BitVec 8) (e : Entry) : Prop :=
      s.mayWake = true ∧ s.me.queue = [e] ∧ e.word = packWord op f ∧ s.me.work = [] ∧ s.me.mirrors = [] ∧ s.me.sleep.isSome = true
    let qd (t : State) (v : Bool) : Prop :=
      t.me.m = s.me.m ∧ t.me.q = if f.d = 0 then s.me.q else
        s.me.q.setIfInBounds f.d.toNat { val := v, taint := s.memTaint.contains (pa / 32) }
    let home (e : Entry) : Prop :=
      e.ga.val.toNat % 8 = 0 ∧ e.ga.val.toNat < 2 ^ 56 ∧ s.translate s.vd .rd e.ga.val.toNat = .ok pa ∧
        s.consumes e f (e.ga.taint || e.gb.taint || e.gc.taint || s.memTaint.contains (pa / 32))
          (e.ga.poison || e.gb.poison || e.gc.poison || s.memPoison.contains (pa / 32))
    let value := memRead s.mem pa 8
    (s.serves 0x96 f → s.me.sleep = none → home (s.capture 0x96 f) →
      ((s.me.getG f.b.toNat).val.toNat ≤ value → ∃ t, exec (.waits f) s = .next t ∧ t.me.pc = s.me.pc + 16 ∧ t.me.queue = [] ∧
        qd t true ∧ keeps t) ∧
      (value < (s.me.getG f.b.toNat).val.toNat → ∃ t, exec (.waits f) s = .next t ∧
        t.me.queue = [s.capture 0x96 f] ∧ t.me.sleep.isSome = true ∧ t.me.q = s.me.q ∧ keeps t)) ∧
    (∀ e, asleep 0x96 e → home e →
      (e.gb.val.toNat ≤ value → ∃ t, exec .waitsWake s = .next t ∧ t.me.queue = [] ∧ qd t true ∧ keeps t) ∧
      (value < e.gb.val.toNat → e.gc.val ≠ 0 → e.gc.val.toNat ≤ s.slept →
        ∃ t, exec .waitsTimeout s = .next t ∧ t.me.queue = [] ∧ qd t false ∧ keeps t)) ∧
    (let va := s.me.getV f.a.toNat
     let vb := s.me.getV f.b.toNat
     let unmet (homes : List (Nat × Nat × Nat)) : List Nat :=
       (homes.filter fun h => memRead s.mem h.2.1 8 != h.2.2).map fun h => h.1
     let safe (e : Entry) (homes : List (Nat × Nat × Nat)) : Prop :=
       waitvHomes f e s = .ok homes ∧ f.d.toNat < 8 ∧ f.d ≠ 0 ∧
         (trapsTaint f = true → gvTainted e = false ∧ e.qt = 0 ∧ ∀ h ∈ homes, h.2.1 / 32 ∉ s.memTaint) ∧
         (s.poisonTrap = true → ∀ h ∈ homes, h.2.1 / 32 ∉ s.memPoison)
     let md (t : State) (xs : List Nat) : Prop :=
       t.me.q = s.me.q ∧ (t.me.getM f.d.toNat).shape = va.shape ∧
         (∀ k < count va.shape, bit (t.me.getM f.d.toNat).buf k = xs.contains k) ∧
         ∀ k, k ≠ f.d.toNat → t.me.getM k = s.me.getM k
     (∀ homes, s.serves 0x97 f → s.me.sleep = none → safe (s.capture 0x97 f) homes → va.shape = vb.shape →
       (unmet homes = [] → ∃ t, exec (.waitv f) s = .next t ∧ t.me.pc = s.me.pc + 16 ∧ t.me.queue = [] ∧ md t [] ∧ keeps t) ∧
       (unmet homes ≠ [] → ∃ t, exec (.waitv f) s = .next t ∧ t.me.queue = [s.capture 0x97 f] ∧
         t.me.sleep.isSome = true ∧ t.me.m = s.me.m ∧ keeps t)) ∧
     (∀ e homes, asleep 0x97 e → safe e homes →
       (unmet homes = [] → ∃ t, exec .waitvWake s = .next t ∧ t.me.queue = [] ∧ md t [] ∧ keeps t) ∧
       (unmet homes ≠ [] → e.gc.val ≠ 0 → e.gc.val.toNat ≤ s.slept →
         ∃ t, exec .waitvTimeout s = .next t ∧ t.me.queue = [] ∧ md t (unmet homes) ∧ keeps t))) ∧
    (let scope := f.fn.toNat % 4
     let lid := s.me.launch.toNat
     let inst := scopeInstance scope s.me.place
     let arrived := ((s.barrier? lid scope inst).map Barrier.arrived).getD []
     s.serves 0x98 f → s.me.status = .running → s.me.left = none → s.openBarrier? lid scope s.me.sid = none →
       ((∀ p ∈ s.participants lid scope inst, p = s.me.sid ∨ p ∈ arrived) →
         ∃ t, exec (.barr f) s = .next t ∧ t.me.pc = s.me.pc + 16 ∧ t.me.queue = [] ∧ t.me.q = s.me.q ∧ t.me.m = s.me.m ∧
           keeps t) ∧
       ((∃ p ∈ s.participants lid scope inst, p ≠ s.me.sid ∧ p ∉ arrived) →
         ∃ t b, exec (.barr f) s = .next t ∧ t.me.queue = [s.capture 0x98 f] ∧ t.barrier? lid scope inst = some b ∧
           s.me.sid ∈ b.arrived ∧ keeps t)) ∧
    (∀ (lid scope inst : Nat) (b : Barrier), s.barrier? lid scope inst = some b → s.participants lid scope inst ≠ [] →
      (∀ p ∈ s.participants lid scope inst, p ∈ b.arrived) →
      exec (.barrierComplete lid scope inst) s = .next { s with
        barriers := { b with arrived := [], syncs := [], leaving := s.participants lid scope inst, left := b.syncs } ::
          s.barriers.filter fun x => !(x.lid == b.lid && x.scope == b.scope && x.inst == b.inst) })

/-! ### Tensor identifiers, mirrors, cancellation, taint (R61, R63, R325 to R329) -/

/-- R325, R326, R327, R328, R329: TDEF loads an entry, TSET and TGET write and read one field, MIRR forms and dissolves
a pair, XCAN stops the strand and cancels a level, TAINT reads and clears a taint bit. XCAN stops its strand at once,
the fields of an entry other than its strides are checked whatever RANK is, and a pairing MIRR checks no register for TNT:
the model's readings and choice (log entries 33, 82 and 112). -/
def Obligations.IdentifiersAndTaint : Prop :=
  ∀ (f : Fields) (s : State),
    let fn := f.fn.toNat
    let a := s.me.getG f.a.toNat
    (∀ x : Nat × Bool × Bool,
      let e := s.capture 0xA0 f
      s.serves 0xA0 f → a.val.toNat % 16 = 0 → a.val.toNat < 2 ^ 56 →
      s.readElem s.vd (8 * (a.val.toNat : Int)) 1024 = .ok x → TEntry.ok (BitVec.ofNat 1024 x.1) = true →
      s.consumes e f (a.taint || x.2.1) (a.poison || x.2.2) →
      exec (.tdef f) s = .next (s.retires { s.me with
        t := s.me.t.setIfInBounds f.d.toNat (BitVec.ofNat 1024 x.1)
        flags := s.me.flagged (flagIf (a.poison || x.2.2) flPSN) })) ∧
    (let e := s.capture 0xA1 f
     let fd := tfield fn
     let old := (s.me.getT f.d.toNat).toNat
     let new := BitVec.ofNat 1024 (setBits old (fd.1 + fd.2.1 - 1) fd.1 a.val.toNat)
     s.serves 0xA1 f → tfieldRange fn a.val.toNat = true → (TEntry.valid new = true → TEntry.ok new = true) →
     s.consumes e f a.taint a.poison →
      exec (.tset f) s = .next (s.retires { s.me with
        t := s.me.t.setIfInBounds f.d.toNat new, flags := s.me.flagged (flagIf a.poison flPSN) })) ∧
    (let e := s.capture 0xA2 f
     let fd := tfield fn
     s.serves 0xA2 f → s.consumes e f false false →
      exec (.tget f) s = .next (s.retires (s.me.takesG f.d.toNat
        { val := (s.me.getT f.a.toNat).toNat / 2 ^ fd.1 % 2 ^ fd.2.1 } 0))) ∧
    (let e := s.capture 0xA3 f
     let d := f.d.toNat
     let av := f.a.toNat
     let inPair (n : Nat) : Bool := s.me.mirrors.any fun p => p.1 == n || p.2 == n
     s.serves 0xA3 f → s.consumes e f false false →
      (f.fn.getLsbD 0 = false → d ≠ av → inPair d = false → inPair av = false → d % 8 ≠ av % 8 → s.me.mirrors.length < 4 →
        exec (.mirr f) s = .next (s.retires { s.me with
          v := s.me.v.setIfInBounds av (s.me.getV d), mirrors := s.me.mirrors ++ [(d, av)] })) ∧
      (∀ p, f.fn.getLsbD 0 = true → s.me.mirrors.find? (fun p => p.1 == d) = some p →
        exec (.mirr f) s = .next (s.retires { s.me with
          v := s.me.v.setIfInBounds p.2 { s.me.getV d with shape := [0] }, mirrors := s.me.mirrors.erase p }))) ∧
    (let e := s.capture 0xA4 f
     s.serves 0xA4 f → s.consumes e f false false →
      ∃ t, exec (.xcan f) s = .next t ∧ t.me.status = .cancelled ∧ t.me.queue = [] ∧ t.me.g = s.me.g ∧ s.sameMemory t ∧
        t.cancels.length = s.cancels.length + (if xcanLevel fn = none then 0 else 1) ∧
        ∀ lv, xcanLevel fn = some lv → ∃ c, t.cancels = s.cancels ++ [c] ∧ c.level = lv ∧ c.vd = s.myLaunch.vd) ∧
    (let cls := fn / 2 % 4
     s.serves 0xA5 f →
      (f.fn.getLsbD 0 = false → exec (.taint f) s = .next (s.retires { s.me with
        q := if f.d = 0 then s.me.q else s.me.q.setIfInBounds f.d.toNat { val := s.me.taintBit (s.me.getG f.a.toNat) cls f.a.toNat } })) ∧
      (f.fn.getLsbD 0 = true → exec (.taint f) s = .next (s.retires (s.me.clearTaint cls f.a.toNat))))


/-! ### Engine instructions (R298 to R300, R302, R315 to R324) -/

/-- R298, R302, R317 to R323: COPY, SEND, CRED and CBCAST check and read at issue, leave the queue and leave their work
behind, whose finish raises PSN for what they consumed (R47); CRED and CBCAST add 1 to SEQ of their group record. PREF
brings each line of its strip to the cache that FN names, unless its HINT allocates no line there, and changes nothing else;
of walks that fail it takes note (R261, R263), and what it asks of memory waits for tokens (R398). That the sources are read in the step of the issue is the model's choice (log entry
9); PSN follows log entry 20, and a HINT that keeps lines out of the cache that FN names log entry 135. -/
def Obligations.EngineIssue : Prop :=
  ∀ (f : Fields) (s : State),
    let fmt := f.fmt.toNat
    let ea : TEntry := s.me.getT f.a.toNat
    let eb : TEntry := s.me.getT f.b.toNat
    let v := s.me.getV f.b.toNat
    let withToken (tok : Option Nat) (e : Entry) (r : List GReg) : List GReg := if tok.isSome then e.gd :: r else r
    let joined (t : State) (w : Work) (pa : Nat) : Prop :=
      let g := memRead s.mem pa 32
      let root := g / 2 ^ 64 % 2 ^ 15
      w.group = BitVec.ofNat 256 g ∧ w.seq = g / 2 ^ 192 ∧ t.holdsBytes (span (pa + 24) 8) (g / 2 ^ 192 + 1) ∧
        s.sameOutside t (span (pa + 24) 8) ∧ (root = s.myVdev.rank → t.outbox = s.outbox) ∧
        (root ≠ s.myVdev.rank → ∃ c : Contribution, t.outbox = s.outbox ++ [.contribution s.vd root (g % 2 ^ 32) w.seq c] ∧
          c.values = w.vals.map (fun x => x.1) ∧ c.member = g / 2 ^ 96 % 2 ^ 16)
    (∀ (cs : CopyShape) (rt : Nat × Bool × Bool) (src : List (Nat × Bool × Bool) × List (Nat × Bool × Bool)),
      let e := s.capture 0x9B f
      let tok := tokenOf f e
      let toReg := f.fn.getLsbD 0
      let n := count cs.ds
      let regs := withToken tok e []
      s.serves 0x9B f → useEntry eb fmt = .ok () → copyShape f eb = .ok cs →
      (toReg = false → useEntry ea fmt = .ok () ∧ ea.shape = cs.ds) →
      (toReg = true → fitsRegister e (Fmt.size fmt) cs.ds) →
      s.consumes e f (regs.any GReg.taint) (regs.any GReg.poison) → checkToken s tok = .ok () →
      copyRoute s f tok = .ok rt →
      (toReg = false → rt.2.1 = false → rt.2.2 = false → checkOverlap ea eb (inPlace f e cs) = .ok ()) →
      (if rt.2.1 then src = ([], []) else copyRead s f e eb cs 0 n = .ok src) →
      (toReg = false → rt.2.2 = false → s.writable s.vd (targets ea cs.ds (List.replicate n (0, false, false)) ++
        if Fmt.isK fmt then scaleTargets ea e.blk cs.ds (List.replicate n (0, false, false)) else [])) →
      (trapsTaint f = true → ∀ x ∈ src.1 ++ src.2, x.2.1 = false) →
      ∃ t w, issues (.copy f) 0x9B f s .copy (flagIf (regs.any GReg.poison) flPSN) (src.1 ++ src.2) t w ∧ w.imageA = ea ∧ w.imageB = eb ∧
        w.route = BitVec.ofNat 64 rt.1 ∧ s.sameMemory t) ∧
    (let ls := prefLines s ea (s.capture 0x9C f)
     let toCache (p : Fill) : Fill :=
       if f.fn.getLsbD 0 then { p with level2 := true, die := (homeOf (128 * p.line)).1, unit := (homeOf (128 * p.line)).2 }
       else { p with die := s.me.place.die, unit := s.me.place.core }
     s.serves 0x9C f → TEntry.valid ea = true → ∃ lines fills dues walks notes,
       let t := { s.retires s.me with lines := lines, fills := fills, dues := dues, walks := walks, poisonedWalks := notes }
       exec (.pref f) s = .next t ∧ (ls = [] → lines = s.lines ∧ fills = s.fills ∧ dues = s.dues) ∧
       ∀ n ∈ ls, ∀ p, s.lineFill (128 * n) { vd := s.vd, hint := f.hint.toNat, retc := ea.retc, prefetch := true } = some p →
         (fillAge? (toCache p)).isSome = true → t.near (toCache p) = true) ∧
    (∀ vals : List (Nat × Bool × Bool),
      let e := s.capture 0x9D f
      let tok := tokenOf f e
      let regs := withToken tok e []
      let n := v.shape.headD 0
      let psn := (List.range (5 * n)).any (fun i => (v.elem 64 i).poison) || regs.any GReg.poison
      s.serves 0x9D f → useEntry ea fmt = .ok () → v.shape = [n, 5] → 1 ≤ n → n ≤ 256 → 5 * n ≤ capacity e.grows.toNat 64 →
      s.consumes e f (v.taint || regs.any GReg.taint) psn → checkToken s tok = .ok () →
      (∀ r ∈ sendRows v, r.ok s.myVdev = true) → sendRead s ea (sendRows v) 0 0 = .ok vals →
      (trapsTaint f = true → ∀ x ∈ vals, x.2.1 = false) →
      ∃ t w, issues (.send f) 0x9D f s .send (flagIf psn flPSN) vals t w ∧ w.imageA = ea ∧ w.reg = v ∧ s.sameMemory t) ∧
    (∀ (vals : List (Nat × Bool × Bool)) (pa : Nat),
      let e := s.capture 0x9E f
      let tok := tokenOf f e
      let g := s.me.getG f.c.toNat
      let regs := withToken tok e [g]
      let idx := (List.range (count eb.shape)).map (unravel eb.shape)
      s.Inv → s.serves 0x9E f → useEntry ea fmt = .ok () → useEntry eb fmt = .ok () → ea.shape = eb.shape →
      s.consumes e f (regs.any GReg.taint) (regs.any GReg.poison) → checkToken s tok = .ok () →
      g.val.toNat % 32 = 0 → g.val.toNat < 2 ^ 56 → s.translate s.vd .rw g.val.toNat = .ok pa →
      groupOk (memRead s.mem pa 32) = true → (trapsTaint f = true → pa / 32 ∉ s.memTaint) → readTensor s eb idx = .ok vals → checkWrites s ea idx = .ok () →
      (trapsTaint f = true → ∀ x ∈ vals, x.2.1 = false) →
      ∃ t w, issues (.cred f) 0x9E f s .cred (flagIf (regs.any GReg.poison) flPSN) vals t w ∧ w.imageA = ea ∧ joined t w pa) ∧
    (∀ (vals : List (Nat × Bool × Bool)) (pa : Nat),
      let e := s.capture 0x9F f
      let tok := tokenOf f e
      let g := s.me.getG f.b.toNat
      let root := s.me.getG f.c.toNat
      let regs := withToken tok e [g, root]
      let idx := (List.range (count ea.shape)).map (unravel ea.shape)
      let mine := memRead s.mem pa 32 / 2 ^ 96 % 2 ^ 16
      s.Inv → s.serves 0x9F f → useEntry ea fmt = .ok () →
      s.consumes e f (regs.any GReg.taint) (regs.any GReg.poison) → checkToken s tok = .ok () →
      g.val.toNat % 32 = 0 → g.val.toNat < 2 ^ 56 → s.translate s.vd .rw g.val.toNat = .ok pa →
      groupOk (memRead s.mem pa 32) = true → (trapsTaint f = true → pa / 32 ∉ s.memTaint) → checkWrites s ea idx = .ok () →
      (if mine = root.val.toNat then readTensor s ea idx = .ok vals else vals = idx.map fun _ => (0, false, false)) →
      (trapsTaint f = true → ∀ x ∈ vals, x.2.1 = false) →
      ∃ t w, issues (.cbcast f) 0x9F f s .cbcast (flagIf (regs.any GReg.poison) flPSN) vals t w ∧ w.imageA = ea ∧ joined t w pa)

/-- R315, R316, R317, R319, R321, R28, R47: ENGINE_FINISH performs what is left of a COPY or SEND, or writes a
collective's result that came back from its root, finishes the token, raises the flag that the issue owed, and drops the
work; of a cancelled strand it writes nothing and finishes with CAN. A SEND to peers stays, sent, until they have
acknowledged (R299); its finish then only finishes the token. What a peer has sent is not taken before the firmware runs (R423).
The finishes of another strand's work act as in its focus.
That all that is left is performed in one step, and that a collective whose contribution has not left is cancelled with
DONE 0, are the model's choices (log entries 9, 41, 42 and 77). -/
def Obligations.EngineFinish : Prop :=
  (∀ (s : State) (w : Work) (fl : Nat) (data : List PeerByte),
    let f := fieldsOf w.entry.word
    let e := w.entry
    let ea : TEntry := w.imageA
    let tok := tokenOf f e
    let full := count (TEntry.shape w.imageB)
    let run : Result := exec (.engineFinish s.me.sid w.k (.done fl) data) s
    let drops (t : State) (raised : Nat) : Prop :=
      t.me.work = (s.me.work.filter fun x => x.k != w.k) ∧ t.me.keeps s.me ∧ t.me.pc = s.me.pc ∧ t.me.queue = s.me.queue ∧
        t.me.flags = s.me.flagged (raised ||| w.owedFlags)
    (s.firmware ≠ .running → data ≠ [] → run = .next s) ∧
    (s.Inv → (data = [] ∨ s.firmware = .running) → s.me.work.find? (fun x => x.k == w.k) = some w → (∀ a, tok = some a → a % 32 = 0) →
    (s.me.status = .running ∨ s.me.status = .halted →
      (w.sent = false → w.done = 0 → w.failed = false → w.rowFailed = false → w.reread = false →
        (∀ cs : CopyShape, w.kind = .copy → w.route.getLsbD 16 = false → w.route.getLsbD 17 = false →
          copyShape f w.imageB = .ok cs →
          let n := count cs.ds
          (f.fn.getLsbD 0 = true →
            ∃ t, run = .next t ∧ drops t 0 ∧ s.tokenFinished t tok (some n) false false ∧
              t.me.v = s.me.v.setIfInBounds f.a.toNat ((s.me.getV f.a.toNat).write (Fmt.size f.fmt.toNat) cs.ds
                ((List.range n).map fun i => ((w.vals.take n)[i]?).map fun x => { val := x.1, taint := x.2.1, poison := x.2.2 }))) ∧
          (let xs := targets ea cs.ds (w.vals.take n) ++
             if Fmt.isK f.fmt.toNat then scaleTargets ea e.blk cs.ds (w.vals.drop n) else []
           f.fn.getLsbD 0 = false → ea.fmt = f.fmt.toNat → s.writable s.vd xs →
            ∃ t u, run = .next t ∧ drops t 0 ∧ t.me.v = s.me.v ∧ s.storesAt u s.vd xs ∧ u.tokenFinished t tok (some n) false false)) ∧
        (∀ parts : List (List (Nat × Bool × Bool)), w.kind = .send →
          let rows := sendRows w.reg
          let z := Fmt.size ea.fmt
          parts.length = rows.length → (∀ p ∈ rows.zip parts, p.2.length = p.1.cnt) → w.vals = parts.flatten →
          (rows ≠ [] → (∀ r ∈ rows, r.peer ≠ s.myVdev.rank) →
            ∃ t w', run = .next t ∧ s.sameMemory t ∧ t.me.keeps s.me ∧ t.me.v = s.me.v ∧ t.me.flags = s.me.flags ∧
              t.me.work.find? (fun x => x.k == w.k) = some w' ∧ w'.sent = true ∧ w'.failed = false ∧ w'.done = rows.length * 2 ^ 48 ∧
              t.outbox = s.outbox ++ (rows.zip parts).flatMap fun p =>
                (p.2.zipIdx.map fun x =>
                  .element s.vd p.1.peer w.k (p.1.daddr * 8 + x.2 * z) z x.1.1 x.1.2.1 x.1.2.2) ++
                [.tail s.vd p.1.peer w.k p.1.cnt (BitVec.ofNat 64 p.1.asig)
                  { agent := s.me.sid, place := some s.me.place, rel := s.workRel w }]) ∧
          (∀ r els, rows = [r] → parts = [els] → r.peer = s.myVdev.rank → r.asig = 0 →
            let xs := els.zipIdx.map fun x => (((r.daddr * 8 + x.2 * z : Nat) : Int), z, x.1.1)
            s.writable s.vd xs →
            ∃ t u, run = .next t ∧ drops t 0 ∧ t.me.v = s.me.v ∧ s.storesAt u s.vd xs ∧ t.outbox = s.outbox ∧
              u.tokenFinished t tok (some (2 ^ 48)) false false))) ∧
      (w.sent = true →
        (w.kind = .copy → ∃ t, run = .next t ∧ drops t 0 ∧ t.me.v = s.me.v ∧ s.tokenFinished t tok (some full) false w.failed) ∧
        (w.kind = .send → ∃ t, run = .next t ∧ drops t 0 ∧ t.me.v = s.me.v ∧
          s.tokenFinished t tok (some ((sendRows w.reg).length * 2 ^ 48)) false w.failed)) ∧
      (w.kind = .cred ∨ w.kind = .cbcast → w.group.toNat / 2 ^ 64 % 2 ^ 15 ≠ s.myVdev.rank →
        let n := count ea.shape
        let z := Fmt.size ea.fmt
        let xs := targets ea ea.shape (unpackPeer z n data)
        n * z ≤ data.length * 8 → s.writable s.vd xs →
        ∃ t u, run = .next t ∧ drops t fl ∧ t.me.v = s.me.v ∧ s.storesAt u s.vd xs ∧ u.tokenFinished t tok (some full) false false)) ∧
    (s.me.status = .cancelled →
      (w.kind = .copy ∨ w.kind = .send →
        ∃ t, run = .next t ∧ drops t 0 ∧ t.me.v = s.me.v ∧ s.tokenFinished t tok (some w.done) true false) ∧
      (w.kind = .cred ∨ w.kind = .cbcast → w.group.toNat / 2 ^ 64 % 2 ^ 15 = s.myVdev.rank →
        ∃ t, run = .next t ∧ drops t 0 ∧ t.me.v = s.me.v ∧ s.tokenFinished t tok (some 0) true false)))) ∧
  (∀ (s : State) (sid k : Nat) (how : EngineEnd) (data : List PeerByte) (merge : Bool),
    ∀ i ∈ [Instr.engineFinish sid k how data, .planeLoadFinish sid k, .matrixOpFinish sid k merge],
      ∃ g : State → State, (∀ u : State, u.me.sid = sid → exec i u = .next (g u)) ∧ exec i s = .next (s.asStrand sid g))


/-- R299, R305, R306, R310, R318, R321, R322, R323, R324, R391: an element of a train is written at its home and
counted, a train's tail adds its count to the arrival signal and is acknowledged once every element has come, a
gathered collective delivers its outcome to the members on this device and on others, and one whose members disagreed
goes on answering ERR; a peer's home action, Manifest fold or COPY access acts here and is answered, a fold with the logical index
of its task, a returning action whose sender takes TAINT or POISON for the value (R100, R306) with no effect. Before the firmware runs, the ports take none of
this (R423). The member whose RND counts is free, and differing roots disagree: the model's reading (log entries 43 and 80). So are
the acts of another device's Steward on a Manifest record here, a comparison, a STATUS or a clearing (R392, R393; log entry 93). -/
def Obligations.PeerTraffic : Prop :=
  (∀ s : State, s.firmware ≠ .running →
    (∀ p, exec (.caravanElement p) s = .next s) ∧ (∀ p, exec (.caravanTail p) s = .next s) ∧
    (∀ p, exec (.peerHomeAction p) s = .next s) ∧ (∀ p, exec (.copyPeerAccess p) s = .next s) ∧
    ∀ vd gid seq remote, exec (.credCombine vd gid seq remote) s = exec (.credCombine vd gid seq []) s ∧
      exec (.cbcastDeliver vd gid seq remote) s = exec (.cbcastDeliver vd gid seq []) s) ∧
  (∀ (p : CaravanElem) (s : State), s.firmware = .running → s.Inv → p.size ≤ 64 →
    let vd := p.vd.toNat
    let xs := [((p.bitAddr : Int), p.size, p.value)]
    (s.writable vd xs → ∃ t, exec (.caravanElement p) s = .next t ∧ s.storesAt t vd xs ∧ t.me.keeps s.me ∧ t.me.v = s.me.v ∧
      (t.train vd p.train).performed = (s.train vd p.train).performed + 1) ∧
    (∀ x, s.transBits vd .wr (p.bitAddr : Int) p.size = .error x → ∃ t, exec (.caravanElement p) s = .next t ∧
      s.sameMemory t ∧ (t.train vd p.train).faulted = true)) ∧
  (∀ (p : CaravanTail) (s : State) (pa : Nat), s.firmware = .running → s.Inv →
    let vd := p.vd.toNat
    let gone := s.trains.filter fun x => !(x.vd == vd && x.train == p.train)
    let done := s.outbox ++ [.trainAck vd p.train false]
    (s.train vd p.train).faulted = false → p.count ≤ (s.train vd p.train).performed →
    (p.asig = 0 → exec (.caravanTail p) s = .next { s with trains := gone, outbox := done }) ∧
    (p.asig ≠ 0 → p.asig.toNat % 8 = 0 → s.translate vd .rw p.asig.toNat = .ok pa →
      ∃ t, exec (.caravanTail p) s = .next t ∧ t.trains = gone ∧ t.outbox = done ∧ t.me.keeps s.me ∧
        t.holdsBytes (span pa 8) (memRead s.mem pa 8 + p.count) ∧ s.sameOutside t (span pa 8))) ∧
  (∀ (vd : BitVec 4) (gid seq : Nat) (remote : List Contribution) (s : State) (w : Work),
    let locals := s.members vd.toNat gid seq
    let cs := (locals.map fun p => p.2.contribution p.1) ++ remote
    let ea : TEntry := w.imageA
    let tok := tokenOf (fieldsOf w.entry.word) w.entry
    let full := count (TEntry.shape w.imageB)
    let missing := (cs.map Contribution.nmem).foldl max 0 - cs.length
    let groups : List FailedGroup :=
      if missing = 0 then s.failedGroups else { vd := vd.toNat, gid := gid, seq := seq, left := missing } :: s.failedGroups
    let known := s.failedGroups.find? fun g => g.vd == vd.toNat && g.gid == gid && g.seq == seq
    let delivers (i : Instr) (mine : Contribution → Bool) (o : List Contribution → Outcome) : Prop :=
      let xs := targets ea ea.shape (o cs).vals
      let out := s.outbox ++ remote.map fun c => .result vd.toNat gid seq c.member (o cs).err (o cs).flags (o cs).vals
      let done (t : State) : Prop := exec i s = .next t ∧ t.outbox = out ∧ t.free = s.free + cs.length ∧ t.failedGroups = groups ∧
        t.me.work = (s.me.work.filter fun x => x.k != w.k) ∧ t.me.keeps s.me ∧ t.me.v = s.me.v
      (remote = [] ∨ s.firmware = .running → known = none → cs.any mine = true → gathered cs = true →
        (locals = [] → exec i s = .next { s with outbox := out, free := s.free + cs.length, failedGroups := groups }) ∧
        (locals = [(s.me.sid, w)] → s.Inv → s.me.status ≠ .cancelled → (∀ a, tok = some a → a % 32 = 0) →
          ((o cs).err = true → ∃ t, done t ∧ t.me.flags = s.me.flagged w.owedFlags ∧ s.tokenFinished t tok (some full) false true) ∧
          ((o cs).err = false → s.writable s.vd xs → ∃ t u, done t ∧ t.me.flags = s.me.flagged ((o cs).flags ||| w.owedFlags) ∧
            s.storesAt u s.vd xs ∧ u.tokenFinished t tok (some full) false false))) ∧
      (∀ g, remote = [] ∨ s.firmware = .running → known = some g → locals = [] → ∃ groups', exec i s = .next { s with
        outbox := s.outbox ++ remote.map fun c => .result vd.toNat gid seq c.member true 0 [], failedGroups := groups' } ∧
        (∀ x ∈ groups', x ∈ s.failedGroups ∨ x = { g with left := g.left - cs.length }) ∧ (g.left ≤ cs.length → g ∉ groups'))
    delivers (.credCombine vd gid seq remote) (fun c => !c.cbcast) (credOutcome s) ∧
    delivers (.cbcastDeliver vd gid seq remote) Contribution.cbcast cbcastOutcome) ∧
  (∀ (p : PeerAction) (s : State) (pa : Nat),
    let vd := p.vd.toNat
    let n := homeSize p.kind p.fn.toNat
    let w := 8 * n
    let old := memRead s.mem pa n
    let x := p.b.toNat % 2 ^ w
    let gt := s.memTaint.contains (pa / 32)
    let gp := s.memPoison.contains (pa / 32)
    let stops := (p.trap && gp) || (p.tnt && gt)
    let run : Result := exec (.peerHomeAction p) s
    let sum := arithElem .add { fmt := 0, rnd := .rne } old x 0
    let answers (back : Nat) (ta po : Bool) (fl : Flags) (t : State) : Prop :=
      ∃ rel seen, t.outbox = s.outbox ++ [.reply vd p.peer.toNat (BitVec.ofNat 64 back) ta po fl rel seen none]
    let acts (new : Option Nat) (back : Nat) (ta po : Bool) (fl : Flags) : Prop :=
      ∃ t, run = .next t ∧ answers back ta po fl t ∧
        t.me.keeps s.me ∧ t.me.v = s.me.v ∧ (∀ v, new = some v → t.holdsBytes (span pa n) v ∧ s.sameOutside t (span pa n)) ∧
        (new = none → s.sameMemory t)
    s.firmware = .running → s.Inv → p.manifest = none → p.fold = none → p.addr.toNat % n = 0 → s.translate vd (homeAccess p.kind) p.addr.toNat = .ok pa →
    (p.kind ≠ .sig → stops = true → ∃ t, run = .next t ∧ answers old gt gp 0 t ∧ t.me = s.me ∧ s.sameMemory t) ∧
    (p.kind = .sig → acts (some (if p.fn.getLsbD 3 then p.b.toNat else old + p.b.toNat)) 0 false false 0) ∧
    (stops = false →
      (p.kind = .lda → acts none old gt gp 0) ∧
      (p.kind = .amof → acts (some sum.1) old gt gp sum.2) ∧
      (p.kind = .amo → p.fn.toNat / 32 = 7 → acts (if old = x then some (p.c.toNat % 2 ^ w) else none) old gt gp 0) ∧
      (∀ v, p.kind = .amo → ([(old + x) % 2 ^ w, if toSigned w old ≤ toSigned w x then old else x,
          if toSigned w x ≤ toSigned w old then old else x, old &&& x, old ||| x, old ^^^ x, x] : List Nat)[p.fn.toNat / 32]? = some v →
        acts (some v) old gt gp 0))) ∧
  (∀ (p : PeerAction) (s : State) (m : FoldMsg) (pa : Nat),
    let vd := p.vd.toNat
    let i := memRead s.mem (pa + 40) 8 + m.offset
    s.firmware = .running → s.Inv → p.manifest = none → p.fold = some m → p.addr.toNat % 64 = 0 →
    s.translate vd .rw p.addr.toNat = .ok pa →
    ∃ t, exec (.peerHomeAction p) s = .next t ∧
      t.outbox = s.outbox ++ [.reply vd p.peer.toNat (BitVec.ofNat 64 i) false false 0 [] [] none] ∧
      t.me.keeps s.me ∧ t.me.v = s.me.v ∧
      t.holdsBytes (span (pa + 48) 8) (memRead s.mem (pa + 48) 8 + p.b.toNat * 2 ^ (i % 64) % 2 ^ 64 + p.b.toNat * 2 ^ (i % 64) / 2 ^ 64) ∧
      t.holdsBytes (span (pa + 32) 4) (memRead s.mem (pa + 32) 4 + 1) ∧ t.holdsBytes (span (pa + 36) 4) m.phase.toNat ∧
      s.sameOutside t (span pa 1 ++ span (pa + 32) 8 ++ span (pa + 48) 8)) ∧
  (∀ (p : PeerAction) (s : State) (act : ManifestAct) (pa : Nat),
    let vd := p.vd.toNat
    let equal : Word := if memRead s.mem (pa + 48) 8 = memRead s.mem (pa + 56) 8 then 1 else 0
    s.firmware = .running → s.Inv → p.manifest = some act → p.addr.toNat % 64 = 0 → s.translate vd .rw p.addr.toNat = .ok pa →
    ∃ t, exec (.peerHomeAction p) s = .next t ∧
      t.outbox = s.outbox ++ [.reply vd p.peer.toNat equal false false 0 [] [] none] ∧ t.me.keeps s.me ∧ t.me.v = s.me.v ∧
      (act = .compare → s.sameMemory t) ∧
      (∀ n, act = .status n → t.holdsBytes (span pa 1) (memRead s.mem pa 1 / 8 * 8 + n.toNat) ∧ s.sameOutside t (span pa 1)) ∧
      (act = .clear → t.holdsBytes (span (pa + 32) 4) 0 ∧ t.holdsBytes (span (pa + 48) 8) 0 ∧
        s.sameOutside t (span (pa + 32) 4 ++ span (pa + 48) 8))) ∧
  (∀ (p : PeerAccess) (s : State) (y : Nat × Bool × Bool),
    let vd := p.vd.toNat
    let xs := [((p.bitAddr : Int), p.size, p.value)]
    s.firmware = .running →
    (p.isWrite = true → s.Inv → p.size ≤ 64 → s.writable vd xs → ∃ t, exec (.copyPeerAccess p) s = .next t ∧
      s.storesAt t vd xs ∧ t.outbox = s.outbox ++ [.reply vd p.peer.toNat 0 false false 0 [] [] none] ∧ t.me.keeps s.me ∧ t.me.v = s.me.v) ∧
    (p.isWrite = false → s.readHome vd .rd (p.bitAddr : Int) p.size = .ok y → exec (.copyPeerAccess p) s =
      .next { s with outbox := s.outbox ++ [.reply vd p.peer.toNat (BitVec.ofNat 64 y.1) y.2.1 y.2.2 0 [] [] none] }))

/-! ### The matrix engine (R332 to R349) -/

/-- R332, R338, R339, R340, R341, R334: MATT sets GRANT and MDET clears it; PLOAD and PLOADX read their columns at
issue, an unlisted column of PLOADX with its top two planes only; PLANE_LOAD_FINISH makes the slot valid, raises the
flag that the issue owed (R47), and leaves a column that was written before as it stands (R340); a parity error on a
plane line fetches its column again, with its taint, through the caches (R269); the correction counts for the unit that serves the engine's place
(R429, R430). That the columns are read in the step of the issue is the model's
choice (log entry 9); MATT raises no fault: log entry 19. -/
def Obligations.MatrixLoads : Prop :=
  (∀ (f : Fields) (s : State),
    let n := s.myEngw
    (let e := s.capture 0xB0 f
     let w := (s.me.getG f.a.toNat).val.toNat
     s.serves 0xB0 f → exec (.matt f) s = .next (s.retires { s.me with
       grant := BitVec.ofNat 16 (if w = 0 ∨ n = 0 then 0 else min (64 * ceilDiv (min w 256) 64) (64 * n))
       flags := s.me.flagged (flagIf e.ga.poison flPSN) })) ∧
    (s.serves 0xB1 f → exec (.mdet f) s = .next (s.retires { s.me with grant := 0 })) ∧
    (let loads (i : Instr) (op : BitVec 8) (x : Bool) : Prop :=
       let e := s.capture op f
       let t : TEntry := s.me.getT f.a.toNat
       let g := s.me.getG f.b.toNat
       let w := g.val.toNat
       let slot := w % 128
       let n0 := w / 2 ^ 8 % 2 ^ 28
       let k0 := w / 2 ^ 36
       let vc := s.me.getV f.c.toNat
       let els := if x then (List.range (count vc.shape)).map (vc.elem 32) else []
       let listed (c : Nat) : Bool := !x || els.any fun y => toSigned 32 y.val == ((n0 + c : Nat) : Int)
       let psn := g.poison || els.any Elt.poison
       s.serves op f → useEntry t f.fn.toNat = .ok () → 14 ≤ f.fn.toNat → f.fn.toNat ≤ 20 → s.me.grant ≠ 0 →
       s.myReservation?.isSome = true → t.rank = 2 → k0 % e.blk = 0 →
       (x = true → count vc.shape ≤ capacity e.grows.toNat 32) →
       s.consumes e f (g.taint || (x && vc.taint && !els.isEmpty)) psn →
       (∀ p, w / 128 % 2 = 0 → slot < 32 * n → fillSlot (s.readElem s.vd) t k0 n0 e.blk listed = .ok p →
         (trapsTaint f = true → p.taint = 0) →
         p.valid = true ∧
         (∀ c k y, c < 256 → k < 256 → inside t.shape [n0 + c, k0 + k] = true →
           s.readElem s.vd (t.addr [n0 + c, k0 + k]) (Fmt.size t.fmt) = .ok y →
           bits p.planes (2048 * c + 8 * k + 7) (2048 * c + 8 * k) = if listed c then y.1 else topPlanes (Fmt.size t.fmt) y.1) ∧
         ∃ u q, issues i op f s .pload (flagIf psn flPSN) [] u q ∧ q.slotLoad = p ∧ q.target = g.val ∧ s.sameMemory u) ∧
       (∀ p, w / 128 % 2 = 1 → x = false → f.fn = 0x14 → k0 = 0 → n0 = 0 → slot < 2 →
         (if slot = 1 then t.ext 1 = 32 ∧ t.ext 0 ≤ 1024 * n else t.ext 0 = 32 ∧ t.ext 1 ≤ 1024 * n) →
         fillPart (s.readElem s.vd) t e.blk = .ok p → (trapsTaint f = true → p.2 = false) →
         ∃ u q, issues i op f s .pload (flagIf psn flPSN) [] u q ∧ q.partLoad = p.1 ∧ q.target = g.val ∧ s.sameMemory u)
     loads (.pload f) 0xB2 false ∧ loads (.ploadx f) 0xB3 true)) ∧
  (∀ (s : State) (w : Work) (r : Reservation), s.myReservation? = some r →
    s.me.work.find? (fun x => x.k == w.k && x.kind == .pload) = some w →
    let after (r' : Reservation) : Result := .next { s.putReservation r' with
      me := { s.me with work := (s.me.work.filter fun x => x.k != w.k), flags := s.me.flagged w.owedFlags } }
    let slot := w.target.toNat % 128
    let old := r.slots.getD slot {}
    ∃ q : PlaneSlot, exec (.planeLoadFinish s.me.sid w.k) s =
      (if w.target.getLsbD 7 then after (if w.target.getLsbD 0 then { r with part1 := w.partLoad } else { r with part0 := w.partLoad })
       else after { r with slots := r.slots.set slot q }) ∧
      (w.loaded = allColumns → q = old) ∧
      (w.loaded ≠ allColumns → q.valid = w.slotLoad.valid ∧ q.image = w.slotLoad.image ∧ (w.loaded = 0 → q = w.slotLoad)) ∧
      ∀ n < 256, bits q.planes (2048 * n + 2047) (2048 * n) =
        bits (if bit w.loaded n then old else w.slotLoad).planes (2048 * n + 2047) (2048 * n)) ∧
  (∀ (s : State) (lid die cluster slot column : Nat) (r : Reservation) (c : Column),
    let p := r.slots.getD slot {}
    let vd := ((s.launch? lid).map Launch.vd).getD 0
    s.reservations.find? (fun x => x.isOf lid die cluster) = some r → p.valid = true → column < 256 →
    readColumn (s.readHome vd .rd) p.image (p.n0 + column) p.k0 256 p.blk = .ok c →
    ∃ (q : PlaneSlot) (lines : List CacheLine) (fills : List Fill) (dues : List Due),
      exec (.planeParityRefetch lid die cluster slot column) s =
        .next { (s.countCorrection die (s.serving die (68 + cluster))).putReservation { r with slots := r.slots.set slot q } with
          lines := lines, fills := fills, dues := dues } ∧
      q.valid = true ∧ q.image = p.image ∧ q.listed = p.listed ∧ bit q.taint column = c.taint ∧
      (∀ k < 256, bits q.planes (2048 * column + 8 * k + 7) (2048 * column + 8 * k) =
        (if bit p.listed column then c.mant.getD k 0 else topPlanes p.pb (c.mant.getD k 0)) % 256) ∧
      ∀ n < 256, n ≠ column → bits q.planes (2048 * n + 2047) (2048 * n) = bits p.planes (2048 * n + 2047) (2048 * n) ∧
        bit q.poison n = bit p.poison n)

/-- R342 to R349, R87, R88: MMS and MMR owe the tile one addition for each row and listed column; an owed write
completes with Round(z + s), and a poisoned row that it reads sets PSN, a tainted tile TNT (R191); ZRD and ZWR move a tile block, ZCLR clears a tile; SCOUT lists the neurons whose estimate
exceeds SCOUTT; CHECK counts misses and owes the writes of the columns it decides. What lies beyond KA and which rows
count as poisoned are the model's readings (log entries 45 and 46), and so is that products are formed at issue, after which
the tile stands until MATRIX_OP_FINISH (log entry 9). -/
def Obligations.MatrixOperations : Prop :=
  (∀ (f : Fields) (s : State),
    let va := s.me.getV f.a.toNat
    let vb := s.me.getV f.b.toNat
    let rows := s.me.rows.toNat
    let ka := va.shape.getD 1 0
    let gate (e : Entry) (p : PlaneSlot) (r : Reservation) (slot cg row0 : Nat) : Prop :=
      s.myReservation? = some r ∧ p = r.slots.getD slot {} ∧ p.valid = true ∧ s.me.grant ≠ 0 ∧ slot < 32 * s.myEngw ∧
        64 * cg + s.me.grant.toNat ≤ 256 ∧ e.blk = p.blk ∧ va.shape = [rows, ka] ∧ vb.shape = [rows, ceilDiv ka e.blk] ∧
        rows * ka ≤ capacity e.grows.toNat 8 ∧ rows * ceilDiv ka e.blk ≤ capacity e.grows.toNat 8 ∧ row0 + rows ≤ 192 ∧
        s.engineFull = false
    (∀ (p : PlaneSlot) (r : Reservation),
      let imm := f.imm.toNat
      let kt := imm / 2 ^ 16 % 256
      let cg := imm / 2 ^ 8 % 4
      let g := s.me.getG f.c.toNat
      let row0 := g.val.toNat
      let cols := (upTo (64 * cg) (64 * cg + s.me.grant.toNat)).filter (bit p.listed)
      let any := decide (0 < rows) && !cols.isEmpty
      let multiplies (i : Instr) (op : BitVec 8) : Prop :=
        let e := s.capture op f
        let badRows := if cols.isEmpty then [] else (List.range rows).filter fun r => aPoisoned va vb ka e.blk r kt
        let z := s.me.getZ f.d.toNat
        let psn := g.poison || !badRows.isEmpty ||
          (any && (cols.any (bit p.poison) || (List.range rows).any fun r => bit z.poison (row0 + r)))
        let product (r n : Nat) : Nat × Flags :=
          innerProduct (e.rnd f ((row0 + r) * 256 + n)) (tilePartials p.pb p.blk (aTile va vb ka e.blk r kt) (p.column n))
        let fl := ((List.range rows).flatMap fun r => cols.map fun n => (product r n).2).foldl (· ||| ·) (flagIf psn flPSN)
        s.serves op f → gate e p r (imm % 128) cg row0 →
        s.consumes e f (g.taint || (any && (va.taint || vb.taint || z.taint))) psn →
        (any = false → op = 0xB4 → exec i s = .next (s.retires { s.me with flags := s.me.flagged (flagIf psn flPSN) })) ∧
        (any = true ∨ op = 0xB5 → ∃ t w, issues i op f s .mms fl [] t w ∧ s.sameMemory t ∧ (op = 0xB5 → w.owedTaint = true) ∧
          w.owed = (List.range rows).flatMap fun r => cols.map fun n => ((row0 + r) * 256 + n, some (product r n).1))
      multiplies (.mms f) 0xB4 ∧ multiplies (.mmr f) 0xB5) ∧
    (let e := s.capture 0xB6 f
     let fmt := f.fmt.toNat
     let z := Fmt.size fmt
     let g := s.me.getG f.b.toNat
     let r0 := g.val.toNat % 256
     let c0 := g.val.toNat / 256
     let cols := s.me.cols.toNat
     let t := s.me.getZ f.a.toNat
     let at_ (p : Nat) : Nat := (r0 + p / cols) * 256 + c0 + p % cols
     let conv (p : Nat) : Nat × Flags := convElem 0 fmt (e.rnd f (at_ p)) false f.fso f.sat (t.get (at_ p))
     let psn := g.poison || (decide (0 < rows * cols) && (List.range rows).any fun i => bit t.poison (r0 + i))
     let new := (s.me.getV f.d.toNat).write z [rows, cols] ((List.range (rows * cols)).map fun p =>
       some { val := (conv p).1, taint := t.taint || g.taint, poison := bit t.poison (r0 + p / cols) || g.poison })
     s.serves 0xB6 f → g.val.toNat < 2 ^ 16 → (rows = 0 ∨ cols = 0 ∨ r0 + rows ≤ 192 ∧ c0 + cols ≤ 256) →
     rows * cols ≤ capacity e.grows.toNat z → s.consumes e f (g.taint || (decide (0 < rows * cols) && t.taint)) psn →
      exec (.zrd f) s = .next (s.retires { s.me with
        v := s.me.v.setIfInBounds f.d.toNat new
        flags := s.me.flagged ((List.range (rows * cols)).foldl (fun a p => a ||| (conv p).2) 0 ||| flagIf psn flPSN |||
          flagIf new.taint flTNT) })) ∧
    (let e := s.capture 0xB7 f
     let fmt := f.fmt.toNat
     let z := Fmt.size fmt
     let g := s.me.getG f.b.toNat
     let r0 := g.val.toNat % 256
     let c0 := g.val.toNat / 256
     let nr := va.shape.getD 0 0
     let nc := va.shape.getD 1 0
     let at_ (p : Nat) : Nat := (r0 + p / nc) * 256 + c0 + p % nc
     let els := (List.range (nr * nc)).map (va.elem z)
     let conv (p : Nat) : Nat × Flags := convElem fmt 0 (e.rnd f (at_ p)) f.fsi false false (va.elem z p).val
     let taint := (s.me.getZ f.d.toNat).taint || va.taint || g.taint
     s.serves 0xB7 f → va.shape.length = 2 → nr * nc ≤ capacity e.grows.toNat z → g.val.toNat < 2 ^ 16 → f.d.toNat < 16 →
     (nr = 0 ∨ nc = 0 ∨ r0 + nr ≤ 192 ∧ c0 + nc ≤ 256) →
     s.consumes e f (g.taint || (va.taint && !els.isEmpty)) (g.poison || els.any Elt.poison) →
      ∃ t, exec (.zwr f) s = .next t ∧ t.me.pc = s.me.pc + 16 ∧ t.me.queue = [] ∧ t.me.g = s.me.g ∧ t.me.v = s.me.v ∧
        s.sameMemory t ∧ (∀ k, k ≠ f.d.toNat → t.me.getZ k = s.me.getZ k) ∧
        (∀ p < nr * nc, (t.me.getZ f.d.toNat).get (at_ p) = (conv p).1 % 2 ^ 32) ∧
        (0 < nr * nc → (t.me.getZ f.d.toNat).taint = taint) ∧
        t.me.flags = s.me.flagged ((List.range (nr * nc)).foldl (fun a p => a ||| (conv p).2) 0 |||
          flagIf (g.poison || els.any Elt.poison) flPSN ||| flagIf (decide (0 < nr * nc) && taint) flTNT) ∧
        ∀ i, (∀ p < nr * nc, i ≠ at_ p) → (t.me.getZ f.d.toNat).get i = (s.me.getZ f.d.toNat).get i) ∧
    (s.serves 0xB8 f → exec (.zclr f) s = .next (s.retires { s.me with z := s.me.z.setIfInBounds f.d.toNat {} })) ∧
    (∀ r : Reservation,
      let e := s.capture 0xB9 f
      let kp := TEntry.ext r.part0.image 1
      let np := TEntry.ext r.part1.image 0
      let tn := va.shape.getD 0 0
      let els := (List.range (tn * kp)).map (va.elem 32)
      let f32 := fparam 0
      let hidden (t : Nat) : List Val := (List.range 32).map fun q =>
        decodeFloat f32 (scoutSum ((List.range kp).map fun k => decodeFloat f32 (va.elem 32 (t * kp + k)).val)
          ((List.range kp).map (r.part0.val kp q)))
      let list := (List.range np).filter fun n => (List.range tn).any fun t =>
        (cmpFloat f32 4 (scoutSum (hidden t) ((List.range 32).map (r.part1.val 32 n))) s.me.scoutt.toNat).1
      let keep := min (min list.length 65535) (capacity s.me.grows 32)
      s.serves 0xB9 f → s.myReservation? = some r → r.part0.loaded = true → r.part1.loaded = true → va.shape = [tn, kp] →
      tn ≤ 192 → tn * kp ≤ capacity e.grows.toNat 32 → f.d.toNat < 32 → f.e ≠ 0 → f.e.toNat < 32 →
      s.consumes e f (va.taint && !els.isEmpty) (els.any Elt.poison) →
      ∃ t, exec (.scout f) s = .next t ∧ t.me.pc = s.me.pc + 16 ∧ t.me.queue = [] ∧ s.sameMemory t ∧ t.me.q = s.me.q ∧
        t.me.m = s.me.m ∧ t.me.z = s.me.z ∧ (t.me.getG f.e.toNat).val = BitVec.ofNat 64 list.length ∧
        (t.me.getV f.d.toNat).shape = [keep] ∧
        (∀ j < keep, ((t.me.getV f.d.toNat).elem 32 j).val = list.getD j 0 % 2 ^ 32) ∧
        (∀ k, k ≠ f.d.toNat → t.me.getV k = s.me.getV k) ∧ ∀ k, k ≠ f.e.toNat → t.me.getG k = s.me.getG k) ∧
    (∀ (p : PlaneSlot) (r : Reservation) (cols : List Column),
      let e := s.capture 0xBA f
      let g := s.me.getG f.c.toNat
      let w := g.val.toNat
      let slot := w % 128
      let row0 := w / 2 ^ 8 % 256
      let cg := w / 2 ^ 16 % 4
      let ns := (upTo (64 * cg) (64 * cg + s.me.grant.toNat)).filter fun n => !bit p.listed n
      let any := decide (0 < rows) && !ns.isEmpty
      let bad := any && (List.range rows).any fun r => (List.range (ceilDiv ka 256)).any fun kt => aPoisoned va vb ka e.blk r kt
      let outs := (ns.zip cols).map fun q => checkOwed f e s p ka row0 q.1 q.2
      let psn := g.poison || bad || (any && (cols.any Column.poison ||
        outs.any fun o => o.1.any fun x => x.2.isSome && bit (s.me.getZ f.d.toNat).poison (x.1 / 256)))
      let misses := (outs.filter fun o => o.2.2).length
      let replays := any && outs.any fun o => o.1.any fun x => x.2.isSome
      s.serves 0xBA f → w < 2 ^ 18 → w / 128 % 2 = 0 → gate e p r slot cg row0 → cols.length = ns.length →
      (∀ q ∈ ns.zip cols, readColumn (s.readElem s.vd) p.image (p.n0 + q.1) p.k0 ka e.blk = .ok q.2) →
      s.consumes e f (g.taint || (any && (va.taint || vb.taint)) || (any && cols.any Column.taint) ||
        (replays && (s.me.getZ f.d.toNat).taint)) psn →
      ∃ t, exec (.check f) s = .next t ∧ t.me.pc = s.me.pc + 16 ∧ t.me.queue = [] ∧ t.me.prog = 0 ∧ s.sameMemory t ∧
        t.me.g = s.me.g ∧ t.me.v = s.me.v ∧ t.me.z = s.me.z ∧ t.me.scoutm = s.me.scoutm + BitVec.ofNat 32 misses ∧
        (any = false → t.me.work = [] ∧ t.me.flags = s.me.flagged (flagIf psn flPSN)) ∧
        (any = true → t.me.flags = s.me.flags ∧ ∃ q, t.me.work = [q] ∧ q.kind = .check ∧
          q.owed = (outs.map fun o => o.1).flatten ∧ q.owedFlags = outs.foldl (fun a o => a ||| o.2.1) (flagIf psn flPSN)))) ∧
  (∀ (s : State) (w : Work),
    let old := s.me.getZ w.tile
    s.me.work.find? (fun x => x.k == w.k && (x.kind == .mms || x.kind == .check)) = some w →
    mayFinish s.me.work w = true → w.tile < 16 → w.owedRows = [] → (w.owed.map fun x => x.1).Nodup →
    ∃ t, exec (.matrixOpFinish s.me.sid w.k false) s = .next t ∧ t.me.work = (s.me.work.filter fun x => x.k != w.k) ∧
      t.me.g = s.me.g ∧ t.me.v = s.me.v ∧ s.sameMemory t ∧ (∀ k, k ≠ w.tile → t.me.getZ k = s.me.getZ k) ∧
      (t.me.getZ w.tile).taint = (old.taint || w.owedTaint) ∧
      t.me.flags = s.me.flagged (w.owed.foldl (fun a o => match o.2 with
          | some x => a ||| (accAdd (old.get o.1) x).2
          | none => a) w.owedFlags |||
        flagIf (w.owed.any fun o => o.2.isSome && bit old.poison (o.1 / 256)) flPSN |||
        flagIf (old.taint || w.owedTaint) flTNT) ∧
      (∀ i x, (i, some x) ∈ w.owed → (t.me.getZ w.tile).get i = (accAdd (old.get i) x).1 % 2 ^ 32) ∧
      (∀ i, (i, none) ∈ w.owed → (t.me.getZ w.tile).get i = 0) ∧
      ∀ i, (∀ x, (i, x) ∉ w.owed) → (t.me.getZ w.tile).get i = old.get i)

/-! ### Queue, splices, watchdog (R13, R14, R94, R363, R373) -/

/-- R13, R14, R94: a legal array-class word enters the queue with its captured values while fewer than SLIP entries are
held; one whose guard is false only advances the PC. R363: a matched load moves its store's source where the store of
this pass has the same origin, counts and AMB 0, and is the original VLD otherwise; a store of the body captures as it enters the queue. R373: the
watchdog faults a resident strand that has waited WD × 2^16 cycles. R350: DRARM arms a batch and adds its tasks to the phase. DRARM's checks and
the order of a spliced body are the model's readings (log entries 51 and 67). -/
def Obligations.QueueSpliceWatchdog : Prop :=
  (∀ (op : BitVec 8) (f : Fields) (s : State), isScalarOp op = false → legal op f = true →
    (∀ n ∈ namedZ op.toNat f, n < tilesOf s.me.place.res) →
    s.me.queue.length < (if s.me.slip = 0 then 64 else s.me.slip.toNat) →
    exec (.enqueue op f) s = .next { s with me := { s.me with
      pc := s.me.pc + 16, issued := s.now
      queue := if s.me.guard f.gs then s.me.queue ++ [s.capture op f] else s.me.queue
      spliced := if s.me.guard f.gs then s.storeCaptured (s.capture op f) f else s.me.spliced } }) ∧
  (∀ (e : Entry) (f : Fields) (s : State) (w : SpliceWord), s.spliceWord? s.me.launch.toNat e.pc = some w → w.body = true →
    e.word.toNat / 2 ^ 120 = 0x42 → f.fn.toNat % 2 = 0 → s.storeCaptured e f =
      { pc := w.pc, vreg := f.d.toNat, row0 := e.gb.val, col0 := e.gc.val, rows := e.rows, cols := e.cols, amb := e.amb } ::
        s.me.spliced) ∧
  (∀ (f : Fields) (s : State),
    let e := s.capture 0x41 f
    let z := Fmt.size f.fmt.toNat
    let same (r : SpliceStore) : Prop :=
      r.row0 = e.gb.val ∧ r.col0 = e.gc.val ∧ r.rows = e.rows ∧ r.cols = e.cols ∧ r.amb = e.amb ∧ e.amb = 0
    let f0 : Fields := { f with gm := 0 }
    (∀ (w : SpliceWord) (v : Nat) (pc : Word) (r : SpliceStore),
      let src := s.me.getV v
      let els := (List.range (count src.shape)).map fun i =>
        if isActive s e f0 src.shape i then ((some (src.elem z i), 0) : Option Elt × Flags) else (none, 0)
      s.spliceWord? s.me.launch.toNat s.me.pc = some w → w.matched = some (v, pc) →
      s.me.spliced.find? (fun r => r.pc == pc && r.vreg == v) = some r → s.serves 0x41 f →
      (same r → checkMasks s e f0 src.shape = .ok () → count src.shape ≤ capacity e.grows.toNat z →
        s.acceptsV e f0 f.d.toNat z els →
        exec (.spliceMove f) s = .next (s.retires (s.me.takesV f.d.toNat z src.shape els))) ∧
      (¬ same r → exec (.spliceMove f) s = exec (.vldTid f) s)) ∧
    (s.me.queue = [] → s.spliceWord? s.me.launch.toNat s.me.pc = none → exec (.spliceMove f) s = exec (.vldTid f) s)) ∧
  (∀ (s : State) (e : Entry) (r : List Entry),
    let op := e.word.toNat / 2 ^ 120
    let f := fieldsOf e.word
    let waits := (op ∈ [0x40, 0x96, 0x97, 0x98] ∧ s.me.sleep.isSome = true) ∨
      (op = 0x91 ∧ f.fn.toNat % 4 = 3 ∧ s.me.work ≠ []) ∨ (op = 0x90 ∧ 8 ≤ f.fn.toNat % 16 ∧ s.owes (f.fn.toNat % 8) = true) ∨
      (op ∈ [0xB4, 0xB5, 0xBA] ∧ s.engineFull = true) ∨ (op = 0xB6 ∧ s.owesTile f.a.toNat = true) ∨
      (op ∈ [0xB7, 0xB8] ∧ s.owesTile f.d.toNat = true) ∨ s.interlocked e op f = true ∨ s.waitsForWork e = true
    let due := s.myVdev.wd ≠ 0 ∧ s.me.issued + s.myVdev.wd * 2 ^ 16 ≤ s.now
    (s.me.status = .running ∨ s.me.status = .halted) →
      (s.me.queue = e :: r → waits → due → exec .watchdog s = .next { s with me := { s.me with
        pend := some { isArray := true, cause := cWATCHDOG, fpc := e.pc, epc := s.me.pc } } }) ∧
      (s.me.queue = e :: r → ¬ due ∨ s.waitsAt e = false → exec .watchdog s = .next s) ∧
      (s.me.queue = [] → s.me.status = .halted → s.me.work ≠ [] → due → exec .watchdog s =
        .next (s.takeFault { cause := cWATCHDOG, fpc := s.me.pc - 16, epc := s.me.pc }))) ∧
  (∀ (f : Fields) (s : State) (pa : Nat) (x y : Nat × Bool × Bool),
    let e := s.capture 0xBB f
    let g := s.me.getG f.a.toNat
    let a := g.val.toNat
    let kern : Nat := x.1 / 2 ^ 320 % 2 ^ 64
    let n := y.1 / 2 ^ 400 % 2 ^ 11
    let die := s.me.place.die
    s.serves 0xBB f → a % 64 = 0 → a < 2 ^ 56 → s.translate s.vd .rd a = .ok pa →
    s.readElem s.vd (8 * (a : Int)) 512 = .ok x → batchOk x.1 = true → s.readElem s.vd (8 * (kern : Int)) 512 = .ok y →
    1 ≤ n → n ≤ clusterStrands (y.1 / 2 ^ 411 % 4) →
    s.consumes e f (g.taint || x.2.1 || y.2.1) (g.poison || x.2.2 || y.2.2) →
    (s.batches.filter fun b => b.die == die).length < 16 →
    ∃ t b, exec (.drarm f) s = .next t ∧ t.batches = s.batches ++ [b] ∧ b.die = die ∧ b.vd = s.vd ∧ b.addr = g.val ∧
      b.record = BitVec.ofNat 512 x.1 ∧ b.kernel = BitVec.ofNat 512 y.1 ∧ b.spawned = false ∧ b.left = b.plan.length ∧
      b.tasks = b.plan.length ∧ s.sameMemory t ∧ t.me.pc = s.me.pc + 16 ∧ t.me.queue = [] ∧ t.me.v = s.me.v ∧ t.me.keeps s.me ∧
      ∀ c, s.phaseOf? s.myLaunch = some c → ∃ c', t.phaseOf? s.myLaunch = some c' ∧ c'.left = c.left + b.tasks)

/-! ### Launches and strands (R19 to R30, R353 to R358, R374 to R380, R393, R418, R419) -/

/-- R22, R25, R28, R29, R354, R393, R418, R419: AGING_STEP, LAUNCH_ACCEPT, CANCEL_RESOLVE and SERIAL_REEXECUTION: a slot
that passes its checks becomes a launch with its header, record and dependences, one that does not is REFUSED; either
way HEAD moves on; a cancel stops the strands of its launch, or marks its level, and has no effect on a level that has
ended. Keys of counters, what a refused launch counts, and when a re-execution runs its next task are the model's readings (log
entries 48 to 50, 53 and 54). -/
def Obligations.LaunchLevels : Prop :=
  (∀ (s : State) (lid : Nat) (l : Launch), s.launch? lid = some l → (l.state = .eligible ∨ l.state = .parked) →
    (l.aged + 1) * 2 ^ 20 ≤ s.cycleOf l.die - l.since → l.prio + l.aged < l.pcap →
    exec (.agingStep lid) s = .next (s.setLaunch { l with aged := l.aged + 1 })) ∧
  (∀ (s : State) (vd : BitVec 4) (die : BitVec 2) (queue : BitVec 4) (d : VDev) (tail : BitVec 32) (r : List (BitVec 32))
      (nhead x : Nat × Bool × Bool) (pas : List Nat),
    let q := d.queue die.toNat queue.toNat
    let l0 : Launch := {
      lid := s.nextId, vd := d.vdid, die := die.toNat, queue := queue.toNat, slot := q.head.toNat, kick := q.kickId
      header := BitVec.ofNat 512 x.1, record := BitVec.ofNat 512 (x.1 / 2 ^ 512) }
    let preds := s.launches.filter fun m => m.precedes l0
    let done := (preds.filter fun m => m.state == .done).length
    let good := recordOk l0.record && s.headerOk l0 && successorsOk l0 tail && l0.npred == preds.length
    s.vdev? vd.toNat = some d → d.queues.length = 64 → d.iface = .run → q.tails = tail :: r →
    s.readHome d.vdid .rd (8 * ((q.addr.toNat + 36 : Nat) : Int)) 32 = .ok nhead →
    (q.ntail - BitVec.ofNat 32 nhead.1).toNat + q.reserved < 2 ^ q.nlog →
    s.transBits d.vdid .wr (8 * ((q.addr.toNat + 44 : Nat) : Int)) 32 = .ok pas →
    s.readHome d.vdid .rd (8 * ((q.lring + 128 * (q.head.toNat % 2 ^ q.llog) : Nat) : Int)) 1024 = .ok x →
    ∃ t l, exec (.launchAccept vd die queue) s = .next t ∧ l ∈ t.launches ∧ l.lid = s.nextId ∧ l.header = l0.header ∧
      l.record = l0.record ∧ l.slot = q.head.toNat ∧
      (∃ d', t.vdev? d.vdid = some d' ∧ (d'.queue die.toNat queue.toNat).head = q.head + 1) ∧
      (good = false → l.state = .refused) ∧
      (good = true → (∀ c ∈ s.counters, c.cancelled = false) → (∀ m ∈ preds, m.state ≠ .refused ∧ m.state ≠ .cancelled) →
        l.dep = l0.npred - done ∧ l.state = if l0.npred - done = 0 then .eligible else .waiting)) ∧
  (∀ (s : State) (k : Nat) (c : Cancel), s.cancels.find? (fun x => x.k == k) = some c →
    let left : List Cancel := s.cancels.filter fun x => x.k != k
    let s1 : State := { s with cancels := left }
    let key2 := if c.level = .job then 0 else c.key2
    (∀ l, c.level = .launch → (s.launches.filter fun m => m.vd == c.vd && m.lid == c.key && !m.state.final) = [l] →
      s.launch? l.lid = some l → l.spliceWith = none → l.farFold = .none → l.strands ≠ [] → l.status = 0 → c.fault = none →
      exec (.cancelResolve k) s = .next
        (((s1.dropRequests l.lid).mapStrands (fun st => st.liveOf l.lid) Strand.stopped).setLaunch { l with status := 1, fcause := 0 })) ∧
    (c.level ≠ .launch → (∀ n, s.counter? c.level c.vd c.key key2 = some n → n.cancelled = true ∨ n.completed = true ∨ n.left = 0) →
      exec (.cancelResolve k) s = .next s1) ∧
    (∀ n, c.level = .graph ∨ c.level = .phase → s.counter? c.level c.vd c.key c.key2 = some n → n.cancelled = false →
      n.completed = false → n.left ≠ 0 → (∀ l ∈ s.launches, l.vd = c.vd → l.state.final = true) →
      exec (.cancelResolve k) s = .next (s1.putCounter { n with
        cancelled := true, status := if c.fault.isSome then 2 else 1 }))) ∧
  (∀ (s : State) (vd : BitVec 4) (x : Serial) (t : Nat) (r : List Nat),
    s.serials.find? (fun y => y.vd == vd.toNat) = some x → x.running = none → x.stage = .rerun → x.waiting = [] → x.tasks = t :: r →
    exec (.serialReexecution vd) s = .next { s with
      serials := s.serials.map fun y =>
        if y.vd == x.vd && y.job == x.job && y.phase == x.phase then { x with tasks := r, running := some t } else y
      launches := s.launches.map fun l => if l.lid == t then l.again (s.cycleOf l.die) else l })

/-- R20, R21, R23, R24, R26, R130, R357, R374, R375, R378: LAUNCH_PLACEMENT places every strand of the launch that the
Dispatcher chooses, with its arguments, or asks victims to stop; a strand that starts copies the entries that its kernel
binds, as they stand then; PREEMPT_SAVE parks a drained victim with its
registers; STRAND_RESUME gives it a slot again, with the registers that its context held; STRAND_FINISH ends a strand
that has halted or been cancelled, once no cancel is on its way to it. Where a strand may be placed, what a freed slot
serves, what the bits beyond a saved tag hold after a resumption, that a binding is copied as its bits stand, and when a
placed strand starts are the model's readings (log entries 55 to 57, 95, 97 and 103). -/
def Obligations.StrandLife : Prop :=
  (∀ (s : State) (die : BitVec 2) (lid : Nat) (ps : List Place) (l : Launch),
    s.choice? die.toNat = some (.place lid ps) → s.launch? lid = some l →
    ∃ t, exec (.launchPlacement die) s = .next t ∧ s.sameMemory t ∧
      (∃ l', t.launch? lid = some l' ∧ l'.state = .running ∧ l'.strands.length = ps.length) ∧
      ∀ i, (h : i < ps.length) → ∃ st ∈ t.strands, st.sid = s.nextId + 1 + i ∧ st.status = .running ∧ st.place = ps[i] ∧
        st.strand = BitVec.ofNat 10 i ∧ st.launch = BitVec.ofNat 32 lid ∧ st.nstrand = BitVec.ofNat 11 l.nstr ∧
        st.vdid = BitVec.ofNat 4 l.vd ∧ st.seed = BitVec.ofNat 64 (fld l.record 255 192) ∧ st.queue = [] ∧ st.hnd = false ∧
        st.begun = false ∧
        (l.spliceKernel = none → st.pc = BitVec.ofNat 64 (fld l.record 63 0) ∧
          (st.getG 1).val = BitVec.ofNat 64 (fld l.record 191 128) ∧ (st.getG 2).val = BitVec.ofNat 64 i ∧
          (st.getG 3).val = BitVec.ofNat 64 l.nstr ∧ ∀ n, 4 ≤ n → st.getG n = {})) ∧
  (∀ s : State,
    let l := s.myLaunch
    let u := s.beginStrand
    (s.me.begun = true → u = s) ∧
    (s.me.begun = false → u.me.begun = true ∧ s.sameMemory u ∧ u.rest = s.rest ∧ u.me.pc = s.me.pc ∧ u.me.g = s.me.g ∧ u.me.q = s.me.q ∧
      u.me.v = s.me.v ∧ u.me.m = s.me.m ∧ u.me.z = s.me.z ∧ u.me.sameSpecial s.me ∧ u.me.flags = s.me.flags ∧
      (l.spliceKernel = none → ∀ n < 64,
        ((∀ b ∈ s.bindings l.vd l.kdsc, b.1 ≠ n) → u.me.getT n = 0) ∧
        ∀ (pre post : List (Nat × Word)) (a : Word), s.bindings l.vd l.kdsc = pre ++ (n, a) :: post → (∀ b ∈ post, b.1 ≠ n) →
          (∀ x, s.readHome l.vd .rd (8 * (a.toNat : Int)) 1024 = .error x → u.me.getT n = 0) ∧
          ∀ x, s.readHome l.vd .rd (8 * (a.toNat : Int)) 1024 = .ok x →
            let t : TEntry := BitVec.ofNat 1024 x.1
            (t.ok = true → u.me.getT n = t) ∧ (t.ok = false → TEntry.valid (u.me.getT n) = false)))) ∧
  (∀ (s : State) (die : BitVec 2) (lid : Nat) (vs : List Nat), s.choice? die.toNat = some (.preempt lid vs) →
    ∃ t, exec (.launchPlacement die) s = .next t ∧ s.sameMemory t ∧
      (∀ st ∈ t.strands, vs.contains st.sid = true → st.preempt = some lid) ∧
      ((∀ st ∈ s.strands, vs.contains st.sid = true → st.preempt = none) →
        t = s.mapStrands (fun st => vs.contains st.sid) fun st => { st with preempt := some lid })) ∧
  (∀ (s : State) (sid by_ : Nat) (st : Strand), s.strands.find? (fun x => x.sid == sid) = some st → st.preempt = some by_ →
    st.resident = true → st.status ≠ .cancelled → st.mayFinish = false → st.drained = true →
    ∃ t st', exec (.preemptSave sid) s = .next t ∧ t.strands.find? (fun x => x.sid == sid) = some st' ∧
      st'.status = .parked false ∧ st'.preempt = none ∧ st'.pend = none ∧ st'.left = some st.place ∧ st'.halted = (st.status == .halted) ∧
      st'.pc = st.pc ∧ st'.v = st.v ∧ st'.keeps st ∧ st'.flags = st.flags ∧
      ((∀ w ∈ st.work, w.kind ≠ .pload) → st'.queue = st.queue)) ∧
  (∀ (s : State) (sid : Nat) (st : Strand) (l : Launch) (p : Place), s.strands.find? (fun x => x.sid == sid) = some st →
    s.launch? st.launch.toNat = some l → s.choice? l.die = some (.resume sid p) →
    ∃ t st', exec (.strandResume sid) s = .next t ∧ s.sameMemory t ∧ t.strands.find? (fun x => x.sid == sid) = some st' ∧
      st'.status = (if st.halted then .halted else .running) ∧ st'.place = p ∧ st'.left = none ∧ st'.pc = st.pc ∧
      st'.g = st.g ∧ st'.q = st.q ∧ st'.z = st.z ∧ st'.sameSpecial st ∧ st'.flags = st.flags ∧ st'.queue = st.queue ∧
      (∀ n < 64, TEntry.valid (st.getT n) = true → st'.getT n = st.getT n) ∧
      (∀ n < 8, (st'.getM n).shape = (st.getM n).shape ∧ (st'.getM n).taint = (st.getM n).taint ∧
        (n ≠ 0 → (st'.getM n).buf % 2 ^ count (st.getM n).shape = (st.getM n).buf % 2 ^ count (st.getM n).shape)) ∧
      (st.mirrors = [] → ∀ n < 32, (st'.getV n).shape = (st.getV n).shape ∧ (st'.getV n).taint = (st.getV n).taint ∧
        (st'.getV n).poison = (st.getV n).poison ∧
        let w := count (st.getV n).shape * (st.getV n).wsize
        (st'.getV n).buf % 2 ^ w = (st.getV n).buf % 2 ^ w)) ∧
  (∀ (s : State) (sid : Nat) (st : Strand) (l : Launch), s.strands.find? (fun x => x.sid == sid) = some st →
    st.mayFinish = true → (st.status = .cancelled → s.cancelComing st.launch.toNat = false) →
    s.launch? st.launch.toNat = some l → l.lid = st.launch.toNat →
    ∃ t st', exec (.strandFinish sid) s = .next t ∧ t.strands.find? (fun x => x.sid == sid) = some st' ∧
      st'.status = .finished ∧ st'.work = [] ∧ st'.queue = [] ∧ st'.v = st.v ∧ st'.keeps st ∧
      (2 ≤ l.leftCount → s.sameMemory t ∧ ∃ l', t.launch? l.lid = some l' ∧ l'.leftCount = l.leftCount - 1 ∧
        l'.fold = l.fold ^^^ st.fold ∧ l'.state = l.state))

/-! ### Translation, caches, errors, privilege (R262 to R276, R399, R400, R422, R423, R429, R430) -/

/-- R262, R263, R265, R266, R268, R270, R272, R273: a walk that finds its page fills the L2 TLB and the TLBs of the cores
that wait, and one that fails gives its fault to what waits on it; an invalidation removes the page everywhere; an access
that hits a line makes its age 0 and marks the bits that it writes; a line that arrives goes into a way of its set once it has
its tokens, for which requests wait and are never dropped (R398); a prefetch that meets an eviction is dropped; and no row of the caches changes a value. Which line or entry makes
room, that a TLB entry serves until it is invalidated, and the tokens of a fill are the model's choices (log entries 61, 68
and 125). -/
def Obligations.TranslationAndCaches : Prop :=
  (∀ (s : State) (die : BitVec 2) (cluster : BitVec 4) (w : Walk),
    s.walks.find? (fun w => w.die == die.toNat && w.cluster == cluster.toNat && w.inFlight) = some w →
    let u := s.walkReads w.vd w.va.toNat
    let left := startQueued w.die w.cluster (s.walks.erase w)
    (∀ x ∈ s.walks, x.late = true → w.covers x = false) →
    (s.walk w.vd w.va.toNat = none → exec (.walkComplete die cluster) s = .next { u.noteWalk w.vd w.va.toNat with
      walks := left ++ [{ w with inFlight := false, failed := true }] }) ∧
    (∀ l, s.walk w.vd w.va.toNat = some l →
      let e : TlbEntry := { die := w.die, cluster := w.cluster, vd := w.vd, page := w.va.toNat / 2 ^ l.sizeLog,
                            sizeLog := l.sizeLog, pa := l.base, perm := b2n l.rd + 2 * b2n l.wr + 4 * b2n l.ex }
      ∃ tlb, exec (.walkComplete die cluster) s = .next { u with walks := left, tlb := tlb } ∧ e ∈ tlb ∧
        ∀ st ∈ s.strands, st.sid ∈ w.sids → st.issues = true → st.place.die = w.die → st.place.core / 4 = w.cluster →
          { e with core := some st.place.core } ∈ tlb) ∧
    s.sameMemory u ∧ u.me = s.me ∧ u.tlb = s.tlb ∧ u.walks = s.walks) ∧
  (∀ (s : State) (va key : Nat) (acc : Access), s.me.physical = false →
    ((∃ w ∈ s.walks, w.fails s.me.sid s.me.vdid.toNat va = true) → s.translate s.me.vdid.toNat acc va key = .error cXLATE) ∧
    ((∀ w ∈ s.walks, w.failed = false) → s.tlb = [] → s.translate s.me.vdid.toNat acc va key =
      match s.walk s.me.vdid.toNat va with
      | none => .error cXLATE
      | some l => if l.permits acc then .ok (l.base + va % 2 ^ l.sizeLog) else .error cPROT)) ∧
  (∀ (s : State) (vd : BitVec 4) (va : Word), ∃ tlb walks, exec (.tlbInvalidate vd va) s = .next { s with tlb := tlb, walks := walks } ∧
    (∀ w ∈ s.walks, w.failed = false → w ∈ walks) ∧ (∀ w ∈ walks, w ∈ s.walks) ∧
    (∀ w ∈ walks, w.failed = true → w.vd = vd.toNat → w.va.toNat / 2 ^ w.sizeLog ≠ va.toNat / 2 ^ w.sizeLog) ∧
    ∀ e, e ∈ tlb ↔ e ∈ s.tlb ∧ ¬(e.vd = vd.toNat ∧ va.toNat / 2 ^ e.sizeLog = e.page)) ∧
  (∀ (p : FillReq) (s : State), ∃ t, exec (.cacheFill p) s = .next t ∧ s.sameMemory t ∧ t.me = s.me ∧
    (s.fills[p.index]? = none → t = s) ∧
    ∀ q : Fill, s.fills[p.index]? = some q →
      let rest := s.fills.eraseIdx p.index
      let hits := s.lines.any (s.holdsLine q)
      let fused := !q.level2 && s.fused.contains (q.die, q.unit / 4)
      let set := if q.level2 then q.line / 16 % 2048 else if fused then q.line / 4 % 256 else q.line % 256
      let here := s.lines.filter (s.inSet q)
      let may (w : Nat) : Bool := match s.retainedIn q with
        | some m => bit m w
        | none => !q.level2 || !bit (reservedWays (s.wayRegs q.die)) w
      let hit (c : CacheLine) : CacheLine :=
        { c with age := if (fillAge? q).isNone && q.written != 0 then c.age else 0, written := c.written ||| q.written % 2 ^ 1024 }
      (s.unpaid q = true → t = s) ∧
      (s.unpaid q = false → hits = true → t = { s with fills := rest, lines := s.lines.map fun c => if s.holdsLine q c then hit c else c }) ∧
      (s.unpaid q = false → hits = false → p.evicting = true →
        (q.prefetch = false → t = s) ∧ (q.prefetch = true → t.fills = rest ∧ t.lines = s.lines ∧
          (q.level2 = false → t.dropped = s.dropped) ∧ (q.level2 = true → ∃ n, (q.die, q.unit, n) ∈ t.dropped ∧
            n = 1 + ((s.dropped.find? fun d => d.1 == q.die && d.2.1 == q.unit).map fun d => d.2.2).getD 0))) ∧
      (s.unpaid q = false → hits = false → p.evicting = false → ∀ age w, fillAge? q = some age →
        ((List.range (if q.level2 then 16 else 8)).filter may).find? (fun w => !here.any fun c => c.way == w) = some w →
        t = { s with fills := rest, lines := {
          level2 := q.level2, die := q.die, unit := q.unit, set := set, way := w, line := q.line, age := age, vd := q.vd
          written := q.written % 2 ^ 1024 } :: s.lines })) ∧
  (∀ s : State,
    s.payDues.me = s.me ∧ s.sameMemory s.payDues ∧ s.payDues.fills = s.fills ∧ s.payDues.lines = s.lines ∧
      ∃ left : List Nat, left.length = s.dues.length ∧ (∀ p ∈ s.dues.zip left, p.2 ≤ p.1.left) ∧
        s.payDues.dues = ((s.dues.zip left).map fun p => { p.1 with left := p.2 }).filter fun d => d.left != 0) ∧
  (∀ (s t : State) (i : Instr) (w : BitVec 128), s.execWord i w = .next t →
    ∃ u, exec i s = .next u ∧ t = { u with
      lines := t.lines, fills := t.fills, dues := t.dues, dropped := t.dropped, stores := t.stores
      me := { u.me with order := t.me.order } })

/-- R275, R276, R42, R88, R422, R423, R429, R430: an uncorrectable error poisons what it covers and nothing else; a
corrected error is only counted; a core beyond its threshold, and a spare that serves one, is replaced by a spare in
reserve, or its place fenced off when none is left, and a memory unit is remapped while it has spares; PRIV goes to level 0,
and a plug-in that takes it is stopped, and its virtual device enters ERROR; a lost firmware stops every virtual device and
the Steward processors. The bits that an error leaves are free, a repair comes in phases, which spare serves, and ERROR
orders the jobs' cancels: the model's choices (log entries 69, 70 and 98). -/
def Obligations.ErrorsAndRepair : Prop :=
  (∀ (s : State) (first n : Nat), s.Inv → ∃ t, exec (.uncorrectableError (.granules first n)) s = .next t ∧ t.me = s.me ∧
    (∀ g, first ≤ g → g < first + n → g ∈ t.memPoison) ∧ t.memTaint = s.memTaint ∧
    ∀ a, (a / 32 < first ∨ first + n ≤ a / 32) → memGet t.mem a = memGet s.mem a) ∧
  (∀ (s : State) (reg row : Nat),
    (0 < reg → reg < 32 → ∃ t, exec (.uncorrectableError (.generalReg s.me.sid reg)) s = .next t ∧
      (t.me.getG reg).poison = true ∧ (∀ k, k ≠ reg → t.me.getG k = s.me.getG k) ∧ t.me.sameArrays s.me ∧ s.sameMemory t) ∧
    (reg < 32 → row < s.me.grows → ∃ t, exec (.uncorrectableError (.arrayRow s.me.sid reg row)) s = .next t ∧
      bit (t.me.getV reg).poison row = true ∧ (t.me.getV reg).shape = (s.me.getV reg).shape ∧
      (∀ k, k ≠ reg → t.me.getV k = s.me.getV k) ∧
      (∀ k, k ≠ row → bits (t.me.getV reg).buf (2048 * k + 2047) (2048 * k) = bits (s.me.getV reg).buf (2048 * k + 2047) (2048 * k) ∧
        bit (t.me.getV reg).poison k = bit (s.me.getV reg).poison k) ∧ t.me.g = s.me.g ∧ s.sameMemory t) ∧
    (reg < 16 → row < 192 → ∃ t, exec (.uncorrectableError (.tileRow s.me.sid reg row)) s = .next t ∧
      bit (t.me.getZ reg).poison row = true ∧ (∀ k, k ≠ reg → t.me.getZ k = s.me.getZ k) ∧
      (∀ k, k ≠ row → bits (t.me.getZ reg).buf (8192 * k + 8191) (8192 * k) = bits (s.me.getZ reg).buf (8192 * k + 8191) (8192 * k) ∧
        bit (t.me.getZ reg).poison k = bit (s.me.getZ reg).poison k) ∧ t.me.g = s.me.g ∧ s.sameMemory t)) ∧
  (∀ (s : State) (i : Nat), exec (.uncorrectableError (.tlbEntry i)) s = .next { s with tlb := s.tlb.eraseIdx i }) ∧
  (∀ (s : State) (die : BitVec 2) (unit : Nat), unit < 140 →
    let old := (s.unitInfo die.toNat unit).count
    ∃ units, exec (.correctedError die unit) s = .next { s with units := units } ∧
      ({ s with units := units }.unitInfo die.toNat unit).count = if old = BitVec.allOnes 32 then old else old + 1) ∧
  (∀ (s : State) (die : BitVec 2) (unit : Nat),
    let d := die.toNat
    let u := s.unitInfo d unit
    let reserve := s.reserve? d unit
    let asked (place : Nat) (t : State) : Prop := ∀ st ∈ s.strands, st.resident = true → st.place.die = d → st.place.core = place →
      st.preempt = none → st.status ≠ .cancelled → { st with preempt := some 0 } ∈ t.strands
    u.fenced = false → Config.correctionThreshold d unit u.used < u.count.toNat →
    (unit < 64 → u.spare = none →
      ∃ t, exec (.fieldRepair die unit) s = .next t ∧ (d, unit / 4) ∉ t.clusters ∧ s.sameMemory t ∧ asked unit t ∧
        (reserve = none → t.unitInfo d unit = { u with fenced := true }) ∧
        ∀ x, reserve = some x → t.unitInfo d unit = { u with spare := some x } ∧ t.serving d unit = x ∧ 64 ≤ x ∧ x < 68 ∧
          s.fenced d x = false ∧ ∀ v ∈ s.units, v.die = d → v.spare ≠ some x) ∧
    (∀ v, 64 ≤ unit → unit < 68 → s.units.find? (fun v => v.die == d && v.spare == some unit) = some v → v.unit < 64 →
      s.unitInfo d v.unit = v →
      ∃ t, exec (.fieldRepair die unit) s = .next t ∧ (d, v.unit / 4) ∉ t.clusters ∧ s.sameMemory t ∧ asked v.unit t ∧
        t.fenced d unit = true ∧ (t.serving d v.unit ≠ unit ∨ s.reserve? d v.unit = none)) ∧
    (85 ≤ unit → unit < 140 → exec (.fieldRepair die unit) s = .next (s.putUnit
      (if u.used < Config.storageSpares d unit then { u with used := u.used + 1 } else { u with fenced := true })))) ∧
  (∀ (s : State) (v : BitVec 4) (need : BitVec 2) (access : Option PluginAccess) (d : VDev), s.vdev? v.toNat = some d →
    d.pluginStopped = false →
    need.toNat < 2 ∨ (∃ a, access = some a ∧ d.pluginMay a = false) →
    ∃ t cs, exec (.priv (some v) 2 need access) s = .next t ∧ t.vdev? d.vdid = some { d with pluginStopped := true, iface := .error } ∧
      t.privs = s.privs ++ [(2, need.toNat)] ∧
      s.sameMemory t ∧ t.me = s.me ∧ t.launches = s.launches ∧ t.cancels = s.cancels ++ cs ∧
      (∀ c ∈ cs, c.level = .job ∧ c.vd = d.vdid) ∧
      (∀ c ∈ s.counters, c.vd = d.vdid → c.level = .job → c.cancelled = false → ∃ x ∈ cs, x.key = c.key) ∧
      ∀ c ∈ t.stewards.toList, c.level = 2 → c.tenant = d.vdid → c.cpu.status = .idle) ∧
  (∀ (s : State) (v : Option (BitVec 4)) (level need : BitVec 2) (access : Option PluginAccess), level ≠ 2 →
    exec (.priv v level need access) s =
      .next (if need.toNat < level.toNat then { s with privs := s.privs ++ [(level.toNat, need.toNat)] } else s)) ∧
  (∀ s : State, s.firmware = .running → (∀ l ∈ s.launches, l.state.final = true) →
    exec .firmwareLoss s = .next { s with
      vds := s.vds.map fun d => { d with iface := .error }
      counters := s.counters.map fun c => { c with cancelled := true }
      stewards := s.stewards.map fun c => { c with cpu := { c.cpu with status := .idle } }
      serials := [], firmware := .waiting, imageLen := 0 })

/-! ### Hosts, routing, the Drover (R387, R402 to R421) -/

/-- R414, R415, R416, R419, R421, R423, R387: a WRITE stores its payload untainted, a READ is answered with the bytes,
a KICK gives the Dispatcher its TAIL, and a due NOTICE is sent; a message over another security association is
discarded and counted. What is discarded is the model's reading (log entry 58). -/
def Obligations.HostMessages : Prop :=
  (∀ (m : Msg) (s : State), Msg.ok m = true → s.Inv →
    let port := m.port.toNat
    let a := Msg.argA m
    let n := m.payload.length
    let payload := packBytes m.payload
    (Msg.kind m = 1 → s.firmware = .waiting → Msg.vd m = 0 → Msg.die m = 0 → a + n ≤ 2 ^ 28 →
      ∃ t, exec (.write m) s = .next t ∧ t.holdsBytes (span a n) payload ∧ s.sameOutside t (span a n) ∧ t.outbox = s.outbox) ∧
    (∀ d, s.firmware = .running → s.assocOk (Msg.vd m) m.sender m.sa = true → s.vdev? (Msg.vd m) = some d →
      (Msg.kind m = 1 → a < 2 ^ 56 → d.guards a n = false → s.writable d.vdid [((8 * a : Nat), 8 * n, payload)] →
        ∃ t, exec (.write m) s = .next t ∧ s.storesAt t d.vdid [((8 * a : Nat), 8 * n, payload)] ∧ t.me.keeps s.me ∧
          t.me.v = s.me.v ∧ t.outbox = s.outbox ∧ t.discards = s.discards) ∧
      (∀ pas, Msg.kind m = 2 → (List.range (Msg.argB m)).mapM (fun i => s.transAt d.vdid .rd (a + i)) = .ok pas →
        ∃ h, exec (.read m) s = .next { s with outbox := s.outbox ++ [.host m.sender h (pas.map (memGet s.mem))] } ∧
          fld h 7 0 = 0x81 ∧ fld h 11 10 = Msg.die m ∧ fld h 15 12 = d.vdid % 16 ∧ fld h 63 32 = Msg.argB m ∧ fld h 127 64 = a ∧
          ∀ g, bit (fld h 255 128) g = pas.zipIdx.any fun p => (a + p.2) / 32 == a / 32 + g && s.memPoison.contains (p.1 / 32)) ∧
      (let q := d.queue (Msg.die m) (Msg.queue m)
       let tail := BitVec.ofNat 32 a
       Msg.kind m = 3 → d.iface = .run → a < 2 ^ 32 → q.en = true → 0 < (tail - q.lim).toNat → (tail - q.lim).toNat < 2 ^ 31 →
       (tail - q.head).toNat ≤ 2 ^ q.llog →
        exec (.kick m) s = .next (s.setVdev (d.setQueue (Msg.die m) (Msg.queue m) { q with
          kick := BitVec.ofNat 64 a, lim := tail, tails := q.tails ++ [tail]
          kickId := if q.tails.isEmpty then s.nextId else q.kickId })))) ∧
    (Msg.kind m = 1 ∨ Msg.kind m = 2 ∨ Msg.kind m = 3 → s.firmware = .running →
      (s.vdev? (Msg.vd m) = none ∨ s.assocOk (Msg.vd m) m.sender m.sa = false) →
      exec (if Msg.kind m = 1 then .write m else if Msg.kind m = 2 then .read m else .kick m) s = .next (s.discard port))) ∧
  (∀ (s : State) (vd : BitVec 4) (die : BitVec 2) (queue : BitVec 4) (d : VDev), s.vdev? vd.toNat = some d →
    let q := d.queue die.toNat queue.toNat
    q.unannounced ≠ 0 → (q.coal = 0 ∨ q.firstCyc + q.coal ≤ s.cycleOf die.toNat ∨ 2 ^ q.nlog ≤ 2 * q.unannounced) →
    exec (.noticeSend vd die queue) s = .next { s.setVdev (d.setQueue die.toNat queue.toNat { q with unannounced := 0 }) with
      outbox := s.outbox ++ [.host d.notice (msgHeader 0x82 die.toNat d.vdid queue.toNat 0 q.ntail.toNat) []] })

/-- R402 to R408, R409 to R411, R350: a TOKEN of the open batch is stored with its route row; a CLOSE names NTOK;
BATCH_CLOSE writes, in this order, DEMAND of every expert, for each expert its LIST of the tokens kept and KEPT, the DROP bits
and DROPL entries of the others, and LIMIT and LOAD of every expert, then NDROP, NTOK, BATCH, DLEN and KRANK, and adds 1 to BSIG; LOAD moves toward the demand by
its power of two, clamped to 32 bits, and sets LIMIT; the Drover spawns the tasks
of its oldest armed batch, and reports STAT once all have ended. Addresses that do not translate, tokens after a CLOSE
and refused tasks are the model's readings (log entries 64 to 67 and 85). -/
def Obligations.RoutingAndDrover : Prop :=
  (∀ (m : Msg) (s : State) (d : VDev) (c : RouteCtx), Msg.ok m = true → s.firmware = .running →
    s.assocOk (Msg.vd m) m.sender m.sa = true → s.vdev? (Msg.vd m) = some d → s.route? m.port.toNat d.vdid = some c →
    let t := Msg.argA m
    let id := BitVec.ofNat 128 (Msg.argB m)
    let n := c.d * c.elemBytes
    (Msg.kind m = 5 → s.Inv → c.en = true → t < c.tokmax → (c.batch = none ∨ c.batch = some id) → m.payload.length = n → c.d ≤ 8192 →
      let x := packBytes m.payload
      let z := 8 * c.elemBytes
      let xs := (List.range c.d).map fun j => decodeFloat (fparam c.tokfmt) (x / 2 ^ (z * j) % 2 ^ z)
      let h := s.unitRead d.vdid c.bkt 64
      let vec : Int × Nat × Nat := (8 * (bits h 447 384 + t * n : Nat), 8 * n, x)
      let row : Int × Nat × Nat := (8 * (bits h 511 448 + 32 * t : Nat), 256, c.routeRow xs)
      ∃ u, exec (.token m) s = .next u ∧ u.route? m.port.toNat d.vdid = some { c with batch := some id } ∧ u.me.keeps s.me ∧
        (s.writable d.vdid [vec] → ∃ w, s.storesAt w d.vdid [vec] ∧ (w.writable d.vdid [row] → w.storesAt u d.vdid [row]))) ∧
    (Msg.kind m = 6 → c.batch = some id → c.closing = none → t ≤ c.tokmax →
      exec (.close m) s = .next (s.putRoute { c with closing := some t }))) ∧
  (∀ (s : State) (vd who : Nat) (q : Int × Nat × Nat), s.Inv →
    let t := s.unitBits vd who q.1 q.2.1 q.2.2
    (s.writable vd [q] → s.storesAt t vd [q]) ∧ (¬ s.writable vd [q] → ∀ a, memGet t.mem a = memGet s.mem a) ∧
      t.me.keeps s.me ∧ t.me.v = s.me.v ∧ t.outbox = s.outbox) ∧
  (∀ (s : State) (port : BitVec 3) (vd : BitVec 4) (c : RouteCtx) (ntok : Nat) (id : BitVec 128),
    s.route? port.toNat vd.toNat = some c → c.closing = some ntok → c.batch = some id → s.Inv →
    let put (u : State) (q : Int × Nat × Nat) : State := u.unitBits c.vd (agentPort c.port) q.1 q.2.1 q.2.2
    let at_ (a : Nat) : Int := ((8 * a : Nat) : Int)
    let h := s.unitRead c.vd c.bkt 64
    let rowAt (t : Nat) : Nat := h / 2 ^ 448 % 2 ^ 64 + 32 * t
    let ranks (t e : Nat) : List Nat :=
      (List.range c.ranks).filter fun i => s.unitRead c.vd (rowAt t) 32 / 2 ^ (16 * i) % 2 ^ 16 == e
    let toks (e : Nat) : List Nat := (List.range ntok).filter fun t => !(ranks t e).isEmpty
    let entry (e : Nat) : Nat := c.bkt + 64 + 32 * e
    let bsig := fld c.record 511 448
    ∃ (t : State) (demand list drop load : Nat → State) (ndrop : Nat → Nat), exec (.batchClose port vd) s = .next t ∧
      t.route? c.port c.vd = some { c with batch := none, closing := none } ∧ t.me.keeps s.me ∧ t.me.v = s.me.v ∧
      t.outbox = s.outbox ∧ (∃ notes, demand 0 = { s with poisonedWalks := notes }) ∧ list 0 = demand c.nexp ∧
      drop 0 = list c.nexp ∧ load 0 = drop c.nexp ∧ ndrop 0 = 0 ∧
      (∀ e < c.nexp,
        let x := (list e).unitRead c.vd (entry e) 32
        let limit := x / 2 ^ 80 % 2 ^ 16
        let kept := (toks e).take limit
        let drops := ((toks e).drop limit).flatMap fun t => (ranks t e).map fun i => (t, i)
        let k := c.control ((load e).unitRead c.vd (entry e) 32 / 2 ^ 96 % 2 ^ 32) (toks e).length
        let lists : List (Int × Nat × Nat) := kept.zipIdx.map fun p => (at_ (x / 2 ^ 128 % 2 ^ 64 + 4 * p.2), 32, p.1)
        let marks : List (Int × Nat × Nat) := drops.zipIdx.flatMap fun p => [(at_ (rowAt p.1.1) + 64 + p.1.2, 1, 1),
          (at_ (h / 2 ^ 256 % 2 ^ 64 + 4 * (ndrop e + p.2)), 32, p.1.1 % 2 ^ 16 + e % 2 ^ 8 * 2 ^ 16 + p.1.2 * 2 ^ 24)]
        demand (e + 1) = put (demand e) (at_ (entry e + 4), 32, (toks e).length % 2 ^ 32) ∧
        list (e + 1) = (lists ++ [(at_ (entry e + 8), 16, kept.length)]).foldl put (list e) ∧
        drop (e + 1) = marks.foldl put (drop e) ∧ ndrop (e + 1) = ndrop e + drops.length ∧
        load (e + 1) = put (load e) (at_ (entry e + 10), 48, k.2 + k.1 * 2 ^ 16)) ∧
      let u := [(at_ (c.bkt + 16), 64, ndrop c.nexp % 2 ^ 32 + ntok * 2 ^ 32), (at_ c.bkt, 64, id.toNat % 2 ^ 64),
        (at_ (c.bkt + 8), 19, c.d + c.ranks * 2 ^ 16)].foldl put (load c.nexp)
      (bsig = 0 → t.mem = u.mem) ∧
      ∀ pa, bsig ≠ 0 → bsig % 8 = 0 → u.translate c.vd .rw bsig = .ok pa →
        t.holdsBytes (span pa 8) (memRead u.mem pa 8 + 1) ∧ u.sameOutside t (span pa 8)) ∧
  (∀ (c : RouteCtx) (load n : Nat),
    let step : Int := (((n * 2 ^ 16 : Nat) : Int) - load) / (2 ^ fld c.record 231 228 : Int)
    let new := (c.control load n).1
    (0 ≤ (load : Int) + step → (load : Int) + step < 2 ^ 32 → (new : Int) = load + step) ∧
      ((load : Int) + step < 0 → new = 0) ∧ (2 ^ 32 ≤ (load : Int) + step → new = 2 ^ 32 - 1) ∧
      (c.control load n).2 = min (fld c.record 303 288)
        ((new * (16 + fld c.record 239 232) + 2 ^ 20 - 1) / 2 ^ 20 + fld c.record 287 272)) ∧
  (∀ (s : State) (die : BitVec 2) (b : Batch), s.batches.find? (fun b => b.die == die.toNat && !b.spawned) = some b →
    ∃ t, exec (.droverSpawn die) s = .next t ∧ (∀ x ∈ t.batches, x.k = b.k → x.spawned = true) ∧
      (recordOk b.kernel = true → fld b.kernel 319 256 = 0 → (∀ c ∈ s.counters, c.cancelled = false) →
        ∃ ls, t.launches = s.launches ++ ls ∧ ls.length = b.plan.length ∧ ∀ i, (h : i < b.plan.length) →
          ∃ l ∈ ls, l.lid = s.nextId + i ∧ l.vd = b.vd ∧ l.die = b.die ∧ l.state = .eligible ∧ l.record = b.kernel ∧
            l.drover = some (b.k, b.plan[i].1, b.plan[i].2.1, b.plan[i].2.2.1, b.record.setWidth 64, b.plan[i].2.2.2))) ∧
  (∀ (s : State) (die : BitVec 2) (k : Nat) (b : Batch), s.batches.find? (fun b => b.die == die.toNat && b.k == k) = some b →
    b.spawned = true → b.left = 0 → s.Inv → b.addr.toNat % 64 = 0 →
    let u := if b.failed then s else b.combine s
    ∃ t, exec (.droverCombine die k) s = .next t ∧ t.batches = (s.batches.filter fun x => x.k != k) ∧ t.me.keeps s.me ∧
      ∀ pa, fld b.record 447 384 = 0 → u.translate b.vd .rw (b.addr.toNat + 56) = .ok pa →
        t.holdsBytes (span pa 8) (1 + 2 * b.failed.toNat + b.tasks % 2 ^ 32 * 2 ^ 32) ∧ u.sameOutside t (span pa 8))

/-! ### Windows, power, reset, stagger (R395 to R397, R423, R431 to R433) -/

/-- R396, R397, R423, R431, R432, R433: at a multiple of 1,024 cycles a Toll window has filled every bucket of its die
for the cycles that it had not gained yet, empties the lend pools and takes pending writes; power stays within SLOPE of
the window before, in windows of 1,024 cycles of die 0; clusters are enabled one at a time, 256 cycles apart; power-up returns the machine to its reset
state; Restart Stagger holds a job's next phase, the one after the last that a launch of this job has begun, on every die until
rank × T cycles have passed, and its message is not taken before the firmware runs. The pending write of a
Toll, the free number of withheld slots, the kept agenda and the phase that is held are the model's choices (log
entries 61, 71, 72 and 73). -/
def Obligations.WindowsAndPower : Prop :=
  (∀ (s : State) (die : BitVec 2),
    let d := die.toNat
    let w := s.window d
    (s.cycleOf d < w.1 + 1024 → exec (.tollWindow die) s = .next s) ∧
    (w.1 + 1024 ≤ s.cycleOf d → ∃ pools, exec (.tollWindow die) s = .next { s with
        tolls := s.tolls.map fun t =>
          if t.die != d then t
          else
            let u := if t.res = 1 then t.units else min (t.units + (w.1 + 1024 - w.2) * t.rate) (1024 * t.depth)
            match t.pending with
            | some p => { t with rate := p.1, depth := p.2, pending := none, units := min u (1024 * p.2) }
            | none => { t with units := u }
        pools := pools, windows := s.windows.setIfInBounds d (w.1 + 1024, w.1 + 1024) } ∧
      (∀ p, p.die ≠ d → (p ∈ pools ↔ p ∈ s.pools)) ∧
      ((∀ t ∈ s.tolls, t.die = d → t.res = 1 ∨ t.pending = none) → pools = s.pools.filter fun p => p.die != d))) ∧
  (∀ s : State, s.cycleOf 0 < s.slewAt + 1024 → exec .slewWindow s = .next s) ∧
  (∀ s : State, s.slewAt + 1024 ≤ s.cycleOf 0 → ∃ power withheld ballast, exec .slewWindow s = .next { s with
      power := power, slewAt := s.slewAt + 1024, withheld := withheld, ballast := ballast, free := s.free + 1 } ∧
    power ≤ s.power + s.slope.toNat ∧ s.power ≤ power + s.slope.toNat ∧ withheld ≤ 56 ∧
    (Config.windowPower s.free ≤ s.power + s.slope.toNat → withheld = 0) ∧
    (s.power ≤ Config.windowPower s.free + s.slope.toNat → ballast = 0)) ∧
  (∀ (s : State) (i : Nat), (List.range 64).find? (fun i => !s.clusters.contains (i / 16, i % 16)) = some i →
    (s.lastEnable[i / 16]?.getD 0 + 256 ≤ s.cycleOf (i / 16) → ∃ last, exec .clusterEnable s = .next { s with
        clusters := s.clusters ++ [(i / 16, i % 16)], lastEnable := last } ∧ last[i / 16]?.getD 0 = s.cycleOf (i / 16)) ∧
    (s.cycleOf (i / 16) < s.lastEnable[i / 16]?.getD 0 + 256 → exec .clusterEnable s = .next s)) ∧
  (∀ s : State, exec .powerUpReset s = .next { State.reset with agenda := s.agenda, free := s.free }) ∧
  (∀ (s : State) (vd : BitVec 4) (job : BitVec 32) (t : BitVec 16),
    (s.firmware ≠ .running → exec (.restartStagger vd job t) s = .next s) ∧
    (s.firmware = .running → ∃ holds, exec (.restartStagger vd job t) s = .next { s with holds := holds } ∧
      (∀ die < 4, ∃ h ∈ holds, h.vd = vd.toNat ∧ h.job = job.toNat ∧ h.die = die ∧ h.t = t.toNat ∧
        h.phase = s.nextPhase vd.toNat job.toNat) ∧
      ∀ h, (h.vd ≠ vd.toNat ∨ h.job ≠ job.toNat) → (h ∈ holds ↔ h ∈ s.holds))) ∧
  (∀ (s : State) (vd job : Nat),
    let n := s.nextPhase vd job
    (s.counter? .job vd job 0 = none → n = 0) ∧
    ∀ c, s.counter? .job vd job 0 = some c →
      let mine (l : Launch) : Prop := l ∈ s.launches ∧ l.vd = vd ∧ l.job = job ∧ l.queue < 16 ∧ l.placed ≠ 0 ∧ c.born ≤ l.lid
      (∀ l, mine l → l.phase < n) ∧ (n ≠ 0 → ∃ l, mine l ∧ l.phase + 1 = n)) ∧
  (∀ (s : State) (vd : BitVec 4) (job : BitVec 32) (die : BitVec 2),
    let rank := ((s.vdev? vd.toNat).map VDev.rank).getD 0
    ∃ holds, exec (.staggerExpire vd job die) s = .next { s with holds := holds } ∧
      ∀ h, h ∈ holds ↔ h ∈ s.holds ∧ ¬(h.vd = vd.toNat ∧ h.job = job.toNat ∧ h.die = die.toNat ∧
        ∃ n, s.holdFrom h = some n ∧ n + rank * h.t ≤ s.cycleOf h.die))

/-! ### Commands (R424 to R428) -/

/-- R424 to R428: what each command does where its sender, interface state and operands are right, with its ANSWER; and
the answers 1, 3 and 4 of a command in the wrong state, from a stranger, or with an unknown code. The order of the
statuses, the life of a virtual device, the answer of BOOT, the layout of the report, what a command over another security association
comes to, and the Steward processors that BOOT starts, are the model's readings (log entries 58 to 63, 98 and 99). -/
def Obligations.Commands : Prop :=
  ∀ (m : Cmd) (s : State),
    let code := m.payload.toNat % 2 ^ 16
    let tvd := m.payload.toNat / 2 ^ 16 % 16
    let arg (k : Nat) : Nat := m.payload.toNat / 2 ^ (128 + 64 * k) % 2 ^ 64
    let plain (n : Nat) : Prop := Cmd.plain m n = true
    let does (i : Instr) (u : State) (bytes : List Byte) : Prop := exec i s = .next (u.answer m 0 bytes)
    let owner := m.sender = s.owner ∧ ∀ a, s.ownerSa = some a → a = m.sa
    let assoc := s.assocOk m.vdid.toNat m.sender m.sa
    (assoc = false → s.firmware = .running ∨ s.firmware = .waiting → code = 4 → exec (.start m) s = .next (s.discard m.port.toNat)) ∧
    (s.firmware = .running → assoc = true →
      (code = 1 → owner → s.vdev? tvd = none → plain 5 → arg 0 ≤ 256 → arg 1 ≤ Config.farGiB → arg 4 < 2 ^ 36 →
        ∃ d : VDev, does (.createVd m) { s with vds := s.vds ++ [d] } [] ∧ d.vdid = tvd ∧ d.iface = .unlocked ∧ d.nearGiB = arg 0 ∧
          d.farGiB = arg 1 ∧ d.tenant.addr = BitVec.ofNat 128 (arg 2 + arg 3 * 2 ^ 64) ∧ d.tenant.job = BitVec.ofNat 24 (arg 4) ∧
          d.tenant.pid = BitVec.ofNat 12 (arg 4 / 2 ^ 24)) ∧
      (∀ d, code = 2 → owner → s.vdev? tvd = some d → (d.iface = .unlocked ∨ d.iface = .error) → s.jobsFinal d.vdid = true → plain 0 →
        ∃ u, does (.destroyVd m) u [] ∧ u.vdev? d.vdid = none ∧ u.mem = s.mem ∧ ∀ v, v ≠ d.vdid → u.vdev? v = s.vdev? v) ∧
      (code = 0x0D → owner → plain 3 → arg 2 < 2 ^ 36 → does (.transferOwnership m) { s with owner := Cmd.endpoint m 0, ownerSa := none } []) ∧
      (code = 0x0E → owner → plain 1 → 1 ≤ arg 0 → arg 0 < 2 ^ 16 → does (.setSlope m) { s with slope := BitVec.ofNat 16 (arg 0) } []) ∧
      (∀ d, s.vdev? m.vdid.toNat = some d → d.tenant = m.sender →
        (∀ (t : Nat × Bool × Bool) (qs : List Queue), code = 3 → d.iface = .unlocked → plain 4 → arg 3 < 2 ^ 36 →
          s.readHome d.vdid .rd (8 * (arg 0 : Int)) 4096 = .ok t → (List.range 64).mapM (s.readQueue d.vdid t.1) = .ok qs →
          does (.lock m) (s.setVdev { d with
            iface := .locked, notice := Cmd.endpoint m 1, qtable := BitVec.ofNat 64 (arg 0),
            queues := (qs.zip d.queues).map fun p => { p.1 with kick := p.2.kick } }) []) ∧
        (code = 4 → d.iface = .locked → plain 0 → does (.start m) (s.setVdev { d with
          iface := .run, queues := d.queues.map fun q => { q with lim := q.head, tails := [] } }) []) ∧
        (code = 5 → d.iface = .locked ∨ (d.iface = .run ∧ s.allFinal d.vdid = true) ∨ (d.iface = .error ∧ s.jobsFinal d.vdid = true) → plain 0 →
          ∃ u d', does (.unlock m) u [] ∧ u.vdev? d.vdid = some d' ∧ d'.iface = .unlocked ∧ d'.tenant = d.tenant ∧ d'.pluginStopped = false ∧
            d'.queues.map Queue.kick = d.queues.map Queue.kick ∧ u.launches = s.launches ∧ u.mem = s.mem) ∧
        (let res := arg 0 % 8
         let inst := arg 0 / 2 ^ 8 % 2 ^ 8
         let die := arg 0 / 2 ^ 16 % 4
         let rate := arg 1 % 2 ^ 16
         let here (x : Toll) : Bool := x.res == res && x.inst == inst && x.die == die
         let others := ((s.tolls.filter fun x => here x && x.vd != d.vdid).map Toll.written).foldl (· + ·) 0
         code = 6 → res ≤ 4 → inst < [64, 16, 16, 4, 2].getD res 0 → arg 0 < 2 ^ 18 → arg 0 / 8 % 32 = 0 → d.settable = true → plain 2 →
         arg 1 < 2 ^ 48 → arg 1 / 2 ^ 16 % 2 ^ 16 = 0 → others + rate ≤ s.capacityOf res die →
          ∃ own : Toll, does (.setToll m) { s with tolls :=
              { own with pending := some (rate, arg 1 / 2 ^ 32) } :: s.tolls.filter (fun x => !(here x && x.vd == d.vdid)) } [] ∧
            own.vd = d.vdid ∧ here own = true) ∧
        (let r : BitVec 256 := BitVec.ofNat 256 (arg 1 + arg 2 * 2 ^ 64 + arg 3 * 2 ^ 128 + arg 4 * 2 ^ 192)
         let n := arg 0 / 2 ^ 8
         let die := arg 0 / 2 ^ 16
         let u : State := { s with ways := (die, n % 2 ^ 8, r) :: s.ways.filter fun w => !(w.1 == die && w.2.1 == n % 2 ^ 8) }
         code = 6 → arg 0 % 2 ^ 8 = 5 → arg 0 < 2 ^ 18 → n % 2 ^ 8 < 8 → d.settable = true → plain 5 → wayOk r = true →
         ((List.range 16).filter (bit (reservedWays (u.wayRegs die)))).length ≤ 12 → does (.setWayRange m) u []) ∧
        (code = 7 → d.settable = true → plain 3 → arg 1 < 2 → arg 2 < 2 ^ 16 → does (.setFaultPolicy m) (s.setVdev { d with
          policy := BitVec.ofNat 64 (arg 0), poisonTrap := arg 1 == 1, wd := arg 2 }) []) ∧
        (∀ es : List (Nat × Bool × Bool), code = 8 → d.settable = true → plain 3 → 1 ≤ arg 1 → arg 1 ≤ 32768 → arg 2 < arg 1 →
          (List.range (arg 1)).mapM (fun r => s.readHome d.vdid .rd (8 * ((arg 0 + 32 * r : Nat) : Int)) 256) = .ok es →
          (∀ x ∈ es, x.1 / 2 ^ 164 = 0) → does (.setPeerTable m) (s.setVdev { d with
            peers := es.map fun x => BitVec.ofNat 256 x.1, rank := arg 2 }) []) ∧
        (∀ u, code = 9 → d.iface ≠ .error → plain 3 → arg 0 = 0 → arg 1 < 2 →
          s.loadRoute (2 * m.die.toNat + arg 1) d.vdid (arg 2) = (u, 0) → does (.loadRoutingContext m) u []) ∧
        (∀ x : Nat × Bool × Bool, code = 9 → d.iface ≠ .error → plain 3 → arg 0 = 1 → arg 1 = 0 →
          s.readHome d.vdid .rw (8 * (arg 2 : Int)) 512 = .ok x → bits x.1 351 260 = 0 → bits x.1 255 0 = 0 → bits x.1 511 448 % 64 = 0 →
          does (.setFaultQueue m) (s.setVdev { d with faultDesc := some (BitVec.ofNat 64 (arg 2)) }) []) ∧
        (code = 0x0A → plain 0 → does (.readCounters m) (s.noteLost d) ((s.counterValues d m.die.toNat).flatMap (bytesOf 4))) ∧
        (∀ x : Nat × Bool × Bool, code = 0x0B → plain 1 → s.readHome d.vdid .rd (8 * (arg 0 : Int)) 512 = .ok x →
          ∃ body : List Byte, does (.attestationReport m) s (body ++ Config.identitySign body) ∧
            body = Config.identityKey ++ bytesOf 64 s.measure.toNat ++ Config.repairMap ++
              ((List.range 16).map fun v => ifaceByte (s.vdev? v)) ++ bytesOf 64 x.1) ∧
        (code = 0x0C → d.iface = .run → plain 3 → 1 ≤ arg 0 → arg 0 ≤ 4 → (arg 0 = 3 ∨ arg 2 = 0) →
          ∃ c : Cancel, does (.cancelCommand m) { s with cancels := s.cancels ++ [c], nextId := s.nextId + 1 } [] ∧
            c.vd = d.vdid ∧ c.key = arg 1 ∧ c.key2 = arg 2 ∧ c.fault = none ∧
            [Level.launch, .graph, .phase, .job][arg 0 - 1]? = some c.level) ∧
        (∀ l, code = 0x10 → d.iface = .run → plain 2 → s.launch? (arg 0) = some l → l.vd = d.vdid →
          let hit (st : Strand) : Bool := st.launch.toNat == arg 0 && st.vdid.toNat == d.vdid && st.status == .parked true &&
            (arg 1 == 2 ^ 64 - 1 || st.strand.toNat == arg 1)
          arg 1 = 2 ^ 64 - 1 ∨ arg 1 < 1024 ∧ s.strands.any hit = true →
          does (.resume m) (s.mapStrands hit fun st => { st with status := .parked false }) []) ∧
        (code = 0x0F → exec (.boot m) s = .next (s.answer m 1 [])) ∧
        (code = 4 → d.iface ≠ .locked → exec (.start m) s = .next (s.answer m 1 []))) ∧
      (∀ i, i = .lock m ∧ code = 3 ∨ i = .start m ∧ code = 4 ∨ i = .unlock m ∧ code = 5 ∨ i = .setFaultPolicy m ∧ code = 7 →
        (∀ d, s.vdev? m.vdid.toNat = some d → d.tenant ≠ m.sender) → exec i s = .next (s.answer m 3 [])) ∧
      (0x10 < code → exec (.createVd m) s = .next (s.answer m 4 []))) ∧
    (s.firmware = .waiting → m.vdid = 0 → m.die = 0 → assoc = true →
      (code = 0x0F → plain 1 → 1 ≤ arg 0 → arg 0 ≤ 2 ^ 28 → s.Inv →
        let image := (List.range (arg 0)).map (memGet s.mem)
        ∃ u, does (.boot m) u [] ∧ u.owner = m.sender ∧ u.ownerSa = some m.sa ∧
          (Config.imageVerifies image = true → s.sameMemory u ∧ u.firmware = .running ∧ u.imageLen = arg 0 ∧
            u.measure = sha3of512 image ∧ ∀ c ∈ u.stewards.toList, c.level = 0 ∧ c.cpu.status = .running ∧ c.cpu.physical = true) ∧
          (Config.imageVerifies image = false → u.firmware = .waiting ∧ s.sameOutside u (List.range (arg 0)))) ∧
      (code = 4 → exec (.start m) s = .next (s.answer m 1 [])))
end

