-- ==== Sys2Proof/Laws/Lines.lean ====
section
/-! SUPPORT. What the caches can change: lines, fills, the counts of dropped fills and, for a fill, tokens. So no value depends
on a hint or on where a line is placed (R98, R266). -/

namespace Sys2Proof.Machine

theorem State.request_frame (s : State) (vd line n : Nat) (fill : Option Nat) :
    ∃ dues, s.request vd line n fill = { s with dues := dues } := ⟨_, rfl⟩

theorem State.meet_frame (s : State) (p : Fill) :
    ∃ lines fills dues, s.meet p = { s with lines := lines, fills := fills, dues := dues } := by
  unfold State.meet
  dsimp only
  repeat' split
  all_goals first
    | exact ⟨s.lines, s.fills, s.dues, rfl⟩
    | exact ⟨_, s.fills, s.dues, rfl⟩
    | exact ⟨s.lines, _, s.dues, rfl⟩
    | exact ⟨s.lines, s.fills, _, rfl⟩
    | exact ⟨s.lines, _, _, rfl⟩

theorem State.reach_frame (s : State) (core : Option (Nat × Nat)) (p : Fill) :
    ∃ lines fills dues, s.reach core p = { s with lines := lines, fills := fills, dues := dues } := by
  unfold State.reach
  dsimp only
  repeat' split
  all_goals first
    | exact s.meet_frame _
    | (obtain ⟨l, g, d, h⟩ := s.meet_frame _
       rw [h]
       obtain ⟨l2, g2, d2, h2⟩ := State.meet_frame { s with lines := l, fills := g, dues := d } _
       exact ⟨l2, g2, d2, h2⟩)

theorem State.engineRead_frame (s : State) (p : Fill) (n : Nat) :
    ∃ lines fills dues, s.engineRead p n = { s with lines := lines, fills := fills, dues := dues } := by
  unfold State.engineRead
  split
  · exact s.reach_frame none _
  · exact ⟨s.lines, s.fills, s.dues, rfl⟩

/-- Reads of an engine meet the caches, and change nothing else. -/
theorem State.engineReads_frame (p : Fill) (ns : List Nat) (s : State) :
    ∃ lines fills dues, s.engineReads p ns = { s with lines := lines, fills := fills, dues := dues } := by
  induction ns generalizing s with
  | nil => exact ⟨s.lines, s.fills, s.dues, rfl⟩
  | cons n ns ih =>
    obtain ⟨l, g, d, h⟩ := s.engineRead_frame p n
    obtain ⟨l2, g2, d2, h2⟩ := ih { s with lines := l, fills := g, dues := d }
    exact ⟨l2, g2, d2, by rw [← h2, ← h]; rfl⟩

theorem State.cached_frame (s t : State) (i : Instr) (w : BitVec 128) :
    ∃ lines fills dues dropped stores,
      s.cached t i w = { t with lines := lines, fills := fills, dues := dues, dropped := dropped, stores := stores } := ⟨_, _, _, _, _, rfl⟩

/-- A word changes the caches and the order of the strand's own accesses beyond what `exec` says of it. -/
theorem State.execWord_frame (s t : State) (i : Instr) (w : BitVec 128) (h : exec i s = .next t) :
    ∃ lines fills dues dropped stores order, s.execWord i w = .next { t with
      lines := lines, fills := fills, dues := dues, dropped := dropped, stores := stores, me := { t.me with order := order } } := by
  unfold State.execWord
  rw [h]
  exact ⟨_, _, _, _, _, _, rfl⟩

theorem State.settled_frame (s t : State) :
    ∃ lines fills dues dropped,
      s.settled (.next t) = .next { t with lines := lines, fills := fills, dues := dues, dropped := dropped, stores := [] } :=
  ⟨_, _, _, _, rfl⟩

theorem State.dropFill_frame (s : State) (die slice : Nat) : ∃ dropped, s.dropFill die slice = { s with dropped := dropped } :=
  ⟨_, rfl⟩

theorem State.placeLine_frame (s : State) (p : Fill) (age : Nat) (slot : Nat × Option CacheLine) :
    ∃ lines dues, s.placeLine p age slot = { s with lines := lines, dues := dues } := by
  unfold State.placeLine
  dsimp only
  split
  · exact ⟨_, s.dues, rfl⟩
  · unfold State.requestBack
    dsimp only
    split
    · exact ⟨_, s.dues, rfl⟩
    · exact ⟨_, _, rfl⟩

/-! ### Tokens -/

theorem State.accrue_frame (s : State) (die : Nat) :
    ∃ tolls pools windows, s.accrue die = { s with tolls := tolls, pools := pools, windows := windows } := ⟨_, _, _, rfl⟩

theorem State.spendToken_frame (s : State) (vd res die inst : Nat) :
    ∃ tolls pools, s.spendToken vd res die inst = { s with tolls := tolls, pools := pools } := ⟨_, _, rfl⟩

theorem State.payOwn_frame (s : State) (d : Due) : ∃ tolls, (s.payOwn d).1 = { s with tolls := tolls } := ⟨_, rfl⟩

theorem State.payLent_frame (s : State) (d : Due) : ∃ pools, (s.payLent d).1 = { s with pools := pools } := ⟨_, rfl⟩

/-- A fill that arrives changes no more than lines, fills, their counts, and the requests for its write-back. -/
theorem execCacheFill_frame (p : FillReq) (s : State) :
    ∃ lines fills dues dropped,
      execCacheFill p s = .next { s with lines := lines, fills := fills, dues := dues, dropped := dropped } := by
  unfold execCacheFill State.arrive
  dsimp only
  split
  · exact ⟨_, _, _, _, rfl⟩
  · rename_i q _
    repeat' split
    all_goals first
      | exact ⟨_, _, _, _, rfl⟩
      | (obtain ⟨l, g, d, h⟩ := State.meet_frame { s with fills := s.fills.eraseIdx p.index } q
         exact ⟨l, g, d, _, congrArg _ h⟩)
      | (rename_i age slot _ _
         obtain ⟨l, d, h⟩ := State.placeLine_frame { s with fills := s.fills.eraseIdx p.index } q age slot
         exact ⟨l, _, d, _, congrArg _ h⟩)

end Sys2Proof.Machine
end

