-- ==== Sys2Proof/Laws/Memory.lean ====
section
/-! SUPPORT. Memory: reading after writing, and that every operation on memory keeps its canonical form. -/

namespace Sys2Proof.Machine

/-! ### One byte -/

theorem memWfFrom_mono {lo hi : Nat} (h : lo ≤ hi) (m : List Host.Cell) (w : memWfFrom hi m = true) :
    memWfFrom lo m = true := by
  cases m with
  | nil => rfl
  | cons p r =>
    simp only [memWfFrom, Bool.and_eq_true, decide_eq_true_eq] at w ⊢
    exact ⟨⟨by omega, w.1.2⟩, w.2⟩

theorem memSet_wfFrom (m : List Host.Cell) (lo a : Nat) (b : Byte) (h : lo ≤ a) (w : memWfFrom lo m = true) :
    memWfFrom lo (memSet m a b) = true := by
  induction m generalizing lo with
  | nil =>
    unfold memSet
    split
    · rfl
    · rename_i hb
      simp [memWfFrom, h, hb]
  | cons p r ih =>
    obtain ⟨c, x⟩ := p
    simp only [memWfFrom, Bool.and_eq_true, decide_eq_true_eq] at w
    obtain ⟨⟨hc, hx⟩, hr⟩ := w
    unfold memSet
    split
    · simp only [memWfFrom, Bool.and_eq_true, decide_eq_true_eq]
      exact ⟨⟨hc, hx⟩, ih (c + 1) (by omega) hr⟩
    · split
      · split
        · exact memWfFrom_mono (by omega) r hr
        · rename_i hca hb
          subst hca
          simp [memWfFrom, h, hb, hr]
      · split
        · simp [memWfFrom, hc, hx, hr]
        · rename_i h1 h2 hb
          simp only [memWfFrom, Bool.and_eq_true, decide_eq_true_eq]
          exact ⟨⟨h, by simpa using hb⟩, ⟨by omega, hx⟩, hr⟩

theorem memSet_wf (m : List Host.Cell) (a : Nat) (b : Byte) (w : Memory.wf m = true) :
    Memory.wf (memSet m a b) = true := memSet_wfFrom m 0 a b (Nat.zero_le a) w

/-- Below the least listed address every byte reads as unlisted. -/
theorem memGet_below (m : List Host.Cell) (lo a : Nat) (w : memWfFrom lo m = true) (h : a < lo) :
    memGet m a = unlisted := by
  induction m generalizing lo with
  | nil => rfl
  | cons p r ih =>
    obtain ⟨c, x⟩ := p
    simp only [memWfFrom, Bool.and_eq_true, decide_eq_true_eq] at w
    have hne : c ≠ a := by omega
    simp only [memGet, hne, if_false]
    exact ih (c + 1) w.2 (by omega)

theorem memGet_memSet_from (m : List Host.Cell) (lo a i : Nat) (b : Byte) (w : memWfFrom lo m = true) :
    memGet (memSet m a b) i = if i = a then b else memGet m i := by
  induction m generalizing lo with
  | nil =>
    unfold memSet
    split
    · rename_i hb; simp [memGet, hb]
    · simp [memGet, eq_comm]
  | cons p r ih =>
    obtain ⟨c, x⟩ := p
    simp only [memWfFrom, Bool.and_eq_true, decide_eq_true_eq] at w
    obtain ⟨⟨hc, hx⟩, hr⟩ := w
    unfold memSet
    split
    · rename_i hlt
      simp only [memGet, ih (c + 1) hr]
      split
      · rename_i e; subst e; simp [Nat.ne_of_lt hlt]
      · rfl
    · split
      · rename_i hca
        subst hca
        split
        · rename_i hb
          by_cases e : i = c
          · subst e; simp [memGet_below r (i + 1) i hr (by omega), hb]
          · simp [memGet, e, Ne.symm e]
        · by_cases e : i = c
          · simp [memGet, e]
          · simp [memGet, e, Ne.symm e]
      · rename_i h1 h2
        have hac : a < c := by omega
        split
        · rename_i hb
          by_cases e : i = a
          · subst e
            have hne : c ≠ i := by omega
            simp [memGet, hne, memGet_below r (c + 1) i hr (by omega), hb]
          · simp [memGet, e]
        · by_cases e : i = a
          · simp [memGet, e]
          · simp [memGet, e, Ne.symm e]

/-- A read after a write gives the byte written, and a write leaves every other byte alone. -/
theorem memGet_memSet (m : List Host.Cell) (a i : Nat) (b : Byte) (w : Memory.wf m = true) :
    memGet (memSet m a b) i = if i = a then b else memGet m i := memGet_memSet_from m 0 a i b w

/-! ### Several bytes -/

theorem memWrite_wf (m : List Host.Cell) (a n x : Nat) (w : Memory.wf m = true) :
    Memory.wf (memWrite m a n x) = true := by
  induction n generalizing m a x with
  | zero => exact w
  | succ n ih => exact ih _ _ _ (memSet_wf m a _ w)

/-- The byte that a read finds after `n` bytes were written from `a`. -/
theorem memGet_memWrite (m : List Host.Cell) (a n x i : Nat) (w : Memory.wf m = true) :
    memGet (memWrite m a n x) i =
      if a ≤ i ∧ i < a + n then BitVec.ofNat 8 (x / 256 ^ (i - a)) else memGet m i := by
  induction n generalizing m a x with
  | zero =>
    have h : ¬(a ≤ i ∧ i < a + 0) := by omega
    simp only [memWrite, h, if_false]
  | succ n ih =>
    simp only [memWrite, ih _ _ _ (memSet_wf m a _ w), memGet_memSet m a i _ w]
    by_cases h1 : i = a
    · subst h1
      have h2 : ¬(i + 1 ≤ i ∧ i < i + 1 + n) := by omega
      have h3 : i ≤ i ∧ i < i + (n + 1) := by omega
      simp only [h2, h3, if_true, if_false, and_self]
      simp
    · by_cases h2 : a + 1 ≤ i ∧ i < a + 1 + n
      · have h3 : a ≤ i ∧ i < a + (n + 1) := by omega
        have e : i - a = (i - (a + 1)) + 1 := by omega
        simp only [h2, h3, if_true, and_self]
        rw [e, Nat.pow_succ, Nat.mul_comm, ← Nat.div_div_eq_div_mul]
      · have h3 : ¬(a ≤ i ∧ i < a + (n + 1)) := by omega
        simp only [h1, h2, h3, if_false]

/-! ### Granule writes (R275, R279) -/

@[simp] theorem State.putGranule_mem (s : State) (w : GWrite) :
    (s.putGranule w).mem =
      memWrite s.mem (32 * w.granule) 32 (mergeBits (granuleOf s.mem w.granule) w.mask w.data) := by
  simp only [State.putGranule]

@[simp] theorem State.writeGranule_mem (s : State) (who : Nat) (home : Bool) (w : GWrite) :
    (s.writeGranule who home w).mem = (s.putGranule w).mem := by
  simp only [State.writeGranule]

theorem State.writeGranule_wf (s : State) (who : Nat) (home : Bool) (w : GWrite) (h : Memory.wf s.mem = true) :
    Memory.wf (s.writeGranule who home w).mem = true := by
  rw [State.writeGranule_mem, State.putGranule_mem]
  exact memWrite_wf _ _ _ _ h

/-- What a granule write leaves: time, the table of virtual devices, and everything but memory, its taint and poison
bits, the snapshots and the clocks. -/
theorem State.writeGranule_frame (s : State) (who : Nat) (home : Bool) (w : GWrite) :
    (s.writeGranule who home w).vds = s.vds ∧ (s.writeGranule who home w).cyc = s.cyc ∧
      (s.writeGranule who home w).agenda = s.agenda ∧ (s.writeGranule who home w).splices = s.splices ∧
      (s.writeGranule who home w).reservations = s.reservations ∧ (s.writeGranule who home w).outbox = s.outbox := by
  simp only [State.writeGranule, State.putGranule, and_self]

theorem foldl_writeGranule_wf (ws : List GWrite) (s : State) (who : Nat) (home : Bool) (h : Memory.wf s.mem = true) :
    Memory.wf (ws.foldl (fun acc w => acc.writeGranule who home w) s).mem = true := by
  induction ws generalizing s with
  | nil => exact h
  | cons w r ih => exact ih _ (State.writeGranule_wf s who home w h)

theorem State.writeAll_wf (s : State) (who : Nat) (ws : List GWrite) (h : Memory.wf s.mem = true) :
    Memory.wf (s.writeAll who ws).mem = true := foldl_writeGranule_wf ws s who false h

/-- A byte outside the granules of a write set reads as before. -/
theorem foldl_writeGranule_get (ws : List GWrite) (s : State) (who : Nat) (home : Bool) (a : Nat)
    (h : Memory.wf s.mem = true) (ha : ∀ w ∈ ws, w.granule ≠ a / 32) :
    memGet (ws.foldl (fun acc w => acc.writeGranule who home w) s).mem a = memGet s.mem a := by
  induction ws generalizing s with
  | nil => rfl
  | cons w r ih =>
    have hw : w.granule ≠ a / 32 := ha w (by simp)
    have hn : ¬(32 * w.granule ≤ a ∧ a < 32 * w.granule + 32) := by omega
    rw [List.foldl_cons, ih _ (State.writeGranule_wf s who home w h) fun x hx => ha x (by simp [hx]),
      State.writeGranule_mem, State.putGranule_mem, memGet_memWrite _ _ _ _ _ h, if_neg hn]

/-- A home write keeps the canonical form. -/
theorem State.writeHome_wf {s t : State} {vd who : Nat} {ba : Int} {size value : Nat} {tn ps : Bool}
    (e : s.writeHome vd who ba size value tn ps = .ok t) (h : Memory.wf s.mem = true) : Memory.wf t.mem = true := by
  unfold State.writeHome at e
  cases hp : s.transBits vd .wr ba size with
  | error x => rw [hp] at e; cases e
  | ok pas =>
    rw [hp] at e
    cases e
    exact foldl_writeGranule_wf _ _ _ _ h

/-- A scalar store keeps the canonical form. -/
theorem State.storeBytes_wf {s t : State} {va size value : Nat} {tn ps : Bool}
    (e : s.storeBytes va size value tn ps = .ok t) (h : Memory.wf s.mem = true) : Memory.wf t.mem = true := by
  unfold State.storeBytes at e
  cases hp : s.planWrite s.vd [] (8 * (va : Int)) (8 * size) value tn ps with
  | error x => rw [hp] at e; cases e
  | ok ws =>
    rw [hp] at e
    cases e
    exact State.writeAll_wf _ _ _ h

/-! ### The page table of the bench (log entry 8) -/

theorem reset_mem_wf : Memory.wf State.reset.mem = true := rfl

end Sys2Proof.Machine
end

