-- ==== Sys2Proof/Laws/State.lean ====
section
/-! SUPPORT. What each register update leaves in each field of a strand and of the machine, and reading a register
after a write to it. -/

namespace Sys2Proof.Machine

/-! ### Updates of the machine touch the focused strand only -/

@[simp] theorem State.raise_eq (s : State) (x : Flags) : s.raise x = { s with me := s.me.raise x } := rfl
@[simp] theorem State.setG_eq (s : State) (n : Nat) (x : GReg) : s.setG n x = { s with me := s.me.setG n x } := rfl
@[simp] theorem State.setQ_eq (s : State) (n : Nat) (x : QReg) : s.setQ n x = { s with me := s.me.setQ n x } := rfl
@[simp] theorem State.setV_eq (s : State) (n : Nat) (x : VReg) : s.setV n x = { s with me := s.me.setV n x } := rfl
@[simp] theorem State.setM_eq (s : State) (n : Nat) (x : MReg) : s.setM n x = { s with me := s.me.setM n x } := rfl
@[simp] theorem State.setZ_eq (s : State) (n : Nat) (x : Tile) : s.setZ n x = { s with me := s.me.setZ n x } := rfl
@[simp] theorem State.setT_eq (s : State) (n : Nat) (x : BitVec 1024) : s.setT n x = { s with me := s.me.setT n x } := rfl
@[simp] theorem State.advance_eq (s : State) :
    s.advance = { s with me := { s.me with pc := s.me.pc + 16, issued := s.now } } := rfl
@[simp] theorem State.jump_eq (s : State) (a : Word) :
    s.jump a = { s with me := { s.me with pc := a, issued := s.now } } := rfl
@[simp] theorem State.retire_eq (s : State) (first : Nat) :
    s.retire first = { s with me := { s.me with
      queue := s.me.queue.tail, reissued := false, sleep := none, issued := s.now
      lastWork := (s.me.work.find? fun w => decide (first ≤ w.k)).map Work.k } } := rfl

/-! ### Raising flags -/

@[simp] theorem Strand.raise_sid (m : Strand) (x : Flags) : (m.raise x).sid = m.sid := rfl
@[simp] theorem Strand.raise_status (m : Strand) (x : Flags) : (m.raise x).status = m.status := rfl
@[simp] theorem Strand.raise_place (m : Strand) (x : Flags) : (m.raise x).place = m.place := rfl
@[simp] theorem Strand.raise_pc (m : Strand) (x : Flags) : (m.raise x).pc = m.pc := rfl
@[simp] theorem Strand.raise_g (m : Strand) (x : Flags) : (m.raise x).g = m.g := rfl
@[simp] theorem Strand.raise_q (m : Strand) (x : Flags) : (m.raise x).q = m.q := rfl
@[simp] theorem Strand.raise_v (m : Strand) (x : Flags) : (m.raise x).v = m.v := rfl
@[simp] theorem Strand.raise_m (m : Strand) (x : Flags) : (m.raise x).m = m.m := rfl
@[simp] theorem Strand.raise_z (m : Strand) (x : Flags) : (m.raise x).z = m.z := rfl
@[simp] theorem Strand.raise_t (m : Strand) (x : Flags) : (m.raise x).t = m.t := rfl
@[simp] theorem Strand.raise_rows (m : Strand) (x : Flags) : (m.raise x).rows = m.rows := rfl
@[simp] theorem Strand.raise_cols (m : Strand) (x : Flags) : (m.raise x).cols = m.cols := rfl
@[simp] theorem Strand.raise_stripb (m : Strand) (x : Flags) : (m.raise x).stripb = m.stripb := rfl
@[simp] theorem Strand.raise_seed (m : Strand) (x : Flags) : (m.raise x).seed = m.seed := rfl
@[simp] theorem Strand.raise_vcfg (m : Strand) (x : Flags) : (m.raise x).vcfg = m.vcfg := rfl
@[simp] theorem Strand.raise_amb (m : Strand) (x : Flags) : (m.raise x).amb = m.amb := rfl
@[simp] theorem Strand.raise_prog (m : Strand) (x : Flags) : (m.raise x).prog = m.prog := rfl
@[simp] theorem Strand.raise_slip (m : Strand) (x : Flags) : (m.raise x).slip = m.slip := rfl
@[simp] theorem Strand.raise_grant (m : Strand) (x : Flags) : (m.raise x).grant = m.grant := rfl
@[simp] theorem Strand.raise_scoutb (m : Strand) (x : Flags) : (m.raise x).scoutb = m.scoutb := rfl
@[simp] theorem Strand.raise_scoutm (m : Strand) (x : Flags) : (m.raise x).scoutm = m.scoutm := rfl
@[simp] theorem Strand.raise_scoutt (m : Strand) (x : Flags) : (m.raise x).scoutt = m.scoutt := rfl
@[simp] theorem Strand.raise_fthr (m : Strand) (x : Flags) : (m.raise x).fthr = m.fthr := rfl
@[simp] theorem Strand.raise_phase (m : Strand) (x : Flags) : (m.raise x).phase = m.phase := rfl
@[simp] theorem Strand.raise_vdid (m : Strand) (x : Flags) : (m.raise x).vdid = m.vdid := rfl
@[simp] theorem Strand.raise_strand (m : Strand) (x : Flags) : (m.raise x).strand = m.strand := rfl
@[simp] theorem Strand.raise_nstrand (m : Strand) (x : Flags) : (m.raise x).nstrand = m.nstrand := rfl
@[simp] theorem Strand.raise_launch (m : Strand) (x : Flags) : (m.raise x).launch = m.launch := rfl
@[simp] theorem Strand.raise_targ (m : Strand) (x : Flags) : (m.raise x).targ = m.targ := rfl
@[simp] theorem Strand.raise_trapv (m : Strand) (x : Flags) : (m.raise x).trapv = m.trapv := rfl
@[simp] theorem Strand.raise_epc (m : Strand) (x : Flags) : (m.raise x).epc = m.epc := rfl
@[simp] theorem Strand.raise_fcause (m : Strand) (x : Flags) : (m.raise x).fcause = m.fcause := rfl
@[simp] theorem Strand.raise_faddr (m : Strand) (x : Flags) : (m.raise x).faddr = m.faddr := rfl
@[simp] theorem Strand.raise_fpc (m : Strand) (x : Flags) : (m.raise x).fpc = m.fpc := rfl
@[simp] theorem Strand.raise_fkern (m : Strand) (x : Flags) : (m.raise x).fkern = m.fkern := rfl
@[simp] theorem Strand.raise_hnd (m : Strand) (x : Flags) : (m.raise x).hnd = m.hnd := rfl
@[simp] theorem Strand.raise_queue (m : Strand) (x : Flags) : (m.raise x).queue = m.queue := rfl
@[simp] theorem Strand.raise_reissued (m : Strand) (x : Flags) : (m.raise x).reissued = m.reissued := rfl
@[simp] theorem Strand.raise_image (m : Strand) (x : Flags) : (m.raise x).image = m.image := rfl
@[simp] theorem Strand.raise_pend (m : Strand) (x : Flags) : (m.raise x).pend = m.pend := rfl
@[simp] theorem Strand.raise_blocked (m : Strand) (x : Flags) : (m.raise x).blocked = m.blocked := rfl
@[simp] theorem Strand.raise_sleep (m : Strand) (x : Flags) : (m.raise x).sleep = m.sleep := rfl
@[simp] theorem Strand.raise_awaiting (m : Strand) (x : Flags) : (m.raise x).awaiting = m.awaiting := rfl
@[simp] theorem Strand.raise_mirrors (m : Strand) (x : Flags) : (m.raise x).mirrors = m.mirrors := rfl
@[simp] theorem Strand.raise_work (m : Strand) (x : Flags) : (m.raise x).work = m.work := rfl
@[simp] theorem Strand.raise_lastWork (m : Strand) (x : Flags) : (m.raise x).lastWork = m.lastWork := rfl
@[simp] theorem Strand.raise_after (m : Strand) (x : Flags) : (m.raise x).after = m.after := rfl
@[simp] theorem Strand.raise_begun (m : Strand) (x : Flags) : (m.raise x).begun = m.begun := rfl
@[simp] theorem Strand.raise_physical (m : Strand) (x : Flags) : (m.raise x).physical = m.physical := rfl
@[simp] theorem Strand.raise_issued (m : Strand) (x : Flags) : (m.raise x).issued = m.issued := rfl
@[simp] theorem Strand.raise_halted (m : Strand) (x : Flags) : (m.raise x).halted = m.halted := rfl
@[simp] theorem Strand.raise_bound (m : Strand) (x : Flags) : (m.raise x).bound = m.bound := rfl
@[simp] theorem Strand.raise_preempt (m : Strand) (x : Flags) : (m.raise x).preempt = m.preempt := rfl
@[simp] theorem Strand.raise_left (m : Strand) (x : Flags) : (m.raise x).left = m.left := rfl
@[simp] theorem Strand.raise_wseq (m : Strand) (x : Flags) : (m.raise x).wseq = m.wseq := rfl
@[simp] theorem Strand.raise_sseq (m : Strand) (x : Flags) : (m.raise x).sseq = m.sseq := rfl
@[simp] theorem Strand.raise_clock (m : Strand) (x : Flags) : (m.raise x).clock = m.clock := rfl
@[simp] theorem Strand.raise_rel (m : Strand) (x : Flags) : (m.raise x).rel = m.rel := rfl
@[simp] theorem Strand.raise_seen (m : Strand) (x : Flags) : (m.raise x).seen = m.seen := rfl
@[simp] theorem Strand.raise_stale (m : Strand) (x : Flags) : (m.raise x).stale = m.stale := rfl
@[simp] theorem Strand.raise_order (m : Strand) (x : Flags) : (m.raise x).order = m.order := rfl
@[simp] theorem Strand.raise_fold (m : Strand) (x : Flags) : (m.raise x).fold = m.fold := rfl
@[simp] theorem Strand.raise_foldTaint (m : Strand) (x : Flags) : (m.raise x).foldTaint = m.foldTaint := rfl
@[simp] theorem Strand.raise_foldPoison (m : Strand) (x : Flags) : (m.raise x).foldPoison = m.foldPoison := rfl
@[simp] theorem Strand.raise_fold2 (m : Strand) (x : Flags) : (m.raise x).fold2 = m.fold2 := rfl
@[simp] theorem Strand.raise_fold2Taint (m : Strand) (x : Flags) : (m.raise x).fold2Taint = m.fold2Taint := rfl
@[simp] theorem Strand.raise_fold2Poison (m : Strand) (x : Flags) : (m.raise x).fold2Poison = m.fold2Poison := rfl
@[simp] theorem Strand.raise_spliced (m : Strand) (x : Flags) : (m.raise x).spliced = m.spliced := rfl
@[simp] theorem Strand.raise_flags (m : Strand) (x : Flags) : (m.raise x).flags = m.flags ||| BitVec.ofNat 16 (x % 512) := rfl

/-! ### setG -/

@[simp] theorem Strand.setG_sid (k : Strand) (n : Nat) (x : GReg) : (k.setG n x).sid = k.sid := by unfold Strand.setG; split <;> rfl
@[simp] theorem Strand.setG_status (k : Strand) (n : Nat) (x : GReg) : (k.setG n x).status = k.status := by unfold Strand.setG; split <;> rfl
@[simp] theorem Strand.setG_place (k : Strand) (n : Nat) (x : GReg) : (k.setG n x).place = k.place := by unfold Strand.setG; split <;> rfl
@[simp] theorem Strand.setG_pc (k : Strand) (n : Nat) (x : GReg) : (k.setG n x).pc = k.pc := by unfold Strand.setG; split <;> rfl
@[simp] theorem Strand.setG_q (k : Strand) (n : Nat) (x : GReg) : (k.setG n x).q = k.q := by unfold Strand.setG; split <;> rfl
@[simp] theorem Strand.setG_v (k : Strand) (n : Nat) (x : GReg) : (k.setG n x).v = k.v := by unfold Strand.setG; split <;> rfl
@[simp] theorem Strand.setG_m (k : Strand) (n : Nat) (x : GReg) : (k.setG n x).m = k.m := by unfold Strand.setG; split <;> rfl
@[simp] theorem Strand.setG_z (k : Strand) (n : Nat) (x : GReg) : (k.setG n x).z = k.z := by unfold Strand.setG; split <;> rfl
@[simp] theorem Strand.setG_t (k : Strand) (n : Nat) (x : GReg) : (k.setG n x).t = k.t := by unfold Strand.setG; split <;> rfl
@[simp] theorem Strand.setG_rows (k : Strand) (n : Nat) (x : GReg) : (k.setG n x).rows = k.rows := by unfold Strand.setG; split <;> rfl
@[simp] theorem Strand.setG_cols (k : Strand) (n : Nat) (x : GReg) : (k.setG n x).cols = k.cols := by unfold Strand.setG; split <;> rfl
@[simp] theorem Strand.setG_stripb (k : Strand) (n : Nat) (x : GReg) : (k.setG n x).stripb = k.stripb := by unfold Strand.setG; split <;> rfl
@[simp] theorem Strand.setG_seed (k : Strand) (n : Nat) (x : GReg) : (k.setG n x).seed = k.seed := by unfold Strand.setG; split <;> rfl
@[simp] theorem Strand.setG_vcfg (k : Strand) (n : Nat) (x : GReg) : (k.setG n x).vcfg = k.vcfg := by unfold Strand.setG; split <;> rfl
@[simp] theorem Strand.setG_amb (k : Strand) (n : Nat) (x : GReg) : (k.setG n x).amb = k.amb := by unfold Strand.setG; split <;> rfl
@[simp] theorem Strand.setG_prog (k : Strand) (n : Nat) (x : GReg) : (k.setG n x).prog = k.prog := by unfold Strand.setG; split <;> rfl
@[simp] theorem Strand.setG_slip (k : Strand) (n : Nat) (x : GReg) : (k.setG n x).slip = k.slip := by unfold Strand.setG; split <;> rfl
@[simp] theorem Strand.setG_grant (k : Strand) (n : Nat) (x : GReg) : (k.setG n x).grant = k.grant := by unfold Strand.setG; split <;> rfl
@[simp] theorem Strand.setG_scoutb (k : Strand) (n : Nat) (x : GReg) : (k.setG n x).scoutb = k.scoutb := by unfold Strand.setG; split <;> rfl
@[simp] theorem Strand.setG_scoutm (k : Strand) (n : Nat) (x : GReg) : (k.setG n x).scoutm = k.scoutm := by unfold Strand.setG; split <;> rfl
@[simp] theorem Strand.setG_scoutt (k : Strand) (n : Nat) (x : GReg) : (k.setG n x).scoutt = k.scoutt := by unfold Strand.setG; split <;> rfl
@[simp] theorem Strand.setG_fthr (k : Strand) (n : Nat) (x : GReg) : (k.setG n x).fthr = k.fthr := by unfold Strand.setG; split <;> rfl
@[simp] theorem Strand.setG_phase (k : Strand) (n : Nat) (x : GReg) : (k.setG n x).phase = k.phase := by unfold Strand.setG; split <;> rfl
@[simp] theorem Strand.setG_vdid (k : Strand) (n : Nat) (x : GReg) : (k.setG n x).vdid = k.vdid := by unfold Strand.setG; split <;> rfl
@[simp] theorem Strand.setG_strand (k : Strand) (n : Nat) (x : GReg) : (k.setG n x).strand = k.strand := by unfold Strand.setG; split <;> rfl
@[simp] theorem Strand.setG_nstrand (k : Strand) (n : Nat) (x : GReg) : (k.setG n x).nstrand = k.nstrand := by unfold Strand.setG; split <;> rfl
@[simp] theorem Strand.setG_launch (k : Strand) (n : Nat) (x : GReg) : (k.setG n x).launch = k.launch := by unfold Strand.setG; split <;> rfl
@[simp] theorem Strand.setG_targ (k : Strand) (n : Nat) (x : GReg) : (k.setG n x).targ = k.targ := by unfold Strand.setG; split <;> rfl
@[simp] theorem Strand.setG_trapv (k : Strand) (n : Nat) (x : GReg) : (k.setG n x).trapv = k.trapv := by unfold Strand.setG; split <;> rfl
@[simp] theorem Strand.setG_epc (k : Strand) (n : Nat) (x : GReg) : (k.setG n x).epc = k.epc := by unfold Strand.setG; split <;> rfl
@[simp] theorem Strand.setG_fcause (k : Strand) (n : Nat) (x : GReg) : (k.setG n x).fcause = k.fcause := by unfold Strand.setG; split <;> rfl
@[simp] theorem Strand.setG_faddr (k : Strand) (n : Nat) (x : GReg) : (k.setG n x).faddr = k.faddr := by unfold Strand.setG; split <;> rfl
@[simp] theorem Strand.setG_fpc (k : Strand) (n : Nat) (x : GReg) : (k.setG n x).fpc = k.fpc := by unfold Strand.setG; split <;> rfl
@[simp] theorem Strand.setG_fkern (k : Strand) (n : Nat) (x : GReg) : (k.setG n x).fkern = k.fkern := by unfold Strand.setG; split <;> rfl
@[simp] theorem Strand.setG_hnd (k : Strand) (n : Nat) (x : GReg) : (k.setG n x).hnd = k.hnd := by unfold Strand.setG; split <;> rfl
@[simp] theorem Strand.setG_queue (k : Strand) (n : Nat) (x : GReg) : (k.setG n x).queue = k.queue := by unfold Strand.setG; split <;> rfl
@[simp] theorem Strand.setG_reissued (k : Strand) (n : Nat) (x : GReg) : (k.setG n x).reissued = k.reissued := by unfold Strand.setG; split <;> rfl
@[simp] theorem Strand.setG_image (k : Strand) (n : Nat) (x : GReg) : (k.setG n x).image = k.image := by unfold Strand.setG; split <;> rfl
@[simp] theorem Strand.setG_pend (k : Strand) (n : Nat) (x : GReg) : (k.setG n x).pend = k.pend := by unfold Strand.setG; split <;> rfl
@[simp] theorem Strand.setG_blocked (k : Strand) (n : Nat) (x : GReg) : (k.setG n x).blocked = k.blocked := by unfold Strand.setG; split <;> rfl
@[simp] theorem Strand.setG_sleep (k : Strand) (n : Nat) (x : GReg) : (k.setG n x).sleep = k.sleep := by unfold Strand.setG; split <;> rfl
@[simp] theorem Strand.setG_awaiting (k : Strand) (n : Nat) (x : GReg) : (k.setG n x).awaiting = k.awaiting := by unfold Strand.setG; split <;> rfl
@[simp] theorem Strand.setG_mirrors (k : Strand) (n : Nat) (x : GReg) : (k.setG n x).mirrors = k.mirrors := by unfold Strand.setG; split <;> rfl
@[simp] theorem Strand.setG_work (k : Strand) (n : Nat) (x : GReg) : (k.setG n x).work = k.work := by unfold Strand.setG; split <;> rfl
@[simp] theorem Strand.setG_lastWork (k : Strand) (n : Nat) (x : GReg) : (k.setG n x).lastWork = k.lastWork := by unfold Strand.setG; split <;> rfl
@[simp] theorem Strand.setG_after (k : Strand) (n : Nat) (x : GReg) : (k.setG n x).after = k.after := by unfold Strand.setG; split <;> rfl
@[simp] theorem Strand.setG_begun (k : Strand) (n : Nat) (x : GReg) : (k.setG n x).begun = k.begun := by unfold Strand.setG; split <;> rfl
@[simp] theorem Strand.setG_physical (k : Strand) (n : Nat) (x : GReg) : (k.setG n x).physical = k.physical := by unfold Strand.setG; split <;> rfl
@[simp] theorem Strand.setG_issued (k : Strand) (n : Nat) (x : GReg) : (k.setG n x).issued = k.issued := by unfold Strand.setG; split <;> rfl
@[simp] theorem Strand.setG_halted (k : Strand) (n : Nat) (x : GReg) : (k.setG n x).halted = k.halted := by unfold Strand.setG; split <;> rfl
@[simp] theorem Strand.setG_bound (k : Strand) (n : Nat) (x : GReg) : (k.setG n x).bound = k.bound := by unfold Strand.setG; split <;> rfl
@[simp] theorem Strand.setG_preempt (k : Strand) (n : Nat) (x : GReg) : (k.setG n x).preempt = k.preempt := by unfold Strand.setG; split <;> rfl
@[simp] theorem Strand.setG_left (k : Strand) (n : Nat) (x : GReg) : (k.setG n x).left = k.left := by unfold Strand.setG; split <;> rfl
@[simp] theorem Strand.setG_wseq (k : Strand) (n : Nat) (x : GReg) : (k.setG n x).wseq = k.wseq := by unfold Strand.setG; split <;> rfl
@[simp] theorem Strand.setG_sseq (k : Strand) (n : Nat) (x : GReg) : (k.setG n x).sseq = k.sseq := by unfold Strand.setG; split <;> rfl
@[simp] theorem Strand.setG_clock (k : Strand) (n : Nat) (x : GReg) : (k.setG n x).clock = k.clock := by unfold Strand.setG; split <;> rfl
@[simp] theorem Strand.setG_rel (k : Strand) (n : Nat) (x : GReg) : (k.setG n x).rel = k.rel := by unfold Strand.setG; split <;> rfl
@[simp] theorem Strand.setG_seen (k : Strand) (n : Nat) (x : GReg) : (k.setG n x).seen = k.seen := by unfold Strand.setG; split <;> rfl
@[simp] theorem Strand.setG_stale (k : Strand) (n : Nat) (x : GReg) : (k.setG n x).stale = k.stale := by unfold Strand.setG; split <;> rfl
@[simp] theorem Strand.setG_order (k : Strand) (n : Nat) (x : GReg) : (k.setG n x).order = k.order := by unfold Strand.setG; split <;> rfl
@[simp] theorem Strand.setG_fold (k : Strand) (n : Nat) (x : GReg) : (k.setG n x).fold = k.fold := by unfold Strand.setG; split <;> rfl
@[simp] theorem Strand.setG_foldTaint (k : Strand) (n : Nat) (x : GReg) : (k.setG n x).foldTaint = k.foldTaint := by unfold Strand.setG; split <;> rfl
@[simp] theorem Strand.setG_foldPoison (k : Strand) (n : Nat) (x : GReg) : (k.setG n x).foldPoison = k.foldPoison := by unfold Strand.setG; split <;> rfl
@[simp] theorem Strand.setG_fold2 (k : Strand) (n : Nat) (x : GReg) : (k.setG n x).fold2 = k.fold2 := by unfold Strand.setG; split <;> rfl
@[simp] theorem Strand.setG_fold2Taint (k : Strand) (n : Nat) (x : GReg) : (k.setG n x).fold2Taint = k.fold2Taint := by unfold Strand.setG; split <;> rfl
@[simp] theorem Strand.setG_fold2Poison (k : Strand) (n : Nat) (x : GReg) : (k.setG n x).fold2Poison = k.fold2Poison := by unfold Strand.setG; split <;> rfl
@[simp] theorem Strand.setG_spliced (k : Strand) (n : Nat) (x : GReg) : (k.setG n x).spliced = k.spliced := by unfold Strand.setG; split <;> rfl

/-! ### setQ -/

@[simp] theorem Strand.setQ_sid (k : Strand) (n : Nat) (x : QReg) : (k.setQ n x).sid = k.sid := by unfold Strand.setQ; split <;> rfl
@[simp] theorem Strand.setQ_status (k : Strand) (n : Nat) (x : QReg) : (k.setQ n x).status = k.status := by unfold Strand.setQ; split <;> rfl
@[simp] theorem Strand.setQ_place (k : Strand) (n : Nat) (x : QReg) : (k.setQ n x).place = k.place := by unfold Strand.setQ; split <;> rfl
@[simp] theorem Strand.setQ_pc (k : Strand) (n : Nat) (x : QReg) : (k.setQ n x).pc = k.pc := by unfold Strand.setQ; split <;> rfl
@[simp] theorem Strand.setQ_g (k : Strand) (n : Nat) (x : QReg) : (k.setQ n x).g = k.g := by unfold Strand.setQ; split <;> rfl
@[simp] theorem Strand.setQ_v (k : Strand) (n : Nat) (x : QReg) : (k.setQ n x).v = k.v := by unfold Strand.setQ; split <;> rfl
@[simp] theorem Strand.setQ_m (k : Strand) (n : Nat) (x : QReg) : (k.setQ n x).m = k.m := by unfold Strand.setQ; split <;> rfl
@[simp] theorem Strand.setQ_z (k : Strand) (n : Nat) (x : QReg) : (k.setQ n x).z = k.z := by unfold Strand.setQ; split <;> rfl
@[simp] theorem Strand.setQ_t (k : Strand) (n : Nat) (x : QReg) : (k.setQ n x).t = k.t := by unfold Strand.setQ; split <;> rfl
@[simp] theorem Strand.setQ_rows (k : Strand) (n : Nat) (x : QReg) : (k.setQ n x).rows = k.rows := by unfold Strand.setQ; split <;> rfl
@[simp] theorem Strand.setQ_cols (k : Strand) (n : Nat) (x : QReg) : (k.setQ n x).cols = k.cols := by unfold Strand.setQ; split <;> rfl
@[simp] theorem Strand.setQ_stripb (k : Strand) (n : Nat) (x : QReg) : (k.setQ n x).stripb = k.stripb := by unfold Strand.setQ; split <;> rfl
@[simp] theorem Strand.setQ_seed (k : Strand) (n : Nat) (x : QReg) : (k.setQ n x).seed = k.seed := by unfold Strand.setQ; split <;> rfl
@[simp] theorem Strand.setQ_vcfg (k : Strand) (n : Nat) (x : QReg) : (k.setQ n x).vcfg = k.vcfg := by unfold Strand.setQ; split <;> rfl
@[simp] theorem Strand.setQ_amb (k : Strand) (n : Nat) (x : QReg) : (k.setQ n x).amb = k.amb := by unfold Strand.setQ; split <;> rfl
@[simp] theorem Strand.setQ_prog (k : Strand) (n : Nat) (x : QReg) : (k.setQ n x).prog = k.prog := by unfold Strand.setQ; split <;> rfl
@[simp] theorem Strand.setQ_slip (k : Strand) (n : Nat) (x : QReg) : (k.setQ n x).slip = k.slip := by unfold Strand.setQ; split <;> rfl
@[simp] theorem Strand.setQ_grant (k : Strand) (n : Nat) (x : QReg) : (k.setQ n x).grant = k.grant := by unfold Strand.setQ; split <;> rfl
@[simp] theorem Strand.setQ_scoutb (k : Strand) (n : Nat) (x : QReg) : (k.setQ n x).scoutb = k.scoutb := by unfold Strand.setQ; split <;> rfl
@[simp] theorem Strand.setQ_scoutm (k : Strand) (n : Nat) (x : QReg) : (k.setQ n x).scoutm = k.scoutm := by unfold Strand.setQ; split <;> rfl
@[simp] theorem Strand.setQ_scoutt (k : Strand) (n : Nat) (x : QReg) : (k.setQ n x).scoutt = k.scoutt := by unfold Strand.setQ; split <;> rfl
@[simp] theorem Strand.setQ_fthr (k : Strand) (n : Nat) (x : QReg) : (k.setQ n x).fthr = k.fthr := by unfold Strand.setQ; split <;> rfl
@[simp] theorem Strand.setQ_phase (k : Strand) (n : Nat) (x : QReg) : (k.setQ n x).phase = k.phase := by unfold Strand.setQ; split <;> rfl
@[simp] theorem Strand.setQ_vdid (k : Strand) (n : Nat) (x : QReg) : (k.setQ n x).vdid = k.vdid := by unfold Strand.setQ; split <;> rfl
@[simp] theorem Strand.setQ_strand (k : Strand) (n : Nat) (x : QReg) : (k.setQ n x).strand = k.strand := by unfold Strand.setQ; split <;> rfl
@[simp] theorem Strand.setQ_nstrand (k : Strand) (n : Nat) (x : QReg) : (k.setQ n x).nstrand = k.nstrand := by unfold Strand.setQ; split <;> rfl
@[simp] theorem Strand.setQ_launch (k : Strand) (n : Nat) (x : QReg) : (k.setQ n x).launch = k.launch := by unfold Strand.setQ; split <;> rfl
@[simp] theorem Strand.setQ_targ (k : Strand) (n : Nat) (x : QReg) : (k.setQ n x).targ = k.targ := by unfold Strand.setQ; split <;> rfl
@[simp] theorem Strand.setQ_trapv (k : Strand) (n : Nat) (x : QReg) : (k.setQ n x).trapv = k.trapv := by unfold Strand.setQ; split <;> rfl
@[simp] theorem Strand.setQ_epc (k : Strand) (n : Nat) (x : QReg) : (k.setQ n x).epc = k.epc := by unfold Strand.setQ; split <;> rfl
@[simp] theorem Strand.setQ_fcause (k : Strand) (n : Nat) (x : QReg) : (k.setQ n x).fcause = k.fcause := by unfold Strand.setQ; split <;> rfl
@[simp] theorem Strand.setQ_faddr (k : Strand) (n : Nat) (x : QReg) : (k.setQ n x).faddr = k.faddr := by unfold Strand.setQ; split <;> rfl
@[simp] theorem Strand.setQ_fpc (k : Strand) (n : Nat) (x : QReg) : (k.setQ n x).fpc = k.fpc := by unfold Strand.setQ; split <;> rfl
@[simp] theorem Strand.setQ_fkern (k : Strand) (n : Nat) (x : QReg) : (k.setQ n x).fkern = k.fkern := by unfold Strand.setQ; split <;> rfl
@[simp] theorem Strand.setQ_hnd (k : Strand) (n : Nat) (x : QReg) : (k.setQ n x).hnd = k.hnd := by unfold Strand.setQ; split <;> rfl
@[simp] theorem Strand.setQ_queue (k : Strand) (n : Nat) (x : QReg) : (k.setQ n x).queue = k.queue := by unfold Strand.setQ; split <;> rfl
@[simp] theorem Strand.setQ_reissued (k : Strand) (n : Nat) (x : QReg) : (k.setQ n x).reissued = k.reissued := by unfold Strand.setQ; split <;> rfl
@[simp] theorem Strand.setQ_image (k : Strand) (n : Nat) (x : QReg) : (k.setQ n x).image = k.image := by unfold Strand.setQ; split <;> rfl
@[simp] theorem Strand.setQ_pend (k : Strand) (n : Nat) (x : QReg) : (k.setQ n x).pend = k.pend := by unfold Strand.setQ; split <;> rfl
@[simp] theorem Strand.setQ_blocked (k : Strand) (n : Nat) (x : QReg) : (k.setQ n x).blocked = k.blocked := by unfold Strand.setQ; split <;> rfl
@[simp] theorem Strand.setQ_sleep (k : Strand) (n : Nat) (x : QReg) : (k.setQ n x).sleep = k.sleep := by unfold Strand.setQ; split <;> rfl
@[simp] theorem Strand.setQ_awaiting (k : Strand) (n : Nat) (x : QReg) : (k.setQ n x).awaiting = k.awaiting := by unfold Strand.setQ; split <;> rfl
@[simp] theorem Strand.setQ_mirrors (k : Strand) (n : Nat) (x : QReg) : (k.setQ n x).mirrors = k.mirrors := by unfold Strand.setQ; split <;> rfl
@[simp] theorem Strand.setQ_work (k : Strand) (n : Nat) (x : QReg) : (k.setQ n x).work = k.work := by unfold Strand.setQ; split <;> rfl
@[simp] theorem Strand.setQ_lastWork (k : Strand) (n : Nat) (x : QReg) : (k.setQ n x).lastWork = k.lastWork := by unfold Strand.setQ; split <;> rfl
@[simp] theorem Strand.setQ_after (k : Strand) (n : Nat) (x : QReg) : (k.setQ n x).after = k.after := by unfold Strand.setQ; split <;> rfl
@[simp] theorem Strand.setQ_begun (k : Strand) (n : Nat) (x : QReg) : (k.setQ n x).begun = k.begun := by unfold Strand.setQ; split <;> rfl
@[simp] theorem Strand.setQ_physical (k : Strand) (n : Nat) (x : QReg) : (k.setQ n x).physical = k.physical := by unfold Strand.setQ; split <;> rfl
@[simp] theorem Strand.setQ_issued (k : Strand) (n : Nat) (x : QReg) : (k.setQ n x).issued = k.issued := by unfold Strand.setQ; split <;> rfl
@[simp] theorem Strand.setQ_halted (k : Strand) (n : Nat) (x : QReg) : (k.setQ n x).halted = k.halted := by unfold Strand.setQ; split <;> rfl
@[simp] theorem Strand.setQ_bound (k : Strand) (n : Nat) (x : QReg) : (k.setQ n x).bound = k.bound := by unfold Strand.setQ; split <;> rfl
@[simp] theorem Strand.setQ_preempt (k : Strand) (n : Nat) (x : QReg) : (k.setQ n x).preempt = k.preempt := by unfold Strand.setQ; split <;> rfl
@[simp] theorem Strand.setQ_left (k : Strand) (n : Nat) (x : QReg) : (k.setQ n x).left = k.left := by unfold Strand.setQ; split <;> rfl
@[simp] theorem Strand.setQ_wseq (k : Strand) (n : Nat) (x : QReg) : (k.setQ n x).wseq = k.wseq := by unfold Strand.setQ; split <;> rfl
@[simp] theorem Strand.setQ_sseq (k : Strand) (n : Nat) (x : QReg) : (k.setQ n x).sseq = k.sseq := by unfold Strand.setQ; split <;> rfl
@[simp] theorem Strand.setQ_clock (k : Strand) (n : Nat) (x : QReg) : (k.setQ n x).clock = k.clock := by unfold Strand.setQ; split <;> rfl
@[simp] theorem Strand.setQ_rel (k : Strand) (n : Nat) (x : QReg) : (k.setQ n x).rel = k.rel := by unfold Strand.setQ; split <;> rfl
@[simp] theorem Strand.setQ_seen (k : Strand) (n : Nat) (x : QReg) : (k.setQ n x).seen = k.seen := by unfold Strand.setQ; split <;> rfl
@[simp] theorem Strand.setQ_stale (k : Strand) (n : Nat) (x : QReg) : (k.setQ n x).stale = k.stale := by unfold Strand.setQ; split <;> rfl
@[simp] theorem Strand.setQ_order (k : Strand) (n : Nat) (x : QReg) : (k.setQ n x).order = k.order := by unfold Strand.setQ; split <;> rfl
@[simp] theorem Strand.setQ_fold (k : Strand) (n : Nat) (x : QReg) : (k.setQ n x).fold = k.fold := by unfold Strand.setQ; split <;> rfl
@[simp] theorem Strand.setQ_foldTaint (k : Strand) (n : Nat) (x : QReg) : (k.setQ n x).foldTaint = k.foldTaint := by unfold Strand.setQ; split <;> rfl
@[simp] theorem Strand.setQ_foldPoison (k : Strand) (n : Nat) (x : QReg) : (k.setQ n x).foldPoison = k.foldPoison := by unfold Strand.setQ; split <;> rfl
@[simp] theorem Strand.setQ_fold2 (k : Strand) (n : Nat) (x : QReg) : (k.setQ n x).fold2 = k.fold2 := by unfold Strand.setQ; split <;> rfl
@[simp] theorem Strand.setQ_fold2Taint (k : Strand) (n : Nat) (x : QReg) : (k.setQ n x).fold2Taint = k.fold2Taint := by unfold Strand.setQ; split <;> rfl
@[simp] theorem Strand.setQ_fold2Poison (k : Strand) (n : Nat) (x : QReg) : (k.setQ n x).fold2Poison = k.fold2Poison := by unfold Strand.setQ; split <;> rfl
@[simp] theorem Strand.setQ_spliced (k : Strand) (n : Nat) (x : QReg) : (k.setQ n x).spliced = k.spliced := by unfold Strand.setQ; split <;> rfl

/-! ### setV -/

@[simp] theorem Strand.setV_sid (k : Strand) (n : Nat) (x : VReg) : (k.setV n x).sid = k.sid := rfl
@[simp] theorem Strand.setV_status (k : Strand) (n : Nat) (x : VReg) : (k.setV n x).status = k.status := rfl
@[simp] theorem Strand.setV_place (k : Strand) (n : Nat) (x : VReg) : (k.setV n x).place = k.place := rfl
@[simp] theorem Strand.setV_pc (k : Strand) (n : Nat) (x : VReg) : (k.setV n x).pc = k.pc := rfl
@[simp] theorem Strand.setV_g (k : Strand) (n : Nat) (x : VReg) : (k.setV n x).g = k.g := rfl
@[simp] theorem Strand.setV_q (k : Strand) (n : Nat) (x : VReg) : (k.setV n x).q = k.q := rfl
@[simp] theorem Strand.setV_m (k : Strand) (n : Nat) (x : VReg) : (k.setV n x).m = k.m := rfl
@[simp] theorem Strand.setV_z (k : Strand) (n : Nat) (x : VReg) : (k.setV n x).z = k.z := rfl
@[simp] theorem Strand.setV_t (k : Strand) (n : Nat) (x : VReg) : (k.setV n x).t = k.t := rfl
@[simp] theorem Strand.setV_rows (k : Strand) (n : Nat) (x : VReg) : (k.setV n x).rows = k.rows := rfl
@[simp] theorem Strand.setV_cols (k : Strand) (n : Nat) (x : VReg) : (k.setV n x).cols = k.cols := rfl
@[simp] theorem Strand.setV_stripb (k : Strand) (n : Nat) (x : VReg) : (k.setV n x).stripb = k.stripb := rfl
@[simp] theorem Strand.setV_seed (k : Strand) (n : Nat) (x : VReg) : (k.setV n x).seed = k.seed := rfl
@[simp] theorem Strand.setV_vcfg (k : Strand) (n : Nat) (x : VReg) : (k.setV n x).vcfg = k.vcfg := rfl
@[simp] theorem Strand.setV_amb (k : Strand) (n : Nat) (x : VReg) : (k.setV n x).amb = k.amb := rfl
@[simp] theorem Strand.setV_prog (k : Strand) (n : Nat) (x : VReg) : (k.setV n x).prog = k.prog := rfl
@[simp] theorem Strand.setV_slip (k : Strand) (n : Nat) (x : VReg) : (k.setV n x).slip = k.slip := rfl
@[simp] theorem Strand.setV_grant (k : Strand) (n : Nat) (x : VReg) : (k.setV n x).grant = k.grant := rfl
@[simp] theorem Strand.setV_scoutb (k : Strand) (n : Nat) (x : VReg) : (k.setV n x).scoutb = k.scoutb := rfl
@[simp] theorem Strand.setV_scoutm (k : Strand) (n : Nat) (x : VReg) : (k.setV n x).scoutm = k.scoutm := rfl
@[simp] theorem Strand.setV_scoutt (k : Strand) (n : Nat) (x : VReg) : (k.setV n x).scoutt = k.scoutt := rfl
@[simp] theorem Strand.setV_fthr (k : Strand) (n : Nat) (x : VReg) : (k.setV n x).fthr = k.fthr := rfl
@[simp] theorem Strand.setV_phase (k : Strand) (n : Nat) (x : VReg) : (k.setV n x).phase = k.phase := rfl
@[simp] theorem Strand.setV_vdid (k : Strand) (n : Nat) (x : VReg) : (k.setV n x).vdid = k.vdid := rfl
@[simp] theorem Strand.setV_strand (k : Strand) (n : Nat) (x : VReg) : (k.setV n x).strand = k.strand := rfl
@[simp] theorem Strand.setV_nstrand (k : Strand) (n : Nat) (x : VReg) : (k.setV n x).nstrand = k.nstrand := rfl
@[simp] theorem Strand.setV_launch (k : Strand) (n : Nat) (x : VReg) : (k.setV n x).launch = k.launch := rfl
@[simp] theorem Strand.setV_targ (k : Strand) (n : Nat) (x : VReg) : (k.setV n x).targ = k.targ := rfl
@[simp] theorem Strand.setV_trapv (k : Strand) (n : Nat) (x : VReg) : (k.setV n x).trapv = k.trapv := rfl
@[simp] theorem Strand.setV_epc (k : Strand) (n : Nat) (x : VReg) : (k.setV n x).epc = k.epc := rfl
@[simp] theorem Strand.setV_fcause (k : Strand) (n : Nat) (x : VReg) : (k.setV n x).fcause = k.fcause := rfl
@[simp] theorem Strand.setV_faddr (k : Strand) (n : Nat) (x : VReg) : (k.setV n x).faddr = k.faddr := rfl
@[simp] theorem Strand.setV_fpc (k : Strand) (n : Nat) (x : VReg) : (k.setV n x).fpc = k.fpc := rfl
@[simp] theorem Strand.setV_fkern (k : Strand) (n : Nat) (x : VReg) : (k.setV n x).fkern = k.fkern := rfl
@[simp] theorem Strand.setV_hnd (k : Strand) (n : Nat) (x : VReg) : (k.setV n x).hnd = k.hnd := rfl
@[simp] theorem Strand.setV_queue (k : Strand) (n : Nat) (x : VReg) : (k.setV n x).queue = k.queue := rfl
@[simp] theorem Strand.setV_reissued (k : Strand) (n : Nat) (x : VReg) : (k.setV n x).reissued = k.reissued := rfl
@[simp] theorem Strand.setV_image (k : Strand) (n : Nat) (x : VReg) : (k.setV n x).image = k.image := rfl
@[simp] theorem Strand.setV_pend (k : Strand) (n : Nat) (x : VReg) : (k.setV n x).pend = k.pend := rfl
@[simp] theorem Strand.setV_blocked (k : Strand) (n : Nat) (x : VReg) : (k.setV n x).blocked = k.blocked := rfl
@[simp] theorem Strand.setV_sleep (k : Strand) (n : Nat) (x : VReg) : (k.setV n x).sleep = k.sleep := rfl
@[simp] theorem Strand.setV_awaiting (k : Strand) (n : Nat) (x : VReg) : (k.setV n x).awaiting = k.awaiting := rfl
@[simp] theorem Strand.setV_mirrors (k : Strand) (n : Nat) (x : VReg) : (k.setV n x).mirrors = k.mirrors := rfl
@[simp] theorem Strand.setV_work (k : Strand) (n : Nat) (x : VReg) : (k.setV n x).work = k.work := rfl
@[simp] theorem Strand.setV_lastWork (k : Strand) (n : Nat) (x : VReg) : (k.setV n x).lastWork = k.lastWork := rfl
@[simp] theorem Strand.setV_after (k : Strand) (n : Nat) (x : VReg) : (k.setV n x).after = k.after := rfl
@[simp] theorem Strand.setV_begun (k : Strand) (n : Nat) (x : VReg) : (k.setV n x).begun = k.begun := rfl
@[simp] theorem Strand.setV_physical (k : Strand) (n : Nat) (x : VReg) : (k.setV n x).physical = k.physical := rfl
@[simp] theorem Strand.setV_issued (k : Strand) (n : Nat) (x : VReg) : (k.setV n x).issued = k.issued := rfl
@[simp] theorem Strand.setV_halted (k : Strand) (n : Nat) (x : VReg) : (k.setV n x).halted = k.halted := rfl
@[simp] theorem Strand.setV_bound (k : Strand) (n : Nat) (x : VReg) : (k.setV n x).bound = k.bound := rfl
@[simp] theorem Strand.setV_preempt (k : Strand) (n : Nat) (x : VReg) : (k.setV n x).preempt = k.preempt := rfl
@[simp] theorem Strand.setV_left (k : Strand) (n : Nat) (x : VReg) : (k.setV n x).left = k.left := rfl
@[simp] theorem Strand.setV_wseq (k : Strand) (n : Nat) (x : VReg) : (k.setV n x).wseq = k.wseq := rfl
@[simp] theorem Strand.setV_sseq (k : Strand) (n : Nat) (x : VReg) : (k.setV n x).sseq = k.sseq := rfl
@[simp] theorem Strand.setV_clock (k : Strand) (n : Nat) (x : VReg) : (k.setV n x).clock = k.clock := rfl
@[simp] theorem Strand.setV_rel (k : Strand) (n : Nat) (x : VReg) : (k.setV n x).rel = k.rel := rfl
@[simp] theorem Strand.setV_seen (k : Strand) (n : Nat) (x : VReg) : (k.setV n x).seen = k.seen := rfl
@[simp] theorem Strand.setV_stale (k : Strand) (n : Nat) (x : VReg) : (k.setV n x).stale = k.stale := rfl
@[simp] theorem Strand.setV_order (k : Strand) (n : Nat) (x : VReg) : (k.setV n x).order = k.order := rfl
@[simp] theorem Strand.setV_fold (k : Strand) (n : Nat) (x : VReg) : (k.setV n x).fold = k.fold := rfl
@[simp] theorem Strand.setV_foldTaint (k : Strand) (n : Nat) (x : VReg) : (k.setV n x).foldTaint = k.foldTaint := rfl
@[simp] theorem Strand.setV_foldPoison (k : Strand) (n : Nat) (x : VReg) : (k.setV n x).foldPoison = k.foldPoison := rfl
@[simp] theorem Strand.setV_fold2 (k : Strand) (n : Nat) (x : VReg) : (k.setV n x).fold2 = k.fold2 := rfl
@[simp] theorem Strand.setV_fold2Taint (k : Strand) (n : Nat) (x : VReg) : (k.setV n x).fold2Taint = k.fold2Taint := rfl
@[simp] theorem Strand.setV_fold2Poison (k : Strand) (n : Nat) (x : VReg) : (k.setV n x).fold2Poison = k.fold2Poison := rfl
@[simp] theorem Strand.setV_spliced (k : Strand) (n : Nat) (x : VReg) : (k.setV n x).spliced = k.spliced := rfl

/-! ### setM -/

@[simp] theorem Strand.setM_sid (k : Strand) (n : Nat) (x : MReg) : (k.setM n x).sid = k.sid := by unfold Strand.setM; split <;> rfl
@[simp] theorem Strand.setM_status (k : Strand) (n : Nat) (x : MReg) : (k.setM n x).status = k.status := by unfold Strand.setM; split <;> rfl
@[simp] theorem Strand.setM_place (k : Strand) (n : Nat) (x : MReg) : (k.setM n x).place = k.place := by unfold Strand.setM; split <;> rfl
@[simp] theorem Strand.setM_pc (k : Strand) (n : Nat) (x : MReg) : (k.setM n x).pc = k.pc := by unfold Strand.setM; split <;> rfl
@[simp] theorem Strand.setM_g (k : Strand) (n : Nat) (x : MReg) : (k.setM n x).g = k.g := by unfold Strand.setM; split <;> rfl
@[simp] theorem Strand.setM_q (k : Strand) (n : Nat) (x : MReg) : (k.setM n x).q = k.q := by unfold Strand.setM; split <;> rfl
@[simp] theorem Strand.setM_v (k : Strand) (n : Nat) (x : MReg) : (k.setM n x).v = k.v := by unfold Strand.setM; split <;> rfl
@[simp] theorem Strand.setM_z (k : Strand) (n : Nat) (x : MReg) : (k.setM n x).z = k.z := by unfold Strand.setM; split <;> rfl
@[simp] theorem Strand.setM_t (k : Strand) (n : Nat) (x : MReg) : (k.setM n x).t = k.t := by unfold Strand.setM; split <;> rfl
@[simp] theorem Strand.setM_rows (k : Strand) (n : Nat) (x : MReg) : (k.setM n x).rows = k.rows := by unfold Strand.setM; split <;> rfl
@[simp] theorem Strand.setM_cols (k : Strand) (n : Nat) (x : MReg) : (k.setM n x).cols = k.cols := by unfold Strand.setM; split <;> rfl
@[simp] theorem Strand.setM_stripb (k : Strand) (n : Nat) (x : MReg) : (k.setM n x).stripb = k.stripb := by unfold Strand.setM; split <;> rfl
@[simp] theorem Strand.setM_seed (k : Strand) (n : Nat) (x : MReg) : (k.setM n x).seed = k.seed := by unfold Strand.setM; split <;> rfl
@[simp] theorem Strand.setM_vcfg (k : Strand) (n : Nat) (x : MReg) : (k.setM n x).vcfg = k.vcfg := by unfold Strand.setM; split <;> rfl
@[simp] theorem Strand.setM_amb (k : Strand) (n : Nat) (x : MReg) : (k.setM n x).amb = k.amb := by unfold Strand.setM; split <;> rfl
@[simp] theorem Strand.setM_prog (k : Strand) (n : Nat) (x : MReg) : (k.setM n x).prog = k.prog := by unfold Strand.setM; split <;> rfl
@[simp] theorem Strand.setM_slip (k : Strand) (n : Nat) (x : MReg) : (k.setM n x).slip = k.slip := by unfold Strand.setM; split <;> rfl
@[simp] theorem Strand.setM_grant (k : Strand) (n : Nat) (x : MReg) : (k.setM n x).grant = k.grant := by unfold Strand.setM; split <;> rfl
@[simp] theorem Strand.setM_scoutb (k : Strand) (n : Nat) (x : MReg) : (k.setM n x).scoutb = k.scoutb := by unfold Strand.setM; split <;> rfl
@[simp] theorem Strand.setM_scoutm (k : Strand) (n : Nat) (x : MReg) : (k.setM n x).scoutm = k.scoutm := by unfold Strand.setM; split <;> rfl
@[simp] theorem Strand.setM_scoutt (k : Strand) (n : Nat) (x : MReg) : (k.setM n x).scoutt = k.scoutt := by unfold Strand.setM; split <;> rfl
@[simp] theorem Strand.setM_fthr (k : Strand) (n : Nat) (x : MReg) : (k.setM n x).fthr = k.fthr := by unfold Strand.setM; split <;> rfl
@[simp] theorem Strand.setM_phase (k : Strand) (n : Nat) (x : MReg) : (k.setM n x).phase = k.phase := by unfold Strand.setM; split <;> rfl
@[simp] theorem Strand.setM_vdid (k : Strand) (n : Nat) (x : MReg) : (k.setM n x).vdid = k.vdid := by unfold Strand.setM; split <;> rfl
@[simp] theorem Strand.setM_strand (k : Strand) (n : Nat) (x : MReg) : (k.setM n x).strand = k.strand := by unfold Strand.setM; split <;> rfl
@[simp] theorem Strand.setM_nstrand (k : Strand) (n : Nat) (x : MReg) : (k.setM n x).nstrand = k.nstrand := by unfold Strand.setM; split <;> rfl
@[simp] theorem Strand.setM_launch (k : Strand) (n : Nat) (x : MReg) : (k.setM n x).launch = k.launch := by unfold Strand.setM; split <;> rfl
@[simp] theorem Strand.setM_targ (k : Strand) (n : Nat) (x : MReg) : (k.setM n x).targ = k.targ := by unfold Strand.setM; split <;> rfl
@[simp] theorem Strand.setM_trapv (k : Strand) (n : Nat) (x : MReg) : (k.setM n x).trapv = k.trapv := by unfold Strand.setM; split <;> rfl
@[simp] theorem Strand.setM_epc (k : Strand) (n : Nat) (x : MReg) : (k.setM n x).epc = k.epc := by unfold Strand.setM; split <;> rfl
@[simp] theorem Strand.setM_fcause (k : Strand) (n : Nat) (x : MReg) : (k.setM n x).fcause = k.fcause := by unfold Strand.setM; split <;> rfl
@[simp] theorem Strand.setM_faddr (k : Strand) (n : Nat) (x : MReg) : (k.setM n x).faddr = k.faddr := by unfold Strand.setM; split <;> rfl
@[simp] theorem Strand.setM_fpc (k : Strand) (n : Nat) (x : MReg) : (k.setM n x).fpc = k.fpc := by unfold Strand.setM; split <;> rfl
@[simp] theorem Strand.setM_fkern (k : Strand) (n : Nat) (x : MReg) : (k.setM n x).fkern = k.fkern := by unfold Strand.setM; split <;> rfl
@[simp] theorem Strand.setM_hnd (k : Strand) (n : Nat) (x : MReg) : (k.setM n x).hnd = k.hnd := by unfold Strand.setM; split <;> rfl
@[simp] theorem Strand.setM_queue (k : Strand) (n : Nat) (x : MReg) : (k.setM n x).queue = k.queue := by unfold Strand.setM; split <;> rfl
@[simp] theorem Strand.setM_reissued (k : Strand) (n : Nat) (x : MReg) : (k.setM n x).reissued = k.reissued := by unfold Strand.setM; split <;> rfl
@[simp] theorem Strand.setM_image (k : Strand) (n : Nat) (x : MReg) : (k.setM n x).image = k.image := by unfold Strand.setM; split <;> rfl
@[simp] theorem Strand.setM_pend (k : Strand) (n : Nat) (x : MReg) : (k.setM n x).pend = k.pend := by unfold Strand.setM; split <;> rfl
@[simp] theorem Strand.setM_blocked (k : Strand) (n : Nat) (x : MReg) : (k.setM n x).blocked = k.blocked := by unfold Strand.setM; split <;> rfl
@[simp] theorem Strand.setM_sleep (k : Strand) (n : Nat) (x : MReg) : (k.setM n x).sleep = k.sleep := by unfold Strand.setM; split <;> rfl
@[simp] theorem Strand.setM_awaiting (k : Strand) (n : Nat) (x : MReg) : (k.setM n x).awaiting = k.awaiting := by unfold Strand.setM; split <;> rfl
@[simp] theorem Strand.setM_mirrors (k : Strand) (n : Nat) (x : MReg) : (k.setM n x).mirrors = k.mirrors := by unfold Strand.setM; split <;> rfl
@[simp] theorem Strand.setM_work (k : Strand) (n : Nat) (x : MReg) : (k.setM n x).work = k.work := by unfold Strand.setM; split <;> rfl
@[simp] theorem Strand.setM_lastWork (k : Strand) (n : Nat) (x : MReg) : (k.setM n x).lastWork = k.lastWork := by unfold Strand.setM; split <;> rfl
@[simp] theorem Strand.setM_after (k : Strand) (n : Nat) (x : MReg) : (k.setM n x).after = k.after := by unfold Strand.setM; split <;> rfl
@[simp] theorem Strand.setM_begun (k : Strand) (n : Nat) (x : MReg) : (k.setM n x).begun = k.begun := by unfold Strand.setM; split <;> rfl
@[simp] theorem Strand.setM_physical (k : Strand) (n : Nat) (x : MReg) : (k.setM n x).physical = k.physical := by unfold Strand.setM; split <;> rfl
@[simp] theorem Strand.setM_issued (k : Strand) (n : Nat) (x : MReg) : (k.setM n x).issued = k.issued := by unfold Strand.setM; split <;> rfl
@[simp] theorem Strand.setM_halted (k : Strand) (n : Nat) (x : MReg) : (k.setM n x).halted = k.halted := by unfold Strand.setM; split <;> rfl
@[simp] theorem Strand.setM_bound (k : Strand) (n : Nat) (x : MReg) : (k.setM n x).bound = k.bound := by unfold Strand.setM; split <;> rfl
@[simp] theorem Strand.setM_preempt (k : Strand) (n : Nat) (x : MReg) : (k.setM n x).preempt = k.preempt := by unfold Strand.setM; split <;> rfl
@[simp] theorem Strand.setM_left (k : Strand) (n : Nat) (x : MReg) : (k.setM n x).left = k.left := by unfold Strand.setM; split <;> rfl
@[simp] theorem Strand.setM_wseq (k : Strand) (n : Nat) (x : MReg) : (k.setM n x).wseq = k.wseq := by unfold Strand.setM; split <;> rfl
@[simp] theorem Strand.setM_sseq (k : Strand) (n : Nat) (x : MReg) : (k.setM n x).sseq = k.sseq := by unfold Strand.setM; split <;> rfl
@[simp] theorem Strand.setM_clock (k : Strand) (n : Nat) (x : MReg) : (k.setM n x).clock = k.clock := by unfold Strand.setM; split <;> rfl
@[simp] theorem Strand.setM_rel (k : Strand) (n : Nat) (x : MReg) : (k.setM n x).rel = k.rel := by unfold Strand.setM; split <;> rfl
@[simp] theorem Strand.setM_seen (k : Strand) (n : Nat) (x : MReg) : (k.setM n x).seen = k.seen := by unfold Strand.setM; split <;> rfl
@[simp] theorem Strand.setM_stale (k : Strand) (n : Nat) (x : MReg) : (k.setM n x).stale = k.stale := by unfold Strand.setM; split <;> rfl
@[simp] theorem Strand.setM_order (k : Strand) (n : Nat) (x : MReg) : (k.setM n x).order = k.order := by unfold Strand.setM; split <;> rfl
@[simp] theorem Strand.setM_fold (k : Strand) (n : Nat) (x : MReg) : (k.setM n x).fold = k.fold := by unfold Strand.setM; split <;> rfl
@[simp] theorem Strand.setM_foldTaint (k : Strand) (n : Nat) (x : MReg) : (k.setM n x).foldTaint = k.foldTaint := by unfold Strand.setM; split <;> rfl
@[simp] theorem Strand.setM_foldPoison (k : Strand) (n : Nat) (x : MReg) : (k.setM n x).foldPoison = k.foldPoison := by unfold Strand.setM; split <;> rfl
@[simp] theorem Strand.setM_fold2 (k : Strand) (n : Nat) (x : MReg) : (k.setM n x).fold2 = k.fold2 := by unfold Strand.setM; split <;> rfl
@[simp] theorem Strand.setM_fold2Taint (k : Strand) (n : Nat) (x : MReg) : (k.setM n x).fold2Taint = k.fold2Taint := by unfold Strand.setM; split <;> rfl
@[simp] theorem Strand.setM_fold2Poison (k : Strand) (n : Nat) (x : MReg) : (k.setM n x).fold2Poison = k.fold2Poison := by unfold Strand.setM; split <;> rfl
@[simp] theorem Strand.setM_spliced (k : Strand) (n : Nat) (x : MReg) : (k.setM n x).spliced = k.spliced := by unfold Strand.setM; split <;> rfl

/-! ### setZ -/

@[simp] theorem Strand.setZ_sid (k : Strand) (n : Nat) (x : Tile) : (k.setZ n x).sid = k.sid := rfl
@[simp] theorem Strand.setZ_status (k : Strand) (n : Nat) (x : Tile) : (k.setZ n x).status = k.status := rfl
@[simp] theorem Strand.setZ_place (k : Strand) (n : Nat) (x : Tile) : (k.setZ n x).place = k.place := rfl
@[simp] theorem Strand.setZ_pc (k : Strand) (n : Nat) (x : Tile) : (k.setZ n x).pc = k.pc := rfl
@[simp] theorem Strand.setZ_g (k : Strand) (n : Nat) (x : Tile) : (k.setZ n x).g = k.g := rfl
@[simp] theorem Strand.setZ_q (k : Strand) (n : Nat) (x : Tile) : (k.setZ n x).q = k.q := rfl
@[simp] theorem Strand.setZ_v (k : Strand) (n : Nat) (x : Tile) : (k.setZ n x).v = k.v := rfl
@[simp] theorem Strand.setZ_m (k : Strand) (n : Nat) (x : Tile) : (k.setZ n x).m = k.m := rfl
@[simp] theorem Strand.setZ_t (k : Strand) (n : Nat) (x : Tile) : (k.setZ n x).t = k.t := rfl
@[simp] theorem Strand.setZ_rows (k : Strand) (n : Nat) (x : Tile) : (k.setZ n x).rows = k.rows := rfl
@[simp] theorem Strand.setZ_cols (k : Strand) (n : Nat) (x : Tile) : (k.setZ n x).cols = k.cols := rfl
@[simp] theorem Strand.setZ_stripb (k : Strand) (n : Nat) (x : Tile) : (k.setZ n x).stripb = k.stripb := rfl
@[simp] theorem Strand.setZ_seed (k : Strand) (n : Nat) (x : Tile) : (k.setZ n x).seed = k.seed := rfl
@[simp] theorem Strand.setZ_vcfg (k : Strand) (n : Nat) (x : Tile) : (k.setZ n x).vcfg = k.vcfg := rfl
@[simp] theorem Strand.setZ_amb (k : Strand) (n : Nat) (x : Tile) : (k.setZ n x).amb = k.amb := rfl
@[simp] theorem Strand.setZ_flags (k : Strand) (n : Nat) (x : Tile) : (k.setZ n x).flags = k.flags := rfl
@[simp] theorem Strand.setZ_prog (k : Strand) (n : Nat) (x : Tile) : (k.setZ n x).prog = k.prog := rfl
@[simp] theorem Strand.setZ_slip (k : Strand) (n : Nat) (x : Tile) : (k.setZ n x).slip = k.slip := rfl
@[simp] theorem Strand.setZ_grant (k : Strand) (n : Nat) (x : Tile) : (k.setZ n x).grant = k.grant := rfl
@[simp] theorem Strand.setZ_scoutb (k : Strand) (n : Nat) (x : Tile) : (k.setZ n x).scoutb = k.scoutb := rfl
@[simp] theorem Strand.setZ_scoutm (k : Strand) (n : Nat) (x : Tile) : (k.setZ n x).scoutm = k.scoutm := rfl
@[simp] theorem Strand.setZ_scoutt (k : Strand) (n : Nat) (x : Tile) : (k.setZ n x).scoutt = k.scoutt := rfl
@[simp] theorem Strand.setZ_fthr (k : Strand) (n : Nat) (x : Tile) : (k.setZ n x).fthr = k.fthr := rfl
@[simp] theorem Strand.setZ_phase (k : Strand) (n : Nat) (x : Tile) : (k.setZ n x).phase = k.phase := rfl
@[simp] theorem Strand.setZ_vdid (k : Strand) (n : Nat) (x : Tile) : (k.setZ n x).vdid = k.vdid := rfl
@[simp] theorem Strand.setZ_strand (k : Strand) (n : Nat) (x : Tile) : (k.setZ n x).strand = k.strand := rfl
@[simp] theorem Strand.setZ_nstrand (k : Strand) (n : Nat) (x : Tile) : (k.setZ n x).nstrand = k.nstrand := rfl
@[simp] theorem Strand.setZ_launch (k : Strand) (n : Nat) (x : Tile) : (k.setZ n x).launch = k.launch := rfl
@[simp] theorem Strand.setZ_targ (k : Strand) (n : Nat) (x : Tile) : (k.setZ n x).targ = k.targ := rfl
@[simp] theorem Strand.setZ_trapv (k : Strand) (n : Nat) (x : Tile) : (k.setZ n x).trapv = k.trapv := rfl
@[simp] theorem Strand.setZ_epc (k : Strand) (n : Nat) (x : Tile) : (k.setZ n x).epc = k.epc := rfl
@[simp] theorem Strand.setZ_fcause (k : Strand) (n : Nat) (x : Tile) : (k.setZ n x).fcause = k.fcause := rfl
@[simp] theorem Strand.setZ_faddr (k : Strand) (n : Nat) (x : Tile) : (k.setZ n x).faddr = k.faddr := rfl
@[simp] theorem Strand.setZ_fpc (k : Strand) (n : Nat) (x : Tile) : (k.setZ n x).fpc = k.fpc := rfl
@[simp] theorem Strand.setZ_fkern (k : Strand) (n : Nat) (x : Tile) : (k.setZ n x).fkern = k.fkern := rfl
@[simp] theorem Strand.setZ_hnd (k : Strand) (n : Nat) (x : Tile) : (k.setZ n x).hnd = k.hnd := rfl
@[simp] theorem Strand.setZ_queue (k : Strand) (n : Nat) (x : Tile) : (k.setZ n x).queue = k.queue := rfl
@[simp] theorem Strand.setZ_reissued (k : Strand) (n : Nat) (x : Tile) : (k.setZ n x).reissued = k.reissued := rfl
@[simp] theorem Strand.setZ_image (k : Strand) (n : Nat) (x : Tile) : (k.setZ n x).image = k.image := rfl
@[simp] theorem Strand.setZ_pend (k : Strand) (n : Nat) (x : Tile) : (k.setZ n x).pend = k.pend := rfl
@[simp] theorem Strand.setZ_blocked (k : Strand) (n : Nat) (x : Tile) : (k.setZ n x).blocked = k.blocked := rfl
@[simp] theorem Strand.setZ_sleep (k : Strand) (n : Nat) (x : Tile) : (k.setZ n x).sleep = k.sleep := rfl
@[simp] theorem Strand.setZ_awaiting (k : Strand) (n : Nat) (x : Tile) : (k.setZ n x).awaiting = k.awaiting := rfl
@[simp] theorem Strand.setZ_mirrors (k : Strand) (n : Nat) (x : Tile) : (k.setZ n x).mirrors = k.mirrors := rfl
@[simp] theorem Strand.setZ_work (k : Strand) (n : Nat) (x : Tile) : (k.setZ n x).work = k.work := rfl
@[simp] theorem Strand.setZ_lastWork (k : Strand) (n : Nat) (x : Tile) : (k.setZ n x).lastWork = k.lastWork := rfl
@[simp] theorem Strand.setZ_after (k : Strand) (n : Nat) (x : Tile) : (k.setZ n x).after = k.after := rfl
@[simp] theorem Strand.setZ_begun (k : Strand) (n : Nat) (x : Tile) : (k.setZ n x).begun = k.begun := rfl
@[simp] theorem Strand.setZ_physical (k : Strand) (n : Nat) (x : Tile) : (k.setZ n x).physical = k.physical := rfl
@[simp] theorem Strand.setZ_issued (k : Strand) (n : Nat) (x : Tile) : (k.setZ n x).issued = k.issued := rfl
@[simp] theorem Strand.setZ_halted (k : Strand) (n : Nat) (x : Tile) : (k.setZ n x).halted = k.halted := rfl
@[simp] theorem Strand.setZ_bound (k : Strand) (n : Nat) (x : Tile) : (k.setZ n x).bound = k.bound := rfl
@[simp] theorem Strand.setZ_preempt (k : Strand) (n : Nat) (x : Tile) : (k.setZ n x).preempt = k.preempt := rfl
@[simp] theorem Strand.setZ_left (k : Strand) (n : Nat) (x : Tile) : (k.setZ n x).left = k.left := rfl
@[simp] theorem Strand.setZ_wseq (k : Strand) (n : Nat) (x : Tile) : (k.setZ n x).wseq = k.wseq := rfl
@[simp] theorem Strand.setZ_sseq (k : Strand) (n : Nat) (x : Tile) : (k.setZ n x).sseq = k.sseq := rfl
@[simp] theorem Strand.setZ_clock (k : Strand) (n : Nat) (x : Tile) : (k.setZ n x).clock = k.clock := rfl
@[simp] theorem Strand.setZ_rel (k : Strand) (n : Nat) (x : Tile) : (k.setZ n x).rel = k.rel := rfl
@[simp] theorem Strand.setZ_seen (k : Strand) (n : Nat) (x : Tile) : (k.setZ n x).seen = k.seen := rfl
@[simp] theorem Strand.setZ_stale (k : Strand) (n : Nat) (x : Tile) : (k.setZ n x).stale = k.stale := rfl
@[simp] theorem Strand.setZ_order (k : Strand) (n : Nat) (x : Tile) : (k.setZ n x).order = k.order := rfl
@[simp] theorem Strand.setZ_fold (k : Strand) (n : Nat) (x : Tile) : (k.setZ n x).fold = k.fold := rfl
@[simp] theorem Strand.setZ_foldTaint (k : Strand) (n : Nat) (x : Tile) : (k.setZ n x).foldTaint = k.foldTaint := rfl
@[simp] theorem Strand.setZ_foldPoison (k : Strand) (n : Nat) (x : Tile) : (k.setZ n x).foldPoison = k.foldPoison := rfl
@[simp] theorem Strand.setZ_fold2 (k : Strand) (n : Nat) (x : Tile) : (k.setZ n x).fold2 = k.fold2 := rfl
@[simp] theorem Strand.setZ_fold2Taint (k : Strand) (n : Nat) (x : Tile) : (k.setZ n x).fold2Taint = k.fold2Taint := rfl
@[simp] theorem Strand.setZ_fold2Poison (k : Strand) (n : Nat) (x : Tile) : (k.setZ n x).fold2Poison = k.fold2Poison := rfl
@[simp] theorem Strand.setZ_spliced (k : Strand) (n : Nat) (x : Tile) : (k.setZ n x).spliced = k.spliced := rfl

/-! ### setT -/

@[simp] theorem Strand.setT_sid (k : Strand) (n : Nat) (x : BitVec 1024) : (k.setT n x).sid = k.sid := rfl
@[simp] theorem Strand.setT_status (k : Strand) (n : Nat) (x : BitVec 1024) : (k.setT n x).status = k.status := rfl
@[simp] theorem Strand.setT_place (k : Strand) (n : Nat) (x : BitVec 1024) : (k.setT n x).place = k.place := rfl
@[simp] theorem Strand.setT_pc (k : Strand) (n : Nat) (x : BitVec 1024) : (k.setT n x).pc = k.pc := rfl
@[simp] theorem Strand.setT_g (k : Strand) (n : Nat) (x : BitVec 1024) : (k.setT n x).g = k.g := rfl
@[simp] theorem Strand.setT_q (k : Strand) (n : Nat) (x : BitVec 1024) : (k.setT n x).q = k.q := rfl
@[simp] theorem Strand.setT_v (k : Strand) (n : Nat) (x : BitVec 1024) : (k.setT n x).v = k.v := rfl
@[simp] theorem Strand.setT_m (k : Strand) (n : Nat) (x : BitVec 1024) : (k.setT n x).m = k.m := rfl
@[simp] theorem Strand.setT_z (k : Strand) (n : Nat) (x : BitVec 1024) : (k.setT n x).z = k.z := rfl
@[simp] theorem Strand.setT_rows (k : Strand) (n : Nat) (x : BitVec 1024) : (k.setT n x).rows = k.rows := rfl
@[simp] theorem Strand.setT_cols (k : Strand) (n : Nat) (x : BitVec 1024) : (k.setT n x).cols = k.cols := rfl
@[simp] theorem Strand.setT_stripb (k : Strand) (n : Nat) (x : BitVec 1024) : (k.setT n x).stripb = k.stripb := rfl
@[simp] theorem Strand.setT_seed (k : Strand) (n : Nat) (x : BitVec 1024) : (k.setT n x).seed = k.seed := rfl
@[simp] theorem Strand.setT_vcfg (k : Strand) (n : Nat) (x : BitVec 1024) : (k.setT n x).vcfg = k.vcfg := rfl
@[simp] theorem Strand.setT_amb (k : Strand) (n : Nat) (x : BitVec 1024) : (k.setT n x).amb = k.amb := rfl
@[simp] theorem Strand.setT_flags (k : Strand) (n : Nat) (x : BitVec 1024) : (k.setT n x).flags = k.flags := rfl
@[simp] theorem Strand.setT_prog (k : Strand) (n : Nat) (x : BitVec 1024) : (k.setT n x).prog = k.prog := rfl
@[simp] theorem Strand.setT_slip (k : Strand) (n : Nat) (x : BitVec 1024) : (k.setT n x).slip = k.slip := rfl
@[simp] theorem Strand.setT_grant (k : Strand) (n : Nat) (x : BitVec 1024) : (k.setT n x).grant = k.grant := rfl
@[simp] theorem Strand.setT_scoutb (k : Strand) (n : Nat) (x : BitVec 1024) : (k.setT n x).scoutb = k.scoutb := rfl
@[simp] theorem Strand.setT_scoutm (k : Strand) (n : Nat) (x : BitVec 1024) : (k.setT n x).scoutm = k.scoutm := rfl
@[simp] theorem Strand.setT_scoutt (k : Strand) (n : Nat) (x : BitVec 1024) : (k.setT n x).scoutt = k.scoutt := rfl
@[simp] theorem Strand.setT_fthr (k : Strand) (n : Nat) (x : BitVec 1024) : (k.setT n x).fthr = k.fthr := rfl
@[simp] theorem Strand.setT_phase (k : Strand) (n : Nat) (x : BitVec 1024) : (k.setT n x).phase = k.phase := rfl
@[simp] theorem Strand.setT_vdid (k : Strand) (n : Nat) (x : BitVec 1024) : (k.setT n x).vdid = k.vdid := rfl
@[simp] theorem Strand.setT_strand (k : Strand) (n : Nat) (x : BitVec 1024) : (k.setT n x).strand = k.strand := rfl
@[simp] theorem Strand.setT_nstrand (k : Strand) (n : Nat) (x : BitVec 1024) : (k.setT n x).nstrand = k.nstrand := rfl
@[simp] theorem Strand.setT_launch (k : Strand) (n : Nat) (x : BitVec 1024) : (k.setT n x).launch = k.launch := rfl
@[simp] theorem Strand.setT_targ (k : Strand) (n : Nat) (x : BitVec 1024) : (k.setT n x).targ = k.targ := rfl
@[simp] theorem Strand.setT_trapv (k : Strand) (n : Nat) (x : BitVec 1024) : (k.setT n x).trapv = k.trapv := rfl
@[simp] theorem Strand.setT_epc (k : Strand) (n : Nat) (x : BitVec 1024) : (k.setT n x).epc = k.epc := rfl
@[simp] theorem Strand.setT_fcause (k : Strand) (n : Nat) (x : BitVec 1024) : (k.setT n x).fcause = k.fcause := rfl
@[simp] theorem Strand.setT_faddr (k : Strand) (n : Nat) (x : BitVec 1024) : (k.setT n x).faddr = k.faddr := rfl
@[simp] theorem Strand.setT_fpc (k : Strand) (n : Nat) (x : BitVec 1024) : (k.setT n x).fpc = k.fpc := rfl
@[simp] theorem Strand.setT_fkern (k : Strand) (n : Nat) (x : BitVec 1024) : (k.setT n x).fkern = k.fkern := rfl
@[simp] theorem Strand.setT_hnd (k : Strand) (n : Nat) (x : BitVec 1024) : (k.setT n x).hnd = k.hnd := rfl
@[simp] theorem Strand.setT_queue (k : Strand) (n : Nat) (x : BitVec 1024) : (k.setT n x).queue = k.queue := rfl
@[simp] theorem Strand.setT_reissued (k : Strand) (n : Nat) (x : BitVec 1024) : (k.setT n x).reissued = k.reissued := rfl
@[simp] theorem Strand.setT_image (k : Strand) (n : Nat) (x : BitVec 1024) : (k.setT n x).image = k.image := rfl
@[simp] theorem Strand.setT_pend (k : Strand) (n : Nat) (x : BitVec 1024) : (k.setT n x).pend = k.pend := rfl
@[simp] theorem Strand.setT_blocked (k : Strand) (n : Nat) (x : BitVec 1024) : (k.setT n x).blocked = k.blocked := rfl
@[simp] theorem Strand.setT_sleep (k : Strand) (n : Nat) (x : BitVec 1024) : (k.setT n x).sleep = k.sleep := rfl
@[simp] theorem Strand.setT_awaiting (k : Strand) (n : Nat) (x : BitVec 1024) : (k.setT n x).awaiting = k.awaiting := rfl
@[simp] theorem Strand.setT_mirrors (k : Strand) (n : Nat) (x : BitVec 1024) : (k.setT n x).mirrors = k.mirrors := rfl
@[simp] theorem Strand.setT_work (k : Strand) (n : Nat) (x : BitVec 1024) : (k.setT n x).work = k.work := rfl
@[simp] theorem Strand.setT_lastWork (k : Strand) (n : Nat) (x : BitVec 1024) : (k.setT n x).lastWork = k.lastWork := rfl
@[simp] theorem Strand.setT_after (k : Strand) (n : Nat) (x : BitVec 1024) : (k.setT n x).after = k.after := rfl
@[simp] theorem Strand.setT_begun (k : Strand) (n : Nat) (x : BitVec 1024) : (k.setT n x).begun = k.begun := rfl
@[simp] theorem Strand.setT_physical (k : Strand) (n : Nat) (x : BitVec 1024) : (k.setT n x).physical = k.physical := rfl
@[simp] theorem Strand.setT_issued (k : Strand) (n : Nat) (x : BitVec 1024) : (k.setT n x).issued = k.issued := rfl
@[simp] theorem Strand.setT_halted (k : Strand) (n : Nat) (x : BitVec 1024) : (k.setT n x).halted = k.halted := rfl
@[simp] theorem Strand.setT_bound (k : Strand) (n : Nat) (x : BitVec 1024) : (k.setT n x).bound = k.bound := rfl
@[simp] theorem Strand.setT_preempt (k : Strand) (n : Nat) (x : BitVec 1024) : (k.setT n x).preempt = k.preempt := rfl
@[simp] theorem Strand.setT_left (k : Strand) (n : Nat) (x : BitVec 1024) : (k.setT n x).left = k.left := rfl
@[simp] theorem Strand.setT_wseq (k : Strand) (n : Nat) (x : BitVec 1024) : (k.setT n x).wseq = k.wseq := rfl
@[simp] theorem Strand.setT_sseq (k : Strand) (n : Nat) (x : BitVec 1024) : (k.setT n x).sseq = k.sseq := rfl
@[simp] theorem Strand.setT_clock (k : Strand) (n : Nat) (x : BitVec 1024) : (k.setT n x).clock = k.clock := rfl
@[simp] theorem Strand.setT_rel (k : Strand) (n : Nat) (x : BitVec 1024) : (k.setT n x).rel = k.rel := rfl
@[simp] theorem Strand.setT_seen (k : Strand) (n : Nat) (x : BitVec 1024) : (k.setT n x).seen = k.seen := rfl
@[simp] theorem Strand.setT_stale (k : Strand) (n : Nat) (x : BitVec 1024) : (k.setT n x).stale = k.stale := rfl
@[simp] theorem Strand.setT_order (k : Strand) (n : Nat) (x : BitVec 1024) : (k.setT n x).order = k.order := rfl
@[simp] theorem Strand.setT_fold (k : Strand) (n : Nat) (x : BitVec 1024) : (k.setT n x).fold = k.fold := rfl
@[simp] theorem Strand.setT_foldTaint (k : Strand) (n : Nat) (x : BitVec 1024) : (k.setT n x).foldTaint = k.foldTaint := rfl
@[simp] theorem Strand.setT_foldPoison (k : Strand) (n : Nat) (x : BitVec 1024) : (k.setT n x).foldPoison = k.foldPoison := rfl
@[simp] theorem Strand.setT_fold2 (k : Strand) (n : Nat) (x : BitVec 1024) : (k.setT n x).fold2 = k.fold2 := rfl
@[simp] theorem Strand.setT_fold2Taint (k : Strand) (n : Nat) (x : BitVec 1024) : (k.setT n x).fold2Taint = k.fold2Taint := rfl
@[simp] theorem Strand.setT_fold2Poison (k : Strand) (n : Nat) (x : BitVec 1024) : (k.setT n x).fold2Poison = k.fold2Poison := rfl
@[simp] theorem Strand.setT_spliced (k : Strand) (n : Nat) (x : BitVec 1024) : (k.setT n x).spliced = k.spliced := rfl

/-! ### Reading after a write -/

@[simp] theorem Strand.getG_raise (k : Strand) (x : Flags) (n : Nat) : (k.raise x).getG n = k.getG n := rfl
@[simp] theorem Strand.getQ_raise (k : Strand) (x : Flags) (n : Nat) : (k.raise x).getQ n = k.getQ n := rfl
@[simp] theorem Strand.getV_raise (k : Strand) (x : Flags) (n : Nat) : (k.raise x).getV n = k.getV n := rfl
@[simp] theorem Strand.getM_raise (k : Strand) (x : Flags) (n : Nat) : (k.raise x).getM n = k.getM n := rfl
@[simp] theorem Strand.getZ_raise (k : Strand) (x : Flags) (n : Nat) : (k.raise x).getZ n = k.getZ n := rfl
@[simp] theorem Strand.getT_raise (k : Strand) (x : Flags) (n : Nat) : (k.raise x).getT n = k.getT n := rfl

/-- Reading an element of a vector after one was set. -/
theorem getD_setIfInBounds {α : Type} {n : Nat} (v : Vector α n) (i j : Nat) (x d : α) (h : i < n) :
    (v.setIfInBounds i x)[j]?.getD d = if j = i then x else v[j]?.getD d := by
  by_cases e : j = i
  · subst e; simp [h]
  · simp [Vector.getElem?_setIfInBounds_ne, Ne.symm e, e]

theorem Strand.getG_setG (k : Strand) (n i : Nat) (x : GReg) (h : n < 32) :
    (k.setG n x).getG i = if n = 0 ∨ i = 0 then k.getG i else if i = n then x else k.getG i := by
  unfold Strand.setG Strand.getG
  by_cases hn : n = 0
  · simp [hn]
  · by_cases hi : i = 0
    · simp [hi]
    · simp [hn, hi, getD_setIfInBounds, h]

theorem Strand.getQ_setQ (k : Strand) (n i : Nat) (x : QReg) (h : n < 8) :
    (k.setQ n x).getQ i = if n = 0 ∨ i = 0 then k.getQ i else if i = n then x else k.getQ i := by
  unfold Strand.setQ Strand.getQ
  by_cases hn : n = 0
  · simp [hn]
  · by_cases hi : i = 0
    · simp [hi]
    · simp [hn, hi, getD_setIfInBounds, h]

theorem Strand.getM_setM (k : Strand) (n i : Nat) (x : MReg) (h : n < 8) (h0 : n ≠ 0) :
    (k.setM n x).getM i = if i = n then x else k.getM i := by
  simp [Strand.setM, Strand.getM, h0, getD_setIfInBounds, h]

theorem Strand.getV_setV (k : Strand) (n i : Nat) (x : VReg) (h : n < 32) :
    (k.setV n x).getV i = if i = n then x else k.getV i := by
  simp [Strand.setV, Strand.getV, getD_setIfInBounds, h]

theorem Strand.getZ_setZ (k : Strand) (n i : Nat) (x : Tile) (h : n < 16) :
    (k.setZ n x).getZ i = if i = n then x else k.getZ i := by
  simp [Strand.setZ, Strand.getZ, getD_setIfInBounds, h]

theorem Strand.getT_setT (k : Strand) (n i : Nat) (x : BitVec 1024) (h : n < 64) :
    (k.setT n x).getT i = if i = n then x else k.getT i := by
  simp [Strand.setT, Strand.getT, getD_setIfInBounds, h]

end Sys2Proof.Machine
end

