-- ==== Sys2Proof/Laws/Ops.lean ====
section
/-! SUPPORT. What each shared operation can do, said once: running a scalar instruction, entering the array queue,
serving its head, taking a fault. -/

namespace Sys2Proof.Machine

/-! ### Bodies that may fail -/

theorem require_ok {c : Bool} {cause fa : Nat} {u : Unit} : require c cause fa = .ok u ↔ c = true := by
  unfold require fail
  cases c <;> simp

theorem bind_ok {α β : Type} {x : R α} {g : α → R β} {b : β} :
    (x >>= g) = .ok b ↔ ∃ a, x = .ok a ∧ g a = .ok b := by
  cases x with
  | error e => simp [bind, Except.bind]
  | ok a => simp [bind, Except.bind]

/-! ### Faults -/

theorem State.setVdev_mem (s : State) (d : VDev) : (s.setVdev d).mem = s.mem := by simp only [State.setVdev]

theorem State.sendNotice_mem (s : State) (d : VDev) (die queue tail : Nat) :
    (s.sendNotice d die queue tail).mem = s.mem := by simp only [State.sendNotice, State.send]

theorem State.setLaunch_mem (s : State) (l : Launch) : (s.setLaunch l).mem = s.mem := by simp only [State.setLaunch]

theorem State.requestCancel_mem (s : State) (c : Cancel) : (s.requestCancel c).mem = s.mem := by
  simp only [State.requestCancel]

/-- Cancels that are ordered for each of some things leave memory alone. -/
theorem foldl_requestCancel_mem {α : Type} (xs : List α) (g : α → Cancel) (s : State) :
    (xs.foldl (fun t x => t.requestCancel (g x)) s).mem = s.mem := by
  induction xs generalizing s with
  | nil => rfl
  | cons x r ih => simp only [List.foldl_cons, ih, State.requestCancel_mem]

theorem State.noteFlt_mem (s : State) (vd : Nat) (x : Flt) : (s.noteFlt vd x).mem = s.mem := by
  unfold State.noteFlt
  split <;> rfl

/-- A notification changes nothing but the list of those that the Steward holds. -/
theorem State.noteRead_eq (s : State) (vd a n : Nat) : ∃ notes, s.noteRead vd a n = { s with poisonedWalks := notes } := by
  unfold State.noteRead State.noteFlt State.noteWalk
  split
  · exact ⟨s.poisonedWalks, rfl⟩
  · split
    · exact ⟨_, rfl⟩
    · exact ⟨s.poisonedWalks, rfl⟩

theorem State.noteReads_eq (s : State) (vd : Nat) (rs : List (Nat × Nat)) :
    ∃ notes, s.noteReads vd rs = { s with poisonedWalks := notes } := by
  unfold State.noteReads
  induction rs generalizing s with
  | nil => exact ⟨s.poisonedWalks, rfl⟩
  | cons r rs ih =>
    obtain ⟨n, hn⟩ := s.noteRead_eq vd r.1 r.2
    obtain ⟨m, hm⟩ := ih { s with poisonedWalks := n }
    exact ⟨m, by rw [List.foldl_cons, hn, hm]⟩

theorem State.keepSlot_mem (s : State) (st : Strand) : (s.keepSlot st).mem = s.mem := rfl

theorem State.ifaceError_mem (s : State) (vd : Nat) : (s.ifaceError vd).mem = s.mem := by
  unfold State.ifaceError
  split
  · simp only [foldl_requestCancel_mem, State.setVdev_mem]
  · rfl

theorem State.ringWrite_wf {s t : State} {vd a x : Nat} (e : s.ringWrite vd a x = .ok t) (h : Memory.wf s.mem = true) :
    Memory.wf t.mem = true := by
  unfold State.ringWrite at e
  obtain ⟨_, _, h1⟩ := bind_ok.mp e
  exact State.writeHome_wf h1 h

/-- Memory after a step that may fail: where it succeeds the form is kept. -/
theorem match_wf {x : R State} {g : State → State} {d : Flt → State} (hd : ∀ e, Memory.wf (d e).mem = true)
    (hx : ∀ t, x = .ok t → Memory.wf (g t).mem = true) :
    Memory.wf (match x with | .error e => d e | .ok t => g t).mem = true := by
  cases x with
  | error e => exact hd e
  | ok t => exact hx t rfl

theorem State.queueRecord_wf (s : State) (vd die rec0 : Nat) (h : Memory.wf s.mem = true) :
    Memory.wf (s.queueRecord vd die rec0).mem = true := by
  have hi (e : Flt) : Memory.wf ((s.noteFlt vd e).ifaceError vd).mem = true := by rwa [State.ifaceError_mem, State.noteFlt_mem]
  unfold State.queueRecord
  cases s.vdev? vd with
  | none => exact h
  | some d =>
    dsimp only
    cases d.faultDesc with
    | none => rwa [State.setVdev_mem]
    | some da =>
      dsimp only
      cases s.readHome vd .rw (8 * (da.toNat : Int)) 512 with
      | error e => exact hi e
      | ok desc =>
        dsimp only
        generalize min (bits desc.1 383 352 + 1) (2 ^ 32 - 1) = lost
        generalize (bits desc.1 447 416 + 1) % 2 ^ 32 = next
        split
        · exact match_wf hi fun t ht => by
            rw [State.setVdev_mem]
            exact State.writeHome_wf ht h
        · exact match_wf hi fun t ht => match_wf hi fun u hu => by
            rw [State.sendNotice_mem]
            exact State.writeHome_wf hu (State.ringWrite_wf ht h)

/-- A pause writes no more than DONE of a token record. -/
theorem State.pauseWork_wf (s : State) (w : Work) (h : Memory.wf s.mem = true) : Memory.wf (s.pauseWork w).1.mem = true := by
  unfold State.pauseWork
  split
  · dsimp only
    split
    · exact h
    · split
      · unfold State.noteFlt; split <;> exact h
      · exact State.writeGranule_wf _ _ _ _ h
  · exact h

theorem State.stopLoad_mem (s : State) (w : Work) : (s.stopLoad w).mem = s.mem := by
  unfold State.stopLoad
  dsimp only
  split <;> rfl

theorem foldl_stopLoad_mem (ws : List Work) (s : State) : (ws.foldl State.stopLoad s).mem = s.mem := by
  induction ws generalizing s with
  | nil => rfl
  | cons w r ih => simp only [List.foldl_cons, ih, State.stopLoad_mem]

/-- A strand that is switched out keeps the form of memory. -/
theorem State.switchOutMe_wf (s : State) (byPolicy atHead : Bool) (h : Memory.wf s.mem = true) :
    Memory.wf (s.switchOutMe byPolicy atHead).mem = true := by
  unfold State.switchOutMe
  dsimp only
  have key (ws : List Work) (acc : State × List Work) (ha : Memory.wf acc.1.mem = true) :
      Memory.wf (ws.foldl (fun (acc : State × List Work) w =>
        ((acc.1.pauseWork w).1, acc.2 ++ [(acc.1.pauseWork w).2])) acc).1.mem = true := by
    induction ws generalizing acc with
    | nil => exact ha
    | cons w r ih => exact ih _ (State.pauseWork_wf _ w ha)
  exact key _ _ (by rwa [foldl_stopLoad_mem])

theorem State.stewardFault_wf (s : State) (p : Pend) (h : Memory.wf s.mem = true) :
    Memory.wf (s.stewardFault p).mem = true := by
  unfold State.stewardFault
  dsimp only
  generalize faultRecord _ _ _ _ _ _ _ _ _ _ _ = r
  have hq := State.queueRecord_wf s s.vd s.me.place.die r h
  split
  · rw [State.keepSlot_mem, State.setLaunch_mem]; exact State.switchOutMe_wf _ true p.isArray hq
  · rw [State.requestCancel_mem]; exact hq
  · rw [State.requestCancel_mem]; exact hq
  · rw [State.requestCancel_mem]; exact hq

/-- A frame that is pushed keeps the form of memory. -/
theorem State.pushFrame_wf {s t : State} {ra : Word} {trap : Bool} (e : s.pushFrame ra trap = .ok t)
    (h : Memory.wf s.mem = true) : Memory.wf t.mem = true := by
  unfold State.pushFrame at e
  simp only [bind_ok] at e
  obtain ⟨_, _, _, _, lo, _, hi, _, h3⟩ := e
  have h4 := State.writeAll_wf _ (agentScalar s.me.sid) hi (State.writeAll_wf s (agentScalar s.me.sid) lo h)
  simp only [pure, Except.pure, Except.ok.injEq] at h3
  rw [← h3]
  exact h4

theorem State.takeFault_wf (s : State) (p : Pend) (h : Memory.wf s.mem = true) :
    Memory.wf (s.takeFault p).mem = true := by
  unfold State.takeFault
  dsimp only
  generalize hs0 : ({ s with me := _, poisonedWalks := _, walks := _ } : State) = s0
  have h0 : Memory.wf s0.mem = true := by rw [← hs0]; exact h
  split
  · cases hp : s0.pushFrame p.epc true with
    | ok u =>
      have hu := State.pushFrame_wf hp h0
      exact hu
    | error x =>
      refine State.stewardFault_wf _ p ?_
      unfold State.noteFlt; split <;> exact h0
  · exact State.stewardFault_wf s0 p h0

/-- A fault of the scalar stream is taken at once, or waits until the queue is empty (R17). -/
theorem State.scalarFault_next (s : State) (e : Flt) : ∃ t, s.scalarFault e = .next t := by
  unfold State.scalarFault
  dsimp only
  split <;> exact ⟨_, rfl⟩

theorem State.scalarFault_wf {s t : State} {e : Flt} (he : s.scalarFault e = .next t) (h : Memory.wf s.mem = true) :
    Memory.wf t.mem = true := by
  unfold State.scalarFault at he
  dsimp only at he
  split at he
  · cases he; exact State.takeFault_wf _ _ h
  · cases he; exact h

/-! ### Scalar instructions -/

/-- Everything that running a scalar instruction can do. -/
theorem runScalar_cases {f : Fields} {s t : State} {gs qs : List Nat} {body : State → R State}
    (h : runScalar f s gs qs body = .next t) :
    (s.me.guard f.gs = false ∧ t = s.advance) ∨
      (∃ e, s.scalarFault e = .next t) ∨
      (s.me.guard f.gs = true ∧ body (s.raise (flagIf (gs.any fun n => (s.me.getG n).poison) flPSN)) = .ok t) := by
  unfold runScalar at h
  split at h
  · rename_i hg
    cases h
    exact .inl ⟨by simpa using hg, rfl⟩
  · rename_i hg
    split at h
    · exact .inr (.inl ⟨_, h⟩)
    · dsimp only at h
      split at h
      · exact .inr (.inl ⟨_, h⟩)
      · split at h
        · rename_i ht
          cases h
          exact .inr (.inr ⟨by simpa using hg, ht⟩)
        · exact .inr (.inl ⟨_, h⟩)

/-- A scalar instruction always answers a next state. -/
theorem runScalar_next (f : Fields) (s : State) (gs qs : List Nat) (body : State → R State) :
    ∃ t, runScalar f s gs qs body = .next t := by
  unfold runScalar
  split
  · exact ⟨_, rfl⟩
  · split
    · exact State.scalarFault_next _ _
    · dsimp only
      split
      · exact State.scalarFault_next _ _
      · split
        · exact ⟨_, rfl⟩
        · exact State.scalarFault_next _ _

/-- Where the guard holds, no source traps and the body completes, a scalar instruction does what its body does. -/
theorem runScalar_runs {f : Fields} {s t : State} {gs qs : List Nat} {body : State → R State}
    (hg : s.me.guard f.gs = true)
    (ht : (trapsTaint f && (gs.any (fun n => (s.me.getG n).taint) || qs.any (fun n => (s.me.getQ n).taint) ||
      (s.me.getQ (bits f.gs.toNat 2 0)).taint)) = false)
    (hp : ((gs.any fun n => (s.me.getG n).poison) && s.poisonTrap) = false)
    (hb : body (s.raise (flagIf (gs.any fun n => (s.me.getG n).poison) flPSN)) = .ok t) :
    runScalar f s gs qs body = .next t := by
  unfold runScalar
  simp only [hg, ht, hp, hb, Bool.not_true, Bool.false_eq_true, if_false]

theorem runScalar_wf {f : Fields} {s t : State} {gs qs : List Nat} {body : State → R State}
    (h : runScalar f s gs qs body = .next t) (hs : Memory.wf s.mem = true)
    (hb : ∀ u v, Memory.wf u.mem = true → body u = .ok v → Memory.wf v.mem = true) : Memory.wf t.mem = true := by
  rcases runScalar_cases h with ⟨-, he⟩ | ⟨e, he⟩ | ⟨-, he⟩
  · rw [he, State.advance_eq]; exact hs
  · exact State.scalarFault_wf he hs
  · refine hb _ _ ?_ he
    rw [State.raise_eq]; exact hs

/-! ### The array queue -/

/-- Everything that placing a word in the queue can do. -/
theorem State.enter_cases (s : State) (op : BitVec 8) (f : Fields) :
    (∃ e t, s.scalarFault e = .next t ∧ s.enter op f = .error (.next t)) ∨
      s.enter op f = .error (.next s) ∨
      (s.me.guard f.gs = false ∧ s.enter op f = .error (.next s.advance)) ∨
      (s.me.guard f.gs = true ∧
        s.enter op f = .ok ({ s.advance with
          me := { s.advance.me with
            queue := s.me.queue ++ [s.capture op f], spliced := s.storeCaptured (s.capture op f) f } },
          s.capture op f)) := by
  unfold State.enter
  generalize (namedZ op.toNat f).any _ = tiles
  generalize decide ((if s.me.slip.toNat = 0 then 64 else s.me.slip.toNat) ≤ s.me.queue.length) = full
  cases tiles with
  | true =>
    obtain ⟨t, ht⟩ := State.scalarFault_next s { cause := cILLEGAL }
    exact .inl ⟨_, t, ht, by simp only [if_true, ht]⟩
  | false =>
    cases full with
    | true => exact .inr (.inl (by simp only [Bool.false_eq_true, if_false, if_true]))
    | false =>
      cases hg : s.me.guard f.gs with
      | false => exact .inr (.inr (.inl ⟨rfl, by simp only [Bool.false_eq_true, if_false, Bool.not_false, if_true]⟩))
      | true => exact .inr (.inr (.inr ⟨rfl, by
          simp only [Bool.false_eq_true, if_false, Bool.not_true, State.advance_eq]⟩))

/-- Everything that serving the head of the queue can do (R13, R16). -/
theorem State.serve_cases (s : State) (e : Entry) (op : Nat) (f : Fields) (body : Entry → State → Served) :
    s.serve e op f body = s ∨ (∃ x, s.serve e op f body = s.arrayFault e x) ∨
      (∃ t, body e s = .done t ∧ s.serve e op f body = t.retire s.nextId) ∨
      (∃ t, body e s = .wait t ∧ s.serve e op f body = t) ∨
      (∃ t x, body e s = .stop t x ∧ s.serve e op f body = t.arrayFault e x) := by
  unfold State.serve
  split
  · exact .inl rfl
  · split
    · exact .inr (.inl ⟨_, rfl⟩)
    · split
      · rename_i t h; exact .inr (.inr (.inl ⟨t, h, rfl⟩))
      · rename_i t h; exact .inr (.inr (.inr (.inl ⟨t, h, rfl⟩)))
      · rename_i t x h; exact .inr (.inr (.inr (.inr ⟨t, x, h, rfl⟩)))

/-- A strand whose work has all finished holds back no entry. -/
theorem State.interlocked_none {s : State} (h : s.me.work = []) (e : Entry) (op : Nat) (f : Fields) :
    s.interlocked e op f = false := by
  simp [State.interlocked, Strand.tableFull, h]

/-- An entry that nothing holds back and whose body completes leaves the queue. -/
theorem State.serve_done {s t : State} {e : Entry} {op : Nat} {f : Fields} {body : Entry → State → Served}
    (hi : s.interlocked e op f = false) (hn : s.me.barred f = false)
    (hm : (op != 0xA3 && (namedV op f).any fun n => s.me.mirrors.any fun p => p.2 == n) = false)
    (hb : body e s = .done t) : s.serve e op f body = t.retire s.nextId := by
  unfold State.serve
  simp only [hi, hn, hm, hb, Bool.or_false, Bool.false_eq_true, if_false]

theorem State.serve_wf {s : State} {e : Entry} {op : Nat} {f : Fields} {body : Entry → State → Served}
    (h : Memory.wf s.mem = true) (hd : ∀ t, body e s = .done t → Memory.wf t.mem = true)
    (hw : ∀ t, body e s = .wait t → Memory.wf t.mem = true)
    (hx : ∀ t x, body e s = .stop t x → Memory.wf t.mem = true) : Memory.wf (s.serve e op f body).mem = true := by
  rcases State.serve_cases s e op f body with he | ⟨x, he⟩ | ⟨t, hb, he⟩ | ⟨t, hb, he⟩ | ⟨t, x, hb, he⟩ <;> rw [he]
  · exact h
  · exact State.takeFault_wf _ _ h
  · exact hd t hb
  · exact hw t hb
  · exact State.takeFault_wf _ _ (hx t x hb)

/-- An array-class word always answers a next state. -/
theorem runArray_next (op : BitVec 8) (f : Fields) (s : State) (body : Entry → State → Served) :
    ∃ t, runArray op f s body = .next t := by
  unfold runArray
  have he := State.enter_cases s op f
  split
  · split
    · exact ⟨_, rfl⟩
    · rcases he with ⟨_, t, _, h⟩ | h | ⟨_, h⟩ | ⟨_, h⟩ <;> rw [h] <;> exact ⟨_, rfl⟩
  · rcases he with ⟨_, t, _, h⟩ | h | ⟨_, h⟩ | ⟨_, h⟩ <;> rw [h] <;> exact ⟨_, rfl⟩

theorem runArray_wf {op : BitVec 8} {f : Fields} {s t : State} {body : Entry → State → Served}
    (h : runArray op f s body = .next t) (hs : Memory.wf s.mem = true)
    (hb : ∀ (e : Entry) (u : State), Memory.wf u.mem = true → (∀ v, body e u = .done v → Memory.wf v.mem = true) ∧
      (∀ v, body e u = .wait v → Memory.wf v.mem = true) ∧ ∀ v x, body e u = .stop v x → Memory.wf v.mem = true) :
    Memory.wf t.mem = true := by
  unfold runArray at h
  have he := State.enter_cases s op f
  have hq : ∀ (e : Entry) (u : State), Memory.wf u.mem = true → Memory.wf (u.serve e op.toNat f body).mem = true := fun e u hu =>
    State.serve_wf hu (hb e u hu).1 (hb e u hu).2.1 (hb e u hu).2.2
  split at h
  · split at h
    · cases h; exact hq _ _ hs
    · rcases he with ⟨_, u, hu, e⟩ | e | ⟨_, e⟩ | ⟨_, e⟩ <;> rw [e] at h <;> cases h
      · exact State.scalarFault_wf hu hs
      · exact hs
      · exact hs
      · exact hs
  · rcases he with ⟨_, u, hu, e⟩ | e | ⟨_, e⟩ | ⟨_, e⟩ <;> rw [e] at h <;> cases h
    · exact State.scalarFault_wf hu hs
    · exact hs
    · exact hs
    · exact hq _ _ hs

end Sys2Proof.Machine
end

