-- ==== Sys2Proof/Laws/PerInstr.lean ====
section
/-! SUPPORT. Per instruction: the opcode row of its word is the instruction itself. -/

namespace Sys2Proof.Laws.Row

/-- The row that the opcode table gives an instruction's own opcode and fields is that instruction. -/
def Statement (i : Instr) : Prop := ∀ op f, i.word = some (op, f) → i.formOk = true → instrOf op f = some i

theorem of_word {i : Instr} {op : BitVec 8} {f : Fields} (h : i.word = some (op, f))
    (r : i.formOk = true → instrOf op f = some i) : Statement i := by
  intro op' f' h' hf
  rw [h] at h'
  cases h'
  exact r hf

theorem of_none {i : Instr} (h : i.word = none) : Statement i := by
  intro op f h'
  simp [h] at h'

theorem add : ∀ f, Statement (.add f) := fun _ => of_word rfl fun _ => rfl
theorem sub : ∀ f, Statement (.sub f) := fun _ => of_word rfl fun _ => rfl
theorem addi : ∀ f, Statement (.addi f) := fun _ => of_word rfl fun _ => rfl
theorem mul : ∀ f, Statement (.mul f) := fun _ => of_word rfl fun _ => rfl
theorem mulh : ∀ f, Statement (.mulh f) := fun _ => of_word rfl fun _ => rfl
theorem mulhn : ∀ f, Statement (.mulhn f) := fun _ => of_word rfl fun _ => rfl
theorem div : ∀ f, Statement (.div f) := fun _ => of_word rfl fun _ => rfl
theorem divn : ∀ f, Statement (.divn f) := fun _ => of_word rfl fun _ => rfl
theorem rem : ∀ f, Statement (.rem f) := fun _ => of_word rfl fun _ => rfl
theorem remn : ∀ f, Statement (.remn f) := fun _ => of_word rfl fun _ => rfl
theorem and : ∀ f, Statement (.and f) := fun _ => of_word rfl fun _ => rfl
theorem or : ∀ f, Statement (.or f) := fun _ => of_word rfl fun _ => rfl
theorem xor : ∀ f, Statement (.xor f) := fun _ => of_word rfl fun _ => rfl
theorem andn : ∀ f, Statement (.andn f) := fun _ => of_word rfl fun _ => rfl
theorem shl : ∀ f, Statement (.shl f) := fun _ => of_word rfl fun _ => rfl
theorem shr : ∀ f, Statement (.shr f) := fun _ => of_word rfl fun _ => rfl
theorem shra : ∀ f, Statement (.shra f) := fun _ => of_word rfl fun _ => rfl
theorem rotl : ∀ f, Statement (.rotl f) := fun _ => of_word rfl fun _ => rfl
theorem clz : ∀ f, Statement (.clz f) := fun _ => of_word rfl fun _ => rfl
theorem ctz : ∀ f, Statement (.ctz f) := fun _ => of_word rfl fun _ => rfl
theorem popc : ∀ f, Statement (.popc f) := fun _ => of_word rfl fun _ => rfl
theorem clmul : ∀ f, Statement (.clmul f) := fun _ => of_word rfl fun _ => rfl
theorem min : ∀ f, Statement (.min f) := fun _ => of_word rfl fun _ => rfl
theorem max : ∀ f, Statement (.max f) := fun _ => of_word rfl fun _ => rfl
theorem minn : ∀ f, Statement (.minn f) := fun _ => of_word rfl fun _ => rfl
theorem maxn : ∀ f, Statement (.maxn f) := fun _ => of_word rfl fun _ => rfl
theorem sel : ∀ f, Statement (.sel f) := fun _ => of_word rfl fun _ => rfl
theorem cmp : ∀ f, Statement (.cmp f) := fun _ => of_word rfl fun _ => rfl
theorem cmpi : ∀ f, Statement (.cmpi f) := fun _ => of_word rfl fun _ => rfl
theorem qop : ∀ f, Statement (.qop f) := fun _ => of_word rfl fun _ => rfl
theorem li : ∀ f, Statement (.li f) := fun _ => of_word rfl fun _ => rfl
theorem lih : ∀ f, Statement (.lih f) := fun _ => of_word rfl fun _ => rfl
theorem ld : ∀ f, Statement (.ld f) := fun _ => of_word rfl fun _ => rfl
theorem st : ∀ f, Statement (.st f) := fun _ => of_word rfl fun _ => rfl
theorem fadd : ∀ f, Statement (.fadd f) := fun _ => of_word rfl fun _ => rfl
theorem fsub : ∀ f, Statement (.fsub f) := fun _ => of_word rfl fun _ => rfl
theorem fmul : ∀ f, Statement (.fmul f) := fun _ => of_word rfl fun _ => rfl
theorem ffma : ∀ f, Statement (.ffma f) := fun _ => of_word rfl fun _ => rfl
theorem fdiv : ∀ f, Statement (.fdiv f) := fun _ => of_word rfl fun _ => rfl
theorem fsqrt : ∀ f, Statement (.fsqrt f) := fun _ => of_word rfl fun _ => rfl
theorem fmin : ∀ f, Statement (.fmin f) := fun _ => of_word rfl fun _ => rfl
theorem fmax : ∀ f, Statement (.fmax f) := fun _ => of_word rfl fun _ => rfl
theorem fcmp : ∀ f, Statement (.fcmp f) := fun _ => of_word rfl fun _ => rfl
theorem fcvt : ∀ f, Statement (.fcvt f) := fun _ => of_word rfl fun _ => rfl
theorem br : ∀ f, Statement (.br f) := fun _ => of_word rfl fun _ => rfl
theorem jmp : ∀ f, Statement (.jmp f) := fun _ => of_word rfl fun _ => rfl
theorem jmpi : ∀ f, Statement (.jmpi f) := fun _ => of_word rfl fun _ => rfl
theorem call : ∀ f, Statement (.call f) := fun _ => of_word rfl fun _ => rfl
theorem ret : ∀ f, Statement (.ret f) := fun _ => of_word rfl fun _ => rfl
theorem gets : ∀ f, Statement (.gets f) := fun _ => of_word rfl fun _ => rfl
theorem sets : ∀ f, Statement (.sets f) := fun _ => of_word rfl fun _ => rfl
theorem trap : ∀ f, Statement (.trap f) := fun _ => of_word rfl fun _ => rfl
theorem yield : ∀ f, Statement (.yield f) := fun _ => of_word rfl fun _ => rfl
theorem halt : ∀ f, Statement (.halt f) := fun _ => of_word rfl fun _ => rfl
theorem nop : ∀ f, Statement (.nop f) := fun _ => of_word rfl fun _ => rfl
theorem brk : ∀ f, Statement (.brk f) := fun _ => of_word rfl fun _ => rfl
theorem enqueue : ∀ op f, Statement (.enqueue op f) := fun _ _ => of_none rfl
theorem queueOrderedAccess : Statement .queueOrderedAccess := of_none rfl
theorem setl : ∀ f, Statement (.setl f) := fun _ => of_word rfl fun _ => rfl
theorem setlWake : Statement .setlWake := of_none rfl
theorem vldTid : ∀ f, Statement (.vldTid f) := fun f => of_word rfl fun h => by
  simp only [Instr.formOk, beq_iff_eq] at h
  simp [instrOf, opRows, scalarRows, scalarRowsA, scalarRowsB, scalarRowsC, scalarRowsD, scalarRowsE, elementRows, elementRowsA,
    List.lookup, h]
theorem vldPtr : ∀ f, Statement (.vldPtr f) := fun f => of_word rfl fun h => by
  simp only [Instr.formOk, beq_iff_eq] at h
  simp [instrOf, opRows, scalarRows, scalarRowsA, scalarRowsB, scalarRowsC, scalarRowsD, scalarRowsE, elementRows, elementRowsA,
    List.lookup, h]
theorem vstTid : ∀ f, Statement (.vstTid f) := fun f => of_word rfl fun h => by
  simp only [Instr.formOk, beq_iff_eq] at h
  simp [instrOf, opRows, scalarRows, scalarRowsA, scalarRowsB, scalarRowsC, scalarRowsD, scalarRowsE, elementRows, elementRowsA,
    List.lookup, h]
theorem vstPtr : ∀ f, Statement (.vstPtr f) := fun f => of_word rfl fun h => by
  simp only [Instr.formOk, beq_iff_eq] at h
  simp [instrOf, opRows, scalarRows, scalarRowsA, scalarRowsB, scalarRowsC, scalarRowsD, scalarRowsE, elementRows, elementRowsA,
    List.lookup, h]
theorem vbc : ∀ f, Statement (.vbc f) := fun _ => of_word rfl fun _ => rfl
theorem vmov : ∀ f, Statement (.vmov f) := fun _ => of_word rfl fun _ => rfl
theorem viota : ∀ f, Statement (.viota f) := fun _ => of_word rfl fun _ => rfl
theorem vadd : ∀ f, Statement (.vadd f) := fun _ => of_word rfl fun _ => rfl
theorem vsub : ∀ f, Statement (.vsub f) := fun _ => of_word rfl fun _ => rfl
theorem vmul : ∀ f, Statement (.vmul f) := fun _ => of_word rfl fun _ => rfl
theorem vfma : ∀ f, Statement (.vfma f) := fun _ => of_word rfl fun _ => rfl
theorem vdiv : ∀ f, Statement (.vdiv f) := fun _ => of_word rfl fun _ => rfl
theorem vsqrt : ∀ f, Statement (.vsqrt f) := fun _ => of_word rfl fun _ => rfl
theorem vmin : ∀ f, Statement (.vmin f) := fun _ => of_word rfl fun _ => rfl
theorem vmax : ∀ f, Statement (.vmax f) := fun _ => of_word rfl fun _ => rfl
theorem vabs : ∀ f, Statement (.vabs f) := fun _ => of_word rfl fun _ => rfl
theorem vneg : ∀ f, Statement (.vneg f) := fun _ => of_word rfl fun _ => rfl
theorem vand : ∀ f, Statement (.vand f) := fun _ => of_word rfl fun _ => rfl
theorem vor : ∀ f, Statement (.vor f) := fun _ => of_word rfl fun _ => rfl
theorem vxor : ∀ f, Statement (.vxor f) := fun _ => of_word rfl fun _ => rfl
theorem vnot : ∀ f, Statement (.vnot f) := fun _ => of_word rfl fun _ => rfl
theorem vshl : ∀ f, Statement (.vshl f) := fun _ => of_word rfl fun _ => rfl
theorem vshr : ∀ f, Statement (.vshr f) := fun _ => of_word rfl fun _ => rfl
theorem vcmp : ∀ f, Statement (.vcmp f) := fun _ => of_word rfl fun _ => rfl
theorem vsel : ∀ f, Statement (.vsel f) := fun _ => of_word rfl fun _ => rfl
theorem vcvt : ∀ f, Statement (.vcvt f) := fun _ => of_word rfl fun _ => rfl
theorem vqnt : ∀ f, Statement (.vqnt f) := fun _ => of_word rfl fun _ => rfl
theorem vdqn : ∀ f, Statement (.vdqn f) := fun _ => of_word rfl fun _ => rfl
theorem vsfu : ∀ f, Statement (.vsfu f) := fun _ => of_word rfl fun _ => rfl
theorem vrcr : ∀ f, Statement (.vrcr f) := fun _ => of_word rfl fun _ => rfl
theorem mand : ∀ f, Statement (.mand f) := fun _ => of_word rfl fun _ => rfl
theorem mor : ∀ f, Statement (.mor f) := fun _ => of_word rfl fun _ => rfl
theorem mxor : ∀ f, Statement (.mxor f) := fun _ => of_word rfl fun _ => rfl
theorem mnot : ∀ f, Statement (.mnot f) := fun _ => of_word rfl fun _ => rfl
theorem mpop : ∀ f, Statement (.mpop f) := fun _ => of_word rfl fun _ => rfl
theorem mfirst : ∀ f, Statement (.mfirst f) := fun _ => of_word rfl fun _ => rfl
theorem mset : ∀ f, Statement (.mset f) := fun _ => of_word rfl fun _ => rfl
theorem vext : ∀ f, Statement (.vext f) := fun _ => of_word rfl fun _ => rfl
theorem vins : ∀ f, Statement (.vins f) := fun _ => of_word rfl fun _ => rfl
theorem shtag : ∀ f, Statement (.shtag f) := fun _ => of_word rfl fun _ => rfl
theorem shget : ∀ f, Statement (.shget f) := fun _ => of_word rfl fun _ => rfl
theorem red : ∀ f, Statement (.red f) := fun _ => of_word rfl fun _ => rfl
theorem scan : ∀ f, Statement (.scan f) := fun _ => of_word rfl fun _ => rfl
theorem grade : ∀ f, Statement (.grade f) := fun _ => of_word rfl fun _ => rfl
theorem rot : ∀ f, Statement (.rot f) := fun _ => of_word rfl fun _ => rfl
theorem rev : ∀ f, Statement (.rev f) := fun _ => of_word rfl fun _ => rfl
theorem take : ∀ f, Statement (.take f) := fun _ => of_word rfl fun _ => rfl
theorem drop : ∀ f, Statement (.drop f) := fun _ => of_word rfl fun _ => rfl
theorem reshape : ∀ f, Statement (.reshape f) := fun _ => of_word rfl fun _ => rfl
theorem cat : ∀ f, Statement (.cat f) := fun _ => of_word rfl fun _ => rfl
theorem outer : ∀ f, Statement (.outer f) := fun _ => of_word rfl fun _ => rfl
theorem transp : ∀ f, Statement (.transp f) := fun _ => of_word rfl fun _ => rfl
theorem compress : ∀ f, Statement (.compress f) := fun _ => of_word rfl fun _ => rfl
theorem expand : ∀ f, Statement (.expand f) := fun _ => of_word rfl fun _ => rfl
theorem gath : ∀ f, Statement (.gath f) := fun _ => of_word rfl fun _ => rfl
theorem scat : ∀ f, Statement (.scat f) := fun _ => of_word rfl fun _ => rfl
theorem scata : ∀ f, Statement (.scata f) := fun _ => of_word rfl fun _ => rfl
theorem idxof : ∀ f, Statement (.idxof f) := fun _ => of_word rfl fun _ => rfl
theorem repl : ∀ f, Statement (.repl f) := fun _ => of_word rfl fun _ => rfl
theorem pb : ∀ f, Statement (.pb f) := fun _ => of_word rfl fun _ => rfl
theorem fence : ∀ f, Statement (.fence f) := fun _ => of_word rfl fun _ => rfl
theorem lda : ∀ f, Statement (.lda f) := fun _ => of_word rfl fun _ => rfl
theorem amo : ∀ f, Statement (.amo f) := fun _ => of_word rfl fun _ => rfl
theorem amof : ∀ f, Statement (.amof f) := fun _ => of_word rfl fun _ => rfl
theorem sig : ∀ f, Statement (.sig f) := fun _ => of_word rfl fun _ => rfl
theorem waits : ∀ f, Statement (.waits f) := fun _ => of_word rfl fun _ => rfl
theorem waitsWake : Statement .waitsWake := of_none rfl
theorem waitsTimeout : Statement .waitsTimeout := of_none rfl
theorem waitv : ∀ f, Statement (.waitv f) := fun _ => of_word rfl fun _ => rfl
theorem waitvWake : Statement .waitvWake := of_none rfl
theorem waitvTimeout : Statement .waitvTimeout := of_none rfl
theorem barr : ∀ f, Statement (.barr f) := fun _ => of_word rfl fun _ => rfl
theorem barrierComplete : ∀ lid scope inst, Statement (.barrierComplete lid scope inst) := fun _ _ _ => of_none rfl
theorem claim : ∀ f, Statement (.claim f) := fun _ => of_word rfl fun _ => rfl
theorem publ : ∀ f, Statement (.publ f) := fun _ => of_word rfl fun _ => rfl
theorem copy : ∀ f, Statement (.copy f) := fun _ => of_word rfl fun _ => rfl
theorem pref : ∀ f, Statement (.pref f) := fun _ => of_word rfl fun _ => rfl
theorem send : ∀ f, Statement (.send f) := fun _ => of_word rfl fun _ => rfl
theorem cred : ∀ f, Statement (.cred f) := fun _ => of_word rfl fun _ => rfl
theorem cbcast : ∀ f, Statement (.cbcast f) := fun _ => of_word rfl fun _ => rfl
theorem tdef : ∀ f, Statement (.tdef f) := fun _ => of_word rfl fun _ => rfl
theorem tset : ∀ f, Statement (.tset f) := fun _ => of_word rfl fun _ => rfl
theorem tget : ∀ f, Statement (.tget f) := fun _ => of_word rfl fun _ => rfl
theorem mirr : ∀ f, Statement (.mirr f) := fun _ => of_word rfl fun _ => rfl
theorem xcan : ∀ f, Statement (.xcan f) := fun _ => of_word rfl fun _ => rfl
theorem taint : ∀ f, Statement (.taint f) := fun _ => of_word rfl fun _ => rfl
theorem matt : ∀ f, Statement (.matt f) := fun _ => of_word rfl fun _ => rfl
theorem mdet : ∀ f, Statement (.mdet f) := fun _ => of_word rfl fun _ => rfl
theorem pload : ∀ f, Statement (.pload f) := fun _ => of_word rfl fun _ => rfl
theorem ploadx : ∀ f, Statement (.ploadx f) := fun _ => of_word rfl fun _ => rfl
theorem mms : ∀ f, Statement (.mms f) := fun _ => of_word rfl fun _ => rfl
theorem mmr : ∀ f, Statement (.mmr f) := fun _ => of_word rfl fun _ => rfl
theorem matrixOpFinish : ∀ sid k merge, Statement (.matrixOpFinish sid k merge) := fun _ _ _ => of_none rfl
theorem zrd : ∀ f, Statement (.zrd f) := fun _ => of_word rfl fun _ => rfl
theorem zwr : ∀ f, Statement (.zwr f) := fun _ => of_word rfl fun _ => rfl
theorem zclr : ∀ f, Statement (.zclr f) := fun _ => of_word rfl fun _ => rfl
theorem scout : ∀ f, Statement (.scout f) := fun _ => of_word rfl fun _ => rfl
theorem check : ∀ f, Statement (.check f) := fun _ => of_word rfl fun _ => rfl
theorem drarm : ∀ f, Statement (.drarm f) := fun _ => of_word rfl fun _ => rfl
theorem spliceMove : ∀ f, Statement (.spliceMove f) := fun _ => of_none rfl
theorem scalarFaultReport : Statement .scalarFaultReport := of_none rfl
theorem arrayFaultReport : Statement .arrayFaultReport := of_none rfl
theorem watchdog : Statement .watchdog := of_none rfl
theorem launchAccept : ∀ vd die queue, Statement (.launchAccept vd die queue) := fun _ _ _ => of_none rfl
theorem launchPlacement : ∀ die, Statement (.launchPlacement die) := fun _ => of_none rfl
theorem preemptSave : ∀ sid, Statement (.preemptSave sid) := fun _ => of_none rfl
theorem strandResume : ∀ sid, Statement (.strandResume sid) := fun _ => of_none rfl
theorem strandFinish : ∀ sid, Statement (.strandFinish sid) := fun _ => of_none rfl
theorem serialReexecution : ∀ vd, Statement (.serialReexecution vd) := fun _ => of_none rfl
theorem cancelResolve : ∀ k, Statement (.cancelResolve k) := fun _ => of_none rfl
theorem agingStep : ∀ lid, Statement (.agingStep lid) := fun _ => of_none rfl
theorem engineFinish : ∀ sid k how data, Statement (.engineFinish sid k how data) := fun _ _ _ _ => of_none rfl
theorem caravanElement : ∀ p, Statement (.caravanElement p) := fun _ => of_none rfl
theorem caravanTail : ∀ p, Statement (.caravanTail p) := fun _ => of_none rfl
theorem credCombine : ∀ vd gid seq remote, Statement (.credCombine vd gid seq remote) := fun _ _ _ _ => of_none rfl
theorem cbcastDeliver : ∀ vd gid seq remote, Statement (.cbcastDeliver vd gid seq remote) := fun _ _ _ _ => of_none rfl
theorem peerHomeAction : ∀ p, Statement (.peerHomeAction p) := fun _ => of_none rfl
theorem walkComplete : ∀ die cluster, Statement (.walkComplete die cluster) := fun _ _ => of_none rfl
theorem tlbInvalidate : ∀ vd va, Statement (.tlbInvalidate vd va) := fun _ _ => of_none rfl
theorem cacheFill : ∀ p, Statement (.cacheFill p) := fun _ => of_none rfl
theorem planeParityRefetch : ∀ lid die cluster slot column, Statement (.planeParityRefetch lid die cluster slot column) := fun _ _ _ _ _ => of_none rfl
theorem uncorrectableError : ∀ t, Statement (.uncorrectableError t) := fun _ => of_none rfl
theorem correctedError : ∀ die unit, Statement (.correctedError die unit) := fun _ _ => of_none rfl
theorem fieldRepair : ∀ die unit, Statement (.fieldRepair die unit) := fun _ _ => of_none rfl
theorem priv : ∀ vd level need access, Statement (.priv vd level need access) := fun _ _ _ _ => of_none rfl
theorem firmwareLoss : Statement .firmwareLoss := of_none rfl
theorem write : ∀ m, Statement (.write m) := fun _ => of_none rfl
theorem read : ∀ m, Statement (.read m) := fun _ => of_none rfl
theorem kick : ∀ m, Statement (.kick m) := fun _ => of_none rfl
theorem token : ∀ m, Statement (.token m) := fun _ => of_none rfl
theorem close : ∀ m, Statement (.close m) := fun _ => of_none rfl
theorem batchClose : ∀ port vd, Statement (.batchClose port vd) := fun _ _ => of_none rfl
theorem droverSpawn : ∀ die, Statement (.droverSpawn die) := fun _ => of_none rfl
theorem droverCombine : ∀ die k, Statement (.droverCombine die k) := fun _ _ => of_none rfl
theorem noticeSend : ∀ vd die queue, Statement (.noticeSend vd die queue) := fun _ _ _ => of_none rfl
theorem tollWindow : ∀ die, Statement (.tollWindow die) := fun _ => of_none rfl
theorem slewWindow : Statement .slewWindow := of_none rfl
theorem clusterEnable : Statement .clusterEnable := of_none rfl
theorem powerUpReset : Statement .powerUpReset := of_none rfl
theorem restartStagger : ∀ vd job t, Statement (.restartStagger vd job t) := fun _ _ _ => of_none rfl
theorem staggerExpire : ∀ vd job die, Statement (.staggerExpire vd job die) := fun _ _ _ => of_none rfl
theorem createVd : ∀ m, Statement (.createVd m) := fun _ => of_none rfl
theorem destroyVd : ∀ m, Statement (.destroyVd m) := fun _ => of_none rfl
theorem lock : ∀ m, Statement (.lock m) := fun _ => of_none rfl
theorem start : ∀ m, Statement (.start m) := fun _ => of_none rfl
theorem unlock : ∀ m, Statement (.unlock m) := fun _ => of_none rfl
theorem setToll : ∀ m, Statement (.setToll m) := fun _ => of_none rfl
theorem setWayRange : ∀ m, Statement (.setWayRange m) := fun _ => of_none rfl
theorem setFaultPolicy : ∀ m, Statement (.setFaultPolicy m) := fun _ => of_none rfl
theorem setPeerTable : ∀ m, Statement (.setPeerTable m) := fun _ => of_none rfl
theorem loadRoutingContext : ∀ m, Statement (.loadRoutingContext m) := fun _ => of_none rfl
theorem setFaultQueue : ∀ m, Statement (.setFaultQueue m) := fun _ => of_none rfl
theorem readCounters : ∀ m, Statement (.readCounters m) := fun _ => of_none rfl
theorem attestationReport : ∀ m, Statement (.attestationReport m) := fun _ => of_none rfl
theorem cancelCommand : ∀ m, Statement (.cancelCommand m) := fun _ => of_none rfl
theorem transferOwnership : ∀ m, Statement (.transferOwnership m) := fun _ => of_none rfl
theorem setSlope : ∀ m, Statement (.setSlope m) := fun _ => of_none rfl
theorem boot : ∀ m, Statement (.boot m) := fun _ => of_none rfl
theorem resume : ∀ m, Statement (.resume m) := fun _ => of_none rfl
theorem planeLoadFinish : ∀ sid k, Statement (.planeLoadFinish sid k) := fun _ _ => of_none rfl
theorem copyPeerAccess : ∀ p, Statement (.copyPeerAccess p) := fun _ => of_none rfl

end Sys2Proof.Laws.Row
end

