-- ==== Sys2Proof/Tests/Slice0.lean ====
section
/-! SUPPORT. Tests: the smoke tests of WellFormed, words written out from the encoding tables, single steps, and for each
statement with hypotheses a state that meets them. -/

namespace Sys2Proof.Tests

open Sys2Proof Sys2Proof.Machine

set_option Elab.async false

theorem test_reset_memory : Memory.wf State.reset.mem = true := by decide

/-- A running strand of virtual device 1, with addresses in g1, g8 and g31. -/
def base : State :=
  ((((State.reset.bench.setG 1 { val := 0x20000 }).setG 2 { val := 7 }).setG 8 { val := 0x20001 }).setG 9
    { val := 0x0100000000000000 }).setG 31 { val := 0x30010 }
def f0 : Fields := { d := 3, a := 1, b := 2, c := 4 }
/-- `base` with sixteen bytes at the stack pointer: a call frame, or with TF a trap frame. -/
def framed (w : Nat) (hnd : Bool) : State :=
  { base with mem := memWrite (memWrite base.mem 0x30010 8 0x10040) 0x30018 8 w, me := { base.me with hnd := hnd } }
def queued : State := { base with me := { base.me with queue := [{ word := packWord 0x98 {} }] } }
/-- A word at the PC. -/
def loaded (w : Nat) : State := base.withFetchWord 128 w


/-- `base` with ROWS 2 and COLS 2, two array registers of shape (2), a 2 × 2 mask, and an identifier of shape (2) at 0x40000. -/
def arrays : State :=
  { base with me := { base.me with
      rows := 2, cols := 2
      v := ((base.me.v.set 1 { shape := [2], buf := 0x400000003F800000 }).set 2 { shape := [2], buf := 0x100000000 }).set 4 { shape := [1], buf := 127 }
      m := base.me.m.set 1 { shape := [2], buf := 2 }
      t := (base.me.t.set 1 (BitVec.ofNat 1024 (2 ^ 103 + 2 ^ 61 + 2 <<< 128 + 1 <<< 320 + 0x40000))).set 2
        (BitVec.ofNat 1024 (2 ^ 103 + 2 ^ 62 + 2 <<< 128 + 2 <<< 160 + 4 <<< 320 + 1 <<< 384 + 0x50000)) } }

/-! ### One ill-formed term for each check of WellFormed -/

theorem test_refuse_short : (decode [1, 2, 3]).toOption = none := by decide
theorem test_refuse_opcode : legalityError 0x00 {} = some .reservedOpcode ∧ legalityError 0xC0 {} = some .reservedOpcode := by decide
theorem test_refuse_fn : legalityError 0x01 { d := 1, a := 1, b := 1, fn := 1 } = some .unassignedFn := by decide
theorem test_refuse_slot : legalityError 0x01 { d := 32, a := 1, b := 1 } = some .slotClass := by decide
theorem test_refuse_mask : legalityError 0x01 { d := 1, a := 1, b := 1, gm := 1 } = some .maskField := by decide
theorem test_refuse_rank : legalityError 0x01 { d := 1, a := 1, b := 1, rk := 1 } = some .rankField := by decide
theorem test_refuse_format : legalityError 0x46 { d := 1, a := 1, b := 1, fmt := 23 } = some .formatField := by decide
theorem test_refuse_rounding : legalityError 0x46 { d := 1, a := 1, b := 1, rnd := 7 } = some .roundingField := by decide
theorem test_refuse_flush : legalityError 0x01 { d := 1, a := 1, b := 1, fsi := true } = some .flushField := by decide
theorem test_refuse_saturate : legalityError 0x01 { d := 1, a := 1, b := 1, sat := true } = some .saturateField := by decide
theorem test_refuse_hint : legalityError 0x23 { d := 1, a := 1, hint := 5 } = some .hintField := by decide
theorem test_refuse_sched : legalityError 0x01 { d := 1, a := 1, b := 1, sched := 1 } = some .schedField := by decide
theorem test_refuse_immediate : legalityError 0x01 { d := 1, a := 1, b := 1, imm := 1 } = some .immediateField := by decide
/-- VQNT may not write mantissas and scales to one register (R212). -/
theorem test_refuse_rule : legalityError 0x59 { d := 3, a := 1, b := 3, fmt := 20 } = some .instructionRule := by decide
/-- The pointer form's FN in the constructor of the TID form is refused (R197). -/
theorem test_refuse_form : (Instr.vldTid { d := 1, a := 1, fn := 1 }).wellFormed = false := by decide

/-! ### Single steps, with results worked out from the rules -/

/-- 5 + 7 (R159). -/
theorem test_add : (match exec (.add { d := 3, a := 1, b := 2 }) ((base.setG 1 { val := 5 }).setG 2 { val := 7 }) with
    | .next t => (t.me.getG 3).val == 12
    | _ => false) = true := by decide
/-- ADDI g3, g0, 5 as the first word after reset (R160). -/
theorem test_step_addi : (match step (State.reset.withFetchWord 128 0x030C0000000000000000000000000005) with
    | .next t => (t.me.getG 3).val == 5
    | _ => false) = true := by decide
/-- The sums 1 + 3 and 7 + 5 of two 32-bit integer elements (R207). -/
theorem test_vadd : (match exec (.vadd { d := 3, a := 1, b := 2, fmt := 7 })
      ((base.setV 1 { shape := [2], buf := 0x500000003 }).setV 2 { shape := [2], buf := 0x700000001 }) with
    | .next t => (t.me.getV 3).buf == 0xC00000004
    | _ => false) = true := by decide

/-! ### Words written out from the encoding tables (R90, R105 to R109) -/

theorem test_decode_scalar_integer :
    decodeWord 0x010C1080000000000000000000000000#128 = .ok (.add { d := 3, a := 1, b := 2 }) ∧
    decodeWord 0x020C1080000000000000000000000000#128 = .ok (.sub { d := 3, a := 1, b := 2 }) ∧
    decodeWord 0x030C1000000000000000FFFFFFFFFFFB#128 = .ok (.addi { d := 3, a := 1, imm := 0xfffffffffffb }) ∧
    decodeWord 0x040C1080000000000000000000000000#128 = .ok (.mul { d := 3, a := 1, b := 2 }) ∧
    decodeWord 0x050C1080000000000000000000000000#128 = .ok (.mulh { d := 3, a := 1, b := 2 }) ∧
    decodeWord 0x060C1080000000000000000000000000#128 = .ok (.mulhn { d := 3, a := 1, b := 2 }) ∧
    decodeWord 0x070C1080000000000000000000000000#128 = .ok (.div { d := 3, a := 1, b := 2 }) ∧
    decodeWord 0x080C1080000000000000000000000000#128 = .ok (.divn { d := 3, a := 1, b := 2 }) ∧
    decodeWord 0x090C1080000000000000000000000000#128 = .ok (.rem { d := 3, a := 1, b := 2 }) ∧
    decodeWord 0x0A0C1080000000000000000000000000#128 = .ok (.remn { d := 3, a := 1, b := 2 }) ∧
    decodeWord 0x0B0C1080000000000000000000000000#128 = .ok (.and { d := 3, a := 1, b := 2 }) ∧
    decodeWord 0x0C0C1080000000000000000000000000#128 = .ok (.or { d := 3, a := 1, b := 2 }) ∧
    decodeWord 0x0D0C1080000000000000000000000000#128 = .ok (.xor { d := 3, a := 1, b := 2 }) ∧
    decodeWord 0x0E0C1080000000000000000000000000#128 = .ok (.andn { d := 3, a := 1, b := 2 }) ∧
    decodeWord 0x0F0C1080000000000000000000000000#128 = .ok (.shl { d := 3, a := 1, b := 2 }) ∧
    decodeWord 0x100C1080000000000000000000000000#128 = .ok (.shr { d := 3, a := 1, b := 2 }) ∧
    decodeWord 0x110C1080000000000000000000000000#128 = .ok (.shra { d := 3, a := 1, b := 2 }) ∧
    decodeWord 0x120C1080000000000000000000000000#128 = .ok (.rotl { d := 3, a := 1, b := 2 }) ∧
    decodeWord 0x130DF000000000000000000000000000#128 = .ok (.clz { d := 3, a := 31 }) ∧
    decodeWord 0x140DF000000000000000000000000000#128 = .ok (.ctz { d := 3, a := 31 }) ∧
    decodeWord 0x150DF000000000000000000000000000#128 = .ok (.popc { d := 3, a := 31 }) ∧
    decodeWord 0x167C1080000000000000000000000000#128 = .ok (.clmul { d := 31, a := 1, b := 2 }) ∧
    decodeWord 0x177C1080000000000000000000000000#128 = .ok (.min { d := 31, a := 1, b := 2 }) ∧
    decodeWord 0x187C1080000000000000000000000000#128 = .ok (.max { d := 31, a := 1, b := 2 }) ∧
    decodeWord 0x197C1080000000000000000000000000#128 = .ok (.minn { d := 31, a := 1, b := 2 }) ∧
    decodeWord 0x1A7C1080000000000000000000000000#128 = .ok (.maxn { d := 31, a := 1, b := 2 }) :=
  ⟨rfl, rfl, rfl, rfl, rfl, rfl, rfl, rfl, rfl, rfl, rfl, rfl, rfl, rfl, rfl, rfl, rfl, rfl, rfl, rfl, rfl, rfl, rfl, rfl, rfl, rfl⟩

theorem test_decode_scalar_select :
    decodeWord 0x1B0C7089000000000000000000000000#128 = .ok (.sel { d := 3, a := 7, b := 2, c := 9 }) ∧
    decodeWord 0x1C1C108002C000000009000000000000#128 = .ok (.cmp { d := 7, a := 1, b := 2, fn := 9, gs := 11 }) ∧
    decodeWord 0x1D081000000000000003FFFFFFFFFFFF#128 = .ok (.cmpi { d := 2, a := 1, fn := 3, imm := 0xffffffffffff }) ∧
    decodeWord 0x1E0811C000000000000D000000000000#128 = .ok (.qop { d := 2, a := 1, b := 7, fn := 13 }) ∧
    decodeWord 0x211000000000000000007FFF12345678#128 = .ok (.li { d := 4, imm := 0x7fff12345678 }) ∧
    decodeWord 0x2210400000000000000000000000FFFF#128 = .ok (.lih { d := 4, a := 4, imm := 0xffff }) ∧
    decodeWord 0x23146000000000040006FFFFFFFFFFF8#128 = .ok (.ld { d := 5, a := 6, fn := 6, imm := 0xfffffffffff8, hint := 4 }) ∧
    decodeWord 0x24146000000000000003000000000010#128 = .ok (.st { d := 5, a := 6, fn := 3, imm := 16 }) :=
  ⟨rfl, rfl, rfl, rfl, rfl, rfl, rfl, rfl⟩

theorem test_decode_scalar_float :
    decodeWord 0x250C1080000000C00000000000000000#128 = .ok (.fadd { rnd := 1, fsi := true, d := 3, a := 1, b := 2 }) ∧
    decodeWord 0x260C1080000000C00000000000000000#128 = .ok (.fsub { rnd := 1, fsi := true, d := 3, a := 1, b := 2 }) ∧
    decodeWord 0x270C1080000000C00000000000000000#128 = .ok (.fmul { rnd := 1, fsi := true, d := 3, a := 1, b := 2 }) ∧
    decodeWord 0x280C1084000003200000000000000000#128 = .ok (.ffma { d := 3, a := 1, b := 2, c := 4, rnd := 6, fso := true }) ∧
    decodeWord 0x290C1080000001800000000000000000#128 = .ok (.fdiv { rnd := 3, d := 3, a := 1, b := 2 }) ∧
    decodeWord 0x2A0C1000000002000000000000000000#128 = .ok (.fsqrt { d := 3, a := 1, rnd := 4 }) ∧
    decodeWord 0x2B0C1080000000400000000000000000#128 = .ok (.fmin { fsi := true, d := 3, a := 1, b := 2 }) ∧
    decodeWord 0x2C0C1080000000200000000000000000#128 = .ok (.fmax { fso := true, d := 3, a := 1, b := 2 }) ∧
    decodeWord 0x2D0C1080000000000006000000000000#128 = .ok (.fcmp { d := 3, a := 1, b := 2, fn := 6 }) ∧
    decodeWord 0x2E0C1000000001100088000000000000#128 = .ok (.fcvt { d := 3, a := 1, fn := 0x88, rnd := 2, sat := true }) :=
  ⟨rfl, rfl, rfl, rfl, rfl, rfl, rfl, rfl, rfl, rfl⟩

theorem test_decode_scalar_control :
    decodeWord 0x300000000080000000000000FFFFFFFE#128 = .ok (.br { imm := 0xfffffffe, gs := 2 }) ∧
    decodeWord 0x31000000000000000000000000010000#128 = .ok (.jmp { imm := 0x10000 }) ∧
    decodeWord 0x32009000000000000000000000000000#128 = .ok (.jmpi { a := 9 }) ∧
    decodeWord 0x3300000000000000000000000000000C#128 = .ok (.call { imm := 12 }) ∧
    decodeWord 0x34000000000000000000000000000000#128 = .ok (.ret {}) ∧
    decodeWord 0x380C000000000000001E000000000000#128 = .ok (.gets { d := 3, fn := 30 }) ∧
    decodeWord 0x39003000000000000005000000000000#128 = .ok (.sets { a := 3, fn := 5 }) ∧
    decodeWord 0x3A00000000000000000000000000FFFF#128 = .ok (.trap { imm := 0xffff }) ∧
    decodeWord 0x3B000000000000000000000000000000#128 = .ok (.yield {}) ∧
    decodeWord 0x3C000000024000000000000000000000#128 = .ok (.halt { gs := 9 }) ∧
    decodeWord 0x3D000000000000000000000000000000#128 = .ok (.nop {}) ∧
    decodeWord 0x3E000000000000000000000000000001#128 = .ok (.brk { imm := 1 }) :=
  ⟨rfl, rfl, rfl, rfl, rfl, rfl, rfl, rfl, rfl, rfl, rfl, rfl⟩

theorem test_decode_elementwise :
    decodeWord 0x401841470000000000010003000000A8#128 = .ok (.setl { d := 6, a := 4, b := 5, c := 7, fn := 1, imm := 0x3000000a8 }) ∧
    decodeWord 0x4103F042002400020000000000000000#128 = .ok (.vldTid { d := 0, a := 63, b := 1, c := 2, gm := 9, hint := 2 }) ∧
    decodeWord 0x410082407C0050000001000000000000#128 = .ok (.vldPtr { d := 0, a := 8, b := 9, fmt := 20, e := 31, fn := 1 }) ∧
    decodeWord 0x4204100000000C000000000000000000#128 = .ok (.vstTid { d := 1, a := 1, b := 0, c := 0, fmt := 3 }) ∧
    decodeWord 0x42048240000034000001000000000007#128 = .ok (.vstPtr { d := 1, a := 8, b := 9, fmt := 13, fn := 1, imm := 7 }) ∧
    decodeWord 0x430C100000001C000000000000000000#128 = .ok (.vbc { d := 3, a := 1, fmt := 7 }) ∧
    decodeWord 0x440C1000000050000000000000000000#128 = .ok (.vmov { d := 3, a := 1, fmt := 20 }) ∧
    decodeWord 0x450C000000001C100000000000000000#128 = .ok (.viota { d := 3, fmt := 7, sat := true }) ∧
    decodeWord 0x460C1080000080000002000000000000#128 = .ok (.vadd { rk := 1, fn := 2, d := 3, a := 1, b := 2 }) ∧
    decodeWord 0x470C1080000080000002000000000000#128 = .ok (.vsub { rk := 1, fn := 2, d := 3, a := 1, b := 2 }) ∧
    decodeWord 0x480C1080000080000002000000000000#128 = .ok (.vmul { rk := 1, fn := 2, d := 3, a := 1, b := 2 }) ∧
    decodeWord 0x490C1084000382800005000000000000#128 = .ok (.vfma { d := 3, a := 1, b := 2, c := 4, fn := 5, rnd := 5, rk := 7 }) ∧
    decodeWord 0x4A0C108000001C000000000000000000#128 = .ok (.vdiv { fmt := 7, d := 3, a := 1, b := 2 }) ∧
    decodeWord 0x4B0C1000000000000000000000000000#128 = .ok (.vsqrt { d := 3, a := 1 }) ∧
    decodeWord 0x4C0C108000002C000000000000000000#128 = .ok (.vmin { fmt := 11, d := 3, a := 1, b := 2 }) ∧
    decodeWord 0x4D0C108000002C000000000000000000#128 = .ok (.vmax { fmt := 11, d := 3, a := 1, b := 2 }) ∧
    decodeWord 0x4E0C100000001C000000000000000000#128 = .ok (.vabs { d := 3, a := 1, fmt := 7 }) ∧
    decodeWord 0x4F0C100000001C000000000000000000#128 = .ok (.vneg { d := 3, a := 1, fmt := 7 }) :=
  ⟨rfl, rfl, rfl, rfl, rfl, rfl, rfl, rfl, rfl, rfl, rfl, rfl, rfl, rfl, rfl, rfl, rfl, rfl⟩

theorem test_decode_elementwise_2 :
    decodeWord 0x500C108000001C000000000000000000#128 = .ok (.vand { fmt := 7, d := 3, a := 1, b := 2 }) ∧
    decodeWord 0x510C108000001C000000000000000000#128 = .ok (.vor { fmt := 7, d := 3, a := 1, b := 2 }) ∧
    decodeWord 0x520C108000001C000000000000000000#128 = .ok (.vxor { fmt := 7, d := 3, a := 1, b := 2 }) ∧
    decodeWord 0x530C100000001C000000000000000000#128 = .ok (.vnot { d := 3, a := 1, fmt := 7 }) ∧
    decodeWord 0x540C108000001C000000000000000000#128 = .ok (.vshl { fmt := 7, d := 3, a := 1, b := 2 }) ∧
    decodeWord 0x550C108000001C00000A000000000000#128 = .ok (.vshr { fmt := 7, fn := 10, d := 3, a := 1, b := 2 }) ∧
    decodeWord 0x561C1080000000000061000000000000#128 = .ok (.vcmp { d := 7, a := 1, b := 2, fn := 97 }) ∧
    decodeWord 0x570C7084000000000006000000000000#128 = .ok (.vsel { d := 3, a := 7, b := 2, c := 4, fn := 6 }) ∧
    decodeWord 0x580C1000000000000007000000000000#128 = .ok (.vcvt { d := 3, a := 1, fn := 7 }) ∧
    decodeWord 0x590C1080000050000000000000000000#128 = .ok (.vqnt { d := 3, a := 1, b := 2, fmt := 20, fn := 0 }) ∧
    decodeWord 0x5A0C1080000000000014000000000000#128 = .ok (.vdqn { d := 3, a := 1, b := 2, fmt := 0, fn := 20 }) ∧
    decodeWord 0x5B0C1000000000000009000000000000#128 = .ok (.vsfu { d := 3, a := 1, fn := 9 }) ∧
    decodeWord 0x5C0C1080000000000000000000000000#128 = .ok (.vrcr { d := 3, a := 1, b := 2 }) ∧
    decodeWord 0x5D0C1080000000000000000000000000#128 = .ok (.mand { d := 3, a := 1, b := 2 }) ∧
    decodeWord 0x5E0C1080000000000000000000000000#128 = .ok (.mor { d := 3, a := 1, b := 2 }) ∧
    decodeWord 0x5F0C1080000000000000000000000000#128 = .ok (.mxor { d := 3, a := 1, b := 2 }) ∧
    decodeWord 0x600C7000000000000000000000000000#128 = .ok (.mnot { d := 3, a := 7 }) ∧
    decodeWord 0x617C7000000000000000000000000000#128 = .ok (.mpop { d := 31, a := 7 }) ∧
    decodeWord 0x627C7000000000000000000000000000#128 = .ok (.mfirst { d := 31, a := 7 }) ∧
    decodeWord 0x630C1080000000000001000000000000#128 = .ok (.mset { d := 3, a := 1, b := 2, fn := 1 }) ∧
    decodeWord 0x640C108000001C000000000000000000#128 = .ok (.vext { fmt := 7, d := 3, a := 1, b := 2 }) ∧
    decodeWord 0x650C108000001C000000000000000000#128 = .ok (.vins { fmt := 7, d := 3, a := 1, b := 2 }) ∧
    decodeWord 0x660C108000001C000000000000000002#128 = .ok (.shtag { d := 3, a := 1, b := 2, fmt := 7, imm := 2 }) ∧
    decodeWord 0x670C1000000000000050000000000000#128 = .ok (.shget { d := 3, a := 1, fn := 80 }) :=
  ⟨rfl, rfl, rfl, rfl, rfl, rfl, rfl, rfl, rfl, rfl, rfl, rfl, rfl, rfl, rfl, rfl, rfl, rfl, rfl, rfl, rfl, rfl, rfl, rfl⟩

theorem test_decode_structural :
    decodeWord 0x700C1000000000000040000000000000#128 = .ok (.red { d := 3, a := 1, fn := 64 }) ∧
    decodeWord 0x710C1000000000000040000000000000#128 = .ok (.scan { d := 3, a := 1, fn := 64 }) ∧
    decodeWord 0x720C1000000000000008000000000000#128 = .ok (.grade { d := 3, a := 1, fn := 8 }) ∧
    decodeWord 0x73FC1080000000000001000000000000#128 = .ok (.rot { d := 63, a := 1, b := 2, fn := 1 }) ∧
    decodeWord 0x740FF000000000000002000000000000#128 = .ok (.rev { d := 3, a := 63, fn := 2 }) ∧
    decodeWord 0x750C1080000000000000000000000000#128 = .ok (.take { d := 3, a := 1, b := 2 }) ∧
    decodeWord 0x760C1080000000000000000000000000#128 = .ok (.drop { d := 3, a := 1, b := 2 }) ∧
    decodeWord 0x770C1080000000000000000000000000#128 = .ok (.reshape { d := 3, a := 1, b := 2 }) ∧
    decodeWord 0x780C1FC0000000000004000000000000#128 = .ok (.cat { d := 3, a := 1, b := 63, fn := 4 }) ∧
    decodeWord 0x790C1080000000000058000000000000#128 = .ok (.outer { d := 3, a := 1, b := 2, fn := 88 }) ∧
    decodeWord 0x7A0C1000000000000000000000000001#128 = .ok (.transp { d := 3, a := 1, imm := 1 }) ∧
    decodeWord 0x7B0C11C07C0000000000000000000000#128 = .ok (.compress { d := 3, a := 1, b := 7, e := 31 }) ∧
    decodeWord 0x7C0C11C0000000000000000000000000#128 = .ok (.expand { d := 3, a := 1, b := 7 }) ∧
    decodeWord 0x7D0C1080000000000000000000000000#128 = .ok (.gath { d := 3, a := 1, b := 2 }) ∧
    decodeWord 0x7E0C1080000000000000000000000000#128 = .ok (.scat { d := 3, a := 1, b := 2 }) ∧
    decodeWord 0x7F0C108000001C000018000000000000#128 = .ok (.scata { d := 3, a := 1, b := 2, fn := 24, fmt := 7 }) ∧
    decodeWord 0x800C1080000000000000000000000000#128 = .ok (.idxof { d := 3, a := 1, b := 2 }) ∧
    decodeWord 0x810C1080000000000000000000000000#128 = .ok (.repl { d := 3, a := 1, b := 2 }) :=
  ⟨rfl, rfl, rfl, rfl, rfl, rfl, rfl, rfl, rfl, rfl, rfl, rfl, rfl, rfl, rfl, rfl, rfl, rfl⟩

theorem test_decode_synchronisation :
    decodeWord 0x9000000000000000001C000000000000#128 = .ok (.pb { fn := 28 }) ∧
    decodeWord 0x91000000000000000003000000000000#128 = .ok (.fence { fn := 3 }) ∧
    decodeWord 0x920C1000000000000014000000000004#128 = .ok (.lda { d := 3, a := 1, fn := 20, imm := 4 }) ∧
    decodeWord 0x930C10840000000000F8000000000003#128 = .ok (.amo { d := 3, a := 1, b := 2, c := 4, fn := 0xf8, imm := 3 }) ∧
    decodeWord 0x940C1080000000000008000000000002#128 = .ok (.amof { d := 3, a := 1, b := 2, fn := 8, imm := 2 }) ∧
    decodeWord 0x9500108000000000000C000000000000#128 = .ok (.sig { a := 1, b := 2, fn := 12 }) ∧
    decodeWord 0x961C1084000000000004000000000000#128 = .ok (.waits { d := 7, a := 1, b := 2, c := 4, fn := 4 }) ∧
    decodeWord 0x971C1084000000000000000000000000#128 = .ok (.waitv { d := 7, a := 1, b := 2, c := 4 }) ∧
    decodeWord 0x98000000000000000003000000000000#128 = .ok (.barr { fn := 3 }) ∧
    decodeWord 0x990C1080000000000000000000000000#128 = .ok (.claim { d := 3, a := 1, b := 2 }) ∧
    decodeWord 0x9A001080000000000004000000000000#128 = .ok (.publ { a := 1, b := 2, fn := 4 }) ∧
    decodeWord 0x9B0C1FC0000000000001000000000000#128 = .ok (.copy { d := 3, a := 1, b := 63, fn := 1 }) ∧
    decodeWord 0x9C03F042000000040001000000000000#128 = .ok (.pref { a := 63, b := 1, c := 2, fn := 1, hint := 4 }) ∧
    decodeWord 0x9D0FF080000000000000000000000000#128 = .ok (.send { d := 3, a := 63, b := 2 }) ∧
    decodeWord 0x9E0C1FC4000000000050000000000000#128 = .ok (.cred { d := 3, a := 1, b := 63, c := 4, fn := 80 }) ∧
    decodeWord 0x9F0FF084000000000000000000000000#128 = .ok (.cbcast { d := 3, a := 63, b := 2, c := 4 }) ∧
    decodeWord 0xA0FC1000000000000000000000000000#128 = .ok (.tdef { d := 63, a := 1 }) ∧
    decodeWord 0xA1FC1000000000000017000000000000#128 = .ok (.tset { d := 63, a := 1, fn := 23 }) ∧
    decodeWord 0xA20FF000000000000000000000000000#128 = .ok (.tget { d := 3, a := 63, fn := 0 }) ∧
    decodeWord 0xA30C1000000000000000000000000000#128 = .ok (.mirr { d := 3, a := 1 }) ∧
    decodeWord 0xA4000000000000000004000000000000#128 = .ok (.xcan { fn := 4 }) ∧
    decodeWord 0xA51C1000000000000002000000000000#128 = .ok (.taint { d := 7, a := 1, fn := 2 }) :=
  ⟨rfl, rfl, rfl, rfl, rfl, rfl, rfl, rfl, rfl, rfl, rfl, rfl, rfl, rfl, rfl, rfl, rfl, rfl, rfl, rfl, rfl, rfl⟩

theorem test_decode_matrix :
    decodeWord 0xB0001000000000000000000000000000#128 = .ok (.matt { a := 1 }) ∧
    decodeWord 0xB1000000000000000000000000000000#128 = .ok (.mdet {}) ∧
    decodeWord 0xB203F040000000000014000000000000#128 = .ok (.pload { a := 63, b := 1, fn := 20 }) ∧
    decodeWord 0xB303F04200000000000E000000000000#128 = .ok (.ploadx { a := 63, b := 1, c := 2, fn := 14 }) ∧
    decodeWord 0xB43C108400000000000000000005037F#128 = .ok (.mms { d := 15, a := 1, b := 2, c := 4, imm := 0x5037f }) ∧
    decodeWord 0xB53C108400000000000000000005037F#128 = .ok (.mmr { d := 15, a := 1, b := 2, c := 4, imm := 0x5037f }) ∧
    decodeWord 0xB60CF080000000000000000000000000#128 = .ok (.zrd { d := 3, a := 15, b := 2 }) ∧
    decodeWord 0xB73C1080000004000000000000000000#128 = .ok (.zwr { d := 15, a := 1, b := 2, fmt := 1 }) ∧
    decodeWord 0xB83C0000000000000000000000000000#128 = .ok (.zclr { d := 15 }) ∧
    decodeWord 0xB90C10007C0000000000000000000000#128 = .ok (.scout { d := 3, a := 1, e := 31 }) ∧
    decodeWord 0xBA3C1084000000000000000000000000#128 = .ok (.check { d := 15, a := 1, b := 2, c := 4 }) ∧
    decodeWord 0xBB001000000000000000000000000000#128 = .ok (.drarm { a := 1 }) :=
  ⟨rfl, rfl, rfl, rfl, rfl, rfl, rfl, rfl, rfl, rfl, rfl, rfl⟩


/-! ### States that meet the hypotheses of the statements -/

theorem witness_StepKeepsMemoryForm : base.Inv ∧ ∃ t, step base = .next t := by
  refine ⟨by unfold State.Inv; decide, _, rfl⟩
theorem witness_DecodeEncode : (Instr.add { d := 3, a := 1, b := 2 }).word = some (0x01, { d := 3, a := 1, b := 2 }) ∧
    (Instr.add { d := 3, a := 1, b := 2 }).formOk = true ∧ legal 0x01 { d := 3, a := 1, b := 2 } = true := by
  exact ⟨rfl, rfl, by decide⟩
theorem witness_StepRunsDecodedWord :
    let s := loaded 0x030C1000000000000000000000000005
    let u := s.tick.fetchToken.servedFetch.beginStrand
    s.agenda = [] ∧ s.me.resting = true ∧ s.tick.firstDue = none ∧ s.tick.mayIssue s.me = true ∧
      u.fetchWord = .ok (.word 0x030C1000000000000000000000000005) ∧
      decode (bytesOfWord 0x030C1000000000000000000000000005) = .ok (.addi { d := 3, a := 1, imm := 5 }, []) ∧
      u.me.yields 0x030C1000000000000000000000000005 = false := by
  decide +kernel
theorem witness_FetchResults :
    (base.me.pc.toNat < 2 ^ 63 ∧ base.me.pc.toNat % 16 = 0 ∧ base.myLaunch.oldText = [] ∧
      base.translate base.vd .ex base.me.pc.toNat = .ok 0x10000) ∧
    (let s : State := { base with me := { base.me with pc := 0x4000000000 } }
     s.agenda = [] ∧ s.me.resting = true ∧ s.tick.firstDue = none ∧ s.tick.mayIssue s.me = true ∧
       s.tick.fetchToken.servedFetch.beginStrand.fetchWord = .error cXLATE) ∧
    ((loaded 0).tick.fetchToken.servedFetch.beginStrand.fetchWord = .ok (.word 0) ∧ (loaded 0).tick.firstDue = none ∧
      (loaded 0).tick.mayIssue (loaded 0).me = true ∧ decode (bytesOfWord 0) = .error .reservedOpcode) := by
  decide +kernel

theorem witness_ScalarArithmetic : base.acts f0 [1, 2] [] := by unfold State.acts; decide
theorem witness_ScalarDivisionAndBits :
    (base.acts f0 [1, 2] [] ∧ (base.me.getG 2).val ≠ 0) ∧ (base.acts { f0 with b := 5 } [1, 5] [] ∧ (base.me.getG 5).val = 0) ∧
      base.acts f0 [1] [] := by unfold State.acts; decide
theorem witness_ScalarConstantsSelect :
    base.acts f0 [1] [] ∧ base.acts f0 [] [] ∧
      base.acts { d := 3, a := 0, b := 2, c := 4 } [2] [0] ∧ (base.me.getQ 0).val = true ∧
      base.acts { d := 3, a := 7, b := 2, c := 4 } [4] [7] ∧ (base.me.getQ 7).val = false := by unfold State.acts; decide
theorem witness_ScalarCompares :
    ([false, true, true, false] : List Bool)[({ f0 with fn := 3 } : Fields).fn.toNat]? = some false ∧
      base.acts { f0 with fn := 9 } [1, 2] [] ∧ base.acts { f0 with fn := 0 } [1] [] ∧ base.acts f0 [] [1, 2] := by
  unfold State.acts; decide
theorem witness_ScalarFloat :
    (base.acts f0 [1, 2] [] ∧ base.acts f0 [1, 2, 4] [] ∧ base.acts { f0 with rnd := 6 } [1] []) ∧
    (({ fmt := 0, rnd := .rne } : Mode).fmt = 0 ∧ ({ fmt := 0, rnd := .rne } : Mode).sat = false) ∧
      (∀ x ∈ [1, 2 ^ 23], x < 2 ^ 32 ∧ x % 2 ^ 31 ≠ 0 ∧ x % 2 ^ 31 < 0x7F800000) ∧ 2 ^ 23 ≤ 2 ^ 23 % 2 ^ 31 ∧
      ({ fmt := 0, rnd := .rne } : Mode).fsi = false := by
  unfold State.acts; decide
theorem witness_ScalarConvert : base.acts { f0 with fn := 0x88 } [1] [] ∧ base.acts { f0 with fn := 7 } [1] [] := by
  unfold State.acts; decide
theorem witness_LoadResult :
    base.acts f0 [1] [] ∧ (base.me.getG 1).val.toNat % 8 = 0 ∧ (base.me.getG 1).val.toNat < 2 ^ 56 ∧
      base.loadBytes 0x20000 8 = .ok (0, false, false) := by unfold State.acts; decide
theorem witness_StoreResult :
    base.Inv ∧ base.acts f0 [3, 1] [] ∧ (base.me.getG 1).val.toNat % 8 = 0 ∧
      base.transBits base.vd .wr (8 * 0x20000) 64 = .ok ((List.range 8).map (0x20000 + ·)) := by
  unfold State.acts State.Inv; decide
theorem witness_BranchResults :
    base.acts f0 [] [] ∧ (base.acts f0 [1] [] ∧ (base.me.getG 1).val.toNat % 16 = 0 ∧ (base.me.getG 1).val.toNat < 2 ^ 56) ∧
      base.me.guard ({ f0 with gs := 0b1000 } : Fields).gs = false := by unfold State.acts; decide
theorem witness_CallPushesFrame :
    base.Inv ∧ base.acts f0 [31] [] ∧ ((base.me.getG 31).val - 16).toNat % 16 = 0 ∧
      base.transBits base.vd .wr (8 * 0x30000) 64 = .ok ((List.range 8).map (0x30000 + ·)) ∧
      base.transBits base.vd .wr (8 * 0x30008) 64 = .ok ((List.range 8).map (0x30008 + ·)) := by
  unfold State.acts State.Inv; decide
theorem witness_ReturnRestores :
    ((framed (2 ^ 48) false).acts f0 [31] [] ∧ (framed (2 ^ 48) false).loadBytes 0x30010 8 = .ok (0x10040, false, false) ∧
      (framed (2 ^ 48) false).loadBytes 0x30018 8 = .ok (2 ^ 48, false, false) ∧ vcfgMemOk (2 ^ 48 / 2 ^ 16 % 2 ^ 16) = true) ∧
    ((framed 3 true).acts f0 [31] [] ∧ (framed 3 true).loadBytes 0x30018 8 = .ok (3, false, false) ∧
      (framed 3 true).me.hnd = true ∧ (framed 3 true).me.queue = []) := by unfold State.acts; decide
theorem witness_SetsResult :
    base.acts f0 [1] [] ∧ writableSpecial 0x12 = false ∧ vcfgOk (0x20000 % 2 ^ 16) = true ∧ vcfgOk 31 = false ∧
      (base.acts { f0 with a := 8 } [8] [] ∧ (base.me.getG 8).val.toNat % 16 ≠ 0) ∧
      (writableSpecial 0x00 = true ∧ writableSpecial 0x07 = true ∧ writableSpecial 0x1E = true ∧ base.me.queue = []) := by
  unfold State.acts; decide
theorem witness_ScalarAddressFaults :
    (base.acts { f0 with a := 8, fn := 1 } [8] [] ∧ (base.me.getG 8).val.toNat % 2 ≠ 0) ∧
    (base.acts { f0 with a := 9, fn := 3 } [9] [] ∧ (base.me.getG 9).val.toNat % 8 = 0 ∧ 2 ^ 56 ≤ (base.me.getG 9).val.toNat) ∧
    (base.acts { f0 with a := 8, fn := 1 } [3, 8] [] ∧ base.acts { f0 with a := 9, fn := 3 } [3, 9] []) ∧
    (base.setG 31 { val := 8 }).acts f0 [31] [] ∧ ((base.setG 31 { val := 0 }).acts f0 [31] [] ∧
      2 ^ 56 ≤ (((base.setG 31 { val := 0 }).me.getG 31).val - 16).toNat) := by unfold State.acts; decide
theorem witness_GetsAndQueueOrder :
    (base.acts { f0 with fn := 0x12 } [] [] ∧ queueOrdered 0x12 = false) ∧
    (queueOrdered 0x07 = true ∧ queued.me.queue ≠ [] ∧ queued.me.guard f0.gs = true ∧ writableSpecial 0x07 = true) ∧
    (∀ op ∈ ([0x38, 0x39] : List (BitVec 8)),
      let s : State := { base with me := { base.me with blocked := some (packWord op f0) } }
      s.me.queue = [] ∧ s.mayWake = true ∧ s.me.blocked = some (packWord op f0)) := by
  unfold State.acts; decide +kernel
theorem witness_TrapsAndReports :
    (base.acts f0 [] [] ∧ base.me.queue = []) ∧ (queued.acts f0 [] [] ∧ queued.me.queue ≠ []) ∧
    (({ base with me := { base.me with pend := some { cause := 3 } } } : State).me.pend = some { cause := 3 }) := by
  unfold State.acts; decide
theorem witness_FaultToHandler :
    let s : State := { base with me := { base.me with trapv := 0x10000 } }
    s.Inv ∧ s.me.trapv ≠ 0 ∧ s.me.hnd = false ∧ cALIGN ∉ [cBRK, cPRIV, cMANIFEST, cWATCHDOG] ∧
      s.transBits s.vd .wr (8 * 0x30000) 64 = .ok ((List.range 8).map (0x30000 + ·)) ∧
      s.transBits s.vd .wr (8 * 0x30008) 64 = .ok ((List.range 8).map (0x30008 + ·)) := by
  unfold State.Inv; decide
/-- `base` with a fault queue of eight records at 0x38000, whose descriptor lies at 0x37000, and with policies of every action. -/
def reporting : State :=
  { base with
    mem := memWrite base.mem 0x37000 64 (0x38000 <<< 448 + 5 <<< 416 + 3 <<< 384 + 3 <<< 256)
    vds := base.vds.map fun d => { d with faultDesc := some 0x37000, policy := 0b11100100 } }
theorem witness_FaultToSteward :
    (base.me.trapv = 0 ∧ (framed 3 true).me.hnd = true ∧ cBRK ∈ [cBRK, cPRIV, cMANIFEST, cWATCHDOG]) ∧
    (∀ c < 4, ((reporting.vdev? reporting.vd).map fun d => d.policy.toNat / 2 ^ (2 * c) % 4) = some c) ∧
    reporting.launch? reporting.me.launch.toNat = some reporting.myLaunch ∧ reporting.myLaunch.state = .running ∧
    (let x := 0x38000 <<< 448 + 5 <<< 416 + 3 <<< 384 + 3 <<< 256
     reporting.readHome 1 .rw (8 * 0x37000) 512 = .ok (x, false, false) ∧
       (x / 2 ^ 416 % 2 ^ 32 + 2 ^ 32 - x / 2 ^ 384 % 2 ^ 32) % 2 ^ 32 ≠ 2 ^ (x / 2 ^ 256 % 16) ∧
       (reporting.transBits 1 .rw (8 * ((x / 2 ^ 448 % 2 ^ 64 + 64 * (x / 2 ^ 416 % 2 ^ 32 % 8) : Nat) : Int)) 512).isOk = true ∧
       (reporting.transBits 1 .wr (8 * (0x37034 : Int)) 32).isOk = true) ∧
    (base.vdev? 1).map VDev.faultDesc = some none ∧ reporting.Inv := by
  unfold State.Inv; decide +kernel

def pieces (op : BitVec 8) (f : Fields) (z : Nat) (k : Nat) : List (Option Elt × Flags) :=
  resultPieces arrays (arrays.capture op f) f ((kindSources arrays (arrays.capture op f) f z k).map fun p => p.1) ([2], [])
    fun _ xs => (eltOf (nth xs 0).val xs, 0)

theorem witness_ElementwiseArithmetic :
    arrays.serves 0x46 f0 ∧ arrays.operandsAgree (arrays.capture 0x46 f0) f0 32
      (kindSources arrays (arrays.capture 0x46 f0) f0 32 2) ([2], []) ∧
      arrays.acceptsV (arrays.capture 0x46 f0) f0 3 32 (pieces 0x46 f0 32 2) := by
  unfold State.serves State.operandsAgree State.acceptsV State.consumes; decide +kernel
theorem witness_IntegerElements :
    (Fmt.isFIN 7 = true ∧ Fmt.isF 7 = false ∧ Fmt.isFIN 13 = false ∧ intOf 7 0 = 0 ∧ intOf 7 5 ≠ 0) ∧
      base.acts f0 [1, 2] [] ∧ base.me.taintOf [1, 2] [] = false := by unfold State.acts; decide +kernel
theorem witness_CompareAndSelect :
    (arrays.serves 0x56 f0 ∧ arrays.operandsAgree (arrays.capture 0x56 f0) f0 1
      (kindSources arrays (arrays.capture 0x56 f0) f0 32 2) ([2], []) ∧
      arrays.consumes (arrays.capture 0x56 f0) f0 false false) ∧
    (arrays.serves 0x57 { f0 with b := 1, c := 2 } ∧ maskAgrees arrays 1 [2] = .ok () ∧
      arrays.acceptsV (arrays.capture 0x57 f0) f0 3 32 (pieces 0x57 f0 32 2)) := by
  unfold State.serves State.operandsAgree State.acceptsV State.consumes; decide +kernel
theorem witness_FillsAndMoves :
    arrays.serves 0x43 f0 ∧ checkMasks arrays (arrays.capture 0x43 f0) f0 [2, 2] = .ok () ∧
      count [2, 2] ≤ capacity (arrays.capture 0x43 f0).grows.toNat 32 ∧
      arrays.acceptsV (arrays.capture 0x43 f0) f0 3 32 (pieces 0x43 f0 32 2) ∧ (arrays.me.getV 1).shape = [2] := by
  unfold State.serves State.acceptsV State.consumes; decide +kernel
theorem witness_Quantise :
    (arrays.serves 0x5A { d := 3, a := 1, b := 4, fn := 20 } ∧ (arrays.me.getV 4).shape = scaleShape [2] (arrays.capture 0x5A f0).blk) ∧
    (arrays.serves 0x59 { d := 3, a := 1, b := 4, fmt := 20 } ∧ (3 : BitVec 6) ≠ 4 ∧
      checkMasks arrays (arrays.capture 0x59 f0) f0 [2] = .ok () ∧ (arrays.me.getV 1).taint = false ∧
      (arrays.me.getV 1).poison = 0) := by
  unfold State.serves; decide +kernel
theorem witness_Recurrence :
    arrays.serves 0x5C f0 ∧ arrays.me.reissued = false ∧ arrays.operandsAgree (arrays.capture 0x5C f0) f0 32
      [((arrays.me.getV 1).source 32, 32), ((arrays.me.getV 2).source 32, 32)] ([2], []) ∧
      arrays.acceptsV (arrays.capture 0x5C f0) f0 3 32 (pieces 0x5C f0 32 2) := by
  unfold State.serves State.operandsAgree State.acceptsV State.consumes; decide +kernel
theorem witness_MaskOperations :
    (agree (maskShape arrays (arrays.capture 0x5D f0) 1 0) (maskShape arrays (arrays.capture 0x5D f0) 0 1) = .ok [2] ∧
      arrays.serves 0x5D { f0 with b := 0 } ∧ arrays.consumes (arrays.capture 0x5D f0) f0 false false) ∧
    (arrays.serves 0x61 f0 ∧ arrays.serves 0x62 f0) ∧
    (arrays.serves 0x63 { d := 3, a := 2, b := 2 } ∧ (∀ n ∈ [7, 7], n ≤ 65535) ∧
      count [7, 7] ≤ (arrays.capture 0x63 f0).grows.toNat * 2048) := by
  unfold State.serves State.consumes; decide +kernel
theorem witness_ElementsAndTags :
    (arrays.serves 0x64 f0 ∧ arrays.serves 0x65 f0 ∧ count (arrays.me.getV 1).shape ≤ 3 ∧
      arrays.consumes (arrays.capture 0x64 f0) f0 false false) ∧
    (arrays.serves 0x66 { d := 3, a := 2, b := 2, imm := 2 } ∧
      tagShape (arrays.capture 0x66 { d := 3, a := 2, b := 2, imm := 2 }) { d := 3, a := 2, b := 2, imm := 2 } = [7, 7]) ∧
    (arrays.serves 0x67 { d := 3, a := 1, fn := 0x50 } ∧ ({ d := 3, a := 1, fn := 0x50 } : Fields).fn.toNat / 16 ≤ 5) := by
  unfold State.serves State.consumes; decide +kernel
theorem witness_StripLoad :
    let f : Fields := { d := 3, a := 2, b := 0, c := 0 }
    let e := arrays.capture 0x41 f
    arrays.serves 0x41 f ∧ (match stripOf arrays e f with
      | .ok (p, .ok ()) => p.addr 0 == some (8 * 0x50000) && p.addr 3 == some (8 * 0x50014)
      | _ => false) = true ∧
      checkMasks arrays e f [2, 2] = .ok () ∧ arrays.readElem arrays.vd (8 * 0x50000) 32 = .ok (0, false, false) ∧
      arrays.readElem arrays.vd (8 * 0x50014) 32 = .ok (0, false, false) := by
  unfold State.serves; decide +kernel
theorem witness_StripStore :
    let f : Fields := { d := 1, a := 1, b := 9, fn := 1 }
    let e := arrays.capture 0x42 f
    arrays.Inv ∧ arrays.serves 0x42 f ∧ arrays.spliceWord? arrays.me.launch.toNat arrays.me.pc = none ∧
      (match stripOf arrays e f with
        | .ok (p, .ok ()) => p.addr 0 == some (8 * 0x20000)
        | _ => false) = true ∧
      arrays.transBits arrays.vd .wr (8 * 0x20000) 32 = .ok [0x20000, 0x20001, 0x20002, 0x20003] := by
  unfold State.Inv State.serves; decide +kernel
theorem witness_StripGrant :
    let f : Fields := { d := 6, a := 2, b := 2, imm := 0x300000021 }
    arrays.serves 0x40 f ∧ (arrays.capture 0x40 f).gc.val = 0 ∧ arrays.consumes (arrays.capture 0x40 f) f false false ∧
      arrays.spliceWord? arrays.me.launch.toNat arrays.me.pc = none ∧ (arrays.capture 0x40 f).ga.val = 7 := by
  unfold State.serves State.consumes; decide +kernel
/-- A strand asleep in a SETL with a watch at 0x20000, whose producer runs. -/
def watching (value : Nat) : State :=
  { arrays with
    mem := memWrite arrays.mem 0x20000 8 value
    launches := [{ lid := 1, vd := 1, state := .running, producer := .live 2 }, { lid := 2, vd := 1, state := .running }]
    me := { arrays.me with queue := [arrays.capture 0x40 { d := 6, a := 2, b := 2, c := 1 }], sleep := some {} } }
/-- A SETL at the head of a queue that may wake, and of one that is asked to stop. -/
theorem witness_StripGrant_wake :
    (watching 11).headWord 0x40 = some { d := 6, a := 2, b := 2, c := 1 } ∧ (watching 11).mayWake = true ∧
      (let s := watching 11
       ({ s with me := { s.me with preempt := some 5 } } : State).mayWake = false) := by decide +kernel
theorem witness_StripWatch :
    ∀ v ∈ [10, 11, 100], let s := watching v
      s.me.work = [] ∧ s.me.mirrors = [] ∧ s.mayWake = true ∧ s.spliceWord? s.me.launch.toNat 0x10000 = none ∧
      (∀ e ∈ s.me.queue, e.word = packWord 0x40 { d := 6, a := 2, b := 2, c := 1 } ∧ e.gc.val ≠ 0 ∧ e.gc.val.toNat % 8 = 0 ∧
        e.gc.val.toNat < 2 ^ 56 ∧ s.translate s.vd .rd e.gc.val.toNat = .ok 0x20000 ∧ e.ga.val = 7 ∧ e.gb.val = 7 ∧
        0 < min e.grows.toNat s.me.grows ∧ s.memTaint.contains (0x20000 / 32) = false ∧ s.consumes e { d := 6, a := 2, b := 2, c := 1 } false false) ∧
      s.producerDone.1 = false ∧ (memRead s.mem 0x20000 8 - 4 < 7 ↔ v = 10) := by
  unfold State.consumes; decide +kernel

/-- `arrays` with indices 1, 0 at 32 bits in v5, counts 2, 1 at 16 bits in v6, and a void v7. -/
def movable : State :=
  { arrays with me := { arrays.me with
      v := (arrays.me.v.set 5 { shape := [2], buf := 1 }).set 6 { shape := [2], buf := 0x10002 } } }
/-- The conditions of a structural word with one source, for a result shape at `z` bits. -/
def moves (s : State) (op : BitVec 8) (f : Fields) (sh : List Nat) (z : Nat) : Prop :=
  s.serves op f ∧ checkMasks s (s.capture op f) f sh = .ok () ∧
    fitsOpd (s.capture op f) f.rk.toNat (Fmt.size f.fmt.toNat)
      (sopd s f (f.fn.getLsbD 1) f.a.toNat (Fmt.size f.fmt.toNat)) = .ok () ∧
    ((sopd s f (f.fn.getLsbD 1) f.a.toNat (Fmt.size f.fmt.toNat)).ten.toList.all
      fun t => (useEntry t f.fmt.toNat).isOk) = true ∧
    fitsRegister (s.capture op f) z sh ∧
    (∀ j < count (sopd s f (f.fn.getLsbD 1) f.a.toNat (Fmt.size f.fmt.toNat)).sh,
      ((sopd s f (f.fn.getLsbD 1) f.a.toNat (Fmt.size f.fmt.toNat)).elem s j).isOk = true) ∧
    s.consumes (s.capture op f) f false false

theorem witness_StructuralMoves :
    moves movable 0x73 { d := 3, a := 1, b := 2, rk := 7 } [2] 32 ∧ moves movable 0x74 { d := 3, a := 2, fn := 2, rk := 7 } [2, 2] 32 ∧
    moves movable 0x75 { d := 3, a := 1, b := 2, rk := 1 } [7] 32 ∧ moves movable 0x76 { d := 3, a := 1, b := 2, rk := 7 } [0] 32 ∧
    (moves movable 0x7A { d := 3, a := 2, fn := 2, rk := 7, imm := 1 } [2, 2] 32 ∧ (∀ j < 2, j ∈ [1 % 8, 1 / 8 % 8]) ∧ 1 / 8 ^ 2 % 8 ^ 4 = 0) ∧
    (moves movable 0x77 { d := 3, a := 1, b := 5, rk := 7 } [1, 0] 32 ∧ count (movable.me.getV 5).shape ≤ 4 ∧
      ∀ j < 2, toSigned 32 ((movable.me.getV 5).elem 32 j).val ≤ 65535) ∧
    moves movable 0x7D { d := 3, a := 1, b := 5, rk := 7 } [2] 32 ∧
    (moves movable 0x81 { d := 3, a := 1, b := 6, rk := 7 } [3] 32 ∧ (movable.me.getV 6).shape = [2]) ∧
    (moves movable 0x7B { d := 3, a := 1, b := 1, e := 5, rk := 7 } [1] 32 ∧ (movable.me.getM 1).shape.isPrefixOf [2] = true) ∧
    moves movable 0x7C { d := 3, a := 1, b := 1, rk := 7 } [2] 32 := by
  unfold moves State.serves fitsRegister State.consumes; and_intros <;> decide +kernel
theorem witness_CatAndOuter :
    (moves movable 0x78 { d := 3, a := 1, b := 2, rk := 7 } [4] 32 ∧ agree (frameOf 7 [2]) (frameOf 7 [2]) = .ok []) ∧
    (moves movable 0x79 { d := 3, a := 1, b := 2, rk := 7, fn := 0x58 } [2, 2] 1 ∧ 0x58 / 8 % 16 ≤ 11) ∧
    ∀ j < 2, ((sopd movable { a := 1, b := 2 } false 2 32).elem movable j).isOk = true := by
  unfold moves State.serves fitsRegister State.consumes; and_intros <;> decide +kernel
theorem witness_Reductions :
    moves movable 0x70 { d := 3, a := 1, rk := 7 } [] 32 ∧ moves movable 0x70 { d := 3, a := 1, rk := 7, fn := 0x80 } [] 32 ∧
      moves movable 0x70 { d := 3, a := 2, rk := 7, fn := 0x42 } [2] 32 ∧
      moves movable 0x71 { d := 3, a := 1, rk := 7, fn := 0x40 } [2] 32 := by
  unfold moves State.serves fitsRegister State.consumes; and_intros <;> decide +kernel
theorem witness_GradeAndFind :
    moves movable 0x72 { d := 3, a := 1, rk := 7, fn := 8 } [2] 32 ∧
    (moves movable 0x80 { d := 3, a := 1, b := 2, rk := 7 } [2] 32 ∧ ([2] : List Nat).drop 1 = []) := by
  unfold moves State.serves fitsRegister State.consumes; and_intros <;> decide +kernel
theorem witness_Scatter :
    ∀ det ∈ [0, 2 ^ 433],
      let s : State := { movable with launches := [{ lid := 1, vd := 1, record := BitVec.ofNat 512 det }] }
      bit s.myLaunch.record.toNat 433 = (det != 0) ∧ s.serves 0x7F { d := 2, a := 1, b := 5, rk := 7 } ∧ (s.me.getV 1).shape = [2] ∧
        (s.me.getV 5).shape = [2] ∧ (s.me.getV 2).shape = [2] ∧
        checkMasks s (s.capture 0x7F { d := 2, a := 1, b := 5, rk := 7 }) { d := 2, a := 1, b := 5, rk := 7 } [2] = .ok () := by
  unfold State.serves; decide +kernel

/-- A check of `State.serves` that evaluates. -/
def servesNow (s : State) (op : BitVec 8) (f : Fields) : Bool :=
  decide (s.me.queue = []) && !s.me.reissued && decide (s.me.work = []) && decide (s.me.bound = none) && !s.me.awaiting &&
    s.me.guard f.gs &&
    (namedZ op.toNat f).all (fun n => decide (n < tilesOf s.me.place.res)) &&
    (op == 0xA3 || (namedV op.toNat f).all fun n => s.me.mirrors.all fun p => decide (p.2 ≠ n))
theorem serves_of_check {s : State} {op : BitVec 8} {f : Fields} (h : servesNow s op f = true) : s.serves op f := by
  simp only [servesNow, Bool.and_eq_true, Bool.or_eq_true, decide_eq_true_eq, List.all_eq_true, Bool.not_eq_true',
    beq_iff_eq] at h
  exact ⟨h.1.1.1.1.1.1.1, h.1.1.1.1.1.1.2, h.1.1.1.1.1.2, h.1.1.1.1.2, h.1.1.1.2, h.1.1.2, h.1.2, h.2⟩

/-- SHTAG on m0 and on m1. -/
theorem witness_ElementsAndTags_masks :
    ∀ d ∈ ([0, 1] : List (BitVec 6)), arrays.serves 0x66 { d := d, a := 2, b := 2, fn := 1, imm := 2 } ∧ d.toNat < 8 :=
  fun d h => ⟨serves_of_check (by revert d; decide +kernel), by revert d; decide +kernel⟩

/-- `arrays` with a tainted and poisoned g1, q5 and v1, whose device traps on poison. -/
def unclean (taint poison : Bool) : State :=
  { arrays with
    vds := arrays.vds.map fun d => { d with poisonTrap := true }
    me := { arrays.me with
      g := arrays.me.g.set 1 { val := 0x20000, taint := taint, poison := poison }
      v := arrays.me.v.set 1 { arrays.me.getV 1 with taint := taint, poison := if poison then 1 else 0 } } }
/-- `arrays` with a tainted or poisoned granule at 0x20000. -/
def stained (taint poison : Bool) : State :=
  { arrays with
    vds := arrays.vds.map fun d => { d with poisonTrap := poison }
    memTaint := if taint then [0x20000 / 32] else []
    memPoison := if poison then [0x20000 / 32] else [] }
/-- `f0` with TNT. -/
def tnt : Fields := { f0 with sched := 4 }
theorem witness_TaintAndPoisonFaults_scalar :
    trapsTaint tnt = true ∧
    (let s := unclean true false
     s.me.guard tnt.gs = true ∧ s.me.taintOf [1, 2] [] = true) ∧
    (let s := unclean false true
     s.me.guard tnt.gs = true ∧ s.me.taintOf [1, 2] [] = false ∧ (s.me.getQ 0).taint = false ∧ s.poisonTrap = true ∧
       s.me.poisonOf [1, 2] = true) ∧
    (stained true false).acts tnt [1] [] ∧ (stained true false).loadBytes 0x20000 8 = .ok (0, true, false) ∧
    (stained false true).acts tnt [1] [] ∧ (stained false true).loadBytes 0x20000 8 = .ok (0, false, true) ∧
      (stained false true).poisonTrap = true := by
  unfold State.acts; decide +kernel
theorem witness_TaintAndPoisonFaults_elementwise :
    (∀ p ∈ [(true, false), (false, true)],
      let s := unclean p.1 p.2
      let e := s.capture 0x46 tnt
      let els := resultPieces s e tnt ((kindSources s e tnt 32 2).map fun q => q.1) ([2], []) fun _ xs => (eltOf 0 xs, 0)
      servesNow s 0x46 tnt = true ∧ s.operandsAgree e tnt 32 (kindSources s e tnt 32 2) ([2], []) ∧
        ((els.filterMap fun q => q.1).any Elt.taint || s.masksTainted e tnt || gvTainted e || e.qt != 0) = p.1 ∧
        (s.me.getV 3).takesPoison 32 els = p.2 ∧ s.poisonTrap = true) := by
  unfold State.operandsAgree; decide +kernel
theorem witness_TaintAndPoisonFaults_homes :
    ∀ p ∈ [(true, false), (false, true)], ∀ op ∈ ([0x92, 0x93, 0x94] : List (BitVec 8)),
      let s := stained p.1 p.2
      servesNow s op tnt = true ∧ (s.me.getG 1).val.toNat % 8 = 0 ∧ s.translate s.vd .rd 0x20000 = .ok 0x20000 ∧
        s.translate s.vd .rw 0x20000 = .ok 0x20000 ∧ s.consumes (s.capture op tnt) tnt false false ∧
        s.memTaint.contains (0x20000 / 32) = p.1 ∧ s.memPoison.contains (0x20000 / 32) = p.2 ∧ s.poisonTrap = p.2 ∧
        servesNow s 0x93 { tnt with fn := 0xE0 } = true ∧ (s.me.getG 4).taint = false := by
  unfold State.consumes; decide +kernel
/-- Row 1 of a strip of two rows, 32 bytes apart, lies in a tainted granule. -/
theorem witness_TaintAndPoisonFaults_strip :
    let s : State := { arrays with
      memTaint := [0x20020 / 32], me := { arrays.me with g := arrays.me.g.set 2 { val := 32 } } }
    let f : Fields := { d := 3, a := 1, b := 2, fn := 1, sched := 4 }
    let e := s.capture 0x41 f
    servesNow s 0x41 f = true ∧ (match stripOf s e f with
      | .ok (p, .ok ()) => (List.range 3).all fun j => match p.addr j with
          | some a => decide (s.readElem s.vd a 32 = .ok (0, decide (j = 2), false))
          | none => false
      | _ => false) = true ∧ checkMasks s e f [2, 2] = .ok () ∧ isActive s e f [2, 2] 2 = true ∧
      count [2, 2] ≤ capacity e.grows.toNat 32 ∧ trapsTaint f = true ∧ gvTainted e = false ∧ e.qt = 0 ∧
      s.masksTainted e f = false ∧ s.poisonTrap = false := by decide +kernel

theorem witness_HomeActions :
    (∀ op ∈ ([0x92, 0x93, 0x94, 0x95, 0x99, 0x9A, 0x90, 0x91] : List (BitVec 8)), base.serves op f0) ∧
      base.serves 0x93 { f0 with fn := 0xE0 } ∧ base.Inv ∧ (base.me.getG 1).val.toNat % 16 = 0 ∧
      base.translate base.vd .rd 0x20000 = .ok 0x20000 ∧ base.translate base.vd .rw 0x20000 = .ok 0x20000 ∧
      base.consumes (base.capture 0x93 f0) f0 ((base.me.getG 1).taint || (base.me.getG 2).taint) (base.me.getG 1).poison := by
  refine ⟨fun op h => serves_of_check ?_, serves_of_check (by decide +kernel), by unfold State.Inv; decide +kernel,
    by decide +kernel, by decide +kernel, by decide +kernel, by unfold State.consumes; decide +kernel⟩
  revert op; decide +kernel
/-- `base` with a wait queued and asleep; the home at 0x20000 holds `value`. -/
def waiting (op : BitVec 8) (f : Fields) (value : Nat) : State :=
  { arrays with
    mem := memWrite arrays.mem 0x20000 8 value
    cyc := Vector.replicate 4 100
    me := { arrays.me with
      v := (arrays.me.v.set 5 { shape := [1], buf := 0x20000 }).set 6 { shape := [1], buf := 7 }
      queue := [({ arrays with me := { arrays.me with v := (arrays.me.v.set 5 { shape := [1], buf := 0x20000 }).set 6 { shape := [1], buf := 7 } } } : State).capture op f]
      sleep := some {} } }
def quiet (s : State) : State := { s with me := { s.me with queue := [], sleep := none } }
theorem witness_WaitsAndBarriers :
    (∀ v ∈ [6, 8], (quiet (waiting 0x96 f0 v)).serves 0x96 f0 ∧ (waiting 0x96 f0 v).translate 1 .rd 0x20000 = .ok 0x20000 ∧
      ((waiting 0x96 f0 v).me.getG 1).val = 0x20000 ∧ memRead (waiting 0x96 f0 v).mem 0x20000 8 = v) ∧
    ((waiting 0x96 { f0 with c := 2 } 3).me.sleep.isSome = true ∧ 7 ≤ (waiting 0x96 { f0 with c := 2 } 3).slept) ∧
    (∀ v ∈ [6, 7], (quiet (waiting 0x97 { d := 1, a := 5, b := 6, c := 2 } v)).serves 0x97 { d := 1, a := 5, b := 6, c := 2 } ∧
      waitvHomes { d := 1, a := 5, b := 6, c := 2 } ((waiting 0x97 { d := 1, a := 5, b := 6, c := 2 } v).capture 0x97 { d := 1, a := 5, b := 6, c := 2 })
        (waiting 0x97 { d := 1, a := 5, b := 6, c := 2 } v) = .ok [(0, 0x20000, 7)]) := by
  refine ⟨fun v h => ⟨serves_of_check ?_, ?_⟩, by decide +kernel, fun v h => ⟨serves_of_check ?_, ?_⟩⟩ <;>
    revert v <;> decide +kernel
theorem witness_WaitsAndBarriers_asleep :
    (∀ c ∈ ([0, 2] : List (BitVec 6)), ∀ v ∈ [3, 7, 8],
      let s := waiting 0x96 { f0 with c := c } v
      s.mayWake = true ∧ s.me.sleep.isSome = true ∧ s.me.work = [] ∧ s.me.mirrors = [] ∧
        s.translate s.vd .rd 0x20000 = .ok 0x20000 ∧
        ∀ e ∈ s.me.queue, e.word = packWord 0x96 { f0 with c := c } ∧ e.gb.val = 7 ∧ e.gc.val.toNat ≤ s.slept) ∧
    (∀ v ∈ [6, 7],
      let f : Fields := { d := 1, a := 5, b := 6, c := 2 }
      let s := waiting 0x97 f v
      s.mayWake = true ∧ s.me.sleep.isSome = true ∧ s.me.work = [] ∧ s.me.mirrors = [] ∧
        ∀ e ∈ s.me.queue, e.word = packWord 0x97 f ∧ waitvHomes f e s = .ok [(0, 0x20000, 7)] ∧ e.gc.val ≠ 0 ∧
          e.gc.val.toNat ≤ s.slept) := by decide +kernel
/-- `base` as one of the two strands 33 and 34 of launch 1. -/
def paired : State :=
  { base with
    launches := [{ lid := 1, vd := 1, state := .running, strands := [33, 34] }]
    me := { base.me with launch := 1 }
    rest := [{ base.me with sid := 34, launch := 1 }] }
theorem witness_WaitsAndBarriers_barr :
    paired.serves 0x98 {} ∧ paired.me.status = .running ∧ paired.me.left = none ∧
      paired.openBarrier? paired.me.launch.toNat 0 paired.me.sid = none ∧
      paired.participants paired.me.launch.toNat 0 (scopeInstance 0 paired.me.place) ≠ [] ∧
      (∃ p ∈ paired.participants paired.me.launch.toNat 3 (scopeInstance 3 paired.me.place), p ≠ paired.me.sid) :=
  ⟨serves_of_check (by decide +kernel), by decide +kernel, by decide +kernel, by decide +kernel, by decide +kernel,
    by decide +kernel⟩
theorem witness_IdentifiersAndTaint :
    (base.serves 0xA0 f0 ∧ base.readElem base.vd (8 * 0x20000) 1024 = .ok (0, false, false) ∧ TEntry.ok 0 = true) ∧
    (arrays.serves 0xA1 { d := 1, a := 2, fn := 1 } ∧ tfieldRange 1 7 = true) ∧ arrays.serves 0xA2 { d := 3, a := 1 } ∧
    (arrays.serves 0xA3 { d := 1, a := 2 } ∧ arrays.me.mirrors = []) ∧
    (({ arrays with me := { arrays.me with mirrors := [(1, 2)] } } : State).serves 0xA3 { d := 1, a := 2, fn := 1 }) ∧
    arrays.serves 0xA4 {} ∧ arrays.serves 0xA5 { d := 1, a := 2, fn := 1 } :=
  ⟨⟨serves_of_check (by decide +kernel), by decide +kernel, by decide +kernel⟩,
    ⟨serves_of_check (by decide +kernel), by decide +kernel⟩, serves_of_check (by decide +kernel),
    ⟨serves_of_check (by decide +kernel), by decide +kernel⟩, serves_of_check (by decide +kernel),
    serves_of_check (by decide +kernel), serves_of_check (by decide +kernel)⟩

/-- `arrays` with a third identifier of shape (2) at 0x60000, a token record's address in g5, a group of one member at
0x70000, which g4 names, and one row of a SEND in v7. -/
def issuing : State :=
  { arrays with
    mem := memWrite arrays.mem 0x70000 32 (2 ^ 80)
    me := { (arrays.setG 4 { val := 0x70000 }).me with
      g := (arrays.setG 4 { val := 0x70000 }).me.g.set 5 { val := 0x78000 }
      t := arrays.me.t.set 3 (BitVec.ofNat 1024 (2 ^ 103 + 2 ^ 61 + 2 <<< 128 + 1 <<< 320 + 0x60000))
      v := arrays.me.v.set 7 { shape := [1, 5], buf := 0x40000 <<< 64 + 2 <<< 192 } } }
/-- May every element be written? -/
def writes (s : State) (xs : List (Int × Nat × Nat)) : Bool := xs.all fun q => (s.transBits s.vd .wr q.1 q.2.1).isOk
theorem writable_of_check {s : State} {xs : List (Int × Nat × Nat)} (h : writes s xs = true) : s.writable s.vd xs := by
  intro q hq
  have h1 := List.all_eq_true.1 h q hq
  match h2 : s.transBits s.vd .wr q.1 q.2.1 with
  | .ok p => exact ⟨p, rfl⟩
  | .error x => simp [h2, Except.isOk, Except.toBool] at h1
/-- Does a structural word with a tensor as destination meet its conditions, for a result of shape `sh`? -/
def lands (op : BitVec 8) (f : Fields) (masked sh : List Nat) (allowed : Bool) : Bool :=
  let s := movable
  let e := s.capture op f
  let z := Fmt.size f.fmt.toNat
  let a := sopd s f (f.fn.getLsbD 1) f.a.toNat z
  let d : TEntry := s.me.getT f.d.toNat
  servesNow s op f && (useEntry d f.fmt.toNat).isOk && (checkMasks s e f masked).isOk &&
    (a.ten.toList.all fun t => (useEntry t f.fmt.toNat).isOk && (checkOverlap d t allowed).isOk) &&
    (fitsOpd e f.rk.toNat z a).isOk && d.rank == sh.length &&
    (fitsOpd e f.rk.toNat z { a with sh := d.shape, ten := some d }).isOk && decide (count sh ≤ unitSize e z) &&
    ((List.range (count a.sh)).all fun j => (a.elem s j).isOk) &&
    writes s (((List.range (count sh)).filter fun k => inside d.shape (unravel sh k)).map fun k => (d.addr (unravel sh k), z, 0))
theorem witness_StructuralToTensor :
    movable.Inv ∧
    lands 0x73 { d := 1, a := 1, b := 2, rk := 7, fn := 1 } [2] [2] false = true ∧
    lands 0x74 { d := 1, a := 1, rk := 7, fn := 1 } [2] [2] false = true ∧
    lands 0x75 { d := 1, a := 1, b := 2, rk := 7, fn := 1 } [7] [7] false = true ∧
    lands 0x76 { d := 1, a := 1, b := 2, rk := 7, fn := 1 } [0] [0] false = true ∧
    lands 0x7A { d := 2, a := 2, rk := 7, fn := 3, imm := 1 } [2, 2] [2, 2] true = true ∧
    lands 0x81 { d := 1, a := 1, b := 6, rk := 7, fn := 1 } [3] [3] false = true ∧
    lands 0x7B { d := 1, a := 1, b := 1, e := 5, rk := 7, fn := 1 } [1] [1] false = true ∧
    lands 0x7C { d := 1, a := 1, b := 1, rk := 7, fn := 1 } [2] [2] false = true ∧
    lands 0x78 { d := 1, a := 1, b := 2, rk := 7, fn := 1 } [4] [4] false = true ∧
    lands 0x70 { d := 1, a := 2, rk := 7, fn := 0x83 } [2, 2] [2] false = true ∧
    (lands 0x71 { d := 1, a := 1, rk := 7, fn := 0x41 } [2] [2] true = true ∧
      (chainsOf (frameOf 7 [2]) (majorCell (cellOf 7 [2]))).nf ≤ 1 ∧ (chainsOf (frameOf 7 [2]) (majorCell (cellOf 7 [2]))).n ≤ 64) := by
  unfold State.Inv; decide +kernel
theorem witness_Scatter_tensor :
    ∀ op ∈ ([0x7E, 0x7F] : List (BitVec 8)),
      let f : Fields := { d := 1, a := 1, b := 5, rk := 7, fn := 1 }
      let s := movable
      let e := s.capture op f
      let td : TEntry := s.me.getT 1
      servesNow s op f = true ∧ s.Inv ∧ (useEntry td 0).isOk = true ∧ (fitsOpd e 7 32 (sopd s f true 1 32)).isOk = true ∧
        td.shape = [2] ∧ (s.me.getV 1).shape = [2] ∧ (checkMasks s e f [2]).isOk = true ∧ count [2] ≤ unitSize e 32 ∧
        (∀ d ∈ [0, 1], (s.transBits s.vd .wr (td.addr [d]) 32).isOk = true ∧
          (s.transBits s.vd .rw (td.addr [d]) 32).toOption = some ((List.range 4).map (0x40000 + 4 * d + ·)) ∧
          (s.readHome s.vd .rw (td.addr [d]) 32).toOption = some (0, false, false)) := by
  unfold State.Inv; decide +kernel
def copyF (d : BitVec 6) : Fields := { d := d, a := 1, b := 3 }
theorem witness_EngineIssue_copy :
    ∀ d ∈ ([0, 5] : List (BitVec 6)), issuing.serves 0x9B (copyF d) ∧
      (useEntry (issuing.me.getT 3) 0 = .ok () ∧ useEntry (issuing.me.getT 1) 0 = .ok () ∧
      (copyShape (copyF d) (issuing.me.getT 3)).toOption.map CopyShape.ds = some [2] ∧ TEntry.shape (issuing.me.getT 1) = [2] ∧
      checkToken issuing (tokenOf (copyF d) (issuing.capture 0x9B (copyF d))) = .ok () ∧
      copyRoute issuing (copyF d) (tokenOf (copyF d) (issuing.capture 0x9B (copyF d))) = .ok (0, false, false) ∧
      checkOverlap (issuing.me.getT 1) (issuing.me.getT 3) false = .ok () ∧
      ((copyShape (copyF d) (issuing.me.getT 3)).toOption.bind fun cs =>
        (copyRead issuing (copyF d) (issuing.capture 0x9B (copyF d)) (issuing.me.getT 3) cs 0 2).toOption) =
          some ([(0, false, false), (0, false, false)], [])) ∧
      issuing.writable issuing.vd (targets (issuing.me.getT 1) [2] (List.replicate 2 (0, false, false))) := by
  intro d h
  refine ⟨serves_of_check ?_, ?_, writable_of_check (by decide +kernel)⟩ <;> revert d <;> decide +kernel
theorem witness_EngineIssue_pref :
    let f : Fields := { a := 1 }
    issuing.serves 0x9C f ∧ TEntry.valid (issuing.me.getT 1) = true ∧
      prefLines issuing (issuing.me.getT 1) (issuing.capture 0x9C f) = [0x40000 / 128] ∧
      ((issuing.lineFill 0x40000 { vd := issuing.vd, hint := 0, retc := false, prefetch := true }).map fun p => (fillAge? p).isSome) = some true :=
  ⟨serves_of_check (by decide +kernel), by decide +kernel, by decide +kernel, by decide +kernel⟩
/-- A COPY into v3. -/
theorem witness_EngineIssue_register :
    let f : Fields := { copyF 5 with d := 5, a := 3, fn := 1 }
    let e := issuing.capture 0x9B f
    issuing.serves 0x9B f ∧ (copyShape f (issuing.me.getT 3)).toOption.map CopyShape.ds = some [2] ∧
      fitsRegister e (Fmt.size f.fmt.toNat) [2] ∧ copyRoute issuing f (tokenOf f e) = .ok (0, false, false) ∧
      ((copyShape f (issuing.me.getT 3)).toOption.bind fun cs => (copyRead issuing f e (issuing.me.getT 3) cs 0 2).toOption) =
        some ([(0, false, false), (0, false, false)], []) :=
  ⟨serves_of_check (by decide +kernel), by decide +kernel, by unfold fitsRegister; decide +kernel, by decide +kernel,
    by decide +kernel⟩
theorem witness_EngineIssue_send :
    issuing.serves 0x9D { d := 5, a := 1, b := 7 } ∧ issuing.serves 0x9C { a := 1 } ∧ (issuing.me.getV 7).shape = [1, 5] ∧
      (∀ r ∈ sendRows (issuing.me.getV 7), r.peer = 0 ∧ r.daddr = 0x40000 ∧ r.cnt = 2 ∧ r.ok issuing.myVdev = true) ∧
      sendRead issuing (issuing.me.getT 1) (sendRows (issuing.me.getV 7)) 0 0 = .ok [(0, false, false), (0, false, false)] :=
  ⟨serves_of_check (by decide +kernel), serves_of_check (by decide +kernel), by decide +kernel, by decide +kernel,
    by decide +kernel⟩
theorem witness_EngineIssue_group :
    issuing.serves 0x9E { d := 5, a := 1, b := 3, c := 4 } ∧ issuing.serves 0x9F { d := 5, a := 1, b := 4 } ∧
      issuing.translate issuing.vd .rw 0x70000 = .ok 0x70000 ∧ groupOk (memRead issuing.mem 0x70000 32) = true ∧
      readTensor issuing (issuing.me.getT 3) [[0], [1]] = .ok [(0, false, false), (0, false, false)] ∧
      checkWrites issuing (issuing.me.getT 1) [[0], [1]] = .ok () ∧
      ((issuing.me.getG 4).val = 0x70000 ∧ 0x70000 / 32 ∉ issuing.memTaint) :=
  ⟨serves_of_check (by decide +kernel), serves_of_check (by decide +kernel), by decide +kernel, by decide +kernel,
    by decide +kernel, by decide +kernel, by decide +kernel⟩
/-- A piece of work of `issuing`. -/
def owing (kind : WorkKind) (st : Status) (group : BitVec 256) : State :=
  { issuing with me := { issuing.me with
      status := st
      work := [{ k := 70, kind := kind, entry := issuing.capture 0x9B (copyF 5), imageA := issuing.me.getT 1,
                 imageB := issuing.me.getT 3, reg := issuing.me.getV 7, group := group
                 vals := [(1, false, false), (2, false, false)] }] } }
theorem witness_EngineFinish :
    (∀ st ∈ [Status.running, .halted, .cancelled], ∀ kind ∈ [WorkKind.copy, .send, .cred, .cbcast],
      ((owing kind st (2 ^ 64)).me.work.find? (fun x => x.k == 70)).map Work.kind = some kind ∧
      (fieldsOf (issuing.capture 0x9B (copyF 5)).word = copyF 5 ∧ 0x78000 % 32 = 0) ∧
      (2 ^ 64 / 2 ^ 64 % 2 ^ 15 ≠ (owing kind st (2 ^ 64)).myVdev.rank) ∧ (owing kind st (2 ^ 64)).firmware = .running) ∧
    issuing.writable issuing.vd (targets (issuing.me.getT 1) [2] [(1, false, false), (2, false, false)]) ∧
    (sendRows (issuing.me.getV 7)).length = 1 ∧ (sendRows (issuing.me.getV 7)).all (fun r => r.asig == 0 && r.cnt == 2) = true :=
  ⟨by decide +kernel, writable_of_check (by decide +kernel), by decide +kernel, by decide +kernel⟩

/-- Work whose trains all go to peers, before it sends and once they are acknowledged. -/
theorem witness_EngineFinish_peers :
    let v : VReg := { shape := [1, 5], buf := 1 + 0x40000 <<< 64 + 2 <<< 192 }
    (sendRows v ≠ [] ∧ (∀ r ∈ sendRows v, r.peer ≠ issuing.myVdev.rank ∧ r.cnt = 2)) ∧
    ∀ kind ∈ [WorkKind.copy, .send],
      let w : Work := { k := 70, kind := kind, reg := v, sent := true }
      let s : State := { issuing with me := { issuing.me with work := [w] } }
      s.me.status = .running ∧ s.me.work.find? (fun x => x.k == w.k) = some w := by decide +kernel
theorem witness_PeerTraffic :
    (issuing.writable 1 [((8 * 0x20000 : Nat), 32, 5)] ∧ issuing.vd = 1 ∧ issuing.Inv) ∧
    (issuing.transBits 1 .wr (8 * 0x4000000000) 32).isOk = false ∧ issuing.firmware = .running ∧
    (({ issuing with trains := [{ vd := 1, train := 4, performed := 3 }] } : State).train 1 4).performed = 3 ∧
    issuing.translate 1 .rw 0x20000 = .ok 0x20000 ∧ issuing.translate 1 (homeAccess .lda) 0x20000 = .ok 0x20000 ∧
    issuing.translate 1 (homeAccess .amof) 0x20000 = .ok 0x20000 ∧
    issuing.readHome 1 .rd (8 * 0x20000) 64 = .ok (0, false, false) :=
  ⟨⟨writable_of_check (by decide +kernel), by decide +kernel, by unfold State.Inv; decide +kernel⟩, by decide +kernel,
    rfl, by decide +kernel, by decide +kernel, by decide +kernel, by decide +kernel, by decide +kernel⟩
theorem witness_PeerTraffic_action :
    ∀ p ∈ [(true, false), (false, true)],
      let s : State := { issuing with
        memTaint := if p.1 then [0x20000 / 32] else [], memPoison := if p.2 then [0x20000 / 32] else [] }
      let q : PeerAction := { kind := .amo, peer := 5, vd := 1, addr := 0x20000, fn := 0, b := 3, c := 0, bTaint := false, bPoison := false, fabric := false, agent := 0, rel := [], tnt := true, trap := true }
      q.fold = none ∧ q.addr.toNat % homeSize q.kind q.fn.toNat = 0 ∧
        s.translate 1 (homeAccess q.kind) q.addr.toNat = .ok 0x20000 ∧
        ((q.trap && s.memPoison.contains (0x20000 / 32)) || (q.tnt && s.memTaint.contains (0x20000 / 32))) = true := by
  decide +kernel
theorem witness_PeerTraffic_manifest :
    ∀ act ∈ [ManifestAct.compare, .status 2, .clear],
      let q : PeerAction := { kind := .lda, peer := 5, vd := 1, addr := 0x20000, fn := 0, b := 3, c := 0, bTaint := false, bPoison := false, fabric := false, agent := 0, rel := [], tnt := false, trap := false, manifest := some act }
      q.manifest = some act ∧ q.addr.toNat % 64 = 0 ∧ issuing.translate 1 .rw q.addr.toNat = .ok 0x20000 := by decide +kernel
/-- R393: a clearing leaves PHASE, TBASE and EXPECT of the record. -/
theorem test_manifest_clear :
    let s : State := { issuing with mem := memWrite issuing.mem 0x20020 32 (1 + 2 <<< 32 + 3 <<< 64 + 4 <<< 128 + 5 <<< 192) }
    memRead (s.onRecord agentSteward 0x20000 .clear).mem 0x20020 32 = 2 <<< 32 + 3 <<< 64 + 5 <<< 192 := by decide +kernel
/-- R422: the bytes of one access of a plug-in may not lie across a gap between its regions. -/
theorem test_plugin_gap :
    let r (a b : Nat) : Region := { base := BitVec.ofNat 64 a, limit := BitVec.ofNat 64 b, perm := 7 }
    let d (g : Nat) : VDev := { regions := (Vector.replicate 16 {}).setIfInBounds 0 (r 0 8) |>.setIfInBounds 1 (r g 64) }
    (d 9).pluginRange 0 16 1 = false ∧ (d 8).pluginRange 0 16 1 = true := by decide +kernel
/-- R283: work that holds all 32 entries keeps a further range waiting, and no work that accesses no memory. -/
theorem test_table_full :
    let m (n : Nat) : Strand := { work := [{ k := 70, ranges := List.replicate n (0, 0, false) }] }
    (m 32).tableFull [(5, 5, false)] = true ∧ (m 31).tableFull [(5, 5, false)] = false ∧ (m 32).tableFull [] = false := by decide +kernel
/-- R13, R16: the turn `enter` leaves an array-class word in the queue, and the scalar stream goes on behind it. -/
theorem test_enter_turn :
    (match (State.bench .reset |>.withFetchWord 128 (packWord 0x90 { fn := 8 }).toNat).enterTurn with
     | .next t => (t.me.queue.map fun e => (opOf e.word).toNat, t.me.pc.toNat)
     | _ => ([], 0)) = ([0x90], 0x10010) := by decide +kernel
/-- A strand that owes a collective of group 0 with sequence number 0. -/
def collective (kind : WorkKind) : State :=
  { issuing with me := { issuing.me with
      work := [{ k := 70, kind := kind, entry := issuing.capture 0x9E { d := 5, a := 1, b := 3, c := 4 },
                 imageA := issuing.me.getT 1, imageB := issuing.me.getT 3, group := 2 ^ 80
                 vals := [(1, false, false), (2, false, false)] }] } }
theorem witness_PeerTraffic_collective :
    ∀ kind ∈ [WorkKind.cred, .cbcast],
      let cs := ((collective kind).members 1 0 0).map fun p => p.2.contribution p.1
      gathered cs = true ∧ cs.map Contribution.cbcast = [kind == .cbcast] ∧ (collective kind).failedGroups = [] ∧
        ((collective kind).members 1 0 0).map (fun p => p.1) = [33] ∧ (collective kind).members 1 5 0 = [] := by
  decide +kernel
/-- A group that has answered ERR and waits for a late member, a home that holds poison, and a Manifest record. -/
theorem witness_PeerTraffic_others :
    (let s : State := { collective .cred with failedGroups := [{ vd := 1, gid := 5, left := 1 }] }
     s.failedGroups.find? (fun g => g.vd == 1 && g.gid == 5 && g.seq == 0) = some { vd := 1, gid := 5, left := 1 } ∧
       s.members 1 5 0 = []) ∧
    (let s : State := { issuing with memPoison := [0x20000 / 32] }
     s.translate 1 (homeAccess .amo) 0x20000 = .ok 0x20000 ∧ s.memPoison.contains (0x20000 / 32) = true ∧
       homeSize .amo 0 = 8) ∧
    issuing.translate 1 .rw 0x20040 = .ok 0x20040 ∧ 0x20040 % 64 = 0 := by decide +kernel
/-- `arrays` with ENGW 1, GRANT 64, one valid slot and its part 1, A (2, 16) with its scales, and small tensors of int8. -/
def engine : State :=
  { arrays with
    launches := [{ lid := 1, vd := 1, state := .running, strands := [33], record := BitVec.ofNat 512 (2 ^ 423) }]
    reservations := [{ lid := 1, groups := 1
                       slots := [{ valid := true, pb := 8, listed := 3, image := BitVec.ofNat 1024 (2 ^ 103 + 20 <<< 56 + 2 ^ 62 + 2 <<< 128 + 16 <<< 160 + 16 <<< 320 + 1 <<< 384 + 0x60000) }]
                       part0 := { loaded := true, image := BitVec.ofNat 1024 (32 <<< 128 + 1 <<< 160) }
                       part1 := { loaded := true, image := BitVec.ofNat 1024 (1 <<< 128 + 32 <<< 160) } }]
    me := { arrays.me with
      grant := 64
      v := ((arrays.me.v.set 10 { shape := [2, 16] }).set 11 { shape := [2, 1] }).set 12 { shape := [2, 1] }
      g := (arrays.me.g.set 6 { val := 0 }).set 7 { val := 0x80 }
      t := (arrays.me.t.set 3 (BitVec.ofNat 1024 (2 ^ 103 + 20 <<< 56 + 2 ^ 62 + 2 <<< 128 + 2 <<< 160 + 2 <<< 320 + 1 <<< 384 + 0x60000))).set 4
        (BitVec.ofNat 1024 (2 ^ 103 + 20 <<< 56 + 2 ^ 62 + 32 <<< 128 + 1 <<< 160 + 1 <<< 320 + 1 <<< 384 + 0x60000)) } }
theorem witness_MatrixLoads :
    (engine.serves 0xB0 { a := 2 } ∧ engine.serves 0xB1 {} ∧ engine.serves 0xB2 { a := 4, b := 7, fn := 20 } ∧
      engine.serves 0xB3 { a := 3, b := 6, c := 12, fn := 20 }) ∧
    (useEntry (engine.me.getT 3) 20 = .ok () ∧ useEntry (engine.me.getT 4) 20 = .ok () ∧ engine.myReservation?.isSome = true ∧
      TEntry.rank (engine.me.getT 3) = 2 ∧ engine.myEngw = 1 ∧ TEntry.ext (engine.me.getT 4) 0 = 32) ∧
    (fillPart (engine.readElem engine.vd) (engine.me.getT 4) 16).isOk = true ∧
    (readColumn (engine.readHome 1 .rd) (engine.me.getT 3) 0 0 256 16).isOk = true :=
  ⟨⟨serves_of_check (by decide +kernel), serves_of_check (by decide +kernel), serves_of_check (by decide +kernel),
    serves_of_check (by decide +kernel)⟩, by decide +kernel, by decide +kernel, by decide +kernel⟩
theorem allOrLowest_isOk {α : Type} (xs : List (R α)) (h : ∀ x ∈ xs, x.isOk = true) : (allOrLowest xs).isOk = true := by
  unfold allOrLowest
  simp only
  split
  · rfl
  · rename_i b bs hb
    have hm := List.mem_cons_self (a := b) (l := bs)
    rw [← hb] at hm
    obtain ⟨x, hx, he⟩ := List.mem_filterMap.1 hm
    have h1 := h x hx
    cases x with
    | ok a => cases he
    | error e => cases h1
/-- A slot of a 2 × 2 tensor can be filled: beyond its extents nothing is read. -/
theorem slot_isOk (t : TEntry) (z : Nat) (listed : Nat → Bool) (hs : TEntry.shape t = [2, 2]) (hz : Fmt.size (TEntry.fmt t) = z)
    (h2 : ∀ n < 2, ∀ k < 2, (engine.readElem engine.vd (TEntry.addr t [n, k]) z).isOk = true ∧
      (engine.readElem engine.vd (TEntry.scaleAddr t 16 [n, k] * 8) 8).isOk = true) :
    (fillSlot (engine.readElem engine.vd) t 0 0 16 listed).isOk = true := by
  have hc : ∀ n, (readColumn (engine.readElem engine.vd) t n 0 256 16).isOk = true := by
    intro n
    unfold readColumn
    simp only [hs, hz]
    have ha := allOrLowest_isOk ((List.range 256).map fun k =>
      if inside [2, 2] [n, 0 + k] then engine.readElem engine.vd (TEntry.addr t [n, 0 + k]) z
      else .ok (TEntry.fill t % 2 ^ z, false, false)) (by
        intro x hx
        obtain ⟨k, -, rfl⟩ := List.mem_map.1 hx
        split
        · rename_i hi
          simp [inside] at hi
          simpa using (h2 n (by omega) k (by omega)).1
        · rfl)
    have hb := allOrLowest_isOk ((List.range (ceilDiv 256 16)).map fun j =>
      if inside [2, 2] [n, 0 + j * 16] then
        engine.readElem engine.vd (TEntry.scaleAddr t 16 [n, 0 + j * 16] * 8) 8
      else .ok (0, false, false)) (by
        intro x hx
        obtain ⟨k, -, rfl⟩ := List.mem_map.1 hx
        split
        · rename_i hi
          simp [inside] at hi
          simpa using (h2 n (by omega) (k * 16) (by omega)).2
        · rfl)
    revert ha hb
    generalize allOrLowest _ = a
    generalize allOrLowest _ = b
    intro ha hb
    cases a <;> cases b <;> first | rfl | (cases ha; done) | cases hb
  have hf := allOrLowest_isOk ((List.range 256).map fun n =>
    readColumn (engine.readElem engine.vd) t (0 + n) 0 256 16) (by
      intro x hx
      obtain ⟨n, -, rfl⟩ := List.mem_map.1 hx
      exact hc _)
  unfold fillSlot
  revert hf
  generalize allOrLowest _ = a
  intro hf
  cases a with
  | ok a => rfl
  | error e => cases hf
/-- A 2 × 2 tensor of kb2 at 0x60000. -/
def kb2 : TEntry := BitVec.ofNat 1024 (2 ^ 103 + 14 <<< 56 + 2 ^ 62 + 2 <<< 128 + 2 <<< 160 + 64 <<< 320 + 1 <<< 384 + 0x60000)
theorem witness_MatrixLoads_kb2 :
    (let s : State := { engine with me := { engine.me with t := engine.me.t.set 5 kb2 } }
     servesNow s 0xB2 { a := 5, b := 6, fn := 14 } = true ∧ (s.me.getT 5) = kb2 ∧ useEntry kb2 14 = .ok () ∧
       TEntry.rank kb2 = 2 ∧ (s.me.getG 6).val.toNat / 128 % 2 = 0 ∧ s.me.grant ≠ 0) ∧
    Fmt.size (TEntry.fmt kb2) = 2 ∧ inside (TEntry.shape kb2) [1, 1] = true := by decide +kernel
theorem witness_MatrixLoads_slot (listed : Nat → Bool) :
    (fillSlot (engine.readElem engine.vd) (engine.me.getT 3) 0 0 16 listed).isOk = true ∧
      (fillSlot (engine.readElem engine.vd) kb2 0 0 16 listed).isOk = true :=
  ⟨slot_isOk _ 8 _ (by decide +kernel) (by decide +kernel) (by decide +kernel),
    slot_isOk _ 2 _ (by decide +kernel) (by decide +kernel) (by decide +kernel)⟩
theorem witness_MatrixLoads_finish (loaded : Nat) (target : Word) :
    (let w : Work := { k := 70, kind := .pload, loaded := loaded, target := target }
     let s : State := { engine with me := { engine.me with work := [w] } }
     s.myReservation? = engine.myReservation? ∧ s.me.work.find? (fun x => x.k == w.k && x.kind == .pload) = some w) ∧
    engine.myReservation?.isSome = true ∧
    ((engine.reservations.find? fun x => x.isOf 1 0 0).map fun r => (r.slots.getD 0 {}).valid) = some true :=
  ⟨⟨rfl, rfl⟩, by decide +kernel, by decide +kernel⟩
theorem witness_MatrixOperations_gate :
    engine.engineFull = false ∧ (engine.myReservation?.map fun r => (r.slots.getD 0 {}).valid) = some true ∧ engine.me.grant = 64 ∧
      engine.myEngw = 1 ∧ (engine.myReservation?.map fun r => (r.slots.getD 0 {}).blk) = some (engine.capture 0xB4 f0).blk ∧
      engine.me.rows = 2 ∧ (engine.me.getG 6).val = 0 := by decide +kernel
theorem witness_MatrixOperations :
    (engine.serves 0xB4 { d := 1, a := 10, b := 11, c := 6 } ∧ engine.serves 0xB5 { d := 1, a := 10, b := 11, c := 6 } ∧
      engine.serves 0xB6 { d := 3, a := 1, b := 6 } ∧ engine.serves 0xB7 { d := 1, a := 12, b := 6 } ∧
      engine.serves 0xB8 { d := 1 } ∧ engine.serves 0xB9 { d := 3, a := 12, e := 5 } ∧
      engine.serves 0xBA { d := 1, a := 10, b := 11, c := 6 }) ∧
    ((engine.me.getV 10).shape = [2, 16] ∧ (engine.me.getV 11).shape = [2, ceilDiv 16 (engine.capture 0xB4 f0).blk] ∧
      2 * 16 ≤ capacity (engine.capture 0xB4 f0).grows.toNat 8 ∧ (engine.capture 0xB4 f0).blk = 16) ∧
    (upTo 0 64).filter (bit 3) = [0, 1] ∧ (upTo 0 64).filter (bit 0) = [] ∧
    ((engine.me.getV 12).shape = [2, 1] ∧ (engine.myReservation?.map fun r => TEntry.ext r.part0.image 1) = some 1) ∧
    ((upTo 2 64).all fun n => (readColumn (engine.readElem engine.vd) (((engine.myReservation?.map fun r : Reservation => r.slots.getD 0 {}).getD {}).image) n 0 16 16).isOk) = true :=
  ⟨⟨serves_of_check (by decide +kernel), serves_of_check (by decide +kernel), serves_of_check (by decide +kernel),
    serves_of_check (by decide +kernel), serves_of_check (by decide +kernel), serves_of_check (by decide +kernel),
    serves_of_check (by decide +kernel)⟩, by decide +kernel, by decide +kernel, by decide +kernel, by decide +kernel,
    by decide +kernel⟩
theorem witness_MatrixOperations_finish :
    ∀ kind ∈ [WorkKind.mms, .check],
      let w : Work := { k := 70, kind := kind, owed := [(0, some 0x3F800000), (1, none)] }
      mayFinish [w] w = true ∧ (w.owed.map fun x => x.1).Nodup ∧ w.owedRows = [] ∧
        (([w].find? fun x => x.k == 70 && (x.kind == .mms || x.kind == .check)) == some w) = true := by decide +kernel
/-- `arrays` with a batch record at 0x40000, whose kernel record at 0x50000 has one strand, and a bucket table of zeros. -/
def batched : State :=
  { arrays with mem := memWrite (memWrite arrays.mem 0x40000 64 (0x50000 <<< 320 + 16 <<< 192 + 1 <<< 160 + 0x90000 <<< 256)) 0x50000 64 (1 <<< 400) }
theorem witness_QueueSpliceWatchdog :
    (isScalarOp 0x46 = false ∧ legal 0x46 { d := 3, a := 1, b := 2 } = true ∧
      arrays.me.queue.length < (if arrays.me.slip = 0 then 64 else arrays.me.slip.toNat)) ∧
    (arrays.serves 0x41 { d := 3, a := 2 } ∧ arrays.spliceWord? arrays.me.launch.toNat arrays.me.pc = none) ∧
    (let e := arrays.capture 0x98 {}
     let s : State := { arrays with me := { arrays.me with queue := [e], sleep := some {} } }
     e.word.toNat / 2 ^ 120 = 0x98 ∧ s.me.status = .running ∧ ¬(s.myVdev.wd ≠ 0 ∧ s.me.issued + s.myVdev.wd * 2 ^ 16 ≤ s.now)) ∧
    (let e := arrays.capture 0x98 {}
     let s : State := { arrays with
       cyc := Vector.replicate 4 65536
       vds := [{ vdid := 1, iface := .run, root := 0x1000, wd := 1 }]
       me := { arrays.me with queue := [e], sleep := some {} } }
     s.myVdev.wd = 1 ∧ s.me.issued + s.myVdev.wd * 2 ^ 16 ≤ s.now) ∧
    (batched.readElem 1 (8 * 0x40000) 512).isOk = true ∧
      batchOk (0x50000 <<< 320 + 16 <<< 192 + 1 <<< 160 + 0x90000 <<< 256) = true ∧
      (match batched.readElem 1 (8 * 0x50000) 512 with
       | .ok y => y.1 / 2 ^ 400 % 2 ^ 11 == 1
       | .error _ => false) = true :=
  ⟨by decide +kernel, ⟨serves_of_check (by decide +kernel), by decide +kernel⟩, by decide +kernel, by decide +kernel,
    by decide +kernel, by decide +kernel, by decide +kernel⟩
/-- `arrays` with the word at its PC spliced: a load matched with the store of v1 at PC 0x8000, which this pass performed. -/
def spliced (amb : BitVec 3) : State :=
  { arrays with
    splices := [{ die := 0, number := 5, lid := 1, words := [{ matched := some (1, 0x8000) }] }]
    launches := [{ lid := 1, vd := 1, state := .running, strands := [33], spliceKernel := some 5 }]
    me := { arrays.me with
      pc := 0x8500000000000000
      amb := amb
      spliced := [{ pc := 0x8000, vreg := 1, rows := 2, cols := 2 }] } }
theorem witness_QueueSpliceWatchdog_splice :
    (spliced 0).serves 0x41 { d := 3, a := 2 } ∧
      ((spliced 0).spliceWord? (spliced 0).me.launch.toNat (spliced 0).me.pc).map (fun w => w.matched) = some (some (1, 0x8000)) ∧
      (spliced 0).me.spliced.find? (fun r => r.pc == 0x8000 && r.vreg == 1) = some { pc := 0x8000, vreg := 1, rows := 2, cols := 2 } ∧
      ((spliced 0).capture 0x41 { d := 3, a := 2 }).amb = 0 ∧ ((spliced 1).capture 0x41 { d := 3, a := 2 }).amb ≠ 0 ∧
      ((spliced 0).capture 0x41 { d := 3, a := 2 }).rows = 2 :=
  ⟨serves_of_check (by decide +kernel), by decide +kernel, by decide +kernel, by decide +kernel, by decide +kernel,
    by decide +kernel⟩
/-- An entry of a store of a spliced body, and a halted strand whose last instruction left work behind. -/
theorem witness_QueueSpliceWatchdog_capture :
    (let s : State := { spliced 0 with
       splices := [{ die := 0, number := 5, lid := 1, words := [{ pc := 0x8000, body := true }] }] }
     let e := s.capture 0x42 { d := 1, a := 2 }
     (s.spliceWord? s.me.launch.toNat e.pc).map SpliceWord.body = some true ∧ e.word.toNat / 2 ^ 120 = 0x42) ∧
    (let s : State := { owing .copy .halted (2 ^ 64) with
       cyc := Vector.replicate 4 65536, vds := [{ vdid := 1, iface := .run, root := 0x1000, wd := 1 }] }
     s.me.queue = [] ∧ s.me.status = .halted ∧ s.me.work ≠ [] ∧ s.myVdev.wd ≠ 0 ∧ s.me.issued + s.myVdev.wd * 2 ^ 16 ≤ s.now) := by
  decide +kernel

def tenantA : Endpoint := { addr := 0x11, job := 3, pid := 4 }
def ownerA : Endpoint := { addr := 0x33, job := 7, pid := 8 }
/-- A launch record of `n` strands that starts at 0x10000. -/
def recordA (n : Nat) : Nat := n <<< 400 + 0x10000 + 0x160000 <<< 64 + 2 <<< 426 + 2 <<< 429
/-- `base` with virtual device 1 of the tenant, its queue 2 of die 0 with one header offered, and the 64 clusters enabled. -/
def hosted : State :=
  { base with
    owner := ownerA
    tolls := [{ vd := 1, rate := 5, depth := 10, units := 20 }]
    clusters := (List.range 64).map fun i => (i / 16, i % 16)
    cyc := Vector.replicate 4 (2 ^ 22)
    vds := [{ vdid := 1, iface := .run, root := 0x1000, tenant := tenantA, faultDesc := none
              queues := (List.replicate 64 {}).set 2
                { addr := 0x100000, desc := BitVec.ofNat 512 (0x110000 <<< 448 + 0x120000 <<< 384 + 3 <<< 268 + 1 <<< 264 + 1 <<< 256), tails := [1], lim := 1 } }]
    mem := memWrite (memWrite base.mem 0x110000 128 (recordA 1 <<< 512 + 0xFFFFFFFFFFFFFFFF <<< 256 + 1 <<< 336 + 1 <<< 240 + 1 <<< 224)) 0x160000 64 (7 <<< 224) }
/-- `hosted` with a launch of one strand that waits for a place. -/
def offering : State :=
  { hosted with
    me := { hosted.me with status := .finished }
    launches := [{ lid := 5, vd := 1, state := .eligible, record := BitVec.ofNat 512 (recordA 1), header := BitVec.ofNat 512 (1 <<< 336 + 1 <<< 240 + 1 <<< 224 + 0xFFFFFFFFFFFFFFFF <<< 256) }] }

/-- `offering` with its launch parked, whose one strand waits to resume, and with a running launch that may be pre-empted. -/
def resuming : State :=
  { offering with
    me := { offering.me with status := .parked false, launch := 5, strand := 0, place := {} }
    launches := offering.launches.map fun l => { l with state := .parked } }
def preempting : State :=
  { offering with
    clusters := [(0, 0)]
    me := { hosted.me with launch := 1, place := { res := 1 } }
    launches := { lid := 1, vd := 1, state := .running, strands := [33], leftCount := 2, record := BitVec.ofNat 512 (1 <<< 400) } ::
      offering.launches.map fun l => { l with record := BitVec.ofNat 512 (recordA 1 + 1 <<< 432) } }
theorem witness_LaunchLevels :
    (offering.launch? 5).map (fun l => decide ((l.aged + 1) * 2 ^ 20 ≤ offering.cycleOf l.die - l.since) && decide (l.prio + l.aged < l.pcap)) = some false ∧
    (match hosted.vdev? 1 with
     | some d =>
       let q := d.queue 0 2
       d.queues.length == 64 && d.iface == .run && q.tails == [1] &&
         decide (hosted.readHome 1 .rd (8 * ((q.addr.toNat + 36 : Nat) : Int)) 32 = .ok (0, false, false)) &&
         (hosted.transBits 1 .wr (8 * ((q.addr.toNat + 44 : Nat) : Int)) 32).isOk &&
         (match hosted.readHome 1 .rd (8 * ((q.lring + 128 * (q.head.toNat % 2 ^ q.llog) : Nat) : Int)) 1024 with
          | .ok x =>
            let l0 : Launch := { lid := hosted.nextId, vd := 1, die := 0, queue := 2, slot := 0
                                 header := BitVec.ofNat 512 x.1, record := BitVec.ofNat 512 (x.1 / 2 ^ 512) }
            recordOk l0.record && hosted.headerOk l0 && successorsOk l0 1 && l0.npred == 0
          | .error _ => false)
     | none => false) = true ∧
    (let s : State := { preempting with cancels := [{ k := 3, vd := 1, key := 1 }] }
     (s.cancels.find? (fun x => x.k == 3)).map Cancel.level = some .launch ∧
       (s.launches.filter fun m => m.vd == 1 && m.lid == 1 && !m.state.final).map Launch.strands = [[33]]) ∧
    (let s : State := { hosted with cancels := [{ k := 3, level := .phase, vd := 1, key := 0, key2 := 9 }]
                                    launches := [], counters := [{ level := .phase, vd := 1, key := 0, key2 := 9, left := 1 }] }
     (s.counter? .phase 1 0 9).map Counter.cancelled = some false) ∧
    (let s : State := { hosted with serials := [{ vd := 1, job := 9, tasks := [1] }] }
     (s.serials.find? (fun y => y.vd == 1)).map (fun x => (x.tasks, x.running, x.stage, x.waiting)) = some ([1], none, .rerun, [])) := by
  decide +kernel
theorem witness_LaunchLevels_aging :
    let s : State := { offering with launches := offering.launches.map fun l => { l with record := BitVec.ofNat 512 (recordA 1 + 1 <<< 429) } }
    (s.launch? 5).map (fun l => decide ((l.aged + 1) * 2 ^ 20 ≤ s.cycleOf l.die - l.since) && decide (l.prio + l.aged < l.pcap)) =
      some true := by decide +kernel
theorem witness_StrandLife :
    (offering.choice? 0 = some (.place 5 [{}]) ∧ resuming.choice? 0 = some (.resume 33 {}) ∧
      preempting.choice? 0 = some (.preempt 5 [33])) ∧
    (let s : State := { preempting with me := { preempting.me with preempt := some 5 } }
     (s.strands.find? (fun x => x.sid == 33)).map (fun st => (st.preempt, st.resident, st.drained)) = some (some 5, true, true)) ∧
    (let s : State := { preempting with me := { preempting.me with status := .halted } }
     (s.strands.find? (fun x => x.sid == 33)).map Strand.mayFinish = some true ∧
       (s.launch? 1).map Launch.leftCount = some 2) := by decide +kernel
/-- `hosted` with a strand that has not started, of a kernel that binds t5 to the entry at 0x170000 and t6 to a page that does not
translate. -/
def starting (e : Nat) : State :=
  { hosted with
    launches := [{ lid := 1, vd := 1, state := .running, strands := [33], record := BitVec.ofNat 512 (recordA 1) }]
    mem := memWrite (memWrite (memWrite (memWrite hosted.mem 0x160000 32 (2 <<< 200)) 0x160060 16 (0x170000 + 5 <<< 64)) 0x160070 16
      (0x4000000000 + 6 <<< 64)) 0x170000 128 e
    me := { hosted.me with begun := false } }
theorem witness_StrandLife_begin :
    ∀ e ∈ [2 ^ 103 + 2 ^ 61 + 2 <<< 128 + 1 <<< 320 + 0x40000], let s := starting e
      s.me.begun = false ∧ s.myLaunch.spliceKernel = none ∧ s.bindings s.myLaunch.vd s.myLaunch.kdsc = [(5, 0x170000), (6, 0x4000000000)] ∧
        s.readHome 1 .rd (8 * 0x170000) 1024 = .ok (e, false, false) ∧ (s.readHome 1 .rd (8 * 0x4000000000) 1024).isOk = false ∧
        TEntry.ok (BitVec.ofNat 1024 e) = true := by decide +kernel
/-- A record that fails a check: a bit that is kept 0. -/
theorem witness_StrandLife_begin_bad :
    (starting (2 ^ 110)).me.begun = false ∧ (starting (2 ^ 110)).bindings 1 0x160000 = [(5, 0x170000), (6, 0x4000000000)] ∧
    (starting (2 ^ 110)).readHome 1 .rd (8 * 0x170000) 1024 = .ok (2 ^ 110, false, false) ∧ TEntry.ok (BitVec.ofNat 1024 (2 ^ 110)) = false := by
  decide +kernel
theorem witness_TranslationAndCaches_walks :
    (∀ va ∈ [0x12345, 0x4000000000],
      let w : Walk := { vd := 1, va := BitVec.ofNat 64 va, sids := [33] }
      let s : State := { hosted with walks := [w] }
      s.walks.find? (fun w => w.die == 0 && w.cluster == 0 && w.inFlight) = some w ∧ (s.walk 1 va).isSome = (va == 0x12345) ∧
        (∀ x ∈ s.walks, x.late = true → w.covers x = false) ∧ s.me.physical = false ∧ s.tlb = [] ∧ (∀ w ∈ s.walks, w.failed = false)) ∧
    (let s : State := { hosted with walks := [{ vd := 1, va := 0x12345, sids := [33], inFlight := false, failed := true }] }
     s.walks.any (fun w => w.fails s.me.sid s.me.vdid.toNat 0x12345) = true) := by decide +kernel
/-- A fill on its way: a hit, a prefetch that meets an eviction, and a demand fill that goes into an empty way. -/
theorem witness_TranslationAndCaches_fills :
    ∀ level2 ∈ [true, false], ∀ prefetch ∈ [true, false],
      let q : Fill := { level2 := level2, vd := 1, prefetch := prefetch }
      let miss : State := { hosted with fills := [q] }
      let hit : State := { miss with lines := [{ level2 := level2, vd := 1 }] }
      miss.fills[0]? = some q ∧ miss.fills[1]? = none ∧ hit.lines.any (hit.holdsLine q) = true ∧
        miss.lines.any (miss.holdsLine q) = false ∧ fillAge? q = some 1 ∧ miss.retainedIn q = none ∧
        bit (reservedWays (miss.wayRegs 0)) 0 = false ∧ miss.unpaid q = false ∧
        ({ miss with dues := [{ vd := 1, res := 2, die := 0, inst := 0, left := 4, fill := some 0 }] } : State).unpaid q = level2 := by
  decide +kernel
theorem witness_ErrorsAndRepair :
    hosted.Inv ∧ (3 : Nat) < hosted.me.grows ∧
    (({ hosted with units := [{ die := 0, unit := 1, count := BitVec.allOnes 32 }] } : State).unitInfo 0 1).count = BitVec.allOnes 32 ∧
    (({ hosted with units := [{ die := 0, unit := 1, count := BitVec.allOnes 32 }] } : State).unitInfo 0 1).fenced = false ∧
    (hosted.vdev? 1).map (fun d => (d.pluginStopped, d.pluginMay { addr := 0x1000, perm := 1 })) = some (false, false) ∧
    (({ hosted with launches := [] } : State).firmware = .running) := by
  unfold State.Inv; decide +kernel
/-- A unit with a count, and what serves its place. -/
def worn (unit : Nat) (spare : Option Nat) : State :=
  { hosted with units := [{ die := 0, unit := unit, count := 7, spare := spare }] }
theorem witness_ErrorsAndRepair_units :
    (∀ spares ∈ [[], [64, 65, 66, 67]],
      let s : State := { worn 3 none with
        units := (worn 3 none).units ++ spares.map fun x => { die := 0, unit := x, fenced := true } }
      (s.unitInfo 0 3).fenced = false ∧ (s.unitInfo 0 3).spare = none ∧ s.reserve? 0 3 = if spares = [] then some 64 else none) ∧
    (let s := worn 3 (some 65)
     s.units.find? (fun v => v.die == 0 && v.spare == some 65) = some (s.unitInfo 0 3) ∧ (s.unitInfo 0 65).fenced = false ∧
       (s.unitInfo 0 3).unit < 64 ∧ s.reserve? 0 3 = some 64) ∧
    ((worn 90 none).unitInfo 0 90).fenced = false ∧
    (∃ st ∈ hosted.strands, st.resident = true ∧ st.place.die = 0 ∧ st.place.core = 0 ∧ st.preempt = none ∧ st.status ≠ .cancelled) := by
  decide +kernel
/-- A message from the tenant. -/
def message (kind queue a : Nat) (b : Nat := 0) (payload : List Byte := []) : Msg :=
  { sender := tenantA, header := msgHeader kind 0 1 queue payload.length a b, payload := payload }
theorem witness_HostMessages :
    (Msg.ok (message 1 0 0x200000 0 [1, 2, 3]) = true ∧ Msg.ok (message 2 0 0x200000 16) = true ∧ Msg.ok (message 3 2 2) = true) ∧
    ((hosted.vdev? 1).map fun d => (d.guards 0x200000 3, (d.queue 0 2).en, (2 - (d.queue 0 2).lim).toNat)) = some (false, true, 1) ∧
    ((List.range 16).mapM (fun i => hosted.transAt 1 .rd (0x200000 + i))).isOk = true ∧ Msg.kind (message 3 2 2) = 3 := by
  decide +kernel
theorem witness_HostMessages_write :
    (hosted.transBits 1 .wr (8 * 0x200000) 24).isOk = true ∧
    (let s : State := { hosted with firmware := .waiting }
     s.firmware = .waiting ∧ Msg.ok { header := msgHeader 1 0 0 0 1 0x100, payload := [7] } = true) ∧
    (let s : State := { hosted with vds := hosted.vds.map fun d => d.setQueue 0 2 { d.queue 0 2 with unannounced := 2 } }
     (s.vdev? 1).map (fun d => ((d.queue 0 2).unannounced, (d.queue 0 2).coal)) = some (2, 0)) := by decide +kernel
/-- `hosted` with a routing context of two experts, D 4, K 1 and TOKMAX 4, and an armed batch of two tasks. -/
def routing (batch : Option (BitVec 128)) (closing : Option Nat) (spawned : Bool) (left : Nat) : State :=
  { hosted with
    counters := []
    routes := [{ port := 0, vd := 1, batch := batch, closing := closing, mant := List.replicate 8 1, scale := List.replicate 8 127
                 poison := List.replicate 8 false
                 record := BitVec.ofNat 512 (0x180000 <<< 384 + 4 <<< 304 + 100 <<< 288 + 7 <<< 272 + 4 <<< 256 + 2 <<< 240 + 3 <<< 232 + 2 <<< 228 + 1 <<< 225 + 1) }]
    batches := [{ k := 3, vd := 1, addr := 0x1F0000, kernel := BitVec.ofNat 512 (1 <<< 400 + 0x10000 + 7 <<< 429)
                  plan := [(0, 0, 2, 1), (1, 0, 1, 5)], spawned := spawned, left := left, tasks := 2 }] }
theorem witness_RoutingAndDrover :
    (∀ b ∈ [false, true],
      ((routing (if b then some 77 else none) none false 0).route? 0 1).map (fun c => (c.en, c.tokmax, c.d * c.elemBytes)) = some (true, 4, 16) ∧
        Msg.ok (message 5 0 1 77 (List.replicate 16 0)) = true) ∧
    (Msg.ok (message 6 0 2 77) = true ∧ ((routing (some 77) none false 0).route? 0 1).map RouteCtx.closing = some none) ∧
    ((routing (some 77) (some 2) false 0).route? 0 1).map RouteCtx.closing = some (some 2) ∧
    (((routing none none false 0).batches.find? (fun b => b.die == 0 && !b.spawned)).map fun b =>
      (recordOk b.kernel, fld b.kernel 319 256, b.plan.length)) = some (true, 0, 2) ∧
    (((routing none none true 0).batches.find? (fun b => b.die == 0 && b.k == 3)).map fun b => (b.spawned, b.left)) = some (true, 0) ∧
    (routing none none true 0).translate 1 .rw (0x1F0000 + 56) = .ok 0x1F0038 := by decide +kernel
theorem witness_RoutingAndDrover_close :
    (let s := routing (some 77) (some 2) false 0
     (s.route? 0 1).map (fun c => (c.closing, c.batch, c.nexp)) = some (some 2, some 77, 2) ∧ s.Inv) ∧
    writes hosted [((8 * 0x20000 : Nat), 32, 5)] = true ∧ writes hosted [((8 * 0x4000000000 : Nat), 32, 5)] = false := by
  unfold State.Inv; decide +kernel
theorem witness_WindowsAndPower_slew :
    (hosted.slewAt + 1024 ≤ hosted.cycleOf 0) ∧
      (let s : State := { hosted with slewAt := 2 ^ 22 }
       s.cycleOf 0 < s.slewAt + 1024) ∧
      (∀ d < 4, let s : State := { hosted with windows := hosted.windows.setIfInBounds d (2 ^ 22, 2 ^ 22) }
        s.cycleOf d < (s.window d).1 + 1024 ∧ (hosted.window d).1 + 1024 ≤ hosted.cycleOf d) := by decide +kernel
theorem witness_WindowsAndPower_phase :
    ∀ born ∈ [0, 4],
      let s : State := { hosted with
        counters := [{ level := .job, vd := 1, key := 9, born := born }]
        launches := [{ lid := 3, vd := 1, queue := 2, placed := 1, header := BitVec.ofNat 512 (9 <<< 352 + 6 <<< 384) }] }
      (s.counter? .job 1 9 0).isSome = true ∧ s.launches.map (fun l => (l.job, l.phase, decide (born ≤ l.lid))) = [(9, 6, born == 0)] ∧
        hosted.counter? .job 1 9 0 = none := by decide +kernel
theorem witness_WindowsAndPower :
    (∀ t ∈ hosted.tolls, t.pending = none ∧ t.units + 1024 * t.rate ≤ 1024 * t.depth) ∧
    (let s : State := { hosted with clusters := [(0, 0)] }
     (List.range 64).find? (fun i => !s.clusters.contains (i / 16, i % 16)) = some 1 ∧ s.lastEnable[0]?.getD 0 + 256 ≤ s.cycleOf 0) ∧
    (let s : State := { hosted with clusters := [(0, 0)], cyc := Vector.replicate 4 0 }
     s.cycleOf 0 < s.lastEnable[0]?.getD 0 + 256) ∧
    hosted.firmware = .running ∧ (let s : State := { hosted with holds := [{ vd := 1, job := 9 }] }
     ((s.holds.head?).bind s.holdFrom) = some 0) := by decide +kernel
/-- A command with its operands. -/
def command (from_ : Endpoint) (code tvd : Nat) (args : List Nat) : Cmd :=
  { sender := from_, vdid := 1, payload := BitVec.ofNat 512 (code + tvd <<< 16 + (args.zipIdx.map fun x => x.1 <<< (128 + 64 * x.2)).sum) }
/-- `hosted` with its virtual device in another interface state. -/
def inState (i : IFace) : State := { hosted with launches := [], vds := hosted.vds.map fun d => { d with iface := i } }
theorem witness_Commands :
    (∀ p ∈ [(command ownerA 1 3 [4, 0, 9, 8, 5], 5), (command ownerA 2 1 [], 0), (command ownerA 0xD 0 [1, 2, 7], 3),
        (command ownerA 0xE 0 [5], 1), (command tenantA 3 0 [0x200000, 5, 6, 7], 4), (command tenantA 4 0 [], 0),
        (command tenantA 5 0 [], 0), (command tenantA 6 0 [0, 3 + 9 <<< 32], 2), (command tenantA 6 0 [5, 0, 0, 0, 0], 5),
        (command tenantA 7 0 [9, 1, 3], 3), (command tenantA 8 0 [0x200000, 2, 1], 3), (command tenantA 9 0 [0, 1, 0x200000], 3),
        (command tenantA 9 0 [1, 0, 0x200000], 3), (command tenantA 0xA 0 [], 0), (command tenantA 0xB 0 [0x200000], 1),
        (command tenantA 0xC 0 [3, 7, 9], 3), (command tenantA 0xF 0 [64], 1), (command tenantA 0x10 0 [1, 2 ^ 64 - 1], 2)],
      Cmd.plain p.1 p.2 = true) ∧
    ((inState .unlocked).vdev? 3).isNone = true ∧ (inState .unlocked).jobsFinal 1 = true ∧ (inState .run).allFinal 1 = true ∧
    ((inState .locked).vdev? 1).map (fun d => (d.settable, d.iface)) = some (true, .locked) ∧
    ((inState .locked).vdev? 1).map (fun d => decide (d.tenant = tenantA)) = some true ∧
    ((List.range 64).mapM ((inState .unlocked).readQueue 1 0)).isOk = true ∧ wayOk 0 = true ∧
    ((List.range 2).mapM fun r => (inState .locked).readHome 1 .rd (8 * ((0x200000 + 32 * r : Nat) : Int)) 256).isOk = true ∧
    (inState .run).readHome 1 .rw (8 * 0x200000) 512 = .ok (0, false, false) ∧
    (hosted.launch? 1).map Launch.vd = some 1 := by decide +kernel
theorem witness_Commands_lock :
    State.reset.bench.readHome 1 .rd (8 * 0x200000) 4096 = .ok (0, false, false) := by decide +kernel
theorem witness_Commands_boot :
    ({ hosted with firmware := .waiting } : State).firmware = .waiting ∧
      Cmd.plain { command tenantA 0xF 0 [64] with vdid := 0 } 1 = true ∧ 64 ≤ 2 ^ 28 := by decide +kernel

/-- SHA3-512 of "abc" and of 71 zero bytes, which take one byte of padding, against digests computed outside the model (first digest byte lowest). -/
theorem test_sha3 :
    sha3of512 [0x61, 0x62, 0x63] = 0xf053ec4e27f89265a5d508f44c0b34574093e34776c57e1ac9f32a19e916e1102e71d240025d4f880df744748221f6086e096b4b92cd93568a16571a0b8551b7 ∧
    sha3of512 (List.replicate 71 0) = 0xfcbb1fe4ba775bca1aa550a7388a1b1e347a9ba9c6d595df270a75755297c72c69e329fd0b190f3bb2f34e8e2ee3715914954bebf2c7591a5617c994714187cd := by
  decide +kernel

end Sys2Proof.Tests
end

section
/-! ## Execution rules (spec 01): every row answers

One lemma for each way in which rows are run: each answers a next state, whatever the state. -/

namespace Sys2Proof.Machine

theorem scalarG_next (f : Fields) (s : State) (gs : List Nat) (val : Strand → Word × Flags) : ∃ t, scalarG f s gs val = .next t :=
  runScalar_next f s _ _ _

theorem scalarAB_next (f : Fields) (s : State) (op : Word → Word → Word × Flags) : ∃ t, scalarAB f s op = .next t :=
  scalarG_next f s _ _

theorem scalarA_next (f : Fields) (s : State) (op : Word → Word) : ∃ t, scalarA f s op = .next t :=
  scalarG_next f s _ _

theorem scalarF_next (o : ArOp) (f : Fields) (s : State) (srcs : List Nat) : ∃ t, scalarF o f s srcs = .next t :=
  scalarG_next f s _ _

theorem scalarQ_next (f : Fields) (s : State) (gs qs : List Nat) (val : Strand → Bool × Flags) :
    ∃ t, scalarQ f s gs qs val = .next t := runScalar_next f s _ _ _

theorem blockFor_next (op : BitVec 8) (f : Fields) (s : State) {go : Result} (h : ∃ t, go = .next t) :
    ∃ t, blockFor op f s go = .next t := by
  unfold blockFor
  split
  · exact ⟨_, rfl⟩
  · exact h

theorem getsNow_next (f : Fields) (s : State) : ∃ t, getsNow f s = .next t := runScalar_next f s _ _ _
theorem setsNow_next (f : Fields) (s : State) : ∃ t, setsNow f s = .next t := runScalar_next f s _ _ _

theorem execSets_next (f : Fields) (s : State) : ∃ t, execSets f s = .next t := by
  unfold execSets
  split
  · exact blockFor_next _ f s (setsNow_next f s)
  · exact setsNow_next f s

theorem execQueueOrderedAccess_next (s : State) : ∃ t, execQueueOrderedAccess s = .next t := by
  unfold execQueueOrderedAccess
  split
  · exact ⟨_, rfl⟩
  · split
    · dsimp only
      split
      · exact getsNow_next _ _
      · exact setsNow_next _ _
    · exact ⟨_, rfl⟩

theorem execEnqueue_next (op : BitVec 8) (f : Fields) (s : State) : ∃ t, execEnqueue op f s = .next t := by
  unfold execEnqueue
  split
  · exact ⟨_, rfl⟩
  · split
    · exact State.scalarFault_next _ _
    · rcases State.enter_cases s op f with ⟨_, t, _, h⟩ | h | ⟨_, h⟩ | ⟨_, h⟩ <;> rw [h] <;> exact ⟨_, rfl⟩

theorem wakeHead_next (op : BitVec 8) (go : Entry → Fields → Bool) {run : Fields → State → Result} (s : State)
    (h : ∀ f, ∃ t, run f s = .next t) : ∃ t, wakeHead op go run s = .next t := by
  unfold wakeHead
  split
  · exact ⟨_, rfl⟩
  · split
    · exact h _
    · exact ⟨_, rfl⟩

theorem execSetlWake_next (s : State) : ∃ t, execSetlWake s = .next t := by
  unfold execSetlWake
  split
  · split
    · exact runArray_next _ _ _ _
    · exact ⟨_, rfl⟩
  · exact ⟨_, rfl⟩

theorem State.ifOpen_next (s : State) {r : Result} (h : ∃ t, r = .next t) : ∃ t, s.ifOpen r = .next t := by
  unfold State.ifOpen
  split
  · exact h
  · exact ⟨_, rfl⟩

theorem portTakes_next (kind : Nat) (m : Msg) (s : State) {go : VDev → Result} (h : ∀ d, ∃ t, go d = .next t) :
    ∃ t, portTakes kind m s go = .next t := by
  unfold portTakes
  repeat' split
  case h_1 d _ => exact h d
  all_goals exact ⟨_, rfl⟩

theorem State.conclude_next (s : State) (m : Cmd) (r : CmdR) : ∃ t, s.conclude m r = .next t := by
  unfold State.conclude
  split <;> exact ⟨_, rfl⟩

theorem commandRow_next (m : Cmd) (s : State) (mine : Bool) (body : CmdR) : ∃ t, commandRow m s mine body = .next t := by
  unfold commandRow
  dsimp only
  split
  · exact ⟨_, rfl⟩
  · split
    · exact ⟨_, rfl⟩
    · split
      · exact State.conclude_next _ _ _
      · split <;> exact State.conclude_next _ _ _

theorem execBoot_next (m : Cmd) (s : State) : ∃ t, execBoot m s = .next t := by
  unfold execBoot
  split
  · split <;> exact State.conclude_next _ _ _
  · exact commandRow_next _ _ _ _

theorem execWrite_next (m : Msg) (s : State) : ∃ t, execWrite m s = .next t := by
  unfold execWrite
  split
  · exact ⟨_, rfl⟩
  · exact portTakes_next _ _ _ fun _ => ⟨_, rfl⟩

/-- Settles O3, row by row: a word by its run through the scalar stream or the array queue, a command by its answer, a
message by its port, and a step of another agent along the branches of its meaning. -/
theorem everyRowAnswers : Obligations.EveryRowAnswers := by
  intro i s
  cases i <;> dsimp only [exec]
  case add | sub | mul | mulh | mulhn | div | divn | rem | remn | and | or | xor | andn | shl | shr | shra | rotl | clmul |
      min | max | minn | maxn => exact scalarAB_next _ _ _
  case addi | clz | ctz | popc | lih => exact scalarA_next _ _ _
  case fadd | fsub | fmul | ffma | fdiv | fsqrt | fmin | fmax => exact scalarF_next _ _ _ _
  case li | fcvt => exact scalarG_next _ _ _ _
  case cmp | cmpi | qop | fcmp => exact scalarQ_next _ _ _ _ _
  case sel =>
    unfold execSel
    exact runScalar_next _ _ _ _ _
  case ld | st | br | jmp | jmpi | call | ret | trap | yield | halt | nop | brk => exact runScalar_next _ _ _ _ _
  case gets => exact blockFor_next _ _ _ (getsNow_next _ _)
  case sets => exact execSets_next _ _
  case queueOrderedAccess => exact execQueueOrderedAccess_next _
  case enqueue => exact execEnqueue_next _ _ _
  case setl | vldTid | vldPtr | vstTid | vstPtr | vbc | vmov | viota | vadd | vsub | vmul | vfma | vdiv | vsqrt | vmin | vmax |
      vabs | vneg | vand | vor | vxor | vnot | vshl | vshr | vcmp | vsel | vcvt | vqnt | vdqn | vsfu | vrcr | mand | mor |
      mxor | mnot | mpop | mfirst | mset | vext | vins | shtag | shget | red | scan | grade | rot | rev | take | drop |
      reshape | cat | outer | transp | compress | expand | gath | scat | scata | idxof | repl | pb | fence | lda | amo | amof |
      sig | waits | waitv | barr | claim | publ | copy | pref | send | cred | cbcast | tdef | tset | tget | mirr | xcan |
      taint | matt | mdet | pload | ploadx | mms | mmr | zrd | zwr | zclr | scout | check | drarm | spliceMove =>
    exact runArray_next _ _ _ _
  case setlWake => exact execSetlWake_next _
  case waitsWake | waitsTimeout | waitvWake | waitvTimeout => exact wakeHead_next _ _ _ fun _ => runArray_next _ _ _ _
  case createVd | destroyVd | lock | start | unlock | setToll | setWayRange | setFaultPolicy | setPeerTable |
      loadRoutingContext | setFaultQueue | readCounters | attestationReport | cancelCommand | transferOwnership | setSlope |
      resume => exact commandRow_next _ _ _ _
  case boot => exact execBoot_next _ _
  case write => exact execWrite_next _ _
  case read | kick | token | close =>
    refine portTakes_next _ _ _ fun d => ?_
    dsimp only
    repeat' split
    all_goals exact ⟨_, rfl⟩
  case caravanElement =>
    unfold execCaravanElement
    dsimp only
    split <;> exact State.ifOpen_next _ ⟨_, rfl⟩
  case peerHomeAction | restartStagger | copyPeerAccess =>
    refine State.ifOpen_next _ ?_
    dsimp only
    repeat' split
    all_goals exact ⟨_, rfl⟩
  case matrixOpFinish | engineFinish | credCombine | cbcastDeliver | cacheFill | planeParityRefetch | powerUpReset |
      planeLoadFinish | tlbInvalidate | priv | staggerExpire => exact ⟨_, rfl⟩
  case barrierComplete | scalarFaultReport | arrayFaultReport | watchdog | launchAccept | launchPlacement | preemptSave |
      strandResume | strandFinish | serialReexecution | cancelResolve | agingStep | caravanTail | walkComplete |
      uncorrectableError | correctedError | fieldRepair | firmwareLoss | batchClose | droverSpawn | droverCombine |
      noticeSend | tollWindow | slewWindow | clusterEnable =>
    dsimp only [execBarrierComplete, execScalarFaultReport, execArrayFaultReport, execWatchdog, execLaunchAccept,
      execLaunchPlacement, execPreemptSave, execStrandResume, execStrandFinish, execSerialReexecution, execCancelResolve,
      execAgingStep, execCaravanTail, execWalkComplete, execUncorrectableError, execCorrectedError, execFieldRepair,
      execFirmwareLoss, execBatchClose, execDroverSpawn, execDroverCombine, execNoticeSend, execTollWindow, execSlewWindow,
      execClusterEnable]
    repeat' split
    all_goals exact ⟨_, rfl⟩

end Sys2Proof.Machine
end

section
/-! ## Execution rules (spec 01): the scalar stream and the array queue

What a scalar word does once its guard holds and no source traps, and how an array-class word is served: entered and served at
once (`runArray_of_serves`), or served at the head of the queue (`runArray_of_head`). -/

namespace Sys2Proof.Machine

/-! ### Bits and words -/

theorem bits_zero_eq_mod (x n : Nat) : bits x n 0 = x % 2 ^ (n + 1) := by simp [bits]

theorem bits_eq_div_mod (x hi lo : Nat) : bits x hi lo = x / 2 ^ lo % 2 ^ (hi + 1 - lo) := by
  rw [bits, Nat.shiftRight_eq_div_pow]

@[simp] theorem opOf_packWord (op : BitVec 8) (f : Fields) : opOf (packWord op f) = op := by
  unfold opOf packWord
  simp (disch := omega) only [BitVec.extractLsb'_append_eq_of_le, Nat.reduceSub, BitVec.extractLsb'_eq_self]

/-- The fields of a packed word are those it was packed from (R90). -/
@[simp] theorem fieldsOf_packWord (op : BitVec 8) (f : Fields) : fieldsOf (packWord op f) = f := by
  cases f
  unfold fieldsOf packWord
  congr 1
  all_goals simp (disch := omega) only [BitVec.extractLsb'_append_eq_of_le, BitVec.extractLsb'_append_eq_of_add_le,
    Nat.reduceSub, BitVec.extractLsb'_eq_self, BitVec.getLsbD_append, Nat.reduceLT, if_true, if_false]
  all_goals simp

/-! ### Scalar words -/

/-- What TNT finds where the word acts: no tainted source (R100). -/
theorem State.acts.no_taint {s : State} {f : Fields} {gs qs : List Nat} (h : s.acts f gs qs) :
    (trapsTaint f && (gs.any (fun n => (s.me.getG n).taint) || qs.any (fun n => (s.me.getQ n).taint) ||
      (s.me.getQ (bits f.gs.toNat 2 0)).taint)) = false := by
  obtain ⟨-, ht, -⟩ := h
  cases hf : trapsTaint f with
  | false => rfl
  | true =>
    obtain ⟨h1, h2⟩ := ht hf
    unfold Strand.taintOf at h1
    rw [bits_zero_eq_mod, show (2 : Nat) ^ (2 + 1) = 8 from rfl, h1, h2]
    rfl

/-- What the POISON trap finds where the word acts: no poisoned source (R156). -/
theorem State.acts.no_poison {s : State} {f : Fields} {gs qs : List Nat} (h : s.acts f gs qs) :
    ((gs.any fun n => (s.me.getG n).poison) && s.poisonTrap) = false := by
  obtain ⟨-, -, hp⟩ := h
  cases hf : s.poisonTrap with
  | false => simp
  | true =>
    have h1 := hp hf
    unfold Strand.poisonOf at h1
    simp [h1]

/-- A scalar word that acts does what its body does. -/
theorem runScalar_of_acts_ok {f : Fields} {s t : State} {gs qs : List Nat} {body : State → R State} (h : s.acts f gs qs)
    (hb : body (s.raise (flagIf (s.me.poisonOf gs) flPSN)) = .ok t) : runScalar f s gs qs body = .next t :=
  runScalar_runs h.1 h.no_taint h.no_poison hb

/-- A scalar word that acts takes the fault of its body. -/
theorem runScalar_of_acts_error {f : Fields} {s : State} {gs qs : List Nat} {body : State → R State} {e : Flt}
    (h : s.acts f gs qs) (hb : body (s.raise (flagIf (s.me.poisonOf gs) flPSN)) = .error e) :
    runScalar f s gs qs body = s.scalarFault e := by
  unfold Strand.poisonOf at hb
  unfold runScalar
  simp only [h.1, h.no_taint, h.no_poison, hb, Bool.not_true, Bool.false_eq_true, if_false]

/-- A scalar fault behind an empty queue is taken at once (R17). -/
theorem State.scalarFault_of_queue_nil {s : State} {e : Flt} (hq : s.me.queue = []) :
    s.scalarFault e = .next (s.takeFault {
      cause := e.cause, code := e.code, faddr := e.faddr, fpc := s.me.pc
      epc := if e.cause == cTRAP || e.cause == cBRK then s.me.pc + 16 else s.me.pc }) := by
  unfold State.scalarFault
  simp only [hq, List.isEmpty_nil, if_true]

/-- Behind older entries a scalar fault waits (R17). -/
theorem State.scalarFault_of_queue_ne_nil {s : State} {e : Flt} (hq : s.me.queue ≠ []) :
    s.scalarFault e = .next { s with me := { s.me with pend := some {
      cause := e.cause, code := e.code, faddr := e.faddr, fpc := s.me.pc
      epc := if e.cause == cTRAP || e.cause == cBRK then s.me.pc + 16 else s.me.pc } } } := by
  unfold State.scalarFault
  simp only [List.isEmpty_iff, hq, if_false]

/-- Settles O22: TRAP and BRK are scalar words whose body is their fault, and each report takes the pending fault of its class. -/
theorem trapsAndReports : Obligations.TrapsAndReports := by
  refine ⟨fun f s h => ?_, fun s p hp => ⟨fun ha hq => ?_, fun ha => ?_⟩⟩
  · have htrap : exec (.trap f) s = s.scalarFault { cause := cTRAP, code := bits f.imm.toNat 15 0 } := by
      dsimp only [exec, execTrap]
      exact runScalar_of_acts_error h rfl
    have hbrk : exec (.brk f) s = s.scalarFault { cause := cBRK, code := bits f.imm.toNat 15 0 } := by
      dsimp only [exec, execBrk]
      exact runScalar_of_acts_error h rfl
    rw [htrap, hbrk, bits_zero_eq_mod]
    exact ⟨fun hq => ⟨State.scalarFault_of_queue_nil hq, State.scalarFault_of_queue_nil hq⟩,
      fun hq => ⟨State.scalarFault_of_queue_ne_nil hq, State.scalarFault_of_queue_ne_nil hq⟩⟩
  · dsimp only [exec]
    simp only [execScalarFaultReport, hp, ha, hq, Bool.not_false, List.isEmpty_nil, Bool.and_self, if_true]
  · dsimp only [exec]
    simp only [execArrayFaultReport, hp, ha, if_true]

/-! ### Captured registers (R14, R18) -/

section Captured

variable {s : State} {op : BitVec 8} {f : Fields} {k : OpSpec}

/-- The registers of slots D, A, B and C in a capture are those that the word reads. -/
theorem capture_slots (hk : opSpec op f = some k) (hop : op ≠ 0x40) :
    (s.capture op f).ga = (if (readsG op.toNat f)[1]?.getD false then s.me.getG f.a.toNat else {}) ∧
      (s.capture op f).gb = (if (readsG op.toNat f)[2]?.getD false then s.me.getG f.b.toNat else {}) ∧
      (s.capture op f).gc = if (readsG op.toNat f)[3]?.getD false then s.me.getG f.c.toNat else {} := by
  have hop' : (op == 0x40) = false := beq_eq_false_iff_ne.mpr hop
  simp only [State.capture, Entry.ga, Entry.gb, Entry.gc, hop', Bool.false_eq_true, if_false]
  simp [readsG, hk]

theorem capture_ga (hk : opSpec op f = some k) (hop : op ≠ 0x40) (ht : op ≠ 0xA5) (ha : k.a = .g) :
    (s.capture op f).ga = s.me.getG f.a.toNat := by
  have ht' : op.toNat ≠ 165 := fun h => ht (BitVec.eq_of_toNat_eq h)
  rw [(capture_slots hk hop).1]
  simp [readsG, hk, ha, ht']

theorem capture_gb (hk : opSpec op f = some k) (hop : op ≠ 0x40) (hb : k.b = .g) :
    (s.capture op f).gb = s.me.getG f.b.toNat := by
  rw [(capture_slots hk hop).2.1]
  simp [readsG, hk, hb]

theorem capture_gc (hk : opSpec op f = some k) (hop : op ≠ 0x40) (hc : k.c = .g) :
    (s.capture op f).gc = s.me.getG f.c.toNat := by
  rw [(capture_slots hk hop).2.2]
  simp [readsG, hk, hc]

end Captured

/-! ### Serving the queue (R13, R16) -/

/-- How the state stands once the head of the queue has been served (R16): a completed entry has left, one that waits stays, and
one that stops raises its fault. -/
def Served.close (r : Served) (e : Entry) (first : Nat) : State :=
  match r with
  | .done t => t.retire first
  | .wait t => t
  | .stop t x => t.arrayFault e x

/-- An entry that no older work and no mirror pair holds back fares as its body says. -/
theorem State.serve_eq_close {s : State} {e : Entry} {op : Nat} {f : Fields} {body : Entry → State → Served}
    (hw : s.me.work = []) (hm : op = 0xA3 ∨ ∀ n ∈ namedV op f, ∀ p ∈ s.me.mirrors, p.2 ≠ n) :
    s.serve e op f body = (body e s).close e s.nextId := by
  have hb : s.me.barred f = false := by simp [Strand.barred, hw]
  have hn : (op != 0xA3 && (namedV op f).any fun n => s.me.mirrors.any fun p => p.2 == n) = false := by
    rcases hm with rfl | hm
    · rfl
    · simp only [Bool.and_eq_false_iff, List.any_eq_false, beq_iff_eq, Bool.not_eq_true]
      exact .inr fun n hn p hp => hm n hn p hp
  unfold State.serve Served.close
  simp only [State.interlocked_none hw, hb, hn, Bool.or_false, Bool.false_eq_true, if_false] <;> rfl

/-- Only a VST adds to the stores of a spliced body (R363). -/
theorem State.storeCaptured_of_ne {s : State} {e : Entry} {f : Fields} (h : opOf e.word ≠ 0x42) :
    s.storeCaptured e f = s.me.spliced := by
  unfold State.storeCaptured
  split
  · simp only [beq_eq_false_iff_ne.mpr h, Bool.and_false, Bool.false_and, Bool.false_eq_true, if_false]
  · rfl

/-- A word that finds the queue empty stands at its head once it has entered (R13). -/
theorem State.enter_of_serves {s : State} {op : BitVec 8} {f : Fields} (h : s.serves op f) (hop : op ≠ 0x42) :
    s.enter op f = .ok (s.entered op f, s.capture op f) := by
  obtain ⟨hq, -, -, -, -, hg, hz, -⟩ := h
  have htiles : ((namedZ op.toNat f).any fun n => decide (tilesOf s.me.place.res ≤ n)) = false := by
    simp only [List.any_eq_false, decide_eq_true_eq, not_le]
    exact hz
  have hslip : ¬(if s.me.slip.toNat = 0 then 64 else s.me.slip.toNat) ≤ 0 := by split <;> omega
  have hst : s.storeCaptured (s.capture op f) f = s.me.spliced :=
    State.storeCaptured_of_ne (by rw [show (s.capture op f).word = packWord op f from rfl, opOf_packWord]; exact hop)
  unfold State.enter State.entered
  simp only [htiles, hq, hg, hst, List.length_nil, hslip, decide_false, Bool.false_eq_true, if_false, Bool.not_true,
    State.advance_eq, List.nil_append]

/-- An array-class word that is served as soon as it is fetched. -/
theorem runArray_of_serves {s : State} {op : BitVec 8} {f : Fields} {body : Entry → State → Served} (h : s.serves op f)
    (hop : op ≠ 0x42) :
    runArray op f s body = .next ((body (s.capture op f) (s.entered op f)).close (s.capture op f) s.nextId) := by
  have he := State.enter_of_serves h hop
  obtain ⟨hq, -, hw, -, -, -, -, hm⟩ := h
  unfold runArray
  rw [hq]
  simp only [he]
  refine congrArg _ (State.serve_eq_close hw (hm.imp (fun h => ?_) id))
  rw [h]; rfl

/-- An array-class word at the head of the queue of a strand that owes no work and has no mirror pair. -/
theorem runArray_of_head {s : State} {op : BitVec 8} {f : Fields} {body : Entry → State → Served} {e : Entry} {r : List Entry}
    (hq : s.me.queue = e :: r) (he : e.word = packWord op f) (hw : s.me.work = []) (hm : s.me.mirrors = []) :
    runArray op f s body = .next ((body e s).close e s.nextId) := by
  unfold runArray
  rw [hq]
  simp only [he, beq_self_eq_true, if_true]
  exact congrArg _ (State.serve_eq_close hw (.inr (by simp [hm])))

/-- A strand without engine work owes nothing to a release. -/
theorem State.owes_of_no_work {s : State} (hw : s.me.work = []) (scope : Nat) : s.owes scope = false := by
  simp [State.owes, hw]

/-- An entry whose sources do not trap is consumed, and raises PSN for what is poisoned (R100, R156, R191). -/
theorem consume_of_consumes {s u : State} {e : Entry} {f : Fields} {tainted poisoned : Bool}
    (h : s.consumes e f tainted poisoned) (hp : u.poisonTrap = s.poisonTrap) :
    consume u e f tainted poisoned = .ok (u.raise (flagIf poisoned flPSN)) := by
  obtain ⟨ht, hpsn⟩ := h
  have h1 : (!(trapsTaint f && (tainted || gvTainted e || e.qt != 0))) = true := by
    cases hf : trapsTaint f with
    | false => rfl
    | true =>
      obtain ⟨a, b, c⟩ := ht hf
      simp [a, b, c]
  have h2 : (!(poisoned && u.poisonTrap)) = true := by
    rw [hp]
    cases hf : s.poisonTrap with
    | false => simp
    | true => simp [hpsn hf]
  unfold consume
  simp only [require, h1, h2, if_true]
  rfl

/-- Less taint and poison does not trap either. -/
theorem State.consumes.mono {s : State} {e : Entry} {f : Fields} {t t' p p' : Bool} (h : s.consumes e f t p)
    (ht : t' = true → t = true) (hp : p' = true → p = true) : s.consumes e f t' p' := by
  obtain ⟨h1, h2⟩ := h
  refine ⟨fun hf => ?_, fun hf => ?_⟩
  · obtain ⟨a, b, c⟩ := h1 hf
    exact ⟨by rw [a] at ht; simpa using ht, b, c⟩
  · rw [h2 hf] at hp
    simpa using hp

end Sys2Proof.Machine
end

section
/-! ## Execution rules (spec 01): homes in memory

What translation reads, that a translated address keeps its place in its 64 KiB page (R261), and the bytes of memory after a
write at a home (R289). -/

namespace Sys2Proof.Machine

/-! ### What translation reads -/

/-- Two states that translate alike: the same memory with its poison, virtual devices, TLBs and walks, the same free values, and
a strand in the same place. -/
structure State.SameSight (s t : State) : Prop where
  mem : t.mem = s.mem
  poison : t.memPoison = s.memPoison
  vds : t.vds = s.vds
  tlb : t.tlb = s.tlb
  walks : t.walks = s.walks
  free : t.free = s.free
  vdid : t.me.vdid = s.me.vdid
  sid : t.me.sid = s.me.sid
  place : t.me.place = s.me.place
  status : t.me.status = s.me.status
  physical : t.me.physical = s.me.physical

theorem walkFrom_congr {s t : State} (hm : t.mem = s.mem) (hp : t.memPoison = s.memPoison) (va : Nat)
    (ls : List (Nat × Nat × Nat × Bool × Bool)) (node : Nat) : walkFrom t va ls node = walkFrom s va ls node := by
  induction ls generalizing node with
  | nil => rfl
  | cons l ls ih =>
    obtain ⟨lo, n, nextLog, mayLeaf, mustLeaf⟩ := l
    simp only [walkFrom, hm, hp, ih]

theorem State.SameSight.translate {s t : State} (h : s.SameSight t) (vd : Nat) (acc : Access) (va key : Nat) :
    t.translate vd acc va key = s.translate vd acc va key := by
  obtain ⟨hm, hp, hv, ht, hw, hf, hvd, hsid, hpl, hst, hph⟩ := h
  have hwalk : t.walk vd va = s.walk vd va := by
    simp only [State.walk, State.vdev?, hv, walkFrom_congr hm hp]
  have htlb : t.tlbLeaf? vd va = s.tlbLeaf? vd va := by
    simp only [State.tlbLeaf?, hpl, hvd, hst, hsid, ht]
  have hmiss : t.missFailed vd va = s.missFailed vd va := by
    simp only [State.missFailed, hvd, hw, hsid]
  simp only [State.translate, State.leaf?, hph, hvd, hmiss, htlb, hf, hwalk]

theorem State.SameSight.transBits {s t : State} (h : s.SameSight t) (vd : Nat) (acc : Access) (ba : Int) (size : Nat) :
    t.transBits vd acc ba size = s.transBits vd acc ba size := by
  simp only [State.transBits, State.transAt, h.translate]

theorem State.SameSight.poisonTrap {s t : State} (h : s.SameSight t) : t.poisonTrap = s.poisonTrap := by
  simp only [State.poisonTrap, State.vd, State.vdev?, h.vds, h.vdid]

/-- A plain read sees the same where the snapshots and the taint are the same too. -/
theorem State.SameSight.readElem {s t : State} (h : s.SameSight t) (hs : t.me.stale = s.me.stale)
    (ht : t.memTaint = s.memTaint) (vd : Nat) (ba : Int) (size : Nat) : t.readElem vd ba size = s.readElem vd ba size := by
  have hv : t.viewByte = s.viewByte := by
    funext a
    simp only [State.viewByte, hs, h.mem, h.poison, ht]
  simp only [State.readElem, h.transBits, hv]

/-- A word that enters the queue changes nothing that translation reads. -/
theorem State.sameSight_entered (s : State) (op : BitVec 8) (f : Fields) : s.SameSight (s.entered op f) :=
  ⟨rfl, rfl, rfl, rfl, rfl, rfl, rfl, rfl, rfl, rfl, rfl⟩

/-- Flags are not read by translation. -/
theorem State.sameSight_raise (s : State) (x : Flags) : s.SameSight (s.raise x) :=
  ⟨rfl, rfl, rfl, rfl, rfl, rfl, rfl, rfl, rfl, rfl, rfl⟩

/-! ### Pages hold at least 64 KiB (R260, R261) -/

/-- A page begins at a multiple of 64 KiB and holds at least as much. -/
def Leaf.aligned (l : Leaf) : Prop := l.base % 2 ^ 16 = 0 ∧ 16 ≤ l.sizeLog

theorem shiftRight_shiftLeft_mod (x n : Nat) : (x >>> n <<< n) % 2 ^ n = 0 := by
  rw [Nat.shiftLeft_eq]
  exact Nat.mul_mod_left _ _

theorem mod_of_mod_pow {x m n : Nat} (h : m ≤ n) (hx : x % 2 ^ n = 0) : x % 2 ^ m = 0 :=
  Nat.mod_eq_zero_of_dvd ((Nat.pow_dvd_pow 2 h).trans (Nat.dvd_of_mod_eq_zero hx))

theorem walkFrom_aligned {s : State} {va : Nat} {ls : List (Nat × Nat × Nat × Bool × Bool)} {node : Nat} {l : Leaf}
    (hl : ∀ x ∈ ls, x.2.2.2.1 = true → 16 ≤ x.1) (h : walkFrom s va ls node = some l) : l.aligned := by
  induction ls generalizing node with
  | nil => simp [walkFrom] at h
  | cons x ls ih =>
    obtain ⟨lo, n, nextLog, mayLeaf, mustLeaf⟩ := x
    have hlo := hl _ (List.mem_cons_self ..)
    simp only [walkFrom] at h
    split at h
    · cases h
    · split at h
      · cases h
      · split at h
        · split at h
          · cases h
          · rename_i hc
            by_cases hsize : (if bit (memRead s.mem (node + 8 * bits va (lo + n - 1) lo) 8) 5 = true
                then Config.farGiB * 2 ^ 30 else nearSize) <
                bits (memRead s.mem (node + 8 * bits va (lo + n - 1) lo) 8) 43 8 <<< 8 + 2 ^ lo
            · rw [if_pos hsize] at h
              cases h
            · rw [if_neg hsize] at h
              cases h
              simp only [Bool.or_eq_true, Bool.not_eq_true', bne_iff_ne, ne_eq, not_or, Bool.not_eq_false,
                Decidable.not_not] at hc
              obtain ⟨hmay, hoff⟩ := hc
              have h16 := hlo hmay
              have h0 := mod_of_mod_pow h16 hoff
              refine ⟨?_, h16⟩
              dsimp only
              split
              · rw [Nat.add_mod, h0]; rfl
              · rw [Nat.zero_add]; exact h0
        · split at h
          · cases h
          · exact ih (fun y hy => hl y (List.mem_cons_of_mem _ hy)) h

theorem State.walk_aligned {s : State} {vd va : Nat} {l : Leaf} (h : s.walk vd va = some l) : l.aligned := by
  unfold State.walk at h
  split at h
  · cases h
  · split at h
    · cases h
    · exact walkFrom_aligned (by decide) h

theorem State.leaf?_aligned {s : State} {vd va key : Nat} {l : Leaf} (h : s.leaf? vd va key = some l) : l.aligned := by
  unfold State.leaf? at h
  split at h
  · unfold physicalLeaf at h
    split at h
    · cases h
      exact ⟨shiftRight_shiftLeft_mod _ _, le_refl _⟩
    · cases h
  · split at h
    · cases h
    · split at h
      · rename_i l' hl
        split at h
        · cases h
          unfold State.tlbLeaf? at hl
          dsimp only at hl
          split at hl
          · obtain ⟨e, -, rfl⟩ := Option.map_eq_some_iff.mp hl
            exact ⟨shiftRight_shiftLeft_mod _ _, le_max_left _ _⟩
          · cases hl
        · exact State.walk_aligned h
      · exact State.walk_aligned h

/-- A physical address keeps the place in its 64 KiB page (R261). -/
theorem State.translate_mod {s : State} {vd : Nat} {acc : Access} {va key pa : Nat} (h : s.translate vd acc va key = .ok pa) :
    pa % 2 ^ 16 = va % 2 ^ 16 := by
  unfold State.translate at h
  split at h
  · cases h
  · rename_i l hl
    split at h
    · cases h
      obtain ⟨hb, hs⟩ := State.leaf?_aligned hl
      rw [Nat.add_mod, hb, Nat.zero_add, Nat.mod_mod, Nat.mod_mod_of_dvd _ (Nat.pow_dvd_pow 2 hs)]
    · cases h

/-- A naturally aligned location of up to 32 bytes lies in one granule (R275). -/
theorem State.translate_in_granule {s : State} {vd : Nat} {acc : Access} {va key pa n : Nat}
    (h : s.translate vd acc va key = .ok pa) (hn : n ∣ 32) (ha : va % n = 0) : pa % 32 + n ≤ 32 := by
  have hm := State.translate_mod h
  have h32 : pa % 32 = va % 32 := by omega
  have hd : n ∣ pa % 32 := by
    rw [h32]
    exact (Nat.dvd_mod_iff hn).mpr (Nat.dvd_of_mod_eq_zero ha)
  obtain ⟨a, hpa⟩ := hd
  obtain ⟨b, h32n⟩ := hn
  have hlt : n * a < n * b := by rw [← hpa, ← h32n]; exact Nat.mod_lt _ (by omega)
  have hab : a + 1 ≤ b := Nat.lt_of_mul_lt_mul_left hlt
  calc pa % 32 + n = n * (a + 1) := by rw [hpa, Nat.mul_add, Nat.mul_one]
    _ ≤ n * b := Nat.mul_le_mul_left _ hab
    _ = 32 := h32n.symm

/-! ### Bytes after a write at a home (R289) -/

theorem testBit_memRead (m : List Host.Cell) (a n k : Nat) :
    (memRead m a n).testBit k = (decide (k < 8 * n) && (memGet m (a + k / 8)).getLsbD (k % 8)) := by
  induction n generalizing a k with
  | zero => simp [memRead]
  | succ n ih =>
    rw [memRead, Nat.add_comm, show (256 : Nat) = 2 ^ 8 from rfl, Nat.testBit_two_pow_mul_add _ (memGet m a).isLt, ih]
    by_cases hk : k < 8
    · simp [hk, show k < 8 * (n + 1) by omega, Nat.div_eq_of_lt hk, Nat.mod_eq_of_lt hk, BitVec.getLsbD]
    · have hdiv : a + 1 + (k - 8) / 8 = a + k / 8 := by omega
      have hmod : (k - 8) % 8 = k % 8 := by omega
      have hlt : k - 8 < 8 * n ↔ k < 8 * (n + 1) := by omega
      simp only [hk, if_false, hdiv, hmod, hlt]

theorem testBit_mergeBits (old mask data k : Nat) :
    (mergeBits old mask data).testBit k = if mask.testBit k then data.testBit k else old.testBit k := by
  simp only [mergeBits, Nat.testBit_or, Nat.testBit_xor, Nat.testBit_and]
  cases mask.testBit k <;> simp

/-- The bits of a granule that `n` bytes at a physical address take. -/
theorem testBit_byteMask (n k i : Nat) :
    ((2 ^ (8 * n) - 1) <<< (8 * k)).testBit i = decide (8 * k ≤ i ∧ i < 8 * (k + n)) := by
  rw [Nat.testBit_shiftLeft, Nat.testBit_two_pow_sub_one, ← Bool.decide_and, decide_eq_decide]
  omega

/-- A byte after a store at a home that lies in one granule: one of the bytes stored, or the byte as it was. -/
theorem State.homeStore_get {s : State} {who pa n v : Nat} {tn ps : Bool} (hw : Memory.wf s.mem = true)
    (hn : pa % 32 + n ≤ 32) (i : Nat) :
    memGet (s.homeStore who pa n v tn ps).mem i =
      if pa ≤ i ∧ i < pa + n then BitVec.ofNat 8 (v / 256 ^ (i - pa)) else memGet s.mem i := by
  simp only [State.homeStore, State.writeGranule_mem, State.putGranule_mem, memGet_memWrite _ _ _ _ _ hw]
  by_cases hg : 32 * (pa / 32) ≤ i ∧ i < 32 * (pa / 32) + 32
  · rw [if_pos hg]
    apply BitVec.eq_of_getLsbD_eq
    intro j hj
    have hpow : (256 : Nat) ^ (i - 32 * (pa / 32)) = 2 ^ (8 * (i - 32 * (pa / 32))) := by rw [Nat.pow_mul]
    have hbit : j + 8 * (i - 32 * (pa / 32)) < 8 * 32 := by omega
    have hdiv : 32 * (pa / 32) + (j + 8 * (i - 32 * (pa / 32))) / 8 = i := by omega
    have hmod : (j + 8 * (i - 32 * (pa / 32))) % 8 = j := by omega
    rw [BitVec.getLsbD_ofNat, hpow, Nat.testBit_div_two_pow, testBit_mergeBits, testBit_byteMask, granuleOf, testBit_memRead,
      hdiv, hmod]
    by_cases hi : pa ≤ i ∧ i < pa + n
    · have h1 : 8 * (pa % 32) ≤ j + 8 * (i - 32 * (pa / 32)) ∧
          j + 8 * (i - 32 * (pa / 32)) < 8 * (pa % 32 + n) := by omega
      have h2 : j + 8 * (i - 32 * (pa / 32)) - 8 * (pa % 32) = j + 8 * (i - pa) := by omega
      have h3 : j + 8 * (i - pa) < 8 * n := by omega
      have h4 : (256 : Nat) ^ (i - pa) = 2 ^ (8 * (i - pa)) := by rw [Nat.pow_mul]
      simp only [h1, hi, and_self, decide_true, if_true, Nat.testBit_shiftLeft, Bool.true_and, h2,
        Nat.testBit_mod_two_pow, h3, BitVec.getLsbD_ofNat, h4, Nat.testBit_div_two_pow]
    · have h1 : ¬(8 * (pa % 32) ≤ j + 8 * (i - 32 * (pa / 32)) ∧
          j + 8 * (i - 32 * (pa / 32)) < 8 * (pa % 32 + n)) := by omega
      simp only [h1, hi, decide_false, Bool.false_eq_true, if_false, hj, hbit, decide_true, Bool.true_and]
  · have hi : ¬(pa ≤ i ∧ i < pa + n) := by omega
    rw [if_neg hg, if_neg hi]

/-- The bytes of a location after a store at it, and those elsewhere. -/
theorem State.homeStore_holds {s : State} {who pa n v : Nat} {tn ps : Bool} (hw : Memory.wf s.mem = true)
    (hn : pa % 32 + n ≤ 32) :
    (s.homeStore who pa n v tn ps).holdsBytes ((List.range n).map (pa + ·)) v ∧
      s.sameOutside (s.homeStore who pa n v tn ps) ((List.range n).map (pa + ·)) := by
  constructor
  · intro k hk
    have hk' : k < n := by simpa using hk
    rw [List.getElem_map, List.getElem_range, State.homeStore_get hw hn, if_pos (by omega), Nat.add_sub_cancel_left]
  · intro a ha
    rw [State.homeStore_get hw hn, if_neg]
    rintro ⟨h1, h2⟩
    exact ha (List.mem_map.mpr ⟨a - pa, List.mem_range.mpr (by omega), by omega⟩)

theorem mem_setMember_true (l : List Nat) (g : Nat) : g ∈ setMember l g true := by
  induction l with
  | nil => simp [setMember]
  | cons c r ih =>
    unfold setMember
    split
    · exact List.mem_cons_of_mem _ ih
    · split
      · rename_i h; simp [h]
      · simp

/-- A store of tainted data taints its granule, and one of poisoned data poisons it (R275, R386). -/
theorem State.homeStore_marks {s : State} {who pa n v : Nat} {tn ps : Bool} :
    (tn = true → pa / 32 ∈ (s.homeStore who pa n v tn ps).memTaint) ∧
      (ps = true → pa / 32 ∈ (s.homeStore who pa n v tn ps).memPoison) := by
  have key (full new old : Bool) (h : new = true) : mark full new old = true := by
    unfold mark
    cases full <;> simp [h]
  constructor
  · intro h
    simp only [State.homeStore, State.writeGranule, State.putGranule, key _ _ _ h]
    exact mem_setMember_true _ _
  · intro h
    simp only [State.homeStore, State.writeGranule, State.putGranule, key _ _ _ h]
    exact mem_setMember_true _ _

/-- Of the strand that has the focus a granule write changes no more than its snapshot and the counts of its writes. -/
theorem State.writeGranule_me (s : State) (who : Nat) (home : Bool) (w : GWrite) :
    ∃ stale wseq sseq, (s.writeGranule who home w).me = { s.me with stale := stale, wseq := wseq, sseq := sseq } := by
  simp only [State.writeGranule, Strand.ownWrite, Strand.noteWrite, Strand.countWrite]
  repeat' split
  all_goals exact ⟨_, _, _, rfl⟩

/-- What a store at a home leaves of the strand that has the focus. -/
theorem State.homeStore_me (s : State) (who pa n v : Nat) (tn ps : Bool) :
    ∃ stale wseq sseq, (s.homeStore who pa n v tn ps).me = { s.me with stale := stale, wseq := wseq, sseq := sseq } :=
  s.writeGranule_me _ _ _

end Sys2Proof.Machine
end

section
/-! ## Execution rules (spec 01): strip grants under a watch (R33) -/

namespace Sys2Proof.Machine

/-- What a write of a general register does: the register, unless it is g0, and FLAGS (R41, R155). -/
theorem Strand.setG_flags (m : Strand) (n : Nat) (x : GReg) :
    ∃ flags, m.setG n x = { m with g := if n = 0 then m.g else m.g.setIfInBounds n x, flags := flags } := by
  unfold Strand.setG
  split
  · exact ⟨m.flags, rfl⟩
  · exact ⟨_, rfl⟩

/-- A write of a general register touches the registers and FLAGS alone. -/
theorem Strand.setG_form (m : Strand) (n : Nat) (x : GReg) :
    ∃ g flags, m.setG n x = { m with g := g, flags := flags } := by
  obtain ⟨flags, h⟩ := m.setG_flags n x
  exact ⟨_, flags, h⟩

/-- The pointers of a strip advance in the general registers (R195). -/
theorem advancePointers_form (e : Entry) (f : Fields) (n : Nat) (m : Strand) :
    ∃ g flags, advancePointers e f n m = { m with g := g, flags := flags } := by
  unfold advancePointers
  refine List.foldlRecOn (motive := fun acc : Strand × List Nat => ∃ g flags, acc.1 = { m with g := g, flags := flags })
    _ _ ⟨m.g, m.flags, rfl⟩ fun acc ⟨g, flags, hacc⟩ k _ => ?_
  dsimp only
  split
  · exact ⟨g, flags, hacc⟩
  · rw [hacc]
    obtain ⟨g', flags', h'⟩ := Strand.setG_form { m with g := g, flags := flags } (setlReg f.imm.toNat k) _
    exact ⟨g', flags', h'⟩

/-- The state of a strand that has read its watch at `pa` and whose producer still runs (R33): a returning home action, and an
acquire at fabric scope. -/
def State.watched (s : State) (pa : Nat) : State :=
  let s1 := s.homeSync (pa / 32) true
  { s1 with me := { s1.me with clock := clockJoin s1.me.clock [] } }.acquire 4

/-- To read a watch changes what the strand has seen alone. -/
theorem State.watched_form (s : State) (pa : Nat) :
    ∃ syncs seen clock stale, s.watched pa = { s with
      syncs := syncs, me := { s.me with seen := seen, clock := clock, stale := stale } } := ⟨_, _, _, _, rfl⟩

/-- What TNT finds where the sources of an entry do not trap. -/
theorem State.consumes.require_taint {s : State} {e : Entry} {f : Fields} {p : Bool} (h : s.consumes e f (gvTainted e) p) :
    (!(trapsTaint f && (gvTainted e || e.qt != 0))) = true := by
  cases hf : trapsTaint f with
  | false => rfl
  | true =>
    obtain ⟨-, ht, hq⟩ := h.1 hf
    rw [ht, hq]
    rfl

/-- What the POISON trap finds where the sources of an entry do not trap. -/
theorem State.consumes.require_poison {s : State} {e : Entry} {f : Fields} {t p : Bool} (h : s.consumes e f t p) :
    (!(p && s.poisonTrap)) = true := by
  cases hp : s.poisonTrap with
  | false => rw [Bool.and_false]; rfl
  | true => rw [h.2 hp]; rfl

/-- The watch in force of a strand whose producer still runs (R33): the rows that fit below the watch's value, or none while
fewer elements than one row lie ahead. -/
theorem watchLimit_of_producer_running {s : State} {f : Fields} {rows cols p watch pa : Nat} (h0 : watch ≠ 0) (h8 : watch % 8 = 0)
    (hva : watch < 2 ^ 56) (hpa : s.translate s.vd .rd watch = .ok pa)
    (ht : trapsTaint f = true → s.memTaint.contains (pa / 32) = false) (hdone : s.producerDone.1 = false) (hcols : cols ≠ 0)
    (hrows : 0 < rows) :
    watchLimit s f rows cols p watch = .ok (s.watched pa,
      if cols ≤ memRead s.mem pa 8 - p then some (min rows ((memRead s.mem pa 8 - p) / cols)) else none) := by
  have htaint : (!(trapsTaint f && s.memTaint.contains (pa / 32))) = true := by
    cases hf : trapsTaint f with
    | false => rfl
    | true => rw [ht hf]; rfl
  have hat : s.transAt s.vd .rd watch = .ok pa := by simp only [State.transAt, hpa]
  unfold watchLimit State.watched
  simp only [beq_eq_false_iff_ne.mpr h0, h8, hva, hat, hdone, htaint, beq_eq_false_iff_ne.mpr hcols,
    beq_eq_false_iff_ne.mpr hrows.ne', require, beq_self_eq_true, decide_true, Bool.false_eq_true, if_false, if_true,
    Bool.or_false, Bool.false_and, bind, Except.bind, pure, Except.pure, decide_eq_true_eq]
  split <;> rfl

/-- The width that a SETL grants (R194). -/
def Entry.setlCols (e : Entry) : Nat :=
  min (min e.gb.val.toNat 65535) (e.grows.toNat * 2048 / Fmt.size (bits e.vcfg.toNat 4 0))

/-- The rows that a SETL grants without a watch, at a residency whose GROWS is `grows` (R194, R20). -/
def Entry.setlRows (e : Entry) (grows : Nat) : Nat :=
  if e.setlCols = 0 then 0
  else min (min e.ga.val.toNat (min e.grows.toNat grows)) (e.grows.toNat * 2048 / Fmt.size (bits e.vcfg.toNat 4 0) / e.setlCols)

/-- Where the strip of a SETL begins (R195). -/
def Entry.setlBase (e : Entry) : Nat := (e.stripb.toNat + e.rows.toNat * e.cols.toNat) % 2 ^ 64

section Limit

variable {s s1 : State} {e : Entry} {f : Fields}

/-- A SETL that its watch holds back sleeps. -/
theorem serveSetl_waits (hcons : s.consumes e f (gvTainted e) (gvPoisoned e))
    (h : watchLimit s f (e.setlRows s.me.grows) e.setlCols e.setlBase e.gc.val.toNat = .ok (s1, none)) :
    serveSetl e f s = .wait { s1 with me := { s1.me with sleep := some (s1.me.sleep.getD { since := s1.now }) } } := by
  unfold Entry.setlRows Entry.setlCols Entry.setlBase at h
  unfold serveSetl
  simp only [hcons.require_taint, hcons.require_poison, require, beq_iff_eq, h, if_true, bind, Except.bind]

/-- A SETL that its watch lets through sets the grant, and else changes registers, FLAGS, the PC and the stores of a spliced body
alone. -/
theorem serveSetl_grants {r : Nat} (hcons : s.consumes e f (gvTainted e) (gvPoisoned e))
    (h : watchLimit s f (e.setlRows s.me.grows) e.setlCols e.setlBase e.gc.val.toNat = .ok (s1, some r)) :
    ∃ g flags pc spliced, serveSetl e f s = .done { s1 with me := { s1.me with
      g := g, flags := flags, pc := pc, spliced := spliced
      rows := BitVec.ofNat 16 r, cols := BitVec.ofNat 16 e.setlCols, stripb := BitVec.ofNat 64 e.setlBase } } := by
  unfold Entry.setlRows Entry.setlCols Entry.setlBase at h
  unfold serveSetl
  simp only [hcons.require_taint, hcons.require_poison, require, beq_iff_eq, h, if_true, bind, Except.bind]
  obtain ⟨g₁, fl₁, h₁⟩ := advancePointers_form e f (e.rows.toNat * e.cols.toNat) s1.me
  rw [h₁]
  cases (s1.spliceWord? s1.me.launch.toNat e.pc).bind SpliceWord.second with
  | none =>
    dsimp only [Option.isSome_none]
    obtain ⟨g₂, fl₂, h₂⟩ := Strand.setG_form (Strand.raise _ (flagIf (gvPoisoned e) flPSN)) f.d.toNat _
    rw [h₂]
    split <;> exact ⟨g₂, fl₂, _, _, rfl⟩
  | some d₂ =>
    dsimp only [Option.isSome_some]
    obtain ⟨g₂, fl₂, h₂⟩ := Strand.setG_form _ d₂ _
    rw [h₂]
    obtain ⟨g₃, fl₃, h₃⟩ := Strand.setG_form (Strand.raise _ (flagIf (gvPoisoned e) flPSN)) f.d.toNat _
    rw [h₃]
    split <;> exact ⟨g₃, fl₃, _, _, rfl⟩

end Limit

/-- Settles O37: `watchLimit` gives the rows below the watch, or none; the grant sets ROWS, COLS and STRIPB, and the advanced
pointers leave them alone. -/
theorem stripWatch : Obligations.StripWatch := by
  intro f s e pa n p capE cols rows ahead hwake hq he hw hm hsplice hcons hwatch h8 hva hpa ht hdone hrows
  have hcols : cols ≠ 0 := fun h => by simp [rows, h] at hrows
  have hhead : s.headWord 0x40 = some f := by
    simp only [State.headWord, hq, he, opOf_packWord, fieldsOf_packWord, beq_self_eq_true, if_true]
  have hlimit : watchLimit s f rows cols p e.gc.val.toNat = .ok (s.watched pa,
      if cols ≤ ahead then some (min rows (ahead / cols)) else none) :=
    watchLimit_of_producer_running (fun h => hwatch (BitVec.eq_of_toNat_eq h)) h8 hva hpa ht hdone hcols hrows
  have hexec : exec .setlWake s = .next ((serveSetl e f s).close e s.nextId) := by
    dsimp only [exec, execSetlWake]
    rw [hhead]
    simp only [hwake, if_true]
    exact runArray_of_head hq he hw hm
  obtain ⟨syncs, seen, clock, stale, hseen⟩ := s.watched_form pa
  rw [hexec]
  rw [hseen] at hlimit
  refine ⟨fun hlt => ?_, fun hle => ?_⟩
  · rw [if_neg (not_le.mpr hlt)] at hlimit
    rw [serveSetl_waits hcons hlimit]
    exact ⟨_, rfl, hq, rfl, rfl, rfl, rfl, fun _ => rfl, rfl, rfl⟩
  · rw [if_pos hle] at hlimit
    obtain ⟨g, flags, pc, spliced, hgrant⟩ := serveSetl_grants hcons hlimit
    rw [hgrant]
    exact ⟨_, rfl, congrArg List.tail hq, rfl, rfl, rfl, rfl, fun _ => rfl, rfl, rfl⟩

end Sys2Proof.Machine
end

section
/-! ## Execution rules (spec 01): home actions, PB, FENCE, CLAIM and PUBL

A home action at a home of this device changes the location, the destination register, FLAGS and what orders the strand's
accesses; `State.Orders` says what the ordering parts leave alone. -/

namespace Sys2Proof.Machine

/-! ### What releases, acquires and home actions leave alone (R281, R287, R288) -/

/-- Of a strand no more has changed than FLAGS and what orders its accesses: its clock, its releases, what it has seen, its
snapshot and the counts of its writes. -/
def Strand.OrderOnly (m m' : Strand) : Prop :=
  ∃ flags clock rel seen stale wseq sseq, m' = { m with
    flags := flags, clock := clock, rel := rel, seen := seen, stale := stale, wseq := wseq, sseq := sseq }

theorem Strand.OrderOnly.trans {a b c : Strand} (h : a.OrderOnly b) (h' : b.OrderOnly c) : a.OrderOnly c := by
  obtain ⟨_, _, _, _, _, _, _, rfl⟩ := h
  obtain ⟨_, _, _, _, _, _, _, rfl⟩ := h'
  exact ⟨_, _, _, _, _, _, _, rfl⟩

/-- Memory is as it was, and of the strand that has the focus no more has changed than FLAGS and what orders its accesses. -/
structure State.Orders (s t : State) : Prop where
  mem : t.mem = s.mem
  taint : t.memTaint = s.memTaint
  poison : t.memPoison = s.memPoison
  me : s.me.OrderOnly t.me

theorem State.Orders.refl (s : State) : s.Orders s := ⟨rfl, rfl, rfl, _, _, _, _, _, _, _, rfl⟩

theorem State.Orders.trans {a b c : State} (h : a.Orders b) (h' : b.Orders c) : a.Orders c :=
  ⟨h'.mem.trans h.mem, h'.taint.trans h.taint, h'.poison.trans h.poison, h.me.trans h'.me⟩

theorem State.Orders.sameMemory {a b : State} (h : a.Orders b) : a.sameMemory b :=
  ⟨fun x => by rw [h.mem], h.taint, h.poison⟩

theorem State.orders_raise (s : State) (fl : Flags) : s.Orders (s.raise fl) := ⟨rfl, rfl, rfl, _, _, _, _, _, _, _, rfl⟩

theorem State.orders_release (s : State) (scope : Nat) : s.Orders (s.release scope) := ⟨rfl, rfl, rfl, _, _, _, _, _, _, _, rfl⟩

theorem State.orders_acquire (s : State) (scope : Nat) : s.Orders (s.acquire scope) := ⟨rfl, rfl, rfl, _, _, _, _, _, _, _, rfl⟩

theorem State.orders_homeSync (s : State) (g : Nat) (returning : Bool) : s.Orders (s.homeSync g returning) :=
  ⟨rfl, rfl, rfl, _, _, _, _, _, _, _, rfl⟩

theorem State.orders_releaseIf (s : State) (scope : Option Nat) : s.Orders (s.releaseIf scope) := by
  cases scope with
  | none => exact .refl s
  | some c => exact s.orders_release c

theorem State.orders_acquireIf (s : State) (scope : Option Nat) : s.Orders (s.acquireIf scope) := by
  cases scope with
  | none => exact .refl s
  | some c => exact s.orders_acquire c

/-! ### The location of a home action -/

/-- The write of a home action: none, or the new value with the taint and poison of its data (R306). -/
def State.homeWrite (s : State) (pa n : Nat) (new : Option Nat) (data : GReg) (isF : Bool) : State :=
  match new with
  | some v => s.homeStore s.me.sid pa n v (data.taint || isF) data.poison
  | none => s

/-- What a home action on `n` bytes does to memory, seen from a state `s` before it. -/
def State.HomeWritten (s t : State) (pa n : Nat) (new : Option Nat) (data : GReg) (isF : Bool) : Prop :=
  (∀ v, new = some v → t.holdsBytes ((List.range n).map (pa + ·)) v ∧ s.sameOutside t ((List.range n).map (pa + ·)) ∧
    (data.taint || isF = true → pa / 32 ∈ t.memTaint) ∧ (data.poison = true → pa / 32 ∈ t.memPoison)) ∧
  (new = none → s.sameMemory t)

theorem State.homeWrite_me (s : State) (pa n : Nat) (new : Option Nat) (data : GReg) (isF : Bool) :
    s.me.OrderOnly (s.homeWrite pa n new data isF).me := by
  cases new with
  | none => exact ⟨_, _, _, _, _, _, _, rfl⟩
  | some v =>
    obtain ⟨_, _, _, h⟩ := s.homeStore_me s.me.sid pa n v (data.taint || isF) data.poison
    exact ⟨_, _, _, _, _, _, _, h⟩

theorem State.homeWrite_written {s w t : State} {pa n : Nat} {new : Option Nat} {data : GReg} {isF : Bool} (hs : s.Inv)
    (hw : s.Orders w) (hn : pa % 32 + n ≤ 32) (ht : (w.homeWrite pa n new data isF).Orders t) :
    s.HomeWritten t pa n new data isF := by
  have hwf : Memory.wf w.mem = true := by rw [hw.mem]; exact hs
  obtain ⟨hmem, htaint, hpoison, -⟩ := ht
  constructor
  · rintro v rfl
    obtain ⟨hbytes, hout⟩ := State.homeStore_holds (who := w.me.sid) (v := v) (tn := data.taint || isF) (ps := data.poison) hwf hn
    obtain ⟨hmt, hmp⟩ := State.homeStore_marks (s := w) (who := w.me.sid) (pa := pa) (n := n) (v := v)
      (tn := data.taint || isF) (ps := data.poison)
    refine ⟨fun k hk => ?_, fun a ha => ?_, fun h => ?_, fun h => ?_⟩
    · rw [hmem]; exact hbytes k hk
    · rw [hmem, ← hw.mem]; exact hout a ha
    · rw [htaint]; exact hmt (by simpa using h)
    · rw [hpoison]; exact hmp h
  · rintro rfl
    exact ⟨fun a => by rw [hmem]; exact hw.sameMemory.1 a, htaint.trans hw.taint, hpoison.trans hw.poison⟩

/-! ### A home action at a home of this device (R304 to R306) -/

/-- The destination of a home action (R306). -/
def homeResult (kind : PeerKind) (x : Nat × Bool × Bool) : GReg :=
  { val := BitVec.ofNat 64 x.1, taint := x.2.1 || kind == .amof, poison := x.2.2 }

/-- The return of a home action orders the strand and writes the destination. -/
theorem homeReturn_form (kind : PeerKind) (f : Fields) (s : State) (x : Nat × Bool × Bool) (fl : Flags) :
    ∃ w, s.Orders w ∧ homeReturn kind f s x.1 x.2.1 x.2.2 fl =
      if returns kind then w.setG f.d.toNat (homeResult kind x) else w :=
  ⟨(s.raise fl).acquireIf (homeOrder kind f).2, (s.orders_raise fl).trans (State.orders_acquireIf _ _), rfl⟩

/-- A home action whose granule does not trap: it orders, writes the location, and returns. -/
theorem homeHere_form {kind : PeerKind} {f : Fields} {e : Entry} {s u : State} {pa n : Nat} {x : Nat × Bool × Bool}
    {new : Option Nat} (hn : homeSize kind f.fn.toNat = n) (hx : s.homeLoad pa n = x)
    (hnew : (homeStep kind f.fn.toNat (8 * n) x.1 e.gb.val.toNat e.gc.val.toNat).1 = new)
    (hc : returns kind = true → u.consumes e f x.2.1 x.2.2) (hp : s.poisonTrap = u.poisonTrap) :
    ∃ w fl, s.Orders w ∧ homeHere kind f e s pa = .ok (homeReturn kind f
      (w.homeWrite pa n new (homeData kind f e) (kind == .amof)) x.1 x.2.1 x.2.2 fl) := by
  have hcons : ∃ s0, s.Orders s0 ∧ (returns kind = true → consume s e f x.2.1 x.2.2 = .ok s0) ∧
      (returns kind = false → s = s0) := by
    cases hr : returns kind with
    | true => exact ⟨_, s.orders_raise _, fun _ => consume_of_consumes (hc hr) hp, nofun⟩
    | false => exact ⟨s, .refl s, nofun, fun _ => rfl⟩
  obtain ⟨s0, h0, hyes, hno⟩ := hcons
  refine ⟨(s0.releaseIf (homeOrder kind f).1).homeSync (pa / 32) (returns kind),
    if kind == .amof then (homeStep kind f.fn.toNat (8 * n) x.1 e.gb.val.toNat e.gc.val.toNat).2 ||| flTNT
    else (homeStep kind f.fn.toNat (8 * n) x.1 e.gb.val.toNat e.gc.val.toNat).2,
    h0.trans ((s0.orders_releaseIf _).trans (State.orders_homeSync _ _ _)), ?_⟩
  unfold homeHere State.homeWrite
  cases hr : returns kind with
  | true =>
    simp only [hn, hx, hyes hr, hnew, if_true, bind, Except.bind, pure, Except.pure] <;> rfl
  | false =>
    cases hno hr
    simp only [hn, hx, hnew, Bool.false_eq_true, if_false, bind, Except.bind, pure, Except.pure] <;> rfl

/-- A naturally aligned address below 2^56 that translates names a home of this device (R304). -/
theorem homeTarget_here {s : State} {a n pa : Nat} {acc : Access} {fab : Bool} (hn : a % n = 0) (ha : a < 2 ^ 56)
    (hpa : s.translate s.vd acc a = .ok pa) : homeTarget s a n acc fab = .ok (.here pa) := by
  have hbit : bit a 63 = false := by
    rw [bit, Nat.testBit_lt_two_pow (ha.trans (by decide))]
  unfold homeTarget State.homeAt
  simp only [hn, ha, hpa, hbit, require, beq_self_eq_true, decide_true, Bool.false_and, Bool.false_eq_true, if_true, if_false,
    bind, Except.bind, pure, Except.pure]

/-- What a home action on `n` bytes at `pa` leaves, once it has retired: the strand but for its destination, FLAGS and what orders
it; memory but for the location. -/
def State.HomeActed (s t : State) (f : Fields) (pa n : Nat) (new : Option Nat) (data r : GReg) (returning isF : Bool) : Prop :=
  s.HomeWritten t pa n new data isF ∧ t.me.pc = s.me.pc + 16 ∧ t.me.queue = [] ∧ t.me.q = s.me.q ∧ t.me.sameArrays s.me ∧
    t.me.sameSpecial s.me ∧
    t.me.g = if returning && f.d != 0 then s.me.g.setIfInBounds f.d.toNat r else s.me.g

section HomeAction

variable {s : State} {f : Fields} {op : BitVec 8} {pa n : Nat} {new : Option Nat} {x : Nat × Bool × Bool}

/-- What `State.HomeActed` says of memory is of memory alone, and of the strand what `OrderOnly` and a register write leave. -/
theorem State.homeActed_close {w : State} {data : GReg} {kind : PeerKind}
    (hw : (s.entered op f).me.OrderOnly w.me) (hmem : s.HomeWritten w pa n new data (kind == .amof)) (r : GReg) (first : Nat) :
    s.HomeActed ((Served.done (if returns kind then w.setG f.d.toNat r else w)).close (s.capture op f) first) f pa n new data r
      (returns kind) (kind == .amof) := by
  obtain ⟨flags, clock, rel, seen, stale, wseq, sseq, hme⟩ := hw
  cases hr : returns kind with
  | false =>
    refine ⟨hmem, ?_⟩
    simp only [Served.close, State.retire_eq, hme, Bool.false_eq_true, if_false, Bool.false_and]
    exact ⟨rfl, rfl, rfl, ⟨rfl, rfl, rfl, rfl⟩, by simp [Strand.sameSpecial, State.entered], rfl⟩
  | true =>
    obtain ⟨flags', hset⟩ := w.me.setG_flags f.d.toNat r
    have hd : (f.d != 0) = !decide (f.d.toNat = 0) := by
      rw [Bool.eq_iff_iff]
      simp [← BitVec.toNat_inj]
    refine ⟨hmem, ?_⟩
    simp only [Served.close, State.retire_eq, State.setG_eq, if_true, Bool.true_and]
    rw [hset, hme]
    refine ⟨rfl, rfl, rfl, ⟨rfl, rfl, rfl, rfl⟩, by simp [Strand.sameSpecial, State.entered], ?_⟩
    rw [hd]
    by_cases h0 : f.d.toNat = 0 <;> simp [h0, State.entered]

/-- A home action at the head of the queue whose home lies on this device, and whose sources do not trap (R304 to R306). -/
theorem serveHome_form {kind : PeerKind} (h : s.serves op f) (hn : homeSize kind f.fn.toNat = n)
    (ha : (s.capture op f).ga.val.toNat % n = 0) (hva : (s.capture op f).ga.val.toNat < 2 ^ 56)
    (hpa : s.translate s.vd (homeAccess kind) (s.capture op f).ga.val.toNat = .ok pa)
    (hc : s.consumes (s.capture op f) f
      ((homeRegs kind f (s.capture op f)).any GReg.taint || returns kind && s.memTaint.contains (pa / 32))
      ((homeRegs kind f (s.capture op f)).any GReg.poison || returns kind && s.memPoison.contains (pa / 32)))
    (hnew : (homeStep kind f.fn.toNat (8 * n) (memRead s.mem pa n) (s.capture op f).gb.val.toNat
      (s.capture op f).gc.val.toNat).1 = new) :
    ∃ w w', (s.entered op f).Orders w ∧ (w.homeWrite pa n new (homeData kind f (s.capture op f)) (kind == .amof)).Orders w' ∧
      serveHome kind f (s.capture op f) (s.entered op f) =
        .done (if returns kind then w'.setG f.d.toNat (homeResult kind (s.homeLoad pa n)) else w') := by
  obtain ⟨-, -, hwork, -, hawait, -⟩ := h
  have hsight := s.sameSight_entered op f
  have htrap := hsight.poisonTrap
  have howes : ((homeOrder kind f).1.map fun sc => (s.entered op f).owes sc).getD false = false := by
    cases (homeOrder kind f).1 with
    | none => rfl
    | some sc => exact State.owes_of_no_work hwork sc
  have hregs := consume_of_consumes (hc.mono (fun h => (Bool.or_eq_true _ _).mpr (.inl h))
    (fun h => (Bool.or_eq_true _ _).mpr (.inl h))) htrap
  have htarget := homeTarget_here (fab := true) ha hva ((hsight.translate s.vd _ _ _).trans hpa)
  obtain ⟨w, fl, hw, hhere⟩ := homeHere_form (kind := kind) (e := s.capture op f) (u := s) (pa := pa)
    (s := (s.entered op f).raise (flagIf ((homeRegs kind f (s.capture op f)).any GReg.poison) flPSN)) hn
    (x := s.homeLoad pa n) rfl hnew
    (fun hr => hc.mono (fun h => (Bool.or_eq_true _ _).mpr (.inr ((Bool.and_eq_true _ _).mpr ⟨hr, h⟩)))
      (fun h => (Bool.or_eq_true _ _).mpr (.inr ((Bool.and_eq_true _ _).mpr ⟨hr, h⟩)))) htrap
  obtain ⟨w', hw', hret⟩ := homeReturn_form kind f (w.homeWrite pa n new (homeData kind f (s.capture op f)) (kind == .amof))
    (s.homeLoad pa n) fl
  refine ⟨w, w', (State.orders_raise _ _).trans hw, hw', ?_⟩
  rw [← hret]
  unfold serveHome regCheck
  simp only [show (s.entered op f).me.awaiting = false from hawait, howes, hregs, hn, htarget, hhere, Bool.false_eq_true, if_false,
    bind, Except.bind, pure, Except.pure]

/-- A home action of this device that is served as soon as it is fetched. -/
theorem runArray_serveHome {kind : PeerKind} (hs : s.Inv) (h : s.serves op f) (hop : op ≠ 0x42)
    (hn : homeSize kind f.fn.toNat = n) (h32 : n ∣ 32)
    (ha : (s.capture op f).ga.val.toNat % n = 0) (hva : (s.capture op f).ga.val.toNat < 2 ^ 56)
    (hpa : s.translate s.vd (homeAccess kind) (s.capture op f).ga.val.toNat = .ok pa)
    (hc : s.consumes (s.capture op f) f
      ((homeRegs kind f (s.capture op f)).any GReg.taint || returns kind && s.memTaint.contains (pa / 32))
      ((homeRegs kind f (s.capture op f)).any GReg.poison || returns kind && s.memPoison.contains (pa / 32)))
    (hnew : (homeStep kind f.fn.toNat (8 * n) (memRead s.mem pa n) (s.capture op f).gb.val.toNat
      (s.capture op f).gc.val.toNat).1 = new) :
    ∃ t, runArray op f s (serveHome kind f) = .next t ∧
      s.HomeActed t f pa n new (homeData kind f (s.capture op f)) (homeResult kind (s.homeLoad pa n)) (returns kind)
        (kind == .amof) := by
  obtain ⟨w, w', hw, hw', hserve⟩ := serveHome_form h hn ha hva hpa hc hnew
  refine ⟨_, runArray_of_serves h hop, ?_⟩
  rw [hserve]
  exact State.homeActed_close (hw.me.trans ((State.homeWrite_me _ _ _ _ _ _).trans hw'.me))
    (State.homeWrite_written (s := s.entered op f) hs hw (State.translate_in_granule hpa (hn ▸ h32) ha) hw') _ _

end HomeAction

end Sys2Proof.Machine
end

section
/-! ## Execution rules (spec 01): home actions that only order, CLAIM and PUBL -/

namespace Sys2Proof.Machine

/-! ### PB and FENCE (R281, R284, R307) -/

/-- The state in which a word stands at the head of the queue that it found empty, with the strand's registers as in `m`. -/
def State.enteredAs (s : State) (op : BitVec 8) (f : Fields) (m : Strand) : State :=
  { s with me := { m with pc := s.me.pc + 16, issued := s.now, queue := [s.capture op f] } }

theorem State.entered_release {s : State} (hq : s.me.queue = []) (op : BitVec 8) (f : Fields) (scope : Nat) :
    (s.entered op f).release scope = s.enteredAs op f (s.release scope).me := by
  have hmark : s.me.headMark = s.me.sseq := by rw [Strand.headMark, hq]; rfl
  unfold State.release
  rw [hmark]
  rfl

/-- A word that leaves all but the strand alone retires with the strand as it left it. -/
theorem State.enteredAs_close {s : State} {op : BitVec 8} {f : Fields} {m : Strand} (hwork : m.work = [])
    (hplace : m.place = s.me.place) (first : Nat) :
    (Served.done (s.enteredAs op f m)).close (s.capture op f) first = s.retires m := by
  simp only [Served.close, State.retire_eq, State.enteredAs, State.retires, hwork, hplace, List.find?_nil, Option.map_none,
    State.now, State.cycleOf, List.tail_cons]

/-- PB releases and acquires as its FN says (R307). -/
theorem execPb_of_serves {s : State} {f : Fields} (h : s.serves 0x90 f) :
    exec (.pb f) s = .next (s.retires
      (let r := if f.fn.getLsbD 3 then s.release (f.fn.toNat % 8) else s
       if f.fn.getLsbD 4 then r.acquire (f.fn.toNat % 8) else r).me) := by
  have hrun := runArray_of_serves (body := fun _ t => servePb f t) h (by decide)
  obtain ⟨hq, -, hwork, -⟩ := h
  have howes : (s.entered 0x90 f).owes (bits f.fn.toNat 2 0) = false := State.owes_of_no_work hwork _
  have hclose {m : Strand} (hm : s.me.OrderOnly m) :
      (Served.done (s.enteredAs 0x90 f m)).close (s.capture 0x90 f) s.nextId = s.retires m := by
    obtain ⟨_, _, _, _, _, _, _, hm⟩ := hm
    exact State.enteredAs_close (by rw [hm]; exact hwork) (by rw [hm]) _
  dsimp only [exec, execPb]
  rw [hrun]
  unfold servePb
  dsimp only
  rw [howes, Bool.and_false, if_neg Bool.false_ne_true, State.entered_release hq, bits_zero_eq_mod]
  refine congrArg _ ?_
  unfold bit BitVec.getLsbD
  cases f.fn.toNat.testBit 3 <;> cases f.fn.toNat.testBit 4
  · exact hclose (State.Orders.refl s).me
  · exact hclose (s.orders_acquire _).me
  · exact hclose (s.orders_release _).me
  · exact hclose ((s.orders_release _).trans (State.orders_acquire _ _)).me

/-- FENCE leaves the order to the queue (R284). -/
theorem execFence_of_serves {s : State} {f : Fields} (h : s.serves 0x91 f) : exec (.fence f) s = .next (s.retires s.me) := by
  have hrun := runArray_of_serves (body := fun _ t => serveFence f t) h (by decide)
  obtain ⟨hq, -, hwork, -⟩ := h
  dsimp only [exec, execFence]
  rw [hrun]
  unfold serveFence
  rw [show (s.entered 0x91 f).me.work = [] from hwork, List.isEmpty_nil, Bool.not_true, Bool.and_false,
    if_neg Bool.false_ne_true]
  exact congrArg _ (State.enteredAs_close hwork rfl _)

/-! ### CLAIM and PUBL (R31, R32, R314) -/

/-- A naturally aligned address below 2^56 that translates (R304). -/
theorem localHome_ok {s : State} {a n pa : Nat} {acc : Access} (hn : a % n = 0) (ha : a < 2 ^ 56)
    (hpa : s.translate s.vd acc a = .ok pa) : localHome s a n acc = .ok pa := by
  unfold localHome State.homeAt
  simp only [hn, ha, hpa, require, beq_self_eq_true, decide_true, if_true, bind, Except.bind]

theorem growsOf_lt (res : Nat) : growsOf res < 2 ^ 16 := by
  unfold growsOf
  repeat' split
  all_goals decide

/-- The GROWS that CLAIM captures is the GROWS in force (R18). -/
theorem capture_claim_grows (s : State) (f : Fields) : (s.capture 0x99 f).grows.toNat = s.me.grows := by
  have h : (s.capture 0x99 f).grows = BitVec.ofNat 16 s.me.grows := rfl
  rw [h, BitVec.toNat_ofNat]
  exact Nat.mod_eq_of_lt (growsOf_lt _)

section ClaimPubl

variable {s : State} {f : Fields} {pa : Nat}

/-- CLAIM at the head of the queue, where nothing traps: it orders, takes its rows from the counter, and writes STRIPB, ROWS
and its destination. -/
theorem serveClaim_form (ha : (s.capture 0x99 f).ga.val.toNat % 16 = 0) (hva : (s.capture 0x99 f).ga.val.toNat < 2 ^ 56)
    (hpa : s.translate s.vd .rw (s.capture 0x99 f).ga.val.toNat = .ok pa)
    (hc : s.consumes (s.capture 0x99 f) f
      ([(s.capture 0x99 f).ga, (s.capture 0x99 f).gb].any GReg.taint || s.memTaint.contains (pa / 32))
      ([(s.capture 0x99 f).ga, (s.capture 0x99 f).gb].any GReg.poison || s.memPoison.contains (pa / 32)))
    {grant : Nat} (hgrant : grant = min (min (s.capture 0x99 f).gb.val.toNat s.me.grows)
      (memRead s.mem (pa + 8) 8 - memRead s.mem pa 8)) :
    ∃ w, (s.entered 0x99 f).Orders w ∧ ∃ w', w' = w.homeWrite pa 8 (if grant = 0 then none else some (memRead s.mem pa 8 + grant))
        (s.capture 0x99 f).gb false ∧
      serveClaim f (s.capture 0x99 f) (s.entered 0x99 f) =
        .done (State.setG { w' with me := { w'.me with
          stripb := BitVec.ofNat 64 (memRead s.mem pa 8), rows := BitVec.ofNat 16 grant } } f.d.toNat
          { val := BitVec.ofNat 64 (memRead s.mem pa 8), taint := s.memTaint.contains (pa / 32)
            poison := s.memPoison.contains (pa / 32) }) := by
  have hsight := s.sameSight_entered 0x99 f
  have hregs := consume_of_consumes (hc.mono (fun h => (Bool.or_eq_true _ _).mpr (.inl h))
    (fun h => (Bool.or_eq_true _ _).mpr (.inl h))) hsight.poisonTrap
  generalize hu : (s.entered 0x99 f).raise (flagIf ([(s.capture 0x99 f).ga, (s.capture 0x99 f).gb].any GReg.poison) flPSN) = u
    at hregs
  have hu1 : (s.entered 0x99 f).Orders u := hu ▸ State.orders_raise _ _
  have hload (a : Nat) : u.homeLoad a 8 =
      (memRead s.mem a 8, s.memTaint.contains (a / 32), s.memPoison.contains (a / 32)) := by rw [← hu]; rfl
  have hgranule := consume_of_consumes (u := u) (hc.mono (fun h => (Bool.or_eq_true _ _).mpr (.inr h))
    (fun h => (Bool.or_eq_true _ _).mpr (.inr h))) (by rw [← hu]; exact hsight.poisonTrap)
  generalize hv : u.raise (flagIf (s.memPoison.contains (pa / 32)) flPSN) = v at hgranule
  have hv1 : (s.entered 0x99 f).Orders v := hu1.trans (hv ▸ State.orders_raise _ _)
  have hhome := localHome_ok ha hva ((hsight.translate s.vd _ _ _).trans hpa)
  have hmin : min (min (s.capture 0x99 f).gb.val.toNat (min (s.capture 0x99 f).grows.toNat (s.entered 0x99 f).me.grows))
      (memRead s.mem (pa + 8) 8 - memRead s.mem pa 8) = grant := by
    rw [capture_claim_grows, show (s.entered 0x99 f).me.grows = s.me.grows from rfl, Nat.min_self, hgrant]
  refine ⟨v.homeSync (pa / 32) true, hv1.trans (State.orders_homeSync _ _ _), _, rfl, ?_⟩
  unfold serveClaim regCheck Served.ofR State.homeWrite
  simp only [hregs, hhome, hload, hgranule, hmin, bind, Except.bind, pure, Except.pure]
  by_cases h0 : grant = 0
  · simp only [h0, if_true, beq_self_eq_true]
  · simp only [h0, if_false, beq_eq_false_iff_ne.mpr h0, Bool.false_eq_true, Bool.or_false]

/-- PUBL at the head of the queue, where nothing traps: it orders, and raises the value at its home. -/
theorem servePubl_form (hwork : s.me.work = []) (ha : (s.capture 0x9A f).ga.val.toNat % 8 = 0)
    (hva : (s.capture 0x9A f).ga.val.toNat < 2 ^ 56) (hpa : s.translate s.vd .rw (s.capture 0x9A f).ga.val.toNat = .ok pa)
    (hc : s.consumes (s.capture 0x9A f) f ([(s.capture 0x9A f).ga, (s.capture 0x9A f).gb].any GReg.taint)
      ([(s.capture 0x9A f).ga, (s.capture 0x9A f).gb].any GReg.poison)) :
    ∃ w, (s.entered 0x9A f).Orders w ∧ servePubl f (s.capture 0x9A f) (s.entered 0x9A f) = .done (w.homeWrite pa 8
      (if (s.capture 0x9A f).gb.val.toNat ≤ memRead s.mem pa 8 then none else some (s.capture 0x9A f).gb.val.toNat)
      (s.capture 0x9A f).gb false) := by
  have hsight := s.sameSight_entered 0x9A f
  have hregs := consume_of_consumes hc hsight.poisonTrap
  generalize hu : (s.entered 0x9A f).raise (flagIf ([(s.capture 0x9A f).ga, (s.capture 0x9A f).gb].any GReg.poison) flPSN) = u
    at hregs
  have hu1 : (s.entered 0x9A f).Orders u := hu ▸ State.orders_raise _ _
  have hload : (u.homeLoad pa 8).1 = memRead s.mem pa 8 := by rw [← hu]; rfl
  have hhome := localHome_ok ha hva ((hsight.translate s.vd _ _ _).trans hpa)
  have howes : (s.entered 0x9A f).owes (bits f.fn.toNat 2 0) = false := State.owes_of_no_work hwork _
  refine ⟨(u.release (bits f.fn.toNat 2 0)).homeSync (pa / 32) false,
    hu1.trans ((State.orders_release _ _).trans (State.orders_homeSync _ _ _)), ?_⟩
  unfold servePubl regCheck Served.ofR State.homeWrite
  simp only [howes, hregs, hhome, hload, Bool.false_eq_true, if_false, bind, Except.bind, pure, Except.pure]
  split
  · rfl
  · simp only [Bool.or_false]

end ClaimPubl

/-! ### The obligation -/

theorem bits_seven_five (x : BitVec 8) : bits x.toNat 7 5 = x.toNat / 32 := by
  rw [bits_eq_div_mod]
  exact Nat.mod_eq_of_lt (by have := x.isLt; omega)

/-- The bits of the location of LDA and AMO: 32 or 64 (R308, R309). -/
def homeWidth (f : Fields) : Nat := if f.fn.getLsbD 2 then 32 else 64

theorem homeSize_of_width {kind : PeerKind} (f : Fields) (hk : kind = .lda ∨ kind = .amo) :
    homeSize kind f.fn.toNat = homeWidth f / 8 ∧ 8 * (homeWidth f / 8) = homeWidth f ∧ homeWidth f / 8 ∣ 32 := by
  have hsize : homeSize kind f.fn.toNat = if f.fn.getLsbD 2 then 4 else 8 := by
    rcases hk with rfl | rfl <;> rfl
  rw [hsize, homeWidth]
  cases f.fn.getLsbD 2 <;> decide

/-- The seven operations of AMO but CAS, by the code of bits 7:5 of FN (R309). -/
theorem homeStep_amo {f : Fields} (w old b c : Nat) (hfn : f.fn.toNat / 32 < 7) :
    (homeStep .amo f.fn.toNat w old b c).1 = ([(old + b % 2 ^ w) % 2 ^ w,
      if toSigned w old ≤ toSigned w (b % 2 ^ w) then old else b % 2 ^ w,
      if toSigned w (b % 2 ^ w) ≤ toSigned w old then old else b % 2 ^ w,
      old &&& b % 2 ^ w, old ||| b % 2 ^ w, old ^^^ b % 2 ^ w, b % 2 ^ w] : List Nat)[f.fn.toNat / 32]? := by
  unfold homeStep
  dsimp only
  rw [bits_seven_five]
  generalize f.fn.toNat / 32 = k at hfn
  interval_cases k <;> rfl

/-- CAS stores its third operand where the location holds the second (R309). -/
theorem homeStep_cas {f : Fields} (w old b c : Nat) (hfn : f.fn.toNat / 32 = 7) :
    (homeStep .amo f.fn.toNat w old b c).1 = if old = b % 2 ^ w then some (c % 2 ^ w) else none := by
  unfold homeStep
  dsimp only
  rw [bits_seven_five, hfn]
  simp only [beq_iff_eq]

/-- SIG stores its operand, or adds it (R311). -/
theorem homeStep_sig (f : Fields) (old c : Nat) (b : Word) :
    (homeStep .sig f.fn.toNat (8 * 8) old b.toNat c).1 =
      some (if f.fn.getLsbD 3 then b.toNat else (old + b.toNat) % 2 ^ 64) := by
  unfold homeStep
  dsimp only
  rw [Nat.mod_eq_of_lt b.isLt]
  rfl

/-- The general registers after a write of one of them. -/
theorem Strand.getG_of_g {m m' : Strand} {n : Nat} {r : GReg}
    (h : m'.g = if n = 0 then m.g else m.g.setIfInBounds n r) :
    (n ≠ 0 → n < 32 → m'.getG n = r) ∧ ∀ k, k ≠ n → m'.getG k = m.getG k := by
  constructor
  · intro h0 hlt
    rw [Strand.getG, h, if_neg h0, if_neg h0, getD_setIfInBounds _ _ _ _ _ hlt, if_pos rfl]
  · intro k hk
    unfold Strand.getG
    rw [h]
    by_cases h0 : n = 0
    · rw [if_pos h0]
    · rw [if_neg h0, Vector.getElem?_setIfInBounds_ne (Ne.symm hk)]

/-- What a home action on `n` bytes at `pa` needs: its home lies on this device, and nothing that it consumes traps. -/
def State.HomeReady (s : State) (f : Fields) (pa : Nat) (op : BitVec 8) (n : Nat) (acc : Access) (regs : List GReg)
    (returning : Bool) : Prop :=
  s.Inv ∧ s.serves op f ∧ (s.me.getG f.a.toNat).val.toNat % n = 0 ∧ (s.me.getG f.a.toNat).val.toNat < 2 ^ 56 ∧
    s.translate s.vd acc (s.me.getG f.a.toNat).val.toNat = .ok pa ∧
    s.consumes (s.capture op f) f (regs.any GReg.taint || returning && s.memTaint.contains (pa / 32))
      (regs.any GReg.poison || returning && s.memPoison.contains (pa / 32))

section Kinds

variable {s : State} {f : Fields} {pa : Nat}

/-- A home action whose registers are named (R306): `runArray_serveHome` at the captured registers of its slots. -/
theorem runArray_homeAction {n w : Nat} {kind : PeerKind} {op : BitVec 8} {b c data : GReg} {regs : List GReg}
    {new : Option Nat} (hop : op ≠ 0x42)
    (hga : (s.capture op f).ga = s.me.getG f.a.toNat) (hgb : (s.capture op f).gb = b) (hgc : (s.capture op f).gc = c)
    (hregs : homeRegs kind f (s.capture op f) = regs) (hdata : homeData kind f (s.capture op f) = data)
    (hn : homeSize kind f.fn.toNat = n) (hw : 8 * n = w) (h32 : n ∣ 32)
    (hnew : (homeStep kind f.fn.toNat w (memRead s.mem pa n) b.val.toNat c.val.toNat).1 = new)
    (h : s.HomeReady f pa op n (homeAccess kind) regs (returns kind)) :
    ∃ t, runArray op f s (serveHome kind f) = .next t ∧
      s.HomeActed t f pa n new data (homeResult kind (s.homeLoad pa n)) (returns kind) (kind == .amof) := by
  subst hgb hgc hregs hdata hw
  obtain ⟨hs, hserves, ha, hva, hpa, hc⟩ := h
  rw [← hga] at ha hva hpa
  exact runArray_serveHome hs hserves hop hn h32 ha hva hpa hc hnew

theorem exec_lda (h : s.HomeReady f pa 0x92 (homeWidth f / 8) .rd [s.me.getG f.a.toNat] true) :
    ∃ t, exec (.lda f) s = .next t ∧ s.HomeActed t f pa (homeWidth f / 8) none {}
      (homeResult .lda (s.homeLoad pa (homeWidth f / 8))) true false := by
  have hga : (s.capture 0x92 f).ga = s.me.getG f.a.toNat := capture_ga rfl (by decide) (by decide) rfl
  obtain ⟨hn, hw, h32⟩ := homeSize_of_width (kind := .lda) f (.inl rfl)
  obtain ⟨t, hx, ⟨-, hnone⟩, hrest⟩ := runArray_homeAction (kind := .lda) (by decide) hga rfl rfl (congrArg (fun r => [r]) hga)
    rfl hn hw h32 rfl h
  exact ⟨t, hx, ⟨nofun, fun _ => hnone rfl⟩, hrest⟩

theorem exec_amo (hfn : f.fn.toNat / 32 < 7)
    (h : s.HomeReady f pa 0x93 (homeWidth f / 8) .rw [s.me.getG f.a.toNat, s.me.getG f.b.toNat] true) :
    ∃ t, exec (.amo f) s = .next t ∧ s.HomeActed t f pa (homeWidth f / 8)
      (homeStep .amo f.fn.toNat (homeWidth f) (memRead s.mem pa (homeWidth f / 8)) (s.me.getG f.b.toNat).val.toNat
        (s.capture 0x93 f).gc.val.toNat).1 (s.me.getG f.b.toNat)
      (homeResult .amo (s.homeLoad pa (homeWidth f / 8))) true false := by
  have hga : (s.capture 0x93 f).ga = s.me.getG f.a.toNat := capture_ga rfl (by decide) (by decide) rfl
  have hgb : (s.capture 0x93 f).gb = s.me.getG f.b.toNat := capture_gb rfl (by decide) rfl
  have h7 : (bits f.fn.toNat 7 5 == 7) = false := by rw [bits_seven_five]; exact beq_eq_false_iff_ne.mpr hfn.ne
  obtain ⟨hn, hw, h32⟩ := homeSize_of_width (kind := .amo) f (.inr rfl)
  exact runArray_homeAction (kind := .amo) (by decide) hga hgb rfl
    (by simp only [homeRegs, h7, hga, hgb, Bool.false_eq_true, if_false])
    (by simp only [homeData, h7, hgb, Bool.false_eq_true, if_false]) hn hw h32 rfl h

theorem exec_cas (hfn : f.fn.toNat / 32 = 7) (h : s.HomeReady f pa 0x93 (homeWidth f / 8) .rw
      [s.me.getG f.a.toNat, s.me.getG f.b.toNat, s.me.getG f.c.toNat] true) :
    ∃ t, exec (.amo f) s = .next t ∧ s.HomeActed t f pa (homeWidth f / 8)
      (homeStep .amo f.fn.toNat (homeWidth f) (memRead s.mem pa (homeWidth f / 8)) (s.me.getG f.b.toNat).val.toNat
        (s.me.getG f.c.toNat).val.toNat).1 (s.me.getG f.c.toNat)
      (homeResult .amo (s.homeLoad pa (homeWidth f / 8))) true false := by
  have h7 : (bits f.fn.toNat 7 5 == 7) = true := by rw [bits_seven_five]; exact beq_iff_eq.mpr hfn
  have hga : (s.capture 0x93 f).ga = s.me.getG f.a.toNat := capture_ga rfl (by decide) (by decide) rfl
  have hgb : (s.capture 0x93 f).gb = s.me.getG f.b.toNat := capture_gb rfl (by decide) rfl
  have hgc : (s.capture 0x93 f).gc = s.me.getG f.c.toNat := capture_gc rfl (by decide) (by simp only [h7, if_true])
  obtain ⟨hn, hw, h32⟩ := homeSize_of_width (kind := .amo) f (.inr rfl)
  exact runArray_homeAction (kind := .amo) (by decide) hga hgb hgc (by simp only [homeRegs, h7, hga, hgb, hgc, if_true])
    (by simp only [homeData, h7, hgc, if_true]) hn hw h32 rfl h

theorem exec_amof (h : s.HomeReady f pa 0x94 4 .rw [s.me.getG f.a.toNat, s.me.getG f.b.toNat] true) :
    ∃ t, exec (.amof f) s = .next t ∧ s.HomeActed t f pa 4
      (homeStep .amof f.fn.toNat 32 (memRead s.mem pa 4) (s.me.getG f.b.toNat).val.toNat
        (s.capture 0x94 f).gc.val.toNat).1 (s.me.getG f.b.toNat) (homeResult .amof (s.homeLoad pa 4)) true true := by
  have hga : (s.capture 0x94 f).ga = s.me.getG f.a.toNat := capture_ga rfl (by decide) (by decide) rfl
  have hgb : (s.capture 0x94 f).gb = s.me.getG f.b.toNat := capture_gb rfl (by decide) rfl
  exact runArray_homeAction (kind := .amof) (n := 4) (by decide) hga hgb rfl (by rw [← hga, ← hgb]; rfl) hgb rfl rfl (by decide)
    rfl h

theorem exec_sig (h : s.HomeReady f pa 0x95 8 .rw [s.me.getG f.a.toNat, s.me.getG f.b.toNat] false) :
    ∃ t, exec (.sig f) s = .next t ∧ s.HomeActed t f pa 8
      (homeStep .sig f.fn.toNat (8 * 8) (memRead s.mem pa 8) (s.me.getG f.b.toNat).val.toNat
        (s.capture 0x95 f).gc.val.toNat).1 (s.me.getG f.b.toNat) (homeResult .sig (s.homeLoad pa 8)) false false := by
  have hga : (s.capture 0x95 f).ga = s.me.getG f.a.toNat := capture_ga rfl (by decide) (by decide) rfl
  have hgb : (s.capture 0x95 f).gb = s.me.getG f.b.toNat := capture_gb rfl (by decide) rfl
  exact runArray_homeAction (kind := .sig) (n := 8) (by decide) hga hgb rfl (by rw [← hga, ← hgb]; rfl) hgb rfl rfl (by decide)
    rfl h

/-- CLAIM takes rows up to the limit, and says where they begin (R32, R314). -/
theorem exec_claim (h : s.HomeReady f pa 0x99 16 .rw [s.me.getG f.a.toNat, s.me.getG f.b.toNat] true) {grant : Nat}
    (hgrant : grant = min (min (s.me.getG f.b.toNat).val.toNat s.me.grows) (memRead s.mem (pa + 8) 8 - memRead s.mem pa 8)) :
    ∃ t, exec (.claim f) s = .next t ∧
      s.HomeWritten t pa 8 (if grant = 0 then none else some (memRead s.mem pa 8 + grant)) (s.me.getG f.b.toNat) false ∧
      (t.me.pc = s.me.pc + 16 ∧ t.me.queue = [] ∧ t.me.q = s.me.q ∧ t.me.sameArrays s.me) ∧
      t.me.stripb = BitVec.ofNat 64 (memRead s.mem pa 8) ∧ t.me.rows = BitVec.ofNat 16 grant ∧
      t.me.g = if f.d.toNat = 0 then s.me.g else s.me.g.setIfInBounds f.d.toNat
        { val := BitVec.ofNat 64 (memRead s.mem pa 8), taint := s.memTaint.contains (pa / 32)
          poison := s.memPoison.contains (pa / 32) } := by
  have hga : (s.capture 0x99 f).ga = s.me.getG f.a.toNat := capture_ga rfl (by decide) (by decide) rfl
  have hgb : (s.capture 0x99 f).gb = s.me.getG f.b.toNat := capture_gb rfl (by decide) rfl
  obtain ⟨hs, hserves, ha, hva, hpa, hc⟩ := h
  have h32 : pa % 32 + 8 ≤ 32 := by
    have := State.translate_in_granule hpa (by decide) ha
    omega
  have hrun := runArray_of_serves (body := serveClaim f) hserves (by decide)
  rw [← hga] at ha hva hpa
  rw [← hga, ← hgb] at hc
  obtain ⟨w, hw, w', hw', hserve⟩ := serveClaim_form ha hva hpa hc (hgb ▸ hgrant)
  rw [hgb] at hw'
  have hmem : (s.entered 0x99 f).HomeWritten w' pa 8 (if grant = 0 then none else some (memRead s.mem pa 8 + grant))
      (s.me.getG f.b.toNat) false := State.homeWrite_written hs hw h32 (by rw [← hw']; exact .refl w')
  obtain ⟨flags, clock, rel, seen, stale, wseq, sseq, hme⟩ :=
    hw.me.trans (hw' ▸ State.homeWrite_me _ _ _ _ _ _ : w.me.OrderOnly w'.me)
  rw [hserve] at hrun
  have hexec : exec (.claim f) s = runArray 0x99 f s (serveClaim f) := by dsimp only [exec, execClaim]
  rw [hexec, hrun]
  refine ⟨_, rfl, hmem, ?_⟩
  simp only [Served.close, State.retire_eq, State.setG_eq]
  obtain ⟨flags', hset⟩ := Strand.setG_flags { w'.me with
    stripb := BitVec.ofNat 64 (memRead s.mem pa 8), rows := BitVec.ofNat 16 grant } f.d.toNat
    { val := BitVec.ofNat 64 (memRead s.mem pa 8), taint := s.memTaint.contains (pa / 32)
      poison := s.memPoison.contains (pa / 32) }
  rw [hset, hme]
  exact ⟨⟨rfl, rfl, rfl, rfl, rfl, rfl, rfl⟩, rfl, rfl, rfl⟩

/-- PUBL raises the value at its home (R31, R314). -/
theorem exec_publ (h : s.HomeReady f pa 0x9A 8 .rw [s.me.getG f.a.toNat, s.me.getG f.b.toNat] false) :
    ∃ t, exec (.publ f) s = .next t ∧
      s.HomeWritten t pa 8 (if (s.me.getG f.b.toNat).val.toNat ≤ memRead s.mem pa 8 then none
        else some (s.me.getG f.b.toNat).val.toNat) (s.me.getG f.b.toNat) false ∧
      (t.me.pc = s.me.pc + 16 ∧ t.me.queue = [] ∧ t.me.q = s.me.q ∧ t.me.sameArrays s.me) ∧
      t.me.g = s.me.g ∧ t.me.sameSpecial s.me := by
  have hga : (s.capture 0x9A f).ga = s.me.getG f.a.toNat := capture_ga rfl (by decide) (by decide) rfl
  have hgb : (s.capture 0x9A f).gb = s.me.getG f.b.toNat := capture_gb rfl (by decide) rfl
  obtain ⟨hs, hserves, ha, hva, hpa, hc⟩ := h
  have h32 := State.translate_in_granule hpa (by decide) ha
  have hrun := runArray_of_serves (body := servePubl f) hserves (by decide)
  rw [← hga] at ha hva hpa
  rw [← hga, ← hgb, Bool.false_and, Bool.false_and, Bool.or_false, Bool.or_false] at hc
  obtain ⟨w, hw, hserve⟩ := servePubl_form hserves.2.2.1 ha hva hpa hc
  rw [hgb] at hserve
  generalize hw' : w.homeWrite pa 8 _ _ false = w' at hserve
  have hmem : (s.entered 0x9A f).HomeWritten w' pa 8 (if (s.me.getG f.b.toNat).val.toNat ≤ memRead s.mem pa 8 then none
      else some (s.me.getG f.b.toNat).val.toNat) (s.me.getG f.b.toNat) false :=
    State.homeWrite_written hs hw h32 (by rw [hw']; exact .refl w')
  obtain ⟨flags, clock, rel, seen, stale, wseq, sseq, hme⟩ :=
    hw.me.trans (hw' ▸ State.homeWrite_me _ _ _ _ _ _ : w.me.OrderOnly w'.me)
  have hexec : exec (.publ f) s = runArray 0x9A f s (servePubl f) := by dsimp only [exec, execPubl]
  rw [hexec, hrun, hserve]
  refine ⟨_, rfl, hmem, ?_⟩
  simp only [Served.close, State.retire_eq]
  rw [hme]
  exact ⟨⟨rfl, rfl, rfl, rfl, rfl, rfl, rfl⟩, rfl, by simp [Strand.sameSpecial, State.entered]⟩

end Kinds

/-- Settles O44: a home action of each kind is `runArray_serveHome` at the kind's registers, CLAIM and PUBL are their forms. -/
theorem homeActions : Obligations.HomeActions := by
  intro f s pa fn a b c gt gp bytes ready keeps acts w x
  have hacts {i : Instr} {n : Nat} {v : Option Nat} {new : Nat → Option Nat} {data r : GReg} {returning isF : Bool}
      (h : ∃ t, exec i s = .next t ∧ s.HomeActed t f pa n v data r returning isF) (hv : v = new (memRead s.mem pa n))
      (hr : r = { val := BitVec.ofNat 64 (memRead s.mem pa n), taint := gt || isF, poison := gp }) :
      acts i n new data returning isF := by
    obtain ⟨t, hx, ⟨hsome, hnone⟩, hpc, hq, hqr, harr, hspec, hg⟩ := h
    subst hv hr
    exact ⟨t, hx, ⟨hpc, hq, hqr, harr⟩, hspec, hsome, hnone, hg⟩
  clear_value acts
  refine ⟨fun h => ?_, fun hfn h => ?_, fun hfn h => ?_, fun h => ?_, fun h => ?_, fun h => ?_, fun h => ?_,
    execPb_of_serves, execFence_of_serves⟩
  · refine hacts (exec_lda h) ?_ rfl
    rfl
  · refine hacts (exec_amo hfn h) ?_ rfl
    exact homeStep_amo _ _ _ _ hfn
  · refine hacts (exec_cas hfn h) ?_ rfl
    exact homeStep_cas _ _ _ _ hfn
  · refine hacts (exec_amof h) ?_ rfl
    rfl
  · refine hacts (exec_sig h) ?_ rfl
    exact homeStep_sig _ _ _ _
  · obtain ⟨t, hx, ⟨hsome, hnone⟩, hkeeps, hstripb, hrows, hg⟩ := exec_claim h rfl
    refine ⟨t, hx, hkeeps, hstripb, hrows, fun hd hlt => ?_, fun k hk => ?_, fun h0 => ?_, ?_⟩
    · rw [(Strand.getG_of_g hg).1 (fun h0 => hd (BitVec.eq_of_toNat_eq h0)) hlt]
    · exact (Strand.getG_of_g hg).2 k hk
    · exact (hsome _ (if_neg h0)).1
    · split
      · exact fun a _ => (hnone (if_pos ‹_›)).1 a
      · exact (hsome _ (if_neg ‹_›)).2.1
  · obtain ⟨t, hx, ⟨hsome, hnone⟩, hkeeps, hg, hspec⟩ := exec_publ h
    refine ⟨t, hx, hkeeps, hg, hspec, fun hlt => ?_, fun hle => hnone (if_pos hle)⟩
    obtain ⟨hbytes, hout, -⟩ := hsome _ (if_neg (not_le.mpr hlt))
    exact ⟨hbytes, hout⟩

end Sys2Proof.Machine
end

section
/-! ## Execution rules (spec 01): waits and barriers (R34 to R37)

A waiting word reads its homes in the state at the head of the queue, whether it has just entered or wakes there; the forms below
are of that state, and the obligation's two cases are instances of them. -/

namespace Sys2Proof.Machine

/-! ### Completing and falling asleep -/

theorem Strand.setQ_flags (m : Strand) (n : Nat) (x : QReg) :
    ∃ flags, m.setQ n x = { m with q := if n = 0 then m.q else m.q.setIfInBounds n x, flags := flags } := by
  unfold Strand.setQ
  split
  · exact ⟨m.flags, rfl⟩
  · exact ⟨_, rfl⟩

/-- What a wait leaves alone, whether it completes or sleeps on. -/
def State.WaitKept (s t : State) : Prop :=
  t.me.g = s.me.g ∧ t.me.v = s.me.v ∧ t.me.z = s.me.z ∧ t.me.t = s.me.t ∧ t.me.sameSpecial s.me ∧ s.sameMemory t

theorem State.Orders.waitKept {s t : State} (h : s.Orders t) : s.WaitKept t := by
  obtain ⟨_, _, _, _, _, _, _, hme⟩ := h.me
  refine ⟨?_, ?_, ?_, ?_, ?_, h.sameMemory⟩
  all_goals rw [hme]
  simp [Strand.sameSpecial]

section Close

variable {s w : State} {e : Entry} {first : Nat}

/-- A wait that completes with a predicate. -/
theorem close_setQ (h : s.Orders w) (d : Nat) (r : QReg) :
    ∃ t, (Served.done (w.setQ d r)).close e first = t ∧ t.me.pc = s.me.pc ∧ t.me.queue = s.me.queue.tail ∧ t.me.m = s.me.m ∧
      t.me.q = (if d = 0 then s.me.q else s.me.q.setIfInBounds d r) ∧ s.WaitKept t := by
  obtain ⟨_, _, _, _, _, _, _, hme⟩ := h.me
  obtain ⟨flags, hset⟩ := w.me.setQ_flags d r
  refine ⟨_, rfl, ?_⟩
  simp only [Served.close, State.retire_eq, State.setQ_eq, State.WaitKept]
  rw [hset, hme]
  exact ⟨rfl, rfl, rfl, rfl, rfl, rfl, rfl, rfl, by simp [Strand.sameSpecial], h.sameMemory⟩

/-- A wait that completes without a result. -/
theorem close_orders (h : s.Orders w) :
    ∃ t, (Served.done w).close e first = t ∧ t.me.pc = s.me.pc ∧ t.me.queue = s.me.queue.tail ∧ t.me.m = s.me.m ∧
      t.me.q = s.me.q ∧ s.WaitKept t := by
  obtain ⟨_, _, _, _, _, _, _, hme⟩ := h.me
  refine ⟨_, rfl, ?_⟩
  simp only [Served.close, State.retire_eq, State.WaitKept]
  rw [hme]
  exact ⟨rfl, rfl, rfl, rfl, rfl, rfl, rfl, rfl, by simp [Strand.sameSpecial], h.sameMemory⟩

/-- A wait that sleeps on. -/
theorem fallAsleep_orders (h : s.Orders w) :
    w.fallAsleep.me.queue = s.me.queue ∧ w.fallAsleep.me.sleep.isSome = true ∧ w.fallAsleep.me.q = s.me.q ∧
      w.fallAsleep.me.m = s.me.m ∧ s.WaitKept w.fallAsleep := by
  have hkeep : s.WaitKept w.fallAsleep := h.waitKept
  obtain ⟨_, _, _, _, _, _, _, hme⟩ := h.me
  refine ⟨?_, rfl, ?_, ?_, hkeep⟩
  all_goals
    unfold State.fallAsleep
    rw [hme]

end Close

/-! ### WAITS (R34, R312) -/

section Waits

variable {s : State} {e : Entry} {f : Fields} {pa : Nat}

/-- WAITS at the head of the queue, where nothing traps: it completes where its value is reached or its time has passed, and
sleeps otherwise. -/
theorem serveWaits_form (ha : e.ga.val.toNat % 8 = 0) (hva : e.ga.val.toNat < 2 ^ 56)
    (hpa : s.translate s.vd .rd e.ga.val.toNat = .ok pa)
    (hc : s.consumes e f (e.ga.taint || e.gb.taint || e.gc.taint || s.memTaint.contains (pa / 32))
      (e.ga.poison || e.gb.poison || e.gc.poison || s.memPoison.contains (pa / 32))) :
    (∀ met, met = decide (e.gb.val.toNat ≤ memRead s.mem pa 8) → met || s.timedOut e.gc.val.toNat →
      ∃ w, s.Orders w ∧ serveWaits f e s = .done (w.setQ f.d.toNat { val := met, taint := s.memTaint.contains (pa / 32) })) ∧
    (memRead s.mem pa 8 < e.gb.val.toNat → s.timedOut e.gc.val.toNat = false → serveWaits f e s = .wait s.fallAsleep) := by
  have hregs := consume_of_consumes (u := s) (tainted := [e.ga, e.gb, e.gc].any GReg.taint)
    (poisoned := [e.ga, e.gb, e.gc].any GReg.poison) (hc.mono (by simp; tauto) (by simp; tauto)) rfl
  generalize hu : s.raise (flagIf ([e.ga, e.gb, e.gc].any GReg.poison) flPSN) = u at hregs
  have hu1 : s.Orders u := hu ▸ s.orders_raise _
  have hload : u.homeLoad pa 8 = (memRead s.mem pa 8, s.memTaint.contains (pa / 32), s.memPoison.contains (pa / 32)) := by
    rw [← hu]; rfl
  have htime : u.timedOut e.gc.val.toNat = s.timedOut e.gc.val.toNat := by rw [← hu]; rfl
  have hgranule := consume_of_consumes (u := u) (hc.mono (fun h => (Bool.or_eq_true _ _).mpr (.inr h))
    (fun h => (Bool.or_eq_true _ _).mpr (.inr h))) (by rw [← hu]; rfl)
  generalize hv : u.raise (flagIf (s.memPoison.contains (pa / 32)) flPSN) = v at hgranule
  have hv1 : s.Orders v := hu1.trans (hv ▸ u.orders_raise _)
  have hhome := localHome_ok ha hva hpa
  constructor
  · intro met hmet hgo
    have hgo' : (decide (e.gb.val.toNat ≤ memRead s.mem pa 8) || s.timedOut e.gc.val.toNat) = true := hmet ▸ hgo
    refine ⟨if met then (v.homeSync (pa / 32) true).acquire (bits f.fn.toNat 2 0) else v.homeSync (pa / 32) true, ?_, ?_⟩
    · have h1 := hv1.trans (v.orders_homeSync (pa / 32) true)
      split
      · exact h1.trans (State.orders_acquire _ _)
      · exact h1
    · unfold serveWaits regCheck
      simp only [hregs, hhome, hload, hgranule, htime, hgo', if_true, bind, Except.bind, pure, Except.pure]
      rw [hmet]
  · intro hlt hout
    have hno : (decide (e.gb.val.toNat ≤ memRead s.mem pa 8) || s.timedOut e.gc.val.toNat) = false := by
      rw [hout, Bool.or_false, decide_eq_false (not_le.mpr hlt)]
    unfold serveWaits regCheck
    simp only [hregs, hhome, hload, hgranule, htime, hno, Bool.false_eq_true, if_false, bind, Except.bind, pure, Except.pure]

end Waits

/-! ### Waking (R17, R37) -/

/-- A sleeping word at the head of the queue that `go` lets act. -/
theorem wakeHead_of_asleep {s : State} {op : BitVec 8} {f : Fields} {e : Entry} {go : Entry → Fields → Bool}
    {run : Fields → State → Result} (hwake : s.mayWake = true) (hq : s.me.queue = [e]) (he : e.word = packWord op f)
    (hsleep : s.me.sleep.isSome = true) (hgo : go e f = true) : wakeHead op go run s = run f s := by
  unfold wakeHead
  rw [hq]
  simp only [he, opOf_packWord, fieldsOf_packWord, hsleep, hwake, hgo, beq_self_eq_true, Bool.and_self, if_true]

/-! ### WAITV (R35, R312) -/

/-- A list that a fallible function maps: each result comes from an element. -/
theorem mem_of_mapM_ok {α β : Type} {g : α → R β} {xs : List α} {ys : List β} (h : xs.mapM g = .ok ys) :
    ∀ y ∈ ys, ∃ x ∈ xs, g x = .ok y := by
  induction xs generalizing ys with
  | nil =>
    cases h
    exact fun _ hy => nomatch hy
  | cons x xs ih =>
    rw [List.mapM_cons] at h
    obtain ⟨b, hb, h⟩ := bind_ok.mp h
    obtain ⟨bs, hbs, h⟩ := bind_ok.mp h
    cases h
    intro y hy
    rcases List.mem_cons.mp hy with rfl | hy
    · exact ⟨x, List.mem_cons_self .., hb⟩
    · obtain ⟨a, ha, hga⟩ := ih hbs y hy
      exact ⟨a, List.mem_cons_of_mem _ ha, hga⟩

theorem State.SameSight.waitvHomes {s t : State} (h : s.SameSight t) (hv : t.me.v = s.me.v) (hm : t.me.m = s.me.m) (f : Fields)
    (e : Entry) : waitvHomes f e t = Machine.waitvHomes f e s := by
  have hg : t.me.getV = s.me.getV := by funext n; simp only [Strand.getV, hv]
  have hgm : t.me.getM = s.me.getM := by funext n; simp only [Strand.getM, hm]
  have hact : isActive t e f = isActive s e f := by
    funext sh i
    simp only [isActive, maskBit, hgm]
  have hhome : localHome t = localHome s := by
    funext a n acc
    simp only [localHome, State.homeAt, State.vd, h.translate, h.vdid]
  simp only [Machine.waitvHomes, checkMasks, maskAgrees, State.masksTainted, hg, hgm, hact, hhome, h.poisonTrap]

/-- The elements that WAITV compares under the POISON trap are not poisoned. -/
theorem waitvHomes_not_poisoned {s : State} {f : Fields} {e : Entry} {homes : List (Nat × Nat × Nat)}
    (h : waitvHomes f e s = .ok homes) (htrap : s.poisonTrap = true) :
    e.gc.poison = false ∧ (homes.any fun x => ((s.me.getV f.a.toNat).elem 64 x.1).poison ||
      ((s.me.getV f.b.toNat).elem 64 x.1).poison) = false := by
  unfold waitvHomes at h
  obtain ⟨_, -, h⟩ := bind_ok.mp h
  obtain ⟨_, -, h⟩ := bind_ok.mp h
  obtain ⟨_, -, h⟩ := bind_ok.mp h
  obtain ⟨_, -, h⟩ := bind_ok.mp h
  obtain ⟨_, -, h⟩ := bind_ok.mp h
  obtain ⟨_, hpoison, h⟩ := bind_ok.mp h
  rw [require_ok, htrap, Bool.and_true, Bool.not_eq_true', Bool.or_eq_false_iff, List.any_eq_false] at hpoison
  refine ⟨hpoison.1, List.any_eq_false.mpr fun x hx => ?_⟩
  obtain ⟨i, hi, hx⟩ := mem_of_mapM_ok h x hx
  obtain ⟨pa, -, hx⟩ := bind_ok.mp hx
  cases hx
  exact hpoison.2 i hi

/-- Bit `k` of a mask of elements `0, 1, …`, with any bits beyond them. -/
theorem testBit_packElems_one (xs : List Nat) (y k : Nat) (hk : k < xs.length) :
    (packElems 1 xs + y <<< xs.length).testBit k = decide (xs[k] % 2 = 1) := by
  induction xs generalizing k with
  | nil => exact absurd hk (Nat.not_lt_zero _)
  | cons x xs ih =>
    have hsum : packElems 1 (x :: xs) + y <<< (x :: xs).length = 2 * (packElems 1 xs + y <<< xs.length) + x % 2 := by
      simp only [packElems, List.foldr_cons, List.length_cons, Nat.shiftLeft_eq, Nat.pow_succ]
      ring
    rw [hsum]
    cases k with
    | zero => simp [Nat.testBit_zero]
    | succ k =>
      have hdiv : (2 * (packElems 1 xs + y <<< xs.length) + x % 2) / 2 = packElems 1 xs + y <<< xs.length := by omega
      rw [Nat.testBit_succ, hdiv, ih k (by simpa using hk), List.getElem_cons_succ]

/-- A mask written with a bit for every position. -/
theorem MReg.write_bits (old : MReg) (sh : List Nat) (n : Nat) (g : Nat → Bool) (taint : Bool) {k : Nat} (hk : k < n) :
    bit (old.write sh ((List.range n).map fun i => some { val := b2n (g i), taint := taint })).buf k = g k := by
  unfold MReg.write bit
  dsimp only
  generalize hvals : List.map Elt.val _ = vals
  have hlen : vals.length = ((List.range n).map fun i => some ({ val := b2n (g i), taint := taint } : Elt)).length := by
    rw [← hvals, List.length_map, List.length_map, List.length_zipIdx]
  have hkv : k < vals.length := by rw [hlen, List.length_map, List.length_range]; exact hk
  have hval : vals[k] = b2n (g k) := by simp [← hvals]
  rw [← hlen, testBit_packElems_one _ _ _ hkv, hval]
  cases g k <;> rfl

theorem Strand.setM_flags (m : Strand) {n : Nat} (hn : n ≠ 0) (x : MReg) :
    ∃ flags, m.setM n x = { m with m := m.m.setIfInBounds n x, flags := flags } := by
  unfold Strand.setM
  rw [if_neg hn]
  exact ⟨_, rfl⟩

/-- A wait that completes with a mask. -/
theorem close_setM {s w : State} {e : Entry} {first : Nat} (h : s.Orders w) {d : Nat} (h0 : d ≠ 0) (hd : d < 8) (r : MReg) :
    ∃ t, (Served.done (w.setM d r)).close e first = t ∧ t.me.pc = s.me.pc ∧ t.me.queue = s.me.queue.tail ∧ t.me.q = s.me.q ∧
      t.me.getM d = r ∧ (∀ k, k ≠ d → t.me.getM k = s.me.getM k) ∧ s.WaitKept t := by
  obtain ⟨_, _, _, _, _, _, _, hme⟩ := h.me
  obtain ⟨flags, hset⟩ := w.me.setM_flags h0 r
  refine ⟨_, rfl, ?_⟩
  simp only [Served.close, State.retire_eq, State.setM_eq, State.WaitKept]
  rw [hset, hme]
  refine ⟨rfl, rfl, rfl, ?_, fun k hk => ?_, rfl, rfl, rfl, rfl, by simp [Strand.sameSpecial], h.sameMemory⟩
  · rw [Strand.getM, getD_setIfInBounds _ _ _ _ _ hd, if_pos rfl]
  · rw [Strand.getM, getD_setIfInBounds _ _ _ _ _ hd, if_neg hk]
    rfl

/-- The positions whose home does not hold the value awaited (R35). -/
def State.unmet (s : State) (homes : List (Nat × Nat × Nat)) : List Nat :=
  (homes.filter fun h => memRead s.mem h.2.1 8 != h.2.2).map fun h => h.1

theorem State.orders_homeSyncs (s : State) (homes : List (Nat × Nat × Nat)) :
    s.Orders (homes.foldl (fun t h => t.homeSync (h.2.1 / 32) true) s) := by
  induction homes generalizing s with
  | nil => exact .refl s
  | cons h homes ih => exact (s.orders_homeSync _ _).trans (ih _)

section Waitv

variable {s : State} {e : Entry} {f : Fields} {homes : List (Nat × Nat × Nat)}

/-- The values that WAITV reads do not trap. -/
theorem waitv_consumes (hh : waitvHomes f e s = .ok homes)
    (ht : trapsTaint f = true → gvTainted e = false ∧ e.qt = 0 ∧ ∀ h ∈ homes, h.2.1 / 32 ∉ s.memTaint)
    (hp : s.poisonTrap = true → ∀ h ∈ homes, h.2.1 / 32 ∉ s.memPoison) :
    s.consumes e f (homes.any fun h => (s.homeLoad h.2.1 8).2.1)
      ((homes.any fun h => (s.homeLoad h.2.1 8).2.2) ||
        (homes.any fun h => ((s.me.getV f.a.toNat).elem 64 h.1).poison || ((s.me.getV f.b.toNat).elem 64 h.1).poison) ||
        e.gc.poison) := by
  refine ⟨fun hf => ?_, fun hf => ?_⟩
  · obtain ⟨hgv, hqt, hmem⟩ := ht hf
    refine ⟨List.any_eq_false.mpr fun h hx => ?_, hgv, hqt⟩
    simpa [State.homeLoad] using hmem h hx
  · obtain ⟨hgc, hel⟩ := waitvHomes_not_poisoned hh hf
    have hmem : (homes.any fun h => (s.homeLoad h.2.1 8).2.2) = false :=
      List.any_eq_false.mpr fun h hx => by simpa [State.homeLoad] using hp hf h hx
    rw [hmem, hel, hgc]
    rfl

/-- The mask that WAITV leaves: the positions in `unmet` (R35). -/
def waitvMask (old : MReg) (sh unmet : List Nat) (taint : Bool) : MReg :=
  { old.write sh ((List.range (count sh)).map fun i => some { val := b2n (unmet.contains i), taint := taint }) with taint := taint }

/-- WAITV at the head of the queue, where nothing traps: the mask of unmet elements where none is left or its time has passed;
otherwise it sleeps. -/
theorem serveWaitv_form (hh : waitvHomes f e s = .ok homes)
    (ht : trapsTaint f = true → gvTainted e = false ∧ e.qt = 0 ∧ ∀ h ∈ homes, h.2.1 / 32 ∉ s.memTaint)
    (hp : s.poisonTrap = true → ∀ h ∈ homes, h.2.1 / 32 ∉ s.memPoison) :
    ((s.unmet homes).isEmpty || s.timedOut e.gc.val.toNat →
      ∃ w m, s.Orders w ∧ serveWaitv f e s = .done (w.setM f.d.toNat m) ∧ m.shape = (s.me.getV f.a.toNat).shape ∧
        ∀ k < count (s.me.getV f.a.toNat).shape, bit m.buf k = (s.unmet homes).contains k) ∧
    (((s.unmet homes).isEmpty || s.timedOut e.gc.val.toNat) = false → serveWaitv f e s = .wait s.fallAsleep) := by
  have hcons := consume_of_consumes (u := s) (waitv_consumes hh ht hp) rfl
  generalize hu : s.raise _ = u at hcons
  have hu1 : s.Orders u := hu ▸ s.orders_raise _
  have hunmet : (homes.filter fun h => (s.homeLoad h.2.1 8).1 != h.2.2).map (fun h => h.1) = s.unmet homes := rfl
  constructor
  · intro hgo
    have hsync := hu1.trans (u.orders_homeSyncs homes)
    have hacq : s.Orders (if (s.unmet homes).isEmpty then
        (homes.foldl (fun t h => t.homeSync (h.2.1 / 32) true) u).acquire (bits f.fn.toNat 2 0)
        else homes.foldl (fun t h => t.homeSync (h.2.1 / 32) true) u) := by
      split
      · exact hsync.trans (State.orders_acquire _ _)
      · exact hsync
    generalize hw : (if (s.unmet homes).isEmpty then _ else _ : State) = w at hacq
    refine ⟨w, waitvMask (w.me.getM f.d.toNat) (s.me.getV f.a.toNat).shape (s.unmet homes) ((homes.any fun h => (s.homeLoad h.2.1 8).2.1) ||
      (!homes.isEmpty && ((s.me.getV f.a.toNat).taint || (s.me.getV f.b.toNat).taint))), hacq, ?_, rfl,
      fun k hk => MReg.write_bits _ (s.me.getV f.a.toNat).shape _ (fun i => (s.unmet homes).contains i) _ hk⟩
    unfold serveWaitv waitvMask
    simp only [hh, hcons, hunmet, hgo, hw, if_true, bind, Except.bind, pure, Except.pure]
  · intro hno
    unfold serveWaitv
    simp only [hh, hcons, hunmet, hno, Bool.false_eq_true, if_false, bind, Except.bind, pure, Except.pure]

end Waitv

/-! ### BARR (R36, R313) -/

theorem State.orders_putBarrier (s : State) (b : Barrier) : s.Orders (s.putBarrier b) :=
  ⟨rfl, rfl, rfl, _, _, _, _, _, _, _, rfl⟩

theorem State.orders_depart (s : State) (b : Barrier) : s.Orders (s.depart b) := ⟨rfl, rfl, rfl, _, _, _, _, _, _, _, rfl⟩

theorem State.barrier?_key {s : State} {lid scope inst : Nat} {b : Barrier} (h : s.barrier? lid scope inst = some b) :
    b.lid = lid ∧ b.scope = scope ∧ b.inst = inst := by
  have h := List.find?_some h
  simpa [and_assoc] using h

theorem State.barrier?_putBarrier (s : State) (b : Barrier) : (s.putBarrier b).barrier? b.lid b.scope b.inst = some b := by
  simp [State.barrier?, State.putBarrier]

/-- A barrier that a strand has put leads no strand away but those that its record names. -/
theorem State.openBarrier?_putBarrier {s : State} {lid scope sid : Nat} {b : Barrier} (h : s.openBarrier? lid scope sid = none)
    (hb : sid ∉ b.leaving) : (s.putBarrier b).openBarrier? lid scope sid = none := by
  unfold State.openBarrier? at h ⊢
  rw [List.find?_eq_none] at h ⊢
  intro x hx
  rcases List.mem_cons.mp hx with rfl | hx
  · simp [hb]
  · exact h x (List.mem_of_mem_filter hx)

/-- The strands of a launch that count for a barrier do not depend on what orders their accesses. -/
theorem State.participants_congr {s t : State} (hpart : ∀ lid scope inst, t.me.takesPart lid scope inst = s.me.takesPart lid scope inst)
    (hsid : t.me.sid = s.me.sid) (hrest : t.rest = s.rest) (lid scope inst : Nat) :
    t.participants lid scope inst = s.participants lid scope inst := by
  simp only [State.participants, State.strands, hrest, List.filter_cons, hpart]
  split
  · rw [List.map_cons, List.map_cons, hsid]
  · rfl

theorem State.Orders.participants {s t : State} (h : s.Orders t) (hrest : t.rest = s.rest) (lid scope inst : Nat) :
    t.participants lid scope inst = s.participants lid scope inst := by
  obtain ⟨_, _, _, _, _, _, _, hme⟩ := h.me
  exact State.participants_congr (fun _ _ _ => by rw [hme]; rfl) (by rw [hme]) hrest _ _ _

/-- The record of the barrier at which a strand arrives. -/
def State.barrierOr (s : State) (lid scope inst : Nat) : Barrier :=
  (s.barrier? lid scope inst).getD { lid := lid, scope := scope, inst := inst }

/-- The record once the strand has arrived too. -/
def State.arrival (s : State) (lid scope inst : Nat) : Barrier :=
  let b := s.barrierOr lid scope inst
  { b with
    arrived := s.me.sid :: b.arrived
    syncs := { agent := s.me.sid, place := some s.me.place, rel := (s.release scope).me.rel.toList } :: b.syncs }

/-- The strand arrives at a barrier with a release, unless it has arrived (R36). -/
def State.arriveAt (s : State) (lid scope inst : Nat) : State :=
  if (s.barrierOr lid scope inst).arrived.contains s.me.sid then s
  else (s.release scope).putBarrier (s.arrival lid scope inst)

theorem State.barrierOr_key (s : State) (lid scope inst : Nat) :
    (s.barrierOr lid scope inst).lid = lid ∧ (s.barrierOr lid scope inst).scope = scope ∧
      (s.barrierOr lid scope inst).inst = inst := by
  unfold State.barrierOr
  cases h : s.barrier? lid scope inst with
  | none => exact ⟨rfl, rfl, rfl⟩
  | some b => exact State.barrier?_key h

/-- What an arrival leaves: a record that names the strand besides those that had arrived, and opens to nobody new. -/
theorem State.arriveAt_form {s : State} {lid scope inst : Nat} (hopen : s.openBarrier? lid scope s.me.sid = none) :
    ∃ b, (s.arriveAt lid scope inst).barrier? lid scope inst = some b ∧
      (∀ p, p ∈ b.arrived ↔ p = s.me.sid ∨ p ∈ (s.barrierOr lid scope inst).arrived) ∧
      (s.arriveAt lid scope inst).openBarrier? lid scope s.me.sid = none ∧ s.Orders (s.arriveAt lid scope inst) ∧
      (s.arriveAt lid scope inst).rest = s.rest := by
  obtain ⟨hl, hsc, hi⟩ := s.barrierOr_key lid scope inst
  unfold State.arriveAt
  split
  · rename_i hc
    have hmem : s.me.sid ∈ (s.barrierOr lid scope inst).arrived := by simpa using hc
    cases hb : s.barrier? lid scope inst with
    | none => simp [State.barrierOr, hb] at hmem
    | some b =>
      have hor : s.barrierOr lid scope inst = b := by simp [State.barrierOr, hb]
      rw [hor] at hmem ⊢
      refine ⟨b, rfl, fun p => ⟨.inr, ?_⟩, hopen, .refl s, rfl⟩
      rintro (rfl | h)
      · exact hmem
      · exact h
  · refine ⟨s.arrival lid scope inst, ?_, fun p => List.mem_cons, State.openBarrier?_putBarrier hopen ?_,
      (s.orders_release scope).trans (State.orders_putBarrier _ _), rfl⟩
    · have h := State.barrier?_putBarrier (s.release scope) (s.arrival lid scope inst)
      rwa [show (s.arrival lid scope inst).lid = lid from hl, show (s.arrival lid scope inst).scope = scope from hsc,
        show (s.arrival lid scope inst).inst = inst from hi] at h
    · intro hleave
      replace hleave : s.me.sid ∈ (s.barrierOr lid scope inst).leaving := hleave
      unfold State.openBarrier? at hopen
      rw [List.find?_eq_none] at hopen
      cases hb : s.barrier? lid scope inst with
      | none => simp [State.barrierOr, hb] at hleave
      | some b =>
        have hor : s.barrierOr lid scope inst = b := by simp [State.barrierOr, hb]
        rw [hor] at hleave hl hsc
        refine hopen b (List.mem_of_find?_eq_some hb) ?_
        simp [hl, hsc, hleave]

/-- A barrier at which every participant has arrived is complete: all may depart (R36). -/
theorem State.completeBarrier_of_all {s : State} {b : Barrier} (hne : s.participants b.lid b.scope b.inst ≠ [])
    (hall : ∀ p ∈ s.participants b.lid b.scope b.inst, p ∈ b.arrived) :
    s.completeBarrier b = s.putBarrier { b with
      arrived := [], syncs := [], leaving := s.participants b.lid b.scope b.inst, left := b.syncs } := by
  have h1 : (s.participants b.lid b.scope b.inst).isEmpty = false := List.isEmpty_eq_false_iff.mpr hne
  have h2 : ((s.participants b.lid b.scope b.inst).all fun p => b.arrived.contains p) = true :=
    List.all_eq_true.mpr fun p hp => List.contains_iff_mem.mpr (hall p hp)
  unfold State.completeBarrier
  simp only [h1, h2, Bool.not_false, Bool.and_self, if_true]

/-- A barrier that waits for a participant is left alone. -/
theorem State.completeBarrier_of_missing {s : State} {b : Barrier} {p : Nat} (hp : p ∈ s.participants b.lid b.scope b.inst)
    (hmiss : p ∉ b.arrived) : s.completeBarrier b = s := by
  have h : ((s.participants b.lid b.scope b.inst).all fun p => b.arrived.contains p) = false :=
    List.all_eq_false.mpr ⟨p, hp, by simpa using hmiss⟩
  unfold State.completeBarrier
  simp only [h, Bool.and_false, Bool.false_eq_true, if_false]

section Barr

variable {s : State} {f : Fields}

/-- BARR by its parts: where no completed barrier lets the strand go and no release waits, it arrives, the barrier completes if it
can, and the strand departs or sleeps. -/
theorem serveBarr_eq {lid scope inst : Nat} {b : Barrier} (hlid : lid = s.me.launch.toNat) (hscope : scope = f.fn.toNat % 4)
    (hinst : inst = scopeInstance scope s.me.place) (hopen : s.openBarrier? lid scope s.me.sid = none)
    (howes : s.owes scope = false) (hb : (s.arriveAt lid scope inst).barrier? lid scope inst = some b) :
    serveBarr f s = match ((s.arriveAt lid scope inst).completeBarrier b).openBarrier? lid scope s.me.sid with
      | some b1 => .done (((s.arriveAt lid scope inst).completeBarrier b).depart b1)
      | none => .wait ((s.arriveAt lid scope inst).completeBarrier b).fallAsleep := by
  have hbits : bits f.fn.toNat 1 0 = scope := by
    rw [hscope, bits_zero_eq_mod]
    rfl
  subst hlid hinst
  unfold serveBarr
  simp only [hbits, hopen, howes, Bool.false_eq_true, if_false]
  unfold State.arriveAt State.arrival State.barrierOr at hb ⊢
  simp only [hb] <;> rfl

/-- BARR at the head of the queue of a running strand: it departs where every other participant has arrived. -/
theorem serveBarr_departs {lid scope inst : Nat} (hlid : lid = s.me.launch.toNat) (hscope : scope = f.fn.toNat % 4)
    (hinst : inst = scopeInstance scope s.me.place) (hopen : s.openBarrier? lid scope s.me.sid = none)
    (howes : s.owes scope = false) (hme : s.me.sid ∈ s.participants lid scope inst)
    (hall : ∀ p ∈ s.participants lid scope inst, p = s.me.sid ∨ p ∈ (s.barrierOr lid scope inst).arrived) :
    ∃ w, s.Orders w ∧ serveBarr f s = .done w := by
  obtain ⟨b, hb, harr, -, hord, hrest⟩ := State.arriveAt_form (inst := inst) hopen
  obtain ⟨hl, hsc, hi⟩ := State.barrier?_key hb
  have hpart := hord.participants hrest lid scope inst
  have hcomplete := State.completeBarrier_of_all (s := s.arriveAt lid scope inst) (b := b)
    (by rw [hl, hsc, hi, hpart]; exact List.ne_nil_of_mem hme)
    (by rw [hl, hsc, hi, hpart]; exact fun p hp => (harr p).mpr (hall p hp))
  rw [hl, hsc, hi, hpart] at hcomplete
  have heq := serveBarr_eq (f := f) hlid hscope hinst hopen howes hb
  have hgo : ((s.arriveAt lid scope inst).completeBarrier b).openBarrier? lid scope s.me.sid = some { b with
      arrived := [], syncs := [], leaving := s.participants lid scope inst, left := b.syncs } := by
    rw [hcomplete]
    simp [State.openBarrier?, State.putBarrier, hl, hsc, hi, hme]
  rw [hgo] at heq
  refine ⟨_, ?_, heq⟩
  rw [hcomplete]
  exact hord.trans ((State.orders_putBarrier _ _).trans (State.orders_depart _ _))

/-- BARR at the head of the queue of a running strand: it sleeps where a participant is missing. -/
theorem serveBarr_waits {lid scope inst p : Nat} (hlid : lid = s.me.launch.toNat) (hscope : scope = f.fn.toNat % 4)
    (hinst : inst = scopeInstance scope s.me.place) (hopen : s.openBarrier? lid scope s.me.sid = none)
    (howes : s.owes scope = false) (hp : p ∈ s.participants lid scope inst) (hne : p ≠ s.me.sid)
    (hmiss : p ∉ (s.barrierOr lid scope inst).arrived) :
    ∃ w b, s.Orders w ∧ serveBarr f s = .wait w.fallAsleep ∧ w.barrier? lid scope inst = some b ∧ s.me.sid ∈ b.arrived := by
  obtain ⟨b, hb, harr, hnone, hord, hrest⟩ := State.arriveAt_form (inst := inst) hopen
  obtain ⟨hl, hsc, hi⟩ := State.barrier?_key hb
  have hpart := hord.participants hrest lid scope inst
  have hstay : (s.arriveAt lid scope inst).completeBarrier b = s.arriveAt lid scope inst :=
    State.completeBarrier_of_missing (p := p) (by rw [hl, hsc, hi, hpart]; exact hp)
      (fun h => ((harr p).mp h).elim hne hmiss)
  have heq := serveBarr_eq (f := f) hlid hscope hinst hopen howes hb
  rw [hstay, hnone] at heq
  exact ⟨_, b, hord, heq, hb, (harr _).mpr (.inl rfl)⟩

end Barr

/-! ### The obligation -/

/-- A word that was not asleep has no time-out yet. -/
theorem State.timedOut_of_awake {s : State} (h : s.me.sleep = none) (limit : Nat) : s.timedOut limit = false := by
  simp [State.timedOut, h]

theorem State.timedOut_of_slept {s : State} {x : Word} (hsleep : s.me.sleep.isSome = true) (h0 : x ≠ 0)
    (h : x.toNat ≤ s.slept) : s.timedOut x.toNat = true := by
  have h0' : x.toNat ≠ 0 := fun h => h0 (BitVec.eq_of_toNat_eq h)
  simp [State.timedOut, hsleep, h, h0']

theorem bitVec_toNat_eq_zero {n : Nat} {x : BitVec n} : x.toNat = 0 ↔ x = 0 := by
  rw [← BitVec.toNat_inj]
  simp

section Waiting

variable {s : State} {f : Fields} {e : Entry} {pa : Nat}

/-- What WAITS needs of its home and of the registers that it has captured. -/
def State.WaitsReady (s : State) (f : Fields) (pa : Nat) (e : Entry) : Prop :=
  e.ga.val.toNat % 8 = 0 ∧ e.ga.val.toNat < 2 ^ 56 ∧ s.translate s.vd .rd e.ga.val.toNat = .ok pa ∧
    s.consumes e f (e.ga.taint || e.gb.taint || e.gc.taint || s.memTaint.contains (pa / 32))
      (e.ga.poison || e.gb.poison || e.gc.poison || s.memPoison.contains (pa / 32))

/-- WAITS that completes, as the queue is served. -/
theorem serveWaits_done (h : s.WaitsReady f pa e) {met : Bool} (hmet : met = decide (e.gb.val.toNat ≤ memRead s.mem pa 8))
    (hgo : met || s.timedOut e.gc.val.toNat) (first : Nat) :
    ∃ t, (serveWaits f e s).close e first = t ∧ t.me.pc = s.me.pc ∧ t.me.queue = s.me.queue.tail ∧ t.me.m = s.me.m ∧
      t.me.q = (if f.d = 0 then s.me.q else s.me.q.setIfInBounds f.d.toNat
        { val := met, taint := s.memTaint.contains (pa / 32) }) ∧ s.WaitKept t := by
  obtain ⟨ha, hva, hpa, hc⟩ := h
  obtain ⟨w, hw, hserve⟩ := (serveWaits_form ha hva hpa hc).1 met hmet hgo
  have hclose := close_setQ (e := e) (first := first) hw f.d.toNat { val := met, taint := s.memTaint.contains (pa / 32) }
  rw [hserve]
  simpa only [bitVec_toNat_eq_zero] using hclose

theorem serveWaits_asleep (h : s.WaitsReady f pa e) (hlt : memRead s.mem pa 8 < e.gb.val.toNat)
    (hout : s.timedOut e.gc.val.toNat = false) : serveWaits f e s = .wait s.fallAsleep := by
  obtain ⟨ha, hva, hpa, hc⟩ := h
  exact (serveWaits_form ha hva hpa hc).2 hlt hout

/-- WAITV that completes, as the queue is served. -/
theorem serveWaitv_done {homes : List (Nat × Nat × Nat)} (hh : waitvHomes f e s = .ok homes) (hd : f.d.toNat < 8) (h0 : f.d ≠ 0)
    (ht : trapsTaint f = true → gvTainted e = false ∧ e.qt = 0 ∧ ∀ h ∈ homes, h.2.1 / 32 ∉ s.memTaint)
    (hp : s.poisonTrap = true → ∀ h ∈ homes, h.2.1 / 32 ∉ s.memPoison)
    (hgo : (s.unmet homes).isEmpty || s.timedOut e.gc.val.toNat) (first : Nat) :
    ∃ t, (serveWaitv f e s).close e first = t ∧ t.me.pc = s.me.pc ∧ t.me.queue = s.me.queue.tail ∧
      (t.me.q = s.me.q ∧ (t.me.getM f.d.toNat).shape = (s.me.getV f.a.toNat).shape ∧
        (∀ k < count (s.me.getV f.a.toNat).shape, bit (t.me.getM f.d.toNat).buf k = (s.unmet homes).contains k) ∧
        ∀ k, k ≠ f.d.toNat → t.me.getM k = s.me.getM k) ∧ s.WaitKept t := by
  obtain ⟨w, m, hw, hserve, hshape, hbits⟩ := (serveWaitv_form hh ht hp).1 hgo
  obtain ⟨t, hclose, hpc, hq, hqr, hm, hother, hkeep⟩ :=
    close_setM (e := e) (first := first) hw (mt bitVec_toNat_eq_zero.mp h0) hd m
  rw [hserve]
  exact ⟨t, hclose, hpc, hq, ⟨hqr, by rw [hm, hshape], by rw [hm]; exact hbits, hother⟩, hkeep⟩

end Waiting

/-- Settles O45: each word is its form in the state at the head of the queue, just entered or waking there. -/
theorem waitsAndBarriers : Obligations.WaitsAndBarriers := by
  intro f s pa keeps asleep qd home value
  refine ⟨fun hserves hawake hhome => ?_, fun e hasleep hhome => ?_, ?_, ?_, ?_⟩
  · have hgb : (s.capture 0x96 f).gb = s.me.getG f.b.toNat := capture_gb rfl (by decide) rfl
    have hready : (s.entered 0x96 f).WaitsReady f pa (s.capture 0x96 f) := by
      obtain ⟨ha, hva, hpa, hc⟩ := hhome
      exact ⟨ha, hva, ((s.sameSight_entered 0x96 f).translate _ _ _ _).trans hpa, hc⟩
    have hexec : exec (.waits f) s = runArray 0x96 f s fun e t => serveWaits f e t := by dsimp only [exec, execWaits]
    rw [hexec, runArray_of_serves hserves (by decide), ← hgb]
    constructor
    · intro hle
      obtain ⟨t, ht, hpc, hq, hm, hqr, hkeep⟩ := serveWaits_done hready (met := true) (decide_eq_true hle).symm rfl s.nextId
      exact ⟨t, congrArg _ ht, hpc, hq, ⟨hm, hqr⟩, hkeep⟩
    · intro hlt
      rw [serveWaits_asleep hready hlt (State.timedOut_of_awake hawake _)]
      obtain ⟨hq, hsl, hqr, -, hkeep⟩ := fallAsleep_orders (.refl (s.entered 0x96 f))
      exact ⟨_, rfl, hq, hsl, hqr, hkeep⟩
  · obtain ⟨hwake, hq, he, hwork, hmirrors, hsleep⟩ := hasleep
    have hrun : execWaits f s = _ := runArray_of_head (body := fun e t => serveWaits f e t) hq he hwork hmirrors
    constructor
    · intro hle
      have hexec : exec .waitsWake s = execWaits f s := by
        dsimp only [exec, execWaitsWake]
        refine wakeHead_of_asleep hwake hq he hsleep ?_
        obtain ⟨ha, hva, hpa, -⟩ := hhome
        rw [localHome_ok ha hva hpa]
        exact decide_eq_true hle
      obtain ⟨t, ht, -, hqt, hm, hqr, hkeep⟩ := serveWaits_done (s := s) hhome (met := true) (decide_eq_true hle).symm rfl s.nextId
      rw [hq] at hqt
      exact ⟨t, by rw [hexec, hrun, ht], hqt, ⟨hm, hqr⟩, hkeep⟩
    · intro hlt h0 hslept
      have hout := State.timedOut_of_slept hsleep h0 hslept
      have hexec : exec .waitsTimeout s = execWaits f s := by
        dsimp only [exec, execWaitsTimeout]
        exact wakeHead_of_asleep hwake hq he hsleep hout
      obtain ⟨t, ht, -, hqt, hm, hqr, hkeep⟩ := serveWaits_done (s := s) hhome (met := false)
        (decide_eq_false (not_le.mpr hlt)).symm hout s.nextId
      rw [hq] at hqt
      exact ⟨t, by rw [hexec, hrun, ht], hqt, ⟨hm, hqr⟩, hkeep⟩
  · intro va vb unmet safe md
    refine ⟨fun homes hserves hawake hsafe _ => ?_, fun e homes hasleep hsafe => ?_⟩
    · obtain ⟨hh, hd, h0, ht, hp⟩ := hsafe
      replace hh : waitvHomes f (s.capture 0x97 f) (s.entered 0x97 f) = .ok homes :=
        ((s.sameSight_entered 0x97 f).waitvHomes rfl rfl f _).trans hh
      have hexec : exec (.waitv f) s = runArray 0x97 f s fun e t => serveWaitv f e t := by dsimp only [exec, execWaitv]
      rw [hexec, runArray_of_serves hserves (by decide)]
      constructor
      · intro hnone
        obtain ⟨t, hclose, hpc, hq, hmd, hkeep⟩ := serveWaitv_done hh hd h0 ht hp
          (by rw [show (s.entered 0x97 f).unmet homes = [] from hnone]; rfl) s.nextId
        rw [show (s.entered 0x97 f).unmet homes = [] from hnone] at hmd
        exact ⟨t, congrArg _ hclose, hpc, hq, hmd, hkeep⟩
      · intro hsome
        rw [(serveWaitv_form hh ht hp).2 (by
          rw [State.timedOut_of_awake (s := s.entered 0x97 f) hawake, Bool.or_false]
          exact List.isEmpty_eq_false_iff.mpr hsome)]
        obtain ⟨hq, hsl, -, hm, hkeep⟩ := fallAsleep_orders (.refl (s.entered 0x97 f))
        exact ⟨_, rfl, hq, hsl, hm, hkeep⟩
    · obtain ⟨hwake, hq, he, hwork, hmirrors, hsleep⟩ := hasleep
      obtain ⟨hh, hd, h0, ht, hp⟩ := hsafe
      have hrun : execWaitv f s = _ := runArray_of_head (body := fun e t => serveWaitv f e t) hq he hwork hmirrors
      constructor
      · intro hnone
        have hexec : exec .waitvWake s = execWaitv f s := by
          dsimp only [exec, execWaitvWake]
          refine wakeHead_of_asleep hwake hq he hsleep ?_
          rw [hh]
          refine List.all_eq_true.mpr fun h hx => ?_
          have hmet := List.filter_eq_nil_iff.mp (List.map_eq_nil_iff.mp hnone) h hx
          simpa [State.homeLoad] using hmet
        obtain ⟨t, hclose, -, hqt, hmd, hkeep⟩ := serveWaitv_done hh hd h0 ht hp
          (by rw [show s.unmet homes = [] from hnone]; rfl) s.nextId
        rw [show s.unmet homes = [] from hnone] at hmd
        rw [hq] at hqt
        exact ⟨t, by rw [hexec, hrun, hclose], hqt, hmd, hkeep⟩
      · intro hsome hc0 hslept
        have hout := State.timedOut_of_slept hsleep hc0 hslept
        have hexec : exec .waitvTimeout s = execWaitv f s := by
          dsimp only [exec, execWaitvTimeout]
          exact wakeHead_of_asleep hwake hq he hsleep hout
        obtain ⟨t, hclose, -, hqt, hmd, hkeep⟩ := serveWaitv_done hh hd h0 ht hp (by rw [hout, Bool.or_true]) s.nextId
        rw [hq] at hqt
        exact ⟨t, by rw [hexec, hrun, hclose], hqt, hmd, hkeep⟩
  · intro scope lid inst arrived hserves hstatus hleft hopen
    have hexec : exec (.barr f) s = runArray 0x98 f s fun _ t => serveBarr f t := by dsimp only [exec, execBarr]
    have hpart : (s.entered 0x98 f).participants lid scope inst = s.participants lid scope inst :=
      State.participants_congr (s := s) (t := s.entered 0x98 f) (fun _ _ _ => rfl) rfl rfl _ _ _
    have hor : (s.barrierOr lid scope inst).arrived = arrived := by
      unfold State.barrierOr arrived
      cases s.barrier? lid scope inst <;> rfl
    have howes : (s.entered 0x98 f).owes scope = false := State.owes_of_no_work hserves.2.2.1 _
    rw [hexec, runArray_of_serves hserves (by decide)]
    constructor
    · intro hall
      have hme : s.me.sid ∈ s.participants lid scope inst := by
        refine List.mem_map.mpr ⟨s.me, List.mem_filter.mpr ⟨List.mem_cons_self .., ?_⟩, rfl⟩
        simp [Strand.takesPart, Strand.stand, hstatus, hleft, lid, inst]
      obtain ⟨w, hw, hserve⟩ := serveBarr_departs (s := s.entered 0x98 f) (f := f) (lid := lid) (scope := scope) (inst := inst)
        rfl rfl rfl hopen howes (by rw [hpart]; exact hme)
        (by rw [hpart]; exact fun p hp => (hall p hp).imp id (fun h => hor ▸ h))
      rw [hserve]
      obtain ⟨t, hclose, hpc, hq, hm, hqr, hkeep⟩ := close_orders (e := s.capture 0x98 f) (first := s.nextId) hw
      exact ⟨t, congrArg _ hclose, hpc, hq, hqr, hm, hkeep⟩
    · rintro ⟨p, hp, hne, hmiss⟩
      obtain ⟨w, b, hw, hserve, hb, hmem⟩ := serveBarr_waits (s := s.entered 0x98 f) (f := f) (lid := lid) (scope := scope)
        (inst := inst) rfl rfl rfl hopen howes (by rw [hpart]; exact hp) hne (fun h => hmiss (hor ▸ h))
      rw [hserve]
      obtain ⟨hq, -, -, -, hkeep⟩ := fallAsleep_orders hw
      exact ⟨_, b, rfl, hq, hb, hmem, hkeep⟩
  · intro lid scope inst b hb hne hall
    obtain ⟨hl, hsc, hi⟩ := State.barrier?_key hb
    subst hl hsc hi
    dsimp only [exec, execBarrierComplete]
    rw [hb]
    exact congrArg _ (State.completeBarrier_of_all hne hall)

end Sys2Proof.Machine
end

section
/-! ## Execution rules (spec 01): a launch identifier that is not fresh (O53)

LAUNCH_ACCEPT gives a launch the next identifier, and a level that has been cancelled cancels it at once by that identifier. In a
state that already holds a launch of that number, the cancel finds the older launch, and `setLaunch` puts it in the place of both:
no launch of the new identifier keeps the header of the slot. -/

namespace Sys2Proof.Machine

/-- The slot of a task of a graph, a phase and a job of one member each: a record of one strand, and a header without successors. -/
def twinSlot : Nat := 1 <<< 912 + 1 <<< 336 + 0xFFFFFFFFFFFFFFFF <<< 256 + 1 <<< 240 + 1 <<< 224

/-- A virtual device whose queue 0 of die 0 has one slot on offer, at 0x1000. -/
def twinDevice : VDev :=
  { vdid := 1, iface := .run, queues := (List.replicate 64 {}).set 0 { desc := 0x1000 <<< 448, tails := [1] } }

/-- A state whose next identifier a running launch has already, and whose job 0 has been cancelled. -/
def twinState : State :=
  { State.reset with
    me := { State.reset.me with physical := true, vdid := 1 }
    mem := memWrite [] 0x1000 128 twinSlot
    vds := [twinDevice]
    launches := [{ lid := 1, vd := 1, state := .running, strands := [0] }]
    counters := [{ level := .job, vd := 1, start := 1, left := 1, cancelled := true }]
    nextId := 1 }

theorem twinState_device : twinState.vdev? 1 = some twinDevice := by decide +kernel

theorem twinDevice_queues : twinDevice.queues.length = 64 := by decide +kernel

theorem twinDevice_tails : (twinDevice.queue 0 0).tails = [1] := by decide +kernel

theorem twinState_nhead :
    twinState.readHome 1 .rd (8 * ((((twinDevice.queue 0 0).addr.toNat + 36 : Nat) : Int))) 32 = .ok (0, false, false) := by
  decide +kernel

theorem twinState_head :
    twinState.transBits 1 .wr (8 * ((((twinDevice.queue 0 0).addr.toNat + 44 : Nat) : Int))) 32 = .ok [44, 45, 46, 47] := by
  decide +kernel

theorem twinState_slot :
    let q := twinDevice.queue (0 : BitVec 2).toNat (0 : BitVec 4).toNat
    twinState.readHome twinDevice.vdid .rd (8 * ((q.lring + 128 * (q.head.toNat % 2 ^ q.llog) : Nat) : Int)) 1024 =
      .ok (twinSlot, false, false) := by
  decide +kernel

theorem twinState_room :
    let q := twinDevice.queue (0 : BitVec 2).toNat (0 : BitVec 4).toNat
    (q.ntail - BitVec.ofNat 32 ((0, false, false) : Nat × Bool × Bool).1).toNat + q.reserved < 2 ^ q.nlog := by
  decide +kernel

theorem twinSlot_header : BitVec.ofNat 512 twinSlot ≠ 0 := by
  decide +kernel

/-- Does every launch of identifier 1 have an empty header? -/
def emptyHeaders (r : Result) : Bool :=
  match r with
  | .next t => t.launches.all fun l => l.lid != 1 || l.header == 0
  | _ => true

theorem header_of_emptyHeaders {t : State} {l : Launch} (h : emptyHeaders (.next t) = true) (hl : l ∈ t.launches) (hlid : l.lid = 1) :
    l.header = 0 := by
  have hall := List.all_eq_true.mp h l hl
  rw [hlid] at hall
  simpa using hall

/-- After the acceptance every launch of the new identifier has the header of the older launch. -/
theorem twinState_headers : emptyHeaders (execLaunchAccept 1 0 0 twinState) = true := by
  decide +kernel

/-- Refutes O53: in `twinState` the slot becomes a launch whose identifier another launch has, and no launch of that identifier
has the slot's header after LAUNCH_ACCEPT. -/
theorem not_launchLevels : ¬ Obligations.LaunchLevels := by
  rintro ⟨-, haccept, -⟩
  obtain ⟨t, l, ht, hl, hlid, hheader, -⟩ := haccept twinState 1 0 0 twinDevice 1 [] (0, false, false) (twinSlot, false, false)
    [44, 45, 46, 47] twinState_device twinDevice_queues rfl twinDevice_tails twinState_nhead twinState_room twinState_head
    twinState_slot
  have hexec : exec (.launchAccept 1 0 0) twinState = execLaunchAccept 1 0 0 twinState := by dsimp only [exec]
  have hempty := twinState_headers
  rw [← hexec, ht] at hempty
  exact twinSlot_header (hheader.symm.trans (header_of_emptyHeaders hempty hl hlid))

end Sys2Proof.Machine
end

section
/-! ## Execution rules (spec 01): entry into the queue, matched loads, the watchdog and DRARM -/

namespace Sys2Proof.Machine

/-! ### Entry into the queue (R13, R14, R94) -/

/-- A word enters the queue while it holds fewer entries than SLIP allows; one whose guard is false retires (R13, R94). -/
theorem execEnqueue_of_room {op : BitVec 8} {f : Fields} {s : State} (hop : isScalarOp op = false) (hlegal : legal op f = true)
    (htiles : ∀ n ∈ namedZ op.toNat f, n < tilesOf s.me.place.res)
    (hroom : s.me.queue.length < (if s.me.slip = 0 then 64 else s.me.slip.toNat)) :
    execEnqueue op f s = .next { s with me := { s.me with
      pc := s.me.pc + 16, issued := s.now
      queue := if s.me.guard f.gs then s.me.queue ++ [s.capture op f] else s.me.queue
      spliced := if s.me.guard f.gs then s.storeCaptured (s.capture op f) f else s.me.spliced } } := by
  have hz : ((namedZ op.toNat f).any fun n => decide (tilesOf s.me.place.res ≤ n)) = false := by
    simpa only [List.any_eq_false, decide_eq_true_eq, not_le] using htiles
  have hslip : ¬(if s.me.slip.toNat = 0 then 64 else s.me.slip.toNat) ≤ s.me.queue.length := by
    simpa only [bitVec_toNat_eq_zero, not_le] using hroom
  unfold execEnqueue State.enter
  simp only [hop, hlegal, hz, hslip, decide_false, Bool.not_true, Bool.false_eq_true, if_false]
  cases hg : s.me.guard f.gs with
  | true => simp only [Bool.not_true, Bool.false_eq_true, if_false, if_true, State.advance_eq]
  | false => simp only [Bool.not_false, if_true, Bool.false_eq_true, if_false, State.advance_eq]

theorem opOf_toNat (w : BitVec 128) : (opOf w).toNat = w.toNat / 2 ^ 120 := by
  have h := w.isLt
  rw [opOf, BitVec.extractLsb'_toNat, Nat.shiftRight_eq_div_pow, Nat.mod_eq_of_lt (by omega)]

/-- A TID-form VST of a spliced body adds what it captures to the stores of its pass (R363). -/
theorem State.storeCaptured_of_body {s : State} {e : Entry} {f : Fields} {w : SpliceWord}
    (hw : s.spliceWord? s.me.launch.toNat e.pc = some w) (hbody : w.body = true) (hop : e.word.toNat / 2 ^ 120 = 0x42)
    (hfn : f.fn.toNat % 2 = 0) : s.storeCaptured e f =
      { pc := w.pc, vreg := f.d.toNat, row0 := e.gb.val, col0 := e.gc.val, rows := e.rows, cols := e.cols, amb := e.amb } ::
        s.me.spliced := by
  have h1 : opOf e.word = 0x42 := BitVec.eq_of_toNat_eq ((opOf_toNat _).trans hop)
  have h2 : bit f.fn.toNat 0 = false := by
    rw [bit, Nat.testBit_zero, hfn]
    rfl
  unfold State.storeCaptured
  simp only [hw, hbody, h1, h2, beq_self_eq_true, Bool.not_false, Bool.and_self, if_true]

/-! ### Results in array registers (R191) -/

theorem VReg.takesPoison_eq (old : VReg) (z : Nat) (els : List (Option Elt × Flags)) :
    old.takesPoison z els = ((els.filterMap fun p => p.1).any Elt.poison || old.keepsPoison z (els.map fun p => p.1)) := by
  simp only [VReg.takesPoison, VReg.keepsPoison, Bool.and_true]

/-- Flags raised one after another are raised together (R46). -/
theorem flagged_or (x : BitVec 16) (a b : Flags) :
    x ||| BitVec.ofNat 16 (a % 512) ||| BitVec.ofNat 16 (b % 512) = x ||| BitVec.ofNat 16 ((a ||| b) % 512) := by
  rw [BitVec.or_assoc]
  congr 1
  apply BitVec.eq_of_getLsbD_eq
  intro i hi
  simp only [BitVec.getLsbD_or, BitVec.getLsbD_ofNat, show (512 : Nat) = 2 ^ 9 from rfl, Nat.testBit_mod_two_pow, Nat.testBit_or]
  cases decide (i < 9) <;> simp [hi]

theorem flagged_comm (a b c : Flags) : a ||| b ||| c = b ||| a ||| c := by rw [Nat.or_comm a b]

/-- An array register takes its result where the sources and what it keeps do not trap (R191). -/
theorem commitV_of_accepts {s u : State} {e : Entry} {f : Fields} {d z : Nat} {sh : List Nat} {els : List (Option Elt × Flags)}
    (h : s.acceptsV e f d z els) (hv : u.me.getV d = s.me.getV d) (hm : u.masksTainted e f = s.masksTainted e f)
    (hp : u.poisonTrap = s.poisonTrap) : commitV u e f d z sh els = .ok { u with me := u.me.takesV d z sh els } := by
  have hc := consume_of_consumes (u := u) (h : s.consumes e f _ _) hp
  unfold commitV
  rw [VReg.takesPoison_eq] at hc
  have htake : u.me.takesV d z sh els = ((u.me.raise (flagIf ((s.me.getV d).takesPoison z els) flPSN)).raise (piecesFlags els)).setV d
      ((s.me.getV d).write z sh (els.map fun p => p.1)) := by
    unfold Strand.takesV Strand.setV Strand.raise Strand.flagged
    simp only [hv, flagged_or, flagged_comm (piecesFlags els)]
  simp only [hv, hm, hc, htake, VReg.takesPoison_eq, bind, Except.bind, pure, Except.pure] <;> rfl

/-! ### Matched loads (R363) -/

section SpliceMove

variable {s : State} {f : Fields} {w : SpliceWord} {v : Nat} {pc : Word} {r : SpliceStore}

/-- The counts, the origin and AMB of a load are those of the store that it is matched with, and AMB names m0. -/
def SpliceStore.fits (r : SpliceStore) (e : Entry) : Prop :=
  r.row0 = e.gb.val ∧ r.col0 = e.gc.val ∧ r.rows = e.rows ∧ r.cols = e.cols ∧ r.amb = e.amb ∧ e.amb = 0

theorem SpliceStore.fits_iff (r : SpliceStore) (e : Entry) :
    (r.row0 == e.gb.val && r.col0 == e.gc.val && r.rows == e.rows && r.cols == e.cols && r.amb == e.amb && e.amb == 0) = true ↔
      r.fits e := by
  simp only [Bool.and_eq_true, beq_iff_eq, SpliceStore.fits, and_assoc]

/-- What a matched load does at the head of the queue. -/
def spliceMoveBody (f : Fields) (e : Entry) (t : State) : Served :=
  match t.spliceWord? t.me.launch.toNat e.pc with
  | some { matched := some (v, pc), .. } =>
    match t.me.spliced.find? fun r => r.pc == pc && r.vreg == v with
    | some r =>
      if r.row0 == e.gb.val && r.col0 == e.gc.val && r.rows == e.rows && r.cols == e.cols && r.amb == e.amb && e.amb == 0 then
        Served.ofR t (moveBits t e { f with gm := 0 } f.d.toNat v (Fmt.size f.fmt.toNat))
      else loadStrip e f t
    | none => loadStrip e f t
  | _ => loadStrip e f t

theorem exec_spliceMove : exec (.spliceMove f) s = runArray 0x41 f s (spliceMoveBody f) := by
  dsimp only [exec, execSpliceMove]
  rfl

theorem exec_vldTid : exec (.vldTid f) s = runArray 0x41 f s fun e t => loadStrip e f t := by
  dsimp only [exec, execVldTid]

/-- A matched load whose store fits moves the store's source. -/
theorem spliceMoveBody_of_fits {e : Entry} (hw : s.spliceWord? s.me.launch.toNat e.pc = some w) (hm : w.matched = some (v, pc))
    (hr : (s.me.spliced.find? fun r => r.pc == pc && r.vreg == v) = some r) (hfit : r.fits e) :
    spliceMoveBody f e s = Served.ofR s (moveBits s e { f with gm := 0 } f.d.toNat v (Fmt.size f.fmt.toNat)) := by
  obtain ⟨_, _, _, _, _, _, _⟩ := w
  subst hm
  unfold spliceMoveBody
  simp only [hw, hr, (r.fits_iff e).mpr hfit, if_true]

/-- A matched load whose store does not fit is the original VLD. -/
theorem spliceMoveBody_of_not_fits {e : Entry} (hw : s.spliceWord? s.me.launch.toNat e.pc = some w)
    (hm : w.matched = some (v, pc)) (hr : (s.me.spliced.find? fun r => r.pc == pc && r.vreg == v) = some r) (hfit : ¬r.fits e) :
    spliceMoveBody f e s = loadStrip e f s := by
  obtain ⟨_, _, _, _, _, _, _⟩ := w
  subst hm
  unfold spliceMoveBody
  simp only [hw, hr, Bool.eq_false_iff.mpr (mt (r.fits_iff e).mp hfit), Bool.false_eq_true, if_false]

/-- A load outside a spliced body is the original VLD. -/
theorem spliceMoveBody_of_no_word {e : Entry} (hw : s.spliceWord? s.me.launch.toNat e.pc = none) :
    spliceMoveBody f e s = loadStrip e f s := by
  unfold spliceMoveBody
  rw [hw]

/-- A matched load that finds the queue empty and whose store fits. -/
theorem exec_spliceMove_of_fits (hw : s.spliceWord? s.me.launch.toNat s.me.pc = some w) (hm : w.matched = some (v, pc))
    (hr : (s.me.spliced.find? fun r => r.pc == pc && r.vreg == v) = some r) (hserves : s.serves 0x41 f)
    (hfit : r.fits (s.capture 0x41 f)) {els : List (Option Elt × Flags)}
    (hels : els = (List.range (count (s.me.getV v).shape)).map fun i =>
      if isActive s (s.capture 0x41 f) { f with gm := 0 } (s.me.getV v).shape i then
        (some ((s.me.getV v).elem (Fmt.size f.fmt.toNat) i), 0) else (none, 0))
    (hmasks : checkMasks s (s.capture 0x41 f) { f with gm := 0 } (s.me.getV v).shape = .ok ())
    (hcount : count (s.me.getV v).shape ≤ capacity (s.capture 0x41 f).grows.toNat (Fmt.size f.fmt.toNat))
    (haccept : s.acceptsV (s.capture 0x41 f) { f with gm := 0 } f.d.toNat (Fmt.size f.fmt.toNat) els) :
    exec (.spliceMove f) s =
      .next (s.retires (s.me.takesV f.d.toNat (Fmt.size f.fmt.toNat) (s.me.getV v).shape els)) := by
  have hwork := hserves.2.2.1
  have hcommit := commitV_of_accepts (u := s.entered 0x41 f) (sh := (s.me.getV v).shape) haccept rfl rfl rfl
  have hmove : moveBits (s.entered 0x41 f) (s.capture 0x41 f) { f with gm := 0 } f.d.toNat v (Fmt.size f.fmt.toNat) =
      .ok { s.entered 0x41 f with
        me := (s.entered 0x41 f).me.takesV f.d.toNat (Fmt.size f.fmt.toNat) (s.me.getV v).shape els } := by
    rw [hels] at hcommit
    unfold moveBits
    rw [show checkMasks (s.entered 0x41 f) = checkMasks s from rfl, show (s.entered 0x41 f).me.getV v = s.me.getV v from rfl]
    simp only [hmasks, hcount, decide_true, require, if_true, bind, Except.bind]
    rw [hels]
    exact hcommit
  rw [exec_spliceMove, runArray_of_serves hserves (by decide),
    spliceMoveBody_of_fits (s := s.entered 0x41 f) (e := s.capture 0x41 f) hw hm hr hfit, hmove]
  exact congrArg _ (State.enteredAs_close (m := s.me.takesV f.d.toNat (Fmt.size f.fmt.toNat) (s.me.getV v).shape els) hwork rfl _)

/-- A word that has not yet entered an empty queue is served, whatever its body, by its body in the state of its entry. -/
theorem runArray_congr_of_entered {op : BitVec 8} {body body' : Entry → State → Served} (hserves : s.serves op f) (hop : op ≠ 0x42)
    (h : body (s.capture op f) (s.entered op f) = body' (s.capture op f) (s.entered op f)) :
    runArray op f s body = runArray op f s body' := by
  rw [runArray_of_serves hserves hop, runArray_of_serves hserves hop, h]

/-- Two bodies that fare alike on the entry of a word into an empty queue give the word the same meaning. -/
theorem runArray_congr_of_empty {op : BitVec 8} {body body' : Entry → State → Served} (hq : s.me.queue = [])
    (h : ∀ u e, s.enter op f = .ok (u, e) → body e u = body' e u) : runArray op f s body = runArray op f s body' := by
  unfold runArray
  rw [hq]
  cases he : s.enter op f with
  | error r => rfl
  | ok p =>
    obtain ⟨u, e⟩ := p
    simp only [State.serve, h u e he]

/-- A word enters with its PC, and neither the launch nor its spliced body changes (R13). -/
theorem State.enter_pc {op : BitVec 8} {u : State} {e : Entry} (h : s.enter op f = .ok (u, e)) :
    e.pc = s.me.pc ∧ u.me.launch = s.me.launch ∧ u.splices = s.splices := by
  unfold State.enter at h
  split_ifs at h
  all_goals
    simp only [Except.ok.injEq, Prod.mk.injEq, State.advance_eq] at h
    obtain ⟨rfl, rfl⟩ := h
    exact ⟨rfl, rfl, rfl⟩

theorem State.spliceWord?_congr {s u : State} (h : u.splices = s.splices) (lid : Nat) (pc : Word) :
    u.spliceWord? lid pc = s.spliceWord? lid pc := by
  unfold State.spliceWord?
  rw [h]

/-- A load that finds the queue empty and stands in no spliced body is the original VLD (R363). -/
theorem exec_spliceMove_of_no_word (hq : s.me.queue = []) (hw : s.spliceWord? s.me.launch.toNat s.me.pc = none) :
    exec (.spliceMove f) s = exec (.vldTid f) s := by
  rw [exec_spliceMove, exec_vldTid]
  refine runArray_congr_of_empty hq fun u e he => ?_
  obtain ⟨hpc, hlaunch, hsplices⟩ := State.enter_pc he
  refine spliceMoveBody_of_no_word ?_
  rw [State.spliceWord?_congr hsplices, hpc, hlaunch, hw]

/-- A matched load whose store does not fit is the original VLD (R363). -/
theorem exec_spliceMove_of_not_fits {w : SpliceWord} {v : Nat} {pc : Word} {r : SpliceStore}
    (hw : s.spliceWord? s.me.launch.toNat s.me.pc = some w) (hm : w.matched = some (v, pc))
    (hr : (s.me.spliced.find? fun r => r.pc == pc && r.vreg == v) = some r) (hserves : s.serves 0x41 f)
    (hfit : ¬r.fits (s.capture 0x41 f)) : exec (.spliceMove f) s = exec (.vldTid f) s := by
  rw [exec_spliceMove, exec_vldTid]
  exact runArray_congr_of_entered hserves (by decide)
    (spliceMoveBody_of_not_fits (s := s.entered 0x41 f) (e := s.capture 0x41 f) hw hm hr hfit)

end SpliceMove

/-! ### The watchdog (R373) -/

section Watchdog

variable {s : State} {e : Entry} {r : List Entry}

/-- The waits that R373 counts, as the obligation names them. -/
theorem State.waitsAt_of {op : Nat} {f : Fields} (hop : op = e.word.toNat / 2 ^ 120) (hf : f = fieldsOf e.word)
    (h : (op ∈ [0x40, 0x96, 0x97, 0x98] ∧ s.me.sleep.isSome = true) ∨
      (op = 0x91 ∧ f.fn.toNat % 4 = 3 ∧ s.me.work ≠ []) ∨ (op = 0x90 ∧ 8 ≤ f.fn.toNat % 16 ∧ s.owes (f.fn.toNat % 8) = true) ∨
      (op ∈ [0xB4, 0xB5, 0xBA] ∧ s.engineFull = true) ∨ (op = 0xB6 ∧ s.owesTile f.a.toNat = true) ∨
      (op ∈ [0xB7, 0xB8] ∧ s.owesTile f.d.toNat = true) ∨ s.interlocked e op f = true ∨ s.waitsForWork e = true) :
    s.waitsAt e = true := by
  rw [← opOf_toNat] at hop
  have hwork (h : s.waitsForWork e = true) : s.waitsAt e = true := by rw [State.waitsAt, h, Bool.or_true]
  subst hf
  rcases h with ⟨hmem, hsleep⟩ | ⟨rfl, hfn, hne⟩ | ⟨rfl, hfn, howes⟩ | ⟨hmem, hfull⟩ | ⟨rfl, htile⟩ | ⟨hmem, htile⟩ | hlock | h
  · rw [State.waitsAt, ← hop, List.contains_iff_mem.mpr hmem, hsleep]
    rfl
  · refine hwork ?_
    simp only [State.waitsForWork, ← hop, bits_zero_eq_mod]
    simp [hfn, hne]
  · refine hwork ?_
    have h3 : bit (fieldsOf e.word).fn.toNat 3 = true := by
      rw [bit, Nat.testBit_eq_decide_div_mod_eq]
      simp only [decide_eq_true_eq]
      omega
    simp only [State.waitsForWork, ← hop, bits_zero_eq_mod]
    simp [h3, howes]
  · refine hwork ?_
    have hmem' : op = 0xB4 ∨ op = 0xB5 ∨ op = 0xBA := by simpa using hmem
    rcases hmem' with rfl | rfl | rfl <;> simp [State.waitsForWork, ← hop, hfull]
  · refine hwork ?_
    simp [State.waitsForWork, ← hop, htile]
  · refine hwork ?_
    have hmem' : op = 0xB7 ∨ op = 0xB8 := by simpa using hmem
    rcases hmem' with rfl | rfl <;> simp [State.waitsForWork, ← hop, htile]
  · refine hwork ?_
    simp only [State.waitsForWork, ← hop, hlock, Bool.true_or]
  · exact hwork h

theorem State.watchdogDue_iff : s.watchdogDue = true ↔ s.myVdev.wd ≠ 0 ∧ s.me.issued + s.myVdev.wd * 2 ^ 16 ≤ s.now := by
  simp [State.watchdogDue]

theorem Strand.issues_of_status {m : Strand} (h : m.status = .running ∨ m.status = .halted) : m.issues = true := by
  rcases h with h | h <;> rw [Strand.issues, h] <;> rfl

/-- The watchdog faults the strand whose head entry waits (R373). -/
theorem execWatchdog_of_waits (hst : s.me.issues = true) (hq : s.me.queue = e :: r) (hdue : s.watchdogDue = true)
    (hwaits : s.waitsAt e = true) : execWatchdog s = .next { s with me := { s.me with
      pend := some { isArray := true, cause := cWATCHDOG, fpc := e.pc, epc := s.me.pc } } } := by
  unfold execWatchdog
  rw [hq]
  simp only [hst, hdue, hwaits, Bool.and_self, Bool.not_true, Bool.false_eq_true, if_false, if_true]

/-- The watchdog leaves a strand alone that has issued lately, or whose head entry does not wait. -/
theorem execWatchdog_of_idle (hq : s.me.queue = e :: r) (h : s.watchdogDue = false ∨ s.waitsAt e = false) :
    execWatchdog s = .next s := by
  unfold execWatchdog
  rw [hq]
  rcases h with h | h
  · simp only [h, Bool.and_false, Bool.not_false, if_true]
  · simp only [h, Bool.false_eq_true, if_false, ite_self]

/-- The watchdog takes the fault of a strand that has halted and waits for its work alone. -/
theorem execWatchdog_of_halted (hq : s.me.queue = []) (hst : s.me.status = .halted) (hwork : s.me.work ≠ [])
    (hdue : s.watchdogDue = true) :
    execWatchdog s = .next (s.takeFault { cause := cWATCHDOG, fpc := s.me.pc - 16, epc := s.me.pc }) := by
  have hne : s.me.work.isEmpty = false := List.isEmpty_eq_false_iff.mpr hwork
  unfold execWatchdog
  rw [hq]
  simp only [Strand.issues_of_status (.inr hst), hdue, hst, hne, Bool.and_self, Bool.not_true, Bool.not_false, beq_self_eq_true,
    Bool.false_eq_true, if_false, if_true]

end Watchdog

/-! ### DRARM (R350) -/

theorem State.counter?_putCounter {s : State} {level : Level} {vd key key2 : Nat} {c c' : Counter}
    (h : s.counter? level vd key key2 = some c) (hc : c'.isOf level vd key key2 = true) :
    (s.putCounter c').counter? level vd key key2 = some c' := by
  have hkey : c'.level = level ∧ c'.vd = vd ∧ c'.key = key ∧ c'.key2 = key2 := by
    simpa [Counter.isOf, and_assoc] using hc
  obtain ⟨rfl, rfl, rfl, rfl⟩ := hkey
  unfold State.counter? at h ⊢
  have hsame : ((fun x : Counter => x.isOf c'.level c'.vd c'.key c'.key2) ∘ fun x =>
      if x.isOf c'.level c'.vd c'.key c'.key2 then c' else x) = fun x => x.isOf c'.level c'.vd c'.key c'.key2 := by
    funext x
    by_cases hx : x.isOf c'.level c'.vd c'.key c'.key2 = true
    · simp only [Function.comp, hx, if_true, hc]
    · simp only [Function.comp, if_neg hx]
  rw [State.putCounter, List.find?_map, hsame, h, Option.map_some, if_pos (List.find?_some h)]

section Drarm

variable {s : State} {f : Fields} {pa : Nat} {x y : Nat × Bool × Bool}

/-- The checks of DRARM that pass raise PSN alone (R350). -/
theorem drarmCheck_ok {e : Entry} (ha : e.ga.val.toNat % 64 = 0) (hva : e.ga.val.toNat < 2 ^ 56)
    (hpa : s.translate s.vd .rd e.ga.val.toNat = .ok pa)
    (hx : s.readElem s.vd (8 * (e.ga.val.toNat : Int)) 512 = .ok x) (hok : batchOk x.1 = true)
    (hy : s.readElem s.vd (8 * ((x.1 / 2 ^ 320 % 2 ^ 64 : Nat) : Int)) 512 = .ok y)
    (hn : 1 ≤ y.1 / 2 ^ 400 % 2 ^ 11) (hmax : y.1 / 2 ^ 400 % 2 ^ 11 ≤ clusterStrands (y.1 / 2 ^ 411 % 4))
    (hc : s.consumes e f (e.ga.taint || x.2.1 || y.2.1) (e.ga.poison || x.2.2 || y.2.2)) :
    ∃ flags, drarmCheck f e s = .ok ({ s with me := { s.me with flags := flags } }, x.1, BitVec.ofNat 512 y.1) := by
  have hread (u : State) (hu : ∃ flags, u = { s with me := { s.me with flags := flags } }) (a : Int) :
      u.readElem u.vd a 512 = s.readElem s.vd a 512 := by
    obtain ⟨flags, rfl⟩ := hu
    exact State.SameSight.readElem ⟨rfl, rfl, rfl, rfl, rfl, rfl, rfl, rfl, rfl, rfl, rfl⟩ rfl rfl _ _ _
  have hregs := consume_of_consumes (u := s) (tainted := [e.ga].any GReg.taint) (poisoned := [e.ga].any GReg.poison)
    (hc.mono (by simp; tauto) (by simp; tauto)) rfl
  generalize h0 : s.raise (flagIf ([e.ga].any GReg.poison) flPSN) = s0 at hregs
  have h0' : ∃ flags, s0 = { s with me := { s.me with flags := flags } } := ⟨_, h0.symm⟩
  have hrec := consume_of_consumes (u := s0) (tainted := x.2.1) (poisoned := x.2.2)
    (hc.mono (by simp; tauto) (by simp; tauto)) (by rw [← h0]; rfl)
  generalize h1 : s0.raise (flagIf x.2.2 flPSN) = s1 at hrec
  have h1' : ∃ flags, s1 = { s with me := { s.me with flags := flags } } := by
    obtain ⟨_, rfl⟩ := h0'
    exact ⟨_, h1.symm⟩
  have hkern := consume_of_consumes (u := s1) (tainted := y.2.1) (poisoned := y.2.2)
    (hc.mono (by simp; tauto) (by simp; tauto)) (by rw [← h1, ← h0]; rfl)
  generalize h2 : s1.raise (flagIf y.2.2 flPSN) = s2 at hkern
  have h2' : ∃ flags, s2 = { s with me := { s.me with flags := flags } } := by
    obtain ⟨_, rfl⟩ := h1'
    exact ⟨_, h2.symm⟩
  have hhome : localHome s0 e.ga.val.toNat 64 .rd = .ok pa :=
    localHome_ok ha hva (by rw [← h0]; exact ((s.sameSight_raise _).translate _ _ _ _).trans hpa)
  obtain ⟨flags, rfl⟩ := h2'
  refine ⟨flags, ?_⟩
  unfold drarmCheck regCheck
  have e1 : bits x.1 383 320 = x.1 / 2 ^ 320 % 2 ^ 64 := bits_eq_div_mod _ _ _
  have e2 : bits y.1 410 400 = y.1 / 2 ^ 400 % 2 ^ 11 := bits_eq_div_mod _ _ _
  have e3 : bits y.1 412 411 = y.1 / 2 ^ 411 % 4 := bits_eq_div_mod _ _ _
  simp only [hregs, hhome, hread s0 h0', hx, hrec, hok, e1, hread s1 h1', hy, hkern, e2, e3, hn, hmax, require, decide_true,
    Bool.and_self, if_true, bind, Except.bind, pure, Except.pure]

/-- The phase of a launch, where it is counted, has so many more tasks left (R350). -/
def State.countTasks (s : State) (l : Launch) (n : Nat) : State :=
  match s.phaseOf? l with
  | some c => s.putCounter { c with left := c.left + n }
  | none => s

theorem State.countTasks_form (s : State) (l : Launch) (n : Nat) : ∃ cs, s.countTasks l n = { s with counters := cs } := by
  unfold State.countTasks
  split
  · exact ⟨_, rfl⟩
  · exact ⟨s.counters, rfl⟩

theorem State.phaseOf?_countTasks {s : State} {l : Launch} {c : Counter} (h : s.phaseOf? l = some c) (n : Nat) :
    (s.countTasks l n).phaseOf? l = some { c with left := c.left + n } := by
  have hkey : c.isOf .phase l.vd l.phase l.job = true := by
    have hsome := List.find?_some (h : s.counters.find? (fun x => x.isOf .phase l.vd l.phase l.job) = some c)
    exact hsome
  unfold State.countTasks
  rw [h]
  exact State.counter?_putCounter (c := c) h hkey

/-- The batch that a DRARM in state `s` with the record `rec` and its kernel's record `kernel` arms (R350). -/
def State.armedBatch (s : State) (e : Entry) (rec : Nat) (kernel : BitVec 512) : Batch :=
  let b := s.planBatch s.nextId s.vd s.me.place.die e.ga.val.toNat rec kernel
  let w := (s.release 3).noteReads s.vd b.reads
  { b with phase := BitVec.ofNat 32 s.myLaunch.phase, job := s.myLaunch.job, clock := w.me.ownClock w.me.headMark }

/-- The state in which the batch is armed: what was written is released, and the batch's reads are noted. -/
def State.arming (s : State) (b : Batch) : State := (s.release 3).noteReads s.vd b.reads

theorem State.arming_form (s : State) (b : Batch) : ∃ notes, s.arming b = { s.release 3 with poisonedWalks := notes } :=
  State.noteReads_eq _ _ _

/-- DRARM after its checks, with room for its batch. -/
theorem serveDrarm_of_check {e : Entry} {u : State} {rec : Nat} {kernel : BitVec 512}
    (hcheck : drarmCheck f e s = .ok (u, rec, kernel)) (howes : s.owes 3 = false) (hdie : u.me.place = s.me.place)
    (hroom : (s.batches.filter fun b => b.die == s.me.place.die).length < 16) {b : Batch} (hb : b = u.armedBatch e rec kernel) :
    serveDrarm f e s = .done
      { (u.arming b).countTasks u.myLaunch b.tasks with
        batches := ((u.arming b).countTasks u.myLaunch b.tasks).batches ++ [b]
        nextId := ((u.arming b).countTasks u.myLaunch b.tasks).nextId + 1 } := by
  have hfull : decide (16 ≤ (s.batches.filter fun b => b.die == u.me.place.die).length) = false := by
    simpa [hdie] using hroom
  subst hb
  unfold serveDrarm
  simp only [hcheck, howes, hfull, Bool.or_self, Bool.false_eq_true, if_false, ← hdie]
  rfl

/-- A DRARM that passes its checks arms its batch and adds its tasks to the phase (R350). -/
theorem serveDrarm_arms {e : Entry} {flags : BitVec 16} {rec : Nat} {kernel : BitVec 512}
    (hcheck : drarmCheck f e s = .ok ({ s with me := { s.me with flags := flags } }, rec, kernel)) (howes : s.owes 3 = false)
    (hroom : (s.batches.filter fun b => b.die == s.me.place.die).length < 16) :
    ∃ w b, serveDrarm f e s = .done w ∧ w.batches = s.batches ++ [b] ∧
      (b.die = s.me.place.die ∧ b.vd = s.vd ∧ b.addr = e.ga.val ∧ b.record = BitVec.ofNat 512 rec ∧ b.kernel = kernel ∧
        b.spawned = false ∧ b.left = b.plan.length ∧ b.tasks = b.plan.length) ∧ s.Orders w ∧
      ∀ c, s.phaseOf? s.myLaunch = some c → ∃ c', w.phaseOf? s.myLaunch = some c' ∧ c'.left = c.left + b.tasks := by
  have hserve := serveDrarm_of_check hcheck howes rfl hroom rfl
  generalize hu : ({ s with me := { s.me with flags := flags } } : State) = u at hserve
  have horders : s.Orders u := by subst hu; exact ⟨rfl, rfl, rfl, _, _, _, _, _, _, _, rfl⟩
  have hbatches : u.batches = s.batches := by subst hu; rfl
  have hphase (l : Launch) : u.phaseOf? l = s.phaseOf? l := by subst hu; rfl
  have hlaunch : u.myLaunch = s.myLaunch := by subst hu; rfl
  have hfields : u.me.place.die = s.me.place.die ∧ u.vd = s.vd := by subst hu; exact ⟨rfl, rfl⟩
  generalize hb : u.armedBatch e rec kernel = b at hserve
  obtain ⟨notes, harm⟩ := u.arming_form b
  obtain ⟨cs, hcount⟩ := (u.arming b).countTasks_form u.myLaunch b.tasks
  refine ⟨_, b, hserve, ?_, ?_, ?_, fun c hc => ?_⟩
  · rw [hcount, harm, ← hbatches]
    rfl
  · subst hb
    exact ⟨hfields.1, hfields.2, BitVec.ofNat_toNat _ _, rfl, rfl, rfl, rfl, rfl⟩
  · rw [hcount, harm]
    exact horders.trans ⟨rfl, rfl, rfl, (u.orders_release 3).me⟩
  · have hbefore : (u.arming b).phaseOf? u.myLaunch = some c := by
      rw [harm, hlaunch, ← hc, ← hphase]
      rfl
    have hafter := State.phaseOf?_countTasks hbefore b.tasks
    exact ⟨_, (congrArg _ hlaunch.symm).trans hafter, rfl⟩

/-- DRARM served as it is fetched (R350). -/
theorem exec_drarm {n : Nat} (hserves : s.serves 0xBB f) (ha : (s.me.getG f.a.toNat).val.toNat % 64 = 0)
    (hva : (s.me.getG f.a.toNat).val.toNat < 2 ^ 56) (hpa : s.translate s.vd .rd (s.me.getG f.a.toNat).val.toNat = .ok pa)
    (hx : s.readElem s.vd (8 * ((s.me.getG f.a.toNat).val.toNat : Int)) 512 = .ok x) (hok : batchOk x.1 = true)
    (hy : s.readElem s.vd (8 * ((x.1 / 2 ^ 320 % 2 ^ 64 : Nat) : Int)) 512 = .ok y) (hn : n = y.1 / 2 ^ 400 % 2 ^ 11)
    (hmin : 1 ≤ n) (hmax : n ≤ clusterStrands (y.1 / 2 ^ 411 % 4))
    (hc : s.consumes (s.capture 0xBB f) f ((s.me.getG f.a.toNat).taint || x.2.1 || y.2.1)
      ((s.me.getG f.a.toNat).poison || x.2.2 || y.2.2))
    (hroom : (s.batches.filter fun b => b.die == s.me.place.die).length < 16) :
    ∃ t b, exec (.drarm f) s = .next t ∧ t.batches = s.batches ++ [b] ∧
      (b.die = s.me.place.die ∧ b.vd = s.vd ∧ b.addr = (s.me.getG f.a.toNat).val ∧ b.record = BitVec.ofNat 512 x.1 ∧
        b.kernel = BitVec.ofNat 512 y.1 ∧ b.spawned = false ∧ b.left = b.plan.length ∧ b.tasks = b.plan.length) ∧
      s.sameMemory t ∧ t.me.pc = s.me.pc + 16 ∧ t.me.queue = [] ∧ t.me.v = s.me.v ∧ t.me.keeps s.me ∧
      ∀ c, s.phaseOf? s.myLaunch = some c → ∃ c', t.phaseOf? s.myLaunch = some c' ∧ c'.left = c.left + b.tasks := by
  have hga : (s.capture 0xBB f).ga = s.me.getG f.a.toNat := capture_ga rfl (by decide) (by decide) rfl
  have hwork := hserves.2.2.1
  have hsight := s.sameSight_entered 0xBB f
  subst hn
  obtain ⟨flags, hcheck⟩ := drarmCheck_ok (s := s.entered 0xBB f) (f := f) (e := s.capture 0xBB f) (pa := pa) (x := x) (y := y)
    (by rw [hga]; exact ha) (by rw [hga]; exact hva) (by rw [hga]; exact (hsight.translate _ _ _ _).trans hpa)
    (by rw [hga]; exact (hsight.readElem rfl rfl _ _ _).trans hx) hok ((hsight.readElem rfl rfl _ _ _).trans hy) hmin hmax
    (by rw [hga]; exact hc)
  obtain ⟨w, b, hserve, hbatches, hb, horders, hphase⟩ :=
    serveDrarm_arms hcheck (State.owes_of_no_work (s := s.entered 0xBB f) hwork 3) hroom
  rw [hga] at hb
  obtain ⟨t, hclose, hpc, hq, hm, hqr, hg, hv, hz, ht, hspecial, hmem⟩ :=
    close_orders (e := s.capture 0xBB f) (first := s.nextId) horders
  subst hclose
  refine ⟨(Served.done w).close (s.capture 0xBB f) s.nextId, b, ?_, hbatches, hb, hmem, hpc, hq, hv,
    ⟨hg, hqr, hm, hz, ht, hspecial⟩, hphase⟩
  dsimp only [exec, execDrarm]
  rw [runArray_of_serves hserves (by decide), hserve]

end Drarm

/-- Settles O52: words enter a queue that has room, a matched load moves its store's source where origin, counts and AMB fit,
the watchdog faults what waits, and DRARM arms its batch. -/
theorem queueSpliceWatchdog : Obligations.QueueSpliceWatchdog := by
  unfold Obligations.QueueSpliceWatchdog
  refine ⟨?_, ?_, ?_, ?_, ?_⟩
  · intro op f s hop hlegal htiles hroom
    dsimp only [exec]
    exact execEnqueue_of_room hop hlegal htiles hroom
  · intro e f s w hw hbody hop hfn
    exact State.storeCaptured_of_body hw hbody hop hfn
  · intro f s
    refine ⟨fun w v pc r hw hm hr hserves => ⟨fun hsame hmasks hcount haccept => ?_, fun hdiffers => ?_⟩, ?_⟩
    · exact exec_spliceMove_of_fits hw hm hr hserves hsame rfl hmasks hcount haccept
    · exact exec_spliceMove_of_not_fits hw hm hr hserves hdiffers
    · exact exec_spliceMove_of_no_word
  · intro s e r op f waits due hstatus
    have hissues := Strand.issues_of_status hstatus
    dsimp only [exec]
    refine ⟨fun hq hwaits hdue => ?_, fun hq hidle => ?_, fun hq hhalted hwork hdue => ?_⟩
    · exact execWatchdog_of_waits hissues hq (State.watchdogDue_iff.mpr hdue) (State.waitsAt_of rfl rfl hwaits)
    · refine execWatchdog_of_idle hq (hidle.imp_left fun h => ?_)
      exact Bool.eq_false_iff.mpr (mt State.watchdogDue_iff.mp h)
    · exact execWatchdog_of_halted hq hhalted hwork (State.watchdogDue_iff.mpr hdue)
  · intro f s pa x y e g a kern n die hserves ha hva hpa hx hok hy hmin hmax hc hroom
    obtain ⟨t, b, hexec, hbatches, ⟨hdie, hvd, haddr, hrec, hkern, hspawned, hleft, htasks⟩, hrest⟩ :=
      exec_drarm hserves ha hva hpa hx hok hy rfl hmin hmax hc hroom
    exact ⟨t, b, hexec, hbatches, hdie, hvd, haddr, hrec, hkern, hspawned, hleft, htasks, hrest⟩

end Sys2Proof.Machine
end

section
/-! ## Execution rules (spec 01): what the ends of launches leave of the strands

The end of a launch writes notices, fault records and Manifest records, and stops the strands of launches that are cancelled
with it. `State.Through` carries a relation between strands through such acts; a strand that has finished comes out of all of
them as it was, but for its snapshot, the counts of its writes and the request of a pre-emptor. -/

namespace Sys2Proof.Machine

/-! ### Relations between the strands of two states -/

/-- Every strand of `t` is as `R` allows, and stands where it stood in `s`. -/
structure State.Through (R : Strand → Strand → Prop) (s t : State) : Prop where
  me : R s.me t.me
  rest : ∃ g : Strand → Strand, (∀ a, R a (g a)) ∧ t.rest = s.rest.map g

/-- Of a strand no more has changed than its snapshot and the counts of its writes. -/
def Strand.Noted (a b : Strand) : Prop := ∃ stale wseq sseq, b = { a with stale := stale, wseq := wseq, sseq := sseq }

/-- It is the same strand, and one that has finished has changed no more than its snapshot, the counts of its writes and the
request of a pre-emptor. -/
def Strand.Settles (a b : Strand) : Prop :=
  b.sid = a.sid ∧ (a.status = .finished → ∃ stale wseq sseq preempt,
    b = { a with stale := stale, wseq := wseq, sseq := sseq, preempt := preempt })

theorem Strand.Noted.refl (a : Strand) : a.Noted a := ⟨_, _, _, rfl⟩

theorem Strand.Noted.trans {a b c : Strand} (h : a.Noted b) (h' : b.Noted c) : a.Noted c := by
  obtain ⟨_, _, _, rfl⟩ := h
  obtain ⟨_, _, _, rfl⟩ := h'
  exact ⟨_, _, _, rfl⟩

theorem Strand.Noted.settles {a b : Strand} (h : a.Noted b) : a.Settles b := by
  obtain ⟨_, _, _, rfl⟩ := h
  exact ⟨rfl, fun _ => ⟨_, _, _, _, rfl⟩⟩

theorem Strand.Settles.refl (a : Strand) : a.Settles a := ⟨rfl, fun _ => ⟨_, _, _, _, rfl⟩⟩

theorem Strand.Settles.trans {a b c : Strand} (h : a.Settles b) (h' : b.Settles c) : a.Settles c := by
  refine ⟨h'.1.trans h.1, fun hf => ?_⟩
  obtain ⟨_, _, _, _, rfl⟩ := h.2 hf
  obtain ⟨_, _, _, _, rfl⟩ := h'.2 hf
  exact ⟨_, _, _, _, rfl⟩

section Through

variable {R : Strand → Strand → Prop} {s t u : State}

/-- Acts that leave the strands alone. -/
theorem State.Through.of_same (hR : ∀ a, R a a) (hme : t.me = s.me) (hrest : t.rest = s.rest) : s.Through R t :=
  ⟨hme ▸ hR s.me, id, hR, by rw [hrest, List.map_id]⟩

theorem State.Through.trans (hR : ∀ {a b c}, R a b → R b c → R a c) (h : s.Through R t) (h' : t.Through R u) : s.Through R u := by
  obtain ⟨hme, g, hg, hrest⟩ := h
  obtain ⟨hme', g', hg', hrest'⟩ := h'
  exact ⟨hR hme hme', g' ∘ g, fun a => hR (hg a) (hg' _), by rw [hrest', hrest, List.map_map]⟩

theorem State.Through.mono {R' : Strand → Strand → Prop} (hR : ∀ {a b}, R a b → R' a b) (h : s.Through R t) : s.Through R' t :=
  ⟨hR h.me, h.rest.imp fun _ hg => ⟨fun a => hR (hg.1 a), hg.2⟩⟩

/-- The strand of a number comes out of acts that keep the numbers as their relation allows. -/
theorem State.Through.find (hsid : ∀ {a b}, R a b → b.sid = a.sid) (h : s.Through R t) {sid : Nat} {st : Strand}
    (hst : s.strands.find? (fun x => x.sid == sid) = some st) :
    ∃ st', t.strands.find? (fun x => x.sid == sid) = some st' ∧ R st st' := by
  obtain ⟨hme, g, hg, hrest⟩ := h
  unfold State.strands at hst ⊢
  rw [hrest, List.find?_cons, hsid hme]
  rw [List.find?_cons] at hst
  cases hs : s.me.sid == sid with
  | true =>
    rw [hs] at hst
    cases hst
    exact ⟨_, rfl, hme⟩
  | false =>
    rw [hs] at hst
    have hsame : (fun x : Strand => x.sid == sid) ∘ g = fun x => x.sid == sid := funext fun x => by
      rw [Function.comp, hsid (hg x)]
    refine ⟨g st, ?_, hg st⟩
    rw [List.find?_map, hsame]
    exact congrArg (Option.map g) hst

end Through

/-- Of every strand no more has changed than its snapshot and the counts of its writes. -/
abbrev State.Notes (s t : State) : Prop := s.Through Strand.Noted t

/-- Finished strands are left alone. -/
abbrev State.Settles (s t : State) : Prop := s.Through Strand.Settles t

section Frames

variable {s t u : State}

theorem State.Notes.of_same (hme : t.me = s.me) (hrest : t.rest = s.rest) : s.Notes t :=
  State.Through.of_same Strand.Noted.refl hme hrest
theorem State.Notes.refl (s : State) : s.Notes s := .of_same rfl rfl
theorem State.Notes.trans (h : s.Notes t) (h' : t.Notes u) : s.Notes u := Through.trans Strand.Noted.trans h h'
theorem State.Notes.settles (h : s.Notes t) : s.Settles t := h.mono Strand.Noted.settles
theorem State.Settles.trans (h : s.Settles t) (h' : t.Settles u) : s.Settles u := Through.trans Strand.Settles.trans h h'

/-- An act that leaves the strands alone follows, or comes first. -/
theorem State.Notes.then (h : s.Notes t) (hme : u.me = t.me) (hrest : u.rest = t.rest) : s.Notes u := h.trans (.of_same hme hrest)
theorem State.Notes.from (h : t.Notes u) (hme : t.me = s.me) (hrest : t.rest = s.rest) : s.Notes u :=
  State.Notes.trans (.of_same hme hrest) h

theorem State.Settles.refl (s : State) : s.Settles s := (State.Notes.refl s).settles
theorem State.Settles.then (h : s.Settles t) (hme : u.me = t.me) (hrest : u.rest = t.rest) : s.Settles u :=
  h.trans (State.Notes.of_same hme hrest).settles

/-- A list of acts, each of which only notes. -/
theorem State.Notes.foldl {α : Type} {g : State → α → State} (hg : ∀ t x, State.Notes t (g t x)) (xs : List α) (s : State) :
    s.Notes (xs.foldl g s) := by
  induction xs generalizing s with
  | nil => exact .refl s
  | cons x xs ih => exact (hg s x).trans (ih (g s x))

/-! ### Writes by units of the device -/

theorem Strand.noteWrite_noted (a : Strand) (g old : Nat) (taint poison : Bool) (v : Version) :
    a.Noted (a.noteWrite g old taint poison v) := by
  unfold Strand.noteWrite
  repeat' split
  all_goals exact ⟨_, _, _, rfl⟩

theorem State.writeGranule_rest (s : State) (who : Nat) (home : Bool) (w : GWrite) :
    ∃ old taint poison v, (s.writeGranule who home w).rest = s.rest.map fun st => st.noteWrite w.granule old taint poison v := by
  dsimp only [State.writeGranule, State.putGranule]
  exact ⟨_, _, _, _, rfl⟩

theorem State.writeGranule_notes (s : State) (who : Nat) (home : Bool) (w : GWrite) : s.Notes (s.writeGranule who home w) := by
  obtain ⟨old, taint, poison, v, hrest⟩ := s.writeGranule_rest who home w
  exact ⟨s.writeGranule_me who home w, _, fun a => a.noteWrite_noted _ _ _ _ _, hrest⟩

theorem State.writePhys_notes (s : State) (who : Nat) (pas : List Nat) (ba : Int) (size value : Nat) (taint poison : Bool) :
    s.Notes (s.writePhys who pas ba size value taint poison) :=
  .foldl (fun t w => t.writeGranule_notes who true w) _ s

theorem State.writeHome_notes {vd who : Nat} {ba : Int} {size value : Nat} {taint poison : Bool}
    (h : s.writeHome vd who ba size value taint poison = .ok t) : s.Notes t := by
  unfold State.writeHome at h
  obtain ⟨pas, -, hpas⟩ := bind_ok.mp h
  cases hpas
  exact s.writePhys_notes _ _ _ _ _ _ _

theorem State.ringWrite_notes {vd addr record : Nat} (h : s.ringWrite vd addr record = .ok t) : s.Notes t := by
  unfold State.ringWrite at h
  obtain ⟨pas, -, hw⟩ := bind_ok.mp h
  exact State.writeHome_notes hw

theorem State.noteFlt_notes (s : State) (vd : Nat) (x : Flt) : s.Notes (s.noteFlt vd x) := by
  unfold State.noteFlt
  split
  · exact .of_same rfl rfl
  · exact .refl s

theorem State.noteCause_notes (s : State) (vd a c : Nat) : s.Notes (s.noteCause vd a c) := by
  unfold State.noteCause
  split
  · exact .of_same rfl rfl
  · exact .refl s

theorem State.noteRead_notes (s : State) (vd a n : Nat) : s.Notes (s.noteRead vd a n) := by
  obtain ⟨_, h⟩ := s.noteRead_eq vd a n
  rw [h]
  exact .of_same rfl rfl

theorem State.ifaceError_notes (s : State) (vd : Nat) : s.Notes (s.ifaceError vd) := by
  unfold State.ifaceError
  split
  · refine State.Notes.from (.foldl (fun t c => ?_) _ _) rfl rfl
    exact .of_same rfl rfl
  · exact .refl s

/-- An interface error after a fault of the Steward's own access. -/
theorem State.faultError_notes (s : State) (vd vd' : Nat) (x : Flt) : s.Notes ((s.noteFlt vd x).ifaceError vd') :=
  (s.noteFlt_notes vd x).trans (State.ifaceError_notes _ _)

theorem State.queueRecord_notes (s : State) (vd die record : Nat) : s.Notes (s.queueRecord vd die record) := by
  unfold State.queueRecord
  split
  · exact .refl s
  · split
    · exact .of_same rfl rfl
    · split
      · exact s.faultError_notes _ _ _
      · dsimp only
        split
        · split
          · exact s.faultError_notes _ _ _
          · next hw => exact (State.writeHome_notes hw).then rfl rfl
        · split
          · exact s.faultError_notes _ _ _
          · next hw =>
            split
            · exact s.faultError_notes _ _ _
            · next hw' => exact ((State.ringWrite_notes hw).trans (State.writeHome_notes hw')).then rfl rfl

theorem State.announce_notes (s : State) (vd die queue : Nat) : s.Notes (s.announce vd die queue) := by
  unfold State.announce
  split
  · exact .refl s
  · exact .of_same rfl rfl

theorem State.writeNotice_notes (s : State) (reserved : Bool) (vd die queue tag lid fcause status : Nat) :
    s.Notes (s.writeNotice reserved vd die queue tag lid fcause status) := by
  unfold State.writeNotice
  split
  · exact .refl s
  · dsimp only
    split
    · exact .refl s
    · split
      · exact s.faultError_notes _ _ _
      · next hw =>
        obtain ⟨u, hu, hu'⟩ := bind_ok.mp hw
        have hnotes := (State.writeHome_notes hu).trans (State.writeHome_notes hu')
        split
        · exact hnotes.trans ((State.announce_notes _ _ _ _).from rfl rfl)
        · exact hnotes.then rfl rfl

end Frames

end Sys2Proof.Machine
end

section
/-! ## Execution rules (spec 01): the ends of launches leave finished strands alone -/

namespace Sys2Proof.Machine

section Frames

variable {s t : State}

/-! ### The Manifest (R388-R393) -/

theorem State.deviceFault_notes (s : State) (l : Launch) (cause faddr : Nat) : s.Notes (s.deviceFault l cause faddr) :=
  (s.noteRead_notes _ _ _).trans (State.queueRecord_notes _ _ _ _)

theorem State.foldFault_notes (s : State) (l : Launch) (c : Nat) : s.Notes (s.foldFault l c) :=
  (s.noteCause_notes _ _ _).trans (State.deviceFault_notes _ _ _ _)

theorem State.foldAt_notes {vd who a : Nat} {digest : Word} {m : FoldMsg} {rel : Clock} {p : State × Nat}
    (h : s.foldAt vd who a digest m rel = .ok p) : s.Notes p.1 := by
  unfold State.foldAt at h
  simp only [bind, Except.bind, pure, Except.pure, throw, throwThe, MonadExceptOf.throw] at h
  split at h
  · cases h
  · split at h
    · cases h
    · cases h
      refine State.Notes.trans ?_ (State.writeGranule_notes _ _ _ _)
      exact State.Notes.from (State.writeGranule_notes _ _ _ _) rfl rfl

theorem State.foldManifest_notes {l : Launch} (h : s.foldManifest l = .ok t) : s.Notes t := by
  unfold State.foldManifest at h
  split at h
  · cases h
  · cases hf : s.foldAt l.vd agentSteward _ l.fold l.foldMsg l.endClock with
    | error c =>
      rw [hf] at h
      cases h
    | ok p =>
      rw [hf] at h
      cases h
      exact State.foldAt_notes hf
  · cases h
  · cases h
    exact .refl s

theorem State.onRecord_notes (s : State) (who pa : Nat) (act : ManifestAct) : s.Notes (s.onRecord who pa act) := by
  cases act with
  | compare => exact .refl s
  | status n => exact s.writeGranule_notes _ _ _
  | clear => exact s.writeGranule_notes _ _ _

theorem State.manifestAct_notes (s : State) (vd job a : Nat) (act : ManifestAct) : s.Notes (s.manifestAct vd job a act) := by
  unfold State.manifestAct
  split
  · exact .refl s
  · split
    · exact s.onRecord_notes _ _ _
    · exact s.noteCause_notes _ _ _
  · exact .of_same rfl rfl

theorem State.mismatch_notes (s : State) (x : Serial) (a : Word) : s.Notes (s.mismatch x a) := by
  unfold State.mismatch
  repeat' split
  · exact s.deviceFault_notes _ _ _
  · exact .refl s
  · exact .refl s

/-! ### Graphs, phases and jobs (R25, R30, R392, R393) -/

theorem phaseEnd_notes (s : State) (vd job phase status : Nat) : s.Notes (phaseEnd s vd job phase status).1 := by
  unfold phaseEnd
  repeat' split
  all_goals exact .of_same rfl rfl

theorem State.setStatus_notes (s : State) (x : Serial) (as : List Word) (n : BitVec 3) : s.Notes (s.setStatus x as n) :=
  .foldl (fun t _ => t.manifestAct_notes _ _ _ _) _ s

theorem firstOver_notes (s : State) (x : Serial) : s.Notes (firstOver s x).1 := by
  have hstatus := s.setStatus_notes x x.matched 2
  unfold firstOver
  dsimp only
  split
  · exact hstatus.trans (phaseEnd_notes _ _ _ _ _)
  · have hfaults := hstatus.trans (.foldl (fun t a => t.mismatch_notes x a) x.records _)
    generalize x.records.foldl (fun t a => t.mismatch x a) (s.setStatus x x.matched 2) = u at hfaults ⊢
    have hclear := State.Notes.foldl (fun t a => t.manifestAct_notes x.vd x.job a .clear)
      (u.phaseRecords x.vd x.job x.phase fun _ => true) u
    exact (hfaults.trans hclear).then rfl rfl

theorem checkOn_notes (s : State) (x : Serial) : s.Notes (checkOn s x).1 := by
  unfold checkOn
  split
  · exact firstOver_notes s x
  · exact (s.setStatus_notes _ _ _).trans (phaseEnd_notes _ _ _ _ _)
  · exact .of_same rfl rfl

theorem phaseChecks_notes (s : State) (vd job phase status : Nat) : s.Notes (phaseChecks s vd job phase status).1 := by
  unfold phaseChecks
  split
  · exact phaseEnd_notes _ _ _ _ _
  · refine State.Notes.trans ?_ (checkOn_notes _ _)
    exact .foldl (fun t a => t.manifestAct_notes _ _ _ .compare) _ s

/-- A task's end counts at its graph (R25). -/
def countGraph (s : State) (l : Launch) (cancelled : Bool) : State :=
  match s.graphOf? l with
  | some g =>
    let g1 : Counter := { g with left := g.left - 1, status := max g.status (b2n cancelled), completed := decide (g.left ≤ 1) }
    if g1.completed && g.key2 == 1 then s.dropCounter .graph l.vd l.graph.1 l.graph.2 else s.putCounter g1
  | none => s

/-- A task's end counts at its phase, and the last one's end leads to the checks of the phase (R25, R392). -/
def countPhase (s : State) (l : Launch) (cancelled : Bool) : State × List Ending :=
  match s.phaseOf? l with
  | some p =>
    if p.left == 0 then (s, [])
    else
      let p1 : Counter := { p with left := p.left - 1, status := max p.status (b2n cancelled), clock := clockJoin p.clock l.endClock }
      let s2 := s.putCounter p1
      if p1.left == 0 then
        phaseChecks s2 l.vd l.job l.phase (max p1.status (b2n (((s2.jobOf? l).map Counter.cancelled).getD false)))
      else (s2, [])
  | none => (s, [])

theorem countEnd_eq (s : State) (l : Launch) (cancelled : Bool) :
    countEnd s l cancelled = countPhase (countGraph s l cancelled) l cancelled := rfl

theorem countGraph_notes (s : State) (l : Launch) (cancelled : Bool) : s.Notes (countGraph s l cancelled) := by
  unfold countGraph
  split
  · dsimp only
    split
    · exact .of_same rfl rfl
    · exact .of_same rfl rfl
  · exact .refl s

theorem countPhase_notes (s : State) (l : Launch) (cancelled : Bool) : s.Notes (countPhase s l cancelled).1 := by
  unfold countPhase
  split
  · split
    · exact .refl s
    · dsimp only
      split
      · exact (phaseChecks_notes _ _ _ _ _).from rfl rfl
      · exact .of_same rfl rfl
  · exact .refl s

theorem countEnd_notes (s : State) (l : Launch) (cancelled : Bool) : s.Notes (countEnd s l cancelled).1 := by
  rw [countEnd_eq]
  exact (countGraph_notes s l cancelled).trans (countPhase_notes _ l cancelled)

theorem State.countBatch_notes (s : State) (l : Launch) (ok : Bool) : s.Notes (s.countBatch l ok) := by
  unfold State.countBatch
  split
  · exact .of_same rfl rfl
  · exact .refl s

theorem State.deviceFaultAction_notes (s : State) (l : Launch) (cause : Nat) : s.Notes (s.deviceFaultAction l cause) := by
  unfold State.deviceFaultAction
  split
  · exact .of_same rfl rfl
  · exact .of_same rfl rfl
  · exact .refl s

theorem commitTask_notes (s : State) (l : Launch) : s.Notes (commitTask s l).1 := by
  unfold commitTask
  dsimp only
  split
  · exact .of_same rfl rfl
  · split
    · refine State.Notes.trans ?_ (State.deviceFaultAction_notes _ _ _)
      refine State.Notes.trans ?_ (State.foldFault_notes _ _ _)
      exact .of_same rfl rfl
    · next h => exact (State.foldManifest_notes h).then rfl rfl

/-! ### The end of a launch (R26, R28, R30) -/

/-- Acts on the strands that meet `p`, none of which has finished, or that only drop a request. -/
theorem State.mapStrands_settles (s : State) {p : Strand → Bool} {g : Strand → Strand} (h : ∀ a, p a = true → a.Settles (g a)) :
    s.Settles (s.mapStrands p g) := by
  have hif (a : Strand) : a.Settles (if p a then g a else a) := by
    split
    · next hp => exact h a hp
    · exact .refl a
  exact ⟨hif s.me, _, hif, rfl⟩

theorem State.dropRequests_settles (s : State) (lid : Nat) : s.Settles (s.dropRequests lid) :=
  s.mapStrands_settles fun _ _ => ⟨rfl, fun _ => ⟨_, _, _, _, rfl⟩⟩

theorem State.stopped_settles (s : State) (lid : Nat) : s.Settles (s.mapStrands (fun st => st.liveOf lid) Strand.stopped) :=
  s.mapStrands_settles fun a hp => ⟨rfl, fun hf => by simp [Strand.liveOf, hf] at hp⟩

theorem cancelLaunch_settles (s : State) (l : Launch) (status : Nat) (fc : BitVec 32) :
    s.Settles (cancelLaunch s l status fc).1 := by
  unfold cancelLaunch
  split
  · exact .refl s
  · split
    · exact .refl s
    · exact ((s.dropRequests_settles _).trans (State.stopped_settles _ _)).then rfl rfl

/-- The fold of a task that ran again, unless it was cancelled (R393). -/
def State.foldAgain (s : State) (l : Launch) : State :=
  if l.mfst == 0 || l.status != 0 then s
  else
    match s.foldManifest l with
    | .ok t => t
    | .error c => s.foldFault l c

/-- The phase's clock takes that of a task that ran again (R291). -/
def State.joinPhase (s : State) (l : Launch) : State :=
  match s.phaseOf? l with
  | some p => s.putCounter { p with clock := clockJoin p.clock l.endClock }
  | none => s

theorem State.foldAgain_notes (s : State) (l : Launch) : s.Notes (s.foldAgain l) := by
  unfold State.foldAgain
  split
  · exact .refl s
  · split
    · next h => exact State.foldManifest_notes h
    · exact s.foldFault_notes l _

theorem State.joinPhase_notes (s : State) (l : Launch) : s.Notes (s.joinPhase l) := by
  unfold State.joinPhase
  split
  · exact .of_same rfl rfl
  · exact .refl s

theorem endSerial_settles (s : State) (l : Launch) : s.Settles (endSerial s l) := by
  have hphase := (s.foldAgain_notes l).trans (State.joinPhase_notes _ l)
  exact (hphase.settles.trans (State.dropRequests_settles _ l.lid)).then rfl rfl

theorem State.askFold?_settles {l : Launch} (h : s.askFold? l = some t) : s.Settles t := by
  unfold State.askFold? at h
  split at h
  · split at h
    · cases h
    · cases h
      exact (State.Settles.refl s).then rfl rfl
  · cases h
    exact .refl s
  · cases h

/-- A launch commits as it ends, unless it has been cancelled (R26). -/
def State.commitEnd (s : State) (l : Launch) : State × Launch := if l.status != 0 then (s, l) else commitTask s l

/-- The notice of a launch of a queue, where it has none yet (R420). -/
def State.noticeEnd (s : State) (l l1 : Launch) : State :=
  if l.queue < 16 && !l.notified then
    s.writeNotice true l.vd l.die l.queue (fld l.header 511 448) l.lid (if l1.status == 2 then l1.fcause.toNat else 0) l1.status
  else s

/-- What a launch that has completed leads to in its graph, and what its end counts at (R25). -/
def State.countedEnd (s : State) (l : Launch) (ok : Bool) : State × List Ending :=
  let s3 := if l.status != 0 then s
    else { s with launches := s.launches.map fun m =>
             if l.precedes m && !m.state.final then m.release l.endClock (s.cycleOf m.die) else m }
  countEnd (s3.countBatch l ok) l (l.status != 0)

theorem State.commitEnd_notes (s : State) (l : Launch) : s.Notes (s.commitEnd l).1 := by
  unfold State.commitEnd
  split
  · exact .refl s
  · exact commitTask_notes s l

theorem State.noticeEnd_notes (s : State) (l l1 : Launch) : s.Notes (s.noticeEnd l l1) := by
  unfold State.noticeEnd
  split
  · exact s.writeNotice_notes _ _ _ _ _ _ _ _
  · exact .refl s

theorem State.countedEnd_notes (s : State) (l : Launch) (ok : Bool) : s.Notes (s.countedEnd l ok).1 := by
  unfold State.countedEnd
  dsimp only
  refine State.Notes.trans ?_ (countEnd_notes _ _ _)
  refine State.Notes.trans ?_ (State.countBatch_notes _ l ok)
  split
  · exact .refl s
  · exact .of_same rfl rfl

/-- The state in which a launch that is not serial ends. -/
def State.ended (s : State) (l : Launch) : State :=
  let p := s.commitEnd l
  let l1 : Launch := { p.2 with state := if l.status != 0 then .cancelled else .done, notified := true, held := [] }
  (((((p.1.dropRequests l.lid).releaseHoldings l.lid).setLaunch l1).noticeEnd l l1).countedEnd l (l1.status == 0)).1

theorem State.ended_settles (s : State) (l : Launch) : s.Settles (s.ended l) := by
  unfold State.ended
  dsimp only
  refine State.Settles.trans ?_ ((State.noticeEnd_notes _ _ _).trans (State.countedEnd_notes _ _ _)).settles
  exact ((s.commitEnd_notes l).settles.trans (State.dropRequests_settles _ l.lid)).then rfl rfl

theorem closeLaunch_settles (s : State) (l : Launch) : s.Settles (closeLaunch s l).1 := by
  unfold closeLaunch
  split
  · exact endSerial_settles s l
  · dsimp only
    split
    · exact (s.ended_settles l).then rfl rfl
    · exact (s.ended_settles l).then rfl rfl

theorem endLaunch_settles (s : State) (l : Launch) : s.Settles (endLaunch s l).1 := by
  unfold endLaunch
  split
  · exact .refl s
  · split
    · next h => exact State.askFold?_settles h
    · exact closeLaunch_settles s l

theorem endStep_settles (s : State) (x : Ending) : s.Settles (endStep s x).1 := by
  cases x with
  | cancel lid status fc =>
    dsimp only [endStep]
    split
    · exact cancelLaunch_settles _ _ _ _
    · exact .refl s
  | finish lid =>
    dsimp only [endStep]
    split
    · exact endLaunch_settles _ _
    · exact .refl s

theorem settle_settles (n : Nat) (xs : List Ending) (s : State) : s.Settles (settle n xs s) := by
  induction n generalizing xs s with
  | zero => exact .refl s
  | succ n ih =>
    cases xs with
    | nil => exact .refl s
    | cons x r => exact (endStep_settles s x).trans (ih _ _)

/-- All that follows from endings leaves the strands that have finished alone. -/
theorem State.settleAll_settles (s : State) (xs : List Ending) : s.Settles (s.settleAll xs) := settle_settles _ _ _

end Frames

end Sys2Proof.Machine
end

section
/-! ## Execution rules (spec 01): strands that finish, are parked and are resumed -/

namespace Sys2Proof.Machine

/-! ### Finishing (R26) -/

section Finish

variable {s : State} {sid lid : Nat} {st : Strand}

theorem State.mapStrands_through {R : Strand → Strand → Prop} (s : State) {p : Strand → Bool} {g : Strand → Strand}
    (h : ∀ a, R a (if p a then g a else a)) : s.Through R (s.mapStrands p g) :=
  ⟨h s.me, _, h, rfl⟩

theorem find?_sid {xs : List Strand} (h : xs.find? (fun x => x.sid == sid) = some st) : st.sid = sid := by
  have hs := List.find?_some h
  simpa using hs

theorem State.launch?_lid {l : Launch} (h : s.launch? lid = some l) : l.lid = lid := by
  have hs := List.find?_some h
  simpa using hs

/-- A launch is found after a change of launches that keeps their numbers. -/
theorem State.launch?_map {l : Launch} {g : Launch → Launch} (hg : ∀ x, (g x).lid = x.lid) (h : s.launch? lid = some l) :
    State.launch? { s with launches := s.launches.map g } lid = some (g l) := by
  have hsame : (fun x : Launch => x.lid == lid) ∘ g = fun x => x.lid == lid := funext fun x => by rw [Function.comp, hg]
  unfold State.launch?
  rw [List.find?_map, hsame]
  exact congrArg (Option.map g) h

theorem State.Settles.fuseCaches {t : State} (h : s.Settles t) : s.Settles t.fuseCaches := h.then rfl rfl

/-- The strand as it stands when it has finished. -/
def Strand.finish (st : Strand) : Strand := { st with status := .finished, work := [], queue := [], preempt := none }

/-- The strand has finished, and left what it wrote and folded with its launch and the consumer of a spliced pair (R26, R391). -/
def State.finished (s : State) (sid : Nat) (st : Strand) (lid : Nat) (consumer : Option Nat) : State :=
  { s.mapStrands (fun x => x.sid == sid) Strand.finish with
    launches := s.launches.map fun l => (l.collect st (st.ownClock st.sseq) lid consumer).keepSlot st }

theorem Launch.keepSlot_form (l : Launch) (st : Strand) : ∃ held, l.keepSlot st = { l with held := held } := by
  unfold Launch.keepSlot
  split
  · exact ⟨_, rfl⟩
  · exact ⟨l.held, rfl⟩

theorem Launch.collect_lid (l : Launch) (st : Strand) (c : Clock) (lid : Nat) (consumer : Option Nat) :
    (l.collect st c lid consumer).lid = l.lid := by
  unfold Launch.collect
  split
  · rfl
  · split <;> rfl

theorem State.finished_find (hst : s.strands.find? (fun x => x.sid == sid) = some st) (consumer : Option Nat) :
    (s.finished sid st lid consumer).strands.find? (fun x => x.sid == sid) = some st.finish := by
  have hthrough : s.Through (fun a b => b.sid = a.sid ∧ (a.sid = sid → b = a.finish))
      (s.mapStrands (fun x => x.sid == sid) Strand.finish) := by
    refine s.mapStrands_through fun a => ?_
    split
    · exact ⟨rfl, fun _ => rfl⟩
    · next h => exact ⟨rfl, fun h' => absurd (by simpa using h') h⟩
  obtain ⟨st', hfind, hst'⟩ := hthrough.find (fun h => h.1) hst
  exact hfind.trans (congrArg some (hst'.2 (find?_sid hst)))

theorem State.finished_launch {l : Launch} (hl : s.launch? lid = some l) (consumer : Option Nat) :
    ∃ l', (s.finished sid st lid consumer).launch? lid = some l' ∧ l'.leftCount = l.leftCount - 1 ∧ l'.fold = l.fold ^^^ st.fold ∧
      l'.state = l.state := by
  have hlid (x : Launch) : ((x.collect st (st.ownClock st.sseq) lid consumer).keepSlot st).lid = x.lid := by
    obtain ⟨_, h⟩ := Launch.keepSlot_form (x.collect st (st.ownClock st.sseq) lid consumer) st
    rw [h]
    exact x.collect_lid _ _ _ _
  refine ⟨_, State.launch?_map (s := s) hlid hl, ?_⟩
  obtain ⟨_, h⟩ := Launch.keepSlot_form (l.collect st (st.ownClock st.sseq) lid consumer) st
  rw [h, Launch.collect, State.launch?_lid hl]
  simp only [beq_self_eq_true, if_true, and_self]

/-- A strand that may finish, on its way to which no cancel is. -/
theorem execStrandFinish_of_mayFinish (hst : s.strands.find? (fun x => x.sid == sid) = some st) (hmay : st.mayFinish = true)
    (hcancel : st.status = .cancelled → s.cancelComing st.launch.toNat = false) {consumer : Option Nat}
    (hc : consumer = (s.launch? st.launch.toNat).bind fun l => l.spliceWith) {l' : Launch}
    (hl' : (s.finished sid st st.launch.toNat consumer).launch? st.launch.toNat = some l') :
    execStrandFinish sid s = .next (if l'.leftCount == 0
      then (s.finished sid st st.launch.toNat consumer).settleAll [.finish st.launch.toNat]
      else s.finished sid st st.launch.toNat consumer).fuseCaches := by
  have hgo : (!st.mayFinish || (st.status == .cancelled && s.cancelComing st.launch.toNat)) = false := by
    rw [hmay]
    by_cases h : st.status = .cancelled
    · rw [hcancel h, Bool.and_false]
      rfl
    · rw [beq_eq_false_iff_ne.mpr h]
      rfl
  subst hc
  unfold execStrandFinish
  simp only [hst, hgo, Bool.false_eq_true, if_false]
  generalize hx : State.launch? _ st.launch.toNat = x
  cases hx.symm.trans hl'
  rfl

/-- A finished strand leaves all that follows as it is. -/
theorem Strand.Settles.of_finish {st' : Strand} (h : st.finish.Settles st') : st'.status = .finished ∧ st'.work = [] ∧
    st'.queue = [] ∧ st'.v = st.v ∧ st'.keeps st := by
  obtain ⟨_, _, _, _, rfl⟩ := h.2 rfl
  exact ⟨rfl, rfl, rfl, rfl, rfl, rfl, rfl, rfl, rfl, by simp [Strand.sameSpecial, Strand.finish]⟩

/-- STRAND_FINISH, with what it leaves of the launch that still has strands (R26). -/
theorem exec_strandFinish {l : Launch} (hst : s.strands.find? (fun x => x.sid == sid) = some st) (hmay : st.mayFinish = true)
    (hcancel : st.status = .cancelled → s.cancelComing st.launch.toNat = false) (hl : s.launch? st.launch.toNat = some l) :
    ∃ t st', exec (.strandFinish sid) s = .next t ∧ t.strands.find? (fun x => x.sid == sid) = some st' ∧
      st'.status = .finished ∧ st'.work = [] ∧ st'.queue = [] ∧ st'.v = st.v ∧ st'.keeps st ∧
      (2 ≤ l.leftCount → s.sameMemory t ∧ ∃ l', t.launch? l.lid = some l' ∧ l'.leftCount = l.leftCount - 1 ∧
        l'.fold = l.fold ^^^ st.fold ∧ l'.state = l.state) := by
  generalize hconsumer : ((s.launch? st.launch.toNat).bind fun l => l.spliceWith) = consumer
  generalize hu : s.finished sid st st.launch.toNat consumer = u
  obtain ⟨l', hl', hleft, hfold, hstate⟩ := State.finished_launch (sid := sid) (st := st) hl consumer
  have hexec := execStrandFinish_of_mayFinish hst hmay hcancel hconsumer.symm hl'
  have hfind := State.finished_find (lid := st.launch.toNat) hst consumer
  rw [hu] at hl' hexec hfind
  have hsettles : u.Settles (if l'.leftCount == 0 then u.settleAll [.finish st.launch.toNat] else u).fuseCaches := by
    refine State.Settles.fuseCaches ?_
    split
    · exact u.settleAll_settles _
    · exact .refl u
  obtain ⟨st', hst', hkeeps⟩ := hsettles.find (fun h => h.1) hfind
  obtain ⟨hstatus, hwork, hqueue, hv, hrest⟩ := hkeeps.of_finish
  refine ⟨_, st', hexec, hst', hstatus, hwork, hqueue, hv, hrest, fun h2 => ?_⟩
  have hmany : (l'.leftCount == 0) = false := beq_eq_false_iff_ne.mpr (by omega)
  rw [hmany]
  simp only [Bool.false_eq_true, if_false]
  refine ⟨?_, l', ?_, hleft, hfold, hstate⟩
  · subst hu
    exact ⟨fun _ => rfl, rfl, rfl⟩
  · rw [State.launch?_lid hl]
    exact hl'

end Finish

end Sys2Proof.Machine
end

section
/-! ## Execution rules (spec 01): strands that are parked and resumed -/

namespace Sys2Proof.Machine

/-! ### Another strand in the focus -/

/-- The number of a strand does not change. -/
def Strand.SameSid (a b : Strand) : Prop := b.sid = a.sid

theorem Strand.SameSid.trans {a b c : Strand} (h : a.SameSid b) (h' : b.SameSid c) : a.SameSid c := Eq.trans h' h

/-- The states differ in their strands alone. -/
def State.SameBut (s t : State) : Prop := ∃ me rest, t = { s with me := me, rest := rest }

section Focus

variable {s : State} {sid : Nat} {st : Strand}

theorem State.SameBut.refl (s : State) : s.SameBut s := ⟨s.me, s.rest, rfl⟩

theorem State.SameBut.trans {s t u : State} (h : s.SameBut t) (h' : t.SameBut u) : s.SameBut u := by
  obtain ⟨_, _, rfl⟩ := h
  obtain ⟨_, _, rfl⟩ := h'
  exact ⟨_, _, rfl⟩

/-- Where the strand of the focus takes the place of all strands of its number, they are it. -/
theorem find?_focus_back {xs : List Strand} {old me : Strand} (hme : me.sid = sid) (hxs : ∀ x ∈ xs, x.sid ≠ sid)
    (hold : ∃ x ∈ xs, x.sid = old.sid) :
    (xs.map fun x => if x.sid == old.sid then me else x).find? (fun x => x.sid == sid) = some me := by
  obtain ⟨y, hy, hys⟩ := hold
  have hsome : ((xs.map fun x => if x.sid == old.sid then me else x).find? fun x => x.sid == sid).isSome = true := by
    rw [List.find?_isSome]
    exact ⟨me, List.mem_map.mpr ⟨y, hy, by simp [hys]⟩, by simp [hme]⟩
  obtain ⟨z, hz⟩ := Option.isSome_iff_exists.mp hsome
  obtain ⟨x, hx, hxz⟩ := List.mem_map.mp (List.mem_of_find?_eq_some hz)
  have hzs := find?_sid hz
  rw [hz]
  split at hxz
  · rw [hxz]
  · exact absurd (hxz ▸ hzs) (hxs x hx)

/-- An act on another strand changes that strand as it changes the strand in the focus. -/
theorem State.asStrand_focus (hst : s.strands.find? (fun x => x.sid == sid) = some st) {g : State → State}
    (hg : ∀ u : State, u.me = st → u.Through Strand.SameSid (g u)) :
    ∃ u : State, u.me = st ∧ s.SameBut u ∧ (g u).SameBut (s.asStrand sid g) ∧
      (s.asStrand sid g).strands.find? (fun x => x.sid == sid) = some (g u).me := by
  have hsid := find?_sid hst
  unfold State.strands at hst
  rw [List.find?_cons] at hst
  cases hme : s.me.sid == sid with
  | true =>
    rw [hme] at hst
    cases hst
    have hthrough := hg s rfl
    unfold State.asStrand
    rw [hme]
    refine ⟨s, rfl, .refl s, .refl _, ?_⟩
    simp only [if_true, State.strands]
    rw [List.find?_cons_of_pos]
    rw [hthrough.me]
    exact hme
  | false =>
    rw [hme] at hst
    have hin : s.rest.find? (fun x => x.sid == sid) = some st := hst
    generalize hu : ({ s with me := st, rest := s.rest.map fun x => if x.sid == sid then s.me else x } : State) = u
    have hume : u.me = st := by rw [← hu]
    have hurest : u.rest = s.rest.map fun x => if x.sid == sid then s.me else x := by rw [← hu]
    obtain ⟨htme, h, hh, htrest⟩ := hg u hume
    have hne : s.me.sid ≠ sid := by simpa using hme
    have hothers : ∀ x ∈ (g u).rest, x.sid ≠ sid := by
      rw [htrest, hurest]
      simp only [List.mem_map]
      rintro _ ⟨_, ⟨x, -, rfl⟩, rfl⟩
      rw [hh]
      split
      · exact hne
      · next h => simpa using h
    have hback : ∃ x ∈ (g u).rest, x.sid = s.me.sid := by
      rw [htrest, hurest]
      refine ⟨_, List.mem_map_of_mem (List.mem_map_of_mem (List.mem_of_find?_eq_some hin)), ?_⟩
      rw [hh, hsid]
      simp
    generalize hold : ((g u).rest.find? fun x => x.sid == s.me.sid).getD s.me = old
    have holdsid : old.sid = s.me.sid := by
      rw [← hold]
      cases hf : (g u).rest.find? fun x => x.sid == s.me.sid with
      | none => rfl
      | some x => exact find?_sid hf
    have hact : s.asStrand sid g =
        { g u with me := old, rest := (g u).rest.map fun x => if x.sid == s.me.sid then (g u).me else x } := by
      unfold State.asStrand
      rw [hme, hin, ← hold, ← hu]
      rfl
    refine ⟨u, hume, hu ▸ ⟨_, _, rfl⟩, hact ▸ ⟨_, _, rfl⟩, ?_⟩
    rw [hact, State.strands, List.find?_cons_of_neg]
    · exact find?_focus_back (Eq.trans htme (hume ▸ hsid)) hothers hback
    · rw [holdsid]
      simpa using hne

end Focus

/-! ### Switching out (R375, R377) -/

section SwitchOut

variable {s : State}

/-- Of a strand no more has changed than its work, its snapshot and the counts of its writes. -/
def Strand.Pauses (a b : Strand) : Prop :=
  ∃ work stale wseq sseq, b = { a with work := work, stale := stale, wseq := wseq, sseq := sseq }

theorem Strand.Pauses.refl (a : Strand) : a.Pauses a := ⟨_, _, _, _, rfl⟩

theorem Strand.Pauses.trans {a b c : Strand} (h : a.Pauses b) (h' : b.Pauses c) : a.Pauses c := by
  obtain ⟨_, _, _, _, rfl⟩ := h
  obtain ⟨_, _, _, _, rfl⟩ := h'
  exact ⟨_, _, _, _, rfl⟩

theorem Strand.Noted.pauses {a b : Strand} (h : a.Noted b) : a.Pauses b := by
  obtain ⟨_, _, _, rfl⟩ := h
  exact ⟨_, _, _, _, rfl⟩

theorem State.pauseWork_notes (s : State) (w : Work) : s.Notes (s.pauseWork w).1 := by
  unfold State.pauseWork
  split
  · dsimp only
    split
    · exact .refl s
    · split
      · exact s.noteFlt_notes _ _
      · exact s.writeGranule_notes _ _ _
  · exact .refl s

theorem State.stopLoad_pauses (s : State) (w : Work) : s.Through Strand.Pauses (s.stopLoad w) := by
  unfold State.stopLoad
  dsimp only
  split
  · exact ⟨⟨_, _, _, _, rfl⟩, id, .refl, by rw [List.map_id]⟩
  · exact ⟨⟨_, _, _, _, rfl⟩, id, .refl, by rw [List.map_id]; rfl⟩

theorem foldl_stopLoad_pauses (ws : List Work) (s : State) : s.Through Strand.Pauses (ws.foldl State.stopLoad s) := by
  induction ws generalizing s with
  | nil => exact .of_same .refl rfl rfl
  | cons w r ih => exact .trans Strand.Pauses.trans (s.stopLoad_pauses w) (ih _)

/-- The pauses of a list of work, with the work as it stands then. -/
def State.pauseAll (acc : State × List Work) (w : Work) : State × List Work :=
  ((acc.1.pauseWork w).1, acc.2 ++ [(acc.1.pauseWork w).2])

theorem foldl_pauseAll_notes (ws : List Work) (acc : State × List Work) : acc.1.Notes (ws.foldl State.pauseAll acc).1 := by
  induction ws generalizing acc with
  | nil => exact .refl _
  | cons w r ih => exact (acc.1.pauseWork_notes w).trans (ih (State.pauseAll acc w))

/-- What a strand that is switched out keeps. -/
theorem State.switchOutMe_form (s : State) (byPolicy atHead : Bool) :
    (∃ m work, s.me.Pauses m ∧ (s.switchOutMe byPolicy atHead).me = { m with
      work := work, pend := none
      queue := requeue ((s.me.work.filter fun w : Work => w.kind == WorkKind.pload).map Work.entry) s.me.queue
        ((s.me.reissued || atHead) && s.me.prog != 0) }.switchOut byPolicy s.now) ∧
      s.Through Strand.SameSid (s.switchOutMe byPolicy atHead) := by
  have hloads := foldl_stopLoad_pauses (s.me.work.filter fun w => w.kind == .pload) s
  generalize hs1 : (s.me.work.filter fun w => w.kind == .pload).foldl State.stopLoad s = s1 at hloads
  have hpauses := (foldl_pauseAll_notes s1.me.work (s1, [])).mono (R' := Strand.Pauses) Strand.Noted.pauses
  have hall := State.Through.trans (R := Strand.Pauses) Strand.Pauses.trans hloads hpauses
  obtain ⟨hme, g, hg, hrest⟩ := hall
  have hform : (s.switchOutMe byPolicy atHead).me = { (s1.me.work.foldl State.pauseAll (s1, [])).1.me with
      work := (s1.me.work.foldl State.pauseAll (s1, [])).2, pend := none
      queue := requeue ((s.me.work.filter fun w : Work => w.kind == WorkKind.pload).map Work.entry) s.me.queue
        ((s.me.reissued || atHead) && s.me.prog != 0) }.switchOut byPolicy s.now := by
    rw [← hs1]
    rfl
  refine ⟨⟨_, _, hme, hform⟩, ?_, g, ?_, ?_⟩
  · obtain ⟨_, _, _, _, hm⟩ := hme
    rw [Strand.SameSid, hform, Strand.switchOut, hm]
  · intro a
    obtain ⟨_, _, _, _, h⟩ := hg a
    rw [Strand.SameSid, h]
  · rw [← hrest, ← hs1]
    rfl

theorem requeue_nil (queue : List Entry) (stopped : Bool) : requeue [] queue stopped = queue := by
  cases queue with
  | nil => rfl
  | cons e r => simp [requeue]

variable {sid by_ : Nat} {st : Strand}

/-- PREEMPT_SAVE of a strand that has drained (R375, R380). -/
theorem exec_preemptSave (hst : s.strands.find? (fun x => x.sid == sid) = some st) (hpre : st.preempt = some by_)
    (hres : st.resident = true) (hcancel : st.status ≠ .cancelled) (hmay : st.mayFinish = false) (hdrained : st.drained = true) :
    ∃ t st', exec (.preemptSave sid) s = .next t ∧ t.strands.find? (fun x => x.sid == sid) = some st' ∧
      st'.status = .parked false ∧ st'.preempt = none ∧ st'.pend = none ∧ st'.left = some st.place ∧ st'.halted = (st.status == .halted) ∧
      st'.pc = st.pc ∧ st'.v = st.v ∧ st'.keeps st ∧ st'.flags = st.flags ∧
      ((∀ w ∈ st.work, w.kind ≠ .pload) → st'.queue = st.queue) := by
  obtain ⟨u, hu, -, hsame, hfind⟩ := State.asStrand_focus hst (g := fun t => t.switchOutMe false false)
    fun u _ => (u.switchOutMe_form false false).2
  obtain ⟨⟨m, work, ⟨_, _, _, _, hm⟩, hme⟩, -⟩ := u.switchOutMe_form false false
  have hgo : (!st.resident || st.status == .cancelled || st.mayFinish || !st.drained) = false := by
    rw [hres, hmay, hdrained, beq_eq_false_iff_ne.mpr hcancel]
    rfl
  have hexec : ∃ t, exec (.preemptSave sid) s = .next t ∧
      t.strands = (s.asStrand sid fun t => t.switchOutMe false false).strands := by
    dsimp only [exec, execPreemptSave]
    simp only [hst, hpre, hgo, Bool.false_eq_true, if_false]
    exact ⟨_, rfl, rfl⟩
  obtain ⟨t, hexec, hstrands⟩ := hexec
  refine ⟨t, _, hexec, hstrands ▸ hfind, ?_⟩
  rw [hme, hm, hu]
  simp only [Strand.switchOut, Strand.keeps, Strand.sameSpecial, and_self, true_and]
  intro hload
  have hnone : (st.work.filter fun w => w.kind == .pload) = [] := by
    simpa using hload
  rw [hnone]
  exact requeue_nil _ _

end SwitchOut

end Sys2Proof.Machine
end

section
/-! ## Execution rules (spec 01): strands that are resumed -/

namespace Sys2Proof.Machine

/-! ### What acts on caches and reservations leave alone -/

/-- Caches, reservations and the notes of page walks have changed alone. -/
def State.Quiet (s t : State) : Prop :=
  ∃ reservations lines fills dues notes fused, t = { s with
    reservations := reservations, lines := lines, fills := fills, dues := dues, poisonedWalks := notes, fused := fused }

section Quiet

variable {s t u : State}

theorem State.Quiet.refl (s : State) : s.Quiet s := ⟨_, _, _, _, _, _, rfl⟩

theorem State.Quiet.trans (h : s.Quiet t) (h' : t.Quiet u) : s.Quiet u := by
  obtain ⟨_, _, _, _, _, _, rfl⟩ := h
  obtain ⟨_, _, _, _, _, _, rfl⟩ := h'
  exact ⟨_, _, _, _, _, _, rfl⟩

theorem State.Quiet.foldl {α : Type} {g : State → α → State} (hg : ∀ t x, State.Quiet t (g t x)) (xs : List α) (s : State) :
    s.Quiet (xs.foldl g s) := by
  induction xs generalizing s with
  | nil => exact .refl s
  | cons x xs ih => exact (hg s x).trans (ih (g s x))

theorem State.Quiet.me (h : s.Quiet t) : t.me = s.me := by
  obtain ⟨_, _, _, _, _, _, rfl⟩ := h
  rfl

theorem State.Quiet.rest (h : s.Quiet t) : t.rest = s.rest := by
  obtain ⟨_, _, _, _, _, _, rfl⟩ := h
  rfl

theorem State.Quiet.strands (h : s.Quiet t) : t.strands = s.strands := by
  rw [State.strands, h.me, h.rest]
  rfl

theorem State.Quiet.sameMemory (h : s.Quiet t) : s.sameMemory t := by
  obtain ⟨_, _, _, _, _, _, rfl⟩ := h
  exact ⟨fun _ => rfl, rfl, rfl⟩

theorem State.sameMemory.trans (h : s.sameMemory t) (h' : t.sameMemory u) : s.sameMemory u :=
  ⟨fun a => (h'.1 a).trans (h.1 a), h'.2.1.trans h.2.1, h'.2.2.trans h.2.2⟩

theorem State.SameBut.sameMemory (h : s.SameBut t) : s.sameMemory t := by
  obtain ⟨_, _, rfl⟩ := h
  exact ⟨fun _ => rfl, rfl, rfl⟩

theorem State.fuseCaches_quiet (s : State) : s.Quiet s.fuseCaches := ⟨_, _, _, _, _, _, rfl⟩

theorem State.putReservation_quiet (s : State) (r : Reservation) : s.Quiet (s.putReservation r) := ⟨_, _, _, _, _, _, rfl⟩

theorem State.noteFlt_quiet (s : State) (vd : Nat) (x : Flt) : s.Quiet (s.noteFlt vd x) := by
  unfold State.noteFlt
  split
  · exact ⟨_, _, _, _, _, _, rfl⟩
  · exact .refl s

theorem State.noteR_quiet {α : Type} (s : State) (vd : Nat) (r : R α) : s.Quiet (s.noteR vd r) := by
  unfold State.noteR
  split
  · exact .refl s
  · exact s.noteFlt_quiet vd _

theorem State.noteToken_quiet (s : State) (w : Work) : s.Quiet (s.noteToken w) := by
  unfold State.noteToken
  split
  · exact .refl s
  · split
    · exact .refl s
    · exact s.noteFlt_quiet _ _

theorem State.engineReads_quiet (s : State) (p : Fill) (ns : List Nat) : s.Quiet (s.engineReads p ns) := by
  obtain ⟨_, _, _, h⟩ := State.engineReads_frame p ns s
  rw [h]
  exact ⟨_, _, _, _, _, _, rfl⟩

/-- The reads that rebuild a plane slot, and a part of the predictor. -/
def State.slotReads (vd : Nat) (u : State) (p : PlaneSlot) : State :=
  if p.valid then u.refetchReads vd p ((List.range 256).map (p.n0 + ·)) else u

def State.partReads (vd : Nat) (u : State) (p : Predictor) : State :=
  let t : TEntry := p.image
  if p.loaded then u.engineReads { vd := vd, retc := t.retc } (linesOf (t.range false ++ t.scaleRanges p.blk false)) else u

theorem State.slotReads_quiet (vd : Nat) (s : State) (p : PlaneSlot) : s.Quiet (s.slotReads vd p) := by
  unfold State.slotReads
  split
  · exact s.engineReads_quiet _ _
  · exact .refl s

theorem State.partReads_quiet (vd : Nat) (s : State) (p : Predictor) : s.Quiet (s.partReads vd p) := by
  unfold State.partReads
  dsimp only
  split
  · exact s.engineReads_quiet _ _
  · exact .refl s

theorem State.rebuild_quiet (s : State) (vd : Nat) (r : Reservation) : s.Quiet (s.rebuild vd r) := by
  have hslots : s.Quiet (r.slots.foldl (State.slotReads vd) s) := .foldl (State.slotReads_quiet vd) _ s
  have hparts := (hslots.trans (State.partReads_quiet vd _ r.part0)).trans (State.partReads_quiet vd _ r.part1)
  have hnotes := hparts.trans (.foldl (fun u x => u.noteR_quiet vd x) (r.slots.map (refetchSlot (s.readHome vd .rd))) _)
  have hall := (hnotes.trans (State.noteR_quiet _ vd (refetchPart (s.readHome vd .rd) r.part0))).trans
    (State.noteR_quiet _ vd (refetchPart (s.readHome vd .rd) r.part1))
  exact hall.trans (State.putReservation_quiet _ _)

theorem State.engage_quiet (s : State) (l : Launch) (die cluster : Nat) : s.Quiet (s.engage l die cluster) := by
  unfold State.engage
  dsimp only
  split
  · exact .refl s
  · exact ⟨_, _, _, _, _, _, rfl⟩

theorem State.reengage_quiet (s : State) (l : Launch) (old : Place) (die cluster : Nat) :
    s.Quiet (s.reengage l old die cluster) := by
  unfold State.reengage
  split
  · exact .refl s
  · dsimp only
    split
    · exact s.engage_quiet l die cluster
    · exact (s.engage_quiet l die cluster).trans (State.rebuild_quiet _ _ _)

end Quiet

/-! ### What a context gives back (R51, R377) -/

/-- The saved bits stand below what was not saved. -/
theorem aboveSaved_mod (n saved other : Nat) : aboveSaved n saved other % 2 ^ n = saved % 2 ^ n := by
  rw [aboveSaved, Nat.add_mod, shiftRight_shiftLeft_mod, Nat.zero_add, Nat.mod_mod, Nat.mod_mod]

section Restored

variable {st : Strand} {p : Place} {now k : Nat} {lag : List Lag}

/-- The strand comes back at the place with what its queue, its general registers and special registers held. -/
theorem Strand.back_form : ∃ v m t sleep stale, st.back p now k lag = { st with
    status := if st.halted then .halted else .running
    halted := false, place := p, left := none, reissued := !st.queue.isEmpty, issued := now - st.issued
    v := v, m := m, t := t, sleep := sleep, stale := stale } :=
  ⟨_, _, _, _, _, rfl⟩

theorem Strand.back_getT {n : Nat} (hn : n < 64) (hvalid : TEntry.valid (st.getT n) = true) :
    (st.back p now k lag).getT n = st.getT n := by
  have hin : st.getT n = st.t[n] := by simp [Strand.getT, hn]
  have hout : (st.back p now k lag).getT n = TEntry.restored st.t[n] (k + 40 + n) := by
    simp [Strand.getT, Strand.back, Strand.restored, Strand.renew, hn]
  rw [hin] at hvalid ⊢
  rw [hout, TEntry.restored, if_pos hvalid]

theorem Strand.back_getM {n : Nat} (hn : n < 8) :
    ((st.back p now k lag).getM n).shape = (st.getM n).shape ∧ ((st.back p now k lag).getM n).taint = (st.getM n).taint ∧
      (n ≠ 0 → ((st.back p now k lag).getM n).buf % 2 ^ count (st.getM n).shape =
        (st.getM n).buf % 2 ^ count (st.getM n).shape) := by
  have hin : st.getM n = st.m[n] := by simp [Strand.getM, hn]
  have hout : (st.back p now k lag).getM n =
      if n = 0 then st.m[n] else st.m[n].restored (growsOf p.res) (k + 32 + n) := by
    simp [Strand.getM, Strand.back, Strand.restored, Strand.renew, hn, Strand.grows]
  rw [hin, hout]
  split
  · next h0 => exact ⟨rfl, rfl, fun h => absurd h0 h⟩
  · exact ⟨rfl, rfl, fun _ => aboveSaved_mod _ _ _⟩

theorem Strand.back_getV {n : Nat} (hn : n < 32) (hmirrors : st.mirrors = []) :
    ((st.back p now k lag).getV n).shape = (st.getV n).shape ∧ ((st.back p now k lag).getV n).taint = (st.getV n).taint ∧
      ((st.back p now k lag).getV n).poison = (st.getV n).poison ∧
      ((st.back p now k lag).getV n).buf % 2 ^ (count (st.getV n).shape * (st.getV n).wsize) =
        (st.getV n).buf % 2 ^ (count (st.getV n).shape * (st.getV n).wsize) := by
  have hin : st.getV n = st.v[n] := by simp [Strand.getV, hn]
  have hout : (st.back p now k lag).getV n = st.v[n].restored (growsOf p.res) (k + n) := by
    simp [Strand.getV, Strand.back, Strand.restored, Strand.renew, hn, hmirrors, Strand.grows]
  rw [hin, hout]
  exact ⟨rfl, rfl, rfl, aboveSaved_mod _ _ _⟩

end Restored

/-! ### Resuming (R377, R378) -/

section Resume

variable {s : State} {sid : Nat} {st : Strand} {l : Launch} {p : Place}

/-- The strand in the focus comes back at a place, and its paused work goes on. -/
def State.backAt (s : State) (p : Place) (now k : Nat) (lag : List Lag) : State :=
  let u : State := { s with me := s.me.back p now k lag }
  let v := (u.me.work.filter Work.paused).foldl State.noteToken u
  { v with me := { v.me with work := v.me.work.map u.unpauseWork } }

theorem State.backAt_form (s : State) (p : Place) (now k : Nat) (lag : List Lag) : ∃ u work, s.Quiet u ∧
    s.backAt p now k lag = { u with me := { s.me.back p now k lag with work := work } } := by
  generalize hu : ({ s with me := s.me.back p now k lag } : State) = u
  have hquiet : u.Quiet ((u.me.work.filter Work.paused).foldl State.noteToken u) := .foldl State.noteToken_quiet _ u
  have hback : s.backAt p now k lag = { (u.me.work.filter Work.paused).foldl State.noteToken u with
      me := { ((u.me.work.filter Work.paused).foldl State.noteToken u).me with
        work := ((u.me.work.filter Work.paused).foldl State.noteToken u).me.work.map u.unpauseWork } } := by
    rw [← hu]
    rfl
  obtain ⟨_, _, _, _, _, _, hv⟩ := hquiet
  rw [hback, hv, ← hu]
  exact ⟨_, _, ⟨_, _, _, _, _, _, rfl⟩, rfl⟩

theorem State.backAt_through (s : State) (p : Place) (now k : Nat) (lag : List Lag) :
    s.Through Strand.SameSid (s.backAt p now k lag) := by
  obtain ⟨u, work, hquiet, h⟩ := s.backAt_form p now k lag
  rw [h]
  exact ⟨rfl, id, fun _ => rfl, by rw [List.map_id]; exact hquiet.rest⟩

theorem State.backAt_sameMemory (s : State) (p : Place) (now k : Nat) (lag : List Lag) : s.sameMemory (s.backAt p now k lag) := by
  obtain ⟨u, work, hquiet, h⟩ := s.backAt_form p now k lag
  rw [h]
  exact hquiet.sameMemory

/-- What follows the return of a strand: a barrier elsewhere goes on without it, and a launch none of whose strands is
parked any more runs (R36, R353). -/
def State.afterResume (s : State) (l : Launch) (sid : Nat) (p : Place) : State :=
  let s3 : State := { s with free := s.free + 104, barriers := s.barriers.map (Barrier.leave l.lid sid p) }
  let still := s3.strands.any fun x => x.launch.toNat == l.lid && match x.status with
    | .parked _ => true
    | _ => false
  (if still then s3 else s3.setLaunch { l with state := .running, aged := 0 }).fuseCaches

theorem State.resumeStrand_eq (s : State) (l : Launch) (st : Strand) (p : Place) : s.resumeStrand l st p =
    ((s.fuseCaches.reengage l st.place p.die (p.core / 4)).asStrand st.sid fun t =>
      t.backAt p (s.cycleOf p.die) s.free s.lag).afterResume l st.sid p := rfl

theorem State.afterResume_same (s : State) (l : Launch) (sid : Nat) (p : Place) :
    s.sameMemory (s.afterResume l sid p) ∧ (s.afterResume l sid p).strands = s.strands := by
  unfold State.afterResume
  dsimp only
  split
  · exact ⟨⟨fun _ => rfl, rfl, rfl⟩, rfl⟩
  · exact ⟨⟨fun _ => rfl, rfl, rfl⟩, rfl⟩

/-- The strand that resumes is back at its place, and memory is as it was. -/
theorem State.resumeStrand_form (hst : s.strands.find? (fun x => x.sid == sid) = some st) (l : Launch) (p : Place) :
    ∃ work now k lag, s.sameMemory (s.resumeStrand l st p) ∧
      (s.resumeStrand l st p).strands.find? (fun x => x.sid == sid) = some { st.back p now k lag with work := work } := by
  have hsid := find?_sid hst
  have hbefore := s.fuseCaches_quiet.trans (State.reengage_quiet s.fuseCaches l st.place p.die (p.core / 4))
  generalize hs1 : s.fuseCaches.reengage l st.place p.die (p.core / 4) = s1 at hbefore
  obtain ⟨u, hu, hfocus, hsame, hfind⟩ := State.asStrand_focus (hbefore.strands ▸ hst)
    (g := fun t => t.backAt p (s.cycleOf p.die) s.free s.lag) fun u _ => u.backAt_through _ _ _ _
  obtain ⟨_, work, -, hback⟩ := u.backAt_form p (s.cycleOf p.die) s.free s.lag
  have hmem := ((hbefore.sameMemory.trans hfocus.sameMemory).trans (u.backAt_sameMemory _ _ _ _)).trans hsame.sameMemory
  rw [hback, hu] at hfind
  have hend : (s1.asStrand sid fun t => t.backAt p (s.cycleOf p.die) s.free s.lag).sameMemory (s.resumeStrand l st p) ∧
      (s.resumeStrand l st p).strands = (s1.asStrand sid fun t => t.backAt p (s.cycleOf p.die) s.free s.lag).strands := by
    rw [State.resumeStrand_eq, hs1, hsid]
    exact State.afterResume_same _ l sid p
  exact ⟨work, _, _, _, hmem.trans hend.1, hend.2 ▸ hfind⟩

theorem exec_strandResume (hst : s.strands.find? (fun x => x.sid == sid) = some st) (hl : s.launch? st.launch.toNat = some l)
    (hchoice : s.choice? l.die = some (.resume sid p)) : exec (.strandResume sid) s = .next (s.resumeStrand l st p) := by
  dsimp only [exec, execStrandResume]
  simp only [hst, hl, hchoice, beq_self_eq_true, if_true]

/-- A strand that has been resumed (R377, R378). -/
theorem Strand.resumed {work : List Work} {now k : Nat} {lag : List Lag} {st' : Strand}
    (h : st' = { st.back p now k lag with work := work }) :
    st'.status = (if st.halted then .halted else .running) ∧ st'.place = p ∧ st'.left = none ∧ st'.pc = st.pc ∧
      st'.g = st.g ∧ st'.q = st.q ∧ st'.z = st.z ∧ st'.sameSpecial st ∧ st'.flags = st.flags ∧ st'.queue = st.queue ∧
      (∀ n < 64, TEntry.valid (st.getT n) = true → st'.getT n = st.getT n) ∧
      (∀ n < 8, (st'.getM n).shape = (st.getM n).shape ∧ (st'.getM n).taint = (st.getM n).taint ∧
        (n ≠ 0 → (st'.getM n).buf % 2 ^ count (st.getM n).shape = (st.getM n).buf % 2 ^ count (st.getM n).shape)) ∧
      (st.mirrors = [] → ∀ n < 32, (st'.getV n).shape = (st.getV n).shape ∧ (st'.getV n).taint = (st.getV n).taint ∧
        (st'.getV n).poison = (st.getV n).poison ∧
        (st'.getV n).buf % 2 ^ (count (st.getV n).shape * (st.getV n).wsize) =
          (st.getV n).buf % 2 ^ (count (st.getV n).shape * (st.getV n).wsize)) := by
  subst h
  refine ⟨rfl, rfl, rfl, rfl, rfl, rfl, rfl, ?_, rfl, rfl, fun n hn hvalid => ?_, fun n hn => ?_, fun hmirrors n hn => ?_⟩
  · obtain ⟨_, _, _, _, _, hform⟩ := st.back_form (p := p) (now := now) (k := k) (lag := lag)
    rw [hform]
    simp [Strand.sameSpecial]
  · exact Strand.back_getT (p := p) (now := now) (k := k) (lag := lag) hn hvalid
  · exact Strand.back_getM (p := p) (now := now) (k := k) (lag := lag) hn
  · exact Strand.back_getV (p := p) (now := now) (k := k) (lag := lag) hn hmirrors

end Resume

end Sys2Proof.Machine
end

section
/-! ## Execution rules (spec 01): strands that start, are placed and are asked to stop -/

namespace Sys2Proof.Machine

/-! ### The start of a strand (R23, R130) -/

section Begin

variable {s : State}

/-- The entries of a list of bindings, each put into its slot. -/
def bindAll (entry : Word → TEntry) (binds : List (Nat × Word)) (v : Vector (BitVec 1024) 64) : Vector (BitVec 1024) 64 :=
  binds.foldl (fun v b => v.setIfInBounds b.1 (entry b.2)) v

/-- A slot that no binding names stays as it was. -/
theorem bindAll_other {entry : Word → TEntry} {binds : List (Nat × Word)} {n : Nat} (h : ∀ b ∈ binds, b.1 ≠ n)
    (v : Vector (BitVec 1024) 64) : (bindAll entry binds v)[n]?.getD 0 = v[n]?.getD 0 := by
  induction binds generalizing v with
  | nil => rfl
  | cons b r ih =>
    have hrest := ih (fun x hx => h x (List.mem_cons_of_mem _ hx)) (v.setIfInBounds b.1 (entry b.2))
    refine hrest.trans ?_
    rw [Vector.getElem?_setIfInBounds_ne (h b List.mem_cons_self)]

/-- Of two bindings of a slot the later one stands. -/
theorem bindAll_last {entry : Word → TEntry} {pre post : List (Nat × Word)} {n : Nat} {a : Word} (hn : n < 64)
    (h : ∀ b ∈ post, b.1 ≠ n) (v : Vector (BitVec 1024) 64) :
    (bindAll entry (pre ++ (n, a) :: post) v)[n]?.getD 0 = entry a := by
  have hsplit : bindAll entry (pre ++ (n, a) :: post) v = bindAll entry post ((bindAll entry pre v).setIfInBounds n (entry a)) := by
    simp only [bindAll, List.foldl_append, List.foldl_cons]
  rw [hsplit, bindAll_other h, getD_setIfInBounds _ _ _ _ _ hn, if_pos rfl]

theorem State.beginStrand_of_begun (h : s.me.begun = true) : s.beginStrand = s := by
  unfold State.beginStrand
  rw [if_pos h]

/-- What a strand that starts takes. -/
theorem State.beginStrand_form (h : s.me.begun = false) : ∃ notes t,
    s.beginStrand = { s with poisonedWalks := notes, me := { s.me with begun := true, t := t }.renew s.lag } ∧
      (s.myLaunch.spliceKernel = none → t = bindAll (s.boundEntry s.myLaunch.vd) (s.bindings s.myLaunch.vd s.myLaunch.kdsc)
        (Vector.replicate 64 0)) := by
  generalize hbinds : s.bindings s.myLaunch.vd s.myLaunch.kdsc ++ ((s.spliceOf? s.myLaunch).map SpliceKernel.binds).getD [] = binds
  obtain ⟨notes, hnotes⟩ := s.noteReads_eq s.myLaunch.vd
    (s.bindingReads s.myLaunch.vd s.myLaunch.kdsc ++ binds.map fun b => (b.2.toNat, 128))
  refine ⟨notes, bindAll (s.boundEntry s.myLaunch.vd) binds (Vector.replicate 64 0), ?_, fun hsplice => ?_⟩
  · unfold State.beginStrand
    simp only [h, Bool.false_eq_true, if_false, hbinds, hnotes]
    rfl
  · rw [← hbinds, State.spliceOf?, hsplice]
    simp only [Option.bind_none, Option.map_none, Option.getD_none, List.append_nil]

/-- What a start leaves alone. -/
theorem State.beginStrand_keeps (h : s.me.begun = false) :
    s.beginStrand.me.begun = true ∧ s.sameMemory s.beginStrand ∧ s.beginStrand.rest = s.rest ∧ s.beginStrand.me.pc = s.me.pc ∧
      s.beginStrand.me.g = s.me.g ∧ s.beginStrand.me.q = s.me.q ∧ s.beginStrand.me.v = s.me.v ∧ s.beginStrand.me.m = s.me.m ∧
      s.beginStrand.me.z = s.me.z ∧ s.beginStrand.me.sameSpecial s.me ∧ s.beginStrand.me.flags = s.me.flags := by
  obtain ⟨_, _, hform, -⟩ := State.beginStrand_form h
  rw [hform]
  exact ⟨rfl, ⟨fun _ => rfl, rfl, rfl⟩, rfl, rfl, rfl, rfl, rfl, rfl, rfl, by simp [Strand.sameSpecial, Strand.renew], rfl⟩

theorem TEntry.valid_zero : TEntry.valid 0 = false := by
  rw [TEntry.valid, bit, show (0 : TEntry).toNat = 0 from BitVec.toNat_zero, Nat.zero_testBit]

theorem State.boundEntry_of_error {vd : Nat} {a : Word} {x : Flt} (h : s.readHome vd .rd (8 * (a.toNat : Int)) 1024 = .error x) :
    s.boundEntry vd a = 0 := by
  unfold State.boundEntry
  rw [h]

theorem State.boundEntry_of_read {vd : Nat} {a : Word} {x : Nat × Bool × Bool}
    (h : s.readHome vd .rd (8 * (a.toNat : Int)) 1024 = .ok x) :
    s.boundEntry vd a = if TEntry.ok (BitVec.ofNat 1024 x.1) then BitVec.ofNat 1024 x.1 else 0 := by
  unfold State.boundEntry
  rw [h]

/-- What a slot holds once its strand has started (R130). -/
theorem State.beginStrand_slots (h : s.me.begun = false) (hsplice : s.myLaunch.spliceKernel = none) {n : Nat} (hn : n < 64) :
    ((∀ b ∈ s.bindings s.myLaunch.vd s.myLaunch.kdsc, b.1 ≠ n) → s.beginStrand.me.getT n = 0) ∧
      ∀ (pre post : List (Nat × Word)) (a : Word), s.bindings s.myLaunch.vd s.myLaunch.kdsc = pre ++ (n, a) :: post →
        (∀ b ∈ post, b.1 ≠ n) → s.beginStrand.me.getT n = s.boundEntry s.myLaunch.vd a := by
  obtain ⟨_, t, hform, ht⟩ := State.beginStrand_form h
  have hslot : s.beginStrand.me.getT n = t[n]?.getD 0 := by rw [hform]; rfl
  rw [hslot, ht hsplice]
  refine ⟨fun hnone => ?_, fun pre post a hlist hpost => ?_⟩
  · rw [bindAll_other hnone]
    simp [hn]
  · rw [hlist]
    exact bindAll_last hn hpost _

end Begin

/-! ### Placement (R24, R357) -/

section Place

variable {s : State}

/-- What the strand that starts as number `index` holds (R24). -/
theorem State.freshStrand_fields (s : State) (l : Launch) (index : Nat) (p : Place) (sid : Nat) (clock : Clock) :
    let st := s.freshStrand l index p sid clock
    st.sid = sid ∧ st.status = .running ∧ st.place = p ∧ st.strand = BitVec.ofNat 10 index ∧ st.launch = BitVec.ofNat 32 l.lid ∧
      st.nstrand = BitVec.ofNat 11 l.nstr ∧ st.vdid = BitVec.ofNat 4 l.vd ∧ st.seed = BitVec.ofNat 64 (fld l.record 255 192) ∧
      st.queue = [] ∧ st.hnd = false ∧ st.begun = false :=
  ⟨rfl, rfl, rfl, rfl, rfl, rfl, rfl, rfl, rfl, rfl, rfl⟩

/-- The PC and the arguments of a strand of a launch that is not spliced (R24). -/
theorem State.freshStrand_arguments (s : State) {l : Launch} (hsplice : l.spliceKernel = none) (index : Nat) (p : Place) (sid : Nat)
    (clock : Clock) :
    let st := s.freshStrand l index p sid clock
    st.pc = BitVec.ofNat 64 (fld l.record 63 0) ∧ (st.getG 1).val = BitVec.ofNat 64 (fld l.record 191 128) ∧
      (st.getG 2).val = BitVec.ofNat 64 index ∧ (st.getG 3).val = BitVec.ofNat 64 l.nstr ∧ ∀ n, 4 ≤ n → st.getG n = {} := by
  have hnone : s.spliceOf? l = none := by rw [State.spliceOf?, hsplice]; rfl
  intro st
  have hpc : st.pc = BitVec.ofNat 64 (fld l.record 63 0) := by
    simp only [st, State.freshStrand, Strand.renew, hsplice]
  have hg : st.g = (((Vector.replicate 32 {}).setIfInBounds 1 { val := BitVec.ofNat 64 (fld l.record 191 128) }).setIfInBounds 2
      { val := BitVec.ofNat 64 index }).setIfInBounds 3 { val := BitVec.ofNat 64 l.nstr } := by
    simp only [st, State.freshStrand, Strand.renew, hnone]
    rfl
  refine ⟨hpc, ?_, ?_, ?_, fun n hn => ?_⟩
  · simp [Strand.getG, hg]
  · simp [Strand.getG, hg]
  · simp [Strand.getG, hg]
  · have h0 : n ≠ 0 := by omega
    have h3 : 3 ≠ n ∧ 2 ≠ n ∧ 1 ≠ n := by omega
    rw [Strand.getG, if_neg h0, hg, Vector.getElem?_setIfInBounds_ne h3.1, Vector.getElem?_setIfInBounds_ne h3.2.1,
      Vector.getElem?_setIfInBounds_ne h3.2.2]
    cases hn : (Vector.replicate 32 ({} : GReg))[n]? with
    | none => rfl
    | some x =>
      obtain ⟨_, hx⟩ := Vector.getElem?_eq_some_iff.mp hn
      rw [← hx, Vector.getElem_replicate]
      rfl

/-- New strands stand in the state: the first takes the focus where nobody has it. -/
def State.addStrands (s : State) (new : List Strand) : State :=
  match s.me.status, new with
  | .idle, st :: r => { s with me := st, rest := s.rest ++ r }
  | _, _ => { s with rest := s.rest ++ new }

theorem State.mem_addStrands {s : State} {new : List Strand} {st : Strand} (h : st ∈ new) : st ∈ (s.addStrands new).strands := by
  unfold State.addStrands
  split
  · rcases List.mem_cons.mp h with h | h
    · exact List.mem_cons.mpr (.inl h)
    · exact List.mem_cons_of_mem _ (List.mem_append_right _ h)
  · exact List.mem_cons_of_mem _ (List.mem_append_right _ h)

theorem State.addStrands_same (s : State) (new : List Strand) : s.SameBut (s.addStrands new) := by
  unfold State.addStrands
  split
  · exact ⟨_, _, rfl⟩
  · exact ⟨_, _, rfl⟩

variable {l : Launch} {ps : List Place}

/-- The launch as it runs from its placement on (R357). -/
def Launch.place (l : Launch) (s : State) (ps : List Place) : Launch :=
  { l with state := .running, placed := s.nextId, aged := 0, held := [], oldText := []
           strands := (List.range ps.length).map fun i => s.nextId + 1 + i
           leftCount := ps.length }

/-- The state once the launch has its reservations, and no pre-emption is asked for it any more (R332, R380). -/
def State.engaged (s : State) (l : Launch) (ps : List Place) : State :=
  ps.foldl (fun t p => t.engage l p.die (p.core / 4)) (s.fuseCaches.dropRequests l.lid)

/-- The clock with which the strands of a launch start (R291). -/
def State.startClock (s : State) (l : Launch) : Clock :=
  clockJoin l.clock (if l.phase == 0 then [] else ((s.counter? .phase l.vd (l.phase - 1) l.job).map Counter.clock).getD [])

/-- The strands of a placed launch (R24). -/
def State.newStrands (s : State) (l : Launch) (ps : List Place) : List Strand :=
  ps.zipIdx.map fun p => (s.engaged l ps).freshStrand (l.place s ps) p.2 p.1 (s.nextId + 1 + p.2) (s.startClock l)

theorem State.placeLaunch_eq (s : State) (l : Launch) (ps : List Place) : s.placeLaunch l ps =
    ((({ s.engaged l ps with
        nextId := s.nextId + 1 + ps.length
        lastPlaced := (s.engaged l ps).lastPlaced.setIfInBounds l.die l.vd }).setLaunch (l.place s ps)).addStrands
      (s.newStrands l ps)).fuseCaches := rfl

theorem State.dropRequests_same (s : State) (lid : Nat) : s.SameBut (s.dropRequests lid) := ⟨_, _, rfl⟩

/-- Reservations and requests are all that has changed as a launch takes its places. -/
theorem State.engaged_form (s : State) (l : Launch) (ps : List Place) :
    ∃ u, s.SameBut u ∧ u.Quiet (s.engaged l ps) := by
  have hengage : (s.fuseCaches.dropRequests l.lid).Quiet (s.engaged l ps) := .foldl (fun t p => t.engage_quiet l _ _) _ _
  exact ⟨s.dropRequests l.lid, s.dropRequests_same l.lid, (State.Quiet.trans ⟨_, _, _, _, _, _, rfl⟩ hengage)⟩

/-- A placed launch runs, and its strands stand in the state (R357). -/
theorem State.placeLaunch_form (hl : s.launch? l.lid = some l) :
    s.sameMemory (s.placeLaunch l ps) ∧ (s.placeLaunch l ps).launch? l.lid = some (l.place s ps) ∧
      ∀ st ∈ s.newStrands l ps, st ∈ (s.placeLaunch l ps).strands := by
  obtain ⟨u, hsame, hquiet⟩ := s.engaged_form l ps
  have hlaunches : (s.engaged l ps).launches = s.launches := by
    obtain ⟨_, _, rfl⟩ := hsame
    obtain ⟨_, _, _, _, _, _, h⟩ := hquiet
    rw [h]
  generalize hw : ({ s.engaged l ps with
      nextId := s.nextId + 1 + ps.length
      lastPlaced := (s.engaged l ps).lastPlaced.setIfInBounds l.die l.vd } : State).setLaunch (l.place s ps) = w
  have hmem : (s.engaged l ps).sameMemory w := by rw [← hw]; exact ⟨fun _ => rfl, rfl, rfl⟩
  have hplaced : w.launch? l.lid = some (l.place s ps) := by
    have hfound := State.launch?_map (g := fun x => if x.lid == l.lid then l.place s ps else x) (fun x => ?_) hl
    · rw [beq_self_eq_true, if_pos rfl] at hfound
      rw [← hw, State.launch?, State.setLaunch]
      rw [← hfound, State.launch?, ← hlaunches]
      rfl
    · split
      · next h => exact (beq_iff_eq.mp h).symm
      · rfl
  obtain ⟨_, _, hadd⟩ := w.addStrands_same (s.newStrands l ps)
  rw [State.placeLaunch_eq, hw]
  refine ⟨?_, ?_, fun st hst => State.mem_addStrands hst⟩
  · have hadded := (w.addStrands_same (s.newStrands l ps)).sameMemory
    exact (((hsame.sameMemory.trans hquiet.sameMemory).trans hmem).trans hadded).trans (State.fuseCaches_quiet _).sameMemory
  · rw [hadd]
    exact hplaced

/-- Strand number `i` of a placed launch. -/
theorem State.mem_newStrands (s : State) (l : Launch) {i : Nat} (h : i < ps.length) :
    (s.engaged l ps).freshStrand (l.place s ps) i ps[i] (s.nextId + 1 + i) (s.startClock l) ∈ s.newStrands l ps :=
  List.mem_map.mpr ⟨(ps[i], i), List.mem_zipIdx_iff_getElem?.mpr (by simp), rfl⟩

theorem exec_launchPlacement_place {die : BitVec 2} {lid : Nat} (hchoice : s.choice? die.toNat = some (.place lid ps))
    (hl : s.launch? lid = some l) : exec (.launchPlacement die) s = .next (s.placeLaunch l ps) := by
  dsimp only [exec, execLaunchPlacement]
  rw [hchoice]
  dsimp only
  rw [hl]

/-! ### Victims (R374, R380) -/

theorem exec_launchPlacement_preempt {die : BitVec 2} {lid : Nat} {vs : List Nat}
    (hchoice : s.choice? die.toNat = some (.preempt lid vs)) : exec (.launchPlacement die) s = .next (s.askVictims lid vs) := by
  dsimp only [exec, execLaunchPlacement]
  rw [hchoice]

theorem foldl_dropRequests_same (lids : List Nat) (s : State) : s.SameBut (lids.foldl State.dropRequests s) := by
  induction lids generalizing s with
  | nil => exact .refl s
  | cons x r ih => exact (s.dropRequests_same x).trans (ih _)

theorem State.mapStrands_strands (s : State) (p : Strand → Bool) (g : Strand → Strand) :
    (s.mapStrands p g).strands = s.strands.map fun x => if p x then g x else x := rfl

/-- Victims are asked to stop, and memory is as it was (R380). -/
theorem State.askVictims_asks (s : State) (lid : Nat) (vs : List Nat) :
    s.sameMemory (s.askVictims lid vs) ∧
      ∀ st ∈ (s.askVictims lid vs).strands, vs.contains st.sid = true → st.preempt = some lid := by
  refine ⟨?_, fun st hst hvictim => ?_⟩
  · exact State.SameBut.sameMemory ((foldl_dropRequests_same _ s).trans ⟨_, _, rfl⟩)
  · rw [State.askVictims, State.mapStrands_strands] at hst
    obtain ⟨x, -, rfl⟩ := List.mem_map.mp hst
    split at hvictim
    · next hx => rw [if_pos hx]
    · next hx => exact absurd hvictim hx

/-- Where no launch has asked a victim, none loses its request (R380). -/
theorem State.askVictims_of_unasked {lid : Nat} {vs : List Nat}
    (h : ∀ st ∈ s.strands, vs.contains st.sid = true → st.preempt = none) :
    s.askVictims lid vs = s.mapStrands (fun st => vs.contains st.sid) fun st => { st with preempt := some lid } := by
  have hlosers : (s.strands.filter fun st => vs.contains st.sid).filterMap Strand.preempt = [] := by
    rw [List.filterMap_eq_nil_iff]
    intro st hst
    obtain ⟨hin, hvictim⟩ := List.mem_filter.mp hst
    exact h st hin hvictim
  unfold State.askVictims
  rw [hlosers]
  rfl

end Place

/-- Settles O54: strands are placed with their arguments or asked to stop, start with the entries that their kernel binds, are
parked and resumed with their registers, and finish. -/
theorem strandLife : Obligations.StrandLife := by
  unfold Obligations.StrandLife
  refine ⟨?_, ?_, ?_, ?_, ?_, ?_⟩
  · intro s die lid ps l hchoice hl
    have hlid := State.launch?_lid hl
    obtain ⟨hmem, hplaced, hstrands⟩ := State.placeLaunch_form (ps := ps) (hlid.symm ▸ hl)
    refine ⟨_, exec_launchPlacement_place hchoice hl, hmem, ⟨_, hlid ▸ hplaced, rfl, ?_⟩, fun i hi => ?_⟩
    · rw [Launch.place, List.length_map, List.length_range]
    · obtain ⟨hsid, hstatus, hplace, hstrand, hlaunch, hnstrand, hvdid, hseed, hqueue, hhnd, hbegun⟩ :=
        (s.engaged l ps).freshStrand_fields (l.place s ps) i ps[i] (s.nextId + 1 + i) (s.startClock l)
      exact ⟨_, hstrands _ (s.mem_newStrands l hi), hsid, hstatus, hplace, hstrand, hlid ▸ hlaunch, hnstrand, hvdid, hseed, hqueue,
        hhnd, hbegun, fun hsplice => (s.engaged l ps).freshStrand_arguments (l := l.place s ps) hsplice _ _ _ _⟩
  · intro s l u
    refine ⟨State.beginStrand_of_begun, fun h => ?_⟩
    obtain ⟨hbegun, hmem, hrest, hpc, hg, hq, hv, hm, hz, hspecial, hflags⟩ := State.beginStrand_keeps h
    refine ⟨hbegun, hmem, hrest, hpc, hg, hq, hv, hm, hz, hspecial, hflags, fun hsplice n hn => ?_⟩
    obtain ⟨hnone, hlast⟩ := State.beginStrand_slots h hsplice hn
    refine ⟨hnone, fun pre post a hlist hpost => ?_⟩
    have hslot : u.me.getT n = s.boundEntry l.vd a := hlast pre post a hlist hpost
    refine ⟨fun x hx => hslot.trans (State.boundEntry_of_error hx), fun x hx => ?_⟩
    rw [hslot, State.boundEntry_of_read hx]
    refine ⟨fun hok => if_pos hok, fun hbad => ?_⟩
    rw [if_neg (by simpa using hbad)]
    exact TEntry.valid_zero
  · intro s die lid vs hchoice
    obtain ⟨hmem, hasked⟩ := s.askVictims_asks lid vs
    exact ⟨_, exec_launchPlacement_preempt hchoice, hmem, hasked, State.askVictims_of_unasked⟩
  · intro s sid by_ st hst hpre hres hcancel hmay hdrained
    exact exec_preemptSave hst hpre hres hcancel hmay hdrained
  · intro s sid st l p hst hl hchoice
    obtain ⟨work, now, k, lag, hmem, hfind⟩ := State.resumeStrand_form hst l p
    exact ⟨_, _, exec_strandResume hst hl hchoice, hmem, hfind, Strand.resumed rfl⟩
  · intro s sid st l hst hmay hcancel hl _
    exact exec_strandFinish hst hmay hcancel hl

end Sys2Proof.Machine
end

section
/-! ## State rules (spec 03): GETS, SETS and the queue-ordered registers (R43 to R46) -/

namespace Sys2Proof.Machine

/-! ### Reading and writing a special register -/

/-- The time of issue and the PC show in no special register. -/
theorem State.readSpecial_advance (s : State) (n : Nat) : s.advance.readSpecial n = s.readSpecial n := rfl

/-- Raised flags show in FLAGS alone. -/
theorem State.readSpecial_raise (s : State) (fl : Flags) {n : Nat} (hn : n ≠ 0x07) :
    (s.raise fl).readSpecial n = s.readSpecial n := by
  unfold State.readSpecial
  split
  case h_8 => exact absurd rfl hn
  all_goals rfl

/-- SETS writes special registers alone. -/
theorem Strand.writeSpecial_frame (m : Strand) (n : Nat) (v : Word) :
    (m.writeSpecial n v).pc = m.pc ∧ (m.writeSpecial n v).g = m.g ∧ (m.writeSpecial n v).q = m.q := by
  unfold Strand.writeSpecial
  split <;> exact ⟨rfl, rfl, rfl⟩

/-- The low bits that SETS keeps of its value, but for ROWS and FLAGS (R43). -/
def specialWidth (n : Nat) : Nat :=
  match n with
  | 0x01 => 16
  | 0x05 => 9
  | 0x06 => 3
  | 0x0B | 0x0C | 0x0D | 0x1B | 0x1E => 32
  | 0x0E => 48
  | _ => 64

theorem setWidth_setWidth_eq_mod (v : Word) (w : Nat) : (v.setWidth w).setWidth 64 = BitVec.ofNat 64 (v.toNat % 2 ^ w) := by
  rw [← BitVec.ofNat_toNat, BitVec.toNat_setWidth]

theorem setWidth_ofNat_of_lt {w x : Nat} (hx : x < 2 ^ w) : (BitVec.ofNat w x).setWidth 64 = BitVec.ofNat 64 x := by
  rw [← BitVec.ofNat_toNat, BitVec.toNat_ofNat, Nat.mod_eq_of_lt hx]

theorem eq_ofNat_mod_word (v : Word) : v = BitVec.ofNat 64 (v.toNat % 2 ^ 64) := by
  rw [Nat.mod_eq_of_lt v.isLt, BitVec.ofNat_toNat, BitVec.setWidth_eq]

/-- A special register other than ROWS and FLAGS holds the low bits of what was written to it. -/
theorem State.readSpecial_writeSpecial (s : State) (m : Strand) (v : Word) {n : Nat} (hw : writableSpecial n = true)
    (h0 : n ≠ 0x00) (h7 : n ≠ 0x07) :
    ({ s with me := m.writeSpecial n v } : State).readSpecial n = BitVec.ofNat 64 (v.toNat % 2 ^ specialWidth n) := by
  simp only [writableSpecial, List.contains_iff_mem, List.mem_cons, List.not_mem_nil, or_false, h0, h7, false_or] at hw
  -- One goal for each register, in the order in which `writableSpecial` lists them.
  rcases hw with rfl | rfl | rfl | rfl | rfl | rfl | rfl | rfl | rfl | rfl | rfl | rfl | rfl | rfl | rfl | rfl
  · exact setWidth_setWidth_eq_mod v 16
  · exact eq_ofNat_mod_word v
  · exact eq_ofNat_mod_word v
  · exact setWidth_ofNat_of_lt (by omega)
  · exact setWidth_setWidth_eq_mod v 3
  · exact eq_ofNat_mod_word v
  · exact setWidth_setWidth_eq_mod v 32
  · exact setWidth_setWidth_eq_mod v 32
  · exact setWidth_setWidth_eq_mod v 32
  · exact setWidth_setWidth_eq_mod v 48
  · exact eq_ofNat_mod_word v
  · exact eq_ofNat_mod_word v
  · exact setWidth_setWidth_eq_mod v 32
  · exact eq_ofNat_mod_word v
  · exact eq_ofNat_mod_word v
  · exact setWidth_setWidth_eq_mod v 32

/-- ROWS takes no more than GROWS (R43). -/
theorem State.readSpecial_writeSpecial_rows (s : State) (m : Strand) (v : Word) :
    ({ s with me := m.writeSpecial 0x00 v } : State).readSpecial 0x00 = BitVec.ofNat 64 (min v.toNat m.grows) :=
  setWidth_ofNat_of_lt (Nat.lt_of_le_of_lt (Nat.min_le_right _ _) (growsOf_lt _))

/-- A write leaves every other special register as it was. -/
theorem State.readSpecial_writeSpecial_ne (s : State) (m : Strand) (v : Word) {n k : Nat} (hk : k ≠ n) :
    ({ s with me := m.writeSpecial n v } : State).readSpecial k = ({ s with me := m } : State).readSpecial k := by
  unfold Strand.writeSpecial
  split
  case h_19 => rfl
  all_goals
    unfold State.readSpecial
    split
  any_goals contradiction
  all_goals rfl

/-! ### What SETS leaves -/

/-- The state after a SETS of register `n` from `g` that acts: poison shows in FLAGS before and, like taint, after the write
(R43, R46, R155, R156). -/
def State.endsSets (s : State) (n : Nat) (g : GReg) : State :=
  (State.raise { s with me := (s.me.raise (flagIf g.poison flPSN)).writeSpecial n g.val }
    (flagIf g.taint flTNT ||| flagIf g.poison flPSN)).advance

section Sets

variable {s : State} {f : Fields} {n k : Nat} {g : GReg}

/-- SETS moves the PC on, and leaves registers and memory as they were. -/
theorem State.endsSets_frame (s : State) (n : Nat) (g : GReg) :
    (s.endsSets n g).me.pc = s.me.pc + 16 ∧ (s.endsSets n g).me.g = s.me.g ∧ (s.endsSets n g).me.q = s.me.q ∧
      s.sameMemory (s.endsSets n g) := by
  obtain ⟨hpc, hg, hq⟩ := (s.me.raise (flagIf g.poison flPSN)).writeSpecial_frame n g.val
  exact ⟨congrArg (· + 16) hpc, hg, hq, fun _ => rfl, rfl, rfl⟩

/-- What is read after SETS is what the write of the register left, but for FLAGS. -/
theorem State.endsSets_read (hk : k ≠ 0x07) : (s.endsSets n g).readSpecial k =
    ({ s with me := (s.me.raise (flagIf g.poison flPSN)).writeSpecial n g.val } : State).readSpecial k :=
  (State.readSpecial_advance _ _).trans (State.readSpecial_raise _ _ hk)

/-- SETS leaves every special register but its own and FLAGS. -/
theorem State.endsSets_read_ne (hn : k ≠ n) (hk : k ≠ 0x07) : (s.endsSets n g).readSpecial k = s.readSpecial k := by
  rw [State.endsSets_read hk, State.readSpecial_writeSpecial_ne _ _ _ hn]
  exact s.readSpecial_raise _ hk

/-- SETS of FLAGS takes nine bits of its value, and the flags of its source are raised after (R46). -/
theorem State.endsSets_read_flags (s : State) (g : GReg) : (s.endsSets 0x07 g).readSpecial 0x07 =
    BitVec.ofNat 64 (g.val.toNat % 512 ||| (flagIf g.taint flTNT ||| flagIf g.poison flPSN)) := by
  have hraised : flagIf g.taint flTNT ||| flagIf g.poison flPSN < 2 ^ 9 := by
    cases g.taint <;> cases g.poison <;> decide
  have hlow : g.val.toNat % 512 < 2 ^ 9 := Nat.mod_lt _ (by decide)
  have hflags : (s.endsSets 0x07 g).me.flags =
      BitVec.ofNat 16 (g.val.toNat % 512 ||| (flagIf g.taint flTNT ||| flagIf g.poison flPSN)) := by
    rw [BitVec.ofNat_or, ← Nat.mod_eq_of_lt hraised]
    rfl
  have hread : (s.endsSets 0x07 g).readSpecial 0x07 = (s.endsSets 0x07 g).me.flags.setWidth 64 := rfl
  rw [hread, hflags]
  exact setWidth_ofNat_of_lt (Nat.lt_trans (Nat.or_lt_two_pow hlow hraised) (by decide))

/-! ### The run of SETS -/

/-- An access that need not wait for the queue goes on (R44). -/
theorem blockFor_of_open {op : BitVec 8} {go : Result} (h : queueOrdered f.fn.toNat = true → s.me.queue = []) :
    blockFor op f s go = go := by
  unfold blockFor
  cases hq : queueOrdered f.fn.toNat with
  | false => rfl
  | true => rw [h hq]; rfl

/-- An access to a queue-ordered register waits behind older entries (R44). -/
theorem blockFor_of_queued {op : BitVec 8} {go : Result} (hq : queueOrdered f.fn.toNat = true) (hne : s.me.queue ≠ [])
    (hg : s.me.guard f.gs = true) :
    blockFor op f s go = .next { s with me := { s.me with blocked := some (packWord op f) } } := by
  have hempty : s.me.queue.isEmpty = false := List.isEmpty_eq_false_iff.mpr hne
  unfold blockFor
  rw [hq, hempty, hg]
  rfl

theorem exec_sets_of_open (h : queueOrdered f.fn.toNat = true → s.me.queue = []) : exec (.sets f) s = setsNow f s := by
  dsimp only [exec, execSets]
  rw [blockFor_of_open h, ite_self]

theorem exec_gets_of_open (h : queueOrdered f.fn.toNat = true → s.me.queue = []) : exec (.gets f) s = getsNow f s :=
  blockFor_of_open h

/-- What SETS judges before it writes (R43, R45): the register may be written, a VCFG is one that is allowed, and an address is
aligned. -/
def setsCheck (n : Nat) (v : Word) : R Unit := do
  require (writableSpecial n) cILLEGAL
  require (n != 0x05 || vcfgOk (v.toNat % 2 ^ 16)) cILLEGAL
  require (!(n == 0x19 || n == 0x1A) || v.toNat % 16 == 0) cALIGN

theorem setsCheck_readOnly {v : Word} (h : writableSpecial n = false) : setsCheck n v = .error { cause := cILLEGAL } := by
  unfold setsCheck
  rw [h]
  rfl

theorem setsCheck_vcfg {v : Word} (h : vcfgOk (v.toNat % 2 ^ 16) = false) :
    setsCheck 0x05 v = .error { cause := cILLEGAL } := by
  unfold setsCheck
  rw [h]
  rfl

theorem setsCheck_misaligned {v : Word} (hn : n = 0x19 ∨ n = 0x1A) (h : v.toNat % 16 ≠ 0) :
    setsCheck n v = .error { cause := cALIGN } := by
  have hv : (v.toNat % 16 == 0) = false := beq_eq_false_iff_ne.mpr h
  unfold setsCheck
  rw [hv]
  rcases hn with rfl | rfl <;> rfl

theorem setsCheck_ok {v : Word} (hw : writableSpecial n = true) (hvcfg : n = 0x05 → vcfgOk (v.toNat % 2 ^ 16) = true)
    (halign : n = 0x19 ∨ n = 0x1A → v.toNat % 16 = 0) : setsCheck n v = .ok () := by
  have hvcfg' : (n != 0x05 || vcfgOk (v.toNat % 2 ^ 16)) = true := by simpa [← imp_iff_not_or] using hvcfg
  have halign' : (!(n == 0x19 || n == 0x1A) || v.toNat % 16 == 0) = true := by
    by_cases hn : n = 0x19 ∨ n = 0x1A
    · rw [halign hn]
      exact Bool.or_true _
    · simp [not_or.mp hn]
  unfold setsCheck
  rw [hw, hvcfg', halign']
  rfl

/-- SETS writes once all that it judges is in order. -/
theorem setsNow_eq (f : Fields) (s : State) : setsNow f s = runScalar f s [f.a.toNat] [] fun t =>
    setsCheck f.fn.toNat (t.me.getG f.a.toNat).val >>= fun _ =>
      let g := t.me.getG f.a.toNat
      .ok (State.raise { t with me := t.me.writeSpecial f.fn.toNat g.val }
        (flagIf g.taint flTNT ||| flagIf g.poison flPSN)).advance := by
  unfold setsNow setsCheck
  simp only [bind_assoc]
  rfl

theorem Strand.poisonOf_singleton (m : Strand) (a : Nat) : m.poisonOf [a] = (m.getG a).poison := Bool.or_false _

theorem setsNow_of_check_error {e : Flt} (h : s.acts f [f.a.toNat] [])
    (he : setsCheck f.fn.toNat (s.me.getG f.a.toNat).val = .error e) : setsNow f s = s.scalarFault e := by
  rw [setsNow_eq]
  exact runScalar_of_acts_error h (congrArg (· >>= _) he)

theorem setsNow_of_check_ok (h : s.acts f [f.a.toNat] []) (hc : setsCheck f.fn.toNat (s.me.getG f.a.toNat).val = .ok ()) :
    setsNow f s = .next (s.endsSets f.fn.toNat (s.me.getG f.a.toNat)) := by
  rw [setsNow_eq]
  refine runScalar_of_acts_ok h ?_
  rw [Strand.poisonOf_singleton]
  exact congrArg (· >>= _) hc

end Sets

/-- Settles O19: SETS judges its register and value, then writes the one special register, and reading a special register after
it finds the low bits of the value there and what stood before in every other. -/
theorem setsResult : Obligations.SetsResult := by
  unfold Obligations.SetsResult
  intro f s h n g
  refine ⟨fun hro => ?_, fun hn hvcfg => ?_, fun hn halign => ?_, fun hw hopen hvcfg halign => ?_⟩
  · have hexec : exec (.sets f) s = setsNow f s := by
      dsimp only [exec, execSets]
      rw [if_neg (Bool.eq_false_iff.mp hro)]
    exact hexec.trans (setsNow_of_check_error h (setsCheck_readOnly hro))
  · have hopen : queueOrdered f.fn.toNat = true → s.me.queue = [] := by rw [show f.fn.toNat = 0x05 from hn]; exact nofun
    have hcheck : setsCheck n g.val = .error { cause := cILLEGAL } := hn ▸ setsCheck_vcfg hvcfg
    exact (exec_sets_of_open hopen).trans (setsNow_of_check_error h hcheck)
  · have hopen : queueOrdered f.fn.toNat = true → s.me.queue = [] := by
      rcases hn with hn | hn <;> rw [show f.fn.toNat = _ from hn] <;> exact nofun
    exact (exec_sets_of_open hopen).trans (setsNow_of_check_error h (setsCheck_misaligned hn halign))
  · obtain ⟨hpc, hg, hq, hmem⟩ := s.endsSets_frame n g
    have hexec : exec (.sets f) s = .next (s.endsSets n g) :=
      (exec_sets_of_open hopen).trans (setsNow_of_check_ok h (setsCheck_ok hw hvcfg halign))
    refine ⟨_, hexec, hpc, hg, hq, hmem, fun h0 h7 => ?_, fun h0 => ?_, fun h7 => ?_, fun k _ hk h7 => ?_⟩
    · exact (State.endsSets_read h7).trans (State.readSpecial_writeSpecial _ _ _ hw h0 h7)
    · rw [h0, State.endsSets_read (by decide)]
      exact State.readSpecial_writeSpecial_rows _ _ _
    · rw [h7]
      exact s.endsSets_read_flags g
    · exact State.endsSets_read_ne hk h7

/-! ### GETS and the accesses that wait -/

section Gets

variable {s : State} {f : Fields}

/-- A scalar word that writes a general register ends so (R41, R155). -/
theorem State.setG_advance (s : State) (d : Nat) (r : GReg) : (s.setG d r).advance = s.endsG d r 0 := by
  unfold State.endsG
  by_cases hd : d = 0
  · simp [Strand.setG, hd, Strand.flagged, flagIf]
  · simp only [State.setG, Strand.setG, hd, if_false, bne_iff_ne.mpr hd, Bool.true_and, Nat.zero_or]
    rfl

theorem State.raise_zero (s : State) : s.raise 0 = s := by
  simp [Strand.raise]

theorem getsNow_of_acts (h : s.acts f [] []) :
    getsNow f s = .next (s.endsG f.d.toNat { val := s.readSpecial f.fn.toNat } 0) := by
  refine runScalar_of_acts_ok h (congrArg Except.ok ?_)
  rw [show s.raise (flagIf (s.me.poisonOf []) flPSN) = s from s.raise_zero]
  exact s.setG_advance _ _

/-- The access no longer waits. -/
def State.unblocked (s : State) : State := { s with me := { s.me with blocked := none } }

/-- A waiting access acts once the queue is empty, where the strand may go on (R44). -/
theorem exec_queueOrderedAccess_of_blocked {w : BitVec 128} (hq : s.me.queue = []) (hmay : s.mayWake = true)
    (hb : s.me.blocked = some w) : exec .queueOrderedAccess s =
      if opOf w == 0x38 then getsNow (fieldsOf w) s.unblocked else setsNow (fieldsOf w) s.unblocked := by
  have hgo : (s.me.queue.isEmpty && s.mayWake) = true := by rw [hq, hmay]; rfl
  dsimp only [exec, execQueueOrderedAccess]
  rw [hb]
  exact if_pos hgo

end Gets

/-- Settles O21: GETS is a scalar word whose body writes g[D]; a queue-ordered access is put aside as a word, and the word runs
once the queue is empty. -/
theorem getsAndQueueOrder : Obligations.GetsAndQueueOrder := by
  unfold Obligations.GetsAndQueueOrder
  refine ⟨fun f s h hopen => (exec_gets_of_open hopen).trans (getsNow_of_acts h), fun f s => ⟨fun hord hne hg => ⟨?_, fun hw => ?_⟩,
    fun hq hmay => ⟨fun hb => ?_, fun hb => ?_⟩⟩⟩
  · exact blockFor_of_queued hord hne hg
  · dsimp only [exec, execSets]
    rw [if_pos hw]
    exact blockFor_of_queued hord hne hg
  · rw [exec_queueOrderedAccess_of_blocked hq hmay hb, opOf_packWord, fieldsOf_packWord]
    exact (if_pos rfl).trans (exec_gets_of_open (s := s.unblocked) fun _ => hq).symm
  · rw [exec_queueOrderedAccess_of_blocked hq hmay hb, opOf_packWord, fieldsOf_packWord]
    exact (if_neg (by decide)).trans (exec_sets_of_open (s := s.unblocked) fun _ => hq).symm

end Sys2Proof.Machine
end

section
/-! ## Number rules (spec 04): integer results (R78, R79) -/

namespace Sys2Proof.Machine

/-! ### Integer elements -/

/-- An integer result without SAT wraps; with SAT it is the nearest bound, and SAT is raised where it was not the exact result
(R78, R79). -/
theorem reduceInt_eq (fmt : Nat) (sat : Bool) (v : Int) : reduceInt fmt sat v =
    if sat then
      if v < intMin fmt then ((intMin fmt % 2 ^ Fmt.size fmt).toNat, flSAT)
      else if intMax fmt < v then ((intMax fmt % 2 ^ Fmt.size fmt).toNat, flSAT)
      else ((v % 2 ^ Fmt.size fmt).toNat, 0)
    else ((v % 2 ^ Fmt.size fmt).toNat, 0) := by
  unfold reduceInt clampInt lowBits
  cases sat with
  | false => rfl
  | true => split_ifs <;> rfl

theorem arithElem_of_not_float {md : Mode} (h : Fmt.isF md.fmt = false) (o : ArOp) (x y z : Nat) :
    arithElem o md x y z = intOp o md.fmt md.sat x y z := by
  rw [arithElem, h]
  rfl

theorem ite_neg_eq_natAbs (a : Int) : (if a < 0 then -a else a) = (a.natAbs : Int) := by
  split <;> omega

/-! ### Scalar integer words -/

theorem intOf_i64 (b : Word) : intOf 8 b.toNat = b.toInt := by
  have hb := b.isLt
  have hfmt : intOf 8 b.toNat = toSigned 64 b.toNat := rfl
  rw [hfmt, toSigned, BitVec.toInt_eq_toNat_cond, Nat.mod_eq_of_lt hb]
  split_ifs <;> omega

theorem intOf_n64 (b : Word) : intOf 12 b.toNat = (b.toNat : Int) :=
  congrArg Nat.cast (Nat.mod_eq_of_lt b.isLt)

/-- The remainder of i64 (R79): the dividend with DZ where the divisor is 0. -/
theorem rem64_i64 (a b : Word) : rem64 8 a b =
    (if b = 0 then a else BitVec.ofInt 64 (Int.tmod a.toInt b.toInt), if b = 0 then flDZ else 0) := by
  have hzero : b.toInt = 0 ↔ b = 0 := by rw [← BitVec.toInt_zero (w := 64), BitVec.toInt_inj]; rfl
  simp only [rem64, intOf_i64, remInt, beq_iff_eq, hzero]
  split_ifs <;> rfl

/-- The remainder of n64 (R79): the dividend with DZ where the divisor is 0. -/
theorem rem64_n64 (a b : Word) : rem64 12 a b =
    (if b = 0 then a else BitVec.ofNat 64 (a.toNat % b.toNat), if b = 0 then flDZ else 0) := by
  have hzero : (b.toNat : Int) = 0 ↔ b = 0 := by rw [Int.natCast_eq_zero, ← BitVec.toNat_inj]; rfl
  simp only [rem64, intOf_n64, remInt, beq_iff_eq, hzero, ← Int.ofNat_tmod, BitVec.ofInt_natCast]
  split_ifs <;> rfl

section ScalarResults

variable {s : State} {f : Fields}

/-- Flags raised before the end of a scalar word count as raised at its end (R46). -/
theorem State.endsG_raise (s : State) (d : Nat) (r : GReg) (x y : Flags) : (s.raise x).endsG d r y = s.endsG d r (x ||| y) := by
  simp only [State.endsG, State.raise, Strand.raise, Strand.flagged, flagged_or, Nat.or_assoc]
  rfl

/-- A scalar word that acts writes its value, with the taint and poison of its sources, and raises its flags (R154 to R156). -/
theorem scalarG_of_acts {gs : List Nat} {val : Strand → Word × Flags} (h : s.acts f gs [])
    (hval : ∀ x, val (s.me.raise x) = val s.me) : scalarG f s gs val = .next (s.gives f gs (val s.me).1 (val s.me).2) := by
  refine runScalar_of_acts_ok h (congrArg Except.ok ?_)
  have hme (x : Flags) : (s.raise x).me = s.me.raise x := rfl
  simp only [State.setG_advance, State.endsG_raise, hme, hval, Nat.or_zero]
  rw [Nat.or_comm]
  rfl

/-- A scalar word on g[A] and g[B] that acts (R159). -/
theorem scalarAB_of_acts {op : Word → Word → Word × Flags} (h : s.acts f [f.a.toNat, f.b.toNat] []) :
    scalarAB f s op = .next (s.gives f [f.a.toNat, f.b.toNat] (op (s.me.getG f.a.toNat).val (s.me.getG f.b.toNat).val).1
      (op (s.me.getG f.a.toNat).val (s.me.getG f.b.toNat).val).2) :=
  scalarG_of_acts h fun _ => rfl

end ScalarResults

/-- Settles O27: REM and REMN are scalar words on g[A] and g[B] whose operation is `rem64`; an integer element is the exact
result as `reduceInt` brings it into the format. -/
theorem integerElements : Obligations.IntegerElements := by
  unfold Obligations.IntegerElements
  refine ⟨fun f s hacts _ => ⟨?_, ?_⟩, fun md x y c _ hfloat => ?_⟩
  · dsimp only [exec, execRem]
    rw [scalarAB_of_acts hacts, rem64_i64]
  · dsimp only [exec, execRemn]
    rw [scalarAB_of_acts hacts, rem64_n64]
  · simp only [arithElem_of_not_float hfloat, intOp, reduceInt_eq, ite_neg_eq_natAbs, quotInt, beq_iff_eq, and_self]

end Sys2Proof.Machine
end

section
/-! ## Number rules (spec 04): block values (R70, R213) -/

namespace Sys2Proof.Machine

/-- A VDQN from kb8 into f32 that rounds up, with SAT. -/
def dequantUp : Fields := { d := 3, a := 1, b := 4, fn := 20, rnd := 2, sat := true }

/-- v1 holds the mantissa −2^7 and v4 its scale 254: the block value is −2^128, beyond f32 (R70). -/
def beyondF32 : State :=
  let s := State.reset.bench
  { s with me := { s.me with v := (s.me.v.set 1 { shape := [1], buf := 128 }).set 4 { shape := [1], buf := 254 } } }

/-- FLAGS after a step. -/
def flagsAfter (r : Result) : Option (BitVec 16) :=
  match r with
  | .next t => some t.me.flags
  | _ => none

/-- The word is an instruction: no ill-formed word is needed to refute the statement. -/
theorem dequantUp_legal : legal 0x5A dequantUp = true := by decide +kernel

theorem beyondF32_serves : beyondF32.serves 0x5A dequantUp := by
  unfold State.serves
  decide +kernel

theorem beyondF32_accepts (els : List (Option Elt × Flags)) :
    beyondF32.acceptsV (beyondF32.capture 0x5A dequantUp) dequantUp 3 32 els := by
  have htnt : trapsTaint dequantUp = false := by decide +kernel
  have htrap : beyondF32.poisonTrap = false := by decide +kernel
  exact ⟨fun h => absurd h (by simp [htnt]), fun h => absurd h (by simp [htrap])⟩

/-- The model saturates −2^128 with SAT and NX, and without OF, in every rounding mode, as R70 says. -/
theorem beyondF32_flags : flagsAfter (exec (.vdqn dequantUp) beyondF32) = some (BitVec.ofNat 16 (flNX ||| flSAT)) := by
  decide +kernel

/-- Refutes O30: the statement converts a block value by `convVal`, which saturates only where Overflowed returns an infinity, so
that under rup −2^128 raises OF and NX; the model's VDQN (`convKb`) raises SAT and NX for it. -/
theorem not_quantise : ¬ Obligations.Quantise := by
  intro h
  obtain ⟨hvdqn, -⟩ := h dequantUp beyondF32
  have hexec := hvdqn beyondF32_serves (by decide +kernel) (by decide +kernel) (by decide +kernel) (by decide +kernel)
    (by decide +kernel) (beyondF32_accepts _)
  have hflags := beyondF32_flags
  rw [hexec] at hflags
  exact absurd hflags (by decide +kernel)

end Sys2Proof.Machine
end

section
/-! ## Encoding rules (spec 06): words and their instructions (R89, R90, R104 to R110) -/

namespace Sys2Proof.Machine

/-! ### Sixteen bytes (R89) -/

/-- Bytes folded from the lowest address up are the number they are the little-endian digits of. -/
theorem foldr_bytes_eq_mod (x n : Nat) :
    ((List.range n).map fun k => BitVec.ofNat 8 (x / 256 ^ k)).foldr (fun b n => b.toNat + 256 * n) 0 = x % 256 ^ n := by
  induction n generalizing x with
  | zero => simp [Nat.mod_one]
  | succ n ih =>
    have htail : (List.range n).map (fun k => BitVec.ofNat 8 (x / 256 ^ (k + 1))) =
        (List.range n).map fun k => BitVec.ofNat 8 (x / 256 / 256 ^ k) := by
      simp only [pow_succ', Nat.div_div_eq_div_mul]
    rw [List.range_succ_eq_map, List.map_cons, List.map_map, List.foldr_cons]
    change _ + 256 * ((List.range n).map fun k => BitVec.ofNat 8 (x / 256 ^ (k + 1))).foldr _ 0 = _
    rw [htail, ih, pow_succ', Nat.mod_mul, BitVec.toNat_ofNat, pow_zero, Nat.div_one]

theorem bytesOfWord_eq (w : BitVec 128) :
    bytesOfWord w = (List.range 16).map fun k => BitVec.ofNat 8 (w.toNat / 256 ^ k) := by
  refine List.map_congr_left fun k _ => BitVec.eq_of_toNat_eq ?_
  rw [BitVec.extractLsb'_toNat, Nat.shiftRight_eq_div_pow, BitVec.toNat_ofNat, show (256 : Nat) = 2 ^ 8 from rfl, ← pow_mul]

@[simp] theorem length_bytesOfWord (w : BitVec 128) : (bytesOfWord w).length = 16 := by simp [bytesOfWord]

/-- Bytes in memory order make up the word they were taken from (R89). -/
@[simp] theorem wordOfBytes_bytesOfWord (w : BitVec 128) : wordOfBytes (bytesOfWord w) = w := by
  refine BitVec.eq_of_toNat_eq ?_
  rw [wordOfBytes, bytesOfWord_eq, foldr_bytes_eq_mod, BitVec.toNat_ofNat, show (256 : Nat) ^ 16 = 2 ^ 128 from rfl,
    Nat.mod_mod, Nat.mod_eq_of_lt w.isLt]

/-- What stands in memory at a word decodes as the word does, whatever follows it. -/
theorem decode_bytesOfWord_append (w : BitVec 128) (rest : List Byte) :
    decode (bytesOfWord w ++ rest) = (decodeWord w).map fun i => (i, rest) := by
  have hlen : ¬ (bytesOfWord w ++ rest).length < 16 := by simp
  rw [decode, if_neg hlen, List.take_left' (length_bytesOfWord w), List.drop_left' (length_bytesOfWord w),
    wordOfBytes_bytesOfWord]
  cases decodeWord w <;> rfl

/-! ### An instruction's own word (R90, R110) -/

/-- The opcode table gives every instruction back from its own opcode and fields; only VLD and VST share an opcode between two
rows, which FN tells apart (R197). -/
theorem instrOf_of_word {i : Instr} {op : BitVec 8} {f : Fields} (h : i.word = some (op, f)) (hf : i.formOk = true) :
    instrOf op f = some i := by
  cases i
  case vldTid g => exact Laws.Row.vldTid g op f h hf
  case vldPtr g => exact Laws.Row.vldPtr g op f h hf
  case vstTid g => exact Laws.Row.vstTid g op f h hf
  case vstPtr g => exact Laws.Row.vstPtr g op f h hf
  all_goals cases h <;> rfl

/-- A packed word whose fields are legal decodes to the row of its opcode. -/
theorem decodeWord_packWord {op : BitVec 8} {f : Fields} {i : Instr} (hl : legal op f = true) (hi : instrOf op f = some i) :
    decodeWord (packWord op f) = .ok i := by
  have hl' : legalityError op f = none := Option.isNone_iff_eq_none.mp hl
  simp only [decodeWord, opOf_packWord, fieldsOf_packWord, hl', hi]

/-- Settles O4: the word of an instruction is its packed fields, which unpack to themselves; what is legal decodes by the row of
its opcode, and the row of an instruction's own opcode is the instruction. -/
theorem decodeEncode : Obligations.DecodeEncode := by
  intro i op f hw hf hl
  have hd : decodeWord (packWord op f) = .ok i := decodeWord_packWord hl (instrOf_of_word hw hf)
  have he : encode i = some (packWord op f) := by rw [encode, hw]; rfl
  refine ⟨packWord op f, he, hd, opOf_packWord op f, fieldsOf_packWord op f, fun rest => ?_⟩
  rw [decode_bytesOfWord_append, hd]
  rfl

/-! ### Words written out (R90, R105) -/

/-- Refutes O5: the statement's first word has 33 hexadecimal digits. In 128 bits its opcode is 0x10 (SHR) and slot D is 48,
which is no general register, so that it is no instruction, where the statement says ADD; the word of 32 digits that was meant
is that ADD (`test_decode_scalar_integer`). -/
theorem not_wordsDecode : ¬ Obligations.WordsDecode := by
  intro ⟨hadd, _⟩
  have hslot : decodeWord 0x010C10800000000000000000000000000#128 = .error .slotClass := rfl
  rw [hslot] at hadd
  cases hadd

end Sys2Proof.Machine
end

section
/-! ## Encoding rules (spec 06): a step runs the word at the PC (R13, R89) -/

namespace Sys2Proof.Machine

/-! ### Tokens change no value (R397, R398) -/

/-- Buckets, lend pools, windows and the requests that wait have changed alone. -/
def State.Tolled (s t : State) : Prop :=
  ∃ tolls pools windows dues, t = { s with tolls := tolls, pools := pools, windows := windows, dues := dues }

section Tolled

variable {s t u : State}

theorem State.Tolled.refl (s : State) : s.Tolled s := ⟨_, _, _, _, rfl⟩

theorem State.Tolled.trans (h : s.Tolled t) (h' : t.Tolled u) : s.Tolled u := by
  obtain ⟨_, _, _, _, rfl⟩ := h
  obtain ⟨_, _, _, _, rfl⟩ := h'
  exact ⟨_, _, _, _, rfl⟩

theorem State.Tolled.foldl {α : Type} {g : State → α → State} (hg : ∀ t x, State.Tolled t (g t x)) (xs : List α) (s : State) :
    s.Tolled (xs.foldl g s) := by
  induction xs generalizing s with
  | nil => exact .refl s
  | cons x xs ih => exact (hg s x).trans (ih (g s x))

theorem payAll_tolled {pay : State → Due → State × Due} (hpay : ∀ t d, State.Tolled t (pay t d).1) (s : State) (ds : List Due) :
    s.Tolled (payAll pay s ds).1 := by
  have hfold (acc : State × List Due) :
      acc.1.Tolled (ds.foldl (fun acc d => ((pay acc.1 d).1, acc.2 ++ [(pay acc.1 d).2])) acc).1 := by
    induction ds generalizing acc with
    | nil => exact .refl _
    | cons d ds ih => exact (hpay acc.1 d).trans (ih _)
  exact hfold (s, [])

theorem State.payDues_tolled (s : State) : s.Tolled s.payDues := by
  unfold State.payDues
  split
  · exact .refl s
  · have haccrue : s.Tolled ((List.range 4).foldl State.accrue s) := .foldl (fun _ _ => ⟨_, _, _, _, rfl⟩) _ s
    have hown := haccrue.trans (payAll_tolled (pay := State.payOwn) (fun _ _ => ⟨_, _, _, _, rfl⟩) _ s.dues)
    have hlent := hown.trans (payAll_tolled (pay := State.payLent) (fun _ _ => ⟨_, _, _, _, rfl⟩) _
      (payAll State.payOwn ((List.range 4).foldl State.accrue s) s.dues).2)
    exact hlent.trans ⟨_, _, _, _, rfl⟩

theorem State.fetchToken_tolled (s : State) : s.Tolled s.fetchToken := ⟨_, _, _, _, rfl⟩

end Tolled

/-! ### Before the word runs -/

/-- Time, tokens, the other strands' turns to fetch and the notes of page walks have changed alone. -/
def State.Readied (s t : State) : Prop :=
  ∃ cyc free tolls pools windows dues rest notes, t = { s with
    cyc := cyc, free := free, tolls := tolls, pools := pools, windows := windows, dues := dues, rest := rest
    poisonedWalks := notes, me := t.me }

/-- The strand as its word finds it: no strand waits for it, and one that starts has copied its bound entries (R99, R130). -/
def Strand.Starts (m n : Strand) (lag : List Lag) : Prop :=
  (m.begun = true ∧ n = { m with after := [] }) ∨
    (m.begun = false ∧ ∃ t, n = Strand.renew { m with after := [], begun := true, t := t } lag)

theorem State.tick_me (s : State) : s.tick.me = s.me := by
  obtain ⟨_, _, _, _, h⟩ := State.payDues_tolled { s with
    cyc := Vector.ofFn fun d : Fin 4 => s.cyc[d] + BitVec.ofNat 64 (Config.elapsed d s.free), free := s.free + 1 }
  rw [State.tick, h]

/-- What stands before the word of a step runs. -/
theorem State.fetchStart_form (s : State) :
    s.Readied s.tick.fetchToken.servedFetch.beginStrand ∧
      s.me.Starts s.tick.fetchToken.servedFetch.beginStrand.me s.lag := by
  obtain ⟨tolls, pools, windows, dues, ht⟩ := State.payDues_tolled { s with
    cyc := Vector.ofFn fun d : Fin 4 => s.cyc[d] + BitVec.ofNat 64 (Config.elapsed d s.free), free := s.free + 1 }
  obtain ⟨tolls', pools', windows', dues', hf⟩ := s.tick.fetchToken_tolled
  have hserved : s.tick.fetchToken.servedFetch = { s with
      cyc := s.tick.cyc, free := s.tick.free, tolls := tolls', pools := pools', windows := windows', dues := dues'
      rest := s.tick.fetchToken.servedFetch.rest, me := { s.me with after := [] } } := by
    unfold State.servedFetch
    rw [hf, State.tick, ht]
  generalize s.tick.fetchToken.servedFetch = v at hserved
  cases hb : s.me.begun with
  | true =>
    have hv : v.beginStrand = v := State.beginStrand_of_begun (by rw [hserved]; exact hb)
    rw [hv, hserved]
    exact ⟨⟨_, _, _, _, _, _, _, _, rfl⟩, .inl ⟨hb, rfl⟩⟩
  | false =>
    obtain ⟨notes, t, hv, -⟩ := State.beginStrand_form (s := v) (by rw [hserved]; exact hb)
    rw [hv, hserved]
    exact ⟨⟨_, _, _, _, _, _, _, _, rfl⟩, .inr ⟨hb, t, rfl⟩⟩

/-- A strand that starts keeps its registers but the tensor identifiers. -/
theorem Strand.Starts.keeps {m n : Strand} {lag : List Lag} (h : m.Starts n lag) :
    n.pc = m.pc ∧ n.g = m.g ∧ n.q = m.q ∧ n.v = m.v ∧ n.m = m.m ∧ n.z = m.z ∧ n.flags = m.flags ∧ n.sameSpecial m ∧
      (m.begun = true → n.t = m.t) := by
  obtain ⟨-, rfl⟩ | ⟨hb, t, rfl⟩ := h
  · exact ⟨rfl, rfl, rfl, rfl, rfl, rfl, rfl, by simp [Strand.sameSpecial], fun _ => rfl⟩
  · exact ⟨rfl, rfl, rfl, rfl, rfl, rfl, rfl, by simp [Strand.sameSpecial, Strand.renew], fun h => absurd h (by simp [hb])⟩

theorem Strand.Starts.queue {m n : Strand} {lag : List Lag} (h : m.Starts n lag) : n.queue = m.queue := by
  obtain ⟨-, rfl⟩ | ⟨-, t, rfl⟩ := h <;> rfl

/-! ### The word and what follows it -/

/-- A resting strand has nothing to do but to fetch (R13, R17, R44, R375). -/
theorem Strand.resting_iff {m : Strand} :
    m.resting = true ↔ m.status = .running ∧ m.queue = [] ∧ m.pend = none ∧ m.blocked = none ∧ m.awaiting = false ∧
      m.preempt = none ∧ m.work = [] ∧ m.mirrors = [] := by
  simp [Strand.resting, and_assoc]

theorem Strand.mayFetch_of_resting {m : Strand} (h : m.resting = true) : m.mayFetch = true := by
  obtain ⟨hstatus, hqueue, hpend, hblocked, hawait, hpreempt, -, -⟩ := Strand.resting_iff.mp h
  simp [Strand.mayFetch, hstatus, hqueue, hpend, hblocked, hawait, hpreempt]

/-- The own step of a resting strand whose turn it is, with a token to take, is its fetch. -/
theorem State.ownStep_of_resting {s : State} (h : s.me.resting = true) (hdue : s.firstDue = none)
    (hissue : s.mayIssue s.me = true) : s.ownStep = s.fetchToken.servedFetch.beginStrand.runFetched := by
  obtain ⟨hstatus, hqueue, hpend, hblocked, -, hpreempt, hwork, -⟩ := Strand.resting_iff.mp h
  have hfetch : s.mayFetch = true := Strand.mayFetch_of_resting h
  have hrun : s.runFetch = s.fetchToken.servedFetch.beginStrand.runFetched := by
    simp only [State.runFetch, hfetch, hdue, hissue, Bool.not_true, Option.isSome_none, Bool.or_self, Bool.false_eq_true,
      if_false]
  simp only [State.ownStep, hstatus, hpend, hwork, hpreempt, hqueue, hblocked, hdue, hrun, beq_self_eq_true, Bool.true_or,
    Bool.not_true, Bool.false_eq_true, if_false, List.findSome?_nil, Option.isSome_none, List.isEmpty_nil]

/-- A word that has run may note which strands come first, and only one that yields does (R99). -/
theorem State.yielded_form (s t : State) (w : BitVec 128) :
    ∃ after, s.yielded t w = { t with me := { t.me with after := after } } ∧ (s.me.yields w = false → after = t.me.after) := by
  unfold State.yielded
  split
  · rename_i hy
    exact ⟨_, rfl, fun h => absurd hy (by simp [h])⟩
  · exact ⟨_, rfl, fun _ => rfl⟩

/-- A fetched word before which nothing is queued runs as `exec` says of it, but for the caches, the order of the strand's own
accesses and the note of YLD. -/
theorem State.runFetched_word {s t : State} {w : BitVec 128} {i : Instr} {rest : List Byte} (hqueue : s.me.queue = [])
    (hfetch : s.fetchWord = .ok (.word w)) (hdecode : decode (bytesOfWord w) = .ok (i, rest)) (hexec : exec i s = .next t) :
    ∃ lines fills dues dropped stores order after, s.runFetched = .next { t with
        lines := lines, fills := fills, dues := dues, dropped := dropped, stores := stores
        me := { t.me with order := order, after := after } } ∧
      (s.me.yields w = false → after = t.me.after) := by
  obtain ⟨lines, fills, dues, dropped, stores, order, hword⟩ := State.execWord_frame s t i w hexec
  generalize hv : ({ t with
    lines := lines, fills := fills, dues := dues, dropped := dropped, stores := stores
    me := { t.me with order := order } } : State) = v at hword
  obtain ⟨after, hyielded, hafter⟩ := State.yielded_form s v w
  have hrun : s.runFetched = .next (s.yielded v w) := by
    simp only [State.runFetched, hfetch, hdecode, State.runWord, hqueue, List.isEmpty_nil, Bool.not_true, Bool.false_and,
      Bool.false_eq_true, if_false, hword, State.afterWord]
  rw [hrun, hyielded]
  subst hv
  exact ⟨lines, fills, dues, dropped, stores, order, after, rfl, hafter⟩

/-- Settles O6: a resting strand's own step is its fetch; before it only time, tokens and the start of the strand have gone on
(`State.fetchStart_form`), and after it only caches, order and the note of YLD differ (`State.runFetched_word`). -/
theorem stepRunsDecodedWord : Obligations.StepRunsDecodedWord := by
  intro s w i rest u hagenda hresting hdue hissue hfetch hdecode
  obtain ⟨hready, hstart⟩ := s.fetchStart_form
  obtain ⟨hpc, hg, hq, hv, hm, hz, hflags, hspecial, ht⟩ := hstart.keeps
  have hmem : u.mem = s.mem := by
    obtain ⟨_, _, _, _, _, _, _, _, h⟩ := hready
    rw [show u = _ from h]
  have hqueue : u.me.queue = [] := hstart.queue.trans (Strand.resting_iff.mp hresting).2.1
  refine ⟨hmem, hpc, hg, hq, hv, hm, hz, hflags, hspecial, ht, fun t hexec => ?_⟩
  obtain ⟨lines, fills, dues, dropped, stores, order, after, hrun, hafter⟩ := State.runFetched_word hqueue hfetch hdecode hexec
  have hown : s.tick.ownStep = u.runFetched :=
    State.ownStep_of_resting (by rw [State.tick_me]; exact hresting) hdue (by rw [State.tick_me]; exact hissue)
  have hstep : step s = s.settled u.runFetched := by rw [step, hagenda, hown]
  rw [hstep, hrun]
  obtain ⟨lines', fills', dues', dropped', hsettled⟩ := State.settled_frame s { t with
    lines := lines, fills := fills, dues := dues, dropped := dropped, stores := stores
    me := { t.me with order := order, after := after } }
  exact ⟨lines', fills', dues', dropped', order, after, hsettled, hafter⟩

end Sys2Proof.Machine
end

section
/-! ## Encoding rules (spec 06): where taint and poison stop a word (R100, R156, R191)

Scalar words judge their registers in `runScalar` and LD its granules in `memSource`; an elementwise word judges the positions of
its result in `consume`. -/

namespace Sys2Proof.Machine

/-! ### The checks -/

section Checks

variable {u : State} {e : Entry} {f : Fields} {tainted poisoned : Bool}

/-- Under TNT a tainted source, captured register or guard stops an entry with TAINT (R100). -/
theorem consume_of_taint (htnt : trapsTaint f = true) (ht : (tainted || gvTainted e || e.qt != 0) = true) :
    consume u e f tainted poisoned = .error { cause := cTAINT } := by
  unfold consume
  simp only [htnt, ht, Bool.and_self, require, Bool.not_true, Bool.false_eq_true, if_false]
  rfl

/-- Under the POISON trap a poisoned source that no TAINT precedes stops an entry with POISON (R156, R191). -/
theorem consume_of_poison (ht : trapsTaint f = true → (tainted || gvTainted e || e.qt != 0) = false)
    (htrap : u.poisonTrap = true) (hp : poisoned = true) : consume u e f tainted poisoned = .error { cause := cPOISON } := by
  have htaint : (trapsTaint f && (tainted || gvTainted e || e.qt != 0)) = false := Bool.and_eq_false_imp.mpr ht
  unfold consume
  simp only [htaint, htrap, hp, Bool.and_self, require, Bool.not_true, Bool.not_false, Bool.false_eq_true, if_true, if_false]
  rfl

theorem memSource_of_taint (htnt : trapsTaint f = true) (ht : tainted = true) :
    memSource u f tainted poisoned = .error { cause := cTAINT } := by
  unfold memSource
  simp only [htnt, ht, Bool.and_self, require, Bool.not_true, Bool.false_eq_true, if_false]
  rfl

theorem memSource_of_poison (ht : trapsTaint f = true → tainted = false) (htrap : u.poisonTrap = true) (hp : poisoned = true) :
    memSource u f tainted poisoned = .error { cause := cPOISON } := by
  have htaint : (trapsTaint f && tainted) = false := Bool.and_eq_false_imp.mpr ht
  unfold memSource
  simp only [htaint, htrap, hp, Bool.and_self, require, Bool.not_true, Bool.not_false, Bool.false_eq_true, if_true, if_false]
  rfl

end Checks

/-! ### Scalar words (R100, R156) -/

section Scalar

variable {s : State} {f : Fields}

/-- A scalar word judges the registers that it reads before its body acts, taint before poison. -/
theorem scalarTraps_of_runScalar {i : Instr} {gs qs : List Nat} {body : State → R State}
    (h : exec i s = runScalar f s gs qs body) : scalarTraps i f gs qs s := by
  intro hguard
  have hsrc : (gs.any (fun n => (s.me.getG n).taint) || qs.any (fun n => (s.me.getQ n).taint) ||
      (s.me.getQ (bits f.gs.toNat 2 0)).taint) = (s.me.taintOf gs qs || (s.me.getQ (f.gs.toNat % 8)).taint) := by
    rw [bits_zero_eq_mod]
    rfl
  have hpoison : (gs.any fun n => (s.me.getG n).poison) = s.me.poisonOf gs := rfl
  rw [h]
  unfold runScalar
  simp only [hguard, hsrc, hpoison, Bool.not_true, Bool.false_eq_true, if_false]
  refine ⟨fun htnt ht => ?_, fun ht htrap hp => ?_⟩
  · simp only [htnt, ht, Bool.and_self, if_true]
  · have htaint : (trapsTaint f && (s.me.taintOf gs qs || (s.me.getQ (f.gs.toNat % 8)).taint)) = false :=
      Bool.and_eq_false_imp.mpr ht
    simp only [htaint, hp, htrap, Bool.and_self, Bool.false_eq_true, if_false, if_true]

/-- The address and the size of a scalar load (R165). -/
def loadAddr (s : State) (f : Fields) : Nat := ((s.me.getG f.a.toNat).val + BitVec.ofInt 64 f.imm.toInt).toNat
def loadSize (f : Fields) : Nat := 2 ^ (f.fn.toNat % 4)

/-- An LD acts at an aligned address below 2^56, and reads `x` there (R165). -/
def State.Loads (s : State) (f : Fields) (x : Nat × Bool × Bool) : Prop :=
  s.acts f [f.a.toNat] [] ∧ loadAddr s f % loadSize f = 0 ∧ loadAddr s f < 2 ^ 56 ∧
    s.loadBytes (loadAddr s f) (loadSize f) = .ok x

theorem two_pow_bits_fn (f : Fields) : 2 ^ bits f.fn.toNat 1 0 = loadSize f := by
  rw [bits_zero_eq_mod]
  rfl

theorem effAddr_of_aligned (halign : loadAddr s f % loadSize f = 0) (hlt : loadAddr s f < 2 ^ 56) :
    effAddr f s = .ok (loadAddr s f) := by
  have haddr : ((s.me.getG f.a.toNat).val + f.imm.signExtend 64).toNat = loadAddr s f := rfl
  unfold effAddr
  simp only [haddr, two_pow_bits_fn, halign, hlt, require, beq_self_eq_true, decide_true, if_true, bind, Except.bind, pure,
    Except.pure]

/-- An LD whose granules trap faults before it writes (R100, R156). -/
theorem exec_ld_of_memSource_error {x : Nat × Bool × Bool} {c : Flt} (h : s.Loads f x)
    (hsrc : ∀ fl, memSource (s.raise fl) f x.2.1 x.2.2 = .error c) : exec (.ld f) s = s.scalarFault c := by
  obtain ⟨hacts, halign, hlt, hload⟩ := h
  dsimp only [exec, execLd]
  refine runScalar_of_acts_error hacts ?_
  generalize flagIf (s.me.poisonOf [f.a.toNat]) flPSN = fl
  have haddr : effAddr f (s.raise fl) = .ok (loadAddr s f) := effAddr_of_aligned (s := s.raise fl) halign hlt
  have hraised : (s.raise fl).loadBytes (loadAddr s f) (loadSize f) = .ok x :=
    ((s.sameSight_raise fl).readElem rfl rfl _ _ _).trans hload
  simp only [haddr, two_pow_bits_fn, hraised, hsrc, bind, Except.bind]

/-- LD judges the granules that it reads after its register (R100, R156). -/
theorem exec_ld_traps {x : Nat × Bool × Bool} (h : s.Loads f x) :
    (trapsTaint f = true → x.2.1 = true → exec (.ld f) s = s.scalarFault { cause := cTAINT }) ∧
    ((trapsTaint f = true → x.2.1 = false) → s.poisonTrap = true → x.2.2 = true →
      exec (.ld f) s = s.scalarFault { cause := cPOISON }) :=
  ⟨fun htnt ht => exec_ld_of_memSource_error h fun _ => memSource_of_taint htnt ht,
    fun ht htrap hp => exec_ld_of_memSource_error h fun _ => memSource_of_poison ht htrap hp⟩

/-- The words on g[A] and g[B]. -/
theorem scalarTraps_twoRegisters : ∀ i ∈ [Instr.add f, .sub f, .mul f, .mulh f, .mulhn f, .div f, .divn f, .rem f, .remn f, .and f,
    .or f, .xor f, .andn f, .shl f, .shr f, .shra f, .rotl f, .min f, .max f, .minn f, .maxn f, .clmul f, .cmp f, .fadd f, .fsub f,
    .fmul f, .fdiv f, .fmin f, .fmax f, .fcmp f], scalarTraps i f [f.a.toNat, f.b.toNat] [] s := by
  intro i hi
  have hrun : ∃ body, exec i s = runScalar f s [f.a.toNat, f.b.toNat] [] body := by
    fin_cases hi
    all_goals
      dsimp only [exec, execAdd, execSub, execMul, execMulh, execMulhn, execDiv, execDivn, execRem, execRemn, execAnd, execOr,
        execXor, execAndn, execShl, execShr, execShra, execRotl, execMin, execMax, execMinn, execMaxn, execClmul, execCmp, execFadd,
        execFsub, execFmul, execFdiv, execFmin, execFmax, execFcmp, scalarAB, scalarF, scalarG, scalarQ]
      exact ⟨_, rfl⟩
  obtain ⟨body, hbody⟩ := hrun
  exact scalarTraps_of_runScalar hbody

/-- The words on g[A]. -/
theorem scalarTraps_oneRegister : ∀ i ∈ [Instr.addi f, .lih f, .clz f, .ctz f, .popc f, .cmpi f, .fsqrt f, .fcvt f, .ld f, .jmpi f],
    scalarTraps i f [f.a.toNat] [] s := by
  intro i hi
  have hrun : ∃ body, exec i s = runScalar f s [f.a.toNat] [] body := by
    fin_cases hi
    all_goals
      dsimp only [exec, execAddi, execLih, execClz, execCtz, execPopc, execCmpi, execFsqrt, execFcvt, execLd, execJmpi, scalarA,
        scalarF, scalarG, scalarQ]
      exact ⟨_, rfl⟩
  obtain ⟨body, hbody⟩ := hrun
  exact scalarTraps_of_runScalar hbody

/-- The words on the stack pointer. -/
theorem scalarTraps_stackPointer : ∀ i ∈ [Instr.call f, .ret f], scalarTraps i f [31] [] s := by
  intro i hi
  have hrun : ∃ body, exec i s = runScalar f s [31] [] body := by
    fin_cases hi
    all_goals
      dsimp only [exec, execCall, execRet]
      exact ⟨_, rfl⟩
  obtain ⟨body, hbody⟩ := hrun
  exact scalarTraps_of_runScalar hbody

theorem scalarTraps_ffma : scalarTraps (.ffma f) f [f.a.toNat, f.b.toNat, f.c.toNat] [] s :=
  scalarTraps_of_runScalar (by dsimp only [exec, execFfma, scalarF, scalarG])

theorem scalarTraps_st : scalarTraps (.st f) f [f.d.toNat, f.a.toNat] [] s :=
  scalarTraps_of_runScalar (by dsimp only [exec, execSt])

theorem scalarTraps_qop : scalarTraps (.qop f) f [] [f.a.toNat, f.b.toNat] s :=
  scalarTraps_of_runScalar (by dsimp only [exec, execQop, scalarQ])

theorem scalarTraps_sel :
    scalarTraps (.sel f) f [if (s.me.getQ f.a.toNat).val then f.b.toNat else f.c.toNat] [f.a.toNat] s :=
  scalarTraps_of_runScalar (by dsimp only [exec, execSel])

end Scalar

/-! ### Elementwise words (R100, R191) -/

section Elementwise

variable {s u : State} {e : Entry} {f : Fields} {z : Nat} {fc : List Nat × List Nat}

theorem fitsSources_of_forall {g : Nat} {srcs : List (Source × Nat)} (h : ∀ p ∈ srcs, count p.1.shape ≤ capacity g p.2) :
    (forIn srcs PUnit.unit fun p _ => do
      fitsSource g p.2 p.1
      pure (ForInStep.yield PUnit.unit) : R PUnit) = .ok PUnit.unit := by
  induction srcs with
  | nil => rfl
  | cons p srcs ih =>
    have hp : fitsSource g p.2 p.1 = .ok () := require_ok.mpr (decide_eq_true (h p List.mem_cons_self))
    rw [List.forIn_cons, hp]
    exact ih fun q hq => h q (List.mem_cons_of_mem _ hq)

/-- Operands that agree let an elementwise word come to its result (R54, R57). -/
theorem elementwise_of_agree {srcs : List (Source × Nat)} {g : Nat → List Elt → Elt × Flags} (h : u.operandsAgree e f z srcs fc) :
    elementwise u e f z srcs false g =
      commitV u e f f.d.toNat z (fc.1 ++ fc.2) (resultPieces u e f (srcs.map fun p => p.1) fc g) := by
  obtain ⟨hagree, hmasks, hfits, hrank, hcount⟩ := h
  have hloop := fitsSources_of_forall hfits
  have hcap : require (decide ((fc.1 ++ fc.2).length ≤ 4) && decide (count (fc.1 ++ fc.2) ≤ capacity e.grows.toNat z)) cCAPACITY =
      .ok () := require_ok.mpr (by simp only [hrank, hcount, decide_true, Bool.and_self])
  unfold elementwise
  simp only [bind, Except.bind, pure, Except.pure] at hloop ⊢
  simp only [hagree, hmasks, hloop, Bool.false_eq_true, if_false, hcap]
  rfl

theorem commitV_of_consume_error {d : Nat} {sh : List Nat} {els : List (Option Elt × Flags)} {x : Flt}
    (h : consume u e f ((els.filterMap fun p => p.1).any Elt.taint ||
      (!(els.filterMap fun p => p.1).isEmpty && u.masksTainted e f)) ((u.me.getV d).takesPoison z els) = .error x) :
    commitV u e f d z sh els = .error x := by
  rw [VReg.takesPoison_eq] at h
  unfold commitV
  simp only [h, bind, Except.bind]

/-- What the checks read of a position: none where it is inactive, else the taint and poison of its element. -/
def pieceMarks (p : Option Elt × Flags) : Option (Bool × Bool) := p.1.map fun x => (x.taint, x.poison)

theorem any_of_marks {get : Elt → Bool} {sel : Bool × Bool → Bool} (h : ∀ x, get x = sel (x.taint, x.poison))
    (els : List (Option Elt × Flags)) :
    (els.filterMap fun p => p.1).any get = (els.map pieceMarks).any fun m => m.any sel := by
  induction els with
  | nil => rfl
  | cons p els ih => obtain ⟨_ | x, fl⟩ := p <;> simp [pieceMarks, h, ih]

theorem isEmpty_of_marks (els : List (Option Elt × Flags)) :
    (els.filterMap fun p => p.1).isEmpty = (els.map pieceMarks).all Option.isNone := by
  induction els with
  | nil => rfl
  | cons p els ih => obtain ⟨_ | x, fl⟩ := p <;> simp [pieceMarks, ih]

theorem keepsPoison_of_marks (old : VReg) (z : Nat) (els : List (Option Elt × Flags)) :
    old.keepsPoison z (els.map fun p => p.1) = (els.map pieceMarks).zipIdx.any fun m =>
      m.1.isNone && decide (m.2 < count old.shape) && (old.elem z m.2).poison := by
  simp only [VReg.keepsPoison, List.zipIdx_map, List.any_map, Bool.and_true]
  congr 1
  funext p
  simp [pieceMarks]

/-- The sources of an elementwise word mark its positions, whatever it computes from them (R190, R191). -/
theorem resultPieces_marks {srcs : List Source} {g g' : Nat → List Elt → Elt × Flags}
    (hg : ∀ i xs, ∃ v, (g i xs).1 = eltOf v xs) (hg' : ∀ i xs, ∃ v, (g' i xs).1 = eltOf v xs) :
    (resultPieces u e f srcs fc g).map pieceMarks = (resultPieces u e f srcs fc g').map pieceMarks := by
  unfold resultPieces
  rw [List.map_map, List.map_map]
  refine List.map_congr_left fun i _ => ?_
  obtain ⟨v, hv⟩ := hg i (elemsAt f.rk.toNat fc srcs i)
  obtain ⟨v', hv'⟩ := hg' i (elemsAt f.rk.toNat fc srcs i)
  cases hact : isActive u e f (fc.1 ++ fc.2) i <;> simp [pieceMarks, hact, hv, hv', eltOf]

/-- An elementwise word whose sources trap stops with no effect, whatever it computes (R100, R191). -/
theorem trapsV_of_elementwise {i : Instr} {op : BitVec 8} {srcs : Entry → List (Source × Nat)}
    {g : Entry → Nat → List Elt → Elt × Flags} (hop : op ≠ 0x42) {body : Entry → State → Served}
    (hexec : exec i s = runArray op f s body)
    (hbody : body (s.capture op f) (s.entered op f) = Served.ofR (s.entered op f)
      (elementwise (s.entered op f) (s.capture op f) f z (srcs (s.capture op f)) false (g (s.capture op f))))
    (hg : ∀ e i xs, ∃ v, (g e i xs).1 = eltOf v xs) : trapsV i op f s z srcs := by
  intro fc e els act taint hserves hagree
  have hmarks : (resultPieces s e f ((srcs e).map fun p => p.1) fc (g e)).map pieceMarks = els.map pieceMarks :=
    resultPieces_marks (hg e) fun _ _ => ⟨0, rfl⟩
  have hstop {c : Nat} (hc : consume (s.entered op f) e f (act.any Elt.taint || (!act.isEmpty && s.masksTainted e f))
      ((s.me.getV f.d.toNat).takesPoison z els) = .error { cause := c }) :
      exec i s = .next ((s.entered op f).arrayFault e { cause := c }) := by
    have helem : elementwise (s.entered op f) e f z (srcs e) false (g e) = .error { cause := c } := by
      rw [elementwise_of_agree (u := s.entered op f) hagree]
      refine commitV_of_consume_error ?_
      rw [VReg.takesPoison_eq, any_of_marks (sel := Prod.fst) fun _ => rfl, any_of_marks (sel := Prod.snd) fun _ => rfl,
        isEmpty_of_marks, keepsPoison_of_marks] at hc ⊢
      rw [← hmarks] at hc
      exact hc
    rw [hexec, runArray_of_serves hserves hop, hbody, helem]
    rfl
  exact ⟨fun htnt ht => hstop (consume_of_taint htnt ht),
    fun ht htrap hp => hstop (consume_of_poison ht htrap hp)⟩

theorem trapsV_runArith {i : Instr} {o : ArOp} {n : Nat} {op : BitVec 8} (hop : op ≠ 0x42) (h : exec i s = runArith o n op f s) :
    trapsV i op f s (Fmt.size f.fmt.toNat) fun e => kindSources s e f (Fmt.size f.fmt.toNat) n :=
  trapsV_of_elementwise (g := fun e i xs =>
      (eltOf (arithElem o (e.mode f f.fmt.toNat i) (nth xs 0).val (nth xs 1).val (nth xs 2).val).1 xs,
        (arithElem o (e.mode f f.fmt.toNat i) (nth xs 0).val (nth xs 1).val (nth xs 2).val).2))
    hop h rfl fun _ _ _ => ⟨_, rfl⟩

theorem trapsV_runArith1 {i : Instr} {o : ArOp} {op : BitVec 8} (hop : op ≠ 0x42) (h : exec i s = runArith1 o op f s) :
    trapsV i op f s (Fmt.size f.fmt.toNat) fun _ => [((s.me.getV f.a.toNat).source (Fmt.size f.fmt.toNat), Fmt.size f.fmt.toNat)] :=
  trapsV_of_elementwise (g := fun e i xs =>
      (eltOf (arithElem o (e.mode f f.fmt.toNat i) (nth xs 0).val 0 0).1 xs,
        (arithElem o (e.mode f f.fmt.toNat i) (nth xs 0).val 0 0).2))
    hop h rfl fun _ _ _ => ⟨_, rfl⟩

theorem trapsV_runBits {i : Instr} {n : Nat} {op : BitVec 8} {g : Nat → Nat → Nat → Nat} (hop : op ≠ 0x42)
    (h : exec i s = runBits n op f s g) :
    trapsV i op f s (Fmt.size f.fmt.toNat) fun e => kindSources s e f (Fmt.size f.fmt.toNat) n :=
  trapsV_of_elementwise (g := fun _ _ xs =>
      (eltOf (g (Fmt.size f.fmt.toNat) (nth xs 0).val (nth xs 1).val % 2 ^ Fmt.size f.fmt.toNat) xs, 0))
    hop h rfl fun _ _ _ => ⟨_, rfl⟩

theorem trapsV_vnot : trapsV (.vnot f) 0x53 f s (Fmt.size f.fmt.toNat)
    fun _ => [((s.me.getV f.a.toNat).source (Fmt.size f.fmt.toNat), Fmt.size f.fmt.toNat)] :=
  trapsV_of_elementwise (g := fun _ _ xs => (eltOf ((2 ^ Fmt.size f.fmt.toNat - 1) ^^^ (nth xs 0).val) xs, 0))
    (by decide) (by dsimp only [exec, execVnot]) rfl fun _ _ _ => ⟨_, rfl⟩

end Elementwise

end Sys2Proof.Machine
end

section
/-! ## Encoding rules (spec 06): where taint and poison stop home actions and VLD (R100, R201, R306)

A home action judges the granule of its home in `consume`, and a VLD the granule of each element in `readStrip`. -/

namespace Sys2Proof.Machine

/-! ### Home actions (R306) -/

section Home

variable {s : State} {f : Fields} {kind : PeerKind} {op : BitVec 8} {n pa : Nat} {regs : List GReg}

theorem homeHere_of_granule_error {e : Entry} {x : Flt} (hret : returns kind = true)
    (hx : consume s e f (s.homeLoad pa (homeSize kind f.fn.toNat)).2.1 (s.homeLoad pa (homeSize kind f.fn.toNat)).2.2 = .error x) :
    homeHere kind f e s pa = .error x := by
  unfold homeHere
  simp only [hret, hx, if_true, bind, Except.bind]

/-- A home action on `n` bytes is served as soon as it is fetched, its home lies on this device, at `pa`, and its registers do not
trap (R304). -/
def State.HomeFound (s : State) (f : Fields) (pa : Nat) (op : BitVec 8) (n : Nat) (acc : Access) (regs : List GReg) : Prop :=
  s.serves op f ∧ (s.me.getG f.a.toNat).val.toNat % n = 0 ∧ (s.me.getG f.a.toNat).val.toNat < 2 ^ 56 ∧
    s.translate s.vd acc (s.me.getG f.a.toNat).val.toNat = .ok pa ∧
    s.consumes (s.capture op f) f (regs.any GReg.taint) (regs.any GReg.poison)

/-- What stops a home action in the granule of its home: TNT at taint, then the POISON trap at poison (R306). -/
def State.granuleTraps (s : State) (i : Instr) (op : BitVec 8) (f : Fields) (pa : Nat) : Prop :=
  (trapsTaint f = true → s.memTaint.contains (pa / 32) = true →
    exec i s = .next ((s.entered op f).arrayFault (s.capture op f) { cause := cTAINT })) ∧
  ((trapsTaint f = true → s.memTaint.contains (pa / 32) = false) → s.poisonTrap = true →
    s.memPoison.contains (pa / 32) = true →
    exec i s = .next ((s.entered op f).arrayFault (s.capture op f) { cause := cPOISON }))

/-- A home action that returns its value judges the granule of its home before any effect. -/
theorem serveHome_of_granule_error {x : Flt} (h : s.HomeFound f pa op n (homeAccess kind) regs)
    (hga : (s.capture op f).ga = s.me.getG f.a.toNat) (hregs : homeRegs kind f (s.capture op f) = regs)
    (hn : homeSize kind f.fn.toNat = n) (hret : returns kind = true)
    (hx : ∀ fl, consume ((s.entered op f).raise fl) (s.capture op f) f (s.memTaint.contains (pa / 32))
      (s.memPoison.contains (pa / 32)) = .error x) :
    serveHome kind f (s.capture op f) (s.entered op f) = .stop (s.entered op f) x := by
  obtain ⟨⟨-, -, hwork, -, hawait, -⟩, ha, hva, hpa, hc⟩ := h
  have hsight := s.sameSight_entered op f
  have howes : ((homeOrder kind f).1.map fun sc => (s.entered op f).owes sc).getD false = false := by
    cases (homeOrder kind f).1 with
    | none => rfl
    | some sc => exact State.owes_of_no_work hwork sc
  have hcheck := consume_of_consumes hc hsight.poisonTrap
  have htarget := homeTarget_here (fab := true) ha hva ((hsight.translate s.vd _ _ _).trans hpa)
  have hhere : homeHere kind f (s.capture op f) ((s.entered op f).raise (flagIf (regs.any GReg.poison) flPSN)) pa = .error x :=
    homeHere_of_granule_error hret (hn ▸ hx _)
  unfold serveHome regCheck
  simp only [show (s.entered op f).me.awaiting = false from hawait, howes, hregs, hga, hcheck, hn, htarget, hhere,
    Bool.false_eq_true, if_false, bind, Except.bind, pure, Except.pure]

theorem granuleTraps_of_serveHome {i : Instr} (hop : op ≠ 0x42) (hexec : exec i s = runArray op f s (serveHome kind f))
    (hga : (s.capture op f).ga = s.me.getG f.a.toNat) (hregs : homeRegs kind f (s.capture op f) = regs)
    (hn : homeSize kind f.fn.toNat = n) (hret : returns kind = true) (h : s.HomeFound f pa op n (homeAccess kind) regs) :
    s.granuleTraps i op f pa := by
  have hstop {x : Flt} (hx : ∀ fl, consume ((s.entered op f).raise fl) (s.capture op f) f (s.memTaint.contains (pa / 32))
      (s.memPoison.contains (pa / 32)) = .error x) :
      exec i s = .next ((s.entered op f).arrayFault (s.capture op f) x) := by
    rw [hexec, runArray_of_serves h.1 hop, serveHome_of_granule_error h hga hregs hn hret hx]
    rfl
  obtain ⟨-, -, -, -, hc, -⟩ := h
  refine ⟨fun htnt hgt => hstop fun fl => consume_of_taint htnt ?_, fun hgt htrap hgp => hstop fun fl => ?_⟩
  · rw [hgt]
    rfl
  · refine consume_of_poison (fun htnt => ?_) htrap hgp
    obtain ⟨-, hgv, hqt⟩ := hc htnt
    rw [hgt htnt, hgv, hqt]
    rfl

theorem exec_lda_traps (h : s.HomeFound f pa 0x92 (if f.fn.getLsbD 2 then 4 else 8) .rd [s.me.getG f.a.toNat]) :
    s.granuleTraps (.lda f) 0x92 f pa := by
  have hga : (s.capture 0x92 f).ga = s.me.getG f.a.toNat := capture_ga rfl (by decide) (by decide) rfl
  exact granuleTraps_of_serveHome (kind := .lda) (by decide) (by dsimp only [exec, execLda]) hga (congrArg (fun r => [r]) hga)
    rfl rfl h

/-- CAS reads a third register (R309). -/
theorem homeRegs_amo : homeRegs .amo f (s.capture 0x93 f) = if f.fn.toNat / 32 = 7 then
    [s.me.getG f.a.toNat, s.me.getG f.b.toNat, s.me.getG f.c.toNat] else [s.me.getG f.a.toNat, s.me.getG f.b.toNat] := by
  have hga : (s.capture 0x93 f).ga = s.me.getG f.a.toNat := capture_ga rfl (by decide) (by decide) rfl
  have hgb : (s.capture 0x93 f).gb = s.me.getG f.b.toNat := capture_gb rfl (by decide) rfl
  rw [homeRegs, bits_seven_five, hga, hgb]
  by_cases h7 : f.fn.toNat / 32 = 7
  · have hgc : (s.capture 0x93 f).gc = s.me.getG f.c.toNat :=
      capture_gc rfl (by decide) (by simp only [bits_seven_five, h7, beq_self_eq_true, if_true])
    simp only [h7, hgc, beq_self_eq_true, if_true]
  · simp only [h7, beq_iff_eq, if_false]

theorem exec_amo_traps (h : s.HomeFound f pa 0x93 (if f.fn.getLsbD 2 then 4 else 8) .rw (if f.fn.toNat / 32 = 7 then
      [s.me.getG f.a.toNat, s.me.getG f.b.toNat, s.me.getG f.c.toNat] else [s.me.getG f.a.toNat, s.me.getG f.b.toNat])) :
    s.granuleTraps (.amo f) 0x93 f pa :=
  granuleTraps_of_serveHome (kind := .amo) (by decide) (by dsimp only [exec, execAmo])
    (capture_ga rfl (by decide) (by decide) rfl) homeRegs_amo rfl rfl h

theorem exec_amof_traps (h : s.HomeFound f pa 0x94 4 .rw [s.me.getG f.a.toNat, s.me.getG f.b.toNat]) :
    s.granuleTraps (.amof f) 0x94 f pa := by
  have hga : (s.capture 0x94 f).ga = s.me.getG f.a.toNat := capture_ga rfl (by decide) (by decide) rfl
  have hgb : (s.capture 0x94 f).gb = s.me.getG f.b.toNat := capture_gb rfl (by decide) rfl
  exact granuleTraps_of_serveHome (kind := .amof) (by decide) (by dsimp only [exec, execAmof]) hga (by rw [← hga, ← hgb]; rfl)
    rfl rfl h

end Home

/-! ### The elements of a strip (R198 to R201) -/

section Strip

variable {s : State} {e : Entry} {f : Fields} {z n : Nat} {act : Nat → Bool} {addr : Nat → Option Int} {fill : Nat}
  {x : Nat → Nat × Bool × Bool} {k : Nat}

/-- One position of the walk that `readStrip` makes over the elements of a strip. -/
def stripStep (s : State) (e : Entry) (f : Fields) (z : Nat) (act : Nat → Bool) (addr : Nat → Option Int) (fill : Nat)
    (acc : Walked) (i : Nat) : Walked :=
  let stop (x : Flt) : Walked := { acc with els := none :: acc.els, stopped := some x }
  let pass (x : Option Elt) : Walked := { acc with els := x :: acc.els, passed := i + 1 }
  if acc.stopped.isSome then { acc with els := none :: acc.els }
  else if !act i then pass none
  else
    match addr i with
    | none => pass (some { val := fill, taint := gvTainted e, poison := gvPoisoned e })
    | some ba =>
      match atElement ba (s.readElem s.vd ba z) with
      | .error x => stop x
      | .ok r =>
        if trapsTaint f && r.2.1 then stop { cause := cTAINT }
        else pass (some { val := r.1, taint := r.2.1 || gvTainted e, poison := r.2.2 || gvPoisoned e })

theorem readStrip_succ :
    readStrip s e f z (n + 1) act addr fill = stripStep s e f z act addr fill (readStrip s e f z n act addr fill) n := by
  have hfold (m : Nat) : readStrip s e f z m act addr fill = (List.range m).foldl (stripStep s e f z act addr fill) {} := rfl
  rw [hfold, hfold, List.range_succ, List.foldl_append, List.foldl_cons, List.foldl_nil]

section Step

variable {acc : Walked} {ba : Int} {r : Nat × Bool × Bool}

/-- A walk that has stopped passes no further element. -/
theorem stripStep_of_stopped (h : acc.stopped.isSome = true) :
    stripStep s e f z act addr fill acc n = { acc with els := none :: acc.els } := by
  simp only [stripStep, h, if_true]

theorem stripStep_of_inactive (h : acc.stopped = none) (hact : act n = false) :
    stripStep s e f z act addr fill acc n = { acc with els := none :: acc.els, passed := n + 1 } := by
  simp only [stripStep, h, hact, Option.isSome_none, Bool.not_false, Bool.false_eq_true, if_false, if_true]

/-- An active element outside the extents takes the fill value (R198). -/
theorem stripStep_of_outside (h : acc.stopped = none) (hact : act n = true) (haddr : addr n = none) :
    stripStep s e f z act addr fill acc n = { acc with
      els := some { val := fill, taint := gvTainted e, poison := gvPoisoned e } :: acc.els, passed := n + 1 } := by
  simp only [stripStep, h, hact, haddr, Option.isSome_none, Bool.not_true, Bool.false_eq_true, if_false]

/-- An active element that is read and does not trap is taken. -/
theorem stripStep_of_read (h : acc.stopped = none) (hact : act n = true) (haddr : addr n = some ba)
    (hread : s.readElem s.vd ba z = .ok r) (htaint : (trapsTaint f && r.2.1) = false) :
    stripStep s e f z act addr fill acc n = { acc with
      els := some { val := r.1, taint := r.2.1 || gvTainted e, poison := r.2.2 || gvPoisoned e } :: acc.els
      passed := n + 1 } := by
  simp only [stripStep, h, hact, haddr, hread, htaint, atElement, Option.isSome_none, Bool.not_true, Bool.false_eq_true, if_false]

/-- Under TNT an active element of a tainted granule stops the walk with TAINT (R100). -/
theorem stripStep_of_taint (h : acc.stopped = none) (hact : act n = true) (haddr : addr n = some ba)
    (hread : s.readElem s.vd ba z = .ok r) (htaint : (trapsTaint f && r.2.1) = true) :
    stripStep s e f z act addr fill acc n = { acc with els := none :: acc.els, stopped := some { cause := cTAINT } } := by
  simp only [stripStep, h, hact, haddr, hread, htaint, atElement, Option.isSome_none, Bool.not_true, Bool.false_eq_true, if_false,
    if_true]

end Step

/-- What position `j` takes where the captured registers and the granules read are untainted: none where it is inactive. -/
def loadedElt (e : Entry) (act : Nat → Bool) (addr : Nat → Option Int) (fill : Nat) (x : Nat → Nat × Bool × Bool) (j : Nat) :
    Option Elt :=
  if !act j then none
  else if (addr j).isNone then some { val := fill, poison := gvPoisoned e }
  else some { val := (x j).1, poison := (x j).2.2 || gvPoisoned e }

/-- Elements of untainted granules are loaded one after another. -/
theorem readStrip_of_untainted (hgv : gvTainted e = false)
    (hread : ∀ j < n, act j = true → ∀ ba, addr j = some ba → s.readElem s.vd ba z = .ok (x j) ∧ (x j).2.1 = false) :
    (readStrip s e f z n act addr fill).els.reverse = (List.range n).map (loadedElt e act addr fill x) ∧
      (readStrip s e f z n act addr fill).stopped = none := by
  induction n with
  | zero => exact ⟨rfl, rfl⟩
  | succ n ih =>
    obtain ⟨hels, hstopped⟩ := ih fun j hj => hread j (hj.trans n.lt_succ_self)
    cases hact : act n with
    | false =>
      rw [readStrip_succ, stripStep_of_inactive hstopped hact]
      simp [hels, hstopped, List.range_succ, loadedElt, hact]
    | true =>
      cases haddr : addr n with
      | none =>
        rw [readStrip_succ, stripStep_of_outside hstopped hact haddr]
        simp [hels, hstopped, List.range_succ, loadedElt, hact, haddr, hgv]
      | some ba =>
        obtain ⟨hr, ht⟩ := hread n n.lt_succ_self hact ba haddr
        rw [readStrip_succ, stripStep_of_read hstopped hact haddr hr (by rw [ht, Bool.and_false])]
        simp [hels, hstopped, List.range_succ, loadedElt, hact, haddr, hgv, ht]

/-- Under TNT the walk stops at the first element of a tainted granule, and later positions fare as inactive ones (R100, R201). -/
theorem readStrip_of_tainted_at (htnt : trapsTaint f = true) (hgv : gvTainted e = false) (hk : k < n) (hact : act k = true)
    (haddr : (addr k).isSome = true)
    (hread : ∀ j ≤ k, act j = true → ∀ ba, addr j = some ba → s.readElem s.vd ba z = .ok (x j) ∧ (x j).2.1 = decide (j = k)) :
    (readStrip s e f z n act addr fill).els.reverse =
        (List.range n).map (fun j => if j < k then loadedElt e act addr fill x j else none) ∧
      (readStrip s e f z n act addr fill).stopped = some { cause := cTAINT } := by
  induction n, hk using Nat.le_induction with
  | base =>
    obtain ⟨hels, hstopped⟩ := readStrip_of_untainted (s := s) (f := f) (z := z) (n := k) (fill := fill) (x := x) hgv
      fun j hj ha ba hb => by
        obtain ⟨hr, ht⟩ := hread j hj.le ha ba hb
        exact ⟨hr, ht.trans (decide_eq_false hj.ne)⟩
    obtain ⟨ba, hba⟩ := Option.isSome_iff_exists.mp haddr
    obtain ⟨hr, ht⟩ := hread k le_rfl hact ba hba
    rw [readStrip_succ, stripStep_of_taint hstopped hact hba hr (by rw [htnt, ht, decide_eq_true rfl, Bool.and_self])]
    refine ⟨?_, rfl⟩
    rw [List.reverse_cons, hels, List.range_succ, List.map_append, List.map_singleton, if_neg (lt_irrefl k)]
    congr 1
    exact List.map_congr_left fun j hj => (if_pos (List.mem_range.mp hj)).symm
  | succ n hn ih =>
    obtain ⟨hels, hstopped⟩ := ih
    rw [readStrip_succ, stripStep_of_stopped (by rw [hstopped]; rfl)]
    refine ⟨?_, hstopped⟩
    rw [List.reverse_cons, hels, List.range_succ, List.map_append, List.map_singleton, if_neg (by omega)]

/-- Under TNT a VLD of a format without scales, all of whose checks pass, stops at its first element of a tainted granule, and has
loaded the elements before it (R100, R201). -/
theorem loadStrip_of_tainted_at {p : Strip} (hstrip : stripOf s e f = .ok (p, .ok ()))
    (hmasks : checkMasks s e f e.strip = .ok ()) (hcount : count e.strip ≤ capacity e.grows.toNat (Fmt.size f.fmt.toNat))
    (hkb : Fmt.isK f.fmt.toNat = false) (htnt : trapsTaint f = true) (hgv : gvTainted e = false) (hqt : e.qt = 0)
    (hm : s.masksTainted e f = false) (htrap : s.poisonTrap = false) (hk : k < count e.strip)
    (hact : isActive s e f e.strip k = true) (haddr : (p.addr k).isSome = true)
    (hread : ∀ j ≤ k, isActive s e f e.strip j = true → ∀ ba, p.addr j = some ba →
      s.readElem s.vd ba (Fmt.size f.fmt.toNat) = .ok (x j) ∧ (x j).2.1 = decide (j = k)) :
    ∃ fl, loadStrip e f s = .stop ((s.raise fl).setV f.d.toNat ((s.me.getV f.d.toNat).write (Fmt.size f.fmt.toNat) e.strip
      ((List.range (count e.strip)).map fun j =>
        if j < k then loadedElt e (isActive s e f e.strip) p.addr p.fill x j else none))) { cause := cTAINT } := by
  obtain ⟨hels, hstopped⟩ := readStrip_of_tainted_at (fill := p.fill) htnt hgv hk hact haddr hread
  unfold loadStrip
  simp only [hstrip, hmasks, hcount, hkb, hgv, hqt, hm, htrap, hstopped, hels, require, decide_true, bne_self_eq_false,
    Bool.or_self, Bool.and_false, Bool.not_false, Bool.false_and, Bool.true_or, Bool.and_self, Bool.false_eq_true, if_true,
    if_false, bind, Except.bind, pure, Except.pure]
  exact ⟨_, rfl⟩

end Strip

/-! ### The obligation -/

/-- Settles O25. A scalar word judges its registers in `runScalar` and LD its granules in `memSource`; an elementwise word judges
the positions of its result (`trapsV_of_elementwise`), a home action the granule of its home (`granuleTraps_of_serveHome`), and a VLD
each element as its walk comes to it (`readStrip_of_tainted_at`). -/
theorem taintAndPoisonFaults : Obligations.TaintAndPoisonFaults := by
  refine ⟨fun f s => ⟨scalarTraps_twoRegisters, scalarTraps_oneRegister, scalarTraps_stackPointer, scalarTraps_ffma, scalarTraps_st,
      scalarTraps_qop, scalarTraps_sel, fun x hacts halign hlt hload => exec_ld_traps ⟨hacts, halign, hlt, hload⟩⟩,
    fun f s => ⟨trapsV_runArith (by decide) (by dsimp only [exec, execVadd]),
      trapsV_runArith (by decide) (by dsimp only [exec, execVsub]),
      trapsV_runArith (by decide) (by dsimp only [exec, execVmul]),
      trapsV_runArith (by decide) (by dsimp only [exec, execVfma]),
      trapsV_runArith (by decide) (by dsimp only [exec, execVdiv]),
      trapsV_runArith (by decide) (by dsimp only [exec, execVmin]),
      trapsV_runArith (by decide) (by dsimp only [exec, execVmax]),
      trapsV_runBits (by decide) (by dsimp only [exec, execVand]),
      trapsV_runBits (by decide) (by dsimp only [exec, execVor]),
      trapsV_runBits (by decide) (by dsimp only [exec, execVxor]),
      trapsV_runArith1 (by decide) (by dsimp only [exec, execVsqrt]),
      trapsV_runArith1 (by decide) (by dsimp only [exec, execVabs]),
      trapsV_runArith1 (by decide) (by dsimp only [exec, execVneg]),
      trapsV_vnot⟩,
    fun f s pa => ⟨fun h ha hva hpa hc => exec_lda_traps ⟨h, ha, hva, hpa, hc⟩,
      fun h ha hva hpa hc => exec_amo_traps ⟨h, ha, hva, hpa, hc⟩, fun h ha hva hpa hc => exec_amof_traps ⟨h, ha, hva, hpa, hc⟩⟩, ?_⟩
  intro i f s p x k e z sh act els hi hserves hstrip hmasks hcount hkb htnt hgv hqt hm htrap hk hact haddr hread
  have hexec : exec i s = runArray 0x41 f s (loadStrip · f ·) := by
    rcases hi with rfl | rfl
    · exact exec_vldTid
    · dsimp only [exec, execVldPtr]
  have hels : els = (List.range (count sh)).map fun j => if j < k then loadedElt e act p.addr p.fill x j else none :=
    List.map_congr_left fun j _ => by by_cases hj : j < k <;> simp [hj, loadedElt]
  obtain ⟨fl, hload⟩ := loadStrip_of_tainted_at (s := s.entered 0x41 f) (e := e) (x := x) hstrip hmasks hcount hkb htnt hgv hqt
    hm htrap hk hact haddr fun j hj ha ba hb =>
      ((s.sameSight_entered 0x41 f).readElem rfl rfl _ _ _).symm ▸ hread j hj ha ba hb
  rw [hexec, runArray_of_serves hserves (by decide), hload, hels]
  exact ⟨_, rfl, rfl, rfl, rfl, rfl⟩

end Sys2Proof.Machine
end

section
/-! ## Array instructions, elementwise (spec 10): results of an array-class word

An array-class word that is served as soon as it is fetched retires with the registers that its body leaves (`runArray_retires`): an
array register (`runArray_takesV`), a mask (`runArray_takesM`) or a general register (`runArray_takesG`). -/

namespace Sys2Proof.Machine

theorem require_of {c : Bool} (h : c = true) (cause : Nat) : require c cause = .ok () := require_ok.mpr h

section Results

variable {s : State} {op : BitVec 8} {f : Fields} {body : Entry → State → Served} {m : Strand}

/-- A word whose body leaves the strand's registers as in `m`, and all else as it was, retires so (R13). -/
theorem runArray_retires (h : s.serves op f) (hop : op ≠ 0x42) (hwork : m.work = []) (hplace : m.place = s.me.place)
    (hbody : body (s.capture op f) (s.entered op f) = .done (s.enteredAs op f m)) :
    runArray op f s body = .next (s.retires m) := by
  rw [runArray_of_serves h hop, hbody]
  exact congrArg _ (State.enteredAs_close hwork hplace _)

/-- A word whose body commits to an array register that may be written. -/
theorem runArray_takesV {d z : Nat} {sh : List Nat} {els : List (Option Elt × Flags)} (h : s.serves op f) (hop : op ≠ 0x42)
    (haccept : s.acceptsV (s.capture op f) f d z els)
    (hbody : body (s.capture op f) (s.entered op f) =
      Served.ofR (s.entered op f) (commitV (s.entered op f) (s.capture op f) f d z sh els)) :
    runArray op f s body = .next (s.retires (s.me.takesV d z sh els)) := by
  refine runArray_retires h hop h.2.2.1 rfl ?_
  rw [hbody, commitV_of_accepts (u := s.entered op f) haccept rfl rfl rfl]
  rfl

/-- What a write of a mask leaves of the strand, once the flags of its positions are raised (R41, R191). -/
theorem Strand.setM_eq_takesM (m : Strand) (d : Nat) (new : MReg) (psn fl : Flags) :
    ((m.raise psn).raise fl).setM d new = m.takesM d new (fl ||| psn) := by
  unfold Strand.setM Strand.takesM Strand.raise Strand.flagged
  by_cases hd : d = 0
  · simp [hd, flagIf, flagged_or, Nat.or_comm psn fl]
  · simp [hd, bne_iff_ne.mpr hd, flagged_or, Nat.or_comm psn fl]

/-- The same for a general register. -/
theorem Strand.setG_eq_takesG (m : Strand) (d : Nat) (x : Elt) (fl : Flags) :
    ((m.raise (flagIf x.poison flPSN)).raise fl).setG d { val := BitVec.ofNat 64 x.val, taint := x.taint, poison := x.poison } =
      m.takesG d x fl := by
  unfold Strand.setG Strand.takesG Strand.raise Strand.flagged
  by_cases hd : d = 0
  · simp [hd, flagIf, flagged_or, Nat.or_comm fl]
  · simp [hd, bne_iff_ne.mpr hd, flagged_or, Nat.or_comm fl]

/-- A word whose body consumes untrapped sources and then writes a mask. -/
theorem runArray_takesM {d : Nat} {new : MReg} {tainted poisoned : Bool} {fl : Flags} (h : s.serves op f) (hop : op ≠ 0x42)
    (hc : s.consumes (s.capture op f) f tainted poisoned)
    (hbody : body (s.capture op f) (s.entered op f) = Served.ofR (s.entered op f) (do
      let t ← consume (s.entered op f) (s.capture op f) f tainted poisoned
      return (t.raise fl).setM d new)) :
    runArray op f s body = .next (s.retires (s.me.takesM d new (fl ||| flagIf poisoned flPSN))) := by
  refine runArray_retires h hop h.2.2.1 rfl ?_
  rw [hbody, consume_of_consumes hc (s.sameSight_entered op f).poisonTrap]
  exact congrArg Served.done (congrArg (fun m => { s with me := m }) (Strand.setM_eq_takesM _ _ _ _ _))

/-- A word whose body commits to a general register that may be written. -/
theorem runArray_takesG {d : Nat} {x : Elt} (h : s.serves op f) (hop : op ≠ 0x42)
    (hc : s.consumes (s.capture op f) f x.taint x.poison)
    (hbody : body (s.capture op f) (s.entered op f) =
      Served.ofR (s.entered op f) (commitG (s.entered op f) (s.capture op f) f d x)) :
    runArray op f s body = .next (s.retires (s.me.takesG d x 0)) := by
  refine runArray_retires h hop h.2.2.1 rfl ?_
  unfold commitG at hbody
  rw [hbody, consume_of_consumes hc (s.sameSight_entered op f).poisonTrap]
  exact congrArg Served.done (congrArg (fun m => { s with me := m }) (Strand.setG_eq_takesG _ _ _ _))

end Results

end Sys2Proof.Machine
end

section
/-! ## Array instructions, elementwise (spec 10): arithmetic, logic, compares, selection, fills and moves (R204 to R211) -/

namespace Sys2Proof.Machine

/-! ### Arithmetic and logic (R207, R208) -/

section Elementwise

variable {s : State} {f : Fields} {i : Instr} {op : BitVec 8} {z n : Nat}

theorem resultPieces_congr {e : Entry} {srcs : List Source} {fc : List Nat × List Nat} {g g' : Nat → List Elt → Elt × Flags}
    (h : ∀ k, g k (elemsAt f.rk.toNat fc srcs k) = g' k (elemsAt f.rk.toNat fc srcs k)) :
    resultPieces s e f srcs fc g = resultPieces s e f srcs fc g' := by
  unfold resultPieces
  exact List.map_congr_left fun k _ => by rw [h k]

/-- An elementwise word writes `g` of its operands, where that is what its body computes from the elements that R54 selects. -/
theorem givesV_of_elementwise {srcs : Entry → List (Source × Nat)} {g : Entry → Nat → List Elt → Nat × Flags}
    {g' : Entry → Nat → List Elt → Elt × Flags} {body : Entry → State → Served} (hop : op ≠ 0x42)
    (hexec : exec i s = runArray op f s body)
    (hbody : body (s.capture op f) (s.entered op f) = Served.ofR (s.entered op f)
      (elementwise (s.entered op f) (s.capture op f) f z (srcs (s.capture op f)) false (g' (s.capture op f))))
    (hg : ∀ e fc k, let xs := elemsAt f.rk.toNat fc ((srcs e).map fun p => p.1) k
      g' e k xs = (eltOf (g e k xs).1 xs, (g e k xs).2)) : givesV i op f s z srcs g := by
  intro fc e els hserves hagree haccept
  rw [hexec]
  refine runArray_takesV hserves hop haccept ?_
  rw [hbody, elementwise_of_agree (u := s.entered op f) hagree]
  exact congrArg (fun els => Served.ofR (s.entered op f) (commitV (s.entered op f) e f f.d.toNat z (fc.1 ++ fc.2) els))
    (resultPieces_congr (s := s) fun k => hg e fc k)

/-- The operation of an arithmetic word on the elements of its sources. -/
def arithOf (o : ArOp) (f : Fields) (e : Entry) (k : Nat) (xs : List Elt) : Nat × Flags :=
  arithElem o (e.mode f f.fmt.toNat k) (nth xs 0).val (nth xs 1).val (nth xs 2).val

theorem givesV_runArith {o : ArOp} (hop : op ≠ 0x42) (h : exec i s = runArith o n op f s) :
    givesV i op f s (Fmt.size f.fmt.toNat) (fun e => kindSources s e f (Fmt.size f.fmt.toNat) n) (arithOf o f) :=
  givesV_of_elementwise
    (g' := fun e k xs => (eltOf (arithOf o f e k xs).1 xs, (arithOf o f e k xs).2)) hop h rfl fun _ _ _ => rfl

theorem givesV_runArith1 {o : ArOp} (hop : op ≠ 0x42) (h : exec i s = runArith1 o op f s) :
    givesV i op f s (Fmt.size f.fmt.toNat)
      (fun _ => [((s.me.getV f.a.toNat).source (Fmt.size f.fmt.toNat), Fmt.size f.fmt.toNat)]) (arithOf o f) :=
  givesV_of_elementwise (g' := fun e k xs =>
      (eltOf (arithElem o (e.mode f f.fmt.toNat k) (nth xs 0).val 0 0).1 xs,
        (arithElem o (e.mode f f.fmt.toNat k) (nth xs 0).val 0 0).2))
    hop h rfl fun _ _ _ => rfl

/-- A bitwise or shift word: `g` of the two elements, cut to the element's size, and no flag. -/
theorem givesV_runBits {g : Nat → Nat → Nat → Nat} {g' : Nat → Nat → Nat} (hop : op ≠ 0x42) (h : exec i s = runBits n op f s g)
    (hg : ∀ a b, g (Fmt.size f.fmt.toNat) a b = g' a b) :
    givesV i op f s (Fmt.size f.fmt.toNat) (fun e => kindSources s e f (Fmt.size f.fmt.toNat) n)
      (fun _ _ xs => (g' (nth xs 0).val (nth xs 1).val % 2 ^ Fmt.size f.fmt.toNat, 0)) :=
  givesV_of_elementwise (g' := fun _ _ xs =>
      (eltOf (g (Fmt.size f.fmt.toNat) (nth xs 0).val (nth xs 1).val % 2 ^ Fmt.size f.fmt.toNat) xs, 0))
    hop h rfl fun _ _ _ => by dsimp only; rw [hg]

theorem VReg.elem_val_lt (v : VReg) (z k : Nat) : (v.elem z k).val < 2 ^ z := Nat.mod_lt _ (Nat.two_pow_pos z)

/-- The complement of `z` bits. -/
theorem allOnes_xor {z x : Nat} (h : x < 2 ^ z) : (2 ^ z - 1) ^^^ x = 2 ^ z - 1 - x := by
  apply Nat.eq_of_testBit_eq
  intro j
  rw [Nat.testBit_xor, Nat.testBit_two_pow_sub_one, show 2 ^ z - 1 - x = 2 ^ z - (x + 1) by omega,
    Nat.testBit_two_pow_sub_succ h]
  by_cases hj : j < z
  · simp [hj]
  · simp [hj, Nat.testBit_lt_two_pow (h.trans_le (Nat.pow_le_pow_right (by decide) (not_lt.mp hj)))]

theorem givesV_vnot : givesV (.vnot f) 0x53 f s (Fmt.size f.fmt.toNat)
    (fun _ => [((s.me.getV f.a.toNat).source (Fmt.size f.fmt.toNat), Fmt.size f.fmt.toNat)])
    (fun _ _ xs => (2 ^ Fmt.size f.fmt.toNat - 1 - (nth xs 0).val, 0)) :=
  givesV_of_elementwise (g' := fun _ _ xs => (eltOf ((2 ^ Fmt.size f.fmt.toNat - 1) ^^^ (nth xs 0).val) xs, 0))
    (by decide) (by dsimp only [exec, execVnot]) rfl fun _ fc k => by
      dsimp only
      rw [allOnes_xor]
      exact VReg.elem_val_lt _ _ _

/-- A shift to the right is a division; FN[3] makes it one of the signed value (R207). -/
theorem shiftRight_elem (signed : Bool) (z a b : Nat) :
    (if signed then lowBits z (toSigned z a >>> (b % z)) else a >>> (b % z)) =
      if signed then (toSigned z a / 2 ^ (b % z) % 2 ^ z).toNat else a / 2 ^ (b % z) := by
  unfold lowBits
  rw [Int.shiftRight_eq_div_pow, Nat.shiftRight_eq_div_pow]
  push_cast
  rfl

/-- Settles O26: an elementwise word whose operands agree comes to its result (`elementwise_of_agree`), and what each body computes
from the elements that R54 selects is the operation of its row. -/
theorem elementwiseArithmetic : Obligations.ElementwiseArithmetic := by
  intro f s
  exact ⟨givesV_runArith (by decide) (by dsimp only [exec, execVadd]),
    givesV_runArith (by decide) (by dsimp only [exec, execVsub]),
    givesV_runArith (by decide) (by dsimp only [exec, execVmul]),
    givesV_runArith (by decide) (by dsimp only [exec, execVfma]),
    givesV_runArith (by decide) (by dsimp only [exec, execVdiv]),
    givesV_runArith (by decide) (by dsimp only [exec, execVmin]),
    givesV_runArith (by decide) (by dsimp only [exec, execVmax]),
    givesV_runArith1 (by decide) (by dsimp only [exec, execVsqrt]),
    givesV_runArith1 (by decide) (by dsimp only [exec, execVabs]),
    givesV_runArith1 (by decide) (by dsimp only [exec, execVneg]),
    givesV_of_elementwise (g' := fun e k xs =>
        (eltOf (sfuElem f.fn.toNat (e.mode f f.fmt.toNat k) (nth xs 0).val).1 xs,
          (sfuElem f.fn.toNat (e.mode f f.fmt.toNat k) (nth xs 0).val).2))
      (by decide) (by dsimp only [exec, execVsfu]) rfl fun _ _ _ => rfl,
    givesV_runBits (by decide) (by dsimp only [exec, execVand]) fun _ _ => rfl,
    givesV_runBits (by decide) (by dsimp only [exec, execVor]) fun _ _ => rfl,
    givesV_runBits (by decide) (by dsimp only [exec, execVxor]) fun _ _ => rfl,
    givesV_runBits (g' := fun a b => a * 2 ^ (b % Fmt.size f.fmt.toNat)) (by decide) (by dsimp only [exec, execVshl])
      fun _ _ => Nat.shiftLeft_eq _ _,
    givesV_runBits (g' := fun a b => if f.fn.getLsbD 3 then
        (toSigned (Fmt.size f.fmt.toNat) a / 2 ^ (b % Fmt.size f.fmt.toNat) % 2 ^ Fmt.size f.fmt.toNat).toNat
        else a / 2 ^ (b % Fmt.size f.fmt.toNat))
      (by decide) (by dsimp only [exec, execVshr]) fun _ _ => shiftRight_elem _ _ _ _,
    givesV_vnot⟩

end Elementwise

/-! ### Compares and selection (R209, R210) -/

section Select

variable {s u : State} {e : Entry} {f : Fields} {z : Nat} {fc : List Nat × List Nat}

/-- Operands that agree let a word that writes a mask come to its result (R54, R57). -/
theorem elementwise_toMask_of_agree {srcs : List (Source × Nat)} {g : Nat → List Elt → Elt × Flags}
    (h : u.operandsAgree e f 1 srcs fc) :
    elementwise u e f z srcs true g =
      commitM u e f f.d.toNat (fc.1 ++ fc.2) (resultPieces u e f (srcs.map fun p => p.1) fc g) := by
  obtain ⟨hagree, hmasks, hfits, hrank, hcount⟩ := h
  have hloop := fitsSources_of_forall hfits
  have hcap : require (decide ((fc.1 ++ fc.2).length ≤ 4) && decide (count (fc.1 ++ fc.2) ≤ capacity e.grows.toNat 1)) cCAPACITY =
      .ok () := require_ok.mpr (by simp only [hrank, hcount, decide_true, Bool.and_self])
  unfold elementwise
  simp only [bind, Except.bind, pure, Except.pure] at hloop ⊢
  simp only [hagree, hmasks, hloop, if_true, hcap]
  rfl

/-- VCMP commits its compares to a mask (R209). -/
theorem exec_vcmp (hserves : s.serves 0x56 f)
    (hagree : s.operandsAgree (s.capture 0x56 f) f 1 (kindSources s (s.capture 0x56 f) f (Fmt.size f.fmt.toNat) 2) fc)
    {els : List (Option Elt × Flags)}
    (hels : els = resultPieces s (s.capture 0x56 f) f
      ((kindSources s (s.capture 0x56 f) f (Fmt.size f.fmt.toNat) 2).map fun p => p.1) fc fun _ xs =>
        let r := cmpElem f.fmt.toNat (bits f.fn.toNat 6 4) f.fsi (nth xs 0).val (nth xs 1).val
        (eltOf (b2n r.1) xs, r.2))
    (hc : s.consumes (s.capture 0x56 f) f ((els.filterMap fun p => p.1).any Elt.taint ||
      (!(els.filterMap fun p => p.1).isEmpty && s.masksTainted (s.capture 0x56 f) f)) ((els.filterMap fun p => p.1).any Elt.poison)) :
    exec (.vcmp f) s = .next (s.retires (s.me.takesM f.d.toNat
      ((s.me.getM f.d.toNat).write (fc.1 ++ fc.2) (els.map fun p => p.1))
      (piecesFlags els ||| flagIf ((els.filterMap fun p => p.1).any Elt.poison) flPSN))) := by
  dsimp only [exec, execVcmp]
  refine runArray_takesM hserves (by decide) hc ?_
  rw [show kindSources (s.entered 0x56 f) = kindSources s from rfl, elementwise_toMask_of_agree (u := s.entered 0x56 f) hagree, hels]
  rfl

theorem b2n_eq_toNat (b : Bool) : b2n b = b.toNat := by cases b <;> rfl

theorem bits_six_four (x : Nat) : bits x 6 4 = x / 16 % 8 := bits_eq_div_mod x 6 4

/-- The sources of VSEL (R210). -/
def selSources (s : State) (e : Entry) (f : Fields) (z : Nat) : List (Source × Nat) :=
  [(pickSource s (bit f.fn.toNat 1) e.gb f.b.toNat z, z), (pickSource s (bit f.fn.toNat 2) e.gc f.c.toNat z, z)]

/-- VSEL commits the elements that its selector mask picks (R210). -/
theorem exec_vsel (hz : z = Fmt.size f.fmt.toNat) (hserves : s.serves 0x57 f)
    (hagree : s.operandsAgree (s.capture 0x57 f) f z (selSources s (s.capture 0x57 f) f z) fc)
    (hmask : maskAgrees s f.a.toNat (fc.1 ++ fc.2) = .ok ()) {els : List (Option Elt × Flags)}
    (hels : els = resultPieces s (s.capture 0x57 f) f ((selSources s (s.capture 0x57 f) f z).map fun p => p.1) fc fun k xs =>
      (if maskBit s f.a.toNat (unravel (fc.1 ++ fc.2) k) then nth xs 0 else nth xs 1, 0))
    (haccept : s.acceptsV (s.capture 0x57 f) f f.d.toNat z els) :
    exec (.vsel f) s = .next (s.retires (s.me.takesV f.d.toNat z (fc.1 ++ fc.2) els)) := by
  subst hz
  have hfc := hagree.1
  have helem := elementwise_of_agree (u := s.entered 0x57 f) (g := fun k xs =>
      (if maskBit s f.a.toNat (unravel (fc.1 ++ fc.2) k) then nth xs 0 else nth xs 1, 0)) hagree
  dsimp only [exec, execVsel]
  refine runArray_takesV hserves (by decide) haccept (congrArg (Served.ofR _) ?_)
  rw [hels]
  refine Eq.trans ?_ helem
  unfold selSources at hfc
  simp only [List.map_cons, List.map_nil] at hfc
  rw [show pickSource (s.entered 0x57 f) = pickSource s from rfl, show maskAgrees (s.entered 0x57 f) = maskAgrees s from rfl, hfc]
  simp only [bind, Except.bind, hmask] <;> rfl

/-- Settles O28: VCMP and VSEL are elementwise words, into a mask and into an array register. -/
theorem compareAndSelect : Obligations.CompareAndSelect := by
  intro f s fc z sh
  refine ⟨?_, ?_⟩
  · intro e srcs els act hserves hagree hc
    refine exec_vcmp hserves hagree ?_ hc
    simp only [els, b2n_eq_toNat, bits_six_four]
    rfl
  · intro e srcs els hserves hagree hmask haccept
    exact exec_vsel rfl hserves hagree hmask rfl haccept

end Select

/-! ### Fills and moves (R204 to R206, R211) -/

section Fills

variable {s : State} {f : Fields} {op : BitVec 8} {sh : List Nat} {z : Nat}

/-- A word that fills a shape from nothing but captured values, or copies or converts one register in its own shape: its checks of
masks and capacity come before what it commits (R56, R57). -/
theorem runArray_positions {body : Entry → State → Served} {g : Nat → Elt × Flags} {caps : Bool} (hserves : s.serves op f)
    (hop : op ≠ 0x42) (hmasks : checkMasks s (s.capture op f) f sh = .ok ()) (hcaps : caps = true)
    (haccept : s.acceptsV (s.capture op f) f f.d.toNat z (positions s (s.capture op f) f sh g))
    (hbody : body (s.capture op f) (s.entered op f) = Served.ofR (s.entered op f) (do
      checkMasks s (s.capture op f) f sh
      require caps cCAPACITY
      commitV (s.entered op f) (s.capture op f) f f.d.toNat z sh (positions s (s.capture op f) f sh g))) :
    runArray op f s body = .next (s.retires (s.me.takesV f.d.toNat z sh (positions s (s.capture op f) f sh g))) := by
  refine runArray_takesV hserves hop haccept ?_
  rw [hbody, hmasks, hcaps]
  rfl

/-- A word that fills the strip captures its extents (R197). -/
theorem capture_strip (h : readsStrip op.toNat f = true) (h4 : op ≠ 0xB4) (h5 : op ≠ 0xB5) (ha : op ≠ 0xBA) :
    (s.capture op f).strip = [s.me.rows.toNat, s.me.cols.toNat] := by
  have hne {n : BitVec 8} (hn : op ≠ n) : (op.toNat != n.toNat) = true := bne_iff_ne.mpr (mt BitVec.eq_of_toNat_eq hn)
  have hcols : (readsOf op.toNat f s.me.vcfg.toNat s.myLaunch.det).cols = true := by
    simp only [readsOf, h, Bool.and_eq_true]
    exact ⟨⟨⟨trivial, hne h4⟩, hne h5⟩, hne ha⟩
  have hrows : (readsOf op.toNat f s.me.vcfg.toNat s.myLaunch.det).rows = true := h
  simp only [Entry.strip, State.capture, hrows, hcols, keepIf, if_true]

/-- VIOTA counts from the STRIPB that it captured (R206). -/
theorem capture_viota_stripb : (s.capture 0x45 f).stripb = s.me.stripb := by
  have h : (readsOf 0x45 f s.me.vcfg.toNat s.myLaunch.det).stripb = true := by
    simp [readsOf]
  unfold State.capture
  exact congrArg (keepIf · s.me.stripb) h

/-- What VBC writes at every position (R204). -/
def broadcastElt (e : Entry) (z : Nat) : Elt := { val := e.ga.val.toNat % 2 ^ z, taint := e.ga.taint, poison := e.ga.poison }

/-- What VIOTA writes at position `k` (R206). -/
def iotaElem (e : Entry) (f : Fields) (stripb : Word) (k : Nat) : Elt × Flags :=
  let v : Int := ((stripb.toNat + k) % 2 ^ 64 : Nat)
  let r := if Fmt.isF f.fmt.toNat then roundFull (fparam f.fmt.toNat) (e.rnd f k) false false (.ofInt v)
    else reduceInt f.fmt.toNat f.sat v
  ({ val := r.1 }, r.2)

/-- What VCVT writes at position `k` (R211). -/
def convertElem (e : Entry) (f : Fields) (v : VReg) (k : Nat) : Elt × Flags :=
  let x := v.elem (Fmt.size f.fn.toNat) k
  let r := convElem f.fn.toNat f.fmt.toNat (e.rnd f k) f.fsi f.fso f.sat x.val
  ({ x with val := r.1 }, r.2)

/-- Settles O29: each word commits its positions in its shape once masks agree and the counts fit. -/
theorem fillsAndMoves : Obligations.FillsAndMoves := by
  intro f s fmt z strip va run
  refine ⟨?_, ?_, ?_, ?_⟩
  · intro hserves hmasks _ hz haccept
    dsimp only [exec, execVbc]
    refine runArray_positions (g := fun _ => (broadcastElt (s.capture 0x43 f) z, 0)) hserves (by decide) hmasks (decide_eq_true hz)
      haccept ?_
    rw [fillStrip, capture_strip rfl (by decide) (by decide) (by decide)]
    rfl
  · intro hserves hmasks _ hz haccept
    dsimp only [exec, execViota]
    refine runArray_positions (g := iotaElem (s.capture 0x45 f) f s.me.stripb) hserves (by decide) hmasks (decide_eq_true hz)
      haccept ?_
    rw [fillStrip, capture_strip rfl (by decide) (by decide) (by decide), capture_viota_stripb]
    rfl
  · intro hserves hmasks _ hz haccept
    dsimp only [exec, execVmov]
    exact runArray_positions (g := fun k => (va.elem z k, 0)) hserves (by decide) hmasks (decide_eq_true hz) haccept rfl
  · intro hserves hmasks hzs hz haccept
    dsimp only [exec, execVcvt]
    exact runArray_positions (g := convertElem (s.capture 0x58 f) f va) hserves (by decide) hmasks
      ((Bool.and_eq_true _ _).mpr ⟨decide_eq_true hzs, decide_eq_true hz⟩) haccept rfl

end Fills

end Sys2Proof.Machine
end

section
/-! ## Array instructions, elementwise (spec 10): the recurrence along chains (R217) -/

namespace Sys2Proof.Machine

/-! ### Positions of chains -/

theorem foldl_mul_eq (sh : List Nat) (a : Nat) : sh.foldl (· * ·) a = a * count sh := by
  unfold count
  induction sh generalizing a with
  | nil => exact (Nat.mul_one a).symm
  | cons n sh ih => rw [List.foldl_cons, List.foldl_cons, ih, ih (1 * n), Nat.one_mul, Nat.mul_assoc]

theorem count_append (a b : List Nat) : count (a ++ b) = count a * count b := by
  rw [count, List.foldl_append, foldl_mul_eq]
  rfl

theorem count_cons (n : Nat) (sh : List Nat) : count (n :: sh) = n * count sh := by
  rw [count, List.foldl_cons, foldl_mul_eq, Nat.one_mul]

/-- The chains of a shape hold every element of it. -/
theorem count_chains (frame cell : List Nat) :
    count (frame ++ cell) = (chainsOf frame cell).nf * ((chainsOf frame cell).n * (chainsOf frame cell).nr) := by
  rw [count_append]
  cases cell with
  | nil => rfl
  | cons n r => rw [count_cons]; rfl

theorem chainsOf_nf (frame cell : List Nat) : (chainsOf frame cell).nf = count frame := by
  cases cell <;> rfl

section Chain

variable {c : Chains} {fr j r i : Nat}

theorem Chains.at_lt (hf : fr < c.nf) (hj : j < c.n) (hr : r < c.nr) : c.at fr j r < c.nf * (c.n * c.nr) := by
  unfold Chains.at
  calc (fr * c.n + j) * c.nr + r < (fr * c.n + j + 1) * c.nr := by rw [Nat.succ_mul]; omega
    _ ≤ (fr * c.n + c.n) * c.nr := Nat.mul_le_mul_right _ (by omega)
    _ = (fr + 1) * (c.n * c.nr) := by rw [← Nat.succ_mul, Nat.mul_assoc]
    _ ≤ c.nf * (c.n * c.nr) := Nat.mul_le_mul_right _ hf

/-- The frame position, the position along the chain, and the position in the rest of a cell, of an element. -/
theorem Chains.at_parts (hj : j < c.n) (hr : r < c.nr) :
    c.at fr j r / c.nr / c.n = fr ∧ c.at fr j r / c.nr % c.n = j ∧ c.at fr j r % c.nr = r := by
  have hdiv : c.at fr j r / c.nr = fr * c.n + j := by
    rw [Chains.at, Nat.mul_comm, Nat.mul_add_div (by omega), Nat.div_eq_of_lt hr, Nat.add_zero]
  refine ⟨?_, ?_, ?_⟩
  · rw [hdiv, Nat.mul_comm, Nat.mul_add_div (by omega), Nat.div_eq_of_lt hj, Nat.add_zero]
  · rw [hdiv, Nat.mul_comm, Nat.mul_add_mod, Nat.mod_eq_of_lt hj]
  · rw [Chains.at, Nat.mul_comm, Nat.mul_add_mod, Nat.mod_eq_of_lt hr]

/-- Every element stands in a chain. -/
theorem Chains.exists_at (h : i < c.nf * (c.n * c.nr)) :
    i / c.nr / c.n < c.nf ∧ i / c.nr % c.n < c.n ∧ i % c.nr < c.nr ∧ c.at (i / c.nr / c.n) (i / c.nr % c.n) (i % c.nr) = i := by
  have hn : 0 < c.n := Nat.pos_of_ne_zero fun h0 => by simp [h0] at h
  have hr : 0 < c.nr := Nat.pos_of_ne_zero fun h0 => by simp [h0] at h
  refine ⟨?_, Nat.mod_lt _ hn, Nat.mod_lt _ hr, ?_⟩
  · rw [Nat.div_div_eq_div_mul, Nat.mul_comm c.nr]
    exact Nat.div_lt_of_lt_mul (by rwa [Nat.mul_comm] at h)
  · rw [Chains.at, Nat.mul_comm _ c.n, Nat.div_add_mod, Nat.mul_comm _ c.nr, Nat.div_add_mod]

/-! ### The values along a chain -/

variable {act : Nat → Bool} {g : Nat → Elt → Elt × Flags}

/-- The value before position `j` of a chain: that of the last active position, 0 at first. -/
def carryAt (act : Nat → Bool) (g : Nat → Elt → Elt × Flags) : Nat → Elt
  | 0 => {}
  | j + 1 => if act j then (g j (carryAt act g j)).1 else carryAt act g j

/-- What position `j` of a chain takes: `g` of the value before, or nothing where it is inactive. -/
def chainPiece (act : Nat → Bool) (g : Nat → Elt → Elt × Flags) (j : Nat) : Option Elt × Flags :=
  if act j then (some (g j (carryAt act g j)).1, (g j (carryAt act g j)).2) else (none, 0)

/-- The value before a position is the value at the last active position before it (R217). -/
theorem carryAt_eq (j : Nat) : carryAt act g j = match ((List.range j).filter act).getLast? with
    | some k => (chainPiece act g k).1.getD {}
    | none => {} := by
  induction j with
  | zero => rfl
  | succ j ih =>
    rw [carryAt, List.range_succ, List.filter_append]
    cases h : act j with
    | true => simp [h, chainPiece]
    | false => simp [h, ih]

/-- One step of the walk along a chain whose position `j` is element `at_ j`. -/
def chainStep (at_ : Nat → Nat) (act : Nat → Bool) (g : Nat → Elt → Elt × Flags) (acc : Elt × List (Nat × Option Elt × Flags))
    (j : Nat) : Elt × List (Nat × Option Elt × Flags) :=
  if act j then ((g j acc.1).1, (at_ j, some (g j acc.1).1, (g j acc.1).2) :: acc.2) else (acc.1, (at_ j, none, 0) :: acc.2)

theorem foldl_chainStep (at_ : Nat → Nat) (n : Nat) : (List.range n).foldl (chainStep at_ act g) ({}, []) =
    (carryAt act g n, ((List.range n).map fun j => (at_ j, chainPiece act g j)).reverse) := by
  induction n with
  | zero => rfl
  | succ n ih =>
    rw [List.range_succ, List.foldl_append, ih, List.foldl_cons, List.foldl_nil, chainStep, List.map_append, List.reverse_append,
      carryAt]
    cases h : act n <;> simp [chainPiece, h]

end Chain

/-- A list of pairs whose second part is a function of the first. -/
theorem lookup_of_forall {β : Type} {G : Nat → β} {xs : List (Nat × β)} {i : Nat} (hG : ∀ p ∈ xs, p.2 = G p.1)
    (hi : ∃ p ∈ xs, p.1 = i) : xs.lookup i = some (G i) := by
  induction xs with
  | nil => obtain ⟨p, hp, -⟩ := hi; cases hp
  | cons p xs ih =>
    obtain ⟨k, y⟩ := p
    rw [List.lookup_cons]
    by_cases h : i = k
    · rw [beq_iff_eq.mpr h]
      rw [h]
      exact congrArg some (hG _ List.mem_cons_self)
    · rw [beq_eq_false_iff_ne.mpr h]
      refine ih (fun q hq => hG q (List.mem_cons_of_mem _ hq)) ?_
      obtain ⟨q, hq, hqi⟩ := hi
      rcases List.mem_cons.mp hq with rfl | hq
      · exact absurd hqi.symm h
      · exact ⟨q, hq, hqi⟩

/-! ### VRCR (R217) -/

theorem VReg.keepsPoison_of_judged (old : VReg) (z : Nat) (els : List (Option Elt)) {judged : Nat → Bool}
    (h : ∀ i < els.length, judged i = true) : old.keepsPoison z els judged = old.keepsPoison z els := by
  unfold VReg.keepsPoison
  rw [Bool.eq_iff_iff, List.any_eq_true, List.any_eq_true]
  refine exists_congr fun p => and_congr_right fun hp => ?_
  rw [h p.2 (List.snd_lt_of_mem_zipIdx hp)]

theorem commitV_of_judged (u : State) (e : Entry) (f : Fields) (d z : Nat) (sh : List Nat) (els : List (Option Elt × Flags))
    {judged : Nat → Bool} (h : ∀ i < els.length, judged i = true) :
    commitV u e f d z sh els judged = commitV u e f d z sh els := by
  unfold commitV
  simp only [VReg.keepsPoison_of_judged (u.me.getV d) z (els.map fun p => p.1) (judged := judged) (by simpa using h)]

section Recurrence

variable {s : State} {e : Entry} {f : Fields} {fc : List Nat × List Nat} {srcs : List Source}

/-- One step of a recurrence: a(i) × (the value before) + b(i) at the element `i` of position `j` (R217). -/
def recurElem (e : Entry) (f : Fields) (fc : List Nat × List Nat) (srcs : List Source) (at_ : Nat → Nat) (j : Nat) (before : Elt) :
    Elt × Flags :=
  let xs := elemsAt f.rk.toNat fc srcs (at_ j)
  let q := arithElem .fma (e.mode f f.fmt.toNat (at_ j)) (nth xs 0).val before.val (nth xs 1).val
  (eltOf q.1 (before :: xs), q.2)

/-- What position `j` of the chain (fr, r) takes. -/
def recurPiece (s : State) (e : Entry) (f : Fields) (fc : List Nat × List Nat) (srcs : List Source) (fr j r : Nat) :
    Option Elt × Flags :=
  let at_ (k : Nat) : Nat := (chainsOf fc.1 fc.2).at fr k r
  chainPiece (fun k => isActive s e f (fc.1 ++ fc.2) (at_ k)) (recurElem e f fc srcs at_) j

/-- What element `i` of the result takes: its position of its chain. -/
def recurAt (s : State) (e : Entry) (f : Fields) (fc : List Nat × List Nat) (srcs : List Source) (i : Nat) : Option Elt × Flags :=
  let c := chainsOf fc.1 fc.2
  recurPiece s e f fc srcs (i / c.nr / c.n) (i / c.nr % c.n) (i % c.nr)

/-- The elements of a recurrence. -/
def recurElems (s : State) (e : Entry) (f : Fields) (fc : List Nat × List Nat) (srcs : List Source) : List (Option Elt × Flags) :=
  (List.range (count (fc.1 ++ fc.2))).map (recurAt s e f fc srcs)

/-- The walks along all chains: each element with what it takes. -/
def recurWalks (s : State) (e : Entry) (f : Fields) (fc : List Nat × List Nat) (srcs : List Source) :
    List (Nat × Option Elt × Flags) :=
  let c := chainsOf fc.1 fc.2
  ((List.range c.nf).map fun fr => ((List.range c.nr).map fun r =>
    ((List.range c.n).foldl (chainStep (fun j => c.at fr j r) (fun j => isActive s e f (fc.1 ++ fc.2) (c.at fr j r))
      (recurElem e f fc srcs fun j => c.at fr j r)) ({}, [])).2).flatten).flatten

/-- The walks come to each position of each chain. -/
theorem mem_recurWalks {p : Nat × Option Elt × Flags} : p ∈ recurWalks s e f fc srcs ↔
    ∃ fr < (chainsOf fc.1 fc.2).nf, ∃ r < (chainsOf fc.1 fc.2).nr, ∃ j < (chainsOf fc.1 fc.2).n,
      ((chainsOf fc.1 fc.2).at fr j r, recurPiece s e f fc srcs fr j r) = p := by
  simp only [recurWalks, foldl_chainStep, List.mem_flatten, List.mem_map, List.mem_range, exists_exists_and_eq_and, List.mem_reverse,
    recurPiece]

theorem recurAt_at {fr j r : Nat} (hj : j < (chainsOf fc.1 fc.2).n) (hr : r < (chainsOf fc.1 fc.2).nr) :
    recurAt s e f fc srcs ((chainsOf fc.1 fc.2).at fr j r) = recurPiece s e f fc srcs fr j r := by
  obtain ⟨h1, h2, h3⟩ := Chains.at_parts (fr := fr) hj hr
  simp only [recurAt, h1, h2, h3]

/-- The walks give each element what it takes. -/
theorem lookup_recurWalks {i : Nat} (hi : i < count (fc.1 ++ fc.2)) :
    (recurWalks s e f fc srcs).lookup i = some (recurAt s e f fc srcs i) := by
  refine lookup_of_forall (fun p hp => ?_) ?_
  · obtain ⟨fr, -, r, hr, j, hj, rfl⟩ := mem_recurWalks.mp hp
    exact (recurAt_at hj hr).symm
  · rw [count_chains] at hi
    obtain ⟨hf, hj, hr, hat⟩ := Chains.exists_at hi
    exact ⟨_, mem_recurWalks.mpr ⟨_, hf, _, hr, _, hj, rfl⟩, hat⟩

theorem exec_vrcr {z : Nat} {a b : Source} (hz : z = Fmt.size f.fmt.toNat) (ha : a = (s.me.getV f.a.toNat).source z)
    (hb : b = (s.me.getV f.b.toNat).source z) (hserves : s.serves 0x5C f)
    (hagree : s.operandsAgree (s.capture 0x5C f) f z [(a, z), (b, z)] fc)
    (haccept : s.acceptsV (s.capture 0x5C f) f f.d.toNat z (recurElems s (s.capture 0x5C f) f fc [a, b])) :
    exec (.vrcr f) s = .next (s.retires { s.me.takesV f.d.toNat z (fc.1 ++ fc.2)
      (recurElems s (s.capture 0x5C f) f fc [a, b]) with prog := 0 }) := by
  subst hz
  obtain ⟨-, hreissued, hwork, hbound, -⟩ := id hserves
  obtain ⟨hfc, hmasks, hfits, hrank, hcount⟩ := hagree
  have hfc' : agreeAll f.rk.toNat [a, b] = .ok fc := hfc
  have hfitsA : fitsSource (s.capture 0x5C f).grows.toNat (Fmt.size f.fmt.toNat) a = .ok () :=
    require_of (decide_eq_true (hfits (a, _) List.mem_cons_self)) _
  have hfitsB : fitsSource (s.capture 0x5C f).grows.toNat (Fmt.size f.fmt.toNat) b = .ok () :=
    require_of (decide_eq_true (hfits (b, _) (List.mem_cons_of_mem _ List.mem_cons_self))) _
  have hcap : require (decide ((fc.1 ++ fc.2).length ≤ 4) &&
      decide (count (fc.1 ++ fc.2) ≤ capacity (s.capture 0x5C f).grows.toNat (Fmt.size f.fmt.toNat))) cCAPACITY = .ok () :=
    require_of (by simp only [hrank, hcount, decide_true, Bool.and_self]) _
  dsimp only [exec, execVrcr]
  refine runArray_retires hserves (by decide) hwork rfl ?_
  rw [show (s.entered 0x5C f).me.reissued = false from hreissued, show (s.entered 0x5C f).me.bound = none from hbound,
    show (s.entered 0x5C f).me.getV = s.me.getV from rfl, ← ha, ← hb, show checkMasks (s.entered 0x5C f) = checkMasks s from rfl]
  have hcommit {els : List (Option Elt × Flags)} {judged : Nat → Bool} (hels : els = recurElems s (s.capture 0x5C f) f fc [a, b])
      (hjudged : ∀ i < els.length, judged i = true) :
      commitV (s.entered 0x5C f) (s.capture 0x5C f) f f.d.toNat (Fmt.size f.fmt.toNat) (fc.1 ++ fc.2) els judged = .ok
        { s.entered 0x5C f with
          me := (s.entered 0x5C f).me.takesV f.d.toNat (Fmt.size f.fmt.toNat) (fc.1 ++ fc.2)
            (recurElems s (s.capture 0x5C f) f fc [a, b]) } := by
    rw [commitV_of_judged _ _ _ _ _ _ _ hjudged]
    subst hels
    exact commitV_of_accepts (u := s.entered 0x5C f) haccept rfl rfl rfl
  simp only [Bool.false_and, Bool.false_eq_true, if_false, if_true, vrcrStop, bind, Except.bind, hfc', hmasks, hfitsA, hfitsB,
    hcap, require_of (show (0 == 0 || _) = true from rfl)]
  rw [hcommit (List.map_congr_left fun i hi => ?_) fun i hi => ?_]
  · simp only [Served.ofParts, le_refl, decide_true, if_true]
    rfl
  · refine (congrArg (fun l => (List.lookup i l).getD (none, 0)) (?_ : _ = recurWalks s (s.capture 0x5C f) f fc [a, b])).trans
      (congrArg (fun o => o.getD (none, 0)) (lookup_recurWalks (List.mem_range.mp hi)))
    refine congrArg List.flatten (List.map_congr_left fun fr _ => congrArg List.flatten (List.map_congr_left fun r _ =>
      congrArg Prod.snd (List.foldl_ext _ _ _ fun acc j hj => ?_)))
    refine if_neg fun hout => ?_
    rcases Bool.or_eq_true_iff.mp hout with hstart | hstop
    · exact absurd (of_decide_eq_true hstart) (Nat.not_lt_zero j)
    · exact absurd (List.mem_range.mp hj) (Nat.not_lt.mpr (of_decide_eq_true hstop))
  · rw [List.length_map, List.length_range, count_chains] at hi
    simp [(Chains.exists_at hi).2.1]

end Recurrence

/-- Settles O31: the elements are read off the walks along the chains; the value before a position is the carry of its chain. -/
theorem recurrence : Obligations.Recurrence := by
  unfold Obligations.Recurrence
  intro f s fc fmt z e sh srcs n hserves hreissued hagree
  refine ⟨recurElems s e f fc (srcs.map fun p => p.1), by simp [recurElems, sh], fun haccept => ?_, ?_⟩
  · exact exec_vrcr rfl rfl rfl hserves hagree haccept
  · intro fr j r hf hj hr at_ act before xs q
    have hget {k : Nat} (hk : k < n) : (recurElems s e f fc (srcs.map fun p => p.1)).getD (at_ k) (none, 0) =
        recurPiece s e f fc (srcs.map fun p => p.1) fr k r := by
      have hlt : at_ k < count sh := by rw [count_chains]; exact Chains.at_lt (by rwa [chainsOf_nf]) hk hr
      rw [recurElems, List.getD_eq_getElem?_getD, List.getElem?_map, List.getElem?_range hlt]
      exact recurAt_at hk hr
    have hbefore : before = carryAt act (recurElem e f fc (srcs.map fun p => p.1) at_) j := by
      rw [carryAt_eq]
      cases hlast : ((List.range j).filter act).getLast? with
      | none => simp only [before, hlast]
      | some k =>
        have hk := List.mem_range.mp (List.mem_filter.mp (List.mem_of_getLast? hlast)).1
        simp only [before, hlast, hget (hk.trans hj)]
        rfl
    rw [hget hj]
    clear_value before
    subst hbefore
    rfl

end Sys2Proof.Machine
end

section
/-! ## Array instructions, elementwise (spec 10): masks (R219 to R221) -/

namespace Sys2Proof.Machine

section Masks

variable {s : State} {f : Fields} {op : BitVec 8}

/-- A word that consumes untrapped sources and then writes a mask, with no flag but PSN. -/
theorem runArray_writesM {body : Entry → State → Served} {d : Nat} {new : MReg} {tainted poisoned : Bool} (h : s.serves op f)
    (hop : op ≠ 0x42) (hc : s.consumes (s.capture op f) f tainted poisoned)
    (hbody : body (s.capture op f) (s.entered op f) = Served.ofR (s.entered op f) (do
      let t ← consume (s.entered op f) (s.capture op f) f tainted poisoned
      return t.setM d new)) :
    runArray op f s body = .next (s.retires (s.me.takesM d new (flagIf poisoned flPSN))) := by
  rw [← Nat.zero_or (flagIf poisoned flPSN)]
  refine runArray_takesM h hop hc ?_
  simp only [State.raise_zero]
  exact hbody

theorem isEmpty_map_range {α : Type} (n : Nat) (g : Nat → α) : (!((List.range n).map g).isEmpty) = (n != 0) := by
  cases n <;> simp

/-- A logic operation on two masks computes every position (R219). -/
theorem runMask_takesM {g : Bool → Bool → Bool} {sh : List Nat} (hop : op ≠ 0x42)
    (hsh : agree (maskShape s (s.capture op f) f.a.toNat f.b.toNat) (maskShape s (s.capture op f) f.b.toNat f.a.toNat) = .ok sh)
    (hserves : s.serves op f) (hcount : count sh ≤ capacity (s.capture op f).grows.toNat 1)
    (hc : s.consumes (s.capture op f) f (count sh != 0 && (maskTaint s f.a.toNat || maskTaint s f.b.toNat)) false) :
    runMask op f s g = .next (s.retires (s.me.takesM f.d.toNat ((s.me.getM f.d.toNat).write sh
      ((List.range (count sh)).map fun k =>
        some { val := (g (maskBit s f.a.toNat (unravel sh k)) (maskBit s f.b.toNat (unravel sh k))).toNat
               taint := maskTaint s f.a.toNat || maskTaint s f.b.toNat })) 0)) := by
  refine runArray_writesM (poisoned := false) hserves hop hc ?_
  dsimp only [Served.ofR]
  rw [show maskShape (s.entered op f) = maskShape s from rfl, hsh]
  simp only [require_of (decide_eq_true hcount), bind, Except.bind, isEmpty_map_range, List.map_map, ← b2n_eq_toNat]
  rfl

/-- A mask that one other gives, with every position computed (R219). -/
theorem exec_mnot (hserves : s.serves 0x60 f)
    (hcount : count (maskShape s (s.capture 0x60 f) f.a.toNat 0) ≤ capacity (s.capture 0x60 f).grows.toNat 1)
    (hc : s.consumes (s.capture 0x60 f) f
      (count (maskShape s (s.capture 0x60 f) f.a.toNat 0) != 0 && maskTaint s f.a.toNat) false) :
    exec (.mnot f) s = .next (s.retires (s.me.takesM f.d.toNat
      ((s.me.getM f.d.toNat).write (maskShape s (s.capture 0x60 f) f.a.toNat 0)
        ((List.range (count (maskShape s (s.capture 0x60 f) f.a.toNat 0))).map fun k =>
          some { val := (!maskBit s f.a.toNat (unravel (maskShape s (s.capture 0x60 f) f.a.toNat 0) k)).toNat
                 taint := maskTaint s f.a.toNat })) 0)) := by
  dsimp only [exec, execMnot]
  refine runArray_writesM (poisoned := false) hserves (by decide) hc ?_
  rw [show maskShape (s.entered 0x60 f) = maskShape s from rfl]
  simp only [require_of (decide_eq_true hcount), bind, Except.bind, isEmpty_map_range, ← b2n_eq_toNat]
  rfl

/-! ### Counting a mask (R220) -/

/-- The positions at which mask n is set. -/
theorem setPositions_zero (s : State) (sh : List Nat) : setPositions s 0 sh = List.range (count sh) :=
  List.filter_eq_self.mpr fun _ _ => rfl

/-- MPOP counts the positions that are set; m0 counts them all. -/
theorem popCount_eq (s : State) (n : Nat) (sh : List Nat) :
    (if n == 0 then count sh else (setPositions s n sh).length) = (setPositions s n sh).length := by
  by_cases hn : n = 0
  · rw [hn, setPositions_zero, List.length_range]
    rfl
  · rw [if_neg (by simpa using hn)]

theorem findFrom_eq_find? (p : Nat → Bool) (n i : Nat) : findFrom p n i = (List.range' i n).find? p := by
  induction n generalizing i with
  | zero => rfl
  | succ n ih =>
    rw [findFrom, List.range'_succ, List.find?_cons, ih]
    cases p i <;> rfl

/-- MFIRST finds the first of the positions that are set (R220). -/
theorem findFrom_eq_head? (s : State) (n : Nat) (sh : List Nat) :
    findFrom (fun i => maskBit s n (unravel sh i)) (count sh) 0 = (setPositions s n sh).head? := by
  rw [findFrom_eq_find?, ← List.range_eq_range', ← List.head?_filter, setPositions]

theorem exec_mfirst {sh : List Nat} {tainted : Bool} (hsh : sh = maskShape s (s.capture 0x62 f) f.a.toNat 0)
    (ht : tainted = (maskTaint s f.a.toNat && count sh != 0)) (hserves : s.serves 0x62 f)
    (hc : s.consumes (s.capture 0x62 f) f tainted false) :
    exec (.mfirst f) s = .next (s.retires (s.me.takesG f.d.toNat
      { val := (setPositions s f.a.toNat sh).headD (2 ^ 64 - 1), taint := tainted } 0)) := by
  dsimp only [exec, execMfirst]
  refine runArray_takesG hserves (by decide) hc (congrArg (Served.ofR _) ?_)
  rw [show maskShape (s.entered 0x62 f) = maskShape s from rfl, show maskBit (s.entered 0x62 f) = maskBit s from rfl, ← hsh,
    findFrom_eq_head?, List.headD_eq_head?_getD, ht]
  cases (setPositions s f.a.toNat sh).head? <;> rfl

/-! ### MSET (R221) -/

theorem exec_mset {sh : List Nat} (hsh : sh = [(s.capture 0x63 f).ga.val.toNat, (s.capture 0x63 f).gb.val.toNat])
    (hserves : s.serves 0x63 f) (hext : ∀ n ∈ sh, n ≤ 65535) (hcount : count sh ≤ (s.capture 0x63 f).grows.toNat * 2048)
    (hc : s.consumes (s.capture 0x63 f) f (gvTainted (s.capture 0x63 f)) (gvPoisoned (s.capture 0x63 f))) :
    exec (.mset f) s = .next (s.retires (s.me.takesM f.d.toNat ((s.me.getM f.d.toNat).write sh
      ((List.range (count sh)).map fun _ => some { val := f.fn.toNat % 2, taint := gvTainted (s.capture 0x63 f) }))
      (flagIf (gvPoisoned (s.capture 0x63 f)) flPSN))) := by
  have hcap : (sh.all (fun n => decide (n ≤ 65535)) && decide (count sh ≤ (s.capture 0x63 f).grows.toNat * 2048)) = true := by
    simpa only [Bool.and_eq_true, List.all_eq_true, decide_eq_true_eq] using ⟨hext, hcount⟩
  dsimp only [exec, execMset]
  refine runArray_writesM hserves (by decide) hc ?_
  rw [← hsh, hcap]
  rfl

/-- Settles O32: each word consumes what it reads and then writes its mask or count. -/
theorem maskOperations : Obligations.MaskOperations := by
  intro f s shapeOf tn logic setAt
  refine ⟨?_, ?_, ?_, ?_, ?_, ?_, ?_⟩
  · intro sh hsh hserves hcount hc
    dsimp only [exec, execMand]
    exact runMask_takesM (by decide) hsh hserves hcount hc
  · intro sh hsh hserves hcount hc
    dsimp only [exec, execMor]
    exact runMask_takesM (by decide) hsh hserves hcount hc
  · intro sh hsh hserves hcount hc
    dsimp only [exec, execMxor]
    exact runMask_takesM (by decide) hsh hserves hcount hc
  · intro e sh hserves hcount hc
    exact exec_mnot hserves hcount hc
  · intro e tp hserves hc
    dsimp only [exec, execMpop]
    refine runArray_takesG hserves (by decide) hc (congrArg (Served.ofR _) ?_)
    rw [popCount_eq]
    rfl
  · intro e tp hserves hc
    exact exec_mfirst rfl rfl hserves hc
  · intro e sh hserves hext hcount hc
    exact exec_mset rfl hserves hext hcount hc

end Masks

end Sys2Proof.Machine
end

section
/-! ## Array instructions, elementwise (spec 10): elements and shape tags (R222 to R225) -/

namespace Sys2Proof.Machine

/-! ### Bits of a buffer -/

/-- The bits after `hi:lo` was replaced. -/
theorem testBit_setBits {x hi lo v : Nat} (h : lo ≤ hi + 1) (k : Nat) :
    (setBits x hi lo v).testBit k = if k < lo then x.testBit k else if k ≤ hi then v.testBit (k - lo) else x.testBit k := by
  have hform : setBits x hi lo v = 2 ^ lo * (2 ^ (hi + 1 - lo) * (x >>> (hi + 1)) + v % 2 ^ (hi + 1 - lo)) + x % 2 ^ lo := by
    unfold setBits
    rw [Nat.shiftLeft_eq, Nat.shiftLeft_eq, Nat.mul_add, ← Nat.mul_assoc, ← Nat.pow_add, Nat.add_sub_cancel' h,
      Nat.mul_comm (2 ^ (hi + 1)), Nat.mul_comm (2 ^ lo)]
  rw [hform, Nat.testBit_two_pow_mul_add _ (Nat.mod_lt _ (Nat.two_pow_pos _)),
    Nat.testBit_two_pow_mul_add _ (Nat.mod_lt _ (Nat.two_pow_pos _)), Nat.testBit_mod_two_pow, Nat.testBit_mod_two_pow,
    Nat.testBit_shiftRight]
  by_cases hlo : k < lo
  · simp only [hlo, if_true, decide_true, Bool.true_and]
  · by_cases hhi : k ≤ hi
    · have hlt : k - lo < hi + 1 - lo := by omega
      simp only [hlo, hhi, hlt, if_true, if_false, decide_true, Bool.true_and]
    · have hge : ¬k - lo < hi + 1 - lo := by omega
      have hsum : hi + 1 + (k - lo - (hi + 1 - lo)) = k := by omega
      simp only [hlo, hhi, hge, if_false, hsum]

/-- The bits of an element of an array register (R48). -/
theorem VReg.testBit_elem (v : VReg) (z i j : Nat) :
    (v.elem z i).val.testBit j = (decide (j < z) && v.buf.testBit (i * z + j)) := by
  simp only [VReg.elem, Nat.testBit_mod_two_pow, Nat.testBit_shiftRight]

/-- The buffer of a register of `n` elements of `z` bits whose tag counted `old`: the bits of growth are 0 (R224). -/
def grownBuf (buf old n z : Nat) : Nat := if old < n then setBits buf (n * z - 1) (old * z) 0 else buf

theorem testBit_grownBuf {buf old n z i : Nat} (hz : 0 < z) (hi : i < n * z) :
    (grownBuf buf old n z).testBit i = (decide (i < old * z) && buf.testBit i) := by
  unfold grownBuf
  by_cases hgrow : old < n
  · have hlt : old * z < n * z := Nat.mul_lt_mul_of_pos_right hgrow hz
    rw [if_pos hgrow, testBit_setBits (by omega)]
    by_cases h : i < old * z
    · simp [h]
    · simp [h, show i ≤ n * z - 1 by omega]
  · have hle : i < old * z := hi.trans_le (Nat.mul_le_mul_right z (not_lt.mp hgrow))
    rw [if_neg hgrow, decide_eq_true hle, Bool.true_and]

/-- Bits of elements below and at or above an element's own (R48). -/
theorem mul_add_lt_iff {k m z j : Nat} (hj : j < z) : k * z + j < m * z ↔ k < m := by
  constructor
  · intro h
    exact Nat.lt_of_mul_lt_mul_right (a := z) (by omega)
  · intro h
    calc k * z + j < k * z + z := by omega
      _ = (k + 1) * z := (Nat.succ_mul k z).symm
      _ ≤ m * z := Nat.mul_le_mul_right z h

/-- An element of a register whose tag was set: the old one below the old count, and 0 in the growth (R224). -/
theorem VReg.elem_grownBuf (v : VReg) {w : VReg} {old n z k : Nat} (hw : w.buf = grownBuf v.buf old n z) (hk : k < n) (hz : 0 < z) :
    (w.elem z k).val = if k < old then (v.elem z k).val else 0 := by
  apply Nat.eq_of_testBit_eq
  intro j
  rw [VReg.testBit_elem, hw]
  by_cases hj : j < z
  · rw [testBit_grownBuf hz ((mul_add_lt_iff hj).mpr hk)]
    by_cases hold : k < old
    · simp [hold, hj, (mul_add_lt_iff hj).mpr hold, VReg.testBit_elem]
    · simp [hold, mt (mul_add_lt_iff hj).mp hold]
  · by_cases hold : k < old <;> simp [hold, hj, VReg.testBit_elem]

/-- An element of a register after one was inserted (R223). -/
theorem VReg.elem_setBits (v : VReg) {w : VReg} {n z x : Nat} (hw : w.buf = setBits v.buf (n * z + z - 1) (n * z) (x % 2 ^ z))
    (hz : 0 < z) (k : Nat) : (w.elem z k).val = if k = n then x % 2 ^ z else (v.elem z k).val := by
  apply Nat.eq_of_testBit_eq
  intro j
  rw [VReg.testBit_elem, hw, testBit_setBits (by omega)]
  by_cases hj : j < z
  · rcases Nat.lt_trichotomy k n with hlt | rfl | hgt
    · simp [(mul_add_lt_iff hj).mpr hlt, hlt.ne, VReg.testBit_elem]
    · have hhi : k * z + j ≤ k * z + z - 1 := by omega
      simp [hhi, hj, Nat.testBit_mod_two_pow]
    · have hge : ¬k * z + j ≤ n * z + z - 1 := by
        have hle : (n + 1) * z ≤ k * z := Nat.mul_le_mul_right z hgt
        rw [Nat.succ_mul] at hle
        omega
      have hge' : ¬k * z + j < n * z := by omega
      simp [hge, hge', hgt.ne', VReg.testBit_elem]
  · by_cases hk : k = n <;> simp [hk, hj, VReg.testBit_elem, Nat.testBit_mod_two_pow]

section Tags

variable {s : State} {f : Fields} {op : BitVec 8}

/-! ### What a word that writes one array register or mask leaves -/

/-- `t` is `s` after a word that has left `new` in v[d], and has changed nothing else but FLAGS and the queue. -/
def State.WroteV (s t : State) (d : Nat) (new : VReg) : Prop :=
  t.me.pc = s.me.pc + 16 ∧ t.me.getV d = new ∧ s.sameMemory t ∧ t.me.g = s.me.g ∧ t.me.sameSpecial s.me ∧
    ∀ k, k ≠ d → t.me.getV k = s.me.getV k

theorem State.wroteV_setV (s : State) (fl : Flags) {d : Nat} (hd : d < 32) (new : VReg) :
    s.WroteV (s.retires ((s.me.raise fl).setV d new)) d new := by
  refine ⟨rfl, ?_, ⟨fun _ => rfl, rfl, rfl⟩, rfl, by simp [Strand.sameSpecial, State.retires], fun k hk => ?_⟩
  · exact ((s.me.raise fl).getV_setV d d new hd).trans (if_pos rfl)
  · exact ((s.me.raise fl).getV_setV d k new hd).trans (if_neg hk)

/-- A word that writes no register leaves the old value in each. -/
theorem State.wroteV_raise (s : State) (fl : Flags) (d : Nat) : s.WroteV (s.retires (s.me.raise fl)) d (s.me.getV d) :=
  ⟨rfl, rfl, ⟨fun _ => rfl, rfl, rfl⟩, rfl, by simp [Strand.sameSpecial, State.retires], fun _ _ => rfl⟩

/-- A word that raises flags and writes one mask leaves memory and the general registers; a write to m0 changes no mask (R41). -/
theorem State.retires_setM (s : State) (fl : Flags) {d : Nat} (hd : d < 8) (new : MReg) :
    let t := s.retires ((s.me.raise fl).setM d new)
    t.me.pc = s.me.pc + 16 ∧ s.sameMemory t ∧ t.me.g = s.me.g ∧ (d = 0 → t.me.m = s.me.m) ∧ (d ≠ 0 → t.me.getM d = new) := by
  refine ⟨rfl, ⟨fun _ => rfl, rfl, rfl⟩, Strand.setM_g _ _ _, fun h0 => ?_, fun h0 => ?_⟩
  · rw [h0]
    rfl
  · exact ((s.me.raise fl).getM_setM d d new hd h0).trans (if_pos rfl)

/-- A word at the head of the queue writes its mask as the strand does. -/
theorem State.entered_setM (s : State) (op : BitVec 8) (f : Fields) (fl : Flags) (d : Nat) (new : MReg) :
    ((s.entered op f).raise fl).setM d new = s.enteredAs op f ((s.me.raise fl).setM d new) := by
  unfold State.setM State.enteredAs Strand.setM
  by_cases hd : d = 0
  · simp only [hd, if_true]
    rfl
  · simp only [hd, if_false]
    rfl

/-! ### VEXT and SHGET (R222, R225) -/

/-- The element that VEXT reads (R222). -/
def extracted (e : Entry) (f : Fields) (v : VReg) : Elt :=
  let z := Fmt.size f.fmt.toNat
  let x := v.elem z e.gb.val.toNat
  if e.gb.val.toNat < count v.shape then
    { val := if Fmt.isI f.fmt.toNat || Fmt.isK f.fmt.toNat then (toSigned z x.val % 2 ^ 64).toNat else x.val
      taint := x.taint || e.gb.taint, poison := x.poison || e.gb.poison }
  else { val := 0, taint := e.gb.taint, poison := e.gb.poison }

theorem exec_vext (hserves : s.serves 0x64 f)
    (hcount : count (s.me.getV f.a.toNat).shape ≤ capacity (s.capture 0x64 f).grows.toNat (Fmt.size f.fmt.toNat))
    (hc : s.consumes (s.capture 0x64 f) f (extracted (s.capture 0x64 f) f (s.me.getV f.a.toNat)).taint
      (extracted (s.capture 0x64 f) f (s.me.getV f.a.toNat)).poison) :
    exec (.vext f) s =
      .next (s.retires (s.me.takesG f.d.toNat (extracted (s.capture 0x64 f) f (s.me.getV f.a.toNat)) 0)) := by
  dsimp only [exec, execVext]
  refine runArray_takesG hserves (by decide) hc (congrArg (Served.ofR _) ?_)
  rw [show (s.entered 0x64 f).me.getV f.a.toNat = s.me.getV f.a.toNat from rfl, require_of (decide_eq_true hcount)]
  by_cases hn : (s.capture 0x64 f).gb.val.toNat < count (s.me.getV f.a.toNat).shape
  · simp only [hn, extracted, if_true, bind, Except.bind]
    rfl
  · simp only [hn, extracted, if_false, bind, Except.bind]

/-- The item of a tag that SHGET reads (R225). -/
theorem shgetItem_eq (sh : List Nat) (item : Nat) :
    (if item == 0 then sh.length else if item ≤ 4 then sh[item - 1]?.getD 0 else count sh) =
      if item = 0 then sh.length else if item ≤ 4 then sh.getD (item - 1) 0 else count sh := by
  simp only [beq_iff_eq, List.getD_eq_getElem?_getD]

theorem bits_seven_four (x : BitVec 8) : bits x.toNat 7 4 = x.toNat / 16 := by
  rw [bits_eq_div_mod]
  have := x.isLt
  omega

/-! ### VINS (R223) -/

/-- The rows that an element of `z` bits at bit `p` touches. -/
def touchedRows (p z : Nat) : Nat := (2 ^ ((p + z - 1) / 2048 + 1 - p / 2048) - 1) <<< (p / 2048)

/-- What VINS leaves in vD: one element below the count is replaced, and else nothing changes (R223). -/
def inserted (e : Entry) (z : Nat) (v : VReg) : VReg :=
  if e.gb.val.toNat < count v.shape then
    { v with
      buf := setBits v.buf (e.gb.val.toNat * z + z - 1) (e.gb.val.toNat * z) (e.ga.val.toNat % 2 ^ z)
      taint := v.taint || e.ga.taint
      poison := if gvPoisoned e then v.poison ||| touchedRows (e.gb.val.toNat * z) z else v.poison }
  else v

theorem inserted_shape (e : Entry) (z : Nat) (v : VReg) : (inserted e z v).shape = v.shape := by
  unfold inserted
  split <;> rfl

theorem inserted_taint (e : Entry) (z : Nat) (v : VReg) :
    (inserted e z v).taint = (v.taint || (decide (e.gb.val.toNat < count v.shape) && e.ga.taint)) := by
  unfold inserted
  by_cases h : e.gb.val.toNat < count v.shape <;> simp [h]

theorem inserted_elem (e : Entry) {z : Nat} (hz : 0 < z) (v : VReg) (k : Nat) : ((inserted e z v).elem z k).val =
    if k = e.gb.val.toNat ∧ e.gb.val.toNat < count v.shape then e.ga.val.toNat % 2 ^ z else (v.elem z k).val := by
  by_cases h : e.gb.val.toNat < count v.shape
  · rw [v.elem_setBits (x := e.ga.val.toNat) (by rw [inserted, if_pos h]) hz]
    simp only [h, and_true]
  · simp only [inserted, h, and_false, if_false]

theorem exec_vins (hserves : s.serves 0x65 f)
    (hcount : count (s.me.getV f.d.toNat).shape ≤ capacity (s.capture 0x65 f).grows.toNat (Fmt.size f.fmt.toNat))
    (hd : f.d.toNat < 32)
    (hc : s.consumes (s.capture 0x65 f) f (gvTainted (s.capture 0x65 f)) (gvPoisoned (s.capture 0x65 f) &&
      decide ((s.capture 0x65 f).gb.val.toNat < count (s.me.getV f.d.toNat).shape))) :
    ∃ t, exec (.vins f) s = .next t ∧
      s.WroteV t f.d.toNat (inserted (s.capture 0x65 f) (Fmt.size f.fmt.toNat) (s.me.getV f.d.toNat)) := by
  obtain ⟨fl, hconsume⟩ : ∃ fl, consume (s.entered 0x65 f) (s.capture 0x65 f) f _ _ = .ok ((s.entered 0x65 f).raise fl) :=
    ⟨_, consume_of_consumes hc (s.sameSight_entered 0x65 f).poisonTrap⟩
  dsimp only [exec, execVins]
  by_cases hn : (s.capture 0x65 f).gb.val.toNat < count (s.me.getV f.d.toNat).shape
  · refine ⟨_, runArray_retires hserves (by decide) (m := (s.me.raise fl).setV f.d.toNat _) hserves.2.2.1 rfl ?_,
      s.wroteV_setV _ hd _⟩
    rw [show (s.entered 0x65 f).me.getV f.d.toNat = s.me.getV f.d.toNat from rfl, require_of (decide_eq_true hcount), hconsume]
    simp only [hn, inserted, if_true, bind, Except.bind]
    rfl
  · rw [inserted, if_neg hn]
    refine ⟨_, runArray_retires hserves (by decide) (m := s.me.raise fl) hserves.2.2.1 rfl ?_, s.wroteV_raise _ _⟩
    rw [show (s.entered 0x65 f).me.getV f.d.toNat = s.me.getV f.d.toNat from rfl, require_of (decide_eq_true hcount), hconsume]
    simp only [hn, if_false, bind, Except.bind]
    rfl

/-! ### SHTAG (R224) -/

/-- The extents that SHTAG names are extents of a tag, and the register holds them. -/
theorem require_tag {sh : List Nat} {cap : Nat} (hext : ∀ n ∈ sh, n ≤ 65535) (hcount : count sh ≤ cap) :
    require (sh.all (fun n => decide (n ≤ 65535)) && decide (count sh ≤ cap)) cCAPACITY = .ok () :=
  require_of (by simpa only [Bool.and_eq_true, List.all_eq_true, decide_eq_true_eq] using ⟨hext, hcount⟩) _

theorem exec_shtag_v (hv : f.fn.getLsbD 0 = false) (hserves : s.serves 0x66 f)
    (hext : ∀ n ∈ tagShape (s.capture 0x66 f) f, n ≤ 65535)
    (hcount : count (tagShape (s.capture 0x66 f) f) ≤ capacity (s.capture 0x66 f).grows.toNat (Fmt.size f.fmt.toNat))
    (hc : s.consumes (s.capture 0x66 f) f (gvTainted (s.capture 0x66 f)) (gvPoisoned (s.capture 0x66 f))) :
    exec (.shtag f) s = .next (s.retires ((s.me.raise (flagIf (gvPoisoned (s.capture 0x66 f)) flPSN)).setV f.d.toNat
      { s.me.getV f.d.toNat with
        shape := tagShape (s.capture 0x66 f) f
        buf := grownBuf (s.me.getV f.d.toNat).buf (count (s.me.getV f.d.toNat).shape) (count (tagShape (s.capture 0x66 f) f))
          (Fmt.size f.fmt.toNat)
        wsize := Fmt.size f.fmt.toNat
        taint := (s.me.getV f.d.toNat).taint || gvTainted (s.capture 0x66 f) })) := by
  have hfn : bit f.fn.toNat 0 = false := hv
  dsimp only [exec, execShtag]
  refine runArray_retires hserves (by decide) hserves.2.2.1 rfl ?_
  rw [hfn]
  simp only [Bool.false_eq_true, if_false, require_tag hext hcount,
    consume_of_consumes hc (s.sameSight_entered 0x66 f).poisonTrap, bind, Except.bind]
  rfl

theorem exec_shtag_m (hm : f.fn.getLsbD 0 = true) (hserves : s.serves 0x66 f)
    (hext : ∀ n ∈ tagShape (s.capture 0x66 f) f, n ≤ 65535)
    (hcount : count (tagShape (s.capture 0x66 f) f) ≤ capacity (s.capture 0x66 f).grows.toNat 1)
    (hc : s.consumes (s.capture 0x66 f) f (gvTainted (s.capture 0x66 f)) (gvPoisoned (s.capture 0x66 f))) :
    exec (.shtag f) s = .next (s.retires ((s.me.raise (flagIf (gvPoisoned (s.capture 0x66 f)) flPSN)).setM f.d.toNat
      { s.me.getM f.d.toNat with
        shape := tagShape (s.capture 0x66 f) f
        buf := grownBuf (s.me.getM f.d.toNat).buf (count (s.me.getM f.d.toNat).shape) (count (tagShape (s.capture 0x66 f) f)) 1
        taint := (s.me.getM f.d.toNat).taint || gvTainted (s.capture 0x66 f) })) := by
  have hfn : bit f.fn.toNat 0 = true := hm
  dsimp only [exec, execShtag]
  refine runArray_retires hserves (by decide) ((Strand.setM_work _ _ _).trans hserves.2.2.1) (Strand.setM_place _ _ _) ?_
  rw [hfn]
  simp only [if_true, require_tag hext hcount, consume_of_consumes hc (s.sameSight_entered 0x66 f).poisonTrap, bind, Except.bind]
  exact congrArg Served.done (State.entered_setM s 0x66 f _ _ _)

/-- Settles O33: VEXT and SHGET write what they read to g[D]; VINS replaces the bits of one element, and SHTAG those of the growth. -/
theorem elementsAndTags : Obligations.ElementsAndTags := by
  intro f s z isM va vd
  refine ⟨?_, ?_, ?_, ?_⟩
  · intro e n x v hserves hcount hc
    exact exec_vext hserves hcount hc
  · intro e n hserves hcount hd hz hc
    obtain ⟨t, ht, hpc, hv, hmem, hg, hspecial, hother⟩ := exec_vins hserves hcount hd hc
    refine ⟨t, ht, hpc, ?_, fun k => ?_, ?_, hmem, hg, hspecial, hother⟩
    · rw [hv, inserted_shape]
    · rw [hv, inserted_elem _ hz]
    · rw [hv, inserted_taint]
  · intro e sh ze hserves hext hcount hd8 hd32 hze hc
    cases hm : isM with
    | false =>
      have hze' : ze = z := by simp only [ze, hm, Bool.false_eq_true, if_false]
      rw [hze'] at hcount hze
      obtain ⟨hpc, hv, hmem, hg, -, -⟩ := s.wroteV_setV (flagIf (gvPoisoned e) flPSN) (hd32 hm)
        { vd with shape := sh, buf := grownBuf vd.buf (count vd.shape) (count sh) z, wsize := z, taint := vd.taint || gvTainted e }
      refine ⟨_, exec_shtag_v hm hserves hext hcount hc, hpc, hmem, hg, fun _ => ⟨?_, ?_, fun k hk => ?_⟩, nofun, nofun⟩
      · exact congrArg VReg.shape hv
      · exact congrArg VReg.taint hv
      · exact VReg.elem_grownBuf vd (congrArg VReg.buf hv) hk hze
    | true =>
      have hze' : ze = 1 := by simp only [ze, hm, if_true]
      rw [hze'] at hcount
      obtain ⟨hpc, hmem, hg, hzero, hne⟩ := s.retires_setM (flagIf (gvPoisoned e) flPSN) (hd8 hm)
        { s.me.getM f.d.toNat with
          shape := sh
          buf := grownBuf (s.me.getM f.d.toNat).buf (count (s.me.getM f.d.toNat).shape) (count sh) 1
          taint := (s.me.getM f.d.toNat).taint || gvTainted e }
      refine ⟨_, exec_shtag_m hm hserves hext hcount hc, hpc, hmem, hg, nofun, fun _ h0 => ?_, fun _ h0 => ⟨?_, fun k hk => ?_⟩⟩
      · exact hzero (congrArg BitVec.toNat h0)
      · exact congrArg MReg.shape (hne (mt bitVec_toNat_eq_zero.mp h0))
      · rw [hne (mt bitVec_toNat_eq_zero.mp h0)]
        have hbit := testBit_grownBuf (buf := (s.me.getM f.d.toNat).buf) (old := count (s.me.getM f.d.toNat).shape)
          (n := count sh) Nat.one_pos (by rwa [Nat.mul_one])
        rwa [Nat.mul_one] at hbit
  · intro e sh item v hserves hitem hc
    dsimp only [exec, execShget]
    refine runArray_takesG hserves (by decide) hc (congrArg (Served.ofR _) ?_)
    rw [shgetItem_eq, bits_seven_four]
    rfl

end Tags

end Sys2Proof.Machine
end

section
/-! ## Array instructions, elementwise (spec 10): loads of strips (R198 to R201) -/

namespace Sys2Proof.Machine

section Walk

variable {s : State} {e : Entry} {f : Fields} {z n : Nat} {act : Nat → Bool} {addr : Nat → Option Int} {fill : Nat}
  {x : Nat → Nat × Bool × Bool}

/-- What position `k` takes where every active element inside the extents is read: none where it is inactive, and the fill value
outside the extents. -/
def pickedElt (e : Entry) (act : Nat → Bool) (addr : Nat → Option Int) (fill : Nat) (x : Nat → Nat × Bool × Bool) (k : Nat) :
    Option Elt :=
  if !act k then none
  else if (addr k).isNone then some { val := fill, taint := gvTainted e, poison := gvPoisoned e }
  else some { val := (x k).1, taint := (x k).2.1 || gvTainted e, poison := (x k).2.2 || gvPoisoned e }

/-- Elements that can be read, and whose taint does not trap, are loaded one after another (R198). -/
theorem readStrip_of_reads (htaint : trapsTaint f = true → ∀ k, (x k).2.1 = false)
    (hread : ∀ k < n, act k = true → ∀ ba, addr k = some ba → s.readElem s.vd ba z = .ok (x k)) :
    (readStrip s e f z n act addr fill).els = ((List.range n).map (pickedElt e act addr fill x)).reverse ∧
      (readStrip s e f z n act addr fill).stopped = none ∧ (readStrip s e f z n act addr fill).passed = n := by
  induction n with
  | zero => exact ⟨rfl, rfl, rfl⟩
  | succ n ih =>
    obtain ⟨hels, hstopped, -⟩ := ih fun k hk => hread k (hk.trans n.lt_succ_self)
    rw [readStrip_succ, List.range_succ, List.map_append, List.reverse_append, ← hels]
    cases hact : act n with
    | false =>
      rw [stripStep_of_inactive hstopped hact]
      simp [hstopped, pickedElt, hact]
    | true =>
      cases haddr : addr n with
      | none =>
        rw [stripStep_of_outside hstopped hact haddr]
        simp [hstopped, pickedElt, hact, haddr]
      | some ba =>
        have hnt : (trapsTaint f && (x n).2.1) = false := by
          cases ht : trapsTaint f with
          | false => rfl
          | true => exact htaint ht n
        rw [stripStep_of_read hstopped hact haddr (hread n n.lt_succ_self hact ba haddr) hnt]
        simp [hstopped, pickedElt, hact, haddr]

/-- The poison of a result that raises no other flag: that of its new elements and of those that it keeps (R191). -/
theorem VReg.takesPoison_quiet (old : VReg) (z : Nat) (els : List (Option Elt)) :
    old.takesPoison z (els.map fun x => (x, 0)) =
      ((els.any fun x => (x.map Elt.poison).getD false) || old.keepsPoison z els) := by
  rw [VReg.takesPoison_eq, List.filterMap_map, List.any_filterMap, List.map_map,
    show els.map ((fun p => p.1) ∘ fun x => (x, (0 : Flags))) = els from List.map_id els]
  congr 2
  funext x
  cases x <;> rfl

end Walk

/-! ### What a load leaves of the strand -/

theorem flagIf_or (a b : Bool) (fl : Flags) : flagIf a fl ||| flagIf b fl = flagIf (a || b) fl := by
  cases a <;> cases b <;> simp [flagIf]

/-- The strand with a loaded strip in v[d] and, for a kb format, its scales in v[n] (R198, R200). -/
def Strand.takesStrip (m : Strand) (isK : Bool) (d n : Nat) (elems scales : VReg) (psn : Bool) : Strand :=
  { m with
    v := if isK then (m.v.setIfInBounds d elems).setIfInBounds n scales else m.v.setIfInBounds d elems
    flags := m.flagged (flagIf psn flPSN ||| flagIf (elems.taint || (isK && scales.taint)) flTNT) }

theorem Strand.setV_eq_takesStrip (m : Strand) (d n : Nat) (elems scales : VReg) (psn : Bool) :
    (m.raise (flagIf psn flPSN)).setV d elems = m.takesStrip false d n elems scales psn := by
  unfold setV takesStrip raise flagged
  simp only [flagged_or, Bool.false_and, Bool.or_false, Bool.false_eq_true, if_false]

theorem Strand.takesStrip_setV (m : Strand) (d n : Nat) (elems scales : VReg) (psn : Bool) :
    (m.takesStrip false d n elems scales psn).setV n scales = m.takesStrip true d n elems scales psn := by
  unfold setV takesStrip raise flagged
  simp only [flagged_or, Bool.false_and, Bool.or_false, Bool.false_eq_true, if_false, Bool.true_and, if_true, ← flagIf_or,
    Nat.or_assoc]

theorem State.setV_eq_takesStrip (s : State) (d n : Nat) (elems scales : VReg) (psn : Bool) :
    (s.raise (flagIf psn flPSN)).setV d elems = { s with me := s.me.takesStrip false d n elems scales psn } :=
  congrArg (fun m => { s with me := m }) (s.me.setV_eq_takesStrip d n elems scales psn)

theorem State.setV_setV_eq_takesStrip (s : State) (d n : Nat) (elems scales : VReg) (psn : Bool) :
    ((s.raise (flagIf psn flPSN)).setV d elems).setV n scales = { s with me := s.me.takesStrip true d n elems scales psn } := by
  rw [s.setV_eq_takesStrip d n elems scales psn]
  exact congrArg (fun m => { s with me := m }) (s.me.takesStrip_setV d n elems scales psn)

/-! ### VLD (R198 to R201) -/

theorem not_and_of_imp_false {a b : Bool} (h : b = true → a = false) : ¬ (a && b) = true := fun hab => by
  obtain ⟨ha, hb⟩ := (Bool.and_eq_true _ _).mp hab
  exact Bool.false_ne_true ((h hb).symm.trans ha)

section Load

variable {s : State} {e : Entry} {f : Fields} {p : Strip} {x y : Nat → Nat × Bool × Bool}

/-- The elements that a load takes. -/
def loadedElts (s : State) (e : Entry) (f : Fields) (p : Strip) (x : Nat → Nat × Bool × Bool) : List (Option Elt) :=
  (List.range (count e.strip)).map (pickedElt e (isActive s e f e.strip) p.addr p.fill x)

/-- The scales that a load of a kb format takes: those of blocks with an active element (R200). -/
def loadedScales (s : State) (e : Entry) (f : Fields) (p : Strip) (y : Nat → Nat × Bool × Bool) : List (Option Elt) :=
  (List.range (count [e.rows.toNat, ceilDiv e.cols.toNat e.blk])).map
    (pickedElt e (fun b => blockActive e.cols.toNat e.blk b (isActive s e f e.strip)) p.scale 0 y)

/-- Is an element or a scale that a load takes or keeps poisoned? -/
def loadPoisons (s : State) (e : Entry) (f : Fields) (p : Strip) (x y : Nat → Nat × Bool × Bool) : Bool :=
  (s.me.getV f.d.toNat).takesPoison (Fmt.size f.fmt.toNat) ((loadedElts s e f p x).map fun x => (x, 0)) ||
    (Fmt.isK f.fmt.toNat && (s.me.getV f.e.toNat).takesPoison 8 ((loadedScales s e f p y).map fun x => (x, 0)))

/-- A VLD all of whose elements can be read. -/
theorem loadStrip_of_reads (hstrip : stripOf s e f = .ok (p, .ok ())) (hmasks : checkMasks s e f e.strip = .ok ())
    (hcount : count e.strip ≤ capacity e.grows.toNat (Fmt.size f.fmt.toNat))
    (hkb : Fmt.isK f.fmt.toNat = true → f.d ≠ f.e ∧ count [e.rows.toNat, ceilDiv e.cols.toNat e.blk] ≤ capacity e.grows.toNat 8)
    (htnt : trapsTaint f = true → gvTainted e = false ∧ e.qt = 0 ∧ s.masksTainted e f = false ∧ (∀ k, (x k).2.1 = false) ∧
      ∀ k, (y k).2.1 = false)
    (htrap : s.poisonTrap = true → loadPoisons s e f p x y = false)
    (hread : ∀ k < count e.strip, isActive s e f e.strip k = true → ∀ ba, p.addr k = some ba →
      s.readElem s.vd ba (Fmt.size f.fmt.toNat) = .ok (x k))
    (hscales : Fmt.isK f.fmt.toNat = true → ∀ b < count [e.rows.toNat, ceilDiv e.cols.toNat e.blk],
      blockActive e.cols.toNat e.blk b (isActive s e f e.strip) = true → ∀ ba, p.scale b = some ba →
        s.readElem s.vd ba 8 = .ok (y b)) :
    loadStrip e f s = .done { s with
      me := s.me.takesStrip (Fmt.isK f.fmt.toNat) f.d.toNat f.e.toNat
        ((s.me.getV f.d.toNat).write (Fmt.size f.fmt.toNat) e.strip (loadedElts s e f p x))
        ((s.me.getV f.e.toNat).write 8 [e.rows.toNat, ceilDiv e.cols.toNat e.blk] (loadedScales s e f p y))
        (loadPoisons s e f p x y) } := by
  obtain ⟨hels, hstopped, hpassed⟩ := readStrip_of_reads (e := e) (fill := p.fill) (fun h => (htnt h).2.2.2.1) hread
  have hchecks : require (!(trapsTaint f && (gvTainted e || e.qt != 0 ||
      ((List.range (count e.strip)).any (isActive s e f e.strip) && s.masksTainted e f)))) cTAINT = .ok () := by
    refine require_of ?_ _
    cases ht : trapsTaint f with
    | false => rfl
    | true =>
      obtain ⟨hgv, hqt, hm, -⟩ := htnt ht
      simp [hgv, hqt, hm]
  have hkept (old : VReg) (z : Nat) (g : Nat → Option Elt) (n : Nat) :
      old.keepsPoison z ((List.range n).map g) (fun i => decide (i < n)) = old.keepsPoison z ((List.range n).map g) :=
    VReg.keepsPoison_of_judged old z _ fun i hi => decide_eq_true (by simpa using hi)
  unfold loadPoisons at htrap ⊢
  simp only [VReg.takesPoison_quiet] at htrap ⊢
  unfold loadStrip
  cases hk : Fmt.isK f.fmt.toNat with
  | false =>
    rw [hk, Bool.false_and, Bool.or_false] at htrap
    have hpoison : ((s.me.getV f.d.toNat).keepsPoison (Fmt.size f.fmt.toNat) (loadedElts s e f p x) ||
        (s.me.getV f.e.toNat).keepsPoison 8 [] (fun i => decide (i < 0)) ||
        (loadedElts s e f p x ++ []).any fun x => (x.map Elt.poison).getD false) =
      ((loadedElts s e f p x).any (fun x => (x.map Elt.poison).getD false) ||
        (s.me.getV f.d.toNat).keepsPoison (Fmt.size f.fmt.toNat) (loadedElts s e f p x)) := by
      rw [List.append_nil, Bool.or_comm _ (List.any _ _)]
      simp [VReg.keepsPoison]
    simp only [hstrip, hmasks, hcount, hchecks, hstopped, hels, hpassed, hkept, require_of, decide_true, Bool.not_false,
      Bool.true_or, Bool.and_self, Bool.false_and, Bool.false_eq_true, if_false, bind, Except.bind, pure, Except.pure,
      List.reverse_reverse, List.reverse_nil]
    rw [show (List.range (count e.strip)).map (pickedElt e (isActive s e f e.strip) p.addr p.fill x) = loadedElts s e f p x from rfl,
      hpoison, if_neg (not_and_of_imp_false htrap), Bool.or_false, State.setV_eq_takesStrip]
  | true =>
    obtain ⟨hne, hcountS⟩ := hkb hk
    obtain ⟨helsS, hstoppedS, hpassedS⟩ := readStrip_of_reads (e := e) (fill := 0) (fun h => (htnt h).2.2.2.2) (hscales hk)
    rw [hk, Bool.true_and] at htrap
    have hpoison : ((s.me.getV f.d.toNat).keepsPoison (Fmt.size f.fmt.toNat) (loadedElts s e f p x) ||
        (s.me.getV f.e.toNat).keepsPoison 8 (loadedScales s e f p y) ||
        (loadedElts s e f p x ++ (loadedScales s e f p y).reverse).any fun x => (x.map Elt.poison).getD false) =
      ((loadedElts s e f p x).any (fun x => (x.map Elt.poison).getD false) ||
        (s.me.getV f.d.toNat).keepsPoison (Fmt.size f.fmt.toNat) (loadedElts s e f p x) ||
        ((loadedScales s e f p y).any (fun x => (x.map Elt.poison).getD false) ||
          (s.me.getV f.e.toNat).keepsPoison 8 (loadedScales s e f p y))) := by
      rw [List.any_append, List.any_reverse]
      ac_rfl
    have hother (new : VReg) (psn : Flags) : (((s.raise psn).setV f.d.toNat new).me.getV f.e.toNat) = s.me.getV f.e.toNat := by
      have hdn : f.d.toNat ≠ f.e.toNat := mt BitVec.eq_of_toNat_eq hne
      simp [State.setV, Strand.setV, Strand.getV, State.raise, Strand.raise, hdn]
    simp only [hstrip, hmasks, hcount, hcountS, hchecks, hstopped, hels, hpassed, helsS, hstoppedS, hpassedS, hkept, hother,
      require_of, decide_true, Bool.not_true, Bool.or_true, Bool.and_self, Bool.true_and, Option.isNone_none,
      if_true, bind, Except.bind, pure, Except.pure, List.reverse_reverse]
    rw [show (List.range (count e.strip)).map (pickedElt e (isActive s e f e.strip) p.addr p.fill x) = loadedElts s e f p x from rfl,
      show (List.range _).map (pickedElt e (fun b => blockActive e.cols.toNat e.blk b (isActive s e f e.strip)) p.scale 0 y) =
        loadedScales s e f p y from rfl, hpoison, if_neg (not_and_of_imp_false htrap), State.setV_setV_eq_takesStrip]

end Load

/-- Settles O34: the walks over the elements and over the scales take each position (`readStrip_of_reads`). -/
theorem stripLoad : Obligations.StripLoad := by
  unfold Obligations.StripLoad
  intro i f s p x y e z isK sh ssh act bact pick els sels d d2 psn v1 v2 hi hserves hstrip hmasks hcount hkb htnt htrap hread hscales
  have hexec : exec i s = runArray 0x41 f s (loadStrip · f ·) := by
    rcases hi with rfl | rfl
    · exact exec_vldTid
    · dsimp only [exec, execVldPtr]
  have hsh : e.strip = sh := capture_strip rfl (by decide) (by decide) (by decide)
  have hsight (ba : Int) (z : Nat) : (s.entered 0x41 f).readElem s.vd ba z = s.readElem s.vd ba z :=
    (s.sameSight_entered 0x41 f).readElem rfl rfl _ _ _
  obtain ⟨hrows, hcols⟩ : e.rows.toNat = s.me.rows.toNat ∧ e.cols.toNat = s.me.cols.toNat := by
    have hsh' := hsh
    simpa only [Entry.strip, sh, List.cons.injEq, and_true] using hsh'
  have hels : loadedElts (s.entered 0x41 f) e f p x = els := by
    rw [loadedElts, hsh]
    rfl
  have hsels : loadedScales (s.entered 0x41 f) e f p y = sels := by
    rw [loadedScales, hsh, hrows, hcols]
    rfl
  have hpsn : loadPoisons (s.entered 0x41 f) e f p x y = psn := by
    rw [loadPoisons, hels, hsels]
    rfl
  have hload := loadStrip_of_reads (s := s.entered 0x41 f) (e := e) (f := f) (p := p) (x := x) (y := y) hstrip
    (by rwa [hsh]) (by rwa [hsh]) (by rwa [hrows, hcols]) htnt (by rw [hpsn]; exact htrap)
    (by rw [hsh]; exact fun k hk ha ba hb => (hsight ba z).trans (hread k hk ha ba hb))
    (by rw [hsh, hrows, hcols]; exact fun hk b hb ha ba hba => (hsight ba 8).trans (hscales hk b hb ha ba hba))
  rw [hels, hsels, hpsn, hsh, hrows, hcols] at hload
  refine ⟨_, hexec.trans (runArray_retires (m := s.me.takesStrip isK f.d.toNat f.e.toNat d d2 psn) hserves (by decide) ?_ rfl hload),
    rfl, rfl, rfl, rfl, ⟨fun _ => rfl, rfl, rfl⟩, rfl, rfl, rfl, rfl, rfl, ?_⟩
  · exact hserves.2.2.1
  · simp [Strand.sameSpecial, State.retires, Strand.takesStrip]

end Sys2Proof.Machine
end

section
/-! ## Array instructions, elementwise (spec 10): the bytes of a write set

The write set of planned stores holds one write for each granule (`addGWrite`). A bit of memory that it names takes the bit of the last
element added that covers it (`byteBit_addElem`); all others stay (`memGet_writeAll`). -/

namespace Sys2Proof.Machine

/-! ### Bits of granules (R275) -/

section Bits

variable {ws : List GWrite} {w : GWrite} {g i a j : Nat} {old : Bool}

/-- Bit `i` of granule `g` once a write set has been performed, which was `old` before. -/
def granuleBit (ws : List GWrite) (g i : Nat) (old : Bool) : Bool :=
  match ws.find? fun w => w.granule == g with
  | some w => if w.mask.testBit i then w.data.testBit i else old
  | none => old

theorem granuleBit_cons (w : GWrite) (ws : List GWrite) (g i : Nat) (old : Bool) : granuleBit (w :: ws) g i old =
    if w.granule = g then (if w.mask.testBit i then w.data.testBit i else old) else granuleBit ws g i old := by
  unfold granuleBit
  rw [List.find?_cons]
  by_cases h : w.granule = g
  · rw [beq_iff_eq.mpr h, if_pos h]
  · rw [beq_eq_false_iff_ne.mpr h, if_neg h]

/-- The write added last wins. -/
theorem granuleBit_addGWrite (ws : List GWrite) (w : GWrite) (g i : Nat) (old : Bool) : granuleBit (addGWrite ws w) g i old =
    if w.granule = g ∧ w.mask.testBit i = true then w.data.testBit i else granuleBit ws g i old := by
  induction ws with
  | nil =>
    rw [addGWrite, granuleBit_cons]
    by_cases h : w.granule = g
    · simp [h, granuleBit]
    · simp [h]
  | cons x r ih =>
    rw [addGWrite]
    by_cases hx : x.granule = w.granule
    · rw [if_pos (beq_iff_eq.mpr hx), granuleBit_cons, granuleBit_cons]
      by_cases h : w.granule = g
      · simp only [hx, h, if_true, Nat.testBit_or, testBit_mergeBits, true_and]
        cases w.mask.testBit i <;> simp
      · simp only [hx, h, if_false, false_and]
    · rw [if_neg fun h => hx (beq_iff_eq.mp h), granuleBit_cons, granuleBit_cons, ih]
      by_cases h : x.granule = g
      · have hne : w.granule ≠ g := fun hw => hx (h.trans hw.symm)
        simp only [h, hne, if_true, if_false, false_and]
      · simp only [h, if_false]

/-- A write set holds each granule once. -/
theorem nodup_addGWrite (h : (ws.map GWrite.granule).Nodup) (w : GWrite) : ((addGWrite ws w).map GWrite.granule).Nodup := by
  have hmem (ws : List GWrite) (g : Nat) (hg : g ∈ (addGWrite ws w).map GWrite.granule) :
      g = w.granule ∨ g ∈ ws.map GWrite.granule := by
    induction ws with
    | nil => exact .inl (by simpa [addGWrite] using hg)
    | cons x r ih =>
      rw [addGWrite] at hg
      split at hg
      · exact .inr hg
      · rcases List.mem_cons.mp hg with hg | hg
        · exact .inr (hg ▸ List.mem_cons_self)
        · exact (ih hg).imp_right (List.mem_cons_of_mem _)
  induction ws with
  | nil => exact List.nodup_singleton _
  | cons x r ih =>
    obtain ⟨hx, hr⟩ := List.nodup_cons.mp h
    rw [addGWrite]
    split
    · exact h
    · rename_i hne
      refine List.nodup_cons.mpr ⟨fun hg => ?_, ih hr⟩
      rcases hmem r _ hg with hg | hg
      · exact hne (beq_iff_eq.mpr hg)
      · exact hx hg

/-! ### Bytes -/

/-- Bit `j` of the byte at address `a` once a write set has been performed. -/
def byteBit (ws : List GWrite) (a j : Nat) (old : Bool) : Bool := granuleBit ws (a / 32) (8 * (a % 32) + j) old

/-- One granule write, as it stands in memory. -/
theorem memGet_writeGranule {s : State} {who : Nat} (hw : Memory.wf s.mem = true) (hj : j < 8) (ha : w.granule = a / 32) :
    (memGet (s.writeGranule who false w).mem a).getLsbD j =
      if w.mask.testBit (8 * (a % 32) + j) then w.data.testBit (8 * (a % 32) + j) else (memGet s.mem a).getLsbD j := by
  rw [State.writeGranule_mem, State.putGranule_mem, memGet_memWrite _ _ _ _ _ hw, if_pos (by omega), BitVec.getLsbD_ofNat,
    show (256 : Nat) ^ (a - 32 * w.granule) = 2 ^ (8 * (a % 32)) by
      rw [show a - 32 * w.granule = a % 32 by omega, show (256 : Nat) = 2 ^ 8 from rfl, ← Nat.pow_mul],
    Nat.testBit_div_two_pow, testBit_mergeBits, granuleOf, testBit_memRead, Nat.add_comm j,
    show 32 * w.granule + (8 * (a % 32) + j) / 8 = a by omega, show (8 * (a % 32) + j) % 8 = j by omega]
  simp [hj, show 8 * (a % 32) + j < 256 by omega]

/-- Memory once a write set has been performed (R279). -/
theorem memGet_writeAll {s : State} {who : Nat} (hw : Memory.wf s.mem = true) (hj : j < 8)
    (hnodup : (ws.map GWrite.granule).Nodup) :
    (memGet (s.writeAll who ws).mem a).getLsbD j = byteBit ws a j ((memGet s.mem a).getLsbD j) := by
  induction ws generalizing s with
  | nil => rfl
  | cons w r ih =>
    obtain ⟨hx, hr⟩ := List.nodup_cons.mp hnodup
    rw [byteBit, granuleBit_cons]
    by_cases h : w.granule = a / 32
    · have hout : ∀ x ∈ r, x.granule ≠ a / 32 := fun x hxr hxa => hx (List.mem_map.mpr ⟨x, hxr, hxa.trans h.symm⟩)
      rw [if_pos h, ← memGet_writeGranule (who := who) hw hj h]
      exact congrArg (BitVec.getLsbD · j) (foldl_writeGranule_get r _ who false a (State.writeGranule_wf s who false w hw) hout)
    · rw [if_neg h]
      refine (ih (State.writeGranule_wf s who false w hw) hr).trans ?_
      have hsame := foldl_writeGranule_get [w] s who false a hw fun x hx => by rwa [List.mem_singleton.mp hx]
      exact congrArg (byteBit r a j) (congrArg (BitVec.getLsbD · j) hsame)

end Bits

/-! ### Elements -/

section Elements

variable {ws : List GWrite} {pas : List Nat} {off size value a j k m x : Nat} {taint poison old : Bool}

/-- Byte `p.2` of an element with bits `m` and value `x`, at the physical address `p.1`. -/
def byteWrite (m x : Nat) (taint poison : Bool) (p : Nat × Nat) : GWrite :=
  { granule := p.1 / 32, mask := ((m >>> (8 * p.2)) % 256) <<< (8 * (p.1 % 32)),
    data := ((x >>> (8 * p.2)) % 256) <<< (8 * (p.1 % 32)), taint := taint, poison := poison }

theorem addElem_eq : addElem ws pas off size value taint poison = pas.zipIdx.foldl
    (fun acc p => addGWrite acc (byteWrite ((2 ^ size - 1) <<< off) ((value % 2 ^ size) <<< off) taint poison p)) ws := rfl

/-- Bit `j` of a byte that stands in place `b` of its granule. -/
theorem testBit_placedByte (m i b b' : Nat) (hj : j < 8) : (((m >>> (8 * i)) % 256) <<< (8 * b')).testBit (8 * b + j) =
    (decide (b' = b) && m.testBit (8 * i + j)) := by
  rw [Nat.testBit_shiftLeft, show (256 : Nat) = 2 ^ 8 from rfl, Nat.testBit_mod_two_pow, Nat.testBit_shiftRight]
  by_cases h : b' = b
  · subst h
    simp [hj]
  · by_cases hlt : b' < b
    · simp [h, show ¬ 8 * b + j - 8 * b' < 8 by omega]
    · simp [h, show ¬ 8 * b' ≤ 8 * b + j by omega]

theorem byteBit_addGWrite (hj : j < 8) (p : Nat × Nat) : byteBit (addGWrite ws (byteWrite m x taint poison p)) a j old =
    if p.1 = a ∧ m.testBit (8 * p.2 + j) = true then x.testBit (8 * p.2 + j) else byteBit ws a j old := by
  have hat : p.1 / 32 = a / 32 ∧ p.1 % 32 = a % 32 ↔ p.1 = a := by omega
  unfold byteBit
  simp only [granuleBit_addGWrite, byteWrite, testBit_placedByte _ _ _ _ hj, Bool.and_eq_true, decide_eq_true_eq, ← and_assoc, hat]
  by_cases h : p.1 = a ∧ m.testBit (8 * p.2 + j) = true
  · rw [if_pos h, if_pos h, h.1, decide_eq_true rfl, Bool.true_and]
  · rw [if_neg h, if_neg h]

/-- The byte of an element at an address that no other byte of it has. -/
theorem byteBit_foldl_byteWrite {ps : List (Nat × Nat)} (hj : j < 8) :
    (a ∉ ps.map Prod.fst → byteBit (ps.foldl (fun acc p => addGWrite acc (byteWrite m x taint poison p)) ws) a j old =
      byteBit ws a j old) ∧
    ((ps.map Prod.fst).Nodup → (a, k) ∈ ps → m.testBit (8 * k + j) = true →
      byteBit (ps.foldl (fun acc p => addGWrite acc (byteWrite m x taint poison p)) ws) a j old = x.testBit (8 * k + j)) := by
  induction ps generalizing ws with
  | nil => exact ⟨fun _ => rfl, fun _ h => absurd h (List.not_mem_nil)⟩
  | cons p r ih =>
    rw [List.foldl_cons, List.map_cons]
    refine ⟨fun ha => ?_, fun hnodup hmem hm => ?_⟩
    · obtain ⟨hne, hr⟩ := not_or.mp (mt List.mem_cons.mpr ha)
      rw [ih.1 hr, byteBit_addGWrite hj, if_neg fun h => hne h.1.symm]
    · obtain ⟨hp, hr⟩ := List.nodup_cons.mp hnodup
      rcases List.mem_cons.mp hmem with rfl | hmem
      · rw [ih.1 hp, byteBit_addGWrite hj, if_pos ⟨rfl, hm⟩]
      · exact ih.2 hr hmem hm

theorem map_fst_zipIdx (pas : List Nat) : pas.zipIdx.map Prod.fst = pas := by
  simp

/-- An element changes no byte but its own. -/
theorem byteBit_addElem_of_not_mem (hj : j < 8) (ha : a ∉ pas) :
    byteBit (addElem ws pas off size value taint poison) a j old = byteBit ws a j old :=
  (byteBit_foldl_byteWrite (k := 0) hj).1 (by rwa [map_fst_zipIdx])

/-- The bytes of an element that stands on whole bytes hold its value. -/
theorem byteBit_addElem (hj : j < 8) (hnodup : pas.Nodup) (hk : k < pas.length) (hsize : 8 * pas.length ≤ size) :
    byteBit (addElem ws pas 0 size value taint poison) pas[k] j old = value.testBit (8 * k + j) := by
  have hlt : 8 * k + j < size := by omega
  refine ((byteBit_foldl_byteWrite hj).2 (by rwa [map_fst_zipIdx]) (List.mem_zipIdx_iff_getElem?.mpr
    (List.getElem?_eq_getElem hk)) ?_).trans ?_
  · rw [Nat.shiftLeft_zero, Nat.testBit_two_pow_sub_one, decide_eq_true hlt]
  · rw [Nat.shiftLeft_zero, Nat.testBit_mod_two_pow, decide_eq_true hlt, Bool.true_and]

theorem nodup_addElem (h : (ws.map GWrite.granule).Nodup) :
    ((addElem ws pas off size value taint poison).map GWrite.granule).Nodup :=
  List.foldlRecOn (motive := fun acc : List GWrite => (acc.map GWrite.granule).Nodup) _ _ h fun _ hacc _ _ => nodup_addGWrite hacc _

end Elements

/-! ### Planned stores -/

section Plan

variable {s : State} {p : Planned} {xs : List (Int × Nat × Elt)} {a j k m : Nat} {old : Bool}

theorem length_of_mapM_ok {α β : Type} {g : α → R β} {xs : List α} {ys : List β} (h : xs.mapM g = .ok ys) :
    ys.length = xs.length := by
  induction xs generalizing ys with
  | nil =>
    cases h
    rfl
  | cons x xs ih =>
    rw [List.mapM_cons] at h
    obtain ⟨y, -, h⟩ := bind_ok.mp h
    obtain ⟨zs, hzs, h⟩ := bind_ok.mp h
    cases h
    exact congrArg Nat.succ (ih hzs)

theorem length_bytesOfBits {ba : Int} (hba : ba % 8 = 0) (z : Nat) : (bytesOfBits ba z).length = (z + 7) / 8 := by
  simp [bytesOfBits, hba]

/-- An element that stands on whole bytes has at most its own bytes. -/
theorem State.length_bytesAt (s : State) (vd : Nat) {ba : Int} {z : Nat} (hba : ba % 8 = 0) (hz : z % 8 = 0) :
    8 * (s.bytesAt vd ba z).length ≤ z := by
  unfold State.bytesAt
  cases h : s.transBits vd .wr ba z with
  | error x => exact Nat.zero_le _
  | ok pas =>
    have hlen := length_of_mapM_ok h
    rw [length_bytesOfBits hba] at hlen
    show 8 * pas.length ≤ z
    omega

/-- A store that can be made is added to the plan. -/
def Planned.add (s : State) (p : Planned) (q : Int × Nat × Elt) : Planned :=
  { p with
    ws := addElem p.ws (s.bytesAt s.vd q.1 q.2.1) (q.1 % 8).toNat q.2.1 q.2.2.val q.2.2.taint q.2.2.poison
    units := (elemUnit q.1 q.2.1 q.2.2.val, q.2.2.taint, q.2.2.poison) :: p.units }

/-- Bytes of no planned store stay. -/
theorem byteBit_plan_of_not_mem (hj : j < 8) (ha : a ∉ xs.flatMap fun q => s.bytesAt s.vd q.1 q.2.1) :
    byteBit (xs.foldl (Planned.add s) p).ws a j old = byteBit p.ws a j old := by
  induction xs generalizing p with
  | nil => rfl
  | cons q r ih =>
    obtain ⟨hq, hr⟩ := not_or.mp (mt List.mem_append.mpr ha)
    rw [List.foldl_cons, ih hr]
    exact byteBit_addElem_of_not_mem hj hq

/-- The bytes of a store that no later one touches hold its value. -/
theorem byteBit_plan {q : Int × Nat × Elt} (hj : j < 8) (hq : xs[m]? = some q) (hba : q.1 % 8 = 0) (hz : q.2.1 % 8 = 0)
    (hnodup : (s.bytesAt s.vd q.1 q.2.1).Nodup) (hk : k < (s.bytesAt s.vd q.1 q.2.1).length)
    (hlater : ∀ m' q', m < m' → xs[m']? = some q' → (s.bytesAt s.vd q.1 q.2.1)[k] ∉ s.bytesAt s.vd q'.1 q'.2.1) :
    byteBit (xs.foldl (Planned.add s) p).ws (s.bytesAt s.vd q.1 q.2.1)[k] j old = q.2.2.val.testBit (8 * k + j) := by
  induction xs generalizing p m with
  | nil => cases hq
  | cons y r ih =>
    rw [List.foldl_cons]
    cases m with
    | zero =>
      cases hq
      rw [byteBit_plan_of_not_mem hj, Planned.add, hba]
      · exact byteBit_addElem hj hnodup hk (s.length_bytesAt s.vd hba hz)
      · intro hmem
        obtain ⟨q', hq', hin⟩ := List.mem_flatMap.mp hmem
        obtain ⟨i, hi⟩ := List.getElem?_of_mem hq'
        exact hlater (i + 1) q' (Nat.succ_pos i) hi hin
    | succ m => exact ih hq fun m' q' hm hq' => hlater (m' + 1) q' (Nat.succ_lt_succ hm) hq'

theorem nodup_plan (h : (p.ws.map GWrite.granule).Nodup) : ((xs.foldl (Planned.add s) p).ws.map GWrite.granule).Nodup :=
  List.foldlRecOn (motive := fun acc : Planned => (acc.ws.map GWrite.granule).Nodup) _ _ h fun _ hacc _ _ => nodup_addElem hacc

/-- Once planned stores have been made memory holds them, and is otherwise as it was (R202, R203). -/
theorem storesAt_writeAll {t u : State} {who : Nat} (hw : Memory.wf s.mem = true) (hsight : s.SameSight t)
    (hmem : u.mem = (t.writeAll who (xs.foldl (Planned.add s) {}).ws).mem) :
    s.storesAt u s.vd (xs.map fun q => (q.1, q.2.1, q.2.2.val)) := by
  have hbit {a j : Nat} (hj : j < 8) : (memGet u.mem a).getLsbD j =
      byteBit (xs.foldl (Planned.add s) {}).ws a j ((memGet s.mem a).getLsbD j) := by
    rw [hmem, memGet_writeAll (by rwa [hsight.mem]) hj (nodup_plan (p := {}) List.nodup_nil), hsight.mem]
  refine ⟨fun a ha => BitVec.eq_of_getLsbD_eq fun j hj => ?_,
    fun m q hq hba hz hnodup hlater k hk => BitVec.eq_of_getLsbD_eq fun j hj => ?_⟩
  · rw [List.flatMap_map] at ha
    rw [hbit hj, byteBit_plan_of_not_mem hj ha]
    rfl
  · obtain ⟨y, hy, rfl⟩ : ∃ y, xs[m]? = some y ∧ (y.1, y.2.1, y.2.2.val) = q := by
      rw [List.getElem?_map] at hq
      exact Option.map_eq_some_iff.mp hq
    rw [hbit hj, byteBit_plan hj hy hba hz hnodup hk fun m' q' hm hq' => ?_]
    · rw [BitVec.getLsbD_ofNat, show (256 : Nat) ^ k = 2 ^ (8 * k) by rw [Nat.pow_mul], Nat.testBit_div_two_pow, Nat.add_comm j]
      simp [hj]
    · exact hlater m' (q'.1, q'.2.1, q'.2.2.val) hm (by rw [List.getElem?_map, hq']; rfl) _ (List.getElem_mem hk)

end Plan

/-! ### The plan of a strip (R202, R203) -/

section Strip

variable {s t : State} {z n : Nat} {act : Nat → Bool} {addr : Nat → Option Int} {val : Nat → Elt} {p : Planned}

/-- What position `i` of a strip adds to the plan. -/
def stripStores (z : Nat) (act : Nat → Bool) (addr : Nat → Option Int) (val : Nat → Elt) (i : Nat) : Option (Int × Nat × Elt) :=
  if act i then (addr i).map fun ba => (ba, z, val i) else none

/-- The stores of the first `n` positions of a strip, in order: bit address, size and element. -/
def stripPlan (z n : Nat) (act : Nat → Bool) (addr : Nat → Option Int) (val : Nat → Elt) : List (Int × Nat × Elt) :=
  (List.range n).filterMap (stripStores z act addr val)

theorem Planned.stopped_foldl_add (xs : List (Int × Nat × Elt)) (p : Planned) : (xs.foldl (Planned.add s) p).stopped = p.stopped := by
  induction xs generalizing p with
  | nil => rfl
  | cons q r ih => exact ih _

/-- One position of the walk that `planStrip` makes. -/
def planStep (s : State) (z : Nat) (act : Nat → Bool) (addr : Nat → Option Int) (val : Nat → Elt) (acc : Planned)
    (i : Nat) : Planned :=
  if acc.stopped.isSome || !act i then acc
  else
    match addr i with
    | none => acc
    | some ba =>
      match atElement ba (s.planWrite s.vd acc.ws ba z (val i).val (val i).taint (val i).poison) with
      | .error y => { acc with stopped := some y }
      | .ok ws => { acc with ws := ws, units := (elemUnit ba z (val i).val, (val i).taint, (val i).poison) :: acc.units }

theorem planStrip_succ : planStrip s z (n + 1) act addr val p = planStep s z act addr val (planStrip s z n act addr val p) n := by
  have hfold (m : Nat) : planStrip s z m act addr val p = (List.range m).foldl (planStep s z act addr val) p := rfl
  rw [hfold, hfold, List.range_succ, List.foldl_append, List.foldl_cons, List.foldl_nil]

/-- A position whose element can be written adds its store. -/
theorem planStep_of_writable {i : Nat} (hp : p.stopped = none)
    (hw : ∀ q ∈ stripStores z act addr val i, ∃ pas, s.transBits s.vd .wr q.1 q.2.1 = .ok pas) :
    planStep s z act addr val p i = (stripStores z act addr val i).toList.foldl (Planned.add s) p := by
  unfold planStep
  unfold stripStores at hw ⊢
  cases hact : act i with
  | false => simp
  | true =>
    cases haddr : addr i with
    | none => simp [hp]
    | some ba =>
      obtain ⟨pas, hpas⟩ := hw (ba, z, val i) (by simp [hact, haddr])
      simp only [hp, State.planWrite, hpas, bind, Except.bind, pure, Except.pure, atElement, Planned.add, State.bytesAt,
        Option.isSome_none, Bool.not_true, Bool.or_self, Bool.false_eq_true, if_false, if_true, Option.map_some, Option.toList_some, List.foldl_cons,
        List.foldl_nil]

/-- Where every active element inside the extents can be written, all are planned. -/
theorem planStrip_of_writable (hp : p.stopped = none)
    (hw : ∀ q ∈ stripPlan z n act addr val, ∃ pas, s.transBits s.vd .wr q.1 q.2.1 = .ok pas) :
    planStrip s z n act addr val p = (stripPlan z n act addr val).foldl (Planned.add s) p := by
  unfold stripPlan at hw ⊢
  induction n with
  | zero => rfl
  | succ n ih =>
    rw [List.range_succ, List.filterMap_append] at hw ⊢
    rw [planStrip_succ, ih fun q hq => hw q (List.mem_append_left _ hq), planStep_of_writable (by rw [Planned.stopped_foldl_add, hp]),
      List.foldl_append]
    · cases h : stripStores z act addr val n <;> simp [h]
    · intro q hq
      refine hw q (List.mem_append_right _ ?_)
      simpa using hq

/-- A plan is poisoned where a planned element is. -/
theorem Planned.any_poison_foldl_add (xs : List (Int × Nat × Elt)) (p : Planned) :
    ((xs.foldl (Planned.add s) p).units.any fun u => u.2.2) = ((xs.any fun q => q.2.2.poison) || p.units.any fun u => u.2.2) := by
  induction xs generalizing p with
  | nil => rfl
  | cons q r ih =>
    rw [List.foldl_cons, ih, List.any_cons]
    simp only [Planned.add, List.any_cons]
    ac_rfl

/-- Planning reads no more of the state than translation does. -/
theorem Planned.add_congr (h : s.SameSight t) : Planned.add t = Planned.add s := by
  have hvd : t.vd = s.vd := by simp only [State.vd, h.vdid]
  funext p q
  simp only [Planned.add, State.bytesAt, h.transBits, hvd]

/-! ### Performing a plan -/

theorem State.writeAll_me (s : State) (who : Nat) (ws : List GWrite) :
    ∃ stale wseq sseq, (s.writeAll who ws).me = { s.me with stale := stale, wseq := wseq, sseq := sseq } :=
  List.foldlRecOn (motive := fun t : State => ∃ stale wseq sseq, t.me = { s.me with stale := stale, wseq := wseq, sseq := sseq })
    _ _ ⟨_, _, _, rfl⟩ fun t ⟨stale, wseq, sseq, ht⟩ w _ => by
      obtain ⟨stale', wseq', sseq', hw⟩ := t.writeGranule_me who false w
      exact ⟨stale', wseq', sseq', by rw [hw, ht]⟩

/-- The digest of the strand alone takes units (R390). -/
theorem Strand.foldUnits_form (m : Strand) (second : Bool) (us : List (Nat × Bool × Bool)) : ∃ fold ft fp fold2 ft2 fp2,
    us.foldl (fun acc u => acc.foldUnit second u.1 u.2.1 u.2.2) m = { m with
      fold := fold, foldTaint := ft, foldPoison := fp, fold2 := fold2, fold2Taint := ft2, fold2Poison := fp2 } := by
  induction us generalizing m with
  | nil => exact ⟨_, _, _, _, _, _, rfl⟩
  | cons u r ih =>
    obtain ⟨fold, ft, fp, fold2, ft2, fp2, h⟩ := ih (m.foldUnit second u.1 u.2.1 u.2.2)
    rw [List.foldl_cons, h]
    refine ⟨fold, ft, fp, fold2, ft2, fp2, ?_⟩
    unfold Strand.foldUnit
    cases second <;> rfl

theorem State.perform_mem (s : State) (pc : Word) (p : Planned) : (s.perform pc p).mem = (s.writeAll s.me.sid p.ws).mem := rfl

/-- Planned stores change of the strand no more than its snapshot, the counts of its writes and its digest. -/
theorem State.perform_me (s : State) (pc : Word) (p : Planned) : ∃ stale wseq sseq fold ft fp fold2 ft2 fp2,
    (s.perform pc p).me = { s.me with
      stale := stale, wseq := wseq, sseq := sseq, fold := fold, foldTaint := ft, foldPoison := fp, fold2 := fold2, fold2Taint := ft2,
      fold2Poison := fp2 } := by
  obtain ⟨stale, wseq, sseq, hw⟩ := s.writeAll_me s.me.sid p.ws
  obtain ⟨fold, ft, fp, fold2, ft2, fp2, hf⟩ := (s.writeAll s.me.sid p.ws).me.foldUnits_form (s.isConsumer pc) p.units
  refine ⟨stale, wseq, sseq, fold, ft, fp, fold2, ft2, fp2, hf.trans ?_⟩
  rw [hw]

end Strip

/-! ### VST (R198 to R203) -/

theorem map_stripPlan (z n : Nat) (act : Nat → Bool) (addr : Nat → Option Int) (val : Nat → Elt) :
    (stripPlan z n act addr val).map (fun q => (q.1, q.2.1, q.2.2.val)) =
      ((List.range n).filter act).filterMap fun k => (addr k).map fun ba => (ba, z, (val k).val) := by
  rw [stripPlan, List.map_filterMap, List.filterMap_filter]
  refine congrArg (List.filterMap · _) (funext fun k => ?_)
  unfold stripStores
  cases act k
  · rfl
  · simp only [if_true, Option.map_map]
    rfl

theorem any_stripPlan (z n : Nat) (act : Nat → Bool) (addr : Nat → Option Int) (val : Nat → Elt) :
    (stripPlan z n act addr val).any (fun q => q.2.2.poison) =
      (List.range n).any fun k => act k && (addr k).isSome && (val k).poison := by
  rw [stripPlan, List.any_filterMap]
  refine congrArg (List.any _) (funext fun k => ?_)
  unfold stripStores
  cases act k <;> cases addr k <;> rfl

section Store

variable {s : State} {e : Entry} {f : Fields} {p : Strip}

/-- An element as VST stores it: address registers count as data (log entry 32). -/
def storedElt (e : Entry) (x : Elt) : Elt := { x with taint := x.taint || gvTainted e, poison := x.poison || gvPoisoned e }

/-- The stores of a VST: its elements, then for a kb format the scales of the active blocks (R200). -/
def storePlan (s : State) (e : Entry) (f : Fields) (p : Strip) : List (Int × Nat × Elt) :=
  stripPlan (Fmt.size f.fmt.toNat) (count e.strip) (isActive s e f e.strip) p.addr
      (fun i => storedElt e ((s.me.getV f.d.toNat).elem (Fmt.size f.fmt.toNat) i)) ++
    if Fmt.isK f.fmt.toNat then
      stripPlan 8 (count [e.rows.toNat, ceilDiv e.cols.toNat e.blk])
        (fun b => blockActive e.cols.toNat e.blk b (isActive s e f e.strip)) p.scale
        (fun b => storedElt e ((s.me.getV f.e.toNat).elem 8 b))
    else []

/-- The walks over the elements and the scales of a VST. -/
def storeWalk (s : State) (e : Entry) (f : Fields) (p : Strip) : Planned :=
  let pl := planStrip s (Fmt.size f.fmt.toNat) (count e.strip) (isActive s e f e.strip) p.addr
    (fun i => storedElt e ((s.me.getV f.d.toNat).elem (Fmt.size f.fmt.toNat) i)) {}
  if Fmt.isK f.fmt.toNat && pl.stopped.isNone then
    planStrip s 8 (count [e.rows.toNat, ceilDiv e.cols.toNat e.blk])
      (fun b => blockActive e.cols.toNat e.blk b (isActive s e f e.strip)) p.scale
      (fun b => storedElt e ((s.me.getV f.e.toNat).elem 8 b)) pl
  else pl

theorem storeWalk_eq (hw : ∀ q ∈ storePlan s e f p, ∃ pas, s.transBits s.vd .wr q.1 q.2.1 = .ok pas) :
    storeWalk s e f p = (storePlan s e f p).foldl (Planned.add s) {} := by
  unfold storePlan at hw ⊢
  unfold storeWalk
  rw [planStrip_of_writable rfl fun q hq => hw q (List.mem_append_left _ hq), List.foldl_append]
  cases hk : Fmt.isK f.fmt.toNat with
  | false => rfl
  | true =>
    rw [hk] at hw
    simp only [Planned.stopped_foldl_add, Option.isNone_none, Bool.and_self, if_true]
    exact planStrip_of_writable (Planned.stopped_foldl_add _ _) fun q hq => hw q (List.mem_append_right _ hq)

/-- A VST all of whose elements can be written, and which no splice elides. -/
theorem storeStrip_of_writable (hstrip : stripOf s e f = .ok (p, .ok ())) (hmasks : checkMasks s e f e.strip = .ok ())
    (hscales : Fmt.isK f.fmt.toNat = true → (s.me.getV f.e.toNat).shape = [e.rows.toNat, ceilDiv e.cols.toNat e.blk])
    (hcount : count e.strip ≤ count (s.me.getV f.d.toNat).shape)
    (hcap : count (s.me.getV f.d.toNat).shape ≤ capacity e.grows.toNat (Fmt.size f.fmt.toNat))
    (htnt : trapsTaint f = true → gvTainted e = false ∧ e.qt = 0 ∧ s.masksTainted e f = false ∧
      (s.me.getV f.d.toNat).taint = false ∧ (s.me.getV f.e.toNat).taint = false)
    (htrap : s.poisonTrap = true → ((storePlan s e f p).any fun q => q.2.2.poison) = false)
    (hw : ∀ q ∈ storePlan s e f p, ∃ pas, s.transBits s.vd .wr q.1 q.2.1 = .ok pas)
    (hsplice : s.spliceWord? s.me.launch.toNat e.pc = none) :
    storeStrip e f s = .done ((s.raise (flagIf ((storePlan s e f p).any fun q => q.2.2.poison) flPSN)).perform e.pc
      ((storePlan s e f p).foldl (Planned.add s) {})) := by
  have hscales' : require (!Fmt.isK f.fmt.toNat ||
      (s.me.getV f.e.toNat).shape == [e.rows.toNat, ceilDiv e.cols.toNat e.blk]) cAGREE = .ok () := by
    refine require_of ?_ _
    cases hk : Fmt.isK f.fmt.toNat with
    | false => rfl
    | true => simp [hscales hk]
  have htaint : require (!(trapsTaint f && (((List.range (count e.strip)).any (isActive s e f e.strip) &&
      ((s.me.getV f.d.toNat).taint || (Fmt.isK f.fmt.toNat && (s.me.getV f.e.toNat).taint) || s.masksTainted e f)) ||
        gvTainted e || e.qt != 0))) cTAINT = .ok () := by
    refine require_of ?_ _
    cases ht : trapsTaint f with
    | false => rfl
    | true =>
      obtain ⟨hgv, hqt, hm, hv, hsc⟩ := htnt ht
      simp [hgv, hqt, hm, hv, hsc]
  have helided : elided s e f = false := by
    unfold elided
    rw [hsplice, Bool.and_false]
  unfold storeStrip
  simp only [hstrip, hmasks, hscales', htaint, hcount, hcap, require_of, decide_true, Bool.and_self, bind, Except.bind,
    pure, Except.pure]
  have hwalk := storeWalk_eq hw
  unfold storeWalk storedElt at hwalk
  simp only [hwalk, Planned.any_poison_foldl_add, Planned.stopped_foldl_add, helided, List.any_nil, Bool.or_false, Bool.false_eq_true,
    if_false]
  exact if_neg (not_and_of_imp_false htrap)

/-- A VST that no splice names is served as soon as it is fetched (R13). -/
theorem runArray_of_unspliced {op : BitVec 8} {body : Entry → State → Served} (h : s.serves op f)
    (hsplice : s.spliceWord? s.me.launch.toNat s.me.pc = none) :
    runArray op f s body = .next ((body (s.capture op f) (s.entered op f)).close (s.capture op f) s.nextId) := by
  obtain ⟨hq, -, hw, -, -, hg, hz, hm⟩ := h
  have hcaptured : s.storeCaptured (s.capture op f) f = s.me.spliced := by
    unfold State.storeCaptured
    rw [show (s.capture op f).pc = s.me.pc from rfl, hsplice]
  have htiles : ((namedZ op.toNat f).any fun n => decide (tilesOf s.me.place.res ≤ n)) = false := by
    simpa only [List.any_eq_false, decide_eq_true_eq, not_le] using hz
  have henter : s.enter op f = .ok (s.entered op f, s.capture op f) := by
    unfold State.enter State.entered
    simp only [htiles, hq, hg, hcaptured, Bool.false_eq_true, if_false, Bool.not_true, State.advance_eq, List.nil_append]
    exact if_neg (by rw [decide_eq_true_eq, List.length_nil]; split <;> omega)
  unfold runArray
  rw [hq]
  simp only [henter]
  refine congrArg _ (State.serve_eq_close hw (hm.imp (fun h => ?_) id))
  rw [h]
  rfl

end Store

/-- Settles O35: the walks plan every store (`storeWalk_eq`), and memory takes the planned bytes (`storesAt_writeAll`). -/
theorem stripStore : Obligations.StripStore := by
  unfold Obligations.StripStore
  intro i f s p e z isK sh ssh act bact v sc stored psn hi hinv hserves hsplice hstrip hmasks hscales hcount hcap htnt htrap hw
  have hexec : exec i s = runArray 0x42 f s (storeStrip · f ·) := by
    rcases hi with rfl | rfl
    · dsimp only [exec, execVstTid]
    · dsimp only [exec, execVstPtr]
  have hsh : e.strip = sh := capture_strip rfl (by decide) (by decide) (by decide)
  obtain ⟨hrows, hcols⟩ : e.rows.toNat = s.me.rows.toNat ∧ e.cols.toNat = s.me.cols.toNat := by
    have hsh' := hsh
    simpa only [Entry.strip, sh, List.cons.injEq, and_true] using hsh'
  have hsight := s.sameSight_entered 0x42 f
  have hplan : storePlan (s.entered 0x42 f) e f p =
      stripPlan z (count sh) act p.addr (fun k => storedElt e (v.elem z k)) ++
        if isK then stripPlan 8 (count ssh) bact p.scale (fun b => storedElt e (sc.elem 8 b)) else [] := by
    rw [storePlan, hsh, hrows, hcols]
    rfl
  have hstored : (storePlan (s.entered 0x42 f) e f p).map (fun q => (q.1, q.2.1, q.2.2.val)) = stored := by
    rw [hplan, List.map_append, map_stripPlan]
    refine congrArg (_ ++ ·) ?_
    cases isK with
    | false => rfl
    | true => exact map_stripPlan ..
  have hpsn : ((storePlan (s.entered 0x42 f) e f p).any fun q => q.2.2.poison) = psn := by
    rw [hplan, List.any_append, any_stripPlan]
    refine congrArg (_ || ·) ?_
    cases isK with
    | false => rfl
    | true => exact any_stripPlan ..
  have hwrites : ∀ q ∈ storePlan (s.entered 0x42 f) e f p,
      ∃ pas, (s.entered 0x42 f).transBits (s.entered 0x42 f).vd .wr q.1 q.2.1 = .ok pas := fun q hq => by
    obtain ⟨pas, hpas⟩ := hw (q.1, q.2.1, q.2.2.val) (by rw [← hstored]; exact List.mem_map_of_mem hq)
    exact ⟨pas, (hsight.transBits _ _ _ _).trans hpas⟩
  have hserve := storeStrip_of_writable (s := s.entered 0x42 f) (e := e) (f := f) (p := p) hstrip (by rwa [hsh])
    (by rwa [hrows, hcols]) (by rwa [hsh]) hcap htnt (by rw [hpsn]; exact htrap) hwrites hsplice
  rw [hpsn, Planned.add_congr hsight] at hserve
  have hraised : s.SameSight ((s.entered 0x42 f).raise (flagIf psn flPSN)) :=
    ⟨rfl, rfl, rfl, rfl, rfl, rfl, rfl, rfl, rfl, rfl, rfl⟩
  have hregs : ((s.entered 0x42 f).raise (flagIf psn flPSN)).me = { s.me with
      pc := s.me.pc + 16, issued := s.now, queue := [e], flags := s.me.flagged (flagIf psn flPSN) } := rfl
  generalize (s.entered 0x42 f).raise (flagIf psn flPSN) = u at hserve hraised hregs
  obtain ⟨stale, wseq, sseq, fold, ft, fp, fold2, ft2, fp2, hme⟩ :=
    u.perform_me e.pc ((storePlan (s.entered 0x42 f) e f p).foldl (Planned.add s) {})
  refine ⟨_, hexec.trans ((runArray_of_unspliced hserves hsplice).trans
    (congrArg _ (congrArg (fun r => Served.close r e s.nextId) hserve))), ?_⟩
  rw [Served.close, State.retire_eq, hme, hregs]
  refine ⟨rfl, rfl, ?_, rfl, rfl, rfl, ⟨rfl, rfl, rfl, rfl⟩, by simp [Strand.sameSpecial]⟩
  rw [← hstored]
  exact storesAt_writeAll hinv hraised (u.perform_mem e.pc _)

end Sys2Proof.Machine
end

section
/-! ## Array instructions, elementwise (spec 10): strip grants (R195, R196, R33) -/

namespace Sys2Proof.Machine

/-! ### The pointers of a strip (R194, R195) -/

section Pointers

variable {f : Fields} {n j r : Nat} {m : Strand}

theorem setlReg_lt (imm k : Nat) : setlReg imm k < 32 := by
  rw [setlReg, bits_eq_div_mod, show 8 * k + 4 + 1 - 8 * k = 5 by omega]
  exact Nat.mod_lt _ (by decide)

/-- The pointer of slot `k` advances by `n` elements; slots that name g0 are empty (R194). -/
def Strand.advance (f : Fields) (n : Nat) (m : Strand) (k : Nat) : Strand :=
  let r := setlReg f.imm.toNat k
  if r = 0 then m
  else m.setG r { m.getG r with val := (m.getG r).val + BitVec.ofNat 64 (n * setlUnit f.imm.toNat f.fn.toNat k) }

/-- What the slots before `j` advance the register `r` by. -/
def pointerSum (f : Fields) (n j r : Nat) : Nat :=
  ((List.range j).filter fun k => setlReg f.imm.toNat k == r && r != 0).foldl
    (fun acc k => acc + n * setlUnit f.imm.toNat f.fn.toNat k) 0

theorem pointerSum_succ (f : Fields) (n j r : Nat) : pointerSum f n (j + 1) r =
    pointerSum f n j r + if setlReg f.imm.toNat j = r ∧ r ≠ 0 then n * setlUnit f.imm.toNat f.fn.toNat j else 0 := by
  unfold pointerSum
  rw [List.range_succ, List.filter_append, List.foldl_append]
  by_cases h : setlReg f.imm.toNat j = r ∧ r ≠ 0
  · simp [h]
  · have hb : (setlReg f.imm.toNat j == r && r != 0) = false := by simpa using h
    rw [if_neg h, List.filter_singleton, hb]
    simp

theorem Strand.getG_advance (f : Fields) (n : Nat) (m : Strand) (k r : Nat) : (m.advance f n k).getG r =
    if setlReg f.imm.toNat k = r ∧ r ≠ 0 then
      { m.getG r with val := (m.getG r).val + BitVec.ofNat 64 (n * setlUnit f.imm.toNat f.fn.toNat k) }
    else m.getG r := by
  unfold Strand.advance
  by_cases h0 : setlReg f.imm.toNat k = 0
  · rw [if_pos h0, if_neg fun h => h.2 (h.1.symm.trans h0)]
  · rw [if_neg h0, Strand.getG_setG _ _ _ _ (setlReg_lt _ _)]
    by_cases hr : r = setlReg f.imm.toNat k
    · subst hr
      simp [h0]
    · rw [ite_cond_eq_false _ _ (eq_false hr), ite_self, if_neg fun h => hr h.1.symm]

/-- Each slot that names a register advances it (R195). -/
theorem Strand.getG_pointers_val (f : Fields) (n j r : Nat) (m : Strand) :
    (((List.range j).foldl (Strand.advance f n) m).getG r).val = (m.getG r).val + BitVec.ofNat 64 (pointerSum f n j r) := by
  induction j with
  | zero => exact (BitVec.add_zero _).symm
  | succ j ih =>
    rw [List.range_succ, List.foldl_append, List.foldl_cons, List.foldl_nil, Strand.getG_advance, pointerSum_succ]
    split
    · rw [ih, BitVec.ofNat_add, BitVec.add_assoc]
    · rw [ih, Nat.add_zero]

/-- A register that no slot names is not advanced. -/
theorem Strand.getG_pointers_of_unnamed (h : ∀ k < j, setlReg f.imm.toNat k ≠ r) :
    ((List.range j).foldl (Strand.advance f n) m).getG r = m.getG r := by
  induction j with
  | zero => rfl
  | succ j ih =>
    rw [List.range_succ, List.foldl_append, List.foldl_cons, List.foldl_nil, Strand.getG_advance,
      if_neg fun hj => h j j.lt_succ_self hj.1, ih fun k hk => h k (hk.trans j.lt_succ_self)]

/-- One slot of the walk of `advancePointers`: a register that no earlier slot names is read from the entry. -/
def pointerStep (e : Entry) (f : Fields) (n : Nat) (acc : Strand × List Nat) (k : Nat) : Strand × List Nat :=
  let r := setlReg f.imm.toNat k
  if r == 0 then acc
  else
    let cur := if acc.2.contains r then acc.1.getG r else (e.gv[4 + k]?).getD {}
    (acc.1.setG r { cur with val := cur.val + BitVec.ofNat 64 (n * setlUnit f.imm.toNat f.fn.toNat k) }, r :: acc.2)

theorem pointerStep_eq {e : Entry} {acc : Strand × List Nat} {k : Nat}
    (hgv : (e.gv[4 + k]?).getD {} = m.getG (setlReg f.imm.toNat k)) (hacc : ∀ r ∉ acc.2, acc.1.getG r = m.getG r) :
    (pointerStep e f n acc k).1 = acc.1.advance f n k ∧
      ∀ r ∉ (pointerStep e f n acc k).2, (acc.1.advance f n k).getG r = m.getG r := by
  unfold pointerStep
  by_cases h0 : setlReg f.imm.toNat k = 0
  · simp only [h0, Strand.advance, beq_self_eq_true, if_true]
    exact ⟨trivial, hacc⟩
  · have hcur : (if acc.2.contains (setlReg f.imm.toNat k) then acc.1.getG (setlReg f.imm.toNat k) else (e.gv[4 + k]?).getD {}) =
        acc.1.getG (setlReg f.imm.toNat k) := by
      rw [hgv]
      by_cases hin : setlReg f.imm.toNat k ∈ acc.2
      · rw [if_pos (List.contains_iff_mem.mpr hin)]
      · rw [if_neg fun h => hin (List.contains_iff_mem.mp h), hacc _ hin]
    simp only [hcur, beq_eq_false_iff_ne.mpr h0, Bool.false_eq_true, if_false]
    refine ⟨by rw [Strand.advance, if_neg h0], fun r hr => ?_⟩
    obtain ⟨hne, hr⟩ := not_or.mp (mt List.mem_cons.mpr hr)
    rw [Strand.getG_advance, if_neg fun h => hne h.1.symm, hacc r hr]

/-- Where the entry has captured the pointers of the strand, each slot advances the register that it names. -/
theorem advancePointers_eq {e : Entry} (hgv : ∀ k < 4, (e.gv[4 + k]?).getD {} = m.getG (setlReg f.imm.toNat k)) :
    advancePointers e f n m = (List.range 4).foldl (Strand.advance f n) m := by
  have hwalk (j : Nat) (hj : j ≤ 4) :
      ((List.range j).foldl (pointerStep e f n) (m, [])).1 = (List.range j).foldl (Strand.advance f n) m ∧
      ∀ r ∉ ((List.range j).foldl (pointerStep e f n) (m, [])).2, ((List.range j).foldl (Strand.advance f n) m).getG r = m.getG r := by
    induction j with
    | zero => exact ⟨rfl, fun _ _ => rfl⟩
    | succ j ih =>
      obtain ⟨hfst, hsnd⟩ := ih (by omega)
      rw [List.range_succ, List.foldl_append, List.foldl_append, List.foldl_cons, List.foldl_nil, List.foldl_cons, List.foldl_nil]
      rw [← hfst] at hsnd ⊢
      exact pointerStep_eq (hgv j (by omega)) hsnd
  exact (hwalk 4 le_rfl).1

end Pointers

theorem capture_pointer {s : State} {f : Fields} {k : Nat} (hk : k < 4) :
    ((s.capture 0x40 f).gv[4 + k]?).getD {} = s.me.getG (setlReg f.imm.toNat k) := by
  have h8 : 4 + k < 8 := by omega
  have hzip : (([f.d.toNat, f.a.toNat, f.b.toNat, f.c.toNat, f.e.toNat].zip (readsG 0x40 f)).map fun p =>
      if p.2 then s.me.getG p.1 else {}).length = 5 := by
    unfold readsG
    cases opSpec (BitVec.ofNat 8 0x40) f <;> rfl
  have hfour (l : List GReg) (hl : l.length = 5) (g : Nat → GReg) : (l.take 4 ++ (List.range 4).map g)[4 + k]? = some (g k) := by
    rw [List.getElem?_append_right (by simp [hl])]
    simp [hl, hk]
  have hgv : (s.capture 0x40 f).gv = (Vector.range 8).map fun i => ((([f.d.toNat, f.a.toNat, f.b.toNat, f.c.toNat,
      f.e.toNat].zip (readsG 0x40 f)).map fun p => if p.2 then s.me.getG p.1 else {}).take 4 ++
        (List.range 4).map fun k => s.me.getG (setlReg f.imm.toNat k))[i]?.getD {} := rfl
  rw [hgv, Vector.getElem?_map, Vector.getElem?_eq_getElem h8, Vector.getElem_range, Option.map_some, hfour _ hzip]
  rfl

/-! ### SETL without a watch (R195, R196) -/

section Grant

variable {s : State} {e : Entry} {f : Fields}

/-- What a SETL writes to g[D]: the rows granted, with the taint and poison of g[A], g[B] and g[C]. -/
def Entry.grantOut (e : Entry) (r : Nat) : GReg :=
  { val := BitVec.ofNat 64 r, taint := e.ga.taint || e.gb.taint || e.gc.taint
    poison := e.ga.poison || e.gb.poison || e.gc.poison }

/-- The strand once a SETL has granted `r` rows: the pointers advance before g[D] is written (R195, R196). -/
def Strand.granted (m : Strand) (e : Entry) (f : Fields) (r : Nat) : Strand :=
  let m1 : Strand := { advancePointers e f (e.rows.toNat * e.cols.toNat) m with
    rows := BitVec.ofNat 16 r, cols := BitVec.ofNat 16 e.setlCols, stripb := BitVec.ofNat 64 e.setlBase }
  let m2 := (m1.raise (flagIf (gvPoisoned e) flPSN)).setG f.d.toNat (e.grantOut r)
  if r = 0 ∧ bits f.imm.toNat 47 32 ≠ 0 then
    { m2 with pc := e.pc + (BitVec.ofNat 16 (bits f.imm.toNat 47 32)).signExtend 64 * 16 }
  else m2

/-- A SETL without a watch, whose sources do not trap and which joins no strip of a splice, grants at once. -/
theorem serveSetl_of_unwatched (hcons : s.consumes e f (gvTainted e) (gvPoisoned e)) (hgc : e.gc.val.toNat = 0)
    (hsplice : s.spliceWord? s.me.launch.toNat e.pc = none) :
    serveSetl e f s = .done { s with me := s.me.granted e f (e.setlRows s.me.grows) } := by
  unfold serveSetl Strand.granted Entry.setlRows Entry.setlCols Entry.setlBase
  simp only [hcons.require_taint, hcons.require_poison, require, hgc, watchLimit, hsplice, beq_self_eq_true, beq_iff_eq, if_true,
    bind, Except.bind, pure, Except.pure, Option.bind_none, Option.isSome_none, Bool.false_eq_true, if_false, Bool.and_eq_true,
    bne_iff_ne]
  rfl

/-- A grant changes general registers, FLAGS, the grant and the PC. -/
theorem Strand.granted_form (m : Strand) (e : Entry) (f : Fields) (r : Nat) : ∃ flags, m.granted e f r = { m with
    g := ((advancePointers e f (e.rows.toNat * e.cols.toNat) m).setG f.d.toNat (e.grantOut r)).g
    flags := flags
    rows := BitVec.ofNat 16 r, cols := BitVec.ofNat 16 e.setlCols, stripb := BitVec.ofNat 64 e.setlBase
    pc := if r = 0 ∧ bits f.imm.toNat 47 32 ≠ 0 then e.pc + (BitVec.ofNat 16 (bits f.imm.toNat 47 32)).signExtend 64 * 16
      else m.pc } := by
  unfold Strand.granted
  obtain ⟨g, fl, hp⟩ := advancePointers_form e f (e.rows.toNat * e.cols.toNat) m
  rw [hp]
  obtain ⟨fl₁, h₁⟩ := Strand.setG_flags { m with g := g, flags := fl } f.d.toNat (e.grantOut r)
  dsimp only
  obtain ⟨fl₂, h₂⟩ := Strand.setG_flags (Strand.raise { m with
    g := g, flags := fl, rows := BitVec.ofNat 16 r, cols := BitVec.ofNat 16 e.setlCols, stripb := BitVec.ofNat 64 e.setlBase }
    (flagIf (gvPoisoned e) flPSN)) f.d.toNat (e.grantOut r)
  rw [h₁, h₂]
  exact ⟨fl₂, by split <;> rfl⟩

end Grant

/-- What the capture of a SETL holds beside its registers (R14, R18). -/
theorem capture_setl (s : State) (f : Fields) : (s.capture 0x40 f).rows = s.me.rows ∧ (s.capture 0x40 f).cols = s.me.cols ∧
    (s.capture 0x40 f).stripb = s.me.stripb ∧ (s.capture 0x40 f).vcfg = s.me.vcfg ∧
    (s.capture 0x40 f).grows.toNat = s.me.grows := by
  refine ⟨rfl, rfl, ?_, ?_, ?_⟩
  · have h : (readsOf 0x40 f s.me.vcfg.toNat s.myLaunch.det).stripb = true := by
      unfold readsOf
      simp only [beq_self_eq_true, Bool.or_true, Bool.true_or]
    exact congrArg (keepIf · s.me.stripb) h
  · have h : (readsOf 0x40 f s.me.vcfg.toNat s.myLaunch.det).vcfg = true := by
      unfold readsOf
      simp only [List.contains_cons, beq_self_eq_true, Bool.true_or, Bool.or_true]
    exact congrArg (keepIf · s.me.vcfg) h
  · rw [show (s.capture 0x40 f).grows = BitVec.ofNat 16 s.me.grows from rfl, BitVec.toNat_ofNat]
    exact Nat.mod_eq_of_lt (growsOf_lt _)

/-- The branch distance of a SETL, in words (R196). -/
theorem setl_offset (imm : BitVec 48) : bits imm.toNat 47 32 = imm.toNat / 2 ^ 32 := by
  rw [bits_eq_div_mod]
  exact Nat.mod_eq_of_lt (by have := imm.isLt; omega)

/-- Settles O36: without a watch the rows granted are those that fit (`serveSetl_of_unwatched`); the pointers advance slot by slot
(`advancePointers_eq`). -/
theorem stripGrant : Obligations.StripGrant := by
  unfold Obligations.StripGrant
  intro f s e n capE cols rows off slots hserves hgc hcons hd hsplice
  refine ⟨?_, fun u hu => ⟨fun hwake => ?_, fun hwake => ?_⟩⟩
  · obtain ⟨hrowsE, hcolsE, hstripbE, hvcfgE, hgrowsE⟩ := capture_setl s f
    have hcons' : s.consumes e f (gvTainted e) (gvPoisoned e) := ⟨fun h => ⟨(hcons.1 h).2.1, (hcons.1 h).2⟩, hcons.2⟩
    have hn : e.rows.toNat * e.cols.toNat = n := by rw [hrowsE, hcolsE]
    have hcols : e.setlCols = cols := by
      rw [Entry.setlCols, hgrowsE, hvcfgE, bits_zero_eq_mod]
      rfl
    have hrows : e.setlRows s.me.grows = rows := by
      rw [Entry.setlRows, hcols, hgrowsE, hvcfgE, bits_zero_eq_mod, Nat.min_self]
      rfl
    have hpointers : advancePointers e f n (s.entered 0x40 f).me = (List.range 4).foldl (Strand.advance f n) (s.entered 0x40 f).me :=
      advancePointers_eq fun k hk => capture_pointer hk
    have hexec : exec (.setl f) s = .next ((Served.done { s.entered 0x40 f with
        me := (s.entered 0x40 f).me.granted e f rows }).close e s.nextId) := by
      dsimp only [exec, execSetl]
      rw [runArray_of_serves hserves (by decide), ← hrows]
      exact congrArg _ (congrArg (fun r => Served.close r e s.nextId)
        (serveSetl_of_unwatched (s := s.entered 0x40 f) hcons' (by rw [hgc]; rfl) hsplice))
    obtain ⟨flags, hform⟩ := (s.entered 0x40 f).me.granted_form e f rows
    have hset (r : Nat) : (((advancePointers e f n (s.entered 0x40 f).me).setG f.d.toNat (e.grantOut rows)).getG r) =
        if f.d.toNat = 0 ∨ r = 0 then ((List.range 4).foldl (Strand.advance f n) (s.entered 0x40 f).me).getG r
        else if r = f.d.toNat then e.grantOut rows
        else ((List.range 4).foldl (Strand.advance f n) (s.entered 0x40 f).me).getG r := by
      rw [hpointers, Strand.getG_setG _ _ _ _ hd]
    have hother {r : Nat} (hr : r ≠ f.d.toNat) :
        (((advancePointers e f n (s.entered 0x40 f).me).setG f.d.toNat (e.grantOut rows)).getG r) =
        ((List.range 4).foldl (Strand.advance f n) (s.entered 0x40 f).me).getG r := by
      rw [hset, if_neg hr, ite_self]
    rw [hform, hn, hcols, Served.close, State.retire_eq] at hexec
    refine ⟨_, hexec, rfl, ?_, rfl, rfl, fun hd0 => ?_, ?_, fun r hr => ?_, fun r hslots hr => ?_, ⟨fun _ => rfl, rfl, rfl⟩, rfl,
      ⟨rfl, rfl, rfl, rfl⟩, rfl, rfl⟩
    · show BitVec.ofNat 64 e.setlBase = _
      rw [Entry.setlBase, hn, hstripbE]
      exact BitVec.eq_of_toNat_eq (by simp)
    · have hd0' : f.d.toNat ≠ 0 := fun h => hd0 (BitVec.eq_of_toNat_eq h)
      exact (congrArg GReg.val (hset f.d.toNat)).trans (by rw [if_neg (by simpa using hd0'), if_pos rfl]; rfl)
    · show (if rows = 0 ∧ bits f.imm.toNat 47 32 ≠ 0 then _ else _) = _
      rw [setl_offset, BitVec.ofInt_mul]
      rfl
    · exact (congrArg GReg.val (hother hr)).trans (Strand.getG_pointers_val f n 4 r _)
    · refine (hother hr).trans (Strand.getG_pointers_of_unnamed fun k hk h => hslots ?_)
      exact List.mem_map.mpr ⟨k, List.mem_range.mpr hk, h⟩
  · dsimp only [exec, execSetlWake]
    rw [hu]
    exact if_pos hwake
  · dsimp only [exec, execSetlWake]
    rw [hu]
    exact if_neg (by rw [hwake]; exact Bool.false_ne_true)

end Sys2Proof.Machine
end

section
/-! ## Structural array instructions (spec 11): indices of shapes, and results that go to an array register

Index lists that lie within a shape (`Within`), the units that a result is cut into (`flatten_cutUnits`), and what a structural word
leaves in its array register once every element of its operands can be read (`runPlan_register`, `runMove_register`). -/

namespace Sys2Proof.Machine

/-! ### Indices (R48) -/

/-- An index list lies within a shape: as many indices as extents, each below its own. -/
def Within (idx sh : List Nat) : Prop := List.Forall₂ (· < ·) idx sh

section Indices

variable {idx idx' sh sh' fr c : List Nat} {i j n : Nat}

theorem Within.length_eq (h : Within idx sh) : idx.length = sh.length := List.Forall₂.length_eq h

theorem Within.append (h : Within idx sh) (h' : Within idx' sh') : Within (idx ++ idx') (sh ++ sh') := List.rel_append h h'

theorem Within.cons (hi : i < n) (h : Within idx sh) : Within (i :: idx) (n :: sh) := List.Forall₂.cons hi h

theorem Within.take (h : Within idx sh) (k : Nat) : Within (idx.take k) (sh.take k) := List.forall₂_take k h

theorem Within.drop (h : Within idx sh) (k : Nat) : Within (idx.drop k) (sh.drop k) := List.forall₂_drop k h

/-- The leading index of a list within a shape that has an axis. -/
theorem Within.head_lt (h : Within idx (n :: sh)) : idx.headD 0 < n := by
  obtain ⟨i, idx, hi, -, rfl⟩ := List.forall₂_cons_right_iff.mp h
  exact hi

theorem Within.getD_lt (h : Within idx sh) (hj : j < sh.length) : idx.getD j 0 < sh.getD j 1 := by
  have hj' : j < idx.length := h.length_eq ▸ hj
  rw [List.getD_eq_getElem _ _ hj', List.getD_eq_getElem _ _ hj]
  exact (List.forall₂_iff_get.mp h).2 j hj' hj

theorem unravel_cons (n : Nat) (sh : List Nat) (i : Nat) : unravel (n :: sh) i = i / count sh % n :: unravel sh i := by
  have hrest (sh : List Nat) : (sh.foldr (fun n acc => ((acc.2 % n) :: acc.1, acc.2 / n)) (([] : List Nat), i)).2 = i / count sh := by
    induction sh with
    | nil => exact (Nat.div_one i).symm
    | cons m r ih => rw [List.foldr_cons, ih, count_cons, Nat.div_div_eq_div_mul, Nat.mul_comm m]
  unfold unravel
  rw [List.foldr_cons, hrest]

/-- The indices of an element of a shape. -/
theorem within_unravel (h : i < count sh) : Within (unravel sh i) sh := by
  have hpos : 0 < count sh := Nat.zero_lt_of_lt h
  clear h
  induction sh with
  | nil => exact List.Forall₂.nil
  | cons n r ih =>
    rw [count_cons] at hpos
    rw [unravel_cons]
    exact .cons (Nat.mod_lt _ (Nat.pos_of_mul_pos_right hpos)) (ih (Nat.pos_of_mul_pos_left hpos))

/-- Indices within a shape name one of its elements. -/
theorem Within.ravel_lt (h : Within idx sh) : ravel sh idx < count sh := by
  have hfrom (acc : Nat) : (sh.zip idx).foldl (fun acc p => acc * p.1 + p.2) acc < (acc + 1) * count sh := by
    induction h generalizing acc with
    | nil => exact Nat.lt_of_lt_of_eq acc.lt_succ_self (Nat.mul_one _).symm
    | @cons i n idx sh hi _ ih =>
      rw [List.zip_cons_cons, List.foldl_cons, count_cons]
      calc (sh.zip idx).foldl (fun acc p => acc * p.1 + p.2) (acc * n + i)
          < (acc * n + i + 1) * count sh := ih _
        _ ≤ ((acc + 1) * n) * count sh := Nat.mul_le_mul_right _ (by rw [Nat.succ_mul]; omega)
        _ = (acc + 1) * (n * count sh) := Nat.mul_assoc _ _ _
  exact (hfrom 0).trans_eq (by rw [Nat.zero_add, Nat.one_mul])

/-- The frame part and the cell part of the indices of a result position. -/
theorem within_splitIdx (h : i < count (fr ++ c)) : Within (splitIdx fr c i).1 fr ∧ Within (splitIdx fr c i).2 c := by
  have hidx := within_unravel h
  refine ⟨?_, ?_⟩
  · simpa [splitIdx] using hidx.take fr.length
  · simpa [splitIdx] using hidx.drop fr.length

/-- The leading extent of a cell, and the shape of its major cells (R230). -/
theorem majorCell_eq_cons (c : List Nat) : majorCell c = (majorCell c).headD 1 :: (majorCell c).drop 1 := by
  cases c <;> rfl

theorem count_majorCell (c : List Nat) : count (majorCell c) = count c := by
  cases c <;> rfl

theorem frameOf_append_cellOf (k : Nat) (sh : List Nat) : frameOf k sh ++ cellOf k sh = sh := List.take_append_drop _ _

/-- Frame and major cells hold the elements of an operand. -/
theorem count_frame_majorCell (k : Nat) (sh : List Nat) : count (frameOf k sh ++ majorCell (cellOf k sh)) = count sh := by
  rw [count_append, count_majorCell, ← count_append, frameOf_append_cellOf]

end Indices

/-! ### Units of work (R234) -/

section Units

variable {a b u : Nat}

theorem upTo_zero (n : Nat) : upTo 0 n = List.range n := by
  simp [upTo]

theorem upTo_append {c : Nat} (hab : a ≤ b) (hbc : b ≤ c) : upTo a b ++ upTo b c = upTo a c := by
  obtain ⟨k, rfl⟩ := Nat.exists_eq_add_of_le hab
  obtain ⟨l, rfl⟩ := Nat.exists_eq_add_of_le hbc
  simp only [upTo, ← List.range'_eq_map_range, Nat.add_sub_cancel_left, List.range'_append_1]
  rw [Nat.add_assoc, Nat.add_sub_cancel_left]

/-- Units that follow on each other cover all from the first to the last. -/
theorem flatten_upTo {lo : Nat → Nat} (hmono : ∀ i, lo i ≤ lo (i + 1)) (k : Nat) :
    ((List.range k).map fun i => upTo (lo i) (lo (i + 1))).flatten = upTo (lo 0) (lo k) := by
  induction k with
  | zero => simp [upTo]
  | succ k ih =>
    rw [List.range_succ, List.map_append, List.flatten_append, ih]
    simpa using upTo_append (monotone_nat_of_le_succ hmono (Nat.zero_le k)) (hmono k)

/-- The units of a result cover its positions in order. -/
theorem flatten_cutUnits (hu : 0 < u) (n : Nat) : (cutUnits u 0 n).flatten = List.range n := by
  have hcount : ceilDiv n u = (n + u - 1) / u := if_neg hu.ne'
  have hlast : n ≤ ceilDiv n u * u := by
    have h := Nat.div_add_mod (n + u - 1) u
    have h' := Nat.mod_lt (n + u - 1) hu
    rw [hcount, Nat.mul_comm]
    omega
  have hunits : cutUnits u 0 n = (List.range (ceilDiv n u)).map fun i => upTo (min n (i * u)) (min n ((i + 1) * u)) := by
    unfold cutUnits
    simp only [Nat.zero_add, Nat.sub_zero]
    refine List.map_congr_left fun i hi => ?_
    have hlt : i * u < n := by
      have h := (Nat.le_div_iff_mul_le hu).mp (hcount ▸ List.mem_range.mp hi : i + 1 ≤ (n + u - 1) / u)
      rw [Nat.succ_mul] at h
      omega
    rw [Nat.min_eq_right hlt.le]
  rw [hunits, flatten_upTo (lo := fun i => min n (i * u)) (fun i => min_le_min_left n (Nat.mul_le_mul_right u i.le_succ)) _]
  simp only [Nat.zero_mul, Nat.min_zero, Nat.min_eq_left hlast, upTo_zero]

theorem unitSize_pos (e : Entry) (z : Nat) : 0 < unitSize e z := Nat.lt_of_lt_of_le Nat.one_pos (Nat.le_max_left _ _)

end Units

/-! ### A result in an array register (R191, R234, R237) -/

theorem allOrLowest_map_ok {α β : Type} (g : α → β) (xs : List α) :
    allOrLowest (xs.map fun x => (.ok (g x) : R β)) = .ok (xs.map g) := by
  unfold allOrLowest
  simp [List.filterMap_map]

theorem allOrLowest_ok {α : Type} (x : α) : allOrLowest [.ok x] = .ok [x] := rfl

section Register

variable {s : State} {e : Entry} {f : Fields} {d : Dest} {sh : List Nat} {z n : Nat} {els : Nat → Option Elt × Flags}

theorem any_or_any {α : Type} (p q : α → Bool) (xs : List α) : (xs.any p || xs.any q) = xs.any fun x => p x || q x := by
  induction xs with
  | nil => rfl
  | cons x r ih =>
    simp only [List.any_cons, ← ih]
    ac_rfl

/-- The poison of a position: that of its new element, or of the old one that it keeps (R56, R191). -/
theorem keepOld_poison (old : VReg) (z i : Nat) (x : Option Elt) : (keepOld old z i x).poison =
    ((x.map Elt.poison).getD false || (x.isNone && decide (i < count old.shape) && (old.elem z i).poison)) := by
  cases x with
  | some y => simp [keepOld]
  | none => by_cases h : i < count old.shape <;> simp [keepOld, h]

/-- A result is poisoned where one of its positions is (R191). -/
theorem VReg.takesPoison_map_range (old : VReg) : old.takesPoison z ((List.range n).map els) =
    (List.range n).any fun i => (keepOld old z i (els i).1).poison := by
  have hzip : ((List.range n).map els).map (fun p => p.1) = (List.range n).map fun i => (els i).1 := List.map_map
  have hidx : ((List.range n).map fun i => (els i).1).zipIdx = (List.range n).map fun i => ((els i).1, i) := by
    refine List.ext_getElem (by simp) fun i _ _ => ?_
    simp
  have hnew : ((List.range n).map els |>.filterMap fun p => p.1).any Elt.poison =
      (List.range n).any fun i => ((els i).1.map Elt.poison).getD false := by
    rw [List.filterMap_map, List.any_filterMap]
    refine congrArg (List.any _) (funext fun i => ?_)
    simp only [Function.comp_apply]
    cases (els i).1 <;> rfl
  rw [VReg.takesPoison, hzip, hidx, hnew, List.any_map, any_or_any]
  exact congrArg (List.any _) (funext fun i => (keepOld_poison old z i (els i).1).symm)

theorem foldl_or_flags (xs : List (Option Elt × Flags)) (fl : Flags) :
    xs.foldl (fun acc p => acc ||| p.2) fl = fl ||| piecesFlags xs := by
  unfold piecesFlags
  induction xs generalizing fl with
  | nil => exact (Nat.or_zero fl).symm
  | cons p r ih => rw [List.foldl_cons, List.foldl_cons, ih, ih (0 ||| p.2), Nat.zero_or, Nat.or_assoc]

theorem piecesFlags_append (xs ys : List (Option Elt × Flags)) : piecesFlags (xs ++ ys) = piecesFlags xs ||| piecesFlags ys := by
  rw [piecesFlags, List.foldl_append, foldl_or_flags]
  rfl

/-- What a unit of positions `u` of a register result raises. -/
def unitFlags (old : VReg) (z : Nat) (els : Nat → Option Elt × Flags) (u : List Nat) : Flags :=
  piecesFlags (u.map els) ||| flagIf (u.any fun i => (keepOld old z i (els i).1).poison) flPSN

theorem unitFlags_append (old : VReg) (u v : List Nat) :
    unitFlags old z els (u ++ v) = unitFlags old z els u ||| unitFlags old z els v := by
  have hif (a b : Bool) : flagIf (a || b) flPSN = flagIf a flPSN ||| flagIf b flPSN := by cases a <;> cases b <;> rfl
  unfold unitFlags
  rw [List.map_append, piecesFlags_append, List.any_append, hif]
  ac_rfl

theorem State.raise_raise (s : State) (a b : Flags) : (s.raise a).raise b = s.raise (a ||| b) := by
  simp only [State.raise, Strand.raise, flagged_or]

section Run

variable {proc : State → Unit → List Nat → R (UnitOut Unit)} {targets : List Nat → List Nat}

/-- A unit of a register result: its positions are noted, and the flags of what it takes are raised (R234). -/
theorem runUnit_register {acc : Progress Unit} {u : List Nat} (hd : d.ten = none)
    (hproc : proc acc.s acc.carry u = .ok { pieces := u.map fun i => (i, els i), carry := () })
    (htrap : acc.s.poisonTrap = true → (u.any fun i => (keepOld (acc.s.me.getV d.n) d.z i (els i).1).poison) = false) :
    runUnit e d sh targets proc acc u = {
      s := acc.s.raise (unitFlags (acc.s.me.getV d.n) d.z els u)
      pieces := acc.pieces ++ u.map fun i => (i, els i), carry := (), stopped := none, taint := acc.taint } := by
  have hpoison : (((u.map fun i => (i, els i)).any fun p => p.2.1.isNone && decide (p.1 < count (acc.s.me.getV d.n).shape) &&
      ((acc.s.me.getV d.n).elem d.z p.1).poison) || ((u.map fun i => (i, els i)).any fun p => (p.2.1.map Elt.poison).getD false)) =
      u.any fun i => (keepOld (acc.s.me.getV d.n) d.z i (els i).1).poison := by
    rw [List.any_map, List.any_map, Bool.or_comm, any_or_any]
    exact congrArg (List.any _) (funext fun i => (keepOld_poison _ _ i (els i).1).symm)
  have hholds : (u.map fun i => (i, els i)).filter (fun p => d.holds sh p.1) = u.map fun i => (i, els i) :=
    List.filter_eq_self.mpr fun p _ => by simp [Dest.holds, hd]
  have hflags : (u.map fun i => (i, els i)).foldl (fun a p => a ||| p.2.2)
      (flagIf (u.any fun i => (keepOld (acc.s.me.getV d.n) d.z i (els i).1).poison) flPSN) =
      unitFlags (acc.s.me.getV d.n) d.z els u := by
    rw [List.foldl_map, ← List.foldl_map (f := els) (g := fun a p => a ||| p.2), foldl_or_flags, Nat.or_comm]
    rfl
  have hreq : require (!((u.any fun i => (keepOld (acc.s.me.getV d.n) d.z i (els i).1).poison) && acc.s.poisonTrap)) cPOISON = .ok () := by
    refine require_of ?_ _
    cases h : acc.s.poisonTrap with
    | false => simp
    | true => rw [htrap h]; rfl
  unfold runUnit
  simp only [hd, writeChecks, hproc, Except.map, allOrLowest_ok, bind, Except.bind, pure, Except.pure, hholds, hpoison, hreq,
    Bool.false_or, Option.isNone_none, Bool.true_and, Option.isSome_none, Bool.false_and, Bool.or_false]
  rw [show flagIf false flTNT = 0 from rfl, Nat.or_zero, hflags]

/-- The units of a register result, each of which can be computed, note all its positions. -/
theorem foldl_runUnit_register (hd : d.ten = none) {us : List (List Nat)} {acc : Progress Unit} {fl : Flags} (hs : acc.s = s.raise fl)
    (hstopped : acc.stopped = none)
    (hproc : ∀ fl, ∀ u ∈ us, proc (s.raise fl) () u = .ok { pieces := u.map fun i => (i, els i), carry := () })
    (htrap : s.poisonTrap = true → (us.flatten.any fun i => (keepOld (s.me.getV d.n) d.z i (els i).1).poison) = false) :
    us.foldl (fun acc u => if acc.stopped.isSome then acc else runUnit e d sh targets proc acc u) acc = {
      s := s.raise (fl ||| unitFlags (s.me.getV d.n) d.z els us.flatten)
      pieces := acc.pieces ++ us.flatten.map fun i => (i, els i), carry := (), stopped := none, taint := acc.taint } := by
  induction us generalizing acc fl with
  | nil =>
    obtain ⟨s', pieces, carry, stopped, taint⟩ := acc
    subst hs hstopped
    simp [unitFlags, piecesFlags, flagIf]
  | cons u us ih =>
    have hunit := runUnit_register (e := e) (sh := sh) (targets := targets) (els := els) (u := u) (acc := acc) hd
      (by rw [hs]; exact hproc _ u List.mem_cons_self)
      (fun h => by
        rw [hs] at h ⊢
        have := htrap h
        rw [List.flatten_cons, List.any_append, Bool.or_eq_false_iff] at this
        exact this.1)
    rw [List.foldl_cons, hstopped, Option.isSome_none, if_neg Bool.false_ne_true, hunit]
    refine (ih (fl := fl ||| unitFlags (s.me.getV d.n) d.z els u) ?_ rfl
      (fun fl v hv => hproc fl v (List.mem_cons_of_mem _ hv)) fun h => ?_).trans ?_
    · rw [hs, State.raise_raise]
      rfl
    · have := htrap h
      rw [List.flatten_cons, List.any_append, Bool.or_eq_false_iff] at this
      exact this.2
    · simp only [List.flatten_cons, unitFlags_append, List.map_append, List.append_assoc, Nat.or_assoc]

/-- A word whose positions can all be computed writes them to its array register (R191, R234, R236). -/
theorem closeUnits_register (hd : d.ten = none) {tn : Bool} {units : List (List Nat)} {cell : Nat} {after : State → State}
    (hunits : units.flatten = List.range (count sh))
    (hproc : ∀ fl, ∀ u ∈ units, proc (s.raise fl) () u = .ok { pieces := u.map fun i => (i, els i), carry := () })
    (htrap : s.poisonTrap = true → (s.me.getV d.n).takesPoison d.z ((List.range (count sh)).map els) = false) :
    closeUnits tn d sh cell (runUnits e d sh none units () targets proc s) after =
      .done (after { s with me := s.me.takesV d.n d.z sh ((List.range (count sh)).map els) }).closeProg := by
  have hflat : (units.filter fun u => !u.isEmpty).flatten = List.range (count sh) := by
    rw [List.flatten_filter_not_isEmpty, hunits]
  have hrun : runUnits e d sh none units () targets proc s = {
      s := s.raise (unitFlags (s.me.getV d.n) d.z els (List.range (count sh)))
      pieces := (List.range (count sh)).map fun i => (i, els i), carry := (), stopped := none } := by
    have hfold := foldl_runUnit_register (e := e) (sh := sh) (targets := targets) (els := els)
      (us := units.filter fun u => !u.isEmpty) (acc := { s := s, pieces := [], carry := (), stopped := none }) hd
      (fl := 0) s.raise_zero.symm rfl (fun fl u hu => hproc fl u (List.mem_of_mem_filter hu))
      (fun h => by rw [hflat, ← VReg.takesPoison_map_range]; exact htrap h)
    rw [hflat] at hfold
    unfold runUnits
    simp only [Option.getD_none, List.take_length, List.drop_length, hfold]
    simp
  have hpieces : ((List.range (count sh)).map fun i =>
      (((List.range (count sh)).map fun i => (i, els i)).lookup i).bind fun x => x.1) =
      ((List.range (count sh)).map els).map fun p => p.1 := by
    rw [List.map_map]
    refine List.map_congr_left fun i hi => ?_
    rw [lookup_of_forall (G := els) (by simp) ⟨(i, els i), List.mem_map.mpr ⟨i, hi, rfl⟩, rfl⟩]
    rfl
  have htake : s.me.takesV d.n d.z sh ((List.range (count sh)).map els) =
      (s.me.raise (unitFlags (s.me.getV d.n) d.z els (List.range (count sh)))).setV d.n
        ((s.me.getV d.n).write d.z sh (((List.range (count sh)).map els).map fun p => p.1)) := by
    unfold Strand.takesV Strand.setV Strand.raise Strand.flagged unitFlags
    simp only [flagged_or, VReg.takesPoison_map_range]
  rw [hrun]
  unfold closeUnits
  simp only [hd, hpieces, Option.isSome_none, Bool.false_and, Bool.false_eq_true, if_false, Bool.or_false]
  exact congrArg (fun m => Served.done (after { s with me := m }).closeProg) htake.symm

end Run

/-- A plan whose active positions can be computed writes them to its array register (R191, R230, R234). -/
theorem runPlan_register {tensors : Bool} {p : Plan} {g : Nat → Elt × Flags} (hd : d.ten = none)
    (hreissued : s.me.reissued = false) (hbound : s.me.bound = none) (hwhole : p.whole = false)
    (helem : ∀ fl, ∀ i < count (p.frame ++ p.cell), p.elem (s.raise fl) i = .ok (g i))
    (htrap : s.poisonTrap = true → (s.me.getV d.n).takesPoison d.z (positions s e f (p.frame ++ p.cell) g) = false) :
    runPlan s e f d tensors p = .done (p.after
      { s with me := s.me.takesV d.n d.z (p.frame ++ p.cell) (positions s e f (p.frame ++ p.cell) g) }).closeProg := by
  have hstart : startOf s (count p.cell) = 0 := by simp [startOf, hreissued]
  have hlimit (tn : Bool) : boundOf s tn = none := by simp [boundOf, hbound]
  unfold runPlan
  simp only [hd, hstart, hlimit, hwhole, Option.isSome_none, Bool.or_false, Bool.false_eq_true, if_false]
  have hunits : (if tensors = true then cutUnits (unitSize e d.z) 0 (count (p.frame ++ p.cell))
      else [upTo 0 (count (p.frame ++ p.cell))]).flatten = List.range (count (p.frame ++ p.cell)) := by
    cases tensors with
    | false => simp [upTo_zero]
    | true => exact flatten_cutUnits (unitSize_pos e d.z) _
  refine closeUnits_register
    (els := fun i => if isActive s e f (p.frame ++ p.cell) i then (some (g i).1, (g i).2) else (none, 0)) hd hunits
    (fun fl u hu => ?_) htrap
  have hlt : ∀ i ∈ u, i < count (p.frame ++ p.cell) := fun i hi =>
    List.mem_range.mp (hunits ▸ List.mem_flatten.mpr ⟨u, hu, hi⟩)
  have hone : (u.map fun i => if isActive s e f (p.frame ++ p.cell) i then (do
        let x ← p.elem (s.raise fl) i
        return ((i, some x.1, x.2) : Piece)) else .ok (i, none, 0)) =
        u.map fun i => .ok (i, if isActive s e f (p.frame ++ p.cell) i then (some (g i).1, (g i).2) else (none, 0)) :=
    List.map_congr_left fun i hi => by
      cases isActive s e f (p.frame ++ p.cell) i with
      | false => rfl
      | true => simp only [helem fl i (hlt i hi), bind, Except.bind, pure, Except.pure, if_true]
  rw [hone, allOrLowest_map_ok]
  rfl

end Register

/-! ### Operands and checks (R228 to R232) -/

section Operands

variable {s : State} {op : BitVec 8} {f : Fields} {e : Entry} {a : SOpd} {x : Nat → Elt} {sh fr c : List Nat} {z n : Nat} {isT : Bool}

/-- Every element of an operand can be read while the word runs, which changes but FLAGS before it writes. -/
def SOpd.readable (a : SOpd) (s : State) (op : BitVec 8) (f : Fields) (x : Nat → Elt) (sh : List Nat) : Prop :=
  ∀ fl, ∀ j < count sh, a.elem ((s.entered op f).raise fl) j = .ok (x j)

theorem tensorElem_entered (t : TEntry) (fl : Flags) (j : Nat) :
    tensorElem f t ((s.entered op f).raise fl) j = tensorElem f t s j := by
  have hsight : s.SameSight ((s.entered op f).raise fl) := ⟨rfl, rfl, rfl, rfl, rfl, rfl, rfl, rfl, rfl, rfl, rfl⟩
  have hread (ba : Int) (size : Nat) : ((s.entered op f).raise fl).readElem ((s.entered op f).raise fl).vd ba size =
      s.readElem s.vd ba size := hsight.readElem rfl rfl _ ba size
  simp only [tensorElem, tensorAt, hread]

theorem sopd_readable (h : (sopd s f isT n z).reads s x) (hsh : count sh = count (sopd s f isT n z).sh) :
    (sopd s f isT n z).readable s op f x sh := by
  intro fl j hj
  rw [← h j (hsh ▸ hj)]
  cases isT with
  | false => rfl
  | true => exact tensorElem_entered _ fl j

theorem sopd_ten : (sopd s f isT n z).ten = if isT then some (s.me.getT n) else none := by
  cases isT <;> rfl

/-- The element of an operand at indices within its shape. -/
theorem readAt_readable (h : a.readable s op f x (fr ++ c)) {fi ci : List Nat} (hf : Within fi fr) (hc : Within ci c) (e : Entry)
    (fl : Flags) : readAt a e fr c ((s.entered op f).raise fl) fi ci = .ok (withGv e (x (ravel (fr ++ c) (fi ++ ci))), 0) := by
  unfold readAt
  rw [h fl _ (hf.append hc).ravel_lt]
  rfl

theorem useTensors_of_forall {slots : List (Bool × BitVec 6)}
    (h : ∀ p ∈ slots, p.1 = true → useEntry (s.me.getT p.2.toNat) f.fmt.toNat = .ok ()) : useTensors s f slots = .ok () := by
  unfold useTensors
  induction slots with
  | nil => rfl
  | cons p r ih =>
    have hr := ih fun q hq => h q (List.mem_cons_of_mem _ hq)
    rw [List.filter_cons]
    cases hp : p.1 with
    | false => exact hr
    | true =>
      rw [if_pos rfl]
      show (useEntry (s.me.getT p.2.toNat) f.fmt.toNat >>= fun _ => _) = _
      rw [h p List.mem_cons_self hp]
      exact hr

/-- Under TNT none of what the word reads is tainted (R100). -/
theorem checkTaintRegs_of_untainted {regs : List Bool} (act : Bool)
    (h : trapsTaint f = true → regs.any id = false ∧ s.masksTainted e f = false ∧ gvTainted e = false ∧ e.qt = 0) :
    checkTaintRegs s e f act regs = .ok () := by
  refine require_of ?_ _
  cases ht : trapsTaint f with
  | false => rfl
  | true =>
    obtain ⟨h1, h2, h3, h4⟩ := h ht
    simp [h1, h2, h3, h4]

theorem destOf_register (h : f.fn.getLsbD 0 = false) (z : Nat) (mayBeT : Bool) :
    destOf s f z mayBeT = { n := f.d.toNat, z := z, ten := none } := by
  have hbit : bit f.fn.toNat 0 = false := h
  simp [destOf, hbit]

theorem fits_of_fitsRegister {d : Dest} (hd : d.ten = none) (h : fitsRegister e d.z sh) : d.fits e sh = .ok () := by
  obtain ⟨hrank, hext, hcount⟩ := h
  unfold Dest.fits
  rw [hd]
  refine require_of ?_ _
  simp only [hrank, hcount, decide_true, Bool.true_and, Bool.and_true, List.all_eq_true, decide_eq_true_eq]
  exact hext

/-- Under TNT no register or mask that the word reads is tainted. -/
theorem State.movable.checkTaintRegs {srcs : List SOpd} {tainted : Bool} {regs : List Bool} (h : s.movable e f srcs tainted sh)
    (hregs : ∀ r ∈ regs, r = tainted ∨ ∃ o ∈ srcs, r = o.taint) (act : Bool) :
    checkTaintRegs (s.entered op f) e f act regs = .ok () := by
  refine checkTaintRegs_of_untainted _ fun ht => ?_
  obtain ⟨-, -, -, htaint⟩ := h
  obtain ⟨hr, ho, hm, hgv, hqt⟩ := htaint ht
  refine ⟨?_, hm, hgv, hqt⟩
  rw [List.any_eq_false]
  intro r hmem
  rcases hregs r hmem with rfl | ⟨o, hin, rfl⟩
  · simp [hr]
  · simp [ho o hin]

/-- A word whose body runs a plan that can be computed writes the positions of it to its array register (R230, R234). -/
theorem runArray_of_plan {body : Entry → State → Served} {tensors : Bool} {p : Plan} {g : Nat → Elt × Flags}
    {after : Strand → Strand} (hop : op ≠ 0x42) (hserves : s.serves op f)
    (hbody : body (s.capture op f) (s.entered op f) =
      runPlan (s.entered op f) (s.capture op f) f { n := n, z := z, ten := none } tensors p)
    (hsh : p.frame ++ p.cell = sh) (hwhole : p.whole = false)
    (helem : ∀ fl, ∀ i < count sh, p.elem ((s.entered op f).raise fl) i = .ok (g i))
    (hafter : ∀ m, p.after (s.enteredAs op f m) = s.enteredAs op f (after m))
    (hkeep : ∀ m, (after m).work = m.work ∧ (after m).place = m.place)
    (haccept : s.acceptsV (s.capture op f) f n z (positions s (s.capture op f) f sh g)) :
    runArray op f s body = .next (s.retires { after (s.me.takesV n z sh (positions s (s.capture op f) f sh g)) with prog := 0 }) := by
  subst hsh
  obtain ⟨-, hreissued, hwork, hbound, -⟩ := id hserves
  have hplan := runPlan_register (s := s.entered op f) (e := s.capture op f) (f := f) (p := p) (g := g)
    (d := { n := n, z := z, ten := none }) (tensors := tensors) rfl hreissued hbound hwhole helem haccept.2
  refine runArray_retires hserves hop ((hkeep _).1.trans hwork) (hkeep _).2 ?_
  rw [hbody]
  exact hplan.trans (congrArg (fun t => Served.done (State.closeProg t))
    (hafter (s.me.takesV n z (p.frame ++ p.cell) (positions s (s.capture op f) f (p.frame ++ p.cell) g))))

/-- A move into an array register whose checks pass writes the positions of its plan (R230, R232). -/
theorem runMove_register {dMayT regs : Bool} {same : Entry → SOpd → Bool}
    {mk : Entry → State → SOpd → List Nat → List Nat → R Plan} {p : Plan} {g : Nat → Elt × Flags} {after : Strand → Strand}
    (hop : op ≠ 0x42) (hd : f.fn.getLsbD 0 = false)
    (hz : z = Fmt.size f.fmt.toNat) (ha : a = sopd s f (f.fn.getLsbD 1) f.a.toNat z) (he : e = s.capture op f)
    (hmk : mk e (s.entered op f) a (frameOf f.rk.toNat a.sh) (majorCell (cellOf f.rk.toNat a.sh)) = .ok p)
    (hsh : p.frame ++ p.cell = sh) (hcap : p.cap = .ok ()) (hreads : p.reads = regs)
    (helem : ∀ fl, ∀ i < count sh, p.elem ((s.entered op f).raise fl) i = .ok (g i))
    (hafter : ∀ m, p.after (s.enteredAs op f m) = s.enteredAs op f (after m))
    (hkeep : ∀ m, (after m).work = m.work ∧ (after m).place = m.place)
    (hserves : s.serves op f) (hmove : s.movable e f [a] regs sh) (hfits : fitsRegister e z sh)
    (haccept : s.acceptsV e f f.d.toNat z (positions s e f sh g)) :
    runMove op f s dMayT same mk = .next (s.retires { after (s.me.takesV f.d.toNat z sh (positions s e f sh g)) with prog := 0 }) := by
  subst hz he hsh hreads
  have hregs (act : Bool) : checkTaintRegs (s.entered op f) (s.capture op f) f act [a.taint, p.reads] = .ok () :=
    hmove.checkTaintRegs (by simp) act
  obtain ⟨htensors, hmasks, hopds, -⟩ := hmove
  have hopd : sopd (s.entered op f) f (bit f.fn.toNat 1) f.a.toNat (Fmt.size f.fmt.toNat) = a := ha.symm
  have huse : useTensors (s.entered op f) f [(dMayT && bit f.fn.toNat 0, f.d), (bit f.fn.toNat 1, f.a)] = .ok () := by
    refine useTensors_of_forall fun q hq hq1 => ?_
    rw [show bit f.fn.toNat 0 = false from hd, Bool.and_false, List.mem_cons, List.mem_singleton] at hq
    rcases hq with rfl | rfl
    · cases hq1
    · exact htensors _ List.mem_cons_self _ (hopd ▸ sopd_ten.trans (if_pos hq1))
  refine runArray_of_plan (p := { p with whole := false }) (tensors := a.ten.isSome) hop hserves ?_ rfl rfl helem hafter hkeep haccept
  simp only [destOf_register hd, huse, hopd, hmk, Dest.agrees, Dest.overlaps, bind, Except.bind, hcap, hregs,
    show checkMasks (s.entered op f) (s.capture op f) f (p.frame ++ p.cell) = .ok () from hmasks, hopds a List.mem_cons_self,
    fits_of_fitsRegister (d := { n := f.d.toNat, z := Fmt.size f.fmt.toNat, ten := none }) rfl hfits, pure, Except.pure,
    Option.bind_none, Option.getD_none]

end Operands

end Sys2Proof.Machine
end

section
/-! ## Structural array instructions (spec 11): moves into an array register (R244, R245, R249 to R252, R256) -/

namespace Sys2Proof.Machine

/-- What a position of a move takes: the source element `pick`, or the fill value, joined with the elements that tell which (R231,
R237). -/
def movedElt (e : Entry) (a : SOpd) (x : Nat → Elt) (join : List Elt) (pick : Option Nat) : Elt × Flags :=
  let y := withGv e ((pick.map x).getD a.fill)
  (eltOf y.val (y :: join), 0)

theorem movedElt_nil (e : Entry) (a : SOpd) (x : Nat → Elt) (pick : Option Nat) :
    movedElt e a x [] pick = (withGv e ((pick.map x).getD a.fill), 0) := by
  simp [movedElt, eltOf]

/-- A move into an array register: position (fi, ci) of the result takes the source element `pick fi ci`. -/
def movesV (i : Instr) (op : BitVec 8) (f : Fields) (s : State) (a : SOpd) (x : Nat → Elt) (fr rc : List Nat) (regs : Bool)
    (join : List Nat → List Elt) (pick : List Nat → List Nat → Option Nat) (after : Strand → Strand := id) : Prop :=
  buildsV i op f s (Fmt.size f.fmt.toNat) [a] regs (fr ++ rc)
    (fun e k => movedElt e a x (join (splitIdx fr rc k).2) (pick (splitIdx fr rc k).1 (splitIdx fr rc k).2)) after

/-- The operand A of a structural word, with its elements, its frame and its major cells. -/
structure SourceA (s : State) (f : Fields) (a : SOpd) (x : Nat → Elt) (fr c : List Nat) : Prop where
  opd : a = sopd s f (f.fn.getLsbD 1) f.a.toNat (Fmt.size f.fmt.toNat)
  frame : fr = frameOf f.rk.toNat a.sh
  cell : c = majorCell (cellOf f.rk.toNat a.sh)
  reads : a.reads s x

section Moves

variable {s : State} {f : Fields} {a : SOpd} {x : Nat → Elt} {fr c rc sh : List Nat} {i : Instr} {op : BitVec 8} {regs dMayT : Bool}
  {same : Entry → SOpd → Bool} {mk : Entry → State → SOpd → List Nat → List Nat → R Plan} {p : Plan}
  {join : List Nat → List Elt} {pick : List Nat → List Nat → Option Nat} {after : Strand → Strand}

theorem SourceA.readable (h : SourceA s f a x fr c) (op : BitVec 8) : a.readable s op f x (fr ++ c) := by
  obtain ⟨rfl, rfl, rfl, hreads⟩ := h
  exact sopd_readable hreads (count_frame_majorCell _ _)

theorem SourceA.cell_eq (h : SourceA s f a x fr c) : c = c.headD 1 :: c.drop 1 := by
  rw [h.cell]
  exact majorCell_eq_cons _

/-- The leading index, and the indices within a major cell, of a position of a cell. -/
theorem SourceA.within_parts (h : SourceA s f a x fr c) {ci : List Nat} (hci : Within ci c) :
    ci.headD 0 < c.headD 1 ∧ Within (ci.drop 1) (c.drop 1) := by
  rw [h.cell_eq] at hci
  exact ⟨hci.head_lt, hci.drop 1⟩

theorem SourceA.within_cell (h : SourceA s f a x fr c) {j : Nat} {r : List Nat} (hj : j < c.headD 1) (hr : Within r (c.drop 1)) :
    Within (j :: r) c := by
  rw [h.cell_eq]
  exact hr.cons hj

/-- A word whose plan computes its positions from A writes them (R230, R232). -/
theorem SourceA.buildsV_of_plan {g : Entry → Nat → Elt × Flags} (h : SourceA s f a x fr c) (hop : op ≠ 0x42)
    (hexec : exec i s = runMove op f s dMayT same mk) (hmk : mk (s.capture op f) (s.entered op f) a fr c = .ok p)
    (hsh : p.frame ++ p.cell = sh) (hcap : fitsRegister (s.capture op f) (Fmt.size f.fmt.toNat) sh → p.cap = .ok ())
    (hreads : p.reads = regs)
    (helem : ∀ fl, ∀ k < count sh, p.elem ((s.entered op f).raise fl) k = .ok (g (s.capture op f) k))
    (hafter : ∀ m, p.after (s.enteredAs op f m) = s.enteredAs op f (after m))
    (hkeep : ∀ m, (after m).work = m.work ∧ (after m).place = m.place) :
    buildsV i op f s (Fmt.size f.fmt.toNat) [a] regs sh g after := by
  intro hd hserves hmove hfits haccept
  rw [hexec]
  refine runMove_register hop hd rfl h.opd rfl ?_ hsh (hcap hfits) hreads helem hafter hkeep hserves hmove hfits haccept
  rwa [← h.frame, ← h.cell]

/-- The elements that tell which one to move mark it (R237). -/
theorem movedElt_join (e : Entry) (a : SOpd) (x : Nat → Elt) (join : List Elt) (pick : Option Nat) : movedElt e a x join pick =
    (eltOf (movedElt e a x [] pick).1.val ((movedElt e a x [] pick).1 :: join), (movedElt e a x [] pick).2) := by
  rw [movedElt_nil]
  rfl

/-- The element of A at indices within its shape is moved. -/
theorem SourceA.readAt_eq (h : SourceA s f a x fr c) {fi ci : List Nat} (hf : Within fi fr) (hc : Within ci c) (e : Entry)
    (op : BitVec 8) (fl : Flags) : readAt a e fr c ((s.entered op f).raise fl) fi ci =
      .ok (movedElt e a x [] (some (ravel (fr ++ c) (fi ++ ci)))) := by
  rw [movedElt_nil]
  exact readAt_readable (h.readable op) hf hc e fl

theorem fill_eq (a : SOpd) (x : Nat → Elt) (e : Entry) :
    (.ok (withGv e a.fill, 0) : R (Elt × Flags)) = .ok (movedElt e a x [] none) := by
  rw [movedElt_nil]
  rfl

/-- The count of ROT, TAKE and DROP is captured (R14, R244). -/
theorem capture_count {kb : Int} (hkb : kb = (s.me.getG f.b.toNat).val.toInt) (hop : op = 0x73 ∨ op = 0x75 ∨ op = 0x76) :
    (s.capture op f).gb.val.toInt = kb := by
  rw [hkb]
  rcases hop with rfl | rfl | rfl
  · rw [capture_gb (op := 0x73) rfl (by decide) rfl]
  · rw [capture_gb (op := 0x75) rfl (by decide) rfl]
  · rw [capture_gb (op := 0x76) rfl (by decide) rfl]

section Counted

variable {kb : Int} (hkb : kb = (s.me.getG f.b.toNat).val.toInt)
include hkb

theorem SourceA.movesV_rot (h : SourceA s f a x fr c) : movesV (.rot f) 0x73 f s a x fr c false (fun _ => []) fun fi ci =>
    some (ravel (fr ++ c) (fi ++ (((ci.headD 0 : Nat) + kb) % (c.headD 1 : Int)).toNat :: ci.drop 1)) := by
  refine h.buildsV_of_plan (by decide) (show exec (.rot f) s = execRot f s from rfl) rfl rfl (fun _ => rfl) rfl (fun fl k hk => ?_)
    (fun _ => rfl) fun _ => ⟨rfl, rfl⟩
  obtain ⟨hf, hc⟩ := within_splitIdx hk
  obtain ⟨hhead, hrest⟩ := h.within_parts hc
  have hpos : (0 : Int) < c.headD 1 := by omega
  have hlt := Int.emod_lt_of_pos (((splitIdx fr c k).2.headD 0 : Nat) + kb) hpos
  have hnonneg := Int.emod_nonneg (((splitIdx fr c k).2.headD 0 : Nat) + kb) hpos.ne'
  dsimp only
  rw [capture_count hkb (.inl rfl)]
  exact h.readAt_eq hf (h.within_cell (by omega) hrest) _ _ fl

theorem SourceA.movesV_take (h : SourceA s f a x fr c) :
    movesV (.take f) 0x75 f s a x fr (kb.natAbs :: c.drop 1) false (fun _ => []) fun fi ci =>
      let j : Int := if 0 ≤ kb then (ci.headD 0 : Nat) else (ci.headD 0 : Nat) + (c.headD 1 : Int) - kb.natAbs
      if 0 ≤ j ∧ j < c.headD 1 then some (ravel (fr ++ c) (fi ++ j.toNat :: ci.drop 1)) else none := by
  have hgb := capture_count (op := 0x75) hkb (.inr (.inl rfl))
  refine h.buildsV_of_plan (by decide) (show exec (.take f) s = execTake f s from rfl) rfl (by rw [hgb]) (fun hfits => ?_) rfl
    (fun fl k hk => ?_) (fun _ => rfl) fun _ => ⟨rfl, rfl⟩
  · have hcount : kb.natAbs ≤ 65535 := hfits.2.1 _ (by simp)
    refine require_of (decide_eq_true ?_) _
    rw [hgb]
    split <;> omega
  · obtain ⟨hf, hc⟩ := within_splitIdx hk
    dsimp only
    rw [hgb, sub_add_eq_add_sub]
    generalize (if 0 ≤ kb then _ else _ : Int) = j
    by_cases hj : 0 ≤ j ∧ j < c.headD 1
    · rw [if_pos hj, if_pos hj]
      exact h.readAt_eq hf (h.within_cell (by omega) (hc.drop 1)) _ _ fl
    · rw [if_neg hj, if_neg hj]
      exact fill_eq a x _

theorem SourceA.movesV_drop (h : SourceA s f a x fr c) :
    movesV (.drop f) 0x76 f s a x fr ((c.headD 1 - kb.natAbs) :: c.drop 1) false (fun _ => []) fun fi ci =>
      some (ravel (fr ++ c) (fi ++ (ci.headD 0 + if 0 ≤ kb then kb.natAbs else 0) :: ci.drop 1)) := by
  have hgb := capture_count (op := 0x76) hkb (.inr (.inr rfl))
  refine h.buildsV_of_plan (by decide) (show exec (.drop f) s = execDrop f s from rfl) rfl (by rw [hgb]) (fun _ => rfl) rfl
    (fun fl k hk => ?_) (fun _ => rfl) fun _ => ⟨rfl, rfl⟩
  obtain ⟨hf, hc⟩ := within_splitIdx hk
  have hhead := hc.head_lt
  dsimp only
  rw [hgb]
  exact h.readAt_eq hf (h.within_cell (by split <;> omega) (hc.drop 1)) _ _ fl

end Counted

theorem SourceA.movesV_rev (h : SourceA s f a x fr c) : movesV (.rev f) 0x74 f s a x fr c false (fun _ => []) fun fi ci =>
    some (ravel (fr ++ c) (fi ++ (c.headD 1 - 1 - ci.headD 0) :: ci.drop 1)) := by
  refine h.buildsV_of_plan (by decide) (show exec (.rev f) s = execRev f s from rfl) rfl rfl (fun _ => rfl) rfl (fun fl k hk => ?_)
    (fun _ => rfl) fun _ => ⟨rfl, rfl⟩
  obtain ⟨hf, hc⟩ := within_splitIdx hk
  obtain ⟨hhead, hrest⟩ := h.within_parts hc
  exact h.readAt_eq hf (h.within_cell (by omega) hrest) _ _ fl

/-! ### RESHAPE and TRANSP (R245, R249) -/

theorem bind_require {α : Type} {cond : Bool} {cause : Nat} {y : α} (h : cond = true) :
    (require cond cause >>= fun _ => (pure y : R α)) = .ok y := by
  rw [require_of h]
  rfl

theorem toSigned_toNat {w v : Nat} (h : 0 ≤ toSigned w v) (hv : v < 2 ^ w) : (toSigned w v).toNat = v := by
  unfold toSigned at h ⊢
  rw [Nat.mod_eq_of_lt hv] at h ⊢
  split
  · rfl
  · rename_i hlt
    rw [if_neg hlt] at h
    have : (v : Int) < 2 ^ w := by exact_mod_cast hv
    omega

theorem SourceA.buildsV_reshape (h : SourceA s f a x fr c) {vb : VReg} {ext : List Int} {rc : List Nat}
    (hvb : vb = s.me.getV f.b.toNat) (hext : ext = (List.range (count vb.shape)).map fun j => toSigned 32 (vb.elem 32 j).val)
    (hrc : rc = ext.map Int.toNat) (hrank : count vb.shape ≤ 4) (hbounds : ∀ v ∈ ext, 0 ≤ v ∧ v ≤ 65535) :
    buildsV (.reshape f) 0x77 f s (Fmt.size f.fmt.toNat) [a] (vb.taint && count vb.shape != 0) (fr ++ rc) fun e k =>
      movedElt e a x ((List.range (count vb.shape)).map fun j => vb.elem 32 j)
        (if count c = 0 then none else some (k / count rc * count c + k % count rc % count c)) := by
  subst hvb
  have hcell : (List.range (min (count (s.me.getV f.b.toNat).shape) 5)).map (fun i => ((s.me.getV f.b.toNat).elem 32 i).val) = rc := by
    rw [hrc, hext, List.map_map, Nat.min_eq_left (by omega)]
    refine List.map_congr_left fun j hj => (toSigned_toNat (hbounds _ ?_).1 (VReg.elem_val_lt _ _ _)).symm
    rw [hext]
    exact List.mem_map_of_mem hj
  refine h.buildsV_of_plan (by decide) (show exec (.reshape f) s = execReshape f s from rfl) rfl (congrArg (fr ++ ·) hcell)
    (fun _ => require_of ?_ _) rfl (fun fl k hk => ?_) (fun _ => rfl) fun _ => ⟨rfl, rfl⟩
  · simp only [show (s.entered 0x77 f).me.getV = s.me.getV from rfl, hcell, hrank, decide_true, Bool.true_and,
      List.all_eq_true, decide_eq_true_eq, hrc, List.mem_map]
    rintro n ⟨v, hv, rfl⟩
    have := hbounds v hv
    omega
  · dsimp only
    rw [show (s.entered 0x77 f).me.getV = s.me.getV from rfl, hcell, movedElt_join]
    by_cases hm : count c = 0
    · rw [if_pos (beq_iff_eq.mpr hm), if_pos hm, movedElt_nil]
      rfl
    · have hlt : k / count rc * count c + k % count rc % count c < count (fr ++ c) := by
        rw [count_append] at hk ⊢
        have hfr : k / count rc < count fr := Nat.div_lt_of_lt_mul (by rwa [Nat.mul_comm] at hk)
        calc k / count rc * count c + k % count rc % count c
            < k / count rc * count c + count c := Nat.add_lt_add_left (Nat.mod_lt _ (Nat.pos_of_ne_zero hm)) _
          _ = (k / count rc + 1) * count c := (Nat.succ_mul _ _).symm
          _ ≤ count fr * count c := Nat.mul_le_mul_right _ hfr
      rw [if_neg (by simpa using hm), if_neg hm, h.readable _ fl _ hlt, movedElt_nil]
      rfl

/-- The permutation that the fields of IMM hold (R249). -/
def permOf (imm n : Nat) : List Nat := (List.range n).map fun j => imm / 8 ^ j % 8

theorem permOf_eq (imm n : Nat) : (List.range n).map (fun j => bits imm (3 * j + 2) (3 * j)) = permOf imm n :=
  List.map_congr_left fun j _ => by
    rw [bits_eq_div_mod, Nat.pow_mul, show 3 * j + 2 + 1 - 3 * j = 3 by omega]
    rfl

/-- The fields beyond the rank of the cell are 0. -/
theorem permOf_drop {imm n : Nat} (h : imm / 8 ^ n % 8 ^ (6 - n) = 0) : ((permOf imm 6).drop n).all (· == 0) = true := by
  rw [List.all_eq_true]
  intro v hv
  obtain ⟨j, hj, rfl⟩ := List.getElem_of_mem hv
  have hj6 : n + j < 6 := by
    simp [permOf] at hj
    omega
  obtain ⟨q, hq⟩ := Nat.dvd_of_mod_eq_zero h
  have hpow : (8 : Nat) ^ (6 - n) = 8 ^ j * (8 * 8 ^ (5 - n - j)) := by
    rw [← Nat.pow_succ', ← Nat.pow_add]
    congr 1
    omega
  simp only [permOf, List.getElem_drop, List.getElem_map, List.getElem_range, beq_iff_eq]
  rw [Nat.pow_add, ← Nat.div_div_eq_div_mul, hq, hpow, Nat.mul_assoc, Nat.mul_div_cancel_left _ (by positivity), Nat.mul_assoc,
    Nat.mul_mod_right]

theorem permOf_take (imm : Nat) {n : Nat} (hn : n ≤ 6) : (permOf imm 6).take n = permOf imm n := by
  rw [permOf, ← List.map_take, List.take_range, Nat.min_eq_left hn]
  rfl

/-- Indices that a permutation of the axes sorts back lie within the cell. -/
theorem within_permuted {perm ci : List Nat} (hall : ∀ j < c.length, j ∈ perm) (hci : Within ci (perm.map fun j => c.getD j 1)) :
    Within ((List.range c.length).map fun j => ci.getD (perm.idxOf j) 0) c := by
  refine List.forall₂_iff_get.mpr ⟨by simp, fun j hj hjc => ?_⟩
  have hidx : perm.idxOf j < perm.length := List.idxOf_lt_length_iff.mpr (hall j hjc)
  have hlt := hci.getD_lt (j := perm.idxOf j) (by simpa using hidx)
  simpa [List.getD_eq_getElem?_getD, hidx, hjc] using hlt

theorem SourceA.movesV_transp (h : SourceA s f a x fr c) (hall : ∀ j < c.length, j ∈ permOf f.imm.toNat c.length)
    (hrest : f.imm.toNat / 8 ^ c.length % 8 ^ (6 - c.length) = 0) (hrank : c.length ≤ 6) :
    let perm := permOf f.imm.toNat c.length
    movesV (.transp f) 0x7A f s a x fr (perm.map fun j => c.getD j 1) false (fun _ => [])
      fun fi ci => some (ravel (fr ++ c) (fi ++ (List.range c.length).map fun j => ci.getD (perm.idxOf j) 0)) := by
  intro perm
  have hperm : ((List.range 6).map fun j => bits f.imm.toNat (3 * j + 2) (3 * j)).take c.length = perm := by
    rw [permOf_eq, permOf_take _ hrank]
  have hdrop : (((List.range 6).map fun j => bits f.imm.toNat (3 * j + 2) (3 * j)).drop c.length).all (· == 0) = true := by
    rw [permOf_eq]
    exact permOf_drop hrest
  refine h.buildsV_of_plan (by decide) (show exec (.transp f) s = execTransp f s from rfl) (bind_require ?_)
    (congrArg (fun p : List Nat => fr ++ p.map fun j => c.getD j 1) hperm) (fun _ => rfl) rfl (fun fl k hk => ?_)
    (fun _ => rfl) fun _ => ⟨rfl, rfl⟩
  · rw [hperm, hdrop, Bool.and_true, List.all_eq_true]
    exact fun j hj => List.contains_iff_mem.mpr (hall j (List.mem_range.mp hj))
  · obtain ⟨hf, hc⟩ := within_splitIdx hk
    dsimp only
    rw [hperm]
    exact h.readAt_eq hf (within_permuted hall hc) _ _ fl

/-! ### Moves that an array register directs (R252, R256) -/

/-- The residency's GROWS is captured by every structural word (R14, R19). -/
theorem capture_grows (h : readsGrows op.toNat f = true) : (s.capture op f).grows.toNat = s.me.grows := by
  have hgrows : (s.capture op f).grows = keepIf (readsGrows op.toNat f) (BitVec.ofNat 16 s.me.grows) := rfl
  rw [hgrows, h]
  exact Nat.mod_eq_of_lt (growsOf_lt _)

theorem fitsReg_of_le {e : Entry} {z : Nat} {v : VReg} (h : count v.shape ≤ capacity e.grows.toNat z) : fitsReg e z v = .ok () :=
  require_of (decide_eq_true h) _

theorem SourceA.movesV_gath (h : SourceA s f a x fr c) {vb : VReg} (hvb : vb = s.me.getV f.b.toNat)
    (hcount : count vb.shape ≤ capacity s.me.grows 32) (hext : c.headD 1 < 2 ^ 31) :
    movesV (.gath f) 0x7D f s a x fr (vb.shape ++ c.drop 1) vb.taint
      (fun ci => [vb.elem 32 (ravel vb.shape (ci.take vb.shape.length))]) fun fi ci =>
        let j := toSigned 32 (vb.elem 32 (ravel vb.shape (ci.take vb.shape.length))).val
        if 0 ≤ j ∧ j < c.headD 1 then some (ravel (fr ++ c) (fi ++ j.toNat :: ci.drop vb.shape.length)) else none := by
  subst hvb
  refine h.buildsV_of_plan (by decide) (show exec (.gath f) s = execGath f s from rfl) rfl rfl (fun _ => ?_) rfl (fun fl k hk => ?_)
    (fun _ => rfl) fun _ => ⟨rfl, rfl⟩
  · rw [← capture_grows (op := 0x7D) (f := f) rfl] at hcount
    show (fitsReg _ 32 _ >>= fun _ => require _ _) = _
    rw [show (s.entered 0x7D f).me.getV = s.me.getV from rfl, fitsReg_of_le hcount]
    exact require_of (decide_eq_true (by omega)) _
  · obtain ⟨hf, hc⟩ := within_splitIdx hk
    have hrest : Within ((splitIdx fr ((s.me.getV f.b.toNat).shape ++ c.drop 1) k).2.drop (s.me.getV f.b.toNat).shape.length)
        (c.drop 1) := by simpa using hc.drop (s.me.getV f.b.toNat).shape.length
    dsimp only
    rw [show (s.entered 0x7D f).me.getV = s.me.getV from rfl, movedElt_join]
    generalize toSigned 32 _ = j
    by_cases hj : 0 ≤ j ∧ j < c.headD 1
    · rw [if_pos hj, if_pos hj, h.readAt_eq hf (h.within_cell (by omega) hrest)]
      rfl
    · rw [if_neg hj, if_neg hj, fill_eq a x]
      rfl

theorem SourceA.movesV_repl (h : SourceA s f a x fr c) {vb : VReg} {src : List Nat} (hvb : vb = s.me.getV f.b.toNat)
    (hsrc : src = (List.range (c.headD 1)).flatMap fun j => List.replicate (vb.elem 16 (if vb.shape = [] then 0 else j)).val j)
    (hshape : vb.shape = [] ∨ vb.shape = [c.headD 1]) (hcount : count vb.shape ≤ capacity s.me.grows 16) :
    movesV (.repl f) 0x81 f s a x fr (src.length :: c.drop 1) (vb.taint && count vb.shape != 0)
      (fun _ => (List.range (count vb.shape)).map fun j => vb.elem 16 j) fun fi ci =>
        some (ravel (fr ++ c) (fi ++ src.getD (ci.headD 0) 0 :: ci.drop 1)) := by
  subst hvb
  have hmoved : ((List.range (c.headD 1)).map fun j => List.replicate
      ((s.me.getV f.b.toNat).elem 16 (if (s.me.getV f.b.toNat).shape.isEmpty then 0 else j)).val j).flatten = src := by
    rw [hsrc, List.flatMap_def]
    simp only [List.isEmpty_iff]
  have hlt : ∀ j ∈ src, j < c.headD 1 := by
    rw [hsrc]
    intro j hj
    obtain ⟨i, hi, hji⟩ := List.mem_flatMap.mp hj
    rw [(List.mem_replicate.mp hji).2]
    exact List.mem_range.mp hi
  refine h.buildsV_of_plan (by decide) (show exec (.repl f) s = execRepl f s from rfl) (bind_require ?_)
    (congrArg (fun l : List Nat => fr ++ l.length :: c.drop 1) hmoved) (fun hfits => ?_) rfl (fun fl k hk => ?_) (fun _ => rfl)
    fun _ => ⟨rfl, rfl⟩
  · rw [show (s.entered 0x81 f).me.getV = s.me.getV from rfl]
    simpa using hshape
  · have htotal : src.length ≤ 65535 := hfits.2.1 _ (by simp)
    rw [← capture_grows (op := 0x81) (f := f) rfl] at hcount
    show (fitsReg _ 16 _ >>= fun _ => require _ _) = _
    rw [show (s.entered 0x81 f).me.getV = s.me.getV from rfl, fitsReg_of_le hcount, hmoved]
    exact require_of (by rw [decide_eq_true htotal, Bool.or_true]) _
  · obtain ⟨hf, hc⟩ := within_splitIdx hk
    have hhead := hc.head_lt
    dsimp only
    rw [show (s.entered 0x81 f).me.getV = s.me.getV from rfl, hmoved, ← List.getD_eq_getElem?_getD, movedElt_join,
      h.readAt_eq hf (h.within_cell (hlt _ ?_) (hc.drop 1))]
    · rfl
    · rw [List.getD_eq_getElem _ _ hhead]
      exact List.getElem_mem hhead

/-! ### Moves that a mask directs (R250, R251) -/

/-- The shape that the mask of COMPRESS and EXPAND takes: m0 that of the leading axis. -/
def selectShape (s : State) (mask n : Nat) : List Nat := if mask = 0 then [n] else (s.me.getM mask).shape

theorem selectShape_eq (s : State) (mask n : Nat) : (if mask == 0 then [n] else (s.me.getM mask).shape) = selectShape s mask n := by
  simp only [selectShape, beq_iff_eq]

theorem movedElt_mark (e : Entry) (a : SOpd) (x : Nat → Elt) (taint : Bool) (pick : Option Nat) :
    movedElt e a x [{ taint := taint }] pick =
      ({ (movedElt e a x [] pick).1 with taint := (movedElt e a x [] pick).1.taint || taint }, (movedElt e a x [] pick).2) := by
  rw [movedElt_join]
  simp [eltOf]

/-- What COMPRESS leaves of the strand besides its result: the count in g[E], with OVF where it is cut (R250). -/
theorem State.enteredAs_takesG (s : State) (op : BitVec 8) (f : Fields) (m : Strand) (d : Nat) (x : Elt) (fl : Flags)
    (hx : x.poison = false) :
    ((s.enteredAs op f m).raise fl).setG d { val := BitVec.ofNat 64 x.val, taint := x.taint } =
      s.enteredAs op f (m.takesG d x fl) := by
  have hm (m : Strand) : (m.raise fl).setG d { val := BitVec.ofNat 64 x.val, taint := x.taint } = m.takesG d x fl := by
    rw [← Strand.setG_eq_takesG, hx]
    simp [flagIf, Strand.raise]
  rw [← hm]
  unfold State.setG State.enteredAs Strand.setG
  by_cases hd : d = 0
  · simp only [hd, if_true]
    rfl
  · simp only [hd, if_false]
    rfl

/-- The set positions of a mask, each with its place in the mask's shape. -/
theorem mem_setPositions {s : State} {mask : Nat} {msh : List Nat} {i : Nat} (h : i ∈ setPositions s mask msh) : i < count msh :=
  List.mem_range.mp (List.mem_of_mem_filter h)

theorem keepCount_le (grows z cnt : Nat) (fr rest : List Nat) : keepCount grows z cnt fr rest ≤ cnt := by
  unfold keepCount
  dsimp only
  split <;> omega

theorem SourceA.movesV_compress (h : SourceA s f a x fr c) {msh sel : List Nat} {mtaint : Bool} {keep : Nat}
    (hmsh : msh = selectShape s f.b.toNat (c.headD 1)) (hsel : sel = setPositions s f.b.toNat msh)
    (hmtaint : mtaint = maskTaint s f.b.toNat)
    (hkeep : keep = keepCount s.me.grows (Fmt.size f.fmt.toNat) sel.length fr (c.drop msh.length))
    (hprefix : msh.isPrefixOf c = true) (hrank : 1 ≤ msh.length) (hd : f.fn.getLsbD 0 = false) :
    movesV (.compress f) 0x7B f s a x fr (keep :: c.drop msh.length) mtaint (fun _ => [{ taint := mtaint }])
      (fun fi ci => some (ravel (fr ++ c) (fi ++ unravel msh (sel.getD (ci.headD 0) 0) ++ ci.drop 1)))
      fun m => m.takesG f.e.toNat { val := sel.length, taint := mtaint } (flagIf (decide (keep < sel.length)) flOVF) := by
  subst hmtaint
  have hshape : (if f.b.toNat == 0 then [c.headD 1] else ((s.entered 0x7B f).me.getM f.b.toNat).shape) = msh :=
    (selectShape_eq s _ _).trans hmsh.symm
  have hset : setPositions (s.entered 0x7B f) f.b.toNat msh = sel := hsel.symm
  have hbit : bit f.fn.toNat 0 = false := hd
  have hkept : (if bit f.fn.toNat 0 then sel.length
      else keepCount (s.capture 0x7B f).grows.toNat (Fmt.size f.fmt.toNat) sel.length fr (c.drop msh.length)) = keep := by
    rw [hbit, capture_grows (op := 0x7B) rfl]
    exact hkeep.symm
  obtain ⟨rest, hrest⟩ := List.isPrefixOf_iff_prefix.mp hprefix
  refine h.buildsV_of_plan (by decide) (show exec (.compress f) s = execCompress f s from rfl) (bind_require ?_) ?_ (fun _ => rfl) rfl
    (fun fl k hk => ?_) (fun m => ?_) fun _ => ⟨rfl, rfl⟩
  · rw [hshape, hprefix, decide_eq_true hrank]
    rfl
  · dsimp only
    rw [hshape, hset, hkept]
  · obtain ⟨hf, hc⟩ := within_splitIdx hk
    have hhead : (splitIdx fr (keep :: c.drop msh.length) k).2.headD 0 < sel.length :=
      Nat.lt_of_lt_of_le hc.head_lt (hkeep ▸ keepCount_le _ _ _ _ _)
    have hin : Within (unravel msh (sel.getD ((splitIdx fr (keep :: c.drop msh.length) k).2.headD 0) 0) ++
        (splitIdx fr (keep :: c.drop msh.length) k).2.drop 1) c := by
      have hmem : sel.getD ((splitIdx fr (keep :: c.drop msh.length) k).2.headD 0) 0 < count msh := by
        rw [List.getD_eq_getElem _ _ hhead]
        exact mem_setPositions (by rw [← hsel]; exact List.getElem_mem hhead)
      have hparts := (within_unravel hmem).append (hc.drop 1)
      rwa [show msh ++ (keep :: c.drop msh.length).drop 1 = c by simp [← hrest]] at hparts
    dsimp only
    rw [hshape, hset, hkept, ← List.getD_eq_getElem?_getD, movedElt_mark, h.readAt_eq hf hin, List.append_assoc]
    rfl
  · dsimp only
    rw [hshape, hset, hkept, hbit]
    exact s.enteredAs_takesG _ f m f.e.toNat { val := sel.length, taint := maskTaint s f.b.toNat } _ rfl

theorem SourceA.movesV_expand (h : SourceA s f a x fr c) {msh sel : List Nat} {mtaint : Bool}
    (hmsh : msh = selectShape s f.b.toNat (c.headD 1)) (hsel : sel = setPositions s f.b.toNat msh)
    (hmtaint : mtaint = maskTaint s f.b.toNat) :
    movesV (.expand f) 0x7C f s a x fr (msh ++ c.drop 1) mtaint (fun _ => [{ taint := mtaint }]) fun fi ci =>
      let p := ravel msh (ci.take msh.length)
      if p ∈ sel ∧ sel.idxOf p < c.headD 1 then some (ravel (fr ++ c) (fi ++ sel.idxOf p :: ci.drop msh.length)) else none := by
  subst hmtaint
  have hshape : (if f.b.toNat == 0 then [c.headD 1] else ((s.entered 0x7C f).me.getM f.b.toNat).shape) = msh :=
    (selectShape_eq s _ _).trans hmsh.symm
  have hset : setPositions (s.entered 0x7C f) f.b.toNat msh = sel := hsel.symm
  refine h.buildsV_of_plan (by decide) (show exec (.expand f) s = execExpand f s from rfl) rfl
    (congrArg (fun m : List Nat => fr ++ (m ++ c.drop 1)) hshape) (fun _ => rfl) rfl (fun fl k hk => ?_)
    (fun _ => rfl) fun _ => ⟨rfl, rfl⟩
  obtain ⟨hf, hc⟩ := within_splitIdx hk
  have hrest : Within ((splitIdx fr (msh ++ c.drop 1) k).2.drop msh.length) (c.drop 1) := by simpa using hc.drop msh.length
  dsimp only
  rw [hshape, hset, movedElt_mark]
  by_cases hj : ravel msh ((splitIdx fr (msh ++ c.drop 1) k).2.take msh.length) ∈ sel ∧
      sel.idxOf (ravel msh ((splitIdx fr (msh ++ c.drop 1) k).2.take msh.length)) < c.headD 1
  · rw [if_pos (by simpa using hj), if_pos hj, h.readAt_eq hf (h.within_cell hj.2 hrest)]
    rfl
  · rw [if_neg (by simpa using hj), if_neg hj, fill_eq a x]
    rfl

end Moves

/-- Settles O38: each move computes its positions from A (`SourceA`), each of them the element of one index of A or the fill value. -/
theorem structuralMoves : Obligations.StructuralMoves := by
  unfold Obligations.StructuralMoves
  intro f s x z a fr c n kb vb mask msh sel mtaint at_ move hreads
  have src : SourceA s f a x fr c := ⟨rfl, rfl, rfl, hreads⟩
  have hmsh : msh = selectShape s f.b.toNat (c.headD 1) := rfl
  refine ⟨src.movesV_rot rfl, src.movesV_rev, src.movesV_take rfl, src.movesV_drop rfl, ?transp, ?reshape, ?gath, ?repl, ?compress,
    src.movesV_expand hmsh rfl rfl⟩
  case transp => exact src.movesV_transp
  case reshape =>
    intro ext rc hrank hbounds
    have hvalue := src.buildsV_reshape rfl rfl rfl hrank hbounds
    simp only [movedElt, apply_ite (Option.map x), apply_ite (Option.getD · a.fill)] at hvalue
    exact hvalue
  case gath => exact src.movesV_gath rfl
  case repl => exact src.movesV_repl rfl rfl
  case compress => exact fun hprefix hrank hd => src.movesV_compress hmsh rfl rfl rfl hprefix hrank hd hd

end Sys2Proof.Machine
end

section
/-! ## Structural array instructions (spec 11): CAT and OUTER into an array register (R246 to R248) -/

namespace Sys2Proof.Machine

section Two

variable {s : State} {f : Fields} {op : BitVec 8} {a b : SOpd} {x y : Nat → Elt} {fa fb fr : List Nat}

/-- Each of two frames that agree begins the one that they agree on (R53). -/
theorem agree_prefix {g : List Nat} (h : agree fa fb = .ok g) : fa <+: g ∧ fb <+: g := by
  unfold agree at h
  split at h
  · cases h
    exact ⟨List.isPrefixOf_iff_prefix.mp ‹_›, List.prefix_rfl⟩
  · split at h
    · cases h
      exact ⟨List.prefix_rfl, List.isPrefixOf_iff_prefix.mp ‹_›⟩
    · cases h

theorem agree_bind {g : List Nat} (h : agree fa fb = .ok g) {α : Type} (k : List Nat → R α) : (agree fa fb >>= k) = k g := by
  rw [h]
  rfl

/-- The indices of a frame that an operand's shorter frame takes (R54). -/
theorem Within.take_prefix {idx : List Nat} (h : Within idx fr) (hp : fa <+: fr) : Within (idx.take fa.length) fa := by
  have htake := h.take fa.length
  rwa [← List.prefix_iff_eq_take.mp hp] at htake

theorem Within.eq_cons {idx sh : List Nat} {n : Nat} (h : Within idx (n :: sh)) : idx = idx.headD 0 :: idx.drop 1 := by
  obtain ⟨i, idx, -, -, rfl⟩ := List.forall₂_cons_right_iff.mp h
  rfl

/-- The operands A and B of a word that combines them, with their elements and the frame that they agree on. -/
structure SourcesAB (s : State) (f : Fields) (a b : SOpd) (x y : Nat → Elt) (fr : List Nat) : Prop where
  opdA : a = sopd s f (f.fn.getLsbD 1) f.a.toNat (Fmt.size f.fmt.toNat)
  opdB : b = sopd s f (f.fn.getLsbD 2) f.b.toNat (Fmt.size f.fmt.toNat)
  readsA : a.reads s x
  readsB : b.reads s y
  agrees : agree (frameOf f.rk.toNat a.sh) (frameOf f.rk.toNat b.sh) = .ok fr

/-- A word of two operands whose checks pass writes the positions of its plan to an array register (R230, R232). -/
theorem SourcesAB.runTwo_register (h : SourcesAB s f a b x y fr) {dMayT : Bool} {z : Nat} {sh : List Nat}
    {mk : Entry → State → SOpd → SOpd → R Plan} {p : Plan} {g : Nat → Elt × Flags} (hop : op ≠ 0x42)
    (hd : f.fn.getLsbD 0 = false) (hmk : mk (s.capture op f) (s.entered op f) a b = .ok p) (hsh : p.frame ++ p.cell = sh)
    (hwhole : p.whole = false) (hafter : p.after = id)
    (helem : ∀ fl, ∀ i < count sh, p.elem ((s.entered op f).raise fl) i = .ok (g i))
    (hserves : s.serves op f) (hmove : s.movable (s.capture op f) f [a, b] false sh) (hfits : fitsRegister (s.capture op f) z sh)
    (haccept : s.acceptsV (s.capture op f) f f.d.toNat z (positions s (s.capture op f) f sh g)) :
    runTwo op f s dMayT z mk =
      .next (s.retires { s.me.takesV f.d.toNat z sh (positions s (s.capture op f) f sh g) with prog := 0 }) := by
  subst hsh
  have hregs (act : Bool) : checkTaintRegs (s.entered op f) (s.capture op f) f act [a.taint, b.taint] = .ok () :=
    hmove.checkTaintRegs (by simp) act
  obtain ⟨htensors, hmasks, hopds, -⟩ := hmove
  have ha : sopd (s.entered op f) f (bit f.fn.toNat 1) f.a.toNat (Fmt.size f.fmt.toNat) = a := h.opdA.symm
  have hb : sopd (s.entered op f) f (bit f.fn.toNat 2) f.b.toNat (Fmt.size f.fmt.toNat) = b := h.opdB.symm
  have hina : a ∈ [a, b] := List.mem_cons_self
  have hinb : b ∈ [a, b] := List.mem_cons_of_mem _ List.mem_cons_self
  have huse : useTensors (s.entered op f) f [(dMayT && bit f.fn.toNat 0, f.d), (bit f.fn.toNat 1, f.a), (bit f.fn.toNat 2, f.b)] =
      .ok () := by
    refine useTensors_of_forall fun q hq hq1 => ?_
    rw [show bit f.fn.toNat 0 = false from hd, Bool.and_false, List.mem_cons, List.mem_cons, List.mem_singleton] at hq
    rcases hq with rfl | rfl | rfl
    · cases hq1
    · exact htensors _ hina _ (ha ▸ sopd_ten.trans (if_pos hq1))
    · exact htensors _ hinb _ (hb ▸ sopd_ten.trans (if_pos hq1))
  refine runArray_of_plan (p := p) (tensors := a.ten.isSome || b.ten.isSome) (after := id) hop hserves ?_ rfl hwhole helem
    (fun _ => congrFun hafter _) (fun _ => ⟨rfl, rfl⟩) haccept
  simp only [destOf_register hd, huse, ha, hb, hmk, Dest.agrees, Dest.overlaps, bind, Except.bind, hregs,
    show checkMasks (s.entered op f) (s.capture op f) f (p.frame ++ p.cell) = .ok () from hmasks, hopds a hina, hopds b hinb,
    fits_of_fitsRegister (d := { n := f.d.toNat, z := z, ten := none }) rfl hfits, pure, Except.pure]

/-- An operand's elements can be read by a shape of its count. -/
theorem SourcesAB.readableA (h : SourcesAB s f a b x y fr) (op : BitVec 8) {c : List Nat} (hc : count c = count (cellOf f.rk.toNat a.sh)) :
    a.readable s op f x (frameOf f.rk.toNat a.sh ++ c) := by
  have hcount : count (frameOf f.rk.toNat a.sh ++ c) = count a.sh := by
    rw [count_append, hc, ← count_append, frameOf_append_cellOf]
  obtain ⟨rfl, -, hreads, -, -⟩ := h
  exact sopd_readable hreads hcount

/-- The same of B. -/
theorem SourcesAB.readableB (h : SourcesAB s f a b x y fr) (op : BitVec 8) {c : List Nat} (hc : count c = count (cellOf f.rk.toNat b.sh)) :
    b.readable s op f y (frameOf f.rk.toNat b.sh ++ c) := by
  have hcount : count (frameOf f.rk.toNat b.sh ++ c) = count b.sh := by
    rw [count_append, hc, ← count_append, frameOf_append_cellOf]
  obtain ⟨-, rfl, -, hreads, -⟩ := h
  exact sopd_readable hreads hcount

/-- The cell of one operand of CAT: where the other's has one axis more, it takes an axis of extent 1 (R246). -/
def catCell (c other : List Nat) : List Nat := if c.length + 1 = other.length then 1 :: c else c

theorem count_catCell (c other : List Nat) : count (catCell c other) = count c := by
  unfold catCell
  split
  · rw [count_cons, Nat.one_mul]
  · rfl

theorem catCell_eq_cons (c other : List Nat) :
    catCell (majorCell c) other = (catCell (majorCell c) other).headD 1 :: (catCell (majorCell c) other).drop 1 := by
  unfold catCell
  split
  · rfl
  · exact majorCell_eq_cons c

/-- CAT takes each position from the operand whose major cells hold it (R246). -/
theorem SourcesAB.buildsV_cat (h : SourcesAB s f a b x y fr) {fa fb ca cb : List Nat} (hfa : fa = frameOf f.rk.toNat a.sh)
    (hfb : fb = frameOf f.rk.toNat b.sh)
    (hca : ca = catCell (majorCell (cellOf f.rk.toNat a.sh)) (majorCell (cellOf f.rk.toNat b.sh)))
    (hcb : cb = catCell (majorCell (cellOf f.rk.toNat b.sh)) (majorCell (cellOf f.rk.toNat a.sh)))
    (hlen : ca.length = cb.length) (hrest : ca.drop 1 = cb.drop 1) :
    let rc := (ca.headD 1 + cb.headD 1) :: ca.drop 1
    buildsV (.cat f) 0x78 f s (Fmt.size f.fmt.toNat) [a, b] false (fr ++ rc) fun e i =>
      let q := splitIdx fr rc i
      let j := q.2.headD 0
      (withGv e (if j < ca.headD 1 then x (ravel (fa ++ ca) (q.1.take fa.length ++ q.2))
        else y (ravel (fb ++ cb) (q.1.take fb.length ++ (j - ca.headD 1) :: q.2.drop 1))), 0) := by
  intro rc hd hserves hmove hfits haccept
  obtain ⟨hpa, hpb⟩ := agree_prefix h.agrees
  have hconsA : ca = ca.headD 1 :: ca.drop 1 := by rw [hca]; exact catCell_eq_cons _ _
  have hconsB : cb = cb.headD 1 :: cb.drop 1 := by rw [hcb]; exact catCell_eq_cons _ _
  have hreadA : a.readable s 0x78 f x (fa ++ ca) := by
    rw [hfa]; exact h.readableA _ (by rw [hca, count_catCell, count_majorCell])
  have hreadB : b.readable s 0x78 f y (fb ++ cb) := by
    rw [hfb]; exact h.readableB _ (by rw [hcb, count_catCell, count_majorCell])
  have hcellA : (if ((majorCell (cellOf f.rk.toNat a.sh)).length + 1 == (majorCell (cellOf f.rk.toNat b.sh)).length) = true
      then 1 :: majorCell (cellOf f.rk.toNat a.sh) else majorCell (cellOf f.rk.toNat a.sh)) = ca := by
    rw [hca]; simp only [catCell, beq_iff_eq]
  have hcellB : (if ((majorCell (cellOf f.rk.toNat b.sh)).length + 1 == (majorCell (cellOf f.rk.toNat a.sh)).length) = true
      then 1 :: majorCell (cellOf f.rk.toNat b.sh) else majorCell (cellOf f.rk.toNat b.sh)) = cb := by
    rw [hcb]; simp only [catCell, beq_iff_eq]
  rw [show exec (.cat f) s = execCat f s from rfl]
  refine h.runTwo_register (by decide) hd ((agree_bind h.agrees _).trans (bind_require ?_)) ?_ rfl rfl (fun fl i hi => ?_)
    hserves hmove hfits haccept
  · rw [hcellA, hcellB]
    simp [hlen, hrest]
  · rw [hcellA, hcellB]
  · obtain ⟨hf, hc⟩ := within_splitIdx hi
    have hhead := hc.head_lt
    have htail : Within ((splitIdx fr rc i).2.drop 1) (ca.drop 1) := hc.drop 1
    dsimp only
    rw [hcellA, hcellB, ← hfa, ← hfb]
    by_cases hj : (splitIdx fr rc i).2.headD 0 < ca.headD 1
    · have hcell : Within (splitIdx fr rc i).2 ca := by
        rw [hc.eq_cons, hconsA]
        exact htail.cons hj
      rw [if_pos hj, readAt_readable hreadA (hf.take_prefix (hfa ▸ hpa)) hcell, if_pos hj]
    · have hcell : Within (((splitIdx fr rc i).2.headD 0 - ca.headD 1) :: (splitIdx fr rc i).2.drop 1) cb := by
        rw [hconsB, ← hrest]
        exact htail.cons (by omega)
      rw [if_neg hj, readAt_readable hreadB (hf.take_prefix (hfb ▸ hpb)) hcell, if_neg hj]

/-- OUTER combines the elements of A's and of B's cell that the two parts of the index name (R247, R248). -/
theorem SourcesAB.buildsV_outer (h : SourcesAB s f a b x y fr) {fa fb ca cb : List Nat} (hfa : fa = frameOf f.rk.toNat a.sh)
    (hfb : fb = frameOf f.rk.toNat b.sh) (hca : ca = cellOf f.rk.toNat a.sh) (hcb : cb = cellOf f.rk.toNat b.sh)
    {o : Nat} (hop : o = f.fn.toNat / 8 % 16) (hle : o ≤ 11) :
    buildsV (.outer f) 0x79 f s (if 9 ≤ o then 1 else Fmt.size f.fmt.toNat) [a, b] false (fr ++ (ca ++ cb)) fun e i =>
      let q := splitIdx fr (ca ++ cb) i
      let u := x (ravel (fa ++ ca) (q.1.take fa.length ++ q.2.take ca.length))
      let v := y (ravel (fb ++ cb) (q.1.take fb.length ++ q.2.drop ca.length))
      let ar (op : ArOp) : Nat × Flags := arithElem op (e.mode f f.fmt.toNat i) u.val v.val 0
      let cm (cond : Nat) : Nat × Flags :=
        ((cmpElem f.fmt.toNat cond f.fsi u.val v.val).1.toNat, (cmpElem f.fmt.toNat cond f.fsi u.val v.val).2)
      let r := ([ar .add, ar .sub, ar .mul, ar .div, ar .min, ar .max, (u.val &&& v.val, 0), (u.val ||| v.val, 0),
        (u.val ^^^ v.val, 0), cm 0, cm 2, cm 3] : List (Nat × Flags)).getD o (0, 0)
      (withGv e (eltOf r.1 [u, v]), r.2) := by
  intro hd hserves hmove hfits haccept
  obtain ⟨hpa, hpb⟩ := agree_prefix h.agrees
  have hreadA : a.readable s 0x79 f x (fa ++ ca) := by
    rw [hfa]; exact h.readableA _ (by rw [hca])
  have hreadB : b.readable s 0x79 f y (fb ++ cb) := by
    rw [hfb]; exact h.readableB _ (by rw [hcb])
  have ho : bits f.fn.toNat 6 3 = o := hop ▸ bits_eq_div_mod _ _ _
  rw [show exec (.outer f) s = execOuter f s from rfl]
  unfold execOuter
  rw [ho]
  refine h.runTwo_register (by decide) hd (agree_bind h.agrees _) ?_ rfl rfl (fun fl i hi => ?_) hserves hmove hfits haccept
  · rw [hca, hcb]
  · obtain ⟨hf, hc⟩ := within_splitIdx hi
    have hcellA := hc.take ca.length
    have hcellB := hc.drop ca.length
    rw [List.take_left] at hcellA
    rw [List.drop_left] at hcellB
    dsimp only
    rw [← hca, ← hcb, ← hfa, ← hfb, hreadA _ _ ((hf.take_prefix (hfa ▸ hpa)).append hcellA).ravel_lt,
      hreadB _ _ ((hf.take_prefix (hfb ▸ hpb)).append hcellB).ravel_lt]
    clear ho hop
    interval_cases o <;> simp only [b2n_eq_toNat] <;> rfl

end Two

/-- Settles O39: both words read A and B at indices within the frame that the two agree on (`SourcesAB`). -/
theorem catAndOuter : Obligations.CatAndOuter := by
  unfold Obligations.CatAndOuter
  intro f s x y fr fmt z k a b fa fb hx hy hagree
  have src : SourcesAB s f a b x y fr := ⟨rfl, rfl, hx, hy, hagree⟩
  exact ⟨src.buildsV_cat rfl rfl rfl rfl, src.buildsV_outer rfl rfl rfl rfl rfl⟩

end Sys2Proof.Machine
end

section
/-! ## Structural array instructions (spec 11): IDXOF and GRADE (R243, R255) -/

namespace Sys2Proof.Machine

/-! ### The elements of a cell and of its major cells -/

/-- The elements of cell `fi` of an operand whose cells have `n` major cells of `nr` elements. -/
def cellElts (x : Nat → Elt) (n nr fi : Nat) : List Elt := (List.range (n * nr)).map fun q => x (fi * n * nr + q)

/-- The elements of its major cell `j`. -/
def majorElts (x : Nat → Elt) (n nr fi j : Nat) : List Elt := (List.range nr).map fun q => x ((fi * n + j) * nr + q)

section Cells

variable {x : Nat → Elt} {n nr fi j : Nat}

theorem take_drop_map_range {α : Type} (g : Nat → α) {a b N : Nat} (h : a + b ≤ N) :
    (((List.range N).map g).drop a).take b = (List.range b).map fun q => g (a + q) := by
  obtain ⟨r, rfl⟩ := Nat.exists_eq_add_of_le h
  rw [Nat.add_assoc, List.range_add, List.map_append, List.drop_left' (by simp), List.range_add, List.map_append, List.map_append,
    List.take_left' (by simp), List.map_map]
  rfl

theorem cellElts_eq_flatMap (x : Nat → Elt) (n nr fi : Nat) : cellElts x n nr fi = (List.range n).flatMap (majorElts x n nr fi) := by
  have hblocks (g : Nat → Elt) (m : Nat) :
      (List.range (m * nr)).map g = (List.range m).flatMap fun j => (List.range nr).map fun q => g (j * nr + q) := by
    induction m with
    | zero => simp
    | succ m ih =>
      rw [Nat.succ_mul, List.range_add, List.map_append, ih, List.range_succ, List.flatMap_append, List.map_map]
      simp [Function.comp_def]
  unfold cellElts
  rw [hblocks]
  refine List.flatMap_congr fun j _ => List.map_congr_left fun q _ => ?_
  rw [Nat.add_mul, Nat.add_assoc]

theorem majorElts_of_cellElts (hj : j < n) : ((cellElts x n nr fi).drop (j * nr)).take nr = majorElts x n nr fi j := by
  have hle : j * nr + nr ≤ n * nr := by rw [← Nat.succ_mul]; exact Nat.mul_le_mul_right _ hj
  unfold cellElts majorElts
  rw [take_drop_map_range _ hle]
  refine List.map_congr_left fun q _ => ?_
  rw [Nat.add_mul, Nat.add_assoc]

end Cells

section Source

variable {s : State} {f : Fields} {a : SOpd} {x : Nat → Elt} {fr c : List Nat}

theorem SourceA.count_eq (h : SourceA s f a x fr c) : count (fr ++ c) = count fr * c.headD 1 * count (c.drop 1) := by
  rw [count_append, congrArg count h.cell_eq, count_cons, Nat.mul_assoc]

/-- Every element of a cell can be read. -/
theorem SourceA.elem_cell (h : SourceA s f a x fr c) {fi q : Nat} (hfi : fi < count fr) (hq : q < c.headD 1 * count (c.drop 1))
    (op : BitVec 8) (fl : Flags) : a.elem ((s.entered op f).raise fl) (fi * c.headD 1 * count (c.drop 1) + q) =
      .ok (x (fi * c.headD 1 * count (c.drop 1) + q)) := by
  refine h.readable op fl _ ?_
  rw [h.count_eq]
  calc fi * c.headD 1 * count (c.drop 1) + q
      < fi * c.headD 1 * count (c.drop 1) + c.headD 1 * count (c.drop 1) := Nat.add_lt_add_left hq _
    _ = (fi + 1) * (c.headD 1 * count (c.drop 1)) := by rw [Nat.succ_mul, Nat.mul_assoc]
    _ ≤ count fr * (c.headD 1 * count (c.drop 1)) := Nat.mul_le_mul_right _ hfi
    _ = count fr * c.headD 1 * count (c.drop 1) := (Nat.mul_assoc _ _ _).symm

theorem SourceA.useTensors_ok (h : SourceA s f a x fr c) (op : BitVec 8)
    (htensors : ∀ o ∈ [a], ∀ t, o.ten = some t → useEntry t f.fmt.toNat = .ok ()) :
    useTensors (s.entered op f) f [(bit f.fn.toNat 1, f.a)] = .ok () := by
  refine useTensors_of_forall fun q hq hq1 => ?_
  rw [List.mem_singleton] at hq
  subst hq
  exact htensors a List.mem_cons_self _ (h.opd ▸ sopd_ten.trans (if_pos hq1))

/-- The elements of key `i` of IDXOF, where each frame cell of A takes the same `k` keys. -/
def keyElts (vb : VReg) (z nr k i : Nat) : List Elt := (List.range nr).map fun q => vb.elem z (i % k * nr + q)

/-- Do the elements of a major cell equal those of a key (R255)? -/
def cellsEqual (f : Fields) (cell key : List Elt) : Bool :=
  (cell.zip key).all fun p => (cmpElem f.fmt.toNat 0 f.fsi p.1.val p.2.val).1

theorem findFrom_cellElts (f : Fields) (x : Nat → Elt) (n nr fi : Nat) (key : List Elt) :
    findFrom (fun j => cellsEqual f (((cellElts x n nr fi).drop (j * nr)).take nr) key) n 0 =
      (List.range n).find? fun j => cellsEqual f (majorElts x n nr fi j) key := by
  rw [findFrom_eq_find?, ← List.range_eq_range']
  exact List.find?_congr fun j hj => by rw [majorElts_of_cellElts (List.mem_range.mp hj)]

/-- IDXOF finds the first major cell that equals the key (R255). -/
theorem SourceA.buildsV_idxof (h : SourceA s f a x fr c) {n nr : Nat} {vb : VReg} {rest head : List Nat} (hn : n = c.headD 1)
    (hrest : rest = c.drop 1) (hnr : nr = count rest) (hvb : vb = s.me.getV f.b.toNat)
    (hhead : head = vb.shape.take (vb.shape.length - rest.length)) (hrank : rest.length ≤ vb.shape.length)
    (hagree : vb.shape.drop (vb.shape.length - rest.length) = rest) (hmax : n < 2 ^ 31)
    (hvfits : count vb.shape ≤ capacity s.me.grows (Fmt.size f.fmt.toNat)) :
    buildsV (.idxof f) 0x80 f s 32 [a] vb.taint (fr ++ head) fun _ i =>
      let key := keyElts vb (Fmt.size f.fmt.toNat) nr (count head) i
      (eltOf (((List.range n).find? fun j => cellsEqual f (majorElts x n nr (i / count head) j) key).getD n)
        ((List.range n).flatMap (majorElts x n nr (i / count head)) ++ key), 0) := by
  intro hd hserves hmove hfits haccept
  have htaint (act : Bool) : checkTaintRegs (s.entered 0x80 f) (s.capture 0x80 f) f act [a.taint, vb.taint] = .ok () :=
    hmove.checkTaintRegs (by simp) act
  have huse := h.useTensors_ok 0x80 hmove.1
  obtain ⟨-, hmasks, hopds, -⟩ := hmove
  have hopd : sopd (s.entered 0x80 f) f (bit f.fn.toNat 1) f.a.toNat (Fmt.size f.fmt.toNat) = a := h.opd.symm
  have hfitsB : fitsReg (s.capture 0x80 f) (Fmt.size f.fmt.toNat) vb = .ok () :=
    fitsReg_of_le (by rwa [capture_grows (op := 0x80) rfl])
  have hagreeB : (decide (rest.length ≤ vb.shape.length) && vb.shape.drop (vb.shape.length - rest.length) == rest) = true := by
    rw [hagree]
    simp [hrank]
  have hmaxB : require (decide (n ≤ 2 ^ 31 - 1)) cCAPACITY = .ok () := require_of (decide_eq_true (by omega)) _
  apply runArray_of_plan (tensors := a.ten.isSome) (after := id) (by decide) hserves (hkeep := fun _ => ⟨rfl, rfl⟩)
    (haccept := haccept)
  case hbody =>
    simp only [destOf_register hd, huse, hopd, ← h.frame, ← h.cell, ← hrest, ← hn, ← hnr,
      show (s.entered 0x80 f).me.getV = s.me.getV from rfl, ← hvb, ← hhead, hagreeB,
      show checkMasks (s.entered 0x80 f) (s.capture 0x80 f) f (fr ++ head) = .ok () from hmasks, hopds a List.mem_cons_self, hfitsB,
      hmaxB, fits_of_fitsRegister (d := { n := f.d.toNat, z := 32, ten := none }) rfl hfits, htaint, bind, Except.bind, require_of]
    rfl
  case hsh => rfl
  case hwhole => rfl
  case hafter => exact fun _ => rfl
  case helem =>
    intro fl i hi
    have hfi : i / count head < count fr := by
      rw [count_append] at hi
      exact Nat.div_lt_of_lt_mul (by rwa [Nat.mul_comm] at hi)
    have hcells : (List.range (n * nr)).map (fun q => a.elem ((s.entered 0x80 f).raise fl) (i / count head * n * nr + q)) =
        (List.range (n * nr)).map fun q => .ok (x (i / count head * n * nr + q)) := by
      subst hn hrest hnr
      exact List.map_congr_left fun q hq => h.elem_cell hfi (List.mem_range.mp hq) 0x80 fl
    dsimp only
    rw [hcells, allOrLowest_map_ok, ← cellElts_eq_flatMap, ← findFrom_cellElts]
    rfl

end Source

/-! ### The order of GRADE (R243) -/

/-- The sign of `cmp` is the order of a key. -/
def Compares {α β : Type} [LT β] (cmp : α → α → Int) (key : α → β) : Prop :=
  ∀ a b, (cmp a b < 0 ↔ key a < key b) ∧ (cmp a b = 0 ↔ key a = key b)

/-- The place of a value in the order of floats: the infinities around the numbers, NaN last. -/
def Val.gradeKey : Val → ℤ ×ₗ ℚ
  | .inf neg => toLex (if neg then -1 else 1, 0)
  | .num neg m e _ _ => toLex (0, (if neg then -1 else 1) * m * 2 ^ e)
  | .nan _ => toLex (2, 0)

theorem Compares.neg {α β : Type} [LinearOrder β] {cmp : α → α → Int} {key : α → β} (h : Compares cmp key) :
    Compares (fun a b => -1 * cmp a b) (OrderDual.toDual ∘ key) := by
  intro a b
  obtain ⟨hlt, heq⟩ := h a b
  have hneg : (-1 * cmp a b < 0 ↔ ¬ (cmp a b < 0 ∨ cmp a b = 0)) ∧ (-1 * cmp a b = 0 ↔ cmp a b = 0) := by omega
  rw [hneg.1, hneg.2, hlt, heq, ← le_iff_lt_or_eq, not_le]
  exact ⟨Iff.rfl, Iff.rfl⟩

theorem scaled_eq {g e : Int} (h : g ≤ e) (neg : Bool) (m : Nat) :
    (((if neg then -1 else 1) * ((m <<< (e - g).toNat : Nat) : Int) : Int) : ℚ) * 2 ^ g = (if neg then -1 else 1) * m * 2 ^ e := by
  have hpow : (2 : ℚ) ^ (e - g).toNat * 2 ^ g = 2 ^ e := by
    rw [← zpow_natCast, ← zpow_add₀ two_ne_zero, Int.toNat_of_nonneg (by omega), Int.sub_add_cancel]
  rw [← hpow, Nat.shiftLeft_eq]
  push_cast
  cases neg <;> simp <;> ring

theorem sign_compares (i j : Int) : ((if i < j then -1 else if i == j then 0 else 1 : Int) < 0 ↔ i < j) ∧
    ((if i < j then -1 else if i == j then 0 else 1 : Int) = 0 ↔ i = j) := by
  by_cases hlt : i < j
  · simp [hlt, hlt.ne]
  · by_cases heq : i = j <;> simp [hlt, heq]

theorem cmpVal_compares {a b : Val} (ha : a.isNaN = false) (hb : b.isNaN = false) :
    (cmpVal a b < 0 ↔ a.gradeKey < b.gradeKey) ∧ (cmpVal a b = 0 ↔ a.gradeKey = b.gradeKey) := by
  cases a with
  | nan s => cases ha
  | inf x =>
    cases b with
    | nan s => cases hb
    | inf y => cases x <;> cases y <;> decide
    | num y n g t v => cases x <;> simp [cmpVal, Val.gradeKey, Prod.Lex.toLex_lt_toLex]
  | num x m e st w =>
    cases b with
    | nan s => cases hb
    | inf y => cases y <;> simp [cmpVal, Val.gradeKey, Prod.Lex.toLex_lt_toLex]
    | num y n g t v =>
      have hi := scaled_eq (min_le_left e g) x m
      have hj := scaled_eq (min_le_right e g) y n
      have hpos : (0 : ℚ) < 2 ^ min e g := zpow_pos two_pos _
      simp only [Val.gradeKey]
      rw [← hi, ← hj, Prod.Lex.toLex_lt_toLex, toLex_inj, Prod.mk.injEq]
      simp only [lt_self_iff_false, false_or, true_and, mul_lt_mul_iff_left₀ hpos, mul_left_inj' hpos.ne', Int.cast_lt, Int.cast_inj]
      exact sign_compares _ _

/-- The place of an element in the order of its format. -/
def gradeKey (fmt : Nat) (fsi : Bool) (x : Nat) : ℤ ×ₗ ℚ :=
  if Fmt.isF fmt then (decodeFloat (fparam fmt) (flushIn (fparam fmt) fsi x)).gradeKey else toLex (intOf fmt x, 0)

theorem Val.gradeKey_lt_nan {a b : Val} (ha : a.isNaN = false) (hb : b.isNaN = true) : a.gradeKey < b.gradeKey := by
  cases b with
  | inf => cases hb
  | num => cases hb
  | nan s =>
    cases a with
    | nan => cases ha
    | inf x => cases x <;> simp [Val.gradeKey, Prod.Lex.toLex_lt_toLex]
    | num x m e st w => simp [Val.gradeKey, Prod.Lex.toLex_lt_toLex]

theorem Val.gradeKey_nan {a b : Val} (ha : a.isNaN = true) (hb : b.isNaN = true) : a.gradeKey = b.gradeKey := by
  cases a <;> cases b <;> simp_all [Val.gradeKey, Val.isNaN]

theorem gradeCmp_compares (fmt : Nat) (fsi : Bool) : Compares (gradeCmp fmt fsi) (gradeKey fmt fsi) := by
  intro x y
  unfold gradeCmp gradeKey
  by_cases hf : Fmt.isF fmt = true
  · simp only [hf, if_true]
    generalize decodeFloat (fparam fmt) (flushIn (fparam fmt) fsi x) = a
    generalize decodeFloat (fparam fmt) (flushIn (fparam fmt) fsi y) = b
    cases ha : a.isNaN with
    | true =>
      cases hb : b.isNaN with
      | true => simp [Val.gradeKey_nan ha hb]
      | false =>
        have hlt := Val.gradeKey_lt_nan hb ha
        simp [hlt.ne', hlt.not_gt]
    | false =>
      cases hb : b.isNaN with
      | true =>
        have hlt := Val.gradeKey_lt_nan ha hb
        simp [hlt, hlt.ne]
      | false => simpa using cmpVal_compares ha hb
  · simp only [if_neg hf, Prod.Lex.toLex_lt_toLex, toLex_inj, Prod.mk.injEq, and_true, lt_self_iff_false, and_false, or_false]
    omega

section Lexicographic

variable {β : Type} [LinearOrder β] {cmp : Nat → Nat → Int} {key : Nat → β}

theorem lexCmp_compares (h : Compares cmp key) {xs ys : List Nat} (hlen : xs.length = ys.length) :
    (lexCmp cmp xs ys < 0 ↔ xs.map key < ys.map key) ∧ (lexCmp cmp xs ys = 0 ↔ xs.map key = ys.map key) := by
  induction xs generalizing ys with
  | nil =>
    rw [List.length_nil, eq_comm, List.length_eq_zero_iff] at hlen
    simp [hlen, lexCmp]
  | cons x xs ih =>
    cases ys with
    | nil => cases hlen
    | cons y ys =>
      obtain ⟨hlt, heq⟩ := h x y
      obtain ⟨ihlt, iheq⟩ := ih (Nat.succ.inj hlen)
      simp only [lexCmp, List.map_cons, List.cons_lt_cons_iff, List.cons.injEq]
      by_cases hxy : cmp x y = 0
      · have hkey := heq.mp hxy
        simp [hxy, hkey, ihlt, iheq]
      · have hkey : key x ≠ key y := fun hk => hxy (heq.mpr hk)
        simp [hxy, hkey, hlt]

end Lexicographic

/-! ### Stable sorting -/

section Sorting

variable {α γ : Type} {before : α → α → Bool}

theorem insertStable_map (g : γ → α) (x : γ) (xs : List γ) :
    insertStable before (g x) (xs.map g) = (insertStable (fun a b => before (g a) (g b)) x xs).map g := by
  induction xs with
  | nil => rfl
  | cons y ys ih =>
    simp only [insertStable, List.map_cons]
    split
    · rfl
    · rw [List.map_cons, ih]

theorem stableSort_append (xs : List α) (x : α) : stableSort before (xs ++ [x]) = insertStable before x (stableSort before xs) := by
  simp [stableSort]

theorem stableSort_map (g : γ → α) (xs : List γ) :
    stableSort before (xs.map g) = (stableSort (fun a b => before (g a) (g b)) xs).map g := by
  induction xs using List.reverseRecOn with
  | nil => rfl
  | append_singleton xs x ih => rw [List.map_append, List.map_singleton, stableSort_append, stableSort_append, ih, insertStable_map]

theorem insertStable_perm (x : α) (xs : List α) : (insertStable before x xs).Perm (x :: xs) := by
  induction xs with
  | nil => rfl
  | cons y ys ih =>
    rw [insertStable]
    split
    · rfl
    · exact (ih.cons y).trans (.swap _ _ _)

end Sorting

section SortingPositions

variable {β : Type} [LinearOrder β] {key : Nat → β} {before : Nat → Nat → Bool}

/-- In ascending order of a key, equal keys in ascending order. -/
def Ascends (key : Nat → β) (j k : Nat) : Prop := key j < key k ∨ key j = key k ∧ j < k

theorem insertStable_pairwise {x : Nat} {xs : List Nat} (hbefore : ∀ j k, before j k = true ↔ key j < key k)
    (hlast : ∀ y ∈ xs, y < x) (hs : xs.Pairwise (Ascends key)) : (insertStable before x xs).Pairwise (Ascends key) := by
  induction xs with
  | nil => exact List.pairwise_singleton _ _
  | cons y ys ih =>
    obtain ⟨hy, hys⟩ := List.pairwise_cons.mp hs
    rw [insertStable]
    by_cases hxy : key x < key y
    · rw [if_pos ((hbefore x y).mpr hxy)]
      refine List.pairwise_cons.mpr ⟨fun z hz => .inl ?_, hs⟩
      rcases List.mem_cons.mp hz with rfl | hz
      · exact hxy
      · rcases hy z hz with hlt | ⟨heq, -⟩
        · exact hxy.trans hlt
        · exact heq ▸ hxy
    · rw [if_neg (mt (hbefore x y).mp hxy)]
      refine List.pairwise_cons.mpr ⟨fun z hz => ?_, ih (fun z hz => hlast z (List.mem_cons_of_mem _ hz)) hys⟩
      rcases List.mem_cons.mp ((insertStable_perm x ys).mem_iff.mp hz) with rfl | hz
      · exact (lt_or_eq_of_le (not_lt.mp hxy)).imp_right fun heq => ⟨heq, hlast y List.mem_cons_self⟩
      · exact hy z hz

/-- A stable sort of the positions below `n` by a key. -/
theorem stableSort_range (hbefore : ∀ j k, before j k = true ↔ key j < key k) (n : Nat) :
    (stableSort before (List.range n)).Perm (List.range n) ∧ (stableSort before (List.range n)).Pairwise (Ascends key) := by
  induction n with
  | zero => exact ⟨.nil, .nil⟩
  | succ n ih =>
    obtain ⟨hperm, hsorted⟩ := ih
    rw [List.range_succ, stableSort_append]
    refine ⟨(insertStable_perm n _).trans ((hperm.cons n).trans (List.perm_append_singleton n _).symm), ?_⟩
    exact insertStable_pairwise hbefore (fun y hy => List.mem_range.mp (hperm.mem_iff.mp hy)) hsorted

/-- A stable sort of the positions below `n` by a comparison that has a key. -/
theorem stableSort_compares {cmp : Nat → Nat → Int} (h : Compares cmp key)
    (hbefore : ∀ j k, before j k = true ↔ cmp j k < 0) (n : Nat) :
    (stableSort before (List.range n)).Perm (List.range n) ∧
      (stableSort before (List.range n)).Pairwise fun j k => cmp j k < 0 ∨ cmp j k = 0 ∧ j < k := by
  obtain ⟨hperm, hsorted⟩ := stableSort_range (fun j k => (hbefore j k).trans (h j k).1) n
  refine ⟨hperm, hsorted.imp fun {j k} hjk => ?_⟩
  rwa [(h j k).1, (h j k).2]

end SortingPositions

/-! ### GRADE (R243) -/

theorem block_of_flatten {α β : Type} {F : β → List α} {m k : Nat} {b : β} {cells : List β} (hlen : ∀ b, (F b).length = m)
    (hk : cells[k]? = some b) : ((cells.map F).flatten.drop (k * m)).take m = F b := by
  induction cells generalizing k with
  | nil => cases hk
  | cons c cs ih =>
    cases k with
    | zero =>
      cases hk
      rw [Nat.zero_mul, List.drop_zero, List.map_cons, List.flatten_cons, List.take_left' (hlen b)]
    | succ k =>
      rw [Nat.succ_mul, Nat.add_comm, ← List.drop_drop, List.map_cons, List.flatten_cons, List.drop_left' (hlen c)]
      exact ih (by simpa using hk)

/-- Does major cell `j` of cell `fi` come before `k`? -/
def gradesBefore (f : Fields) (x : Nat → Elt) (n nr fi j k : Nat) : Bool :=
  let q := lexCmp (gradeCmp f.fmt.toNat f.fsi) ((majorElts x n nr fi j).map Elt.val) ((majorElts x n nr fi k).map Elt.val)
  if f.fn.getLsbD 3 then decide (0 < q) else decide (q < 0)

/-- The positions of the major cells of a cell in the order of GRADE. -/
def gradeOrder (f : Fields) (x : Nat → Elt) (n nr fi : Nat) : List Nat := stableSort (gradesBefore f x n nr fi) (List.range n)

theorem gradeOrder_of_cellElts (f : Fields) (x : Nat → Elt) (n nr fi : Nat) :
    (stableSort (fun p q : Nat × List Elt =>
      let o := lexCmp (gradeCmp f.fmt.toNat f.fsi) (p.2.map Elt.val) (q.2.map Elt.val)
      if bit f.fn.toNat 3 then decide (0 < o) else decide (o < 0))
      ((List.range n).map fun j => (j, ((cellElts x n nr fi).drop (j * nr)).take nr))).map (fun p => p.1) = gradeOrder f x n nr fi := by
  rw [List.map_congr_left (g := fun j => (j, majorElts x n nr fi j)) fun j hj => by rw [majorElts_of_cellElts (List.mem_range.mp hj)],
    stableSort_map, List.map_map]
  exact List.map_id _

/-- The element of GRADE at a result position: the rank within its cell, marked by the whole cell. -/
def gradeElt (f : Fields) (x : Nat → Elt) (n nr i : Nat) : Elt :=
  eltOf ((gradeOrder f x n nr (i / n)).getD (i % n) 0) (cellElts x n nr (i / n))

theorem gradeOrder_sorted (f : Fields) (x : Nat → Elt) (n nr fi : Nat) :
    (gradeOrder f x n nr fi).Perm (List.range n) ∧ (gradeOrder f x n nr fi).Pairwise fun j k =>
      let cmp : Int := (if f.fn.getLsbD 3 then -1 else 1) *
        lexCmp (gradeCmp f.fmt.toNat f.fsi) ((majorElts x n nr fi j).map Elt.val) ((majorElts x n nr fi k).map Elt.val)
      cmp < 0 ∨ cmp = 0 ∧ j < k := by
  have hcmp : Compares (fun j k => lexCmp (gradeCmp f.fmt.toNat f.fsi) ((majorElts x n nr fi j).map Elt.val)
      ((majorElts x n nr fi k).map Elt.val)) fun j => ((majorElts x n nr fi j).map Elt.val).map (gradeKey f.fmt.toNat f.fsi) :=
    fun j k => lexCmp_compares (gradeCmp_compares f.fmt.toNat f.fsi) (by simp [majorElts])
  cases hdesc : f.fn.getLsbD 3 with
  | false =>
    simp only [Bool.false_eq_true, if_false, Int.one_mul]
    exact stableSort_compares hcmp (fun j k => by simp only [gradesBefore, hdesc]; simp) n
  | true => exact stableSort_compares hcmp.neg (fun j k => by simp only [gradesBefore, hdesc]; simp) n

section Grade

variable {s : State} {f : Fields} {a : SOpd} {x : Nat → Elt} {fr c : List Nat}

/-- What GRADE computes of a unit of positions (R233, R243). -/
theorem SourceA.grade_unit (h : SourceA s f a x fr c) {n nr : Nat} (hn : n = c.headD 1) (hnr : nr = count (c.drop 1))
    {u : List Nat} (hu : ∀ i ∈ u, i < count fr * n) (op : BitVec 8) (fl : Flags) :
    allOrLowest ((((u.map fun i => i / n).dedup).map fun fi => (List.range (n * nr)).map fun q =>
      a.elem ((s.entered op f).raise fl) (fi * n * nr + q)).flatten) =
        .ok (((u.map fun i => i / n).dedup.map (cellElts x n nr)).flatten) := by
  subst hn hnr
  have hreads : (((u.map fun i => i / c.headD 1).dedup).map fun fi => (List.range (c.headD 1 * count (c.drop 1))).map fun q =>
      a.elem ((s.entered op f).raise fl) (fi * c.headD 1 * count (c.drop 1) + q)) =
      ((u.map fun i => i / c.headD 1).dedup.map (cellElts x (c.headD 1) (count (c.drop 1)))).map
        (List.map (Except.ok : Elt → R Elt)) := by
    rw [List.map_map]
    refine List.map_congr_left fun fi hfi => ?_
    obtain ⟨i, hi, rfl⟩ := List.mem_map.mp (List.mem_dedup.mp hfi)
    have hlt : i / c.headD 1 < count fr := Nat.div_lt_of_lt_mul (by rw [Nat.mul_comm]; exact hu i hi)
    show _ = (cellElts x (c.headD 1) (count (c.drop 1)) (i / c.headD 1)).map (Except.ok : Elt → R Elt)
    rw [cellElts, List.map_map]
    exact List.map_congr_left fun q hq => h.elem_cell hlt (List.mem_range.mp hq) op fl
  rw [hreads, ← List.map_flatten]
  exact (allOrLowest_map_ok id _).trans (by rw [List.map_id])

theorem lookup_graded (f : Fields) (x : Nat → Elt) {n nr fi : Nat} {cells : List Nat} (hfi : fi ∈ cells) :
    ((cells.zipIdx.map fun p =>
      let els := ((cells.map (cellElts x n nr)).flatten.drop (p.2 * (n * nr))).take (n * nr)
      (p.1, els, (stableSort (fun p q : Nat × List Elt =>
        let o := lexCmp (gradeCmp f.fmt.toNat f.fsi) (p.2.map Elt.val) (q.2.map Elt.val)
        if bit f.fn.toNat 3 then decide (0 < o) else decide (o < 0))
        ((List.range n).map fun j => (j, (els.drop (j * nr)).take nr))).map fun p => p.1)).lookup fi).getD ([], []) =
      (cellElts x n nr fi, gradeOrder f x n nr fi) := by
  rw [lookup_of_forall (G := fun fi => (cellElts x n nr fi, gradeOrder f x n nr fi)) (i := fi)]
  · rfl
  · intro p hp
    obtain ⟨q, hq, rfl⟩ := List.mem_map.mp hp
    dsimp only
    rw [block_of_flatten (by simp [cellElts]) (List.mem_zipIdx_iff_getElem?.mp hq), gradeOrder_of_cellElts]
  · obtain ⟨k, hk⟩ := List.mem_iff_getElem?.mp hfi
    exact ⟨_, List.mem_map.mpr ⟨(fi, k), List.mem_zipIdx_iff_getElem?.mpr hk, rfl⟩, rfl⟩

theorem SourceA.exec_grade (h : SourceA s f a x fr c) {n nr : Nat} {sh : List Nat} (hn : n = c.headD 1) (hnr : nr = count (c.drop 1))
    (hsh : sh = fr ++ [n]) (hd : f.fn.getLsbD 0 = false) (hserves : s.serves 0x72 f)
    (hmove : s.movable (s.capture 0x72 f) f [a] false sh) (hmax : n ≤ 65535) (hfits : fitsRegister (s.capture 0x72 f) 32 sh)
    (haccept : s.acceptsV (s.capture 0x72 f) f f.d.toNat 32
      (positions s (s.capture 0x72 f) f sh fun i => (gradeElt f x n nr i, 0))) :
    exec (.grade f) s = .next (s.retires { s.me.takesV f.d.toNat 32 sh
      (positions s (s.capture 0x72 f) f sh fun i => (gradeElt f x n nr i, 0)) with prog := 0 }) := by
  obtain ⟨-, hreissued, hwork, hbound, -⟩ := id hserves
  have htaint (act : Bool) : checkTaintRegs (s.entered 0x72 f) (s.capture 0x72 f) f act [a.taint] = .ok () :=
    hmove.checkTaintRegs (by simp) act
  have huse := h.useTensors_ok 0x72 hmove.1
  obtain ⟨-, hmasks, hopds, -⟩ := hmove
  have hopd : sopd (s.entered 0x72 f) f (bit f.fn.toNat 1) f.a.toNat (Fmt.size f.fmt.toNat) = a := h.opd.symm
  have hstart : startOf (s.entered 0x72 f) n = 0 := by simp [startOf, State.entered, hreissued]
  have hlimit (tn : Bool) : boundOf (s.entered 0x72 f) tn = none := by simp [boundOf, State.entered, hbound]
  have hcount : count sh = count fr * n := by rw [hsh, count_append, count_cons]; simp [count]
  have hunits : (if a.ten.isSome then (upTo (if n == 0 then 0 else 0 / n) (count fr)).map fun fi => upTo (max 0 (fi * n)) ((fi + 1) * n)
      else [upTo 0 (count sh)]).flatten = List.range (count sh) := by
    cases a.ten.isSome with
    | false => simp [upTo_zero]
    | true =>
      simp only [if_true, Nat.zero_div, ite_self, Nat.zero_max, upTo_zero]
      rw [flatten_upTo (lo := fun fi => fi * n) fun fi => Nat.mul_le_mul_right n (Nat.le_succ fi), Nat.zero_mul, upTo_zero, hcount]
  refine runArray_retires hserves (by decide) hwork rfl ?_
  simp only [destOf_register hd, huse, hopd, ← h.frame, ← h.cell, ← hn, ← hnr, ← hsh,
    show checkMasks (s.entered 0x72 f) (s.capture 0x72 f) f sh = .ok () from hmasks, hopds a List.mem_cons_self,
    require_of (decide_eq_true hmax), fits_of_fitsRegister (d := { n := f.d.toNat, z := 32, ten := none }) rfl hfits, htaint,
    hstart, hlimit, bind, Except.bind]
  refine Eq.trans (closeUnits_register (d := { n := f.d.toNat, z := 32, ten := none })
    (els := fun i => if isActive s (s.capture 0x72 f) f sh i then (some (gradeElt f x n nr i), 0) else (none, 0)) rfl hunits
    (fun fl u hu => ?_) haccept.2) rfl
  have hwithin : ∀ i ∈ u, i < count fr * n := fun i hi =>
    List.mem_range.mp (hcount ▸ hunits ▸ List.mem_flatten.mpr ⟨u, hu, hi⟩)
  rw [h.grade_unit hn hnr hwithin]
  refine congrArg (fun ps => (.ok { pieces := ps, carry := () } : R (UnitOut Unit))) (List.map_congr_left fun i hi => ?_)
  have hgraded := lookup_graded f x (n := n) (nr := nr) (List.mem_dedup.mpr (List.mem_map_of_mem (f := fun i => i / n) hi))
  dsimp only at hgraded ⊢
  rw [hgraded, apply_ite (Prod.mk i)]
  rfl

end Grade

/-- Settles O41: GRADE writes the stable sort of the positions by a key (`gradeOrder`), IDXOF the first position that `find?` finds. -/
theorem gradeAndFind : Obligations.GradeAndFind := by
  unfold Obligations.GradeAndFind
  intro f s x fmt z a fr c n nr cell hreads hd
  have src : SourceA s f a x fr c := ⟨rfl, rfl, rfl, hreads⟩
  constructor
  case left =>
    intro e sh cmp hserves hmove hmax hfits
    refine ⟨positions s e f sh fun i => (gradeElt f x n nr i, 0), ?_, src.exec_grade rfl rfl rfl hd hserves hmove hmax hfits, ?_⟩
    · simp [positions]
    · intro fi hfi
      obtain ⟨hperm, hsorted⟩ := gradeOrder_sorted f x n nr fi
      refine ⟨gradeOrder f x n nr fi, hperm, hsorted, fun j hj => ?_⟩
      have hlt : fi * n + j < count sh := by
        rw [show count sh = count fr * n by rw [count_append, count_cons]; simp [count]]
        calc fi * n + j < (fi + 1) * n := by rw [Nat.succ_mul]; exact Nat.add_lt_add_left hj _
          _ ≤ count fr * n := Nat.mul_le_mul_right _ hfi
      rw [positions, List.getD_eq_getElem _ _ (by simpa using hlt), List.getElem_map, List.getElem_range, gradeElt,
        Nat.mul_comm fi n, Nat.mul_add_div (by omega), Nat.mul_add_mod,
        Nat.div_eq_of_lt hj, Nat.mod_eq_of_lt hj, Nat.add_zero, cellElts_eq_flatMap]
      rfl
  case right =>
    intro vb rest head key same hrank hagree hmax hvfits
    exact src.buildsV_idxof rfl rfl rfl rfl rfl hrank hagree hmax hvfits

end Sys2Proof.Machine
end

section
/-! ## Memory hierarchy rules (spec 13): what keeps the canonical form of memory (R257, R275, R287)

`State.Keeps` says of an act that it leaves memory in its canonical form. Memory is written by `State.putGranule` and where an
uncorrectable error strikes; every other act is a chain of acts that keep the form, so that there is one lemma for each act. -/

namespace Sys2Proof.Machine

/-! ### Chains of acts -/

/-- Where memory is in its canonical form in `s` it is so in `t`. -/
def State.Keeps (s t : State) : Prop := s.Inv → t.Inv

/-- Every value that a computation gives meets `p`. -/
def Yields {ε α : Type} (p : α → Prop) (x : Except ε α) : Prop := ∀ a, x = .ok a → p a

/-- The next state of a row keeps the form. -/
def Result.Keeps (s : State) (r : Result) : Prop := ∀ t, r = .next t → s.Keeps t

/-- However an entry fares, it keeps the form. -/
def Served.Keeps (s : State) : Served → Prop
  | .done t => s.Keeps t
  | .wait t => s.Keeps t
  | .stop t _ => s.Keeps t

section Chains

variable {s t u : State} {ε α β : Type}

theorem State.Keeps.refl (s : State) : s.Keeps s := id
theorem State.Keeps.trans (h : s.Keeps t) (h' : t.Keeps u) : s.Keeps u := h' ∘ h

/-- Acts that leave memory alone. -/
theorem State.Keeps.of_mem (h : t.mem = s.mem) : s.Keeps t := fun hs => (congrArg (Memory.wf · = true) h).mpr hs

/-- An act that leaves memory alone follows, or comes first. -/
theorem State.Keeps.then (h : s.Keeps t) (hmem : u.mem = t.mem) : s.Keeps u := h.trans (.of_mem hmem)
theorem State.Keeps.from (hmem : t.mem = s.mem) (h : t.Keeps u) : s.Keeps u := State.Keeps.trans (.of_mem hmem) h

theorem State.Keeps.ite {c : Prop} [Decidable c] (ht : s.Keeps t) (hu : s.Keeps u) : s.Keeps (if c then t else u) := by
  split
  · exact ht
  · exact hu

theorem State.Keeps.foldl {g : State → α → State} (hg : ∀ t x, State.Keeps t (g t x)) (xs : List α) (s : State) :
    s.Keeps (xs.foldl g s) := by
  induction xs generalizing s with
  | nil => exact .refl s
  | cons x xs ih => exact (hg s x).trans (ih (g s x))

/-- A walk that carries a state and something else. -/
theorem State.Keeps.foldl_pair {g : State × β → α → State × β} (hg : ∀ (a : State × β) x, a.1.Keeps (g a x).1) (xs : List α)
    (a : State × β) :
    a.1.Keeps (xs.foldl g a).1 := by
  induction xs generalizing a with
  | nil => exact .refl a.1
  | cons x xs ih => exact (hg a x).trans (ih (g a x))

variable {p q : α → Prop} {x : Except ε β} {g : β → Except ε α}

theorem Yields.ok {a : α} (h : p a) : Yields p (.ok a : Except ε α) := fun _ hb => by cases hb; exact h
theorem Yields.error {e : ε} : Yields p (.error e : Except ε α) := fun _ hb => by cases hb

theorem Yields.get {x : Except ε α} {a : α} (h : Yields p x) (hx : x = .ok a) : p a := h a hx

theorem Yields.bind {r : β → Prop} (hx : Yields r x) (h : ∀ b, r b → Yields p (g b)) : Yields p (x >>= g) := by
  cases x with
  | error e => exact .error
  | ok b => exact h b (hx b rfl)

/-- A computation whose last part yields what is wanted, whatever its first part gives. -/
theorem Yields.after (h : ∀ b, Yields p (g b)) : Yields p (x >>= g) :=
  Yields.bind (r := fun _ => True) (fun _ _ => trivial) fun b _ => h b

theorem Yields.ite {c : Prop} [Decidable c] {x y : Except ε α} (hx : Yields p x) (hy : Yields p y) : Yields p (if c then x else y) := by
  split
  · exact hx
  · exact hy

theorem Result.Keeps.next (h : s.Keeps t) : Result.Keeps s (.next t) := fun _ hu => by cases hu; exact h

theorem Result.Keeps.from {r : Result} (h : s.Keeps t) (h' : Result.Keeps t r) : Result.Keeps s r := fun u hu => h.trans (h' u hu)

theorem Result.Keeps.ite {c : Prop} [Decidable c] {x y : Result} (hx : Result.Keeps s x) (hy : Result.Keeps s y) :
    Result.Keeps s (if c then x else y) := by
  split
  · exact hx
  · exact hy

theorem Served.Keeps.ite {c : Prop} [Decidable c] {x y : Served} (hx : x.Keeps s) (hy : y.Keeps s) : (if c then x else y).Keeps s := by
  split
  · exact hx
  · exact hy

theorem Served.Keeps.from {x : Served} (h : s.Keeps t) (h' : x.Keeps t) : x.Keeps s := by
  cases x with
  | done u => exact h.trans h'
  | wait u => exact h.trans h'
  | stop u e => exact h.trans h'

theorem Served.Keeps.ofR {r : R State} (h : Yields s.Keeps r) : (Served.ofR s r).Keeps s := by
  cases r with
  | error e => exact .refl s
  | ok t => exact h t rfl

/-- A body that keeps the form where its checks pass, and changes nothing where they fail. -/
theorem Served.Keeps.ofParts {r : R (State × Bool)} (h : Yields (fun a => s.Keeps a.1) r) : (Served.ofParts s r).Keeps s := by
  cases r with
  | error e => exact .refl s
  | ok a =>
    obtain ⟨t, b⟩ := a
    cases b with
    | false => exact h _ rfl
    | true => exact h _ rfl

end Chains

/-! ### Faults and the ways in which words run -/

section Runs

variable {s : State}

theorem State.takeFault_keeps (s : State) (p : Pend) : s.Keeps (s.takeFault p) := s.takeFault_wf p

theorem State.scalarFault_keeps (s : State) (e : Flt) : Result.Keeps s (s.scalarFault e) := fun _ ht => State.scalarFault_wf ht

theorem runScalar_keeps {f : Fields} {gs qs : List Nat} {body : State → R State} (hb : s.Inv → ∀ u, Yields u.Keeps (body u)) :
    Result.Keeps s (runScalar f s gs qs body) :=
  fun _ ht hs => runScalar_wf ht hs fun u v hu hv => hb hs u v hv hu

theorem scalarG_keeps (f : Fields) (gs : List Nat) (val : Strand → Word × Flags) : Result.Keeps s (scalarG f s gs val) :=
  runScalar_keeps fun _ _ => .ok id

theorem scalarQ_keeps (f : Fields) (gs qs : List Nat) (val : Strand → Bool × Flags) : Result.Keeps s (scalarQ f s gs qs val) :=
  runScalar_keeps fun _ _ => .ok id

theorem runArray_keeps {op : BitVec 8} {f : Fields} {body : Entry → State → Served} (hb : ∀ e u, (body e u).Keeps u) :
    Result.Keeps s (runArray op f s body) :=
  fun _ ht hs => runArray_wf ht hs fun e u hu => by
    have h := hb e u
    refine ⟨fun v hv => ?_, fun v hv => ?_, fun v x hv => ?_⟩ <;> rw [hv] at h <;> exact h hu

/-- An entry that completes, or faults before any effect. -/
theorem runArray_ofR_keeps {op : BitVec 8} {f : Fields} {body : Entry → State → R State} (hb : ∀ e u, Yields u.Keeps (body e u)) :
    Result.Keeps s (runArray op f s fun e u => Served.ofR u (body e u)) := runArray_keeps fun e u => .ofR (hb e u)

theorem State.enter_keeps (s : State) (op : BitVec 8) (f : Fields) :
    match s.enter op f with
    | .error r => Result.Keeps s r
    | .ok p => s.Keeps p.1 := by
  rcases s.enter_cases op f with ⟨e, t, ht, h⟩ | h | ⟨_, h⟩ | ⟨_, h⟩ <;> rw [h]
  · exact .next (s.scalarFault_keeps e t ht)
  · exact .next (.refl s)
  · exact .next id
  · exact id

end Runs

end Sys2Proof.Machine
end

section
/-! ## Memory hierarchy rules (spec 13): array words that keep the form of memory -/

namespace Sys2Proof.Machine

section Words

variable {s t : State}

/-! ### Results in registers (R191) -/

theorem consume_keeps (e : Entry) (f : Fields) (tainted poisoned : Bool) : Yields s.Keeps (consume s e f tainted poisoned) :=
  .after fun _ => .after fun _ => .ok id

theorem commitV_keeps (e : Entry) (f : Fields) (d z : Nat) (sh : List Nat) (xs : List (Option Elt × Flags)) (judged : Nat → Bool) :
    Yields s.Keeps (commitV s e f d z sh xs judged) := .bind (consume_keeps e f _ _) fun _ h => .ok h

theorem commitM_keeps (e : Entry) (f : Fields) (d : Nat) (sh : List Nat) (xs : List (Option Elt × Flags)) :
    Yields s.Keeps (commitM s e f d sh xs) := .bind (consume_keeps e f _ _) fun _ h => .ok h

theorem commitG_keeps (e : Entry) (f : Fields) (d : Nat) (x : Elt) (fl : Flags) : Yields s.Keeps (commitG s e f d x fl) :=
  .bind (consume_keeps e f _ _) fun _ h => .ok h

theorem regCheck_keeps (e : Entry) (f : Fields) (regs : List GReg) : Yields s.Keeps (regCheck s e f regs) := consume_keeps e f _ _

theorem elementwise_keeps (e : Entry) (f : Fields) (z : Nat) (srcs : List (Source × Nat)) (toMask : Bool)
    (op : Nat → List Elt → Elt × Flags) : Yields s.Keeps (elementwise s e f z srcs toMask op) := by
  refine .after fun _ => .after fun _ => .after fun _ => .after fun _ => ?_
  cases toMask with
  | true => exact commitM_keeps e f _ _ _
  | false => exact commitV_keeps e f _ _ _ _ _

/-! ### Elementwise words -/

theorem runArith_keeps (o : ArOp) (n : Nat) (op : BitVec 8) (f : Fields) : Result.Keeps s (runArith o n op f s) :=
  runArray_ofR_keeps fun e _ => elementwise_keeps e f _ _ _ _

theorem runArith1_keeps (o : ArOp) (op : BitVec 8) (f : Fields) : Result.Keeps s (runArith1 o op f s) :=
  runArray_ofR_keeps fun e _ => elementwise_keeps e f _ _ _ _

theorem runBits_keeps (n : Nat) (op : BitVec 8) (f : Fields) (g : Nat → Nat → Nat → Nat) : Result.Keeps s (runBits n op f s g) :=
  runArray_ofR_keeps fun e _ => elementwise_keeps e f _ _ _ _

theorem moveBits_keeps (e : Entry) (f : Fields) (d a z : Nat) : Yields s.Keeps (moveBits s e f d a z) :=
  .after fun _ => .after fun _ => commitV_keeps e f _ _ _ _ _

theorem fillStrip_keeps (e : Entry) (f : Fields) (val : Nat → Elt × Flags) : Yields s.Keeps (fillStrip s e f val) :=
  .after fun _ => .after fun _ => commitV_keeps e f _ _ _ _ _

theorem execVqnt_keeps (f : Fields) : Result.Keeps s (execVqnt f s) :=
  runArray_ofR_keeps fun e _ => .after fun _ => .after fun _ => .bind (commitV_keeps e f _ _ _ _ _) fun _ h => .ok h

theorem execVrcr_keeps (f : Fields) : Result.Keeps s (execVrcr f s) :=
  runArray_keeps fun e _ => .ofParts <| .after fun _ => .after fun _ => .after fun _ => .after fun _ => .after fun _ => .after fun _ =>
    .bind (commitV_keeps e _ _ _ _ _ _) fun _ h => .ok h

theorem runMask_keeps (op : BitVec 8) (f : Fields) (g : Bool → Bool → Bool) : Result.Keeps s (runMask op f s g) :=
  runArray_ofR_keeps fun e _ => .after fun _ => .after fun _ => .bind (consume_keeps e f _ _) fun _ h => .ok h

theorem execMnot_keeps (f : Fields) : Result.Keeps s (execMnot f s) :=
  runArray_ofR_keeps fun e _ => .after fun _ => .bind (consume_keeps e f _ _) fun _ h => .ok h

theorem execMset_keeps (f : Fields) : Result.Keeps s (execMset f s) :=
  runArray_ofR_keeps fun e _ => .after fun _ => .bind (consume_keeps e f _ _) fun _ h => .ok h

theorem execVext_keeps (f : Fields) : Result.Keeps s (execVext f s) :=
  runArray_ofR_keeps fun e _ => .after fun _ => by
    dsimp only
    split
    · exact commitG_keeps e f _ _ _
    · exact commitG_keeps e f _ _ _

theorem execVins_keeps (f : Fields) : Result.Keeps s (execVins f s) :=
  runArray_ofR_keeps fun e _ => .after fun _ => .bind (consume_keeps e f _ _) fun _ h => by
    split
    · exact .ok h
    · exact .ok h

theorem execShtag_keeps (f : Fields) : Result.Keeps s (execShtag f s) :=
  runArray_ofR_keeps fun e _ => .after fun _ => .bind (consume_keeps e f _ _) fun _ h => by
    dsimp only
    split
    · exact .ok h
    · exact .ok h

/-! ### Strips (R194-R203, R363) -/

theorem State.performAs_keeps (s : State) (who : Nat) (pc : Word) (p : Planned) : s.Keeps (s.performAs who pc p) :=
  s.writeAll_wf who p.ws

theorem loadStrip_keeps (e : Entry) (f : Fields) : (loadStrip e f s).Keeps s := by
  unfold loadStrip
  dsimp only
  split
  · exact .refl s
  · repeat' split
    all_goals exact .of_mem (by simp only [State.raise_eq, State.setV_eq])

theorem storeStrip_keeps (e : Entry) (f : Fields) : (storeStrip e f s).Keeps s := by
  unfold storeStrip
  dsimp only
  split
  · exact .refl s
  · refine .ite (.refl s) (.ite (.of_mem (by simp only [State.raise_eq])) ?_)
    split
    · exact State.performAs_keeps (s.raise _) _ _ _
    · exact State.performAs_keeps (s.raise _) _ _ _

theorem execSpliceMove_keeps (f : Fields) : Result.Keeps s (execSpliceMove f s) :=
  runArray_keeps fun e u => by
    repeat' split
    · exact .ofR (moveBits_keeps _ _ _ _ _)
    all_goals exact loadStrip_keeps e f

@[simp] theorem State.homeSync_mem (s : State) (g : Nat) (returning : Bool) : (s.homeSync g returning).mem = s.mem := rfl
@[simp] theorem State.acquire_mem (s : State) (scope : Nat) : (s.acquire scope).mem = s.mem := rfl

theorem watchLimit_keeps (f : Fields) (rows cols p watch : Nat) : Yields (fun a => s.Keeps a.1) (watchLimit s f rows cols p watch) := by
  unfold watchLimit
  split
  · exact .ok id
  · refine .after fun _ => .after fun _ => .after fun _ => ?_
    dsimp only
    split
    · exact .ok id
    · refine .after fun _ => ?_
      repeat' split
      all_goals exact .ok id

theorem serveSetl_keeps (e : Entry) (f : Fields) : (serveSetl e f s).Keeps s := by
  unfold serveSetl
  dsimp only
  generalize hr : (Bind.bind _ _ : R (State × Option Nat)) = r
  have hgo : Yields (fun a => s.Keeps a.1) r := by
    rw [← hr]
    exact .after fun _ => .after fun _ => watchLimit_keeps _ _ _ _ _
  split
  · exact .refl s
  · exact hgo.get rfl
  · exact hgo.get rfl

end Words

end Sys2Proof.Machine
end

section
/-! ## Memory hierarchy rules (spec 13): structural words that keep the form of memory -/

namespace Sys2Proof.Machine

section Structural

variable {s t : State} {C : Type}

theorem writeUnit_keeps (s : State) (pc : Word) (t : TEntry) (sh : List Nat) (ps : List Piece) : s.Keeps (writeUnit s pc t sh ps) :=
  s.performAs_keeps _ _ _

/-- One unit writes its pieces, or stops before any of them (R234). -/
theorem runUnit_keeps (e : Entry) (d : Dest) (sh : List Nat) (targets : List Nat → List Nat)
    (proc : State → C → List Nat → R (UnitOut C)) (acc : Progress C) (u : List Nat) :
    acc.s.Keeps (runUnit e d sh targets proc acc u).s := by
  unfold runUnit
  dsimp only
  split
  · exact .refl acc.s
  · split
    · exact .of_mem (by simp only [State.raise_eq])
    · exact State.Keeps.trans (.of_mem (by simp only [State.raise_eq])) (writeUnit_keeps _ _ _ _ _)

theorem runUnits_keeps (e : Entry) (d : Dest) (sh : List Nat) (bound : Option Nat) (units : List (List Nat)) (c0 : C)
    (targets : List Nat → List Nat) (proc : State → C → List Nat → R (UnitOut C)) :
    s.Keeps (runUnits e d sh bound units c0 targets proc s).s := by
  have hwalk (us : List (List Nat)) (acc : Progress C) (h : s.Keeps acc.s) :
      s.Keeps (us.foldl (fun acc u => if acc.stopped.isSome then acc else runUnit e d sh targets proc acc u) acc).s := by
    induction us generalizing acc with
    | nil => exact h
    | cons u us ih =>
      refine ih _ ?_
      dsimp only
      split
      · exact h
      · exact h.trans (runUnit_keeps e d sh targets proc acc u)
  unfold runUnits
  dsimp only
  split
  · exact hwalk _ _ (.refl s)
  · exact hwalk _ _ (.refl s)

theorem stopAt_keeps (h : s.Keeps t) (tensors : Bool) (cell p : Nat) (x : Option Flt) : (stopAt t tensors cell p x).Keeps s := by
  unfold stopAt
  cases x <;> cases tensors <;> exact h

/-- What has been done so far is closed in registers alone. -/
theorem closeUnits_keeps {tensors : Bool} {d : Dest} {sh : List Nat} {cell : Nat} {p : Progress C} {after : State → State}
    (h : s.Keeps p.s) (hafter : ∀ u : State, u.Keeps (after u)) : (closeUnits tensors d sh cell p after).Keeps s := by
  have hclose (t : State) (ht : s.Keeps t) : Served.Keeps s (match p.stopped with
      | some (x, at_) => stopAt t tensors cell at_ x
      | none => .done (after t).closeProg) := by
    split
    · exact stopAt_keeps ht tensors cell _ _
    · exact ht.trans (hafter t)
  unfold closeUnits
  refine hclose _ ?_
  split
  · exact h
  · split
    · exact h
    · exact h.trans (.of_mem (by simp only [State.setV_eq]))

/-- What a plan writes besides its result lies in registers. -/
def Plan.Keeps (p : Plan) : Prop := ∀ u : State, u.Keeps (p.after u)

theorem runPlan_keeps (e : Entry) (f : Fields) (d : Dest) (tensors : Bool) {p : Plan} (hp : p.Keeps) :
    (runPlan s e f d tensors p).Keeps s := closeUnits_keeps (runUnits_keeps _ _ _ _ _ _ _ _) hp

theorem runMove_keeps {op : BitVec 8} {f : Fields} {dMayT : Bool} {same : Entry → SOpd → Bool}
    {mk : Entry → State → SOpd → List Nat → List Nat → R Plan} (hmk : ∀ e t a fr c, Yields Plan.Keeps (mk e t a fr c)) :
    Result.Keeps s (runMove op f s dMayT same mk) := by
  refine runArray_keeps fun e u => ?_
  dsimp only
  split
  · exact .refl u
  · next hr =>
    refine runPlan_keeps e f _ _ (Yields.get (p := fun x : SOpd × Plan => x.2.Keeps) ?_ hr)
    refine Yields.after fun _ => Yields.bind (hmk _ _ _ _ _) fun _ hp =>
      Yields.after fun _ => Yields.after fun _ => Yields.after fun _ => Yields.after fun _ => ?_
    split
    · exact .after fun _ => .after fun _ => .after fun _ => .ok hp
    · exact .after fun _ => .after fun _ => .after fun _ => .ok hp

theorem runTwo_keeps {op : BitVec 8} {f : Fields} {dMayT : Bool} {zd : Nat} {mk : Entry → State → SOpd → SOpd → R Plan}
    (hmk : ∀ e t a b, Yields Plan.Keeps (mk e t a b)) : Result.Keeps s (runTwo op f s dMayT zd mk) := by
  refine runArray_keeps fun e u => ?_
  dsimp only
  split
  · exact .refl u
  · next hr =>
    refine runPlan_keeps e f _ _ (Yields.get (p := Plan.Keeps) ?_ hr)
    refine Yields.after fun _ => Yields.bind (hmk _ _ _ _) fun _ hp =>
      Yields.after fun _ => Yields.after fun _ => Yields.after fun _ => Yields.after fun _ => ?_
    split
    · exact .after fun _ => .after fun _ => .after fun _ => .ok hp
    · exact .after fun _ => .after fun _ => .after fun _ => .ok hp

theorem Plan.keeps_of_after (p : Plan) (h : p.after = id) : p.Keeps := fun u => by rw [h]; exact .refl u

/-- A plan that writes its result alone. -/
theorem Yields.plan {p : Plan} (h : p.after = id) : Yields Plan.Keeps (.ok p : R Plan) := .ok (p.keeps_of_after h)

theorem execRot_keeps (f : Fields) : Result.Keeps s (execRot f s) := runMove_keeps fun _ _ _ _ _ => .plan rfl
theorem execRev_keeps (f : Fields) : Result.Keeps s (execRev f s) := runMove_keeps fun _ _ _ _ _ => .plan rfl
theorem execTake_keeps (f : Fields) : Result.Keeps s (execTake f s) := runMove_keeps fun _ _ _ _ _ => .plan rfl
theorem execDrop_keeps (f : Fields) : Result.Keeps s (execDrop f s) := runMove_keeps fun _ _ _ _ _ => .plan rfl
theorem execReshape_keeps (f : Fields) : Result.Keeps s (execReshape f s) := runMove_keeps fun _ _ _ _ _ => .plan rfl
theorem execExpand_keeps (f : Fields) : Result.Keeps s (execExpand f s) := runMove_keeps fun _ _ _ _ _ => .plan rfl
theorem execGath_keeps (f : Fields) : Result.Keeps s (execGath f s) := runMove_keeps fun _ _ _ _ _ => .plan rfl
theorem execTransp_keeps (f : Fields) : Result.Keeps s (execTransp f s) :=
  runMove_keeps fun _ _ _ _ _ => .after fun _ => .plan rfl
theorem execRepl_keeps (f : Fields) : Result.Keeps s (execRepl f s) := runMove_keeps fun _ _ _ _ _ => .after fun _ => .plan rfl
theorem execCat_keeps (f : Fields) : Result.Keeps s (execCat f s) := by
  refine runTwo_keeps fun _ _ _ _ => Yields.after fun _ => Yields.after fun _ => ?_
  exact .plan rfl
theorem execOuter_keeps (f : Fields) : Result.Keeps s (execOuter f s) := by
  unfold execOuter
  exact runTwo_keeps fun _ _ _ _ => .after fun _ => .plan rfl

/-- COMPRESS writes its count besides (R250). -/
theorem execCompress_keeps (f : Fields) : Result.Keeps s (execCompress f s) :=
  runMove_keeps fun _ _ _ _ _ => .after fun _ => .ok <| by
    intro u
    exact .of_mem (by simp only [State.raise_eq, State.setG_eq])

theorem execRed_keeps (f : Fields) : Result.Keeps s (execRed f s) :=
  runArray_keeps fun e u => by
    dsimp only
    split
    · exact .refl u
    · refine closeUnits_keeps (State.Keeps.trans (State.Keeps.of_mem ?_) (runUnits_keeps _ _ _ _ _ _ _ _)) .refl
      rfl

theorem execScan_keeps (f : Fields) : Result.Keeps s (execScan f s) :=
  runArray_keeps fun e u => by
    dsimp only
    split
    · exact .refl u
    · exact closeUnits_keeps (runUnits_keeps _ _ _ _ _ _ _ _) .refl

theorem execGrade_keeps (f : Fields) : Result.Keeps s (execGrade f s) :=
  runArray_keeps fun e u => by
    dsimp only
    split
    · exact .refl u
    · exact closeUnits_keeps (runUnits_keeps _ _ _ _ _ _ _ _) .refl

theorem execIdxof_keeps (f : Fields) : Result.Keeps s (execIdxof f s) :=
  runArray_keeps fun e u => by
    dsimp only
    split
    · exact .refl u
    · exact runPlan_keeps _ _ _ _ (Plan.keeps_of_after _ rfl)

theorem execScat_keeps (f : Fields) : Result.Keeps s (execScat f s) :=
  runArray_keeps fun e u => by
    dsimp only
    split
    · exact .refl u
    · split
      · split
        · exact .refl u
        · exact .of_mem (by simp only [State.raise_eq, State.setV_eq, State.closeProg])
      · exact closeUnits_keeps (runUnits_keeps _ _ _ _ _ _ _ _) .refl

theorem State.writePhys_keeps (s : State) (who : Nat) (pas : List Nat) (ba : Int) (size value : Nat) (taint poison : Bool) :
    s.Keeps (s.writePhys who pas ba size value taint poison) := foldl_writeGranule_wf _ s who true

/-- SCATA combines each element at its home (R254). -/
theorem execScata_keeps (f : Fields) : Result.Keeps s (execScata f s) :=
  runArray_keeps fun e u => by
    dsimp only
    split
    · exact .refl u
    · split
      · refine .ite (.refl u) (.ite (.refl u) ?_)
        exact .of_mem (by simp only [State.raise_eq, State.setV_eq, State.closeProg])
      · generalize hr : List.foldl _ _ _ = r
        have hstep : u.Keeps r.1 := by
          rw [← hr]
          refine State.Keeps.trans ?_ (State.Keeps.foldl_pair (fun a ps => ?_) _ _)
          · exact .of_mem rfl
          split
          · exact .refl a.1
          · split
            · exact .refl a.1
            · split
              · exact .refl a.1
              · split
                · exact .refl a.1
                · refine State.Keeps.trans (State.Keeps.of_mem ?_) (State.Keeps.foldl (fun v d => ?_) _ _)
                  · simp only [State.raise_eq]
                  · refine State.Keeps.trans ?_ (State.Keeps.of_mem (congrArg State.mem (State.raise_eq _ _)))
                    exact State.Keeps.trans (.foldl (fun a pa => .of_mem (a.homeSync_mem _ _)) _ _) (State.writePhys_keeps _ _ _ _ _ _ _ _)
        split
        · exact stopAt_keeps hstep _ _ _ _
        · exact stopAt_keeps hstep _ _ _ _
        · exact hstep

end Structural

end Sys2Proof.Machine
end

section
/-! ## Memory hierarchy rules (spec 13): synchronisation words that keep the form of memory -/

namespace Sys2Proof.Machine

section Sync

variable {s t : State}

theorem State.writeGranule_keeps (s : State) (who : Nat) (home : Bool) (w : GWrite) : s.Keeps (s.writeGranule who home w) :=
  s.writeGranule_wf who home w

theorem State.homeStore_keeps (s : State) (who pa n v : Nat) (taint poison : Bool) : s.Keeps (s.homeStore who pa n v taint poison) :=
  s.writeGranule_keeps _ _ _

@[simp] theorem State.release_mem (s : State) (scope : Nat) : (s.release scope).mem = s.mem := rfl
@[simp] theorem State.releaseIf_mem (s : State) (scope : Option Nat) : (s.releaseIf scope).mem = s.mem := by cases scope <;> rfl
@[simp] theorem State.acquireIf_mem (s : State) (scope : Option Nat) : (s.acquireIf scope).mem = s.mem := by cases scope <;> rfl
@[simp] theorem State.learn_mem (s : State) (peer : Nat) (rel : Clock) (seen : List Sync) : (s.learn peer rel seen).mem = s.mem := rfl
@[simp] theorem State.fallAsleep_mem (s : State) : s.fallAsleep.mem = s.mem := rfl
@[simp] theorem State.putBarrier_mem (s : State) (b : Barrier) : (s.putBarrier b).mem = s.mem := rfl
@[simp] theorem State.depart_mem (s : State) (b : Barrier) : (s.depart b).mem = s.mem := rfl

@[simp] theorem State.completeBarrier_mem (s : State) (b : Barrier) : (s.completeBarrier b).mem = s.mem := by
  unfold State.completeBarrier
  dsimp only
  split <;> rfl

theorem servePb_keeps (f : Fields) : (servePb f s).Keeps s := by
  unfold servePb
  refine .ite (.refl s) (State.Keeps.of_mem ?_)
  split <;> split <;> simp

theorem serveFence_keeps (f : Fields) : (serveFence f s).Keeps s := .ite (.refl s) (.refl s)

/-! ### Home actions (R304-R306) -/

@[simp] theorem homeReturn_mem (kind : PeerKind) (f : Fields) (s : State) (old : Nat) (taint poison : Bool) (fl : Flags) :
    (homeReturn kind f s old taint poison fl).mem = s.mem := by
  unfold homeReturn
  dsimp only
  split <;> simp

theorem homeHere_keeps (kind : PeerKind) (f : Fields) (e : Entry) (pa : Nat) : Yields s.Keeps (homeHere kind f e s pa) := by
  unfold homeHere
  refine .ite (.bind (consume_keeps e f _ _) fun u hu => .ok (hu.trans ?_)) (.ok ?_)
  all_goals
    refine State.Keeps.trans ?_ (.of_mem (homeReturn_mem _ _ _ _ _ _ _))
    split
    · refine State.Keeps.trans (State.Keeps.of_mem ?_) (State.homeStore_keeps _ _ _ _ _ _ _)
      simp
    · exact .of_mem (by simp)

theorem homeAnswer_keeps (kind : PeerKind) (f : Fields) (e : Entry) (r : Reply) : (homeAnswer kind f e s r).Keeps s := by
  unfold homeAnswer
  generalize hu : ({ s with replies := _, me := _ } : State) = u
  have hs : s.Keeps u := by subst hu; exact id
  refine Served.Keeps.from hs (.ofR ?_)
  split
  · exact .error
  · refine Yields.bind (regCheck_keeps e f _) fun v hv => ?_
    refine .ite (.bind (consume_keeps e f _ _) fun w hw => .ok ((hv.trans hw).trans ?_)) (.ok (hv.trans ?_))
    all_goals
      refine .of_mem ((homeReturn_mem _ _ _ _ _ _ _).trans ?_)
      split <;> simp

theorem serveHome_keeps (kind : PeerKind) (f : Fields) (e : Entry) : (serveHome kind f e s).Keeps s := by
  unfold serveHome
  split
  · split
    · exact homeAnswer_keeps kind f e _
    · exact .refl s
  · refine .ite (.refl s) ?_
    dsimp only
    generalize hr : (Bind.bind _ _ : R (State × Home)) = r
    have hcheck : Yields (fun a => s.Keeps a.1) r := by
      rw [← hr]
      exact .bind (regCheck_keeps e f _) fun _ hu => .after fun _ => .ok hu
    split
    · exact .refl s
    · next h =>
      split
      · exact .refl s
      · next h' => exact (hcheck.get rfl).trans ((homeHere_keeps kind f e _).get h')
    · exact .of_mem rfl

/-! ### WAITS, WAITV and BARR (R34-R37) -/

theorem serveWaits_keeps (f : Fields) (e : Entry) : (serveWaits f e s).Keeps s := by
  unfold serveWaits
  dsimp only
  generalize hr : (Bind.bind _ _ : R (State × Option Bool)) = r
  have hwait : Yields (fun a => s.Keeps a.1) r := by
    rw [← hr]
    refine .bind (regCheck_keeps e f _) fun u hu => .after fun _ => .bind (consume_keeps e f _ _) fun v hv => .ite ?_ (.ok (.refl s))
    refine .ok (hu.trans (hv.trans (.of_mem ?_)))
    rw [State.setQ_eq]
    split <;> rfl
  split
  · exact .refl s
  · exact hwait.get rfl
  · exact hwait.get rfl

theorem foldl_homeSync_mem {α : Type} (g : α → Nat) (returning : Bool) (xs : List α) (s : State) :
    (xs.foldl (fun t x => t.homeSync (g x) returning) s).mem = s.mem := by
  induction xs generalizing s with
  | nil => rfl
  | cons x xs ih => rw [List.foldl_cons, ih, State.homeSync_mem]

theorem serveWaitv_keeps (f : Fields) (e : Entry) : (serveWaitv f e s).Keeps s := by
  unfold serveWaitv
  dsimp only
  generalize hr : (Bind.bind _ _ : R (State × Bool)) = r
  have hwait : Yields (fun a => s.Keeps a.1) r := by
    rw [← hr]
    refine .after fun _ => .bind (consume_keeps e f _ _) fun u hu => .ite (.ok (hu.trans (.of_mem ?_))) (.ok (.refl s))
    rw [State.setM_eq]
    dsimp only
    split <;> simp [foldl_homeSync_mem]
  split
  · exact .refl s
  · exact hwait.get rfl
  · exact hwait.get rfl

theorem serveBarr_keeps (f : Fields) : (serveBarr f s).Keeps s := by
  unfold serveBarr
  dsimp only
  split
  · exact .of_mem (s.depart_mem _)
  · refine .ite (.refl s) ?_
    repeat' split
    all_goals exact .of_mem (by simp)

/-! ### CLAIM and PUBL (R31, R32, R314) -/

theorem serveClaim_keeps (f : Fields) (e : Entry) : (serveClaim f e s).Keeps s := by
  unfold serveClaim
  refine .ofR (.bind (regCheck_keeps e f _) fun u hu => .after fun _ => .bind (consume_keeps e f _ _) fun v hv => ?_)
  refine .ok ((hu.trans hv).trans (State.Keeps.ite (s := v) (t := v.homeSync _ _) (u := State.homeStore _ _ _ _ _ _ _) ?_ ?_))
  · exact .of_mem (by simp)
  · exact State.Keeps.trans (.of_mem (by simp)) (State.homeStore_keeps _ _ _ _ _ _ _)

theorem servePubl_keeps (f : Fields) (e : Entry) : (servePubl f e s).Keeps s := by
  unfold servePubl
  refine .ite (.refl s) (.ofR (.bind (regCheck_keeps e f _) fun u hu => .after fun _ => .ok (hu.trans (.ite ?_ ?_))))
  · exact .of_mem (by simp)
  · exact State.Keeps.trans (.of_mem (by simp)) (State.homeStore_keeps _ _ _ _ _ _ _)

end Sync

end Sys2Proof.Machine
end

section
/-! ## Memory hierarchy rules (spec 13): the engine and accesses of peers keep the form of memory -/

namespace Sys2Proof.Machine

section Engine

variable {s t : State}

/-! ### Acts on one strand -/

/-- An act with another strand in the focus. -/
theorem State.asStrand_keeps (s : State) (sid : Nat) {g : State → State} (hg : ∀ u : State, u.Keeps (g u)) :
    s.Keeps (s.asStrand sid g) := by
  unfold State.asStrand
  split
  · exact hg s
  · split
    · exact .refl s
    · generalize hu : ({ s with me := _, rest := _ } : State) = u
      have hs : s.Keeps u := by subst hu; exact id
      exact (hs.trans (hg u)).then rfl

@[simp] theorem State.noteWalk_mem (s : State) (vd va : Nat) : (s.noteWalk vd va).mem = s.mem := rfl
@[simp] theorem State.noteCause_mem (s : State) (vd a c : Nat) : (s.noteCause vd a c).mem = s.mem := by
  unfold State.noteCause
  split <;> rfl
@[simp] theorem State.missReported_mem (s : State) (va : Nat) : (s.missReported va).mem = s.mem := rfl
@[simp] theorem State.send_mem (s : State) (o : Out) : (s.send o).mem = s.mem := rfl
@[simp] theorem State.addWork_mem (s : State) (w : Work) : (s.addWork w).mem = s.mem := rfl
@[simp] theorem State.dropWork_mem (s : State) (k : Nat) : (s.dropWork k).mem = s.mem := rfl
@[simp] theorem State.setWork_mem (s : State) (w : Work) : (s.setWork w).mem = s.mem := rfl
@[simp] theorem State.joinWorkClock_mem (s : State) (w : Work) : (s.joinWorkClock w).mem = s.mem := rfl
@[simp] theorem State.foldUnits_mem (s : State) (w : Work) (faulted : List Nat) : (s.foldUnits w faulted).mem = s.mem := rfl
@[simp] theorem State.sentWork_mem (s : State) (w : Work) : (s.sentWork w).mem = s.mem := rfl
@[simp] theorem State.putTrain_mem (s : State) (t : Train) : (s.putTrain t).mem = s.mem := rfl

@[simp] theorem State.meet_mem (s : State) (p : Fill) : (s.meet p).mem = s.mem := by
  obtain ⟨_, _, _, h⟩ := s.meet_frame p
  rw [h]

@[simp] theorem State.reach_mem (s : State) (core : Option (Nat × Nat)) (p : Fill) : (s.reach core p).mem = s.mem := by
  obtain ⟨_, _, _, h⟩ := s.reach_frame core p
  rw [h]

@[simp] theorem State.engineReads_mem (s : State) (p : Fill) (ns : List Nat) : (s.engineReads p ns).mem = s.mem := by
  obtain ⟨_, _, _, h⟩ := State.engineReads_frame p ns s
  rw [h]

theorem foldl_mem {α : Type} {g : State → α → State} (hg : ∀ t x, (g t x).mem = t.mem) (xs : List α) (s : State) :
    (xs.foldl g s).mem = s.mem := by
  induction xs generalizing s with
  | nil => rfl
  | cons x xs ih => rw [List.foldl_cons, ih, hg]

/-! ### Tokens and elements (R315-R317) -/

theorem State.tokenFinish_keeps (s : State) (w : Work) (done : Nat) (can err : Bool) : s.Keeps (s.tokenFinish w done can err) := by
  unfold State.tokenFinish
  split
  · exact .refl s
  · split
    · exact .of_mem (s.noteFlt_mem _ _)
    · refine State.Keeps.trans ?_ (State.homeStore_keeps _ _ _ _ _ _ _)
      generalize ht : s.writeGranule _ _ _ = t
      have hs : s.Keeps t := ht ▸ s.writeGranule_keeps _ _ _
      exact hs.then rfl

theorem State.endWork_keeps (s : State) (w : Work) (done : Nat) (can err : Bool) (faulted : List Nat) :
    s.Keeps (s.endWork w done can err faulted) := by
  unfold State.endWork
  exact .from (s.foldUnits_mem w faulted) (.then (State.tokenFinish_keeps _ w done can err) (by simp))

theorem State.putElems_keeps (s : State) (w : Work) (z : Nat) (pairs scales : List (Int × (Nat × Bool × Bool))) :
    s.Keeps (s.putElems w z pairs scales).1 := by
  unfold State.putElems
  refine .from ?_ (State.performAs_keeps _ _ _ _)
  refine (foldl_mem (fun u p => ?_) _ _).trans (foldl_mem (fun u p => ?_) _ _)
  all_goals
    dsimp only
    split
    · rfl
    · exact u.noteFlt_mem _ _

/-! ### COPY and PREF (R318-R320) -/

theorem serveCopy_keeps (f : Fields) (e : Entry) : (serveCopy f e s).Keeps s := by
  unfold serveCopy
  refine .ofR ?_
  repeat' first | refine Yields.after fun _ => ?_ | refine Yields.ite ?_ ?_
  all_goals exact .ok (.of_mem (s.addWork_mem _))

@[simp] theorem State.rereadCopy_mem (s : State) (w : Work) (cs : CopyShape) (a b : Nat) : (s.rereadCopy w cs a b).mem = s.mem := by
  unfold State.rereadCopy
  split <;> simp

theorem copyPut_keeps (s : State) (w : Work) (cs : CopyShape) (a b : Nat) (faulted : List Nat)
    (vals : List (Nat × Bool × Bool) × List (Nat × Bool × Bool)) : s.Keeps (copyPut s w cs a b faulted vals).1 := by
  unfold copyPut
  dsimp only
  split
  · refine .of_mem ((foldl_mem (fun _ _ => ?_) _ _).trans (foldl_mem (fun _ _ => ?_) _ _)) <;> exact State.send_mem _ _
  · exact s.putElems_keeps _ _ _ _

theorem stepCopy_keeps (s : State) (w : Work) (n : Nat) (data : List PeerByte) : s.Keeps (stepCopy s w n data) := by
  unfold stepCopy
  split
  · exact .refl s
  · dsimp only
    split
    · exact State.Keeps.trans (.of_mem (s.rereadCopy_mem _ _ _ _)) (copyPut_keeps _ _ _ _ _ _ _)
    · exact .refl s

theorem finishCopy_keeps (s : State) (w : Work) (err : Bool) (faulted : List Nat) (data : List PeerByte) :
    s.Keeps (finishCopy s w err faulted data) := by
  unfold finishCopy
  refine .ite (s.endWork_keeps _ _ _ _ _) ?_
  split
  · exact .refl s
  · dsimp only
    split
    · exact .refl s
    · exact State.Keeps.trans (.of_mem (s.noteFlt_mem _ _)) (State.endWork_keeps _ _ _ _ _ _)
    · next cs v _ =>
      generalize hr : (if w.toReg then _ else copyPut _ _ _ _ _ _ _ : State × Bool × List (Nat × Nat × Bool × Bool)) = r
      have hput : s.Keeps r.1 := by
        rw [← hr]
        split
        · exact .of_mem (s.rereadCopy_mem _ _ _ _)
        · exact State.Keeps.trans (.of_mem (s.rereadCopy_mem _ _ _ _)) (copyPut_keeps _ _ _ _ _ _ _)
      exact .ite hput (hput.trans (State.endWork_keeps _ _ _ _ _ _))

theorem servePref_keeps (f : Fields) (e : Entry) : (servePref f e s).Keeps s := by
  unfold servePref
  refine .ofR (.after fun _ => .ok (.of_mem ((foldl_mem (fun u n => ?_) _ _).trans ?_)))
  · dsimp only
    split
    · rfl
    · exact State.meet_mem _ _
  · refine foldl_mem (fun u a => ?_) _ _
    split
    · rfl
    · rw [State.missReported_mem, State.noteFlt_mem]

end Engine

end Sys2Proof.Machine
end

section
/-! ## Memory hierarchy rules (spec 13): Caravans, collectives and accesses of peers keep the form of memory -/

namespace Sys2Proof.Machine

section Caravans

variable {s t : State}

/-! ### SEND and Caravans (R299, R321) -/

theorem serveSend_keeps (f : Fields) (e : Entry) : (serveSend f e s).Keeps s := by
  unfold serveSend
  refine .ofR ?_
  repeat refine Yields.after fun _ => ?_
  exact .ok (.of_mem (s.addWork_mem _))

theorem State.signalTrain_keeps {vd who asig cnt : Nat} {rel : List Clock} {place : Option Place}
    (h : s.signalTrain vd who asig cnt rel place = some t) : s.Keeps t := by
  unfold State.signalTrain at h
  split at h
  · cases h
    exact .refl s
  · split at h
    · cases h
    · cases h
      generalize hu : ({ s with syncs := _ } : State) = u
      have hs : s.Keeps u := by subst hu; exact .of_mem rfl
      exact hs.trans (State.homeStore_keeps _ _ _ _ _ _ _)

theorem State.writeAll_keeps (s : State) (who : Nat) (ws : List GWrite) : s.Keeps (s.writeAll who ws) := s.writeAll_wf who ws

@[simp] theorem foldl_send_mem {α : Type} (g : State → α → Out) (xs : List α) (s : State) :
    (xs.foldl (fun t x => t.send (g t x)) s).mem = s.mem := foldl_mem (fun _ _ => State.send_mem _ _) xs s

theorem sendTrain_keeps (s : State) (w : Work) (z row : Nat) (r : Row) (e0 : Nat) (last failed : Bool)
    (els : List (Nat × Bool × Bool)) : s.Keeps (sendTrain s w z row r e0 last failed els).s := by
  unfold sendTrain
  dsimp only
  split
  · generalize hs0 : List.foldl _ _ _ = s0
    have h0 : s0.mem = s.mem := by
      rw [← hs0]
      refine foldl_mem (fun u p => ?_) _ _
      split
      · rfl
      · exact u.noteFlt_mem _ _
    have h1 (ws : List GWrite) (w' : Work) : s.Keeps ((s0.writeAll (agentWork w.k) ws).foldUnits w' []) :=
      .from h0 ((s0.writeAll_keeps _ ws).then (State.foldUnits_mem _ _ _))
    split
    · exact h1 _ _
    · split
      · next h => exact (h1 _ _).trans (State.signalTrain_keeps h)
      · exact (h1 _ _).then (State.noteWalk_mem _ _ _)
  · split <;> exact .of_mem (by simp)

theorem sendPart_keeps (s : State) (w : Work) (n : Nat) (vals : List (Nat × Bool × Bool)) : s.Keeps (sendPart s w n vals).s := by
  have hwalk (xs : List (Row × Nat)) (g : Sending → Row × Nat → Sending) (hg : ∀ (acc : Sending) p, acc.s.Keeps (g acc p).s)
      (acc : Sending) :
      acc.s.Keeps (xs.foldl g acc).s := by
    induction xs generalizing acc with
    | nil => exact .refl acc.s
    | cons x xs ih => exact (hg acc x).trans (ih _)
  unfold sendPart
  dsimp only
  refine hwalk _ _ (fun acc p => ?_) {
    s := s, done := w.done, vals := vals, left := n, failed := w.failed, rowFailed := w.rowFailed, units := w.units }
  split
  · exact .refl acc.s
  · exact sendTrain_keeps _ _ _ _ _ _ _ _ _

@[simp] theorem State.rereadSend_mem (s : State) (w : Work) (n : Nat) : (s.rereadSend w n).mem = s.mem := by
  unfold State.rereadSend
  split <;> simp

theorem stepSend_keeps (s : State) (w : Work) (n : Nat) : s.Keeps (stepSend s w n) := by
  unfold stepSend
  split
  · exact .refl s
  · exact .from (s.rereadSend_mem w n) ((sendPart_keeps _ w n _).then (State.setWork_mem _ _))

theorem finishSend_keeps (s : State) (w : Work) (err : Bool) (faulted : List Nat) : s.Keeps (finishSend s w err faulted) := by
  unfold finishSend
  refine .ite (s.endWork_keeps _ _ _ _ _) ?_
  split
  · exact .from (s.noteFlt_mem _ _) (State.endWork_keeps _ _ _ _ _ _)
  · next vs _ =>
    have hpart : s.Keeps (sendPart (s.rereadSend w vs.length) w vs.length vs).s :=
      .from (s.rereadSend_mem w _) (sendPart_keeps _ w _ vs)
    exact .ite (hpart.then (State.sentWork_mem _ _)) (hpart.trans (State.endWork_keeps _ _ _ _ _ _))

theorem State.stepWork_keeps (s : State) (k n : Nat) (data : List PeerByte) : s.Keeps (s.stepWork k n data) := by
  unfold State.stepWork
  split
  · exact .refl s
  · refine .ite (.refl s) ?_
    split
    · exact stepCopy_keeps _ _ _ _
    · exact stepSend_keeps _ _ _
    · exact .refl s

theorem State.ifOpen_keeps {r : Result} (h : Result.Keeps s r) : Result.Keeps s (s.ifOpen r) := by
  unfold State.ifOpen
  exact .ite h (.next (.refl s))

theorem State.writeHome_keeps {vd who : Nat} {ba : Int} {size value : Nat} {taint poison : Bool}
    (h : s.writeHome vd who ba size value taint poison = .ok t) : s.Keeps t := State.writeHome_wf h

theorem execCaravanElement_keeps (p : CaravanElem) : Result.Keeps s (execCaravanElement p s) := by
  unfold execCaravanElement
  dsimp only
  split
  · exact State.ifOpen_keeps (.next (.of_mem (s.noteFlt_mem _ _)))
  · next h => exact State.ifOpen_keeps (.next ((State.writeHome_keeps h).then (State.putTrain_mem _ _)))

theorem execCaravanTail_keeps (p : CaravanTail) : Result.Keeps s (execCaravanTail p s) := by
  unfold execCaravanTail
  refine .ite (.next (.refl s)) (.ite (.next (.of_mem rfl)) (.ite (.next (.refl s)) ?_))
  dsimp only
  split
  · next h => exact .next ((State.signalTrain_keeps h).then rfl)
  · exact .next (.of_mem rfl)

/-! ### CRED and CBCAST (R322-R324) -/

theorem joinGroup_keeps (f : Fields) (a : Nat) : Yields (fun p => s.Keeps p.1) (joinGroup s f a) :=
  .after fun _ => .after fun _ => .after fun _ => .ok (.from (s.homeSync_mem _ _) (State.homeStore_keeps _ _ _ _ _ _ _))

@[simp] theorem joinWork_mem (s : State) (w : Work) : (joinWork s w).mem = s.mem := by
  unfold joinWork
  dsimp only
  split <;> simp

theorem serveCred_keeps (f : Fields) (e : Entry) : (serveCred f e s).Keeps s := by
  unfold serveCred
  refine .ofR (.after fun _ => .after fun _ => .after fun _ => .after fun _ => .after fun _ => .after fun _ => .after fun _ =>
    .after fun _ => .bind (joinGroup_keeps f _) fun _ h => .ok (h.then (joinWork_mem _ _)))

theorem serveCbcast_keeps (f : Fields) (e : Entry) : (serveCbcast f e s).Keeps s := by
  unfold serveCbcast
  refine .ofR (.after fun _ => .after fun _ => .after fun _ => .after fun _ => .after fun _ =>
    .after fun _ => .bind (joinGroup_keeps f _) fun _ h => .ok (h.then (joinWork_mem _ _)))

theorem deliver_keeps (s : State) (w : Work) (o : Outcome) : s.Keeps (deliver s w o) := by
  unfold deliver
  refine .ite (s.endWork_keeps _ _ _ _ _) ?_
  refine State.Keeps.trans ?_ (State.endWork_keeps _ _ _ _ _ _)
  rw [State.raise_eq]
  exact (s.putElems_keeps w _ _ _).then rfl

theorem deliverAll_keeps (s : State) (vd gid seq : Nat) (locals : List (Nat × Work)) (remote : List Contribution) (o : Outcome) :
    s.Keeps (deliverAll s vd gid seq locals remote o) := by
  unfold deliverAll
  exact (State.Keeps.foldl (fun t p => t.asStrand_keeps _ fun u => deliver_keeps u _ _) _ _).then (foldl_send_mem _ _ _)

@[simp] theorem State.failMembers_mem (s : State) (g : FailedGroup) (n : Nat) : (s.failMembers g n).mem = s.mem := rfl

theorem State.collective_keeps (s : State) (vd gid seq : Nat) (remote : List Contribution) (mine : Contribution → Bool)
    (outcome : List Contribution → Outcome) : s.Keeps (s.collective vd gid seq remote mine outcome) := by
  unfold State.collective
  dsimp only
  split
  · exact (deliverAll_keeps _ _ _ _ _ _ _).then (State.failMembers_mem _ _ _)
  · exact .ite (.refl s) ((deliverAll_keeps _ _ _ _ _ _ _).then rfl)

/-! ### The finish of engine work (R315-R317) -/

theorem finishWork_keeps (s : State) (w : Work) (how : EngineEnd) (data : List PeerByte) : s.Keeps (finishWork s w how data) := by
  have hend (done : Nat) (can err : Bool) (faulted : List Nat) : s.Keeps (s.endWork w done can err faulted) := s.endWork_keeps _ _ _ _ _
  unfold finishWork
  dsimp only
  split
  case h_1 => exact .ite (hend _ _ _ _) (finishCopy_keeps _ _ _ _ _)
  case h_2 => exact .ite (hend _ _ _ _) (finishSend_keeps _ _ _ _)
  case h_5 => exact .refl s
  all_goals
    refine .ite (.ite (hend _ _ _ _) (.refl s)) ?_
    split
    · exact deliver_keeps _ _ _
    · exact .ite (.refl s) (deliver_keeps _ _ _)

theorem execEngineFinish_keeps (sid k : Nat) (how : EngineEnd) (data : List PeerByte) :
    Result.Keeps s (execEngineFinish sid k how data s) := by
  refine .next (s.asStrand_keeps sid fun t => ?_)
  split
  · exact .ite (.refl t) (finishWork_keeps _ _ _ _)
  · exact .refl t

/-! ### Accesses of peers (R305, R318) -/

theorem State.foldAt_keeps (s : State) (vd who a : Nat) (digest : Word) (m : FoldMsg) (rel : Clock) :
    Yields (fun p => s.Keeps p.1) (s.foldAt vd who a digest m rel) := by
  unfold State.foldAt
  refine Yields.ite .error (.after fun pa => .ok ?_)
  refine State.Keeps.trans ?_ (State.writeGranule_keeps _ _ _ _)
  refine State.Keeps.trans ?_ (State.writeGranule_keeps _ _ _ _)
  exact .of_mem rfl

theorem State.foldFromPeer_keeps (s : State) (p : PeerAction) (m : FoldMsg) : s.Keeps (s.foldFromPeer p m) := by
  unfold State.foldFromPeer
  dsimp only
  split
  · exact .of_mem (s.noteCause_mem _ _ _)
  · next h => exact State.Keeps.then ((s.foldAt_keeps _ _ _ _ _ _).get h) (State.send_mem _ _)

theorem State.onRecord_keeps (s : State) (who pa : Nat) (act : ManifestAct) : s.Keeps (s.onRecord who pa act) := by
  cases act with
  | compare => exact .refl s
  | status n => exact s.writeGranule_keeps _ _ _
  | clear => exact s.writeGranule_keeps _ _ _

theorem State.manifestFromPeer_keeps (s : State) (p : PeerAction) (act : ManifestAct) : s.Keeps (s.manifestFromPeer p act) := by
  unfold State.manifestFromPeer
  dsimp only
  split
  · exact .of_mem (by simp)
  · exact (s.onRecord_keeps _ _ _).then (State.send_mem _ _)

@[simp] theorem State.agentSync_mem (s : State) (who g : Nat) (rel : Clock) (inner : List Clock) :
    (s.agentSync who g rel inner).mem = s.mem := rfl
@[simp] theorem State.carrySync_mem (s : State) (who g : Nat) (rel : Clock) (inner : List Clock) :
    (s.carrySync who g rel inner).mem = s.mem := by
  unfold State.carrySync
  split <;> rfl

theorem execPeerHomeAction_keeps (p : PeerAction) : Result.Keeps s (execPeerHomeAction p s) := by
  unfold execPeerHomeAction
  refine State.ifOpen_keeps ?_
  dsimp only
  split
  · exact .next (s.manifestFromPeer_keeps _ _)
  · exact .next (s.foldFromPeer_keeps _ _)
  · exact .next (.of_mem (by simp))
  · next pa _ =>
    generalize hs1 : (if p.fabric then s.agentSync _ _ _ _ else s.carrySync _ _ _ _ : State) = s1
    have h1 : s1.mem = s.mem := by
      rw [← hs1]
      split <;> simp
    refine .ite (.next (.of_mem rfl)) (.ite (.next (State.Keeps.then ?_ (State.send_mem _ _)))
      (.next (State.Keeps.then ?_ (State.send_mem _ _))))
    all_goals
      split
      · exact .from h1 (s1.homeStore_keeps _ _ _ _ _ _)
      · exact .of_mem h1

theorem execCopyPeerAccess_keeps (p : PeerAccess) : Result.Keeps s (execCopyPeerAccess p s) := by
  unfold execCopyPeerAccess
  refine State.ifOpen_keeps (.ite ?_ ?_)
  · split
    · exact .next (.of_mem (s.noteFlt_mem _ _))
    · next h => exact .next ((State.writeHome_keeps h).then rfl)
  · split
    · exact .next (.of_mem (s.noteFlt_mem _ _))
    · exact .next (.of_mem rfl)

/-! ### The state of a strand's registers (R325-R329) -/

theorem serveTdef_keeps (f : Fields) (e : Entry) : (serveTdef f e s).Keeps s := by
  unfold serveTdef
  refine .ofR (.bind (regCheck_keeps e f _) fun _ hu => .after fun _ => .after fun _ => ?_)
  split
  all_goals exact .after fun _ => .bind (consume_keeps e f _ _) fun _ hv => .after fun _ => .ok ((hu.trans hv).then (by rw [State.setT_eq]))

theorem serveTset_keeps (f : Fields) (e : Entry) : (serveTset f e s).Keeps s := by
  unfold serveTset
  refine .ofR (.bind (regCheck_keeps e f _) fun _ hu => .after fun _ => .after fun _ => .ok (hu.then (by rw [State.setT_eq])))

theorem serveTget_keeps (f : Fields) (e : Entry) : (serveTget f e s).Keeps s := by
  unfold serveTget
  refine .ofR (.bind (regCheck_keeps e f _) fun _ hu => .ok (hu.then (by rw [State.setG_eq])))

theorem serveMirr_keeps (f : Fields) (e : Entry) : (serveMirr f e s).Keeps s := by
  unfold serveMirr
  refine .ofR (.bind (regCheck_keeps e f _) fun _ hu => .ite ?_ (.after fun _ => .after fun _ => .ok (hu.then rfl)))
  split
  · exact .ok (hu.then rfl)
  · exact .ok hu

theorem serveXcan_keeps (f : Fields) (e : Entry) : (serveXcan f e s).Keeps s := by
  unfold serveXcan
  refine .ofR (.bind (regCheck_keeps e f _) fun u hu => .ok (hu.then ?_))
  dsimp only
  split
  · rfl
  · exact u.requestCancel_mem _

theorem serveTaint_keeps (f : Fields) (e : Entry) : (serveTaint f e s).Keeps s := by
  unfold serveTaint
  exact .ite (.refl s) (.ite (.of_mem rfl) (.of_mem (by rw [State.setQ_eq])))

end Caravans

end Sys2Proof.Machine
end

section
/-! ## Memory hierarchy rules (spec 13): the ends of launches keep the form of memory -/

namespace Sys2Proof.Machine

section Ends

variable {s t : State}

@[simp] theorem State.mapStrands_mem (s : State) (p : Strand → Bool) (g : Strand → Strand) : (s.mapStrands p g).mem = s.mem := rfl
@[simp] theorem State.dropRequests_mem (s : State) (lid : Nat) : (s.dropRequests lid).mem = s.mem := rfl
@[simp] theorem State.fuseCaches_mem (s : State) : s.fuseCaches.mem = s.mem := rfl
@[simp] theorem State.putCounter_mem (s : State) (c : Counter) : (s.putCounter c).mem = s.mem := rfl
@[simp] theorem State.forgetJob_mem (s : State) (vd job : Nat) : (s.forgetJob vd job).mem = s.mem := rfl
@[simp] theorem State.countBatch_mem (s : State) (l : Launch) (ok : Bool) : (s.countBatch l ok).mem = s.mem := by
  unfold State.countBatch
  split <;> rfl

@[simp] theorem State.deviceFaultAction_mem (s : State) (l : Launch) (cause : Nat) : (s.deviceFaultAction l cause).mem = s.mem := by
  unfold State.deviceFaultAction
  split
  · exact s.requestCancel_mem _
  · exact s.requestCancel_mem _
  · rfl

/-! ### Notices and fault records (R371, R419-R421) -/

@[simp] theorem State.announce_mem (s : State) (vd die queue : Nat) : (s.announce vd die queue).mem = s.mem := by
  unfold State.announce
  split
  · rfl
  · exact (State.sendNotice_mem _ _ _ _ _).trans (s.setVdev_mem _)

theorem State.faultError_mem (s : State) (vd : Nat) (e : Flt) : ((s.noteFlt vd e).ifaceError vd).mem = s.mem :=
  (State.ifaceError_mem _ _).trans (s.noteFlt_mem _ _)

theorem State.writeNotice_keeps (s : State) (reserved : Bool) (vd die queue tag lid fcause status : Nat) :
    s.Keeps (s.writeNotice reserved vd die queue tag lid fcause status) := by
  unfold State.writeNotice
  split
  · exact .refl s
  · refine .ite (.refl s) ?_
    dsimp only
    generalize hr : (Bind.bind _ _ : R State) = r
    have hwrite : Yields s.Keeps r := by
      rw [← hr]
      exact .bind (fun _ hu => State.writeHome_keeps hu) fun _ hu _ hv => hu.trans (State.writeHome_keeps hv)
    split
    · exact .of_mem (s.faultError_mem _ _)
    · exact .ite ((hwrite.get rfl).then (State.announce_mem _ _ _ _)) ((hwrite.get rfl).then (State.setVdev_mem _ _))

theorem State.queueRecord_keeps (s : State) (vd die record : Nat) : s.Keeps (s.queueRecord vd die record) :=
  s.queueRecord_wf vd die record

@[simp] theorem State.noteKnum_mem (s : State) (vd : Nat) (record : BitVec 512) : (s.noteKnum vd record).mem = s.mem := by
  obtain ⟨_, h⟩ := s.noteRead_eq vd (fld record 127 64 + 28) 4
  rw [State.noteKnum, h]

theorem State.deviceFault_keeps (s : State) (l : Launch) (cause faddr : Nat) : s.Keeps (s.deviceFault l cause faddr) :=
  .from (s.noteKnum_mem _ _) (State.queueRecord_keeps _ _ _ _)

/-! ### The Manifest (R388-R393) -/

theorem State.foldFault_keeps (s : State) (l : Launch) (c : Nat) : s.Keeps (s.foldFault l c) :=
  .from (s.noteCause_mem _ _ _) (State.deviceFault_keeps _ _ _ _)

theorem State.foldManifest_keeps (s : State) (l : Launch) : Yields s.Keeps (s.foldManifest l) := by
  unfold State.foldManifest
  split
  · exact .error
  · intro u hu
    cases hf : s.foldAt l.vd agentSteward _ l.fold l.foldMsg l.endClock with
    | error c =>
      rw [hf] at hu
      cases hu
    | ok p =>
      rw [hf] at hu
      cases hu
      exact (s.foldAt_keeps _ _ _ _ _ _).get hf
  · exact .error
  · exact .ok (.refl s)

theorem State.manifestAct_keeps (s : State) (vd job a : Nat) (act : ManifestAct) : s.Keeps (s.manifestAct vd job a act) := by
  unfold State.manifestAct
  split
  · exact .refl s
  · split
    · exact s.onRecord_keeps _ _ _
    · exact .of_mem (s.noteCause_mem _ _ _)
  · exact .of_mem (s.send_mem _)

theorem State.mismatch_keeps (s : State) (x : Serial) (a : Word) : s.Keeps (s.mismatch x a) := by
  unfold State.mismatch
  split
  · split
    · exact s.deviceFault_keeps _ _ _
    · exact .refl s
  · exact .refl s

theorem State.setStatus_keeps (s : State) (x : Serial) (as : List Word) (n : BitVec 3) : s.Keeps (s.setStatus x as n) :=
  .foldl (fun t _ => t.manifestAct_keeps _ _ _ _) _ s

theorem State.askRecords_keeps (s : State) (vd job phase : Nat) : s.Keeps (s.askRecords vd job phase) :=
  .foldl (fun t _ => t.manifestAct_keeps _ _ _ _) _ s

/-! ### Graphs, phases and jobs (R25, R30, R392, R393) -/

@[simp] theorem phaseEnd_mem (s : State) (vd job phase status : Nat) : (phaseEnd s vd job phase status).1.mem = s.mem := by
  unfold phaseEnd
  split
  · dsimp only
    split
    · rfl
    · split <;> rfl
  · rfl

theorem firstOver_keeps (s : State) (x : Serial) : s.Keeps (firstOver s x).1 := by
  have hstatus := s.setStatus_keeps x x.matched 2
  unfold firstOver
  dsimp only
  split
  · exact hstatus.then (phaseEnd_mem _ _ _ _ _)
  · have hfaults := hstatus.trans (.foldl (fun t a => t.mismatch_keeps x a) x.records _)
    generalize x.records.foldl (fun t a => t.mismatch x a) (s.setStatus x x.matched 2) = u at hfaults ⊢
    exact (hfaults.trans (.foldl (fun t a => t.manifestAct_keeps x.vd x.job a .clear) _ u)).then rfl

theorem checkOn_keeps (s : State) (x : Serial) : s.Keeps (checkOn s x).1 := by
  unfold checkOn
  split
  · exact firstOver_keeps s x
  · exact (s.setStatus_keeps _ _ _).then (phaseEnd_mem _ _ _ _ _)
  · exact .of_mem rfl

theorem phaseChecks_keeps (s : State) (vd job phase status : Nat) : s.Keeps (phaseChecks s vd job phase status).1 := by
  unfold phaseChecks
  split
  · exact .of_mem (phaseEnd_mem _ _ _ _ _)
  · exact (s.askRecords_keeps _ _ _).trans (checkOn_keeps _ _)

@[simp] theorem countGraph_mem (s : State) (l : Launch) (cancelled : Bool) : (countGraph s l cancelled).mem = s.mem := by
  unfold countGraph
  split
  · dsimp only
    split <;> rfl
  · rfl

theorem countPhase_keeps (s : State) (l : Launch) (cancelled : Bool) : s.Keeps (countPhase s l cancelled).1 := by
  unfold countPhase
  split
  · split
    · exact .refl s
    · dsimp only
      split
      · exact .from (s.putCounter_mem _) (phaseChecks_keeps _ _ _ _ _)
      · exact .of_mem (s.putCounter_mem _)
  · exact .refl s

theorem countEnd_keeps (s : State) (l : Launch) (cancelled : Bool) : s.Keeps (countEnd s l cancelled).1 := by
  rw [countEnd_eq]
  exact .from (countGraph_mem s l cancelled) (countPhase_keeps _ l cancelled)

theorem commitTask_keeps (s : State) (l : Launch) : s.Keeps (commitTask s l).1 := by
  unfold commitTask
  dsimp only
  split
  · exact .of_mem rfl
  · split
    · refine State.Keeps.then ?_ (State.deviceFaultAction_mem _ _ _)
      refine State.Keeps.trans ?_ (State.foldFault_keeps _ _ _)
      exact .of_mem rfl
    · next h => exact ((s.foldManifest_keeps l).get h).then rfl

/-! ### The end of a launch (R26, R28, R30) -/

@[simp] theorem cancelLaunch_mem (s : State) (l : Launch) (status : Nat) (fc : BitVec 32) : (cancelLaunch s l status fc).1.mem = s.mem := by
  unfold cancelLaunch
  split
  · rfl
  · split <;> rfl

theorem State.foldAgain_keeps (s : State) (l : Launch) : s.Keeps (s.foldAgain l) := by
  unfold State.foldAgain
  split
  · exact .refl s
  · split
    · next h => exact (s.foldManifest_keeps l).get h
    · exact s.foldFault_keeps l _

@[simp] theorem State.joinPhase_mem (s : State) (l : Launch) : (s.joinPhase l).mem = s.mem := by
  unfold State.joinPhase
  split <;> rfl

theorem endSerial_keeps (s : State) (l : Launch) : s.Keeps (endSerial s l) := by
  have hphase := (s.foldAgain_keeps l).then (State.joinPhase_mem _ l)
  exact hphase.then rfl

theorem State.askFold?_keeps {l : Launch} (h : s.askFold? l = some t) : s.Keeps t := by
  unfold State.askFold? at h
  split at h
  · split at h
    · cases h
    · cases h
      exact .of_mem rfl
  · cases h
    exact .refl s
  · cases h

theorem State.commitEnd_keeps (s : State) (l : Launch) : s.Keeps (s.commitEnd l).1 := by
  unfold State.commitEnd
  split
  · exact .refl s
  · exact commitTask_keeps s l

theorem State.noticeEnd_keeps (s : State) (l l1 : Launch) : s.Keeps (s.noticeEnd l l1) := by
  unfold State.noticeEnd
  exact .ite (s.writeNotice_keeps _ _ _ _ _ _ _ _) (.refl s)

theorem State.countedEnd_keeps (s : State) (l : Launch) (ok : Bool) : s.Keeps (s.countedEnd l ok).1 := by
  unfold State.countedEnd
  dsimp only
  refine .from (t := State.countBatch _ l ok) ?_ (countEnd_keeps _ _ _)
  rw [State.countBatch_mem]
  split <;> rfl

theorem State.ended_keeps (s : State) (l : Launch) : s.Keeps (s.ended l) := by
  unfold State.ended
  dsimp only
  refine State.Keeps.trans ?_ (State.countedEnd_keeps _ _ _)
  refine State.Keeps.trans ?_ (State.noticeEnd_keeps _ _ _)
  exact (s.commitEnd_keeps l).then rfl

theorem closeLaunch_keeps (s : State) (l : Launch) : s.Keeps (closeLaunch s l).1 := by
  unfold closeLaunch
  split
  · exact endSerial_keeps s l
  · dsimp only
    split
    · exact (s.ended_keeps l).then rfl
    · exact (s.ended_keeps l).then rfl

theorem endLaunch_keeps (s : State) (l : Launch) : s.Keeps (endLaunch s l).1 := by
  unfold endLaunch
  split
  · exact .refl s
  · split
    · next h => exact State.askFold?_keeps h
    · exact closeLaunch_keeps s l

theorem endStep_keeps (s : State) (x : Ending) : s.Keeps (endStep s x).1 := by
  cases x with
  | cancel lid status fc =>
    dsimp only [endStep]
    split
    · exact .of_mem (cancelLaunch_mem _ _ _ _)
    · exact .refl s
  | finish lid =>
    dsimp only [endStep]
    split
    · exact endLaunch_keeps _ _
    · exact .refl s

theorem settle_keeps (n : Nat) (xs : List Ending) (s : State) : s.Keeps (settle n xs s) := by
  induction n generalizing xs s with
  | zero => exact .refl s
  | succ n ih =>
    cases xs with
    | nil => exact .refl s
    | cons x r => exact (endStep_keeps s x).trans (ih _ _)

theorem State.settleAll_keeps (s : State) (xs : List Ending) : s.Keeps (s.settleAll xs) := settle_keeps _ _ _

theorem State.foldAnswered_keeps (s : State) (lid : Nat) (fault : Option Nat) (index : Nat) : s.Keeps (s.foldAnswered lid fault index) := by
  unfold State.foldAnswered
  split
  · exact .ite (.from (s.setLaunch_mem _) (State.settleAll_keeps _ _)) (.refl s)
  · exact .refl s

theorem State.manifestAnswered_keeps (s : State) (vd job : Nat) (a : Word) (equal : Bool) : s.Keeps (s.manifestAnswered vd job a equal) := by
  unfold State.manifestAnswered
  split
  · refine State.Keeps.trans ?_ (State.settleAll_keeps _ _)
    refine State.Keeps.trans ?_ (checkOn_keeps _ _)
    exact .of_mem rfl
  · exact .refl s

/-! ### STRAND_FINISH, CANCEL_RESOLVE, SERIAL_REEXECUTION -/

theorem execStrandFinish_keeps (sid : Nat) : Result.Keeps s (execStrandFinish sid s) := by
  unfold execStrandFinish
  split
  · exact .next (.refl s)
  · refine .ite (.next (.refl s)) ?_
    dsimp only
    generalize hu : ({ s.mapStrands _ _ with launches := _ } : State) = u
    have hs : s.Keeps u := by subst hu; exact .of_mem rfl
    split
    · refine .next (State.Keeps.then ?_ (State.fuseCaches_mem _))
      exact .ite (hs.trans (u.settleAll_keeps _)) hs
    · exact .next (hs.then u.fuseCaches_mem)

theorem execCancelResolve_keeps (k : Nat) : Result.Keeps s (execCancelResolve k s) := by
  unfold execCancelResolve
  split
  · exact .next (.refl s)
  · dsimp only
    generalize hu : ({ s with cancels := _ } : State) = u
    have hs : s.Keeps u := by subst hu; exact .of_mem rfl
    split
    case h_1 => exact .next (hs.trans (u.settleAll_keeps _))
    all_goals
      split
      · refine .ite (.next hs) (.next (State.Keeps.trans ?_ (State.settleAll_keeps _ _)))
        exact .ite (hs.then rfl) (hs.then rfl)
      · exact .next hs

theorem execSerialReexecution_keeps (vd : BitVec 4) : Result.Keeps s (execSerialReexecution vd s) := by
  unfold execSerialReexecution
  split
  · exact .next (.refl s)
  · refine .ite (.next (.refl s)) ?_
    dsimp only
    split
    · exact .next (.of_mem rfl)
    · refine .next (State.Keeps.trans ?_ (State.settleAll_keeps _ _))
      refine State.Keeps.trans ?_ (checkOn_keeps _ _)
      refine State.Keeps.trans ?_ (State.askRecords_keeps _ _ _ _)
      exact .of_mem rfl

end Ends

end Sys2Proof.Machine
end

section
/-! ## Memory hierarchy rules (spec 13): acceptance, the Splicer and the matrix engine keep the form of memory -/

namespace Sys2Proof.Machine

section Register

variable (s : State)

/-! ### Registers are not memory -/

theorem State.raise_mem (x : Flags) : (s.raise x).mem = s.mem := by rw [State.raise_eq]
theorem State.setG_mem (n : Nat) (x : GReg) : (s.setG n x).mem = s.mem := by rw [State.setG_eq]
theorem State.setV_mem (n : Nat) (x : VReg) : (s.setV n x).mem = s.mem := by rw [State.setV_eq]
theorem State.setZ_mem (n : Nat) (x : Tile) : (s.setZ n x).mem = s.mem := by rw [State.setZ_eq]

end Register

section Engines

variable {s t : State}

/-! ### Acceptance (R135, R359, R418) -/

@[simp] theorem State.noteReads_mem (s : State) (vd : Nat) (rs : List (Nat × Nat)) : (s.noteReads vd rs).mem = s.mem := by
  obtain ⟨_, h⟩ := s.noteReads_eq vd rs
  rw [h]

@[simp] theorem State.countRefusal_mem (s : State) (vd : Nat) : (s.countRefusal vd).mem = s.mem := by
  unfold State.countRefusal
  split
  · exact s.setVdev_mem _
  · rfl

@[simp] theorem State.trySplice_mem (s : State) (lp lc : Launch) : (s.trySplice lp lc).mem = s.mem := by
  unfold State.trySplice
  dsimp only
  split
  · split
    · simp
    · rw [State.setLaunch_mem, State.setLaunch_mem]
      simp
  · simp

@[simp] theorem State.openCounters_mem (s : State) (l : Launch) : (s.openCounters l).mem = s.mem := by
  unfold State.openCounters
  dsimp only
  repeat' split
  all_goals rfl

theorem State.enterLaunch_keeps (s : State) (l : Launch) (doomed : Bool) : s.Keeps (s.enterLaunch l doomed) := by
  unfold State.enterLaunch
  dsimp only
  generalize hu : ({ s.openCounters _ with launches := _ } : State) = u
  have hs : u.mem = s.mem := by
    rw [← hu]
    exact s.openCounters_mem _
  refine .ite (.from hs (u.settleAll_keeps _)) ?_
  split
  · split
    · exact .ite (.of_mem hs) (.ite (.of_mem ((u.trySplice_mem _ _).trans hs)) (.of_mem ((u.countRefusal_mem _).trans hs)))
    · exact .of_mem hs
  · exact .of_mem hs

theorem State.takeSlot_keeps (s : State) (d : VDev) (die queue : Nat) (q : Queue) (tail : BitVec 32) (slot : Nat) :
    s.Keeps (s.takeSlot d die queue q tail slot) := by
  unfold State.takeSlot
  dsimp only
  refine .ite (.trans ?_ (State.enterLaunch_keeps _ _ _)) (.trans ?_ (State.writeNotice_keeps _ _ _ _ _ _ _ _ _))
  · exact .of_mem (State.setVdev_mem _ _)
  · exact .of_mem rfl

theorem execLaunchAccept_keeps (vd : BitVec 4) (die : BitVec 2) (queue : BitVec 4) : Result.Keeps s (execLaunchAccept vd die queue s) := by
  unfold execLaunchAccept
  split
  · exact .next (.refl s)
  · dsimp only
    split
    · exact .next (.refl s)
    · refine .ite (.next (.refl s)) ?_
      split
      · exact .next (.of_mem (s.faultError_mem _ _))
      · refine .ite (.next (.refl s)) ?_
        split
        · exact .next (.of_mem (s.faultError_mem _ _))
        · next hw =>
          have hs := State.writeHome_keeps hw
          split
          · refine .next (.trans ?_ (State.writeNotice_keeps _ _ _ _ _ _ _ _ _))
            exact hs.then ((State.setVdev_mem _ _).trans (State.noteFlt_mem _ _ _))
          · exact .next (hs.trans (State.takeSlot_keeps _ _ _ _ _ _ _))

theorem execAgingStep_keeps (lid : Nat) : Result.Keeps s (execAgingStep lid s) := by
  unfold execAgingStep
  split
  · exact .next (.refl s)
  · exact .ite (.next (.of_mem (s.setLaunch_mem _))) (.next (.refl s))

/-! ### Attachment and plane loads (R334-R341) -/

theorem serveMatt_keeps (e : Entry) : (serveMatt e s).Keeps s := by
  unfold serveMatt
  exact .of_mem rfl

theorem servePload_keeps (x : Bool) (f : Fields) (e : Entry) : (servePload x f e s).Keeps s := by
  unfold servePload
  refine .ite (.refl s) (.ofR ?_)
  repeat' first | refine Yields.after fun _ => ?_ | refine Yields.ite ?_ ?_
  all_goals exact .ok (.of_mem (s.addWork_mem _))

@[simp] theorem State.putReservation_mem (s : State) (r : Reservation) : (s.putReservation r).mem = s.mem := rfl

@[simp] theorem State.loadColumn_mem (s : State) (w : Work) (n : Nat) : (s.loadColumn w n).mem = s.mem := by
  unfold State.loadColumn
  split
  · rfl
  · dsimp only
    split <;> rfl

@[simp] theorem finishPload_mem (s : State) (w : Work) : (finishPload s w).mem = s.mem := by
  unfold finishPload
  rw [State.dropWork_mem, State.raise_mem]
  split
  · rfl
  · dsimp only
    split <;> rfl

theorem State.engineTurn_keeps (s : State) (k n : Nat) (data : List PeerByte) : s.Keeps (s.engineTurn k n data) := by
  unfold State.engineTurn
  split
  · exact .ite (.ite (.of_mem (s.loadColumn_mem _ _)) (.refl s)) (s.stepWork_keeps _ _ _)
  · exact .refl s

theorem execPlaneLoadFinish_keeps (sid k : Nat) : Result.Keeps s (execPlaneLoadFinish sid k s) := by
  refine .next (s.asStrand_keeps sid fun t => ?_)
  split
  · exact .of_mem (finishPload_mem _ _)
  · exact .refl t

/-! ### MMS, MMR and CHECK (R342-R349) -/

theorem serveMm_keeps (mmr : Bool) (f : Fields) (e : Entry) : (serveMm mmr f e s).Keeps s := by
  unfold serveMm
  refine .ite (.refl s) (.ofR (.after fun _ => .after fun _ => .after fun _ => .ite ?_ ?_))
  · exact .ok (.of_mem (s.raise_mem _))
  · exact .ok (.of_mem (s.addWork_mem _))

theorem serveCheck_keeps (f : Fields) (e : Entry) : (serveCheck f e s).Keeps s := by
  unfold serveCheck
  refine .ite (.refl s) (.ofParts (.after fun _ => .after fun _ => .after fun _ => .after fun _ => .after fun _ => .ite ?_ ?_))
  · exact .ok (.of_mem (State.raise_mem _ _))
  · exact .ok (.of_mem (State.addWork_mem _ _))

@[simp] theorem finishMm_mem (s : State) (w : Work) : (finishMm s w).mem = s.mem := by
  unfold finishMm
  rfl

@[simp] theorem mergeMmr_mem (s : State) (w : Work) : (mergeMmr s w).mem = s.mem := by
  have hset (xs : List Work) : (xs.foldl State.setWork s).mem = s.mem := foldl_mem (fun t x => t.setWork_mem x) xs s
  unfold mergeMmr
  dsimp only
  split
  · rw [finishMm_mem, State.setZ_eq]
    exact hset _
  · rw [State.setWork_mem, State.setZ_eq]
    exact hset _

theorem execMatrixOpFinish_keeps (sid k : Nat) (merge : Bool) : Result.Keeps s (execMatrixOpFinish sid k merge s) := by
  refine .next (s.asStrand_keeps sid fun t => ?_)
  split
  · exact .refl t
  · exact .ite (.refl t) (.ite (.of_mem (mergeMmr_mem _ _)) (.of_mem (finishMm_mem _ _)))

/-! ### Accumulator moves and SCOUT (R346, R347) -/

theorem serveZrd_keeps (f : Fields) (e : Entry) : (serveZrd f e s).Keeps s := by
  unfold serveZrd
  refine .ite (.refl s) (.ofR (.after fun _ => .after fun _ => .bind (consume_keeps e f _ _) fun _ hu => .ok (hu.then ?_)))
  exact (State.setV_mem _ _ _).trans (State.raise_mem _ _)

theorem serveZwr_keeps (f : Fields) (e : Entry) : (serveZwr f e s).Keeps s := by
  unfold serveZwr
  refine .ite (.refl s) (.ofR (.after fun _ => .after fun _ => .after fun _ => .bind (consume_keeps e f _ _) fun _ hu => .ok (hu.then ?_)))
  exact (State.setZ_mem _ _ _).trans (State.raise_mem _ _)

theorem execZclr_keeps (f : Fields) : Result.Keeps s (execZclr f s) :=
  runArray_keeps fun _ u => .ite (.refl u) (.of_mem (u.setZ_mem _ _))

theorem serveScout_keeps (f : Fields) (e : Entry) : (serveScout f e s).Keeps s := by
  unfold serveScout
  refine .ite (.refl s) (.ofR ?_)
  dsimp only
  split
  all_goals
    refine Yields.after fun _ => .after fun _ => .after fun _ => .after fun _ => .bind (consume_keeps e f _ _) fun _ hu => .ok (hu.then ?_)
    exact (State.setG_mem _ _ _).trans ((State.raise_mem _ _).trans (State.setV_mem _ _ _))

/-! ### Engine state that is rebuilt (R333, R334) -/

@[simp] theorem State.noteR_mem {α : Type} (s : State) (vd : Nat) (r : R α) : (s.noteR vd r).mem = s.mem := by
  cases r with
  | ok x => rfl
  | error e => exact s.noteFlt_mem _ _

@[simp] theorem State.refetchReads_mem (s : State) (vd : Nat) (p : PlaneSlot) (ns : List Nat) : (s.refetchReads vd p ns).mem = s.mem :=
  s.engineReads_mem _ _

@[simp] theorem State.rebuild_mem (s : State) (vd : Nat) (r : Reservation) : (s.rebuild vd r).mem = s.mem := by
  unfold State.rebuild
  dsimp only
  rw [State.putReservation_mem, State.noteR_mem, State.noteR_mem, foldl_mem fun _ _ => State.noteR_mem _ _ _]
  have hslots : (r.slots.foldl (fun u p => if p.valid then u.refetchReads vd p ((List.range 256).map (p.n0 + ·)) else u) s).mem = s.mem := by
    refine foldl_mem (fun u p => ?_) _ _
    split
    · exact u.refetchReads_mem _ _ _
    · rfl
  split <;> split <;> simp [hslots]

@[simp] theorem State.countCorrection_mem (s : State) (die unit : Nat) : (s.countCorrection die unit).mem = s.mem := by
  unfold State.countCorrection
  dsimp only
  split <;> rfl

@[simp] theorem State.parityRefetch_mem (s : State) (lid die cluster slot column : Nat) :
    (s.parityRefetch lid die cluster slot column).mem = s.mem := by
  unfold State.parityRefetch
  split
  · rfl
  · dsimp only
    split
    · rfl
    · split
      · rw [State.putReservation_mem, State.noteFlt_mem, State.refetchReads_mem, State.countCorrection_mem]
      · rw [State.putReservation_mem, State.refetchReads_mem, State.countCorrection_mem]

end Engines

end Sys2Proof.Machine
end

section
/-! ## Memory hierarchy rules (spec 13): placement, hosts and routing keep the form of memory -/

namespace Sys2Proof.Machine

section Placement

variable {s t : State}

/-! ### Reservations and placement (R332, R333, R355-R357, R374) -/

@[simp] theorem State.engage_mem (s : State) (l : Launch) (die cluster : Nat) : (s.engage l die cluster).mem = s.mem := by
  unfold State.engage
  dsimp only
  split <;> rfl

@[simp] theorem State.reengage_mem (s : State) (l : Launch) (old : Place) (die cluster : Nat) :
    (s.reengage l old die cluster).mem = s.mem := by
  unfold State.reengage
  dsimp only
  split
  · rfl
  · repeat' split
    all_goals simp

@[simp] theorem State.beginStrand_mem (s : State) : s.beginStrand.mem = s.mem := by
  unfold State.beginStrand
  dsimp only
  split
  · rfl
  · exact s.noteReads_mem _ _

@[simp] theorem State.placeLaunch_mem (s : State) (l : Launch) (ps : List Place) : (s.placeLaunch l ps).mem = s.mem := by
  unfold State.placeLaunch
  dsimp only
  rw [State.fuseCaches_mem]
  generalize hu : List.foldl _ _ ps = u
  have hs : u.mem = s.mem := by
    rw [← hu]
    exact foldl_mem (fun t p => t.engage_mem l _ _) _ _
  split <;> exact hs

theorem foldl_dropRequests_mem (xs : List Nat) (s : State) : (xs.foldl State.dropRequests s).mem = s.mem :=
  foldl_mem State.dropRequests_mem xs s

theorem execLaunchPlacement_keeps (die : BitVec 2) : Result.Keeps s (execLaunchPlacement die s) := by
  unfold execLaunchPlacement
  split
  · split
    · exact .next (.of_mem (s.placeLaunch_mem _ _))
    · exact .next (.refl s)
  · exact .next (.of_mem (foldl_dropRequests_mem _ _))
  · exact .next (.refl s)

/-! ### Switching out and in (R375-R380) -/

theorem State.switchOutMe_keeps (s : State) (a b : Bool) : s.Keeps (s.switchOutMe a b) := s.switchOutMe_wf a b

theorem execPreemptSave_keeps (sid : Nat) : Result.Keeps s (execPreemptSave sid s) := by
  unfold execPreemptSave
  split
  · exact .next (.refl s)
  · split
    · exact .next (.refl s)
    · refine .ite (.next (.refl s)) (.next ?_)
      exact (s.asStrand_keeps sid fun u => u.switchOutMe_keeps _ _).then rfl

@[simp] theorem State.noteToken_mem (s : State) (w : Work) : (s.noteToken w).mem = s.mem := by
  unfold State.noteToken
  split
  · rfl
  · split
    · rfl
    · exact s.noteFlt_mem _ _

theorem State.resumeStrand_keeps (s : State) (l : Launch) (st : Strand) (p : Place) : s.Keeps (s.resumeStrand l st p) := by
  unfold State.resumeStrand
  dsimp only
  refine State.Keeps.then ?_ (State.fuseCaches_mem _)
  generalize hu : State.asStrand _ _ _ = u
  have hs : s.Keeps u := by
    rw [← hu]
    refine State.Keeps.from ?_ (State.asStrand_keeps _ _ fun v => .of_mem ?_)
    · exact (State.reengage_mem _ _ _ _ _).trans s.fuseCaches_mem
    · exact foldl_mem State.noteToken_mem _ _
  exact .ite (hs.then rfl) (hs.then rfl)

theorem execStrandResume_keeps (sid : Nat) : Result.Keeps s (execStrandResume sid s) := by
  unfold execStrandResume
  split
  · exact .next (.refl s)
  · split
    · exact .next (.refl s)
    · split
      · exact .ite (.next (s.resumeStrand_keeps _ _ _)) (.next (.refl s))
      · exact .next (.refl s)

/-! ### Messages of hosts (R415-R427) -/

@[simp] theorem State.discard_mem (s : State) (port : Nat) : (s.discard port).mem = s.mem := rfl

theorem portTakes_keeps {kind : Nat} {m : Msg} {go : VDev → Result} (h : ∀ d, Result.Keeps s (go d)) :
    Result.Keeps s (portTakes kind m s go) := by
  unfold portTakes
  refine .ite (.next (.of_mem rfl)) (.ite (.next (.refl s)) (.ite (.next (.of_mem rfl)) ?_))
  split
  · exact h _
  · exact .next (.of_mem rfl)

theorem State.bootWrite_keeps (s : State) (m : Msg) : s.Keeps (s.bootWrite m) := by
  unfold State.bootWrite
  exact .ite (.of_mem (s.discard_mem _)) (s.writeAll_keeps _ _)

theorem State.hostWrite_keeps (s : State) (d : VDev) (m : Msg) : s.Keeps (s.hostWrite d m) := by
  unfold State.hostWrite
  refine .ite (.of_mem (s.discard_mem _)) ?_
  split
  · exact s.writeAll_keeps _ _
  · exact .of_mem ((State.discard_mem _ _).trans (s.noteFlt_mem _ _))

theorem execWrite_keeps (m : Msg) : Result.Keeps s (execWrite m s) := by
  unfold execWrite
  exact .ite (.next (s.bootWrite_keeps m)) (portTakes_keeps fun d => .next (s.hostWrite_keeps d m))

theorem execRead_keeps (m : Msg) : Result.Keeps s (execRead m s) := by
  unfold execRead
  refine portTakes_keeps fun d => ?_
  dsimp only
  split
  · exact .next (.of_mem (s.send_mem _))
  · exact .next (.of_mem ((State.send_mem _ _).trans (s.noteFlt_mem _ _)))

theorem execKick_keeps (m : Msg) : Result.Keeps s (execKick m s) := by
  unfold execKick
  refine portTakes_keeps fun d => .ite (.next (.of_mem rfl)) (.ite (.next (.of_mem rfl)) ?_)
  split <;> exact .next (.of_mem rfl)

theorem execNoticeSend_keeps (vd : BitVec 4) (die : BitVec 2) (queue : BitVec 4) : Result.Keeps s (execNoticeSend vd die queue s) := by
  unfold execNoticeSend
  split
  · exact .next (.refl s)
  · exact .ite (.next (.of_mem (s.announce_mem _ _ _))) (.next (.refl s))

/-! ### Writes of the ports and the Drover -/

theorem State.unitBits_keeps (s : State) (vd who : Nat) (ba : Int) (n v : Nat) (taint : Bool) :
    s.Keeps (s.unitBits vd who ba n v taint) := by
  unfold State.unitBits
  split
  · exact s.writeAll_keeps _ _
  · exact .of_mem (s.noteFlt_mem _ _)

theorem State.unitWrite_keeps (s : State) (vd who a n v : Nat) (taint : Bool) : s.Keeps (s.unitWrite vd who a n v taint) :=
  s.unitBits_keeps _ _ _ _ _ _

/-! ### The Drover (R350, R409-R411) -/

theorem drarmCheck_keeps (f : Fields) (e : Entry) : Yields (fun a => s.Keeps a.1) (drarmCheck f e s) := by
  unfold drarmCheck
  exact .bind (regCheck_keeps e f _) fun _ hu => .after fun _ => .after fun _ => .bind (consume_keeps e f _ _) fun _ hv => .after fun _ =>
    .after fun _ => .bind (consume_keeps e f _ _) fun _ hw => .after fun _ => .ok ((hu.trans hv).trans hw)

theorem serveDrarm_keeps (f : Fields) (e : Entry) : (serveDrarm f e s).Keeps s := by
  unfold serveDrarm
  split
  · exact .refl s
  · next s1 _ _ h =>
    have hs : s.Keeps s1 := (drarmCheck_keeps f e).get h
    refine .ite (.refl s) (hs.then ?_)
    dsimp only
    split <;> exact (State.noteReads_mem _ _ _).trans (s1.release_mem 3)

theorem Batch.spawn_keeps (b : Batch) (s : State) (t : Nat × Nat × Nat × Nat) : s.Keeps (b.spawn s t) := by
  unfold Batch.spawn
  dsimp only
  split
  · refine State.Keeps.trans ?_ (State.enterLaunch_keeps _ _ _)
    exact .of_mem rfl
  · refine State.Keeps.trans ?_ (State.settleAll_keeps _ _)
    refine State.Keeps.trans ?_ (countEnd_keeps _ _ _)
    exact .of_mem (State.countBatch_mem _ _ _)

theorem execDroverSpawn_keeps (die : BitVec 2) : Result.Keeps s (execDroverSpawn die s) := by
  unfold execDroverSpawn
  split
  · exact .next (.refl s)
  · refine .next (State.Keeps.trans ?_ (.foldl (fun t x => Batch.spawn_keeps _ t x) _ _))
    exact .of_mem rfl

theorem Batch.combineToken_keeps (b : Batch) (lists : List (List Nat)) (acc : State × Nat) (t : Nat) :
    acc.1.Keeps (b.combineToken lists acc t).1 := by
  unfold Batch.combineToken
  dsimp only
  refine State.Keeps.trans ?_ (.foldl_pair (fun a x => a.1.unitWrite_keeps _ _ _ _ _ _) _ _)
  exact (State.unitWrite_keeps _ _ _ _ _ _ _).trans (State.unitBits_keeps _ _ _ _ _ _ _)

theorem Batch.combine_keeps (b : Batch) (s : State) : s.Keeps (b.combine s) := by
  unfold Batch.combine
  refine State.Keeps.trans ?_ (State.unitWrite_keeps _ _ _ _ _ _ _)
  refine State.Keeps.trans ?_ (.foldl_pair (b.combineToken_keeps _) _ _)
  exact .of_mem (s.noteReads_mem _ _)

/-- A signal that goes to its home, or whose walk is noted. -/
theorem State.signalled_keeps (s : State) (vd who asig cnt a : Nat) (rel : List Clock) (place : Option Place) :
    s.Keeps ((s.signalTrain vd who asig cnt rel place).getD (s.noteWalk vd a)) := by
  cases h : s.signalTrain vd who asig cnt rel place with
  | none => exact .of_mem (s.noteWalk_mem _ _)
  | some t => exact State.signalTrain_keeps h

theorem Batch.report_keeps (b : Batch) (s : State) : s.Keeps (b.report s) := by
  unfold Batch.report
  dsimp only
  refine State.Keeps.trans ?_ (State.signalled_keeps _ _ _ _ _ _ _ _)
  split
  · exact .of_mem (s.noteCause_mem _ _ _)
  · refine State.Keeps.trans ?_ (State.homeStore_keeps _ _ _ _ _ _ _)
    exact .of_mem rfl

theorem execDroverCombine_keeps (die : BitVec 2) (k : Nat) : Result.Keeps s (execDroverCombine die k s) := by
  unfold execDroverCombine
  split
  · exact .next (.refl s)
  · next b _ =>
    refine .ite (.next (.refl s)) (.next ?_)
    exact State.Keeps.then (.trans (.ite (.refl s) (b.combine_keeps s)) (b.report_keeps _)) rfl

/-! ### The ports' routing (R401-R408) -/

@[simp] theorem State.putRoute_mem (s : State) (c : RouteCtx) : (s.putRoute c).mem = s.mem := rfl
@[simp] theorem State.loadRoute_mem (s : State) (port vd addr : Nat) : (s.loadRoute port vd addr).1.mem = s.mem := by
  unfold State.loadRoute
  dsimp only
  split
  · rfl
  · split
    · exact s.noteFlt_mem _ _
    · split
      · exact s.noteFlt_mem _ _
      · split
        · rfl
        · split
          · exact s.noteFlt_mem _ _
          · rfl

@[simp] theorem State.noteRead_mem (s : State) (vd a n : Nat) : (s.noteRead vd a n).mem = s.mem := by
  obtain ⟨_, h⟩ := s.noteRead_eq vd a n
  rw [h]

theorem execToken_keeps (m : Msg) : Result.Keeps s (execToken m s) := by
  unfold execToken
  refine portTakes_keeps fun d => ?_
  dsimp only
  split
  · exact .next (.of_mem rfl)
  · refine .ite (.next (.of_mem rfl)) (.ite (.next (.of_mem rfl)) (.next ?_))
    refine State.Keeps.trans ?_ (State.unitWrite_keeps _ _ _ _ _ _ _)
    refine State.Keeps.trans ?_ (State.unitWrite_keeps _ _ _ _ _ _ _)
    exact .of_mem (s.noteRead_mem _ _ _)

theorem execClose_keeps (m : Msg) : Result.Keeps s (execClose m s) := by
  unfold execClose
  refine portTakes_keeps fun d => ?_
  dsimp only
  split
  · exact .next (.of_mem rfl)
  · exact .ite (.next (.of_mem rfl)) (.next (.of_mem rfl))

theorem RouteCtx.closeList_keeps (c : RouteCtx) (rows : List Nat) (acc : State × List Nat) (e : Nat) :
    acc.1.Keeps (c.closeList rows acc e).1 := by
  unfold RouteCtx.closeList
  exact State.Keeps.trans (.foldl (fun t x => t.unitWrite_keeps _ _ _ _ _ _) _ _) (State.unitWrite_keeps _ _ _ _ _ _ _)

theorem RouteCtx.closeDrops_keeps (c : RouteCtx) (header : Nat) (rows limits : List Nat) (acc : State × Nat) (e : Nat) :
    acc.1.Keeps (c.closeDrops header rows limits acc e).1 := by
  unfold RouteCtx.closeDrops
  refine .foldl_pair (fun a r => .foldl_pair (fun a i => ?_) _ _) _ _
  exact (a.1.unitBits_keeps _ _ _ _ _ _).trans (State.unitWrite_keeps _ _ _ _ _ _ _)

theorem execBatchClose_keeps (port : BitVec 3) (vd : BitVec 4) : Result.Keeps s (execBatchClose port vd s) := by
  unfold execBatchClose
  split
  · exact .next (.refl s)
  · next c _ =>
    split
    · next n id _ _ =>
      refine .next ?_
      refine State.Keeps.trans ?_ (State.signalled_keeps _ _ _ _ _ _ _ _)
      refine State.Keeps.then ?_ (State.putRoute_mem _ _)
      refine State.Keeps.trans ?_ (State.unitBits_keeps _ _ _ _ _ _ _)
      refine State.Keeps.trans ?_ (State.unitWrite_keeps _ _ _ _ _ _ _)
      refine State.Keeps.trans ?_ (State.unitWrite_keeps _ _ _ _ _ _ _)
      refine State.Keeps.trans ?_ (.foldl (fun t e => t.unitWrite_keeps _ _ _ _ _ _) _ _)
      refine State.Keeps.trans ?_ (.foldl_pair (c.closeDrops_keeps _ _ _) _ _)
      refine State.Keeps.trans ?_ (.foldl_pair (c.closeList_keeps _) _ _)
      refine State.Keeps.trans ?_ (.foldl (fun t e => t.unitWrite_keeps _ _ _ _ _ _) _ _)
      exact .of_mem (s.noteReads_mem _ _)
    · exact .next (.refl s)

end Placement

end Sys2Proof.Machine
end

section
/-! ## Memory hierarchy rules (spec 13): walkers, caches, errors and commands keep the form of memory -/

namespace Sys2Proof.Machine

section Hierarchy

variable {s t : State}

/-! ### Walks and TLBs (R262-R265) -/

@[simp] theorem State.addMiss_mem (s : State) (w : Walk) : (s.addMiss w).mem = s.mem := by
  unfold State.addMiss
  split
  · rfl
  · dsimp only
    repeat' split
    all_goals rfl

@[simp] theorem State.tlbMiss_mem (s : State) (sid : Nat) (va : Word) : (s.tlbMiss sid va).mem = s.mem := by
  unfold State.tlbMiss
  split
  · rfl
  · exact s.addMiss_mem _

@[simp] theorem State.walkReads_mem (s : State) (vd va : Nat) : (s.walkReads vd va).mem = s.mem := by
  unfold State.walkReads
  split
  · exact foldl_mem (fun u ea => u.reach_mem _ _) _ s
  · rfl

theorem execWalkComplete_keeps (die : BitVec 2) (cluster : BitVec 4) : Result.Keeps s (execWalkComplete die cluster s) := by
  unfold execWalkComplete
  split
  · exact .next (.refl s)
  · refine .next (.of_mem ((foldl_mem (fun u x => u.addMiss_mem _) _ _).trans ?_))
    split
    · exact s.walkReads_mem _ _
    · exact s.walkReads_mem _ _

@[simp] theorem State.setRoot_mem (s : State) (vd root : Nat) : (s.setRoot vd root).mem = s.mem := by
  unfold State.setRoot
  split
  · exact s.setVdev_mem _
  · rfl

theorem State.setPageEntry_keeps (s : State) (pa : Nat) (v : Word) : s.Keeps (s.setPageEntry pa v) := by
  unfold State.setPageEntry
  exact .ite (.refl s) (s.writeGranule_keeps _ _ _)

/-! ### Fills and windows (R268, R273, R396) -/

theorem execCacheFill_keeps (p : FillReq) : Result.Keeps s (execCacheFill p s) := by
  obtain ⟨_, _, _, _, h⟩ := execCacheFill_frame p s
  rw [h]
  exact .next (.of_mem rfl)

theorem execTollWindow_keeps (die : BitVec 2) : Result.Keeps s (execTollWindow die s) := by
  unfold execTollWindow
  exact .ite (.next (.refl s)) (.next (.of_mem rfl))

/-! ### Errors and repair (R275, R276, R430) -/

theorem State.hitGranule_mem (s : State) (g : Nat) : (s.hitGranule g).mem = memWrite s.mem (32 * g) 32 (s.freeBits 4).1 := by
  have hfree : (s.freeBits 4).2.mem = s.mem := rfl
  unfold State.hitGranule
  dsimp only
  rw [hfree]

theorem State.hitGranule_keeps (s : State) (g : Nat) : s.Keeps (s.hitGranule g) := by
  intro hs
  unfold State.Inv
  rw [s.hitGranule_mem g]
  exact memWrite_wf _ _ _ _ hs

@[simp] theorem State.hitGate_mem (s : State) (port vd expert line : Nat) : (s.hitGate port vd expert line).mem = s.mem := by
  unfold State.hitGate
  split
  · rfl
  · exact foldl_mem (fun u j => u.noteR_mem _ _) _ s

theorem State.loseFirmware_keeps (s : State) : s.Keeps s.loseFirmware := by
  unfold State.loseFirmware
  refine State.Keeps.trans ?_ (State.settleAll_keeps _ _)
  exact .of_mem rfl

theorem execUncorrectableError_keeps (e : ErrTarget) : Result.Keeps s (execUncorrectableError e s) := by
  cases e with
  | granules first count => exact .next (.foldl State.hitGranule_keeps _ s)
  | generalReg sid reg => exact .next (.of_mem rfl)
  | arrayRow sid reg row => exact .next (.of_mem rfl)
  | tileRow sid tile row => exact .next (.of_mem rfl)
  | tlbEntry index => exact .next (.of_mem rfl)
  | planeColumn lid die cluster slot column => exact .next (.of_mem (s.parityRefetch_mem _ _ _ _ _))
  | gateLine port vd expert line => exact .next (.of_mem (s.hitGate_mem _ _ _ _))
  | firmware => exact .next s.loseFirmware_keeps

theorem execCorrectedError_keeps (die : BitVec 2) (unit : Nat) : Result.Keeps s (execCorrectedError die unit s) := by
  unfold execCorrectedError
  exact .ite (.next (.of_mem (s.countCorrection_mem _ _))) (.next (.refl s))

@[simp] theorem State.takeSpare_mem (s : State) (die place cluster : Nat) : (s.takeSpare die place cluster).mem = s.mem := by
  unfold State.takeSpare
  dsimp only
  split <;> split <;> rfl

@[simp] theorem State.applyRepairs_mem (s : State) (es : List (Nat × Nat × Nat)) : (s.applyRepairs es).mem = s.mem := by
  refine foldl_mem (fun u e => ?_) es s
  dsimp only
  split <;> rfl

theorem execFieldRepair_keeps (die : BitVec 2) (unit : Nat) : Result.Keeps s (execFieldRepair die unit s) := by
  unfold execFieldRepair
  refine .ite (.next (.refl s)) (.ite (.next (.of_mem rfl)) ?_)
  split
  · refine .next (.ite (.of_mem rfl) (.refl s))
  · refine .ite (.next (.of_mem (State.takeSpare_mem _ _ _ _))) (.ite (.next (.of_mem rfl)) (.next (.of_mem ?_)))
    exact State.takeSpare_mem _ _ _ _

/-! ### Privilege, loss of the firmware, power (R422, R423, R431-R433) -/

@[simp] theorem State.setRegion_mem (s : State) (vd n : Nat) (r : Region) : (s.setRegion vd n r).mem = s.mem := by
  unfold State.setRegion
  split
  · exact s.setVdev_mem _
  · rfl

@[simp] theorem State.stopPlugin_mem (s : State) (d : VDev) : (s.stopPlugin d).mem = s.mem := by
  unfold State.stopPlugin
  exact (State.ifaceError_mem _ _).trans (State.setVdev_mem _ _)

@[simp] theorem State.raisePriv_mem (s : State) (d : Option VDev) (level need : Nat) : (s.raisePriv d level need).mem = s.mem := by
  unfold State.raisePriv
  dsimp only
  split
  · split
    · exact State.stopPlugin_mem _ _
    · rfl
  · rfl

@[simp] theorem State.stewardStart_mem (s : State) (n level tenant : Nat) (pc : Word) : (s.stewardStart n level tenant pc).mem = s.mem := by
  unfold State.stewardStart
  dsimp only
  split <;> rfl

theorem execPriv_keeps (vd : Option (BitVec 4)) (level need : BitVec 2) (access : Option PluginAccess) :
    Result.Keeps s (execPriv vd level need access s) := by
  unfold execPriv
  exact .next (.ite (.of_mem (s.raisePriv_mem _ _ _)) (.refl s))

theorem execFirmwareLoss_keeps : Result.Keeps s (execFirmwareLoss s) := by
  unfold execFirmwareLoss
  exact .ite (.next s.loseFirmware_keeps) (.next (.refl s))

/-- A reset machine has no byte of memory listed. -/
theorem execPowerUpReset_keeps : Result.Keeps s (execPowerUpReset s) := .next fun _ => rfl

theorem execSlewWindow_keeps : Result.Keeps s (execSlewWindow s) := by
  unfold execSlewWindow
  exact .ite (.next (.refl s)) (.next (.of_mem rfl))

theorem execClusterEnable_keeps : Result.Keeps s (execClusterEnable s) := by
  unfold execClusterEnable
  split
  · exact .next (.refl s)
  · exact .ite (.next (.refl s)) (.next (.ite (.of_mem rfl) (.of_mem rfl)))

theorem execRestartStagger_keeps (vd : BitVec 4) (job : BitVec 32) (n : BitVec 16) : Result.Keeps s (execRestartStagger vd job n s) := by
  unfold execRestartStagger
  exact State.ifOpen_keeps (.next (.of_mem rfl))

/-! ### Commands (R423-R428) -/

@[simp] theorem State.answer_mem (s : State) (m : Cmd) (status : Nat) (payload : List Byte) : (s.answer m status payload).mem = s.mem := rfl

theorem State.conclude_keeps {m : Cmd} {r : CmdR} (h : Yields (fun p => s.Keeps p.1) r) : Result.Keeps s (s.conclude m r) := by
  unfold State.conclude
  split
  · exact .next ((h.get rfl).then (State.answer_mem _ _ _ _))
  · exact .next (.of_mem rfl)

/-- A refusal has no effect on memory. -/
theorem State.conclude_refuse_keeps (m : Cmd) (status : Nat) : Result.Keeps s (s.conclude m (refuse status)) := State.conclude_keeps .error

theorem commandRow_keeps {m : Cmd} {mine : Bool} {body : CmdR} (h : Yields (fun p => s.Keeps p.1) body) :
    Result.Keeps s (commandRow m s mine body) := by
  unfold commandRow
  refine .ite (.next (.refl s)) (.ite (.next (.of_mem (s.discard_mem _))) (.ite (State.conclude_refuse_keeps m _)
    (.ite (State.conclude_refuse_keeps m _) (State.conclude_keeps h))))

theorem execCreateVd_keeps (m : Cmd) : Result.Keeps s (execCreateVd m s) :=
  commandRow_keeps (.after fun _ => .after fun _ => .after fun _ => .ok (.of_mem rfl))

theorem execDestroyVd_keeps (m : Cmd) : Result.Keeps s (execDestroyVd m s) := by
  refine commandRow_keeps (.after fun _ => ?_)
  split
  · exact .error
  · exact .after fun _ => .after fun _ => .ok (.of_mem rfl)

theorem execLock_keeps (m : Cmd) : Result.Keeps s (execLock m s) := by
  refine commandRow_keeps (.after fun _ => .after fun _ => .after fun _ => ?_)
  split
  · exact .error
  · split
    · exact .error
    · exact .ok (.of_mem (s.setVdev_mem _))

theorem execStart_keeps (m : Cmd) : Result.Keeps s (execStart m s) :=
  commandRow_keeps (.after fun _ => .after fun _ => .after fun _ => .ok (.of_mem (s.setVdev_mem _)))

@[simp] theorem State.forgetCancelled_mem (s : State) (vd : Nat) : (s.forgetCancelled vd).mem = s.mem :=
  foldl_mem (fun u j => u.forgetJob_mem _ j) _ s

theorem execUnlock_keeps (m : Cmd) : Result.Keeps s (execUnlock m s) :=
  commandRow_keeps (.after fun _ => .after fun _ => .after fun _ =>
    .ok (.of_mem ((State.setVdev_mem _ _).trans (s.forgetCancelled_mem _))))

theorem execSetToll_keeps (m : Cmd) : Result.Keeps s (execSetToll m s) :=
  commandRow_keeps (.after fun _ => .after fun _ => .after fun _ => .after fun _ => .ok (.of_mem rfl))

theorem execSetWayRange_keeps (m : Cmd) : Result.Keeps s (execSetWayRange m s) :=
  commandRow_keeps (.after fun _ => .after fun _ => .after fun _ => .after fun _ => .ok (.of_mem rfl))

theorem execSetFaultPolicy_keeps (m : Cmd) : Result.Keeps s (execSetFaultPolicy m s) :=
  commandRow_keeps (.after fun _ => .after fun _ => .after fun _ => .ok (.of_mem (s.setVdev_mem _)))

theorem execSetPeerTable_keeps (m : Cmd) : Result.Keeps s (execSetPeerTable m s) := by
  refine commandRow_keeps (.after fun _ => .after fun _ => .after fun _ => ?_)
  split
  · exact .error
  · exact .after fun _ => .ok (.of_mem (s.setVdev_mem _))

theorem execLoadRoutingContext_keeps (m : Cmd) : Result.Keeps s (execLoadRoutingContext m s) :=
  commandRow_keeps (.after fun _ => .after fun _ => .after fun _ => .ite (.ok (.of_mem (s.loadRoute_mem _ _ _))) .error)

theorem execSetFaultQueue_keeps (m : Cmd) : Result.Keeps s (execSetFaultQueue m s) := by
  refine commandRow_keeps (.after fun _ => .after fun _ => .after fun _ => ?_)
  split
  · exact .error
  · exact .after fun _ => .ok (.of_mem (s.setVdev_mem _))

@[simp] theorem State.noteLost_mem (s : State) (d : VDev) : (s.noteLost d).mem = s.mem := by
  unfold State.noteLost
  split
  · rfl
  · exact s.noteRead_mem _ _ _

theorem execReadCounters_keeps (m : Cmd) : Result.Keeps s (execReadCounters m s) :=
  commandRow_keeps (.after fun d => .after fun _ => .ok (.of_mem (s.noteLost_mem d)))

theorem execAttestationReport_keeps (m : Cmd) : Result.Keeps s (execAttestationReport m s) := by
  refine commandRow_keeps (.after fun _ => .after fun _ => ?_)
  split
  · exact .error
  · exact .ok (.refl s)

theorem execCancelCommand_keeps (m : Cmd) : Result.Keeps s (execCancelCommand m s) :=
  commandRow_keeps (.after fun _ => .after fun _ => .after fun _ => .ok (.of_mem (s.requestCancel_mem _)))

theorem execTransferOwnership_keeps (m : Cmd) : Result.Keeps s (execTransferOwnership m s) :=
  commandRow_keeps (.after fun _ => .after fun _ => .ok (.of_mem rfl))

theorem execSetSlope_keeps (m : Cmd) : Result.Keeps s (execSetSlope m s) :=
  commandRow_keeps (.after fun _ => .after fun _ => .ok (.of_mem rfl))

theorem execResume_keeps (m : Cmd) : Result.Keeps s (execResume m s) :=
  commandRow_keeps (.after fun _ => .after fun _ => .after fun _ => .after fun _ => .ok (.of_mem (s.mapStrands_mem _ _)))

theorem State.dropImage_keeps (s : State) (n : Nat) : s.Keeps (s.dropImage n) := (s.writeAll_keeps _ _).then rfl

theorem execBoot_keeps (m : Cmd) : Result.Keeps s (execBoot m s) := by
  unfold execBoot
  refine .ite (.ite (State.conclude_keeps (.ok (.ite ?_ ?_))) (State.conclude_refuse_keeps m _)) (commandRow_keeps (.after fun _ => .error))
  · exact .of_mem (State.applyRepairs_mem _ _)
  · refine State.Keeps.trans ?_ (State.dropImage_keeps _ _)
    exact .of_mem rfl

end Hierarchy

end Sys2Proof.Machine
end

section
/-! ## Memory hierarchy rules (spec 13): every row keeps the form of memory -/

namespace Sys2Proof.Machine

section Rows

variable {s t : State}

/-! ### Scalar words (R159-R185) -/

theorem scalarAB_keeps (f : Fields) (op : Word → Word → Word × Flags) : Result.Keeps s (scalarAB f s op) := scalarG_keeps f _ _
theorem scalarA_keeps (f : Fields) (op : Word → Word) : Result.Keeps s (scalarA f s op) := scalarG_keeps f _ _
theorem scalarF_keeps (o : ArOp) (f : Fields) (srcs : List Nat) : Result.Keeps s (scalarF o f s srcs) := scalarG_keeps f _ _

theorem execSel_keeps (f : Fields) : Result.Keeps s (execSel f s) := by
  unfold execSel
  exact runScalar_keeps fun _ _ => .ok (.of_mem (by rw [State.advance_eq, State.setG_eq]))

theorem memSource_keeps (f : Fields) (taint poison : Bool) : Yields s.Keeps (memSource s f taint poison) :=
  .after fun _ => .after fun _ => .ok (.of_mem (s.raise_mem _))

theorem execLd_keeps (f : Fields) : Result.Keeps s (execLd f s) := by
  unfold execLd
  exact runScalar_keeps fun _ _ => .after fun _ => .after fun _ => .bind (memSource_keeps f _ _) fun _ h =>
    .ok (h.then (by rw [State.advance_eq, State.setG_eq]))

theorem State.storeBytes_keeps {va size value : Nat} {taint poison : Bool} (h : s.storeBytes va size value taint poison = .ok t) :
    s.Keeps t :=
  State.storeBytes_wf h

theorem execSt_keeps (f : Fields) : Result.Keeps s (execSt f s) := by
  unfold execSt
  exact runScalar_keeps fun _ _ => .after fun _ => .bind (fun _ h => State.storeBytes_keeps h) fun _ h =>
    .ok (h.then (by rw [State.advance_eq]))

theorem execBr_keeps (f : Fields) : Result.Keeps s (execBr f s) := runScalar_keeps fun _ _ => .ok (.of_mem (by rw [State.jump_eq]))
theorem execJmp_keeps (f : Fields) : Result.Keeps s (execJmp f s) := runScalar_keeps fun _ _ => .ok (.of_mem (by rw [State.jump_eq]))

theorem execJmpi_keeps (f : Fields) : Result.Keeps s (execJmpi f s) := by
  unfold execJmpi
  exact runScalar_keeps fun _ _ => .after fun _ => .after fun _ => .ok (.of_mem (by rw [State.jump_eq]))

theorem State.pushFrame_keeps {ra : Word} {trap : Bool} (h : s.pushFrame ra trap = .ok t) : s.Keeps t := State.pushFrame_wf h

theorem execCall_keeps (f : Fields) : Result.Keeps s (execCall f s) := by
  unfold execCall
  exact runScalar_keeps fun _ _ => .bind (fun _ h => State.pushFrame_keeps h) fun _ h => .ok (h.then (by rw [State.jump_eq]))

/-- A RET that waits for the queue leaves the machine as it was. -/
theorem execRet_keeps (f : Fields) : Result.Keeps s (execRet f s) := by
  unfold execRet
  refine runScalar_keeps fun hs u => .after fun _ => .after fun _ => .after fun _ => .bind (memSource_keeps f _ _) fun _ h =>
    .after fun _ => .after fun _ => .ite (.ok fun _ => hs) (.ok (h.then rfl))

theorem getsNow_keeps (f : Fields) : Result.Keeps s (getsNow f s) :=
  runScalar_keeps fun _ _ => .ok (.of_mem (by rw [State.advance_eq, State.setG_eq]))

theorem setsNow_keeps (f : Fields) : Result.Keeps s (setsNow f s) := by
  unfold setsNow
  exact runScalar_keeps fun _ _ => .after fun _ => .after fun _ => .after fun _ => .ok (.of_mem (by rw [State.advance_eq, State.raise_eq]))

theorem blockFor_keeps {op : BitVec 8} {f : Fields} {go : Result} (h : Result.Keeps s go) : Result.Keeps s (blockFor op f s go) := by
  unfold blockFor
  exact .ite (.next (.of_mem rfl)) h

theorem execSets_keeps (f : Fields) : Result.Keeps s (execSets f s) := by
  unfold execSets
  exact .ite (blockFor_keeps (setsNow_keeps f)) (setsNow_keeps f)

theorem execQueueOrderedAccess_keeps : Result.Keeps s (execQueueOrderedAccess s) := by
  unfold execQueueOrderedAccess
  split
  · exact .next (.refl s)
  · generalize hu : ({ s with me := _ } : State) = u
    have hs : s.Keeps u := by subst hu; exact .of_mem rfl
    exact .ite (.ite (.from hs (getsNow_keeps _)) (.from hs (setsNow_keeps _))) (.next (.refl s))

theorem execTrap_keeps (f : Fields) : Result.Keeps s (execTrap f s) := runScalar_keeps fun _ _ => .error
theorem execBrk_keeps (f : Fields) : Result.Keeps s (execBrk f s) := runScalar_keeps fun _ _ => .error

theorem execHalt_keeps (f : Fields) : Result.Keeps s (execHalt f s) := by
  unfold execHalt
  exact runScalar_keeps fun _ _ => .ok (.of_mem (by rw [State.advance_eq]))

theorem execYield_keeps (f : Fields) : Result.Keeps s (execYield f s) := runScalar_keeps fun _ _ => .ok (.of_mem (by rw [State.advance_eq]))
theorem execNop_keeps (f : Fields) : Result.Keeps s (execNop f s) := runScalar_keeps fun _ _ => .ok (.of_mem (by rw [State.advance_eq]))

/-! ### Fault reports and the array queue (R13-R17, R373) -/

theorem execEnqueue_keeps (op : BitVec 8) (f : Fields) : Result.Keeps s (execEnqueue op f s) := by
  unfold execEnqueue
  refine .ite (.next (.refl s)) (.ite (s.scalarFault_keeps _) ?_)
  have h := s.enter_keeps op f
  split
  · next he => rwa [he] at h
  · next he =>
    rw [he] at h
    exact .next h

theorem execScalarFaultReport_keeps : Result.Keeps s (execScalarFaultReport s) := by
  unfold execScalarFaultReport
  split
  · exact .ite (.next (s.takeFault_keeps _)) (.next (.refl s))
  · exact .next (.refl s)

theorem execArrayFaultReport_keeps : Result.Keeps s (execArrayFaultReport s) := by
  unfold execArrayFaultReport
  split
  · exact .ite (.next (s.takeFault_keeps _)) (.next (.refl s))
  · exact .next (.refl s)

theorem execWatchdog_keeps : Result.Keeps s (execWatchdog s) := by
  unfold execWatchdog
  refine .ite (.next (.refl s)) ?_
  split
  · exact .ite (.next (.of_mem rfl)) (.next (.refl s))
  · exact .ite (.next (s.takeFault_keeps _)) (.next (.refl s))

/-! ### Array words that write registers alone -/

theorem execVnot_keeps (f : Fields) : Result.Keeps s (execVnot f s) := runArray_ofR_keeps fun e _ => elementwise_keeps e f _ _ _ _
theorem execVcmp_keeps (f : Fields) : Result.Keeps s (execVcmp f s) := runArray_ofR_keeps fun e _ => elementwise_keeps e f _ _ _ _
theorem execVsfu_keeps (f : Fields) : Result.Keeps s (execVsfu f s) := runArray_ofR_keeps fun e _ => elementwise_keeps e f _ _ _ _
theorem execVmov_keeps (f : Fields) : Result.Keeps s (execVmov f s) := runArray_ofR_keeps fun e _ => moveBits_keeps e f _ _ _
theorem execVbc_keeps (f : Fields) : Result.Keeps s (execVbc f s) := runArray_ofR_keeps fun e _ => fillStrip_keeps e f _
theorem execViota_keeps (f : Fields) : Result.Keeps s (execViota f s) := runArray_ofR_keeps fun e _ => fillStrip_keeps e f _

theorem execVsel_keeps (f : Fields) : Result.Keeps s (execVsel f s) :=
  runArray_ofR_keeps fun e _ => .after fun _ => .after fun _ => elementwise_keeps e f _ _ _ _

theorem execVcvt_keeps (f : Fields) : Result.Keeps s (execVcvt f s) :=
  runArray_ofR_keeps fun e _ => .after fun _ => .after fun _ => commitV_keeps e f _ _ _ _ _

theorem execVdqn_keeps (f : Fields) : Result.Keeps s (execVdqn f s) :=
  runArray_ofR_keeps fun e _ => .after fun _ => .after fun _ => .after fun _ => commitV_keeps e f _ _ _ _ _

theorem execMpop_keeps (f : Fields) : Result.Keeps s (execMpop f s) := runArray_ofR_keeps fun e _ => commitG_keeps e f _ _ _
theorem execMfirst_keeps (f : Fields) : Result.Keeps s (execMfirst f s) := runArray_ofR_keeps fun e _ => commitG_keeps e f _ _ _
theorem execShget_keeps (f : Fields) : Result.Keeps s (execShget f s) := runArray_ofR_keeps fun e _ => commitG_keeps e f _ _ _

/-! ### Words that wake -/

theorem execSetl_keeps (f : Fields) : Result.Keeps s (execSetl f s) := runArray_keeps fun e _ => serveSetl_keeps e f

theorem execSetlWake_keeps : Result.Keeps s (execSetlWake s) := by
  unfold execSetlWake
  split
  · exact .ite (execSetl_keeps _) (.next (.refl s))
  · exact .next (.refl s)

theorem wakeHead_keeps {op : BitVec 8} {go : Entry → Fields → Bool} {run : Fields → State → Result}
    (h : ∀ f, Result.Keeps s (run f s)) :
    Result.Keeps s (wakeHead op go run s) := by
  unfold wakeHead
  split
  · exact .next (.refl s)
  · exact .ite (h _) (.next (.refl s))

theorem execWaits_keeps (f : Fields) : Result.Keeps s (execWaits f s) := runArray_keeps fun e _ => serveWaits_keeps f e
theorem execWaitv_keeps (f : Fields) : Result.Keeps s (execWaitv f s) := runArray_keeps fun e _ => serveWaitv_keeps f e

theorem execBarrierComplete_keeps (lid scope inst : Nat) : Result.Keeps s (execBarrierComplete lid scope inst s) := by
  unfold execBarrierComplete
  split
  · exact .next (.of_mem (s.completeBarrier_mem _))
  · exact .next (.refl s)

/-! ### Every row -/

theorem exec_keeps (i : Instr) (s : State) : Result.Keeps s (exec i s) := by
  cases i <;> dsimp only [exec]
  case add | sub | mul | mulh | mulhn | div | divn | rem | remn | and | or | xor | andn | shl | shr | shra | rotl | clmul |
      min | max | minn | maxn => exact scalarAB_keeps _ _
  case addi | clz | ctz | popc | lih => exact scalarA_keeps _ _
  case fadd | fsub | fmul | ffma | fdiv | fsqrt | fmin | fmax => exact scalarF_keeps _ _ _
  case li | fcvt => exact scalarG_keeps _ _ _
  case cmp | cmpi | qop | fcmp => exact scalarQ_keeps _ _ _ _
  case sel => exact execSel_keeps _
  case ld => exact execLd_keeps _
  case st => exact execSt_keeps _
  case br => exact execBr_keeps _
  case jmp => exact execJmp_keeps _
  case jmpi => exact execJmpi_keeps _
  case call => exact execCall_keeps _
  case ret => exact execRet_keeps _
  case gets => exact blockFor_keeps (getsNow_keeps _)
  case sets => exact execSets_keeps _
  case trap => exact execTrap_keeps _
  case brk => exact execBrk_keeps _
  case halt => exact execHalt_keeps _
  case yield => exact execYield_keeps _
  case nop => exact execNop_keeps _
  case enqueue => exact execEnqueue_keeps _ _
  case queueOrderedAccess => exact execQueueOrderedAccess_keeps
  case setl => exact execSetl_keeps _
  case setlWake => exact execSetlWake_keeps
  case vldTid | vldPtr => exact runArray_keeps fun e _ => loadStrip_keeps e _
  case vstTid | vstPtr => exact runArray_keeps fun e _ => storeStrip_keeps e _
  case vbc => exact execVbc_keeps _
  case vmov => exact execVmov_keeps _
  case viota => exact execViota_keeps _
  case vadd | vsub | vmul | vfma | vdiv | vmin | vmax => exact runArith_keeps _ _ _ _
  case vsqrt | vabs | vneg => exact runArith1_keeps _ _ _
  case vand | vor | vxor | vshl | vshr => exact runBits_keeps _ _ _ _
  case vnot => exact execVnot_keeps _
  case vcmp => exact execVcmp_keeps _
  case vsel => exact execVsel_keeps _
  case vcvt => exact execVcvt_keeps _
  case vqnt => exact execVqnt_keeps _
  case vdqn => exact execVdqn_keeps _
  case vsfu => exact execVsfu_keeps _
  case vrcr => exact execVrcr_keeps _
  case mand | mor | mxor => exact runMask_keeps _ _ _
  case mnot => exact execMnot_keeps _
  case mpop => exact execMpop_keeps _
  case mfirst => exact execMfirst_keeps _
  case mset => exact execMset_keeps _
  case vext => exact execVext_keeps _
  case vins => exact execVins_keeps _
  case shtag => exact execShtag_keeps _
  case shget => exact execShget_keeps _
  case red => exact execRed_keeps _
  case scan => exact execScan_keeps _
  case grade => exact execGrade_keeps _
  case rot => exact execRot_keeps _
  case rev => exact execRev_keeps _
  case take => exact execTake_keeps _
  case drop => exact execDrop_keeps _
  case reshape => exact execReshape_keeps _
  case cat => exact execCat_keeps _
  case outer => exact execOuter_keeps _
  case transp => exact execTransp_keeps _
  case compress => exact execCompress_keeps _
  case expand => exact execExpand_keeps _
  case gath => exact execGath_keeps _
  case scat => exact execScat_keeps _
  case scata => exact execScata_keeps _
  case idxof => exact execIdxof_keeps _
  case repl => exact execRepl_keeps _
  case pb => exact runArray_keeps fun _ _ => servePb_keeps _
  case fence => exact runArray_keeps fun _ _ => serveFence_keeps _
  case lda | amo | amof | sig => exact runArray_keeps fun e _ => serveHome_keeps _ _ e
  case waits => exact execWaits_keeps _
  case waitsWake | waitsTimeout => exact wakeHead_keeps execWaits_keeps
  case waitv => exact execWaitv_keeps _
  case waitvWake | waitvTimeout => exact wakeHead_keeps execWaitv_keeps
  case barr => exact runArray_keeps fun _ _ => serveBarr_keeps _
  case barrierComplete => exact execBarrierComplete_keeps _ _ _
  case claim => exact runArray_keeps fun e _ => serveClaim_keeps _ e
  case publ => exact runArray_keeps fun e _ => servePubl_keeps _ e
  case copy => exact runArray_keeps fun e _ => serveCopy_keeps _ e
  case pref => exact runArray_keeps fun e _ => servePref_keeps _ e
  case send => exact runArray_keeps fun e _ => serveSend_keeps _ e
  case cred => exact runArray_keeps fun e _ => serveCred_keeps _ e
  case cbcast => exact runArray_keeps fun e _ => serveCbcast_keeps _ e
  case tdef => exact runArray_keeps fun e _ => serveTdef_keeps _ e
  case tset => exact runArray_keeps fun e _ => serveTset_keeps _ e
  case tget => exact runArray_keeps fun e _ => serveTget_keeps _ e
  case mirr => exact runArray_keeps fun e _ => serveMirr_keeps _ e
  case xcan => exact runArray_keeps fun e _ => serveXcan_keeps _ e
  case taint => exact runArray_keeps fun e _ => serveTaint_keeps _ e
  case matt => exact runArray_keeps fun e _ => serveMatt_keeps e
  case mdet => exact runArray_keeps fun _ _ => State.Keeps.of_mem rfl
  case pload | ploadx => exact runArray_keeps fun e _ => servePload_keeps _ _ e
  case mms | mmr => exact runArray_keeps fun e _ => serveMm_keeps _ _ e
  case matrixOpFinish => exact execMatrixOpFinish_keeps _ _ _
  case zrd => exact runArray_keeps fun e _ => serveZrd_keeps _ e
  case zwr => exact runArray_keeps fun e _ => serveZwr_keeps _ e
  case zclr => exact execZclr_keeps _
  case scout => exact runArray_keeps fun e _ => serveScout_keeps _ e
  case check => exact runArray_keeps fun e _ => serveCheck_keeps _ e
  case drarm => exact runArray_keeps fun e _ => serveDrarm_keeps _ e
  case spliceMove => exact execSpliceMove_keeps _
  case scalarFaultReport => exact execScalarFaultReport_keeps
  case arrayFaultReport => exact execArrayFaultReport_keeps
  case watchdog => exact execWatchdog_keeps
  case launchAccept => exact execLaunchAccept_keeps _ _ _
  case launchPlacement => exact execLaunchPlacement_keeps _
  case preemptSave => exact execPreemptSave_keeps _
  case strandResume => exact execStrandResume_keeps _
  case strandFinish => exact execStrandFinish_keeps _
  case serialReexecution => exact execSerialReexecution_keeps _
  case cancelResolve => exact execCancelResolve_keeps _
  case agingStep => exact execAgingStep_keeps _
  case engineFinish => exact execEngineFinish_keeps _ _ _ _
  case caravanElement => exact execCaravanElement_keeps _
  case caravanTail => exact execCaravanTail_keeps _
  case credCombine | cbcastDeliver => exact .next (s.collective_keeps _ _ _ _ _ _)
  case peerHomeAction => exact execPeerHomeAction_keeps _
  case walkComplete => exact execWalkComplete_keeps _ _
  case tlbInvalidate => exact .next (.of_mem rfl)
  case cacheFill => exact execCacheFill_keeps _
  case planeParityRefetch => exact .next (.of_mem (s.parityRefetch_mem _ _ _ _ _))
  case uncorrectableError => exact execUncorrectableError_keeps _
  case correctedError => exact execCorrectedError_keeps _ _
  case fieldRepair => exact execFieldRepair_keeps _ _
  case priv => exact execPriv_keeps _ _ _ _
  case firmwareLoss => exact execFirmwareLoss_keeps
  case write => exact execWrite_keeps _
  case read => exact execRead_keeps _
  case kick => exact execKick_keeps _
  case token => exact execToken_keeps _
  case close => exact execClose_keeps _
  case batchClose => exact execBatchClose_keeps _ _
  case droverSpawn => exact execDroverSpawn_keeps _
  case droverCombine => exact execDroverCombine_keeps _ _
  case noticeSend => exact execNoticeSend_keeps _ _ _
  case tollWindow => exact execTollWindow_keeps _
  case slewWindow => exact execSlewWindow_keeps
  case clusterEnable => exact execClusterEnable_keeps
  case powerUpReset => exact execPowerUpReset_keeps
  case restartStagger => exact execRestartStagger_keeps _ _ _
  case staggerExpire => exact .next (.of_mem rfl)
  case createVd => exact execCreateVd_keeps _
  case destroyVd => exact execDestroyVd_keeps _
  case lock => exact execLock_keeps _
  case start => exact execStart_keeps _
  case unlock => exact execUnlock_keeps _
  case setToll => exact execSetToll_keeps _
  case setWayRange => exact execSetWayRange_keeps _
  case setFaultPolicy => exact execSetFaultPolicy_keeps _
  case setPeerTable => exact execSetPeerTable_keeps _
  case loadRoutingContext => exact execLoadRoutingContext_keeps _
  case setFaultQueue => exact execSetFaultQueue_keeps _
  case readCounters => exact execReadCounters_keeps _
  case attestationReport => exact execAttestationReport_keeps _
  case cancelCommand => exact execCancelCommand_keeps _
  case transferOwnership => exact execTransferOwnership_keeps _
  case setSlope => exact execSetSlope_keeps _
  case boot => exact execBoot_keeps _
  case resume => exact execResume_keeps _
  case planeLoadFinish => exact execPlaneLoadFinish_keeps _ _
  case copyPeerAccess => exact execCopyPeerAccess_keeps _

end Rows

end Sys2Proof.Machine
end

section
/-! ## Memory hierarchy rules (spec 13): every step keeps memory in its canonical form (R257, R275, R287) -/

namespace Sys2Proof.Machine

section Turns

variable {s t u : State}

/-! ### The caches and the order of accesses -/

theorem State.execWord_keeps (s : State) (i : Instr) (w : BitVec 128) : Result.Keeps s (s.execWord i w) := by
  have h := exec_keeps i s
  unfold State.execWord
  split
  · next he =>
    rw [he] at h
    exact .next ((h _ rfl).then rfl)
  · exact h

theorem State.settled_keeps {r : Result} (h : Result.Keeps s r) : Result.Keeps s (s.settled r) := by
  cases r with
  | next t =>
    obtain ⟨_, _, _, _, ht⟩ := s.settled_frame t
    rw [ht]
    exact .next ((h t rfl).then rfl)
  | fault f => exact h
  | refused f => exact h

@[simp] theorem State.tick_mem (s : State) : s.tick.mem = s.mem := by
  obtain ⟨_, _, _, _, h⟩ := State.payDues_tolled { s with
    cyc := Vector.ofFn fun d : Fin 4 => s.cyc[d] + BitVec.ofNat 64 (Config.elapsed d s.free), free := s.free + 1 }
  rw [State.tick, h]

@[simp] theorem State.fetchToken_mem (s : State) : s.fetchToken.mem = s.mem := by
  obtain ⟨_, _, _, _, h⟩ := s.fetchToken_tolled
  rw [h]

@[simp] theorem State.servedFetch_mem (s : State) : s.servedFetch.mem = s.mem := rfl

theorem State.ready_mem (s : State) : s.fetchToken.servedFetch.beginStrand.mem = s.mem := by simp

/-! ### Fetching and running words -/

@[simp] theorem State.yielded_mem (s t : State) (w : BitVec 128) : (s.yielded t w).mem = t.mem := by
  unfold State.yielded
  split <;> rfl

theorem State.afterWord_keeps {w : BitVec 128} {r : Result} (h : Result.Keeps s r) : Result.Keeps s (s.afterWord w r) := by
  unfold State.afterWord
  split
  · exact .next ((h _ rfl).then (s.yielded_mem _ _))
  · exact h

theorem State.runWord_keeps (s : State) (w : BitVec 128) (i : Instr) : Result.Keeps s (s.runWord w i) := by
  unfold State.runWord
  exact .ite (exec_keeps _ s) (s.execWord_keeps i w)

theorem State.runBlocked_keeps (s : State) : Result.Keeps s s.runBlocked := by
  unfold State.runBlocked
  split
  · exact State.afterWord_keeps (exec_keeps _ s)
  · exact exec_keeps _ s

theorem State.runFetched_keeps (s : State) : Result.Keeps s s.runFetched := by
  unfold State.runFetched
  split
  · exact s.scalarFault_keeps _
  · exact State.afterWord_keeps (s.runWord_keeps _ _)
  · split
    · exact State.afterWord_keeps (s.runWord_keeps _ _)
    · exact s.scalarFault_keeps _

theorem State.runFetch_keeps (s : State) : Result.Keeps s s.runFetch := by
  unfold State.runFetch
  exact .ite (.next (.refl s)) (.from (.of_mem s.ready_mem) (State.runFetched_keeps _))

theorem State.enterTurn_keeps (s : State) : Result.Keeps s s.enterTurn := by
  unfold State.enterTurn
  refine .ite (.next (.refl s)) ?_
  dsimp only
  split
  · exact .from (.of_mem s.ready_mem) (State.afterWord_keeps (exec_keeps _ _))
  · exact .next (.refl s)

theorem State.serveHead_keeps (s : State) : Result.Keeps s s.serveHead := by
  unfold State.serveHead
  split
  · exact .next (.refl s)
  · refine .ite (s.execWord_keeps _ _) ?_
    split
    · exact s.execWord_keeps _ _
    · exact .next (.refl s)

theorem State.issueTurn_keeps (s : State) : Result.Keeps s s.issueTurn := by
  unfold State.issueTurn
  exact .ite s.serveHead_keeps (.next (.refl s))

theorem State.partTurn_keeps (s : State) (n : Nat) : Result.Keeps s (s.partTurn n) := by
  unfold State.partTurn
  refine .ite (.next (.refl s)) ?_
  generalize hu : ({ s with me := { s.me with bound := some (n + 1) } } : State) = u
  have hs : s.Keeps u := by subst hu; exact .of_mem rfl
  have h := u.issueTurn_keeps
  split
  · next he =>
    rw [he] at h
    exact .next ((hs.trans (h _ rfl)).then rfl)
  · exact .from hs h

/-! ### Turns -/

theorem State.refocus_keeps (s : State) (sid : Nat) : Result.Keeps s (s.refocus sid) := by
  unfold State.refocus
  refine .ite (.next (.refl s)) ?_
  split
  · exact .next (.of_mem rfl)
  · exact fun t ht => by cases ht

theorem State.ownStep_keeps (s : State) : Result.Keeps s s.ownStep := by
  unfold State.ownStep
  refine .ite (.next (.refl s)) ?_
  split
  · exact .ite (exec_keeps _ s) (.ite (exec_keeps _ s) (.ite (.next (.refl s)) s.serveHead_keeps))
  · split
    · exact exec_keeps _ s
    · refine .ite (.next (.refl s)) (.ite s.serveHead_keeps (.ite s.runBlocked_keeps ?_))
      split
      · exact s.refocus_keeps _
      · exact s.runFetch_keeps

theorem State.stewardTurn_keeps (s : State) (n : Nat) : Result.Keeps s (s.stewardTurn n) := by
  have hpriv (d : Option VDev) : Result.Keeps s (.next (s.raisePriv d 2 1)) := .next (.of_mem (s.raisePriv_mem _ _ _))
  unfold State.stewardTurn
  dsimp only
  refine .ite (.next (.refl s)) (.ite (hpriv _) ?_)
  split
  · refine .ite (.next (.refl s)) (.ite (hpriv _) ?_)
    split
    · exact .next (.refl s)
    · next i _ =>
      generalize hu : ({ s with me := _, rest := _ } : State) = u
      have hs : s.Keeps u := by subst hu; exact .of_mem rfl
      have h := exec_keeps i u
      split
      · next he =>
        rw [he] at h
        exact .ite (hpriv _) (.ite (.next ((hs.trans (h _ rfl)).then rfl)) (.next (.refl s)))
      · exact .from hs h
  · exact .next (.refl s)

theorem State.take_keeps (s : State) (a : Turn) : Result.Keeps s (s.take a) := by
  unfold State.take
  split
  · exact s.runFetch_keeps
  · exact .ite (.next (.refl s)) s.issueTurn_keeps
  · exact s.partTurn_keeps _
  · exact s.refocus_keeps _
  · exact .next (s.asStrand_keeps _ fun u => .ite (.of_mem u.beginStrand_mem) (.refl u))
  · exact s.runBlocked_keeps
  · exact .ite (fun t ht => by cases ht) (exec_keeps _ s)
  · exact .next (s.asStrand_keeps _ fun u => u.engineTurn_keeps _ _ _)
  · exact s.enterTurn_keeps
  · exact State.ifOpen_keeps (.next (s.foldAnswered_keeps _ _ _))
  · exact State.ifOpen_keeps (.next (s.manifestAnswered_keeps _ _ _ _))
  · exact State.ifOpen_keeps (.next (.of_mem rfl))
  · refine .next (.of_mem ?_)
    unfold State.setLag
    dsimp only
    split <;> rfl
  · exact .next (.of_mem (s.tlbMiss_mem _ _))
  · exact .next (.of_mem (s.setRoot_mem _ _))
  · exact .next (s.setPageEntry_keeps _ _)
  · exact .next (.of_mem (s.setRegion_mem _ _ _))
  · exact .next (.of_mem (s.stewardStart_mem _ _ _ _))
  · exact s.stewardTurn_keeps _
  · exact .next (.of_mem rfl)
  · exact .next (.of_mem (s.discard_mem _))

theorem step_keeps (s : State) : Result.Keeps s (step s) := by
  unfold step
  refine State.settled_keeps ?_
  split
  · exact .from (.of_mem s.tick_mem) (State.take_keeps _ _)
  · exact .from (.of_mem s.tick_mem) s.tick.ownStep_keeps

end Turns

/-- Settles O2: the acts of a step are chained, and each of them keeps the form. -/
theorem stepKeepsMemoryForm : Obligations.StepKeepsMemoryForm := fun s t hs ht => step_keeps s t ht hs

end Sys2Proof.Machine
end

section
/-! ## Memory hierarchy rules (spec 13): walks, TLBs and what they translate (R262-R265) -/

namespace Sys2Proof.Machine

/-! ### TLBs take entries (R262) -/

section Tlb

variable {tlb : List TlbEntry} {e x : TlbEntry} {size : Nat}

theorem mem_addTlb_self : e ∈ addTlb tlb e size := List.mem_cons_self

/-- An entry that makes room lies in the TLB that takes the new one. -/
theorem mem_addTlb_of_core_ne (hx : x ∈ tlb) (hcore : x.core ≠ e.core) : x ∈ addTlb tlb e size := by
  have hcoreb : (x.core == e.core) = false := beq_eq_false_iff_ne.mpr hcore
  refine List.mem_cons_of_mem _ ?_
  dsimp only
  generalize hkept : tlb.filter _ = kept
  have hxk : x ∈ kept := by
    rw [← hkept]
    exact List.mem_filter.mpr ⟨hx, by simp [hcoreb]⟩
  split
  · exact hxk
  · split
    · next o ho =>
      have hsame := (List.mem_filter.mp (List.mem_of_getLast? ho)).2
      refine (List.mem_erase_of_ne fun h => ?_).mpr hxk
      rw [← h, hcoreb, Bool.and_false] at hsame
      cases hsame
    · exact hxk

/-- The TLBs of some cores take an entry: those of others keep theirs. -/
theorem mem_foldl_addTlb_of_mem {cores : List Nat} (hx : x ∈ tlb) (hcore : ∀ c ∈ cores, x.core ≠ some c) :
    x ∈ cores.foldl (fun t c => addTlb t { e with core := some c } size) tlb := by
  induction cores generalizing tlb with
  | nil => exact hx
  | cons c cores ih =>
    exact ih (mem_addTlb_of_core_ne hx (hcore c List.mem_cons_self)) fun c' hc' => hcore c' (List.mem_cons_of_mem _ hc')

theorem mem_foldl_addTlb {cores : List Nat} {c : Nat} (hc : c ∈ cores) :
    { e with core := some c } ∈ cores.foldl (fun t c => addTlb t { e with core := some c } size) tlb := by
  induction cores generalizing tlb with
  | nil => cases hc
  | cons c' cores ih =>
    by_cases hmem : c ∈ cores
    · exact ih hmem
    · obtain rfl : c = c' := (List.mem_cons.mp hc).resolve_right hmem
      rw [List.foldl_cons]
      exact mem_foldl_addTlb_of_mem mem_addTlb_self fun c' hc' h => hmem (Option.some.inj h ▸ hc')

end Tlb

section Walks

variable {s t : State}

/-- The first-level TLB of each core on which a strand waits has the entry, and the cluster's keeps its own. -/
theorem State.fillCores_eq (s : State) (sids : List Nat) (e : TlbEntry) : ∃ tlb, s.fillCores sids e = { s with tlb := tlb } ∧
    (∀ x ∈ s.tlb, x.core = none → x ∈ tlb) ∧
    ∀ st ∈ s.strands, st.sid ∈ sids → st.issues = true → st.place.die = e.die → st.place.core / 4 = e.cluster →
      { e with core := some st.place.core } ∈ tlb := by
  refine ⟨_, rfl, fun x hx hcore => mem_foldl_addTlb_of_mem hx fun c _ => ?_, fun st hst hsid hissues hdie hcluster => mem_foldl_addTlb ?_⟩
  · rw [hcore]
    exact Option.some_ne_none c |>.symm
  · refine List.mem_dedup.mpr (List.mem_map.mpr ⟨st, List.mem_filter.mpr ⟨hst, ?_⟩, rfl⟩)
    simp [hsid, hissues, hdie, hcluster]

/-! ### A walk ends (R262, R263) -/

/-- The reads of a walk meet the caches alone. -/
theorem State.walkReads_frame (s : State) (vd va : Nat) :
    ∃ lines fills dues, s.walkReads vd va = { s with lines := lines, fills := fills, dues := dues } := by
  have hreads (xs : List Nat) (u : State) : ∃ lines fills dues,
      xs.foldl (fun (u : State) ea => u.reach none { line := ea / 128, vd := vd }) u = { u with lines := lines, fills := fills, dues := dues } := by
    induction xs generalizing u with
    | nil => exact ⟨u.lines, u.fills, u.dues, rfl⟩
    | cons x xs ih =>
      obtain ⟨l, f, d, hx⟩ := u.reach_frame none { line := x / 128, vd := vd }
      rw [List.foldl_cons, hx]
      exact ih _
  unfold State.walkReads
  split
  · exact hreads _ s
  · exact ⟨s.lines, s.fills, s.dues, rfl⟩

/-- A walk reads the tables and the roots alone. -/
theorem State.walk_congr (hmem : t.mem = s.mem) (hpoison : t.memPoison = s.memPoison) (hvds : t.vds = s.vds) (vd va : Nat) :
    t.walk vd va = s.walk vd va := by
  simp only [State.walk, State.vdev?, hvds, walkFrom_congr hmem hpoison]

/-- How a walk with no late miss in its page ends: by what it finds, after its reads. -/
theorem execWalkComplete_of_find {die : BitVec 2} {cluster : BitVec 4} {w : Walk}
    (hw : s.walks.find? (fun w => w.die == die.toNat && w.cluster == cluster.toNat && w.inFlight) = some w)
    (hlate : ∀ x ∈ s.walks, x.late = true → w.covers x = false) :
    execWalkComplete die cluster s = .next (match s.walk w.vd w.va.toNat with
      | none => { (s.walkReads w.vd w.va.toNat).noteWalk w.vd w.va.toNat with
          walks := startQueued w.die w.cluster (s.walks.erase w) ++ [{ w with inFlight := false, failed := true }] }
      | some l =>
        let e : TlbEntry := { die := w.die, cluster := w.cluster, vd := w.vd, page := w.va.toNat >>> l.sizeLog, sizeLog := l.sizeLog,
                              pa := l.base, perm := b2n l.rd + 2 * b2n l.wr + 4 * b2n l.ex }
        State.fillCores { s.walkReads w.vd w.va.toNat with
          walks := startQueued w.die w.cluster (s.walks.erase w), tlb := addTlb s.tlb e 4096 } w.sids e) := by
  have hwaiting (x : Walk) (hx : x ∈ s.walks) : (x.late && w.covers x) = false := by
    cases h : x.late with
    | false => rfl
    | true => exact hlate x hx h
  have hnone : s.walks.filter (fun x => x.late && w.covers x) = [] :=
    List.filter_eq_nil_iff.mpr fun x hx => by simp [hwaiting x hx]
  have hall : (s.walks.erase w).filter (fun x => !(x.late && w.covers x)) = s.walks.erase w :=
    List.filter_eq_self.mpr fun x hx => by simp [hwaiting x (List.mem_of_mem_erase hx)]
  obtain ⟨lines, fills, dues, hreads⟩ := s.walkReads_frame w.vd w.va.toNat
  have hwalk : State.walk { s with lines := lines, fills := fills, dues := dues } w.vd w.va.toNat = s.walk w.vd w.va.toNat :=
    State.walk_congr rfl rfl rfl _ _
  unfold execWalkComplete
  simp only [hw, hreads, hnone, hall, hwalk, List.foldl_nil] <;> cases s.walk w.vd w.va.toNat <;> rfl

end Walks

end Sys2Proof.Machine
end

section
/-! ## Memory hierarchy rules (spec 13): translation, fills and tokens change no value (R262-R273, R398) -/

namespace Sys2Proof.Machine

section Caches

variable {s t : State}

/-! ### Translation (R261-R265) -/

/-- An access that waited on a walk that failed reports its fault. -/
theorem State.translate_of_fails {va key : Nat} {acc : Access} {w : Walk} (hphys : s.me.physical = false) (hw : w ∈ s.walks)
    (hfails : w.fails s.me.sid s.me.vdid.toNat va = true) : s.translate s.me.vdid.toNat acc va key = .error cXLATE := by
  have hmiss : s.missFailed s.me.vdid.toNat va = true := by
    rw [State.missFailed, beq_self_eq_true, Bool.true_and]
    exact List.any_eq_true.mpr ⟨w, hw, hfails⟩
  have hleaf : s.leaf? s.me.vdid.toNat va key = none := by
    rw [State.leaf?, hphys, hmiss]
    rfl
  rw [State.translate, hleaf]

/-- Where no walk has failed and the TLBs are empty, the tables say what an address translates to. -/
theorem State.translate_of_walk {va key : Nat} {acc : Access} (hphys : s.me.physical = false)
    (hwalks : ∀ w ∈ s.walks, w.failed = false) (htlb : s.tlb = []) :
    s.translate s.me.vdid.toNat acc va key = match s.walk s.me.vdid.toNat va with
      | none => .error cXLATE
      | some l => if l.permits acc then .ok (l.base + va % 2 ^ l.sizeLog) else .error cPROT := by
  have hmiss : s.missFailed s.me.vdid.toNat va = false := by
    rw [State.missFailed, Bool.and_eq_false_iff]
    exact .inr (List.any_eq_false.mpr fun w hw => by simp [Walk.fails, hwalks w hw])
  have hnone : s.tlbLeaf? s.me.vdid.toNat va = none := by
    simp [State.tlbLeaf?, htlb]
  have hleaf : s.leaf? s.me.vdid.toNat va key = s.walk s.me.vdid.toNat va := by
    rw [State.leaf?, hphys, hmiss, hnone]
    rfl
  rw [State.translate, hleaf] <;> cases s.walk s.me.vdid.toNat va <;> rfl

/-! ### An invalidation (R265) -/

/-- Addresses in one page lie in one larger page too. -/
theorem div_pow_eq_of_le {a b m n : Nat} (h : m ≤ n) (hab : a / 2 ^ m = b / 2 ^ m) : a / 2 ^ n = b / 2 ^ n := by
  obtain ⟨k, rfl⟩ := Nat.exists_eq_add_of_le h
  rw [Nat.pow_add, ← Nat.div_div_eq_div_mul, ← Nat.div_div_eq_div_mul, hab]

/-- The page has left every TLB, and no walk in it that failed is left. -/
theorem execTlbInvalidate_eq (s : State) (vd : BitVec 4) (va : Word) : ∃ tlb walks,
    execTlbInvalidate vd va s = .next { s with tlb := tlb, walks := walks } ∧
    (∀ w ∈ s.walks, w.failed = false → w ∈ walks) ∧ (∀ w ∈ walks, w ∈ s.walks) ∧
    (∀ w ∈ walks, w.failed = true → w.vd = vd.toNat → w.va.toNat / 2 ^ w.sizeLog ≠ va.toNat / 2 ^ w.sizeLog) ∧
    ∀ e, e ∈ tlb ↔ e ∈ s.tlb ∧ ¬(e.vd = vd.toNat ∧ va.toNat / 2 ^ e.sizeLog = e.page) := by
  refine ⟨_, _, rfl, fun w hw hf => ?_, fun w hw => List.mem_of_mem_filter hw, fun w hw hf hvd hpage => ?_, fun e => ?_⟩
  · exact List.mem_filter.mpr ⟨hw, by simp [hf]⟩
  · have hin := (List.mem_filter.mp hw).2
    simp only [hf, hvd, beq_self_eq_true, Bool.true_and, Nat.shiftRight_eq_div_pow, Bool.not_eq_true', beq_eq_false_iff_ne] at hin
    exact hin (div_pow_eq_of_le (Nat.le_max_right _ _) hpage)
  · simp [List.mem_filter, Nat.shiftRight_eq_div_pow, ← imp_iff_not_or]

/-! ### A line arrives (R266-R273) -/

/-- The slice of a fused cluster that a line lies in is the slice of its own lines. -/
theorem State.setOf_unit (s : State) (p : Fill) : s.setOf { p with unit := (s.setOf p).1 } = s.setOf p := by
  have hdiv : (4 * (p.unit / 4) + p.line % 4) / 4 = p.unit / 4 := by omega
  cases hfused : !p.level2 && s.fused.contains (p.die, p.unit / 4) with
  | false => simp only [State.setOf, hfused, Bool.false_eq_true, if_false]
  | true => simp only [State.setOf, hfused, hdiv, if_true]

theorem State.holdsLine_unit (s : State) (p : Fill) : s.holdsLine { p with unit := (s.setOf p).1 } = s.holdsLine p := by
  funext c
  simp only [State.holdsLine, State.inSet, s.setOf_unit p]

/-- A hit is served by the line. -/
theorem State.meet_of_hit {p : Fill} (h : s.lines.any (s.holdsLine p) = true) :
    s.meet p = { s with lines := s.lines.map fun c => if s.holdsLine p c then c.hit p else c } := by
  unfold State.meet
  simp only [s.holdsLine_unit p, h, if_true]
  rfl

section Arrive

variable {k : Nat} {q : Fill} {evicting : Bool}

theorem State.arrive_of_none (h : s.fills[k]? = none) : s.arrive k evicting = s := by
  rw [State.arrive, h]

theorem State.arrive_of_unpaid (hq : s.fills[k]? = some q) (hpaid : s.unpaid q = true) : s.arrive k evicting = s := by
  simp [State.arrive, hq, hpaid]

theorem State.arrive_of_hit (hq : s.fills[k]? = some q) (hpaid : s.unpaid q = false) (hhit : s.lines.any (s.holdsLine q) = true) :
    s.arrive k evicting = { s with
      fills := s.fills.eraseIdx k, lines := s.lines.map fun c => if s.holdsLine q c then c.hit q else c } := by
  simp only [State.arrive, hq, hpaid, hhit, if_true, Bool.false_eq_true, if_false]
  exact State.meet_of_hit (s := { s with fills := s.fills.eraseIdx k }) hhit

theorem State.arrive_of_evicting (hq : s.fills[k]? = some q) (hpaid : s.unpaid q = false) (hmiss : s.lines.any (s.holdsLine q) = false) :
    s.arrive k true = if !q.prefetch then s
      else if q.level2 then State.dropFill { s with fills := s.fills.eraseIdx k } q.die q.unit else { s with fills := s.fills.eraseIdx k } := by
  simp only [State.arrive, hq, hpaid, hmiss, if_true, Bool.false_eq_true, if_false]

theorem State.arrive_of_slot {age w : Nat} (hq : s.fills[k]? = some q) (hpaid : s.unpaid q = false)
    (hmiss : s.lines.any (s.holdsLine q) = false) (hage : fillAge? q = some age) (hslot : s.slotFor q = some (w, none)) :
    s.arrive k false = State.placeLine { s with fills := s.fills.eraseIdx k } q age (w, none) := by
  simp only [State.arrive, hq, hpaid, hmiss, hage, hslot, Bool.false_eq_true, if_false]

end Arrive

/-! ### Tokens (R397, R398) -/

/-- A request has taken tokens, and changed in nothing else. -/
def Due.Paid (d e : Due) : Prop := ∃ n ≤ d.left, e = { d with left := n }

theorem Due.Paid.trans {d e g : Due} (h : d.Paid e) (h' : e.Paid g) : d.Paid g := by
  obtain ⟨n, hn, rfl⟩ := h
  obtain ⟨m, hm, rfl⟩ := h'
  exact ⟨m, hm.trans hn, rfl⟩

theorem Due.Paid.forall_trans {ds es gs : List Due} (h : List.Forall₂ Due.Paid ds es) (h' : List.Forall₂ Due.Paid es gs) :
    List.Forall₂ Due.Paid ds gs := by
  induction h generalizing gs with
  | nil => exact h'
  | cons hd _ ih =>
    cases h' with
    | cons hd' h' => exact .cons (hd.trans hd') (ih h')

theorem payAll_paid {pay : State → Due → State × Due} (hpay : ∀ t d, Due.Paid d (pay t d).2) (s : State) (ds : List Due) :
    List.Forall₂ Due.Paid ds (payAll pay s ds).2 := by
  have hwalk (ds : List Due) (acc : State × List Due) : ∃ es,
      (ds.foldl (fun acc d => ((pay acc.1 d).1, acc.2 ++ [(pay acc.1 d).2])) acc).2 = acc.2 ++ es ∧ List.Forall₂ Due.Paid ds es := by
    induction ds generalizing acc with
    | nil => exact ⟨[], (List.append_nil _).symm, .nil⟩
    | cons d ds ih =>
      obtain ⟨es, hes, hpaid⟩ := ih ((pay acc.1 d).1, acc.2 ++ [(pay acc.1 d).2])
      exact ⟨_, hes.trans (List.append_assoc _ _ _), .cons (hpay acc.1 d) hpaid⟩
  obtain ⟨es, hes, hpaid⟩ := hwalk ds (s, [])
  rw [payAll, hes]
  exact hpaid

/-- Requests that have taken tokens, by what each is still short of. -/
theorem Due.Paid.lefts {ds es : List Due} (h : List.Forall₂ Due.Paid ds es) : ∃ left : List Nat, left.length = ds.length ∧
    (∀ p ∈ ds.zip left, p.2 ≤ p.1.left) ∧ es = (ds.zip left).map fun p => { p.1 with left := p.2 } := by
  induction h with
  | nil => exact ⟨[], rfl, by simp, rfl⟩
  | cons hd _ ih =>
    obtain ⟨n, hn, rfl⟩ := hd
    obtain ⟨left, hlen, hle, rfl⟩ := ih
    exact ⟨n :: left, by simp [hlen], by simpa using ⟨hn, fun d m => hle (d, m)⟩, rfl⟩

/-- The requests that wait after the arbiters' turn are those before it, with fewer tokens to come; one that needs none is gone. -/
theorem State.payDues_dues (s : State) : ∃ left : List Nat, left.length = s.dues.length ∧ (∀ p ∈ s.dues.zip left, p.2 ≤ p.1.left) ∧
    s.payDues.dues = ((s.dues.zip left).map fun p => { p.1 with left := p.2 }).filter fun d => d.left != 0 := by
  unfold State.payDues
  split
  · next h =>
    have hnil : s.dues = [] := List.isEmpty_iff.mp h
    exact ⟨[], by rw [hnil]; rfl, by simp, by simp [hnil]⟩
  · have hown := payAll_paid (pay := State.payOwn) (fun _ d => ⟨_, Nat.sub_le _ _, rfl⟩) ((List.range 4).foldl State.accrue s) s.dues
    have hlent := payAll_paid (pay := State.payLent) (fun _ d => ⟨_, Nat.sub_le _ _, rfl⟩)
      (payAll State.payOwn ((List.range 4).foldl State.accrue s) s.dues).1
      (payAll State.payOwn ((List.range 4).foldl State.accrue s) s.dues).2
    have hboth : List.Forall₂ Due.Paid s.dues _ := Due.Paid.forall_trans hown hlent
    obtain ⟨left, hlen, hle, hes⟩ := Due.Paid.lefts hboth
    exact ⟨left, hlen, hle, congrArg (List.filter fun d : Due => d.left != 0) hes⟩

end Caches

end Sys2Proof.Machine
end

section
/-! ## Memory hierarchy rules (spec 13): walks, invalidations and cache accesses change no value (R262-R273, R398) -/

namespace Sys2Proof.Machine

/-- A walk that ends changes no memory and no strand before it fills a TLB. -/
theorem State.walkReads_same (s : State) (vd va : Nat) : s.sameMemory (s.walkReads vd va) ∧ (s.walkReads vd va).me = s.me ∧
    (s.walkReads vd va).rest = s.rest ∧ (s.walkReads vd va).tlb = s.tlb ∧ (s.walkReads vd va).walks = s.walks := by
  obtain ⟨_, _, _, h⟩ := s.walkReads_frame vd va
  rw [h]
  exact ⟨⟨fun _ => rfl, rfl, rfl⟩, rfl, rfl, rfl, rfl⟩

/-- The tokens that arbiters give leave memory, strands and caches alone. -/
theorem State.payDues_same (s : State) : s.payDues.me = s.me ∧ s.sameMemory s.payDues ∧ s.payDues.fills = s.fills ∧
    s.payDues.lines = s.lines := by
  obtain ⟨_, _, _, _, h⟩ := s.payDues_tolled
  rw [h]
  exact ⟨rfl, ⟨fun _ => rfl, rfl, rfl⟩, rfl, rfl⟩

/-- Settles O55, clause by clause: how a walk ends, what an address translates to, what an invalidation leaves, how a line
arrives, what requests wait for, and that executing a word changes the caches alone beside what the word says. -/
theorem translationAndCaches : Obligations.TranslationAndCaches := by
  refine ⟨?walk, ?translate, execTlbInvalidate_eq, ?fill, ?dues, ?word⟩
  case walk =>
    intro s die cluster w hw u left hlate
    obtain ⟨hmem, hme, hrest, htlb, hwalks⟩ := s.walkReads_same w.vd w.va.toNat
    refine ⟨fun hnone => ?_, fun l hl => ?_, hmem, hme, htlb, hwalks⟩
    · have h := execWalkComplete_of_find hw hlate
      rw [hnone] at h
      exact h
    · intro e
      have h := execWalkComplete_of_find hw hlate
      rw [hl] at h
      simp only [Nat.shiftRight_eq_div_pow] at h
      obtain ⟨tlb, hfill, hkeep, hcores⟩ := State.fillCores_eq { u with walks := left, tlb := addTlb s.tlb e 4096 } w.sids e
      refine ⟨tlb, h.trans ?_, hkeep e mem_addTlb_self rfl, fun st hst => hcores st ?_⟩
      · exact congrArg _ hfill
      · change st ∈ u.me :: u.rest
        rw [hme, hrest]
        exact hst
  case translate =>
    intro s va key acc hphys
    refine ⟨?_, fun hwalks htlb => State.translate_of_walk hphys hwalks htlb⟩
    rintro ⟨w, hw, hfails⟩
    exact State.translate_of_fails hphys hw hfails
  case fill =>
    intro p s
    obtain ⟨_, _, _, _, hframe⟩ := execCacheFill_frame p s
    injection hframe with harrive
    refine ⟨s.arrive p.index p.evicting, rfl, ?_, ?_, State.arrive_of_none, fun q hq => ?_⟩
    · rw [harrive]
      exact ⟨fun _ => rfl, rfl, rfl⟩
    · rw [harrive]
    · intro rest hits fused set here may hit
      refine ⟨State.arrive_of_unpaid hq, State.arrive_of_hit hq, fun hpaid hmiss hevict => ?_, fun hpaid hmiss hevict age w hage hfree => ?_⟩
      · have h := State.arrive_of_evicting hq hpaid hmiss
        rw [hevict, h]
        refine ⟨fun hpre => by simp [hpre], fun hpre => ?_⟩
        cases hl2 : q.level2 with
        | false => simp [hpre, rest]
        | true => simp [hpre, rest, State.dropFill, add_comm]
      · have hslot : s.slotFor q = some (w, none) := by
          unfold State.slotFor
          dsimp only
          split
          · next w' hw' =>
            cases hw'.symm.trans hfree
            rfl
          · next hnone => cases hnone.symm.trans hfree
        rw [hevict]
        exact State.arrive_of_slot hq hpaid hmiss hage hslot
  case dues =>
    intro s
    obtain ⟨hme, hmem, hfills, hlines⟩ := s.payDues_same
    exact ⟨hme, hmem, hfills, hlines, s.payDues_dues⟩
  case word =>
    intro s t i w h
    cases hexec : exec i s with
    | next u =>
      obtain ⟨lines, fills, dues, dropped, stores, order, hword⟩ := s.execWord_frame u i w hexec
      refine ⟨u, rfl, ?_⟩
      cases hword.symm.trans h
      rfl
    | fault f => rw [State.execWord, hexec] at h; cases h
    | refused f => rw [State.execWord, hexec] at h; cases h

end Sys2Proof.Machine
end

section
/-! ## Memory hierarchy rules (spec 13): uncorrectable errors (R42, R88, R275) -/

namespace Sys2Proof.Machine

/-! ### Granules -/

theorem mem_setMember_of_mem {l : List Nat} {x : Nat} (hx : x ∈ l) (g : Nat) : x ∈ setMember l g true := by
  induction l with
  | nil => cases hx
  | cons c r ih =>
    unfold setMember
    split
    · rcases List.mem_cons.mp hx with rfl | hr
      · exact List.mem_cons_self
      · exact List.mem_cons_of_mem _ (ih hr)
    · split
      · exact hx
      · exact List.mem_cons_of_mem _ hx

/-- An error in a granule leaves the bytes of the others. -/
theorem State.hitGranule_get {s : State} (hs : s.Inv) {g a : Nat} (ha : a / 32 ≠ g) : memGet (s.hitGranule g).mem a = memGet s.mem a := by
  have hout : ¬(32 * g ≤ a ∧ a < 32 * g + 32) := by omega
  rw [s.hitGranule_mem g, memGet_memWrite _ _ _ _ _ hs, if_neg hout]

theorem State.hitGranule_me (s : State) (g : Nat) : (s.hitGranule g).me = s.me := by
  have hfree : (s.freeBits 4).2.me = s.me := rfl
  unfold State.hitGranule
  dsimp only
  exact hfree

theorem State.hitGranule_memTaint (s : State) (g : Nat) : (s.hitGranule g).memTaint = s.memTaint := by
  have hfree : (s.freeBits 4).2.memTaint = s.memTaint := rfl
  unfold State.hitGranule
  dsimp only
  exact hfree

theorem State.hitGranule_memPoison (s : State) (g : Nat) : (s.hitGranule g).memPoison = setMember s.memPoison g true := by
  have hfree : (s.freeBits 4).2.memPoison = s.memPoison := rfl
  unfold State.hitGranule
  dsimp only
  rw [hfree]

/-- What errors in some granules leave of the machine. -/
theorem foldl_hitGranule (gs : List Nat) (s : State) (hs : s.Inv) :
    (gs.foldl State.hitGranule s).me = s.me ∧ (gs.foldl State.hitGranule s).memTaint = s.memTaint ∧
      (∀ g, g ∈ gs ∨ g ∈ s.memPoison → g ∈ (gs.foldl State.hitGranule s).memPoison) ∧
      ∀ a, a / 32 ∉ gs → memGet (gs.foldl State.hitGranule s).mem a = memGet s.mem a := by
  induction gs generalizing s with
  | nil => exact ⟨rfl, rfl, fun g hg => hg.resolve_left List.not_mem_nil, fun _ _ => rfl⟩
  | cons g gs ih =>
    obtain ⟨hme, htaint, hpoison, hget⟩ := ih (s.hitGranule g) (s.hitGranule_keeps g hs)
    rw [s.hitGranule_me g] at hme
    rw [s.hitGranule_memTaint g] at htaint
    rw [s.hitGranule_memPoison g] at hpoison
    rw [List.foldl_cons]
    refine ⟨hme, htaint, fun x hx => hpoison x ?_, fun a ha => ?_⟩
    · rcases hx with hx | hx
      · rcases List.mem_cons.mp hx with rfl | hx
        · exact .inr (mem_setMember_true _ _)
        · exact .inl hx
      · exact .inr (mem_setMember_of_mem hx g)
    · obtain ⟨hne, hnot⟩ := not_or.mp (List.mem_cons.not.mp ha)
      exact (hget a hnot).trans (State.hitGranule_get hs hne)

theorem mem_upTo {a b x : Nat} : x ∈ upTo a b ↔ a ≤ x ∧ x < b := by
  simp only [upTo, List.mem_map, List.mem_range]
  constructor
  · rintro ⟨k, hk, rfl⟩
    omega
  · rintro ⟨ha, hb⟩
    exact ⟨x - a, by omega, by omega⟩

/-! ### Rows of registers -/

/-- Bits beside those that are replaced. -/
theorem bits_setBits_of_disjoint {x hi lo v hi' lo' : Nat} (h : lo ≤ hi + 1) (hdis : hi' < lo ∨ hi < lo') :
    bits (setBits x hi lo v) hi' lo' = bits x hi' lo' := by
  refine Nat.eq_of_testBit_eq fun j => ?_
  simp only [bits, Nat.testBit_mod_two_pow, Nat.testBit_shiftRight, testBit_setBits h]
  by_cases hj : j < hi' + 1 - lo'
  · rcases hdis with hdis | hdis
    · rw [if_pos (show lo' + j < lo by omega)]
    · rw [if_neg (show ¬lo' + j < lo by omega), if_neg (show ¬lo' + j ≤ hi by omega)]
  · simp [hj]

theorem bit_or_two_pow (p n k : Nat) : bit (p ||| 2 ^ n) k = (bit p k || decide (n = k)) := by
  rw [bit, bit, Nat.testBit_or, Nat.testBit_two_pow]

section Registers

variable (st : Strand) {n row x : Nat}

theorem Strand.getG_hitG (h0 : n ≠ 0) (hn : n < 32) (k : Nat) :
    (st.hitG n x).getG k = if k = n then { st.getG n with val := BitVec.ofNat 64 x, poison := true } else st.getG k := by
  rw [Strand.hitG, if_neg (by simpa using h0)]
  unfold Strand.getG
  dsimp only
  rw [getD_setIfInBounds _ _ _ _ _ hn]
  by_cases hk : k = 0
  · subst hk
    simp [Ne.symm h0]
  · simp [hk]

theorem Strand.hitG_sameArrays : (st.hitG n x).sameArrays st := by
  unfold Strand.hitG
  split
  · exact ⟨rfl, rfl, rfl, rfl⟩
  · exact ⟨rfl, rfl, rfl, rfl⟩

/-- The register after an error in one of its rows. -/
def VReg.hitRow (v : VReg) (row x : Nat) : VReg :=
  { v with buf := setBits v.buf (2048 * row + 2047) (2048 * row) x, poison := v.poison ||| 2 ^ row }

/-- The tile after an error in one of its rows. -/
def Tile.hitRow (z : Tile) (row x : Nat) : Tile :=
  { z with buf := setBits z.buf (8192 * row + 8191) (8192 * row) x, poison := z.poison ||| 2 ^ row }

theorem Strand.getV_hitV (hn : n < 32) (hrow : row < st.grows) (k : Nat) :
    (st.hitV n row x).getV k = if k = n then (st.getV n).hitRow row x else st.getV k := by
  rw [Strand.hitV, if_pos hrow]
  exact getD_setIfInBounds _ _ _ _ _ hn

theorem Strand.getZ_hitZ (hn : n < 16) (hrow : row < 192) (k : Nat) :
    (st.hitZ n row x).getZ k = if k = n then (st.getZ n).hitRow row x else st.getZ k := by
  rw [Strand.hitZ, if_pos hrow]
  exact getD_setIfInBounds _ _ _ _ _ hn

@[simp] theorem Strand.hitV_g : (st.hitV n row x).g = st.g := by
  unfold Strand.hitV
  split <;> rfl

@[simp] theorem Strand.hitZ_g : (st.hitZ n row x).g = st.g := by
  unfold Strand.hitZ
  split <;> rfl

/-- The other rows of a register with an error in one of them. -/
theorem VReg.hitRow_other (v : VReg) {k : Nat} (hk : k ≠ row) :
    bits (v.hitRow row x).buf (2048 * k + 2047) (2048 * k) = bits v.buf (2048 * k + 2047) (2048 * k) ∧
      bit (v.hitRow row x).poison k = bit v.poison k := by
  refine ⟨bits_setBits_of_disjoint (by omega) (by omega), ?_⟩
  rw [VReg.hitRow, bit_or_two_pow, decide_eq_false (Ne.symm hk), Bool.or_false]

theorem Tile.hitRow_other (z : Tile) {k : Nat} (hk : k ≠ row) :
    bits (z.hitRow row x).buf (8192 * k + 8191) (8192 * k) = bits z.buf (8192 * k + 8191) (8192 * k) ∧
      bit (z.hitRow row x).poison k = bit z.poison k := by
  refine ⟨bits_setBits_of_disjoint (by omega) (by omega), ?_⟩
  rw [Tile.hitRow, bit_or_two_pow, decide_eq_false (Ne.symm hk), Bool.or_false]

theorem VReg.hitRow_poison (v : VReg) : bit (v.hitRow row x).poison row = true := by
  rw [VReg.hitRow, bit_or_two_pow, decide_eq_true rfl, Bool.or_true]

theorem Tile.hitRow_poison (z : Tile) : bit (z.hitRow row x).poison row = true := by
  rw [Tile.hitRow, bit_or_two_pow, decide_eq_true rfl, Bool.or_true]

end Registers

/-- An act on the strand of the focus reaches it. -/
theorem State.mapStrands_me_self (s : State) (g : Strand → Strand) : (s.mapStrands (fun st => st.sid == s.me.sid) g).me = g s.me := by
  simp [State.mapStrands]

/-- An error in a register of the focused strand: free bits go into it, and memory is as before. -/
theorem State.hitRegister_eq (s : State) (n : Nat) (g : Strand → Strand) :
    ((s.freeBits n).2.mapStrands (fun st => st.sid == s.me.sid) g).me = g s.me ∧
      s.sameMemory ((s.freeBits n).2.mapStrands (fun st => st.sid == s.me.sid) g) :=
  ⟨State.mapStrands_me_self (s.freeBits n).2 g, fun _ => rfl, rfl, rfl⟩

section Errors

variable (s : State)

theorem exec_uncorrectableError_granules (first n : Nat) (hs : s.Inv) :
    ∃ t, exec (.uncorrectableError (.granules first n)) s = .next t ∧ t.me = s.me ∧
      (∀ g, first ≤ g → g < first + n → g ∈ t.memPoison) ∧ t.memTaint = s.memTaint ∧
      ∀ a, (a / 32 < first ∨ first + n ≤ a / 32) → memGet t.mem a = memGet s.mem a := by
  obtain ⟨hme, htaint, hpoison, hget⟩ := foldl_hitGranule (upTo first (first + n)) s hs
  refine ⟨_, rfl, hme, fun g hlo hhi => hpoison g (.inl (mem_upTo.mpr ⟨hlo, hhi⟩)), htaint, fun a ha => hget a fun hmem => ?_⟩
  have hin := mem_upTo.mp hmem
  omega

theorem exec_uncorrectableError_generalReg {reg : Nat} (h0 : 0 < reg) (hreg : reg < 32) :
    ∃ t, exec (.uncorrectableError (.generalReg s.me.sid reg)) s = .next t ∧
      (t.me.getG reg).poison = true ∧ (∀ k, k ≠ reg → t.me.getG k = s.me.getG k) ∧ t.me.sameArrays s.me ∧ s.sameMemory t := by
  obtain ⟨hme, hmem⟩ := s.hitRegister_eq 1 (Strand.hitG reg (s.freeBits 1).1)
  have hget := s.me.getG_hitG (x := (s.freeBits 1).1) h0.ne' hreg
  refine ⟨_, rfl, ?_, fun k hk => ?_, ?_, hmem⟩ <;> rw [hme]
  · rw [hget, if_pos rfl]
  · rw [hget, if_neg hk]
  · exact s.me.hitG_sameArrays

theorem exec_uncorrectableError_arrayRow {reg row : Nat} (hreg : reg < 32) (hrow : row < s.me.grows) :
    ∃ t, exec (.uncorrectableError (.arrayRow s.me.sid reg row)) s = .next t ∧
      bit (t.me.getV reg).poison row = true ∧ (t.me.getV reg).shape = (s.me.getV reg).shape ∧
      (∀ k, k ≠ reg → t.me.getV k = s.me.getV k) ∧
      (∀ k, k ≠ row → bits (t.me.getV reg).buf (2048 * k + 2047) (2048 * k) = bits (s.me.getV reg).buf (2048 * k + 2047) (2048 * k) ∧
        bit (t.me.getV reg).poison k = bit (s.me.getV reg).poison k) ∧ t.me.g = s.me.g ∧ s.sameMemory t := by
  obtain ⟨hme, hmem⟩ := s.hitRegister_eq 32 (Strand.hitV reg row (s.freeBits 32).1)
  have hget := s.me.getV_hitV (x := (s.freeBits 32).1) hreg hrow
  have hself := (hget reg).trans (if_pos rfl)
  refine ⟨_, rfl, ?_, ?_, fun k hk => ?_, fun k hk => ?_, ?_, hmem⟩ <;> rw [hme]
  · rw [hself, VReg.hitRow_poison]
  · rw [hself]
    rfl
  · rw [hget, if_neg hk]
  · rw [hself]
    exact VReg.hitRow_other _ hk
  · exact s.me.hitV_g

theorem exec_uncorrectableError_tileRow {reg row : Nat} (hreg : reg < 16) (hrow : row < 192) :
    ∃ t, exec (.uncorrectableError (.tileRow s.me.sid reg row)) s = .next t ∧
      bit (t.me.getZ reg).poison row = true ∧ (∀ k, k ≠ reg → t.me.getZ k = s.me.getZ k) ∧
      (∀ k, k ≠ row → bits (t.me.getZ reg).buf (8192 * k + 8191) (8192 * k) = bits (s.me.getZ reg).buf (8192 * k + 8191) (8192 * k) ∧
        bit (t.me.getZ reg).poison k = bit (s.me.getZ reg).poison k) ∧ t.me.g = s.me.g ∧ s.sameMemory t := by
  obtain ⟨hme, hmem⟩ := s.hitRegister_eq 128 (Strand.hitZ reg row (s.freeBits 128).1)
  have hget := s.me.getZ_hitZ (x := (s.freeBits 128).1) hreg hrow
  have hself := (hget reg).trans (if_pos rfl)
  refine ⟨_, rfl, ?_, fun k hk => ?_, fun k hk => ?_, ?_, hmem⟩ <;> rw [hme]
  · rw [hself, Tile.hitRow_poison]
  · rw [hget, if_neg hk]
  · rw [hself]
    exact Tile.hitRow_other _ hk
  · exact s.me.hitZ_g

end Errors

end Sys2Proof.Machine
end

section
/-! ## Memory hierarchy rules (spec 13): counted corrections and field repair (R276, R429, R430) -/

namespace Sys2Proof.Machine

/-! ### What the Steward holds of a unit -/

/-- Is it the record of a unit of a die? -/
def UnitInfo.isOf (d n : Nat) (u : UnitInfo) : Bool := u.die == d && u.unit == n

theorem UnitInfo.isOf_iff {d n : Nat} {u : UnitInfo} : u.isOf d n = true ↔ u.die = d ∧ u.unit = n := by
  simp [UnitInfo.isOf]

theorem State.unitInfo_eq (s : State) (d n : Nat) : s.unitInfo d n = (s.units.find? (UnitInfo.isOf d n)).getD { die := d, unit := n } := rfl

/-- What is held of a unit is its own record. -/
theorem State.unitInfo_isOf (s : State) (d n : Nat) : (s.unitInfo d n).isOf d n = true := by
  rw [State.unitInfo_eq]
  cases hfind : s.units.find? (UnitInfo.isOf d n) with
  | none => exact UnitInfo.isOf_iff.mpr ⟨rfl, rfl⟩
  | some u => exact List.find?_some (p := UnitInfo.isOf d n) hfind

theorem State.unitInfo_putUnit_self (s : State) {u : UnitInfo} {d n : Nat} (hu : u.isOf d n = true) : (s.putUnit u).unitInfo d n = u := by
  rw [State.unitInfo_eq, State.putUnit, List.find?_cons, hu]
  rfl

theorem State.fenced_putUnit_self (s : State) {u : UnitInfo} {d n : Nat} (hu : u.isOf d n = true) (hf : u.fenced = true) :
    (s.putUnit u).fenced d n = true := by
  refine List.any_eq_true.mpr ⟨u, List.mem_cons_self, ?_⟩
  obtain ⟨hd, hn⟩ := UnitInfo.isOf_iff.mp hu
  simp [hd, hn, hf]

/-- A unit that is fenced off stays so when another unit's record changes. -/
theorem State.fenced_putUnit_of_ne (s : State) {u : UnitInfo} {d n : Nat} (hne : u.unit ≠ n) (hf : s.fenced d n = true) :
    (s.putUnit u).fenced d n = true := by
  obtain ⟨v, hv, hof⟩ := List.any_eq_true.mp hf
  refine List.any_eq_true.mpr ⟨v, List.mem_cons_of_mem _ (List.mem_filter.mpr ⟨hv, ?_⟩), hof⟩
  simp only [Bool.and_eq_true, beq_iff_eq] at hof
  obtain ⟨⟨-, hn⟩, -⟩ := hof
  simp [hn, Ne.symm hne]

/-! ### Corrections -/

/-- A record with one more correction, saturating. -/
def UnitInfo.bumped (u : UnitInfo) : UnitInfo := { u with count := if u.count == BitVec.allOnes 32 then u.count else u.count + 1 }

theorem UnitInfo.isOf_bump (d n : Nat) (u : UnitInfo) :
    UnitInfo.isOf d n (if u.isOf d n then u.bumped else u) = u.isOf d n := by
  split <;> rfl

/-- The records after a counted correction: that of the unit changes, and a unit without a record has one now. -/
def countedUnits (us : List UnitInfo) (d n : Nat) : List UnitInfo :=
  if us.any (UnitInfo.isOf d n) then us.map fun u => if u.isOf d n then u.bumped else u
  else { die := d, unit := n, count := 1 } :: us

theorem State.countCorrection_eq (s : State) (d n : Nat) : s.countCorrection d n = { s with units := countedUnits s.units d n } := by
  unfold State.countCorrection countedUnits
  by_cases hany : s.units.any (UnitInfo.isOf d n) = true
  · rw [if_pos hany]
    exact if_pos hany
  · rw [if_neg hany]
    exact if_neg hany

/-- The record of a unit after a counted correction. -/
theorem State.unitInfo_countCorrection (s : State) (d n : Nat) : (s.countCorrection d n).unitInfo d n = (s.unitInfo d n).bumped := by
  rw [State.countCorrection_eq, State.unitInfo_eq, State.unitInfo_eq]
  unfold countedUnits
  dsimp only
  split
  case isTrue hany =>
    obtain ⟨u, hu⟩ := Option.isSome_iff_exists.mp ((List.find?_isSome (p := UnitInfo.isOf d n)).mpr (List.any_eq_true.mp hany))
    have hself : UnitInfo.isOf d n u = true := List.find?_some hu
    have hcomp : (UnitInfo.isOf d n ∘ fun u : UnitInfo => if u.isOf d n then u.bumped else u) = UnitInfo.isOf d n :=
      funext (UnitInfo.isOf_bump d n)
    rw [List.find?_map, hcomp, hu]
    simp [hself]
  case isFalse hany =>
    have hnone : s.units.find? (UnitInfo.isOf d n) = none := by
      simpa using hany
    have hnew : UnitInfo.isOf d n { die := d, unit := n, count := 1 } = true := UnitInfo.isOf_iff.mpr ⟨rfl, rfl⟩
    rw [List.find?_cons, hnew, hnone]
    rfl

theorem UnitInfo.bumped_count (u : UnitInfo) : u.bumped.count = if u.count = BitVec.allOnes 32 then u.count else u.count + 1 := by
  simp [UnitInfo.bumped]

theorem exec_correctedError (s : State) (die : BitVec 2) {unit : Nat} (h : unit < 140) :
    ∃ units, exec (.correctedError die unit) s = .next { s with units := units } ∧
      ({ s with units := units }.unitInfo die.toNat unit).count =
        if (s.unitInfo die.toNat unit).count = BitVec.allOnes 32 then (s.unitInfo die.toNat unit).count
        else (s.unitInfo die.toNat unit).count + 1 := by
  have heq := s.countCorrection_eq die.toNat unit
  have hinfo := s.unitInfo_countCorrection die.toNat unit
  rw [heq] at hinfo
  have hrun : exec (.correctedError die unit) s = .next (s.countCorrection die.toNat unit) := if_pos h
  refine ⟨countedUnits s.units die.toNat unit, ?_, ?_⟩
  · rw [hrun, heq]
  · rw [hinfo, UnitInfo.bumped_count]

/-! ### Spares -/

/-- A spare in reserve for a core: one of the four, not fenced off, that serves no place. -/
theorem State.reserve?_some {s : State} {d p x : Nat} (hp : p < 68) (h : s.reserve? d p = some x) :
    64 ≤ x ∧ x < 68 ∧ s.fenced d x = false ∧ ∀ v ∈ s.units, v.die = d → v.spare ≠ some x := by
  unfold State.reserve? at h
  rw [if_pos hp] at h
  have hin := List.mem_of_find?_eq_some h
  have hfree := List.find?_some h
  simp only [Bool.and_eq_true, Bool.not_eq_true', List.any_eq_false, beq_iff_eq, not_and] at hfree
  simp only [List.mem_cons, List.not_mem_nil, or_false] at hin
  exact ⟨by omega, by omega, hfree.1, hfree.2⟩

/-- The state in which a place's record is about to change: the spare that served it is fenced off, and its cluster waits to be
enabled. -/
def State.beforeSpare (s : State) (d p cluster : Nat) : State :=
  let s1 := match (s.unitInfo d p).spare with
    | some x => s.putUnit { s.unitInfo d x with fenced := true }
    | none => s
  { s1 with
    clusters := s.clusters.filter fun c => c != (d, cluster)
    lastEnable := s.lastEnable.setIfInBounds d (s.cycleOf d) }

/-- The record of a place after a spare took it, or after it was fenced off. -/
def State.spared (s : State) (d p : Nat) : UnitInfo :=
  match s.reserve? d p with
  | some x => { s.unitInfo d p with spare := some x }
  | none => { s.unitInfo d p with fenced := true }

theorem State.takeSpare_eq (s : State) (d p cluster : Nat) : s.takeSpare d p cluster = (s.beforeSpare d p cluster).putUnit (s.spared d p) := by
  unfold State.takeSpare State.beforeSpare State.spared
  cases s.reserve? d p <;> rfl

theorem State.spared_isOf (s : State) (d p : Nat) : (s.spared d p).isOf d p = true := by
  have hself := s.unitInfo_isOf d p
  unfold State.spared
  cases s.reserve? d p <;> exact hself

/-- A repair leaves strands and memory alone. -/
theorem State.beforeSpare_frame (s : State) (d p cluster : Nat) :
    (s.beforeSpare d p cluster).strands = s.strands ∧ s.sameMemory (s.beforeSpare d p cluster) := by
  unfold State.beforeSpare
  cases (s.unitInfo d p).spare <;> exact ⟨rfl, fun _ => rfl, rfl, rfl⟩

theorem State.takeSpare_frame (s : State) (d p cluster : Nat) :
    (s.takeSpare d p cluster).strands = s.strands ∧ s.sameMemory (s.takeSpare d p cluster) ∧
      (d, cluster) ∉ (s.takeSpare d p cluster).clusters := by
  obtain ⟨hstrands, hmem⟩ := s.beforeSpare_frame d p cluster
  rw [State.takeSpare_eq]
  refine ⟨hstrands, hmem, fun hin => ?_⟩
  simpa using (List.mem_filter.mp (show (d, cluster) ∈ s.clusters.filter fun c => c != (d, cluster) from hin)).2

theorem State.unitInfo_takeSpare (s : State) (d p cluster : Nat) : (s.takeSpare d p cluster).unitInfo d p = s.spared d p := by
  rw [State.takeSpare_eq, State.unitInfo_putUnit_self _ (s.spared_isOf d p)]

/-- A spare that had served a place is not used again. -/
theorem State.fenced_takeSpare (s : State) {d p x : Nat} (cluster : Nat) (hspare : (s.unitInfo d p).spare = some x) (hne : p ≠ x) :
    (s.takeSpare d p cluster).fenced d x = true := by
  have hplace : (s.spared d p).unit ≠ x := by
    rw [(UnitInfo.isOf_iff.mp (s.spared_isOf d p)).2]
    exact hne
  rw [State.takeSpare_eq]
  refine State.fenced_putUnit_of_ne _ hplace ?_
  have hfence : (s.putUnit { s.unitInfo d x with fenced := true }).fenced d x = true :=
    s.fenced_putUnit_self (s.unitInfo_isOf d x) rfl
  unfold State.beforeSpare
  rw [hspare]
  exact hfence

/-- The strands that must leave are asked to. -/
theorem State.askToLeave_asks (s : State) {p : Strand → Bool} {st : Strand} (hst : st ∈ s.strands) (hp : p st = true)
    (hres : st.resident = true) (hpre : st.preempt = none) (hcan : st.status ≠ .cancelled) :
    { st with preempt := some 0 } ∈ (s.askToLeave p).strands := by
  rw [State.askToLeave, State.mapStrands_strands]
  refine List.mem_map.mpr ⟨st, hst, ?_⟩
  have hcan' : (st.status != .cancelled) = true := by simpa using hcan
  simp [hp, hres, hpre, hcan']

/-! ### Field repair -/

section Repair

variable (s : State) (die : BitVec 2) {unit : Nat}

/-- The state after the repair of the place of a core. -/
def State.repairedCore (s : State) (d p : Nat) : State :=
  (s.askToLeave fun st => st.place.die == d && st.place.core == p).takeSpare d p (p / 4)

/-- What the repair of a core's place always does: its cluster waits to be enabled, and its strands are asked to leave. -/
theorem State.repairedCore_frame (d p : Nat) :
    (d, p / 4) ∉ (s.repairedCore d p).clusters ∧ s.sameMemory (s.repairedCore d p) ∧
      ∀ st ∈ s.strands, st.resident = true → st.place.die = d → st.place.core = p → st.preempt = none →
        st.status ≠ .cancelled → { st with preempt := some 0 } ∈ (s.repairedCore d p).strands := by
  obtain ⟨hstrands, hmem, hcluster⟩ :=
    (s.askToLeave fun st => st.place.die == d && st.place.core == p).takeSpare_frame d p (p / 4)
  refine ⟨hcluster, hmem, fun st hst hres hd hp hpre hcan => ?_⟩
  rw [State.repairedCore, hstrands]
  exact s.askToLeave_asks hst (by simp [hd, hp]) hres hpre hcan

theorem State.unitInfo_repairedCore (d p : Nat) : (s.repairedCore d p).unitInfo d p = s.spared d p :=
  State.unitInfo_takeSpare _ d p (p / 4)

variable (hfenced : (s.unitInfo die.toNat unit).fenced = false)
  (hcount : Config.correctionThreshold die.toNat unit (s.unitInfo die.toNat unit).used < (s.unitInfo die.toNat unit).count.toNat)

include hfenced hcount

/-- A core beyond its threshold, or a spare that serves one: the place is repaired. -/
theorem exec_fieldRepair_core {p : Nat} (hunit : unit < 68) (hplace : s.placeOf? die.toNat unit = some p) (hp : p < 68) :
    exec (.fieldRepair die unit) s = .next (s.repairedCore die.toNat p) := by
  have hskip : ¬(decide (140 ≤ unit) || (s.unitInfo die.toNat unit).fenced ||
      decide ((s.unitInfo die.toNat unit).count.toNat ≤
        Config.correctionThreshold die.toNat unit (s.unitInfo die.toNat unit).used)) = true := by
    simp only [hfenced, Bool.or_false, Bool.or_eq_true, decide_eq_true_eq]
    omega
  show execFieldRepair die unit s = _
  unfold execFieldRepair
  dsimp only
  rw [if_neg hskip, if_neg (show ¬85 ≤ unit by omega), hplace]
  exact if_pos hp

theorem exec_fieldRepair_place (hunit : unit < 64) (hspare : (s.unitInfo die.toNat unit).spare = none) :
    ∃ t, exec (.fieldRepair die unit) s = .next t ∧ (die.toNat, unit / 4) ∉ t.clusters ∧ s.sameMemory t ∧
      (∀ st ∈ s.strands, st.resident = true → st.place.die = die.toNat → st.place.core = unit → st.preempt = none →
        st.status ≠ .cancelled → { st with preempt := some 0 } ∈ t.strands) ∧
      (s.reserve? die.toNat unit = none → t.unitInfo die.toNat unit = { s.unitInfo die.toNat unit with fenced := true }) ∧
      ∀ x, s.reserve? die.toNat unit = some x →
        t.unitInfo die.toNat unit = { s.unitInfo die.toNat unit with spare := some x } ∧ t.serving die.toNat unit = x ∧
          64 ≤ x ∧ x < 68 ∧ s.fenced die.toNat x = false ∧ ∀ v ∈ s.units, v.die = die.toNat → v.spare ≠ some x := by
  have hown : s.placeOf? die.toNat unit = some unit := by
    have hnot : isSpare unit = false := by
      simp only [isSpare, Bool.or_eq_false_iff, Bool.and_eq_false_iff, decide_eq_false_iff_not, beq_eq_false_iff_ne]
      omega
    simp [State.placeOf?, hnot, hspare]
  have hinfo := s.unitInfo_repairedCore die.toNat unit
  obtain ⟨hcluster, hmem, hasked⟩ := s.repairedCore_frame die.toNat unit
  refine ⟨_, exec_fieldRepair_core s die hfenced hcount (by omega) hown (by omega), hcluster, hmem, hasked,
    fun hres => ?_, fun x hres => ?_⟩
  · rw [hinfo, State.spared, hres]
  · have hnow : (s.repairedCore die.toNat unit).unitInfo die.toNat unit = { s.unitInfo die.toNat unit with spare := some x } := by
      rw [hinfo, State.spared, hres]
    refine ⟨hnow, ?_, State.reserve?_some (by omega) hres⟩
    rw [State.serving, hnow]
    rfl

theorem exec_fieldRepair_spare {v : UnitInfo} (hlow : 64 ≤ unit) (hhigh : unit < 68)
    (hfind : s.units.find? (fun v => v.die == die.toNat && v.spare == some unit) = some v) (hv : v.unit < 64)
    (hinfo : s.unitInfo die.toNat v.unit = v) :
    ∃ t, exec (.fieldRepair die unit) s = .next t ∧ (die.toNat, v.unit / 4) ∉ t.clusters ∧ s.sameMemory t ∧
      (∀ st ∈ s.strands, st.resident = true → st.place.die = die.toNat → st.place.core = v.unit → st.preempt = none →
        st.status ≠ .cancelled → { st with preempt := some 0 } ∈ t.strands) ∧
      t.fenced die.toNat unit = true ∧ (t.serving die.toNat v.unit ≠ unit ∨ s.reserve? die.toNat v.unit = none) := by
  have hserves := List.find?_some hfind
  simp only [Bool.and_eq_true, beq_iff_eq] at hserves
  obtain ⟨hdie, hspare⟩ := hserves
  have hplace : s.placeOf? die.toNat unit = some v.unit := by
    have hyes : isSpare unit = true := by simp [isSpare, hlow, hhigh]
    simp [State.placeOf?, hyes, hfind]
  have hnow := s.unitInfo_repairedCore die.toNat v.unit
  obtain ⟨hcluster, hmem, hasked⟩ := s.repairedCore_frame die.toNat v.unit
  refine ⟨_, exec_fieldRepair_core s die hfenced hcount hhigh hplace (by omega), hcluster, hmem, hasked, ?_, ?_⟩
  · refine State.fenced_takeSpare _ (v.unit / 4) ?_ (show v.unit ≠ unit by omega)
    exact (congrArg UnitInfo.spare hinfo).trans hspare
  · cases hres : s.reserve? die.toNat v.unit with
    | none => exact .inr rfl
    | some x =>
      refine .inl fun heq => ?_
      obtain ⟨-, -, -, hunused⟩ := State.reserve?_some (by omega) hres
      rw [State.serving, hnow, State.spared, hres] at heq
      have hx : x = unit := heq
      exact hunused v (List.mem_of_find?_eq_some hfind) hdie (hx ▸ hspare)

theorem exec_fieldRepair_memory (hlow : 85 ≤ unit) (hhigh : unit < 140) :
    exec (.fieldRepair die unit) s = .next (s.putUnit
      (if (s.unitInfo die.toNat unit).used < Config.storageSpares die.toNat unit
        then { s.unitInfo die.toNat unit with used := (s.unitInfo die.toNat unit).used + 1 }
        else { s.unitInfo die.toNat unit with fenced := true })) := by
  have hskip : ¬(decide (140 ≤ unit) || (s.unitInfo die.toNat unit).fenced ||
      decide ((s.unitInfo die.toNat unit).count.toNat ≤
        Config.correctionThreshold die.toNat unit (s.unitInfo die.toNat unit).used)) = true := by
    simp only [hfenced, Bool.or_false, Bool.or_eq_true, decide_eq_true_eq]
    omega
  show execFieldRepair die unit s = _
  unfold execFieldRepair
  dsimp only
  rw [if_neg hskip, if_pos hlow]

end Repair

end Sys2Proof.Machine
end

section
/-! ## Memory hierarchy rules (spec 13): PRIV and the loss of the firmware (R422, R423) -/

namespace Sys2Proof.Machine

/-! ### A plug-in that takes PRIV -/

/-- A virtual device that is set is found again. -/
theorem State.vdev?_setVdev {s : State} {vd : Nat} {d e : VDev} (h : s.vdev? vd = some d) (he : e.vdid = d.vdid) :
    (s.setVdev e).vdev? d.vdid = some e := by
  have hd : d.vdid = vd := by simpa using List.find?_some h
  have hcomp : ((fun x : VDev => x.vdid == d.vdid) ∘ fun x => if x.vdid == e.vdid then e else x) = fun x => x.vdid == d.vdid := by
    funext x
    by_cases hx : x.vdid = d.vdid <;> simp [hx, he]
  unfold State.vdev? State.setVdev
  dsimp only
  rw [List.find?_map, hcomp, hd, show s.vds.find? (fun x => x.vdid == vd) = some d from h]
  simp [hd, he]

/-- The cancels ordered for each of some counters, all the state that ordering them touches. -/
theorem foldl_requestCancel_eq (xs : List Counter) (g : Counter → Cancel) (s : State) :
    ∃ cs n, xs.foldl (fun t c => t.requestCancel (g c)) s = { s with cancels := s.cancels ++ cs, nextId := n } ∧
      (∀ c ∈ cs, ∃ x ∈ xs, ∃ k, c = { g x with k := k }) ∧ ∀ x ∈ xs, ∃ c ∈ cs, ∃ k, c = { g x with k := k } := by
  induction xs generalizing s with
  | nil => exact ⟨[], s.nextId, by simp, by simp, by simp⟩
  | cons x xs ih =>
    obtain ⟨cs, n, heq, hfrom, hto⟩ := ih (s.requestCancel (g x))
    have hnew : (s.requestCancel (g x)).cancels = s.cancels ++ [{ g x with k := s.nextId }] := rfl
    refine ⟨{ g x with k := s.nextId } :: cs, n, ?_, fun c hc => ?_, fun y hy => ?_⟩
    · rw [List.foldl_cons, heq, hnew, List.append_assoc]
      rfl
    · rcases List.mem_cons.mp hc with rfl | hc
      · exact ⟨x, List.mem_cons_self, _, rfl⟩
      · obtain ⟨y, hy, h⟩ := hfrom c hc
        exact ⟨y, List.mem_cons_of_mem _ hy, h⟩
    · rcases List.mem_cons.mp hy with rfl | hy
      · exact ⟨_, List.mem_cons_self, _, rfl⟩
      · obtain ⟨c, hc, h⟩ := hto y hy
        exact ⟨c, List.mem_cons_of_mem _ hc, h⟩

/-- An interface that enters ERROR: its virtual device says so, and each job that is not cancelled yet is (log entry 98). -/
theorem State.ifaceError_eq {s : State} {vd : Nat} {d : VDev} (h : s.vdev? vd = some d) :
    ∃ cs n, s.ifaceError vd =
        { s.setVdev { d with iface := .error } with cancels := s.cancels ++ cs, nextId := n } ∧
      (∀ c ∈ cs, c.level = .job ∧ c.vd = vd) ∧
      ∀ c ∈ s.counters, c.vd = vd → c.level = .job → c.cancelled = false → ∃ x ∈ cs, x.key = c.key := by
  obtain ⟨cs, n, heq, hfrom, hto⟩ := foldl_requestCancel_eq (s.counters.filter fun c => c.vd == vd && c.level == .job && !c.cancelled)
    (fun c => { level := .job, vd := vd, die := c.die, key := c.key }) (s.setVdev { d with iface := .error })
  refine ⟨cs, n, ?_, fun c hc => ?_, fun c hc hvd hjob hlive => ?_⟩
  · unfold State.ifaceError
    rw [h]
    exact heq
  · obtain ⟨x, -, k, rfl⟩ := hfrom c hc
    exact ⟨rfl, rfl⟩
  · obtain ⟨x, hx, k, rfl⟩ := hto c (List.mem_filter.mpr ⟨hc, by simp [hvd, hjob, hlive]⟩)
    exact ⟨_, hx, rfl⟩

/-- The processors that run a plug-in have stopped. -/
def State.idlePlugin (s : State) (vd : Nat) : State :=
  { s with stewards := s.stewards.map fun c =>
      if c.level == 2 && c.tenant == vd then { c with cpu := { c.cpu with status := .idle } } else c }

theorem State.idlePlugin_idle (s : State) (vd : Nat) :
    ∀ c ∈ (s.idlePlugin vd).stewards.toList, c.level = 2 → c.tenant = vd → c.cpu.status = .idle := by
  intro c hc hlevel htenant
  unfold State.idlePlugin at hc
  dsimp only at hc
  rw [Vector.toList_map] at hc
  obtain ⟨x, -, rfl⟩ := List.mem_map.mp hc
  by_cases hruns : (x.level == 2 && x.tenant == vd) = true
  · rw [if_pos hruns]
  · rw [if_neg hruns] at hlevel htenant
    simp [hlevel, htenant] at hruns

/-- A plug-in that is stopped. -/
theorem State.stopPlugin_spec {s : State} {vd : Nat} {d : VDev} (h : s.vdev? vd = some d) :
    ∃ cs, (s.stopPlugin d).vdev? d.vdid = some { d with pluginStopped := true, iface := .error } ∧
      (s.stopPlugin d).privs = s.privs ∧ s.sameMemory (s.stopPlugin d) ∧ (s.stopPlugin d).me = s.me ∧
      (s.stopPlugin d).launches = s.launches ∧ (s.stopPlugin d).cancels = s.cancels ++ cs ∧
      (∀ c ∈ cs, c.level = .job ∧ c.vd = d.vdid) ∧
      (∀ c ∈ s.counters, c.vd = d.vdid → c.level = .job → c.cancelled = false → ∃ x ∈ cs, x.key = c.key) ∧
      ∀ c ∈ (s.stopPlugin d).stewards.toList, c.level = 2 → c.tenant = d.vdid → c.cpu.status = .idle := by
  have hidle : (s.idlePlugin d.vdid).vdev? vd = some d := h
  have hstop := State.vdev?_setVdev (e := { d with pluginStopped := true }) hidle rfl
  obtain ⟨cs, n, heq, hjob, hall⟩ := State.ifaceError_eq hstop
  have hrun : s.stopPlugin d = ((s.idlePlugin d.vdid).setVdev { d with pluginStopped := true }).ifaceError d.vdid := rfl
  have herror := State.vdev?_setVdev (e := { d with pluginStopped := true, iface := .error }) hstop rfl
  rw [hrun, heq]
  exact ⟨cs, herror, rfl, ⟨fun _ => rfl, rfl, rfl⟩, rfl, rfl, rfl, hjob, hall, s.idlePlugin_idle d.vdid⟩

theorem exec_priv_plugin {s : State} {v : BitVec 4} {need : BitVec 2} {access : Option PluginAccess} {d : VDev}
    (h : s.vdev? v.toNat = some d) (hlive : d.pluginStopped = false)
    (hpriv : need.toNat < 2 ∨ ∃ a, access = some a ∧ d.pluginMay a = false) :
    exec (.priv (some v) 2 need access) s = .next (State.stopPlugin { s with privs := s.privs ++ [(2, need.toNat)] } d) := by
  have hraise : s.raisePriv (some d) 2 need.toNat = State.stopPlugin { s with privs := s.privs ++ [(2, need.toNat)] } d := by
    unfold State.raisePriv
    simp [hlive]
  show execPriv (some v) 2 need access s = _
  unfold execPriv
  simp only [Option.bind_some, h]
  rw [if_pos]
  · exact congrArg _ hraise
  · rcases hpriv with hneed | ⟨a, rfl, hmay⟩
    · simp [hneed]
    · simp [hmay]

theorem exec_priv_other (s : State) (v : Option (BitVec 4)) {level : BitVec 2} (need : BitVec 2) (access : Option PluginAccess)
    (hlevel : level ≠ 2) :
    exec (.priv v level need access) s =
      .next (if need.toNat < level.toNat then { s with privs := s.privs ++ [(level.toNat, need.toNat)] } else s) := by
  have hraise (d : Option VDev) : s.raisePriv d level.toNat need.toNat = { s with privs := s.privs ++ [(level.toNat, need.toNat)] } := by
    have hnot : (level.toNat == 2) = false := by
      rw [beq_eq_false_iff_ne]
      exact fun h => hlevel (BitVec.eq_of_toNat_eq h)
    unfold State.raisePriv
    cases d with
    | none => rfl
    | some d => simp [hnot]
  have hnot : (level == 2) = false := beq_eq_false_iff_ne.mpr hlevel
  show execPriv v level need access s = _
  unfold execPriv
  dsimp only
  simp only [hnot, hraise, Bool.false_and, Bool.or_false, decide_eq_true_eq]

/-! ### Firmware loss -/

/-- Nothing follows from no endings. -/
theorem State.settleAll_nil (s : State) : s.settleAll [] = s := by
  unfold State.settleAll
  cases ([] : List Ending).length + (s.launches.length + 8) ^ 2 <;> rfl

theorem exec_firmwareLoss_of_final {s : State} (hrun : s.firmware = .running) (hfinal : ∀ l ∈ s.launches, l.state.final = true) :
    exec .firmwareLoss s = .next { s with
      vds := s.vds.map fun d => { d with iface := .error }
      counters := s.counters.map fun c => { c with cancelled := true }
      stewards := s.stewards.map fun c => { c with cpu := { c.cpu with status := .idle } }
      serials := [], firmware := .waiting, imageLen := 0 } := by
  have hnone : (s.launches.filter fun l => !l.state.final) = [] :=
    List.filter_eq_nil_iff.mpr fun l hl => by simp [hfinal l hl]
  show execFirmwareLoss s = _
  unfold execFirmwareLoss
  rw [if_pos (by simp [hrun])]
  unfold State.loseFirmware
  dsimp only
  rw [hnone, List.map_nil, State.settleAll_nil]

/-! ### The obligation -/

/-- Settles O56: what an error reaches is read off the state of each clause (`foldl_hitGranule`, `State.hitRegister_eq`); a
repair asks its strands to leave and changes one record (`State.takeSpare_eq`); PRIV stops the plug-in (`State.stopPlugin_spec`). -/
theorem errorsAndRepair : Obligations.ErrorsAndRepair := by
  unfold Obligations.ErrorsAndRepair
  refine ⟨exec_uncorrectableError_granules, fun s reg row => ⟨exec_uncorrectableError_generalReg s,
    exec_uncorrectableError_arrayRow s, exec_uncorrectableError_tileRow s⟩, fun _ _ => rfl,
    fun s die unit => exec_correctedError s die, ?_, ?_,
    fun s v level need access => exec_priv_other s v need access, fun s => exec_firmwareLoss_of_final⟩
  · intro s die unit d u reserve asked hfenced hcount
    exact ⟨exec_fieldRepair_place s die hfenced hcount, fun v hlow hhigh => exec_fieldRepair_spare s die hfenced hcount hlow hhigh,
      exec_fieldRepair_memory s die hfenced hcount⟩
  · intro s v need access d hd hlive hpriv
    obtain ⟨cs, hspec⟩ := State.stopPlugin_spec (s := { s with privs := s.privs ++ [(2, need.toNat)] }) hd
    exact ⟨_, cs, exec_priv_plugin hd hlive hpriv, hspec⟩

end Sys2Proof.Machine
end
